-- ==== Sys2Proof/Word.lean ====
section
/-! DEFINITION. The words of the machine: bytes, 64-bit words, vector and predicate registers, register numbers,
and the closed sets of names that instruction fields hold (R3, R175, R202, R205 of spec/). -/

namespace Sys2Proof

/-- The smallest addressable unit (R4). -/
abbrev Byte := BitVec 8
/-- A scalar register or control register value (R8). -/
abbrev Word := BitVec 64
/-- A vector register: one line, 1024 bits (R8). -/
abbrev VReg := BitVec 1024
/-- A predicate register: one bit for each byte of a vector register (R247). -/
abbrev PReg := BitVec 128
/-- A scalar register number (R202). -/
abbrev XIdx := BitVec 5
/-- A vector register number (R202). -/
abbrev VIdx := BitVec 5
/-- A predicate register number (R202). -/
abbrev PIdx := BitVec 4
/-- The 64 data bytes of a granule; byte `i` is bits `8*i+7 .. 8*i` (R4, R3). -/
abbrev GData := BitVec 512
/-- The 64-bit metadata word of a granule (Table 06.2). -/
abbrev Meta := BitVec 64
/-- A 1024-bit silhouette (R129). -/
abbrev Sil := BitVec 1024

/-- Element widths; codes 00, 01, 10, 11 (R202). -/
inductive EW where
  | b | h | w | d
  deriving DecidableEq, Repr, Inhabited

/-- Number formats (Table 12.1). -/
inductive Fmt where
  | f32 | bf16 | f16 | e4m3 | e5m2 | e2m1 | i8 | ui8 | i4 | rns3 | i16 | i32 | e8m0
  deriving DecidableEq, Repr, Inhabited

/-- Scopes: 00 core, 01 cluster, 10 device, 11 system (R123, R205). -/
inductive Scope where
  | core | cluster | device | system
  deriving DecidableEq, Repr, Inhabited

/-- Rounding modes: 00 RNE, 01 RTZ, 10 RDN, 11 RUP (R187). -/
inductive Rnd where
  | rne | rtz | rdn | rup
  deriving DecidableEq, Repr, Inhabited

/-- The space of a vector memory operand: 00 memory, 01 scratchpad, 10 lane store (R45, R270). -/
inductive Space where
  | mem | sp | ls
  deriving DecidableEq, Repr, Inhabited

/-- Scalar access widths (R60). -/
inductive LWidth where
  | b | h | w | d | bu | hu | wu
  deriving DecidableEq, Repr, Inhabited

/-- Compare conditions (R255). -/
inductive Cond where
  | eq | ne | lt | le | ltu | leu | gt | gtu
  deriving DecidableEq, Repr, Inhabited

end Sys2Proof
end

