-- ==== Sys2Proof/Syntax.lean ====
section
/-! DEFINITION. The instructions and events of the machine: one constructor for each row of spec/opcode_table.json.
The first 234 are the instruction words of 14_encoding.md (Table 14.3), with the fields the word holds; the others are the
events of 95_what_each_step_holds.md, with the operands that the outside world or the firmware chooses. -/

namespace Sys2Proof

/-- Management registers that a firmware write reaches and that have no behaviour of their own
(Tables 04.6, 04.7, 04.11, 26.1, 28.8, 30.6; MEMZONE, Table 01.5). -/
inductive MReg where
  | ageperiod | dhandle | dtimer | cqbase | cqsize | cqhead | prkey | memzone
  | leasepatience | lperiod (c : BitVec 2) | scix | pwrctl
  | sgbase (g : BitVec 6) | sgcfg (g : BitVec 6) | sgwin (g : BitVec 6) | sglate (g : BitVec 6)
  | sgtime (g : BitVec 6) | sgdrop (g : BitVec 6)
  deriving DecidableEq, Repr, Inhabited

/-- Where a command message reaches the device (R406): the port and the connection. -/
structure MsgLink where
  port : BitVec 3
  conn : Nat
  deriving DecidableEq, Repr, Inhabited

/-- The two dwords of a message's header (Table 30.1). -/
structure MsgHead where
  h0 : Word
  h1 : Word
  deriving DecidableEq, Repr, Inhabited

/-- The bytes of a message: its header and its body. -/
structure MsgPacket extends MsgHead where
  body : List Byte
  deriving DecidableEq, Repr, Inhabited

/-- A command message as it reaches the device (R407). Its constructors of `Instr` take it whole or in these parts. -/
structure HostMsg extends MsgLink, MsgPacket where
  deriving DecidableEq, Repr, Inhabited

/-- One output port of one router (R11). -/
structure RouterPort where
  router : Nat
  port : Nat
  deriving DecidableEq, Repr, Inhabited

/-- A Celior image in the module's nonvolatile store: its version and its bytes (R420). -/
structure Celior where
  version : Word
  image : List Byte
  deriving DecidableEq, Repr, Inhabited

/-- What the environment decides of a power-on (R416-R418): whether each stage passes, the zone firmware sets (R19), and
the units that fail the almanac pass, as class, unit and the failing pattern. -/
structure PowerOn where
  /-- 0: the Celior image verifies; 1: its signature fails; 2: it cannot be read (R418). -/
  image : BitVec 2
  /-- The image that stage 0 finds: an update since the last power-on takes effect with it (R420). -/
  celior : Celior
  /-- The almanac that the nonvolatile store holds (R394). -/
  almanac : List Byte
  mountOk : Bool
  hbmOk : Bool
  scanOk : Bool
  /-- Code and unit reported when a stage of 1 to 3 fails (Table 30.4). -/
  failCode : BitVec 32
  failClass : BitVec 2
  failUnit : BitVec 10
  lzlog : BitVec 6
  almanacFails : List (BitVec 2 × Nat × BitVec 32)
  deriving DecidableEq, Repr, Inhabited

/-- The instructions (234 words) and the events (80 rows) of spec/opcode_table.json. -/
inductive Instr where
  /-- ADD (R213): Writes xa + xb, wrapping, to xd. -/
  | add (d : XIdx) (a : XIdx) (b : XIdx)
  /-- SUB (R213): Writes xa - xb, wrapping, to xd. -/
  | sub (d : XIdx) (a : XIdx) (b : XIdx)
  /-- AND (R213): Writes the bitwise and of xa and xb to xd. -/
  | and (d : XIdx) (a : XIdx) (b : XIdx)
  /-- OR (R213): Writes the bitwise or of xa and xb to xd. -/
  | or (d : XIdx) (a : XIdx) (b : XIdx)
  /-- XOR (R213): Writes the exclusive or of xa and xb to xd. -/
  | xor (d : XIdx) (a : XIdx) (b : XIdx)
  /-- SLL (R213): Shifts xa left by xb[5:0] into xd. -/
  | sll (d : XIdx) (a : XIdx) (b : XIdx)
  /-- SRL (R213): Shifts xa logically right by xb[5:0] into xd. -/
  | srl (d : XIdx) (a : XIdx) (b : XIdx)
  /-- SRA (R213): Shifts xa arithmetically right by xb[5:0] into xd. -/
  | sra (d : XIdx) (a : XIdx) (b : XIdx)
  /-- SLT (R213): Writes 1 to xd if xa < xb signed, else 0. -/
  | slt (d : XIdx) (a : XIdx) (b : XIdx)
  /-- SLTU (R213): Writes 1 to xd if xa < xb unsigned, else 0. -/
  | sltu (d : XIdx) (a : XIdx) (b : XIdx)
  /-- MIN (R213): Writes the signed minimum of xa and xb to xd. -/
  | min (d : XIdx) (a : XIdx) (b : XIdx)
  /-- MAX (R213): Writes the signed maximum of xa and xb to xd. -/
  | max (d : XIdx) (a : XIdx) (b : XIdx)
  /-- MINU (R213): Writes the unsigned minimum of xa and xb to xd. -/
  | minu (d : XIdx) (a : XIdx) (b : XIdx)
  /-- MAXU (R213): Writes the unsigned maximum of xa and xb to xd. -/
  | maxu (d : XIdx) (a : XIdx) (b : XIdx)
  /-- CLZ (R213): Writes the count of leading zeros of xa to xd. -/
  | clz (d : XIdx) (a : XIdx)
  /-- CTZ (R213): Writes the count of trailing zeros of xa to xd. -/
  | ctz (d : XIdx) (a : XIdx)
  /-- POPC (R213): Writes the number of set bits of xa to xd. -/
  | popc (d : XIdx) (a : XIdx)
  /-- ADD_SAT (R213): Writes the signed-saturated sum of xa and xb to xd. -/
  | addSat (d : XIdx) (a : XIdx) (b : XIdx)
  /-- SUB_SAT (R213): Writes the signed-saturated difference of xa and xb to xd. -/
  | subSat (d : XIdx) (a : XIdx) (b : XIdx)
  /-- BFX (R215): Extracts a sign-extended bit field of xa into xd. -/
  | bfx (d : XIdx) (a : XIdx) (pos : BitVec 6) (lenM1 : BitVec 6)
  /-- BFXU (R215): Extracts a zero-extended bit field of xa into xd. -/
  | bfxu (d : XIdx) (a : XIdx) (pos : BitVec 6) (lenM1 : BitVec 6)
  /-- BFI (R215): Inserts the low bits of xa into a bit field of xd. -/
  | bfi (d : XIdx) (a : XIdx) (pos : BitVec 6) (lenM1 : BitVec 6)
  /-- FSL (R216): Funnel-shifts xa:xb left and keeps the high 64 bits. -/
  | fsl (d : XIdx) (a : XIdx) (b : XIdx) (sh : BitVec 6)
  /-- FSR (R216): Funnel-shifts xb:xa right and keeps the low 64 bits. -/
  | fsr (d : XIdx) (a : XIdx) (b : XIdx) (sh : BitVec 6)
  /-- MUL (R214): Writes the low 64 bits of xa times xb to xd. -/
  | mul (d : XIdx) (a : XIdx) (b : XIdx)
  /-- MULH (R214): Writes the high 64 bits of the signed product to xd. -/
  | mulh (d : XIdx) (a : XIdx) (b : XIdx)
  /-- MULHU (R214): Writes the high 64 bits of the unsigned product to xd. -/
  | mulhu (d : XIdx) (a : XIdx) (b : XIdx)
  /-- MULHSU (R214): Writes the high 64 bits of signed xa times unsigned xb to xd. -/
  | mulhsu (d : XIdx) (a : XIdx) (b : XIdx)
  /-- DIV (R214): Writes the signed quotient of xa by xb to xd, never trapping. -/
  | div (d : XIdx) (a : XIdx) (b : XIdx)
  /-- DIVU (R214): Writes the unsigned quotient of xa by xb to xd. -/
  | divu (d : XIdx) (a : XIdx) (b : XIdx)
  /-- REM (R214): Writes the signed remainder of xa by xb to xd. -/
  | rem (d : XIdx) (a : XIdx) (b : XIdx)
  /-- REMU (R214): Writes the unsigned remainder of xa by xb to xd. -/
  | remu (d : XIdx) (a : XIdx) (b : XIdx)
  /-- DIV_SAT (R214): Signed division with the saturated result for the most negative value divided by -1. -/
  | divSat (d : XIdx) (a : XIdx) (b : XIdx)
  /-- ADDI (R217): Writes xa plus a sign-extended immediate to xd. -/
  | addi (d : XIdx) (a : XIdx) (imm : BitVec 16)
  /-- ANDI (R217): Ands xa with a zero-extended immediate into xd. -/
  | andi (d : XIdx) (a : XIdx) (imm : BitVec 16)
  /-- ORI (R217): Ors xa with a zero-extended immediate into xd. -/
  | ori (d : XIdx) (a : XIdx) (imm : BitVec 16)
  /-- XORI (R217): Exclusive-ors xa with a zero-extended immediate into xd. -/
  | xori (d : XIdx) (a : XIdx) (imm : BitVec 16)
  /-- SLTI (R217): Writes 1 to xd if xa is below the signed immediate. -/
  | slti (d : XIdx) (a : XIdx) (imm : BitVec 16)
  /-- SLTIU (R217): Writes 1 to xd if xa is below the sign-extended immediate, unsigned. -/
  | sltiu (d : XIdx) (a : XIdx) (imm : BitVec 16)
  /-- SLLI (R217): Shifts xa left by an immediate count. -/
  | slli (d : XIdx) (a : XIdx) (sh : BitVec 6)
  /-- SRLI (R217): Shifts xa logically right by an immediate count. -/
  | srli (d : XIdx) (a : XIdx) (sh : BitVec 6)
  /-- SRAI (R217): Shifts xa arithmetically right by an immediate count. -/
  | srai (d : XIdx) (a : XIdx) (sh : BitVec 6)
  /-- RORI (R217): Rotates xa right by an immediate count. -/
  | rori (d : XIdx) (a : XIdx) (sh : BitVec 6)
  /-- LUI (R217): Writes the sign-extended immediate shifted left by 16 to xd. -/
  | lui (d : XIdx) (imm : BitVec 21)
  /-- ADDPC (R217): Writes PC plus the immediate shifted left by 12 to xd. -/
  | addpc (d : XIdx) (imm : BitVec 21)
  /-- LD (R218): Loads an aligned scalar of the given width from memory after translation, visibility and check. -/
  | ld (wd : LWidth) (d : XIdx) (a : XIdx) (off : BitVec 13)
  /-- ST (R219): Stores the low bytes of xs as a partial granule, merging in O1 or by merge fetch. -/
  | st (wd : EW) (src : XIdx) (a : XIdx) (off : BitVec 13)
  /-- AMOADD (R284): Atomically adds at the home junction and returns the old value. -/
  | amoadd (dbl : Bool) (acq : Bool) (rls : Bool) (sc : Scope) (d : XIdx) (a : XIdx) (b : XIdx)
  /-- AMOMIN (R284): Atomic signed minimum at the home junction, returning the old value. -/
  | amomin (dbl : Bool) (acq : Bool) (rls : Bool) (sc : Scope) (d : XIdx) (a : XIdx) (b : XIdx)
  /-- AMOMAX (R284): Atomic signed maximum at the home junction, returning the old value. -/
  | amomax (dbl : Bool) (acq : Bool) (rls : Bool) (sc : Scope) (d : XIdx) (a : XIdx) (b : XIdx)
  /-- AMOMINU (R284): Atomic unsigned minimum at the home junction, returning the old value. -/
  | amominu (dbl : Bool) (acq : Bool) (rls : Bool) (sc : Scope) (d : XIdx) (a : XIdx) (b : XIdx)
  /-- AMOMAXU (R284): Atomic unsigned maximum at the home junction, returning the old value. -/
  | amomaxu (dbl : Bool) (acq : Bool) (rls : Bool) (sc : Scope) (d : XIdx) (a : XIdx) (b : XIdx)
  /-- AMOAND (R284): Atomic bitwise and at the home junction, returning the old value. -/
  | amoand (dbl : Bool) (acq : Bool) (rls : Bool) (sc : Scope) (d : XIdx) (a : XIdx) (b : XIdx)
  /-- AMOOR (R284): Atomic bitwise or at the home junction, returning the old value. -/
  | amoor (dbl : Bool) (acq : Bool) (rls : Bool) (sc : Scope) (d : XIdx) (a : XIdx) (b : XIdx)
  /-- AMOXOR (R284): Atomic exclusive or at the home junction, returning the old value. -/
  | amoxor (dbl : Bool) (acq : Bool) (rls : Bool) (sc : Scope) (d : XIdx) (a : XIdx) (b : XIdx)
  /-- AMOSWAP (R284): Atomically swaps in xb at the home junction, returning the old value. -/
  | amoswap (dbl : Bool) (acq : Bool) (rls : Bool) (sc : Scope) (d : XIdx) (a : XIdx) (b : XIdx)
  /-- AMOCAS (R284): Atomic compare-and-swap against xd at the home junction, returning the old value. -/
  | amocas (dbl : Bool) (acq : Bool) (rls : Bool) (sc : Scope) (d : XIdx) (a : XIdx) (b : XIdx)
  /-- LD_NC (R283): Bypass load that drains own entries and reads at the home junction, skipping I1, I2 and I3. -/
  | ldNc (wd : LWidth) (d : XIdx) (a : XIdx) (off : BitVec 5)
  /-- BEQ (R220): Branches when xa equals xb. -/
  | beq (a : XIdx) (b : XIdx) (off : BitVec 16)
  /-- BNE (R220): Branches when xa differs from xb. -/
  | bne (a : XIdx) (b : XIdx) (off : BitVec 16)
  /-- BLT (R220): Branches when xa < xb signed. -/
  | blt (a : XIdx) (b : XIdx) (off : BitVec 16)
  /-- BGE (R220): Branches when xa >= xb signed. -/
  | bge (a : XIdx) (b : XIdx) (off : BitVec 16)
  /-- BLTU (R220): Branches when xa < xb unsigned. -/
  | bltu (a : XIdx) (b : XIdx) (off : BitVec 16)
  /-- BGEU (R220): Branches when xa >= xb unsigned. -/
  | bgeu (a : XIdx) (b : XIdx) (off : BitVec 16)
  /-- JAL (R221): Writes PC + 4 to xd and jumps PC-relative. -/
  | jal (d : XIdx) (off : BitVec 21)
  /-- JALR (R221): Jumps to xa plus offset after an alignment test, writing PC + 4 to xd. -/
  | jalr (d : XIdx) (a : XIdx) (off : BitVec 16)
  /-- BSTRIP (R222): Branches while xremain is nonzero and traps when the no-progress monitor sees no fall. -/
  | bstrip (a : XIdx) (off : BitVec 16)
  /-- LOOP (R223): Opens a hardware loop frame over the following body with latched count and flags. -/
  | loop (a : XIdx) (b : XIdx) (level : BitVec 3) (lenM1 : BitVec 4) (dinc : BitVec 3) (ainc : BitVec 3) (binc : BitVec 3)
  /-- ERET (R345): Returns from a trap to EPC, restoring level, interrupt enable and the resume flag. -/
  | eret
  /-- HALT (R232): Ends the hart's step at once, discarding held granules, with outcome FAULT. -/
  | halt
  /-- WAIT (R232): Idles the hart until an interrupt is pending. -/
  | wait
  /-- BREAK (R232): Raises the breakpoint trap. -/
  | brk
  /-- TRAP (R232): Raises the trap-instruction cause with the given code. -/
  | trap (code : BitVec 8)
  /-- CRD (R233): Reads a control register into xd. -/
  | crd (d : XIdx) (r : BitVec 12)
  /-- CWR (R233): Writes xa to a control register under its field access rules. -/
  | cwr (a : XIdx) (r : BitVec 12)
  /-- CSET (R208): Writes 1 to the control-register bits set in xa and returns the old value. -/
  | cset (d : XIdx) (a : XIdx) (r : BitVec 12)
  /-- CCL (R208): Writes 0 to the control-register bits set in xa and returns the old value. -/
  | ccl (d : XIdx) (a : XIdx) (r : BitVec 12)
  /-- FENCE (R127): Waits for earlier loads and for earlier stores to drain as far as the scope requires. -/
  | fence (sc : Scope)
  /-- REL (R132): Performs a release at its scope, draining and publishing the core's granules. -/
  | rel (sc : Scope)
  /-- STREL (R133): Releases, then stores a flag at its home junction with the silhouette as attachment. -/
  | strel (sc : Scope) (a : XIdx) (b : XIdx) (off : BitVec 5)
  /-- LDACQ (R135): Reads a flag at the home junction and applies its attachment to I1 and I2. -/
  | ldacq (d : XIdx) (a : XIdx) (off : BitVec 5)
  /-- DRAIN (R128): Waits until every earlier vector, memory, copy, matrix-store, gather and queue operation completes. -/
  | drain
  /-- TURN (R106): Switches the core's own granules of a region to the given level, moving and invalidating copies. -/
  | turn (a : XIdx) (b : XIdx) (levelM1 : BitVec 2)
  /-- TURNQ (R290): Counts the granules of a region still awaiting handover. -/
  | turnq (d : XIdx) (a : XIdx) (b : XIdx)
  /-- QSEND (R292): Places xa in the receiver's queue, waiting while it is full. -/
  | qsend (a : XIdx) (q : BitVec 2)
  /-- QRECV (R292): Waits for a queue word and removes the oldest into xd. -/
  | qrecv (d : XIdx) (q : BitVec 2)
  /-- QPOLL (R292): Takes the oldest queue word if any, without waiting, and reports a flag. -/
  | qpoll (d : XIdx) (b : XIdx) (q : BitVec 2)
  /-- QPUSH (R293): Turns a region at the pipe's level, then sends its base and length as two words. -/
  | qpush (a : XIdx) (b : XIdx) (q : BitVec 2)
  /-- TSPAWN (R332): Submits a launch block to the dispatcher and returns the launch handle or 0. -/
  | tspawn (d : XIdx) (a : XIdx)
  /-- TDEP (R333): Makes a waiter step or launch depend on a dependee. -/
  | tdep (a : XIdx) (b : XIdx)
  /-- TDONE (R334): Ends the hart and reports its outcome. -/
  | tdone (a : XIdx)
  /-- GBAR (R335): Releases, ships the silhouette and arrives at the gang or team barrier. -/
  | gbar (team : Bool)
  /-- TYIELD (R336): Offers the core to a staged step of equal or higher effective priority. -/
  | tyield
  /-- VSETVL (R237): Sets VL to min(xa, 1024/ew), clears VSTART and returns VL. -/
  | vsetvl (ew : EW) (d : XIdx) (a : XIdx)
  /-- VADD (R250): Element-wise add with rounding and saturation from the word. -/
  | vadd (d : VIdx) (a : VIdx) (b : VIdx) (pg : PIdx) (ew : EW) (sat : Bool) (rnd : Rnd) (z : Bool)
  /-- VSUB (R250): Element-wise subtract with rounding and saturation from the word. -/
  | vsub (d : VIdx) (a : VIdx) (b : VIdx) (pg : PIdx) (ew : EW) (sat : Bool) (rnd : Rnd) (z : Bool)
  /-- VMUL (R251): Element-wise multiply. -/
  | vmul (d : VIdx) (a : VIdx) (b : VIdx) (pg : PIdx) (ew : EW) (z : Bool)
  /-- VMULH (R251): Element-wise high half of the signed product. -/
  | vmulh (d : VIdx) (a : VIdx) (b : VIdx) (pg : PIdx) (ew : EW) (z : Bool)
  /-- VMULHU (R251): Element-wise high half of the unsigned product. -/
  | vmulhu (d : VIdx) (a : VIdx) (b : VIdx) (pg : PIdx) (ew : EW) (z : Bool)
  /-- VDIV (R251): Element-wise signed or floating quotient. -/
  | vdiv (d : VIdx) (a : VIdx) (b : VIdx) (pg : PIdx) (ew : EW) (z : Bool)
  /-- VDIVU (R251): Element-wise unsigned quotient. -/
  | vdivu (d : VIdx) (a : VIdx) (b : VIdx) (pg : PIdx) (ew : EW) (z : Bool)
  /-- VREM (R251): Element-wise signed remainder. -/
  | vrem (d : VIdx) (a : VIdx) (b : VIdx) (pg : PIdx) (ew : EW) (z : Bool)
  /-- VREMU (R251): Element-wise unsigned remainder. -/
  | vremu (d : VIdx) (a : VIdx) (b : VIdx) (pg : PIdx) (ew : EW) (z : Bool)
  /-- VMIN (R251): Element-wise signed or floating minimum. -/
  | vmin (d : VIdx) (a : VIdx) (b : VIdx) (pg : PIdx) (ew : EW) (z : Bool)
  /-- VMAX (R251): Element-wise signed or floating maximum. -/
  | vmax (d : VIdx) (a : VIdx) (b : VIdx) (pg : PIdx) (ew : EW) (z : Bool)
  /-- VMINU (R251): Element-wise unsigned minimum. -/
  | vminu (d : VIdx) (a : VIdx) (b : VIdx) (pg : PIdx) (ew : EW) (z : Bool)
  /-- VMAXU (R251): Element-wise unsigned maximum. -/
  | vmaxu (d : VIdx) (a : VIdx) (b : VIdx) (pg : PIdx) (ew : EW) (z : Bool)
  /-- VAND (R251): Element-wise and. -/
  | vand (d : VIdx) (a : VIdx) (b : VIdx) (pg : PIdx) (ew : EW) (z : Bool)
  /-- VOR (R251): Element-wise or. -/
  | vor (d : VIdx) (a : VIdx) (b : VIdx) (pg : PIdx) (ew : EW) (z : Bool)
  /-- VXOR (R251): Element-wise exclusive or. -/
  | vxor (d : VIdx) (a : VIdx) (b : VIdx) (pg : PIdx) (ew : EW) (z : Bool)
  /-- VAVG (R251): Element-wise floor average of signed values. -/
  | vavg (d : VIdx) (a : VIdx) (b : VIdx) (pg : PIdx) (ew : EW) (z : Bool)
  /-- VABSD (R251): Element-wise absolute difference of signed values. -/
  | vabsd (d : VIdx) (a : VIdx) (b : VIdx) (pg : PIdx) (ew : EW) (z : Bool)
  /-- VADDX (R252): Adds a scalar operand to each element. -/
  | vaddx (d : VIdx) (a : VIdx) (b : XIdx) (pg : PIdx) (ew : EW) (z : Bool)
  /-- VSUBX (R252): Subtracts a scalar operand from each element. -/
  | vsubx (d : VIdx) (a : VIdx) (b : XIdx) (pg : PIdx) (ew : EW) (z : Bool)
  /-- VRSUBX (R252): Subtracts each element from a scalar operand. -/
  | vrsubx (d : VIdx) (a : VIdx) (b : XIdx) (pg : PIdx) (ew : EW) (z : Bool)
  /-- VMULX (R252): Multiplies each element by a scalar operand. -/
  | vmulx (d : VIdx) (a : VIdx) (b : XIdx) (pg : PIdx) (ew : EW) (z : Bool)
  /-- VMULHX (R252): Signed high half of each element times a scalar. -/
  | vmulhx (d : VIdx) (a : VIdx) (b : XIdx) (pg : PIdx) (ew : EW) (z : Bool)
  /-- VDIVX (R252): Divides each element by a scalar, signed or floating. -/
  | vdivx (d : VIdx) (a : VIdx) (b : XIdx) (pg : PIdx) (ew : EW) (z : Bool)
  /-- VDIVUX (R252): Divides each element by a scalar, unsigned. -/
  | vdivux (d : VIdx) (a : VIdx) (b : XIdx) (pg : PIdx) (ew : EW) (z : Bool)
  /-- VREMX (R252): Signed remainder of each element by a scalar. -/
  | vremx (d : VIdx) (a : VIdx) (b : XIdx) (pg : PIdx) (ew : EW) (z : Bool)
  /-- VREMUX (R252): Unsigned remainder of each element by a scalar. -/
  | vremux (d : VIdx) (a : VIdx) (b : XIdx) (pg : PIdx) (ew : EW) (z : Bool)
  /-- VMINX (R252): Minimum of each element and a scalar. -/
  | vminx (d : VIdx) (a : VIdx) (b : XIdx) (pg : PIdx) (ew : EW) (z : Bool)
  /-- VMAXX (R252): Maximum of each element and a scalar. -/
  | vmaxx (d : VIdx) (a : VIdx) (b : XIdx) (pg : PIdx) (ew : EW) (z : Bool)
  /-- VMINUX (R252): Unsigned minimum of each element and a scalar. -/
  | vminux (d : VIdx) (a : VIdx) (b : XIdx) (pg : PIdx) (ew : EW) (z : Bool)
  /-- VMAXUX (R252): Unsigned maximum of each element and a scalar. -/
  | vmaxux (d : VIdx) (a : VIdx) (b : XIdx) (pg : PIdx) (ew : EW) (z : Bool)
  /-- VANDX (R252): And of each element with a scalar. -/
  | vandx (d : VIdx) (a : VIdx) (b : XIdx) (pg : PIdx) (ew : EW) (z : Bool)
  /-- VORX (R252): Or of each element with a scalar. -/
  | vorx (d : VIdx) (a : VIdx) (b : XIdx) (pg : PIdx) (ew : EW) (z : Bool)
  /-- VXORX (R252): Exclusive or of each element with a scalar. -/
  | vxorx (d : VIdx) (a : VIdx) (b : XIdx) (pg : PIdx) (ew : EW) (z : Bool)
  /-- VMACC (R253): Element-wise fused d + a*b. -/
  | vmacc (d : VIdx) (a : VIdx) (b : VIdx) (pg : PIdx) (ew : EW) (z : Bool)
  /-- VMSAC (R253): Element-wise fused d - a*b. -/
  | vmsac (d : VIdx) (a : VIdx) (b : VIdx) (pg : PIdx) (ew : EW) (z : Bool)
  /-- VNEG (R253): Element-wise negation. -/
  | vneg (d : VIdx) (a : VIdx) (pg : PIdx) (ew : EW) (z : Bool)
  /-- VABS (R253): Element-wise absolute value. -/
  | vabs (d : VIdx) (a : VIdx) (pg : PIdx) (ew : EW) (z : Bool)
  /-- VNOT (R253): Element-wise bitwise not. -/
  | vnot (d : VIdx) (a : VIdx) (pg : PIdx) (ew : EW) (z : Bool)
  /-- VSQRT (R253): Element-wise square root, rounded once. -/
  | vsqrt (d : VIdx) (a : VIdx) (pg : PIdx) (ew : EW) (z : Bool)
  /-- VCLZ (R253): Element-wise count of leading zeros. -/
  | vclz (d : VIdx) (a : VIdx) (pg : PIdx) (ew : EW) (z : Bool)
  /-- VCTZ (R253): Element-wise count of trailing zeros. -/
  | vctz (d : VIdx) (a : VIdx) (pg : PIdx) (ew : EW) (z : Bool)
  /-- VPOPC (R253): Element-wise population count. -/
  | vpopc (d : VIdx) (a : VIdx) (pg : PIdx) (ew : EW) (z : Bool)
  /-- VMV (R253): Element-wise copy as a bit pattern. -/
  | vmv (d : VIdx) (a : VIdx) (pg : PIdx) (ew : EW) (z : Bool)
  /-- VCMP_VV (R255): Compares two vectors under a condition and writes a predicate. -/
  | vcmpVv (c : Cond) (d : PIdx) (a : VIdx) (b : VIdx) (pg : PIdx) (ew : EW) (z : Bool)
  /-- VCMP_VX (R255): Compares a vector with a scalar under a condition and writes a predicate. -/
  | vcmpVx (c : Cond) (d : PIdx) (a : VIdx) (b : XIdx) (pg : PIdx) (ew : EW) (z : Bool)
  /-- PAND (R256): Ands two predicate registers over all 128 bits. -/
  | pand (d : PIdx) (a : PIdx) (b : PIdx)
  /-- POR (R256): Ors two predicate registers. -/
  | por (d : PIdx) (a : PIdx) (b : PIdx)
  /-- PXOR (R256): Exclusive-ors two predicate registers. -/
  | pxor (d : PIdx) (a : PIdx) (b : PIdx)
  /-- PANDN (R256): Ands a predicate with the complement of another. -/
  | pandn (d : PIdx) (a : PIdx) (b : PIdx)
  /-- PNOT (R256): Complements a predicate register. -/
  | pnot (d : PIdx) (a : PIdx)
  /-- PLEAD_INCL (R257): Writes the leading run of governed elements up to and including the first set element. -/
  | pleadIncl (d : PIdx) (a : PIdx) (pg : PIdx) (ew : EW)
  /-- PLEAD_EXCL (R257): Writes the leading run of governed elements before the first set element. -/
  | pleadExcl (d : PIdx) (a : PIdx) (pg : PIdx) (ew : EW)
  /-- PPOPC (R258): Counts governed set predicate elements into xd. -/
  | ppopc (d : XIdx) (a : PIdx) (pg : PIdx) (ew : EW)
  /-- PFIND (R258): Writes the index of the first governed set element, or -1. -/
  | pfind (d : XIdx) (a : PIdx) (pg : PIdx) (ew : EW)
  /-- PSET (R258): Sets the predicate elements below min(xa, VL). -/
  | pset (d : PIdx) (a : XIdx) (ew : EW)
  /-- VSLIDEUP (R259): Slides vector elements up by a scalar count. -/
  | vslideup (d : VIdx) (a : VIdx) (b : XIdx) (pg : PIdx) (ew : EW) (z : Bool)
  /-- VSLIDEDN (R259): Slides vector elements down by a scalar count. -/
  | vslidedn (d : VIdx) (a : VIdx) (b : XIdx) (pg : PIdx) (ew : EW) (z : Bool)
  /-- VRGATHER (R259): Permutes elements by an index vector. -/
  | vrgather (d : VIdx) (a : VIdx) (b : VIdx) (pg : PIdx) (ew : EW) (z : Bool)
  /-- VCOMPRESS (R259): Packs the active elements to the low end of the destination. -/
  | vcompress (d : VIdx) (a : VIdx) (pg : PIdx) (ew : EW) (z : Bool)
  /-- VIOTA (R259): Writes to each element the count of active elements below it. -/
  | viota (d : VIdx) (pg : PIdx) (ew : EW) (z : Bool)
  /-- VSPLAT (R259): Writes a scalar to every active element. -/
  | vsplat (d : VIdx) (a : XIdx) (pg : PIdx) (ew : EW) (z : Bool)
  /-- VMVX (R259): Moves one vector element into a scalar register. -/
  | vmvx (d : XIdx) (a : VIdx) (b : XIdx) (ew : EW)
  /-- VINS (R259): Inserts a scalar into one vector element. -/
  | vins (d : VIdx) (a : XIdx) (b : XIdx) (ew : EW)
  /-- VREDSUM (R260): Reduces active elements by sum in the fixed tree into xd. -/
  | vredsum (d : XIdx) (a : VIdx) (b : XIdx) (pg : PIdx) (ew : EW)
  /-- VREDMIN (R260): Reduces active elements by signed or floating minimum. -/
  | vredmin (d : XIdx) (a : VIdx) (b : XIdx) (pg : PIdx) (ew : EW)
  /-- VREDMAX (R260): Reduces active elements by signed or floating maximum. -/
  | vredmax (d : XIdx) (a : VIdx) (b : XIdx) (pg : PIdx) (ew : EW)
  /-- VREDMINU (R260): Reduces active elements by unsigned minimum. -/
  | vredminu (d : XIdx) (a : VIdx) (b : XIdx) (pg : PIdx) (ew : EW)
  /-- VREDMAXU (R260): Reduces active elements by unsigned maximum. -/
  | vredmaxu (d : XIdx) (a : VIdx) (b : XIdx) (pg : PIdx) (ew : EW)
  /-- VREDAND (R260): Reduces active elements by and. -/
  | vredand (d : XIdx) (a : VIdx) (b : XIdx) (pg : PIdx) (ew : EW)
  /-- VREDOR (R260): Reduces active elements by or. -/
  | vredor (d : XIdx) (a : VIdx) (b : XIdx) (pg : PIdx) (ew : EW)
  /-- VREDXOR (R260): Reduces active elements by exclusive or. -/
  | vredxor (d : XIdx) (a : VIdx) (b : XIdx) (pg : PIdx) (ew : EW)
  /-- VSCANSUM (R261): Writes the left-to-right running sum of active elements. -/
  | vscansum (d : VIdx) (a : VIdx) (pg : PIdx) (ew : EW) (z : Bool)
  /-- VSCANMAX (R261): Writes the left-to-right running maximum. -/
  | vscanmax (d : VIdx) (a : VIdx) (pg : PIdx) (ew : EW) (z : Bool)
  /-- VSCANMIN (R261): Writes the left-to-right running minimum. -/
  | vscanmin (d : VIdx) (a : VIdx) (pg : PIdx) (ew : EW) (z : Bool)
  /-- VCVT (R263): Converts elements between formats with the word's rounding and saturation. -/
  | vcvt (dst : Fmt) (src : Fmt) (d : VIdx) (a : VIdx) (rnd : Rnd) (sat : Bool)
  /-- VQUANT (R266): Quantises blocks of 32 elements to an MX format and writes scales to xb. -/
  | vquant (dst : Fmt) (src : Fmt) (d : VIdx) (a : VIdx) (x : XIdx)
  /-- VDQUANT (R267): Decodes MX blocks using the scales in xb. -/
  | vdquant (dst : Fmt) (src : Fmt) (d : VIdx) (a : VIdx) (x : XIdx)
  /-- VSLL (R262): Element-wise shift left. -/
  | vsll (d : VIdx) (a : VIdx) (b : VIdx) (pg : PIdx) (ew : EW) (z : Bool)
  /-- VSRL (R262): Element-wise logical shift right. -/
  | vsrl (d : VIdx) (a : VIdx) (b : VIdx) (pg : PIdx) (ew : EW) (z : Bool)
  /-- VSRA (R262): Element-wise arithmetic shift right. -/
  | vsra (d : VIdx) (a : VIdx) (b : VIdx) (pg : PIdx) (ew : EW) (z : Bool)
  /-- VROL (R262): Element-wise rotate left. -/
  | vrol (d : VIdx) (a : VIdx) (b : VIdx) (pg : PIdx) (ew : EW) (z : Bool)
  /-- VBFX (R262): Element-wise sign-extended bit-field extract. -/
  | vbfx (d : VIdx) (a : VIdx) (b : VIdx) (pg : PIdx) (ew : EW) (z : Bool)
  /-- VBFXU (R262): Element-wise zero-extended bit-field extract. -/
  | vbfxu (d : VIdx) (a : VIdx) (b : VIdx) (pg : PIdx) (ew : EW) (z : Bool)
  /-- VBFI (R262): Element-wise bit-field insert. -/
  | vbfi (d : VIdx) (a : VIdx) (b : VIdx) (pg : PIdx) (ew : EW) (z : Bool)
  /-- VFSL (R262): Element-wise funnel shift left of d:a. -/
  | vfsl (d : VIdx) (a : VIdx) (b : VIdx) (pg : PIdx) (ew : EW) (z : Bool)
  /-- VFSR (R262): Element-wise funnel shift right of a:d. -/
  | vfsr (d : VIdx) (a : VIdx) (b : VIdx) (pg : PIdx) (ew : EW) (z : Bool)
  /-- VADDI (R254): Adds a 5-bit immediate to each element. -/
  | vaddi (d : VIdx) (a : VIdx) (m : BitVec 5) (pg : PIdx) (ew : EW) (z : Bool)
  /-- VRSUBI (R254): Subtracts each element from a 5-bit immediate. -/
  | vrsubi (d : VIdx) (a : VIdx) (m : BitVec 5) (pg : PIdx) (ew : EW) (z : Bool)
  /-- VANDI (R254): Ands each element with an immediate. -/
  | vandi (d : VIdx) (a : VIdx) (m : BitVec 5) (pg : PIdx) (ew : EW) (z : Bool)
  /-- VORI (R254): Ors each element with an immediate. -/
  | vori (d : VIdx) (a : VIdx) (m : BitVec 5) (pg : PIdx) (ew : EW) (z : Bool)
  /-- VXORI (R254): Exclusive-ors each element with an immediate. -/
  | vxori (d : VIdx) (a : VIdx) (m : BitVec 5) (pg : PIdx) (ew : EW) (z : Bool)
  /-- VSLLI (R254): Shifts each element left by an immediate. -/
  | vslli (d : VIdx) (a : VIdx) (m : BitVec 5) (pg : PIdx) (ew : EW) (z : Bool)
  /-- VSRLI (R254): Shifts each element logically right by an immediate. -/
  | vsrli (d : VIdx) (a : VIdx) (m : BitVec 5) (pg : PIdx) (ew : EW) (z : Bool)
  /-- VSRAI (R254): Shifts each element arithmetically right by an immediate. -/
  | vsrai (d : VIdx) (a : VIdx) (m : BitVec 5) (pg : PIdx) (ew : EW) (z : Bool)
  /-- VSPLATI (R254): Writes an immediate to every active element. -/
  | vsplati (d : VIdx) (m : BitVec 5) (pg : PIdx) (ew : EW) (z : Bool)
  /-- VMINI (R254): Signed minimum of each element and an immediate. -/
  | vmini (d : VIdx) (a : VIdx) (m : BitVec 5) (pg : PIdx) (ew : EW) (z : Bool)
  /-- VMAXI (R254): Signed maximum of each element and an immediate. -/
  | vmaxi (d : VIdx) (a : VIdx) (m : BitVec 5) (pg : PIdx) (ew : EW) (z : Bool)
  /-- VLD_UNIT (R274): Unit-stride vector load from memory or scratchpad, probed ahead and divisible by element. -/
  | vldUnit (d : VIdx) (a : XIdx) (pg : PIdx) (ew : EW) (cv : Bool) (space : Space)
  /-- VLD_STRIDED (R274): Strided vector load. -/
  | vldStrided (d : VIdx) (a : XIdx) (b : XIdx) (pg : PIdx) (ew : EW) (cv : Bool) (space : Space)
  /-- VLD_INDEXED (R274): Indexed vector load. -/
  | vldIndexed (d : VIdx) (a : XIdx) (b : VIdx) (pg : PIdx) (ew : EW) (cv : Bool) (space : Space)
  /-- VLDFF (R277): First-fault unit-stride load that shortens VL at a later faulting page instead of trapping. -/
  | vldff (d : VIdx) (a : XIdx) (pg : PIdx) (ew : EW) (cv : Bool)
  /-- VST_UNIT (R275): Unit-stride vector store forming granules element by element. -/
  | vstUnit (d : VIdx) (a : XIdx) (pg : PIdx) (ew : EW) (cv : Bool) (space : Space)
  /-- VST_STRIDED (R275): Strided vector store. -/
  | vstStrided (d : VIdx) (a : XIdx) (b : XIdx) (pg : PIdx) (ew : EW) (cv : Bool) (space : Space)
  /-- VST_INDEXED (R275): Indexed vector store; the higher index wins on shared bytes. -/
  | vstIndexed (d : VIdx) (a : XIdx) (b : VIdx) (pg : PIdx) (ew : EW) (cv : Bool) (space : Space)
  /-- VLDL (R282): Loads each element from its own lane's store at an indexed offset. -/
  | vldl (d : VIdx) (a : XIdx) (b : VIdx) (pg : PIdx) (ew : EW) (z : Bool)
  /-- VSTL (R282): Stores each element into its own lane's store at an indexed offset. -/
  | vstl (d : VIdx) (a : XIdx) (b : VIdx) (pg : PIdx) (ew : EW)
  /-- SFULL (R279): Sets the full bit of a scratchpad line. -/
  | sfull (a : XIdx)
  /-- SEMPTY (R279): Clears the full bit of a scratchpad line. -/
  | sempty (a : XIdx)
  /-- SPROBE (R279): Reads the full bit of a scratchpad line into xd. -/
  | sprobe (d : XIdx) (a : XIdx)
  /-- VAMOADD (R285): Per-element atomic add at indexed addresses. -/
  | vamoadd (d : VIdx) (a : XIdx) (b : VIdx) (pg : PIdx) (dbl : Bool) (z : Bool)
  /-- VAMOMIN (R285): Per-element atomic signed minimum. -/
  | vamomin (d : VIdx) (a : XIdx) (b : VIdx) (pg : PIdx) (dbl : Bool) (z : Bool)
  /-- VAMOMAX (R285): Per-element atomic signed maximum. -/
  | vamomax (d : VIdx) (a : XIdx) (b : VIdx) (pg : PIdx) (dbl : Bool) (z : Bool)
  /-- VAMOMINU (R285): Per-element atomic unsigned minimum. -/
  | vamominu (d : VIdx) (a : XIdx) (b : VIdx) (pg : PIdx) (dbl : Bool) (z : Bool)
  /-- VAMOMAXU (R285): Per-element atomic unsigned maximum. -/
  | vamomaxu (d : VIdx) (a : XIdx) (b : VIdx) (pg : PIdx) (dbl : Bool) (z : Bool)
  /-- VAMOAND (R285): Per-element atomic and. -/
  | vamoand (d : VIdx) (a : XIdx) (b : VIdx) (pg : PIdx) (dbl : Bool) (z : Bool)
  /-- VAMOOR (R285): Per-element atomic or. -/
  | vamoor (d : VIdx) (a : XIdx) (b : VIdx) (pg : PIdx) (dbl : Bool) (z : Bool)
  /-- VAMOXOR (R285): Per-element atomic exclusive or. -/
  | vamoxor (d : VIdx) (a : XIdx) (b : VIdx) (pg : PIdx) (dbl : Bool) (z : Bool)
  /-- VAMOSWAP (R285): Per-element atomic swap. -/
  | vamoswap (d : VIdx) (a : XIdx) (b : VIdx) (pg : PIdx) (dbl : Bool) (z : Bool)
  /-- REDST (R286): Contributes each active element to a commutative-range element as a partial in O2. -/
  | redst (d : VIdx) (a : XIdx) (b : VIdx) (pg : PIdx) (ew : EW)
  /-- GATHER (R329): Loads indexed elements through the gather engine and marks duplicate addresses in p15. -/
  | gather (d : VIdx) (a : XIdx) (b : VIdx) (pg : PIdx) (dbl : Bool) (z : Bool)
  /-- MATTACH (R296): Requests accumulator tiles, optionally waiting for one to be free. -/
  | mattach (d : XIdx) (a : XIdx) (wt : Bool)
  /-- MDETACH (R298): Waits for earlier matrix work and releases every tile the hart holds. -/
  | mdetach
  /-- MMODE (R299): Enters matrix mode with MVL 16 or 32. -/
  | mmode (a : XIdx)
  /-- MEXIT (R299): Leaves matrix mode, keeping the tiles. -/
  | mexit
  /-- MZERO (R311): Clears every container and guard residue of a tile. -/
  | mzero (acc : BitVec 3)
  /-- MRANK (R306): Adds a masked rank update from two vector registers to a tile. -/
  | mrank (acc : BitVec 3) (a : VIdx) (b : VIdx) (prc : PIdx) (pk : PIdx) (fmt : Fmt) (z : Bool)
  /-- MMA (R307): Tile product from A and B operand descriptors fetched through the tile fetch unit. -/
  | mma (acc : BitVec 3) (a : XIdx) (b : XIdx) (prc : PIdx) (pk : PIdx) (fmt : Fmt) (z : Bool)
  /-- MMAS (R307): Tile product with a compressed A operand. -/
  | mmas (acc : BitVec 3) (a : XIdx) (b : XIdx) (prc : PIdx) (pk : PIdx) (fmt : Fmt) (z : Bool)
  /-- MLD (R309): Loads the enabled elements of a tile from 32 memory rows. -/
  | mld (acc : BitVec 3) (a : XIdx) (prc : PIdx) (fmt : Fmt)
  /-- MST (R310): Stores the enabled elements of a tile row by row, forming granules of the matrix unit. -/
  | mst (acc : BitVec 3) (a : XIdx) (prc : PIdx) (fmt : Fmt)
  /-- MCVT (R312): Converts a tile in place with a scale exponent from xb. -/
  | mcvt (acc : BitVec 3) (dst : Fmt) (src : Fmt) (b : XIdx) (rnd : Rnd) (sat : Bool)
  /-- CPSET (R317): Sets one level of the hart's copy nest. -/
  | cpset (d : XIdx) (a : XIdx) (b : XIdx) (level : BitVec 4)
  /-- CPGO (R319): Checks and places a copy command in the sequencer's queue and returns its handle. -/
  | cpgo (acq : Bool) (rls : Bool) (sc : Scope) (cv : Bool) (ef : Bool) (d : XIdx) (a : XIdx) (b : XIdx)
  /-- CPQ (R328): Returns the status word of a copy command. -/
  | cpq (d : XIdx) (a : XIdx)
  /-- SWM (R337): Reads the watermark of a bound stream graph. -/
  | swm (d : XIdx) (a : XIdx)
  /-- SWIN (R338): Reads the state word of a window of the hart's kernel. -/
  | swin (d : XIdx) (a : XIdx)
  /-- SEMIT (R339): Emits a record on an output of the launch, waiting for room downstream. -/
  | semit (a : XIdx) (b : XIdx)
  /-- SIDLE (R340): Declares a device-side stream source idle or active. -/
  | sidle (a : XIdx) (b : XIdx)
  /-- CAPQ (R341): Removes the oldest capacity notice into xd, or 0. -/
  | capq (d : XIdx)
  /-- OUTBOUND_DRAIN (R95): An outbound entry drains outward in its own time or for room, and the junction replaces the home I3 copy. -/
  | outboundDrain (lvl : Nat) (unit : Nat) (gran : Nat)
  /-- O3_WRITEBACK (R95): The junction moves an O3 entry on into HBM. -/
  | o3Writeback (gran : Nat)
  /-- MULTICAST_RESERVE_FORWARD (R118): A blocked multicast branch frees and the held copy in the reserve goes out. -/
  | multicastReserveForward (out : RouterPort)
  /-- COPY_COMMAND (R320): The sequencer starts the next queued copy command and emits its runs in index order. -/
  | copyCommand (cluster : Nat)
  /-- ENGINE_FAULT_DELIVERY (R326): A pending engine fault is taken as a trap at the hart's next user-level boundary. -/
  | engineFaultDelivery (core : Nat)
  /-- INTERRUPT (R348): A pending enabled timer, queue or notice source is taken as an interrupt. -/
  | interrupt (core : Nat)
  /-- BARRIER_OPEN (R335): The last hart arrives and every waiting hart applies the union silhouette and proceeds. -/
  | barrierOpen (handle : Nat) (team : Bool) (gang : Nat)
  /-- TILE_GRANT_WAITER (R296): Freed tiles are granted to a waiting mattach in arrival order. -/
  | tileGrantWaiter (cluster : Nat)
  /-- WALKER_EMIT (R67): The loop-nest walker emits the next step of a launch with its handle and tile indices. -/
  | walkerEmit (launchId : Nat)
  /-- RESIDENCY_GRANTED (R69): Firmware makes the pages resident and the step becomes ready. -/
  | residencyGranted (handle : Nat)
  /-- RESIDENCY_FAILED (R69): Firmware declares a residency request failed and the step completes with FAULT without running. -/
  | residencyFailed (handle : Nat) (cause : Nat)
  /-- AGING (R77): A ready step that waited AGEPERIOD ac gains one level of own priority. -/
  | aging (handle : Nat)
  /-- STAGE_RECORD (R72): An empty slot takes the first ready record of the bind queue and begins preload. -/
  | stageRecord (core : Nat)
  /-- PRELOAD_LINE_LAND (R73): A preloaded line lands in scratchpad and sets its full bit; the last one makes the slot STAGED. -/
  | preloadLineLand (slot : Nat)
  /-- HART_START (R63): A STAGED slot becomes RUNNING and the hart starts with its initial or resumed state. -/
  | hartStart (slot : Nat)
  /-- BUDGET_OVERRUN (R78): A hart's cycle count reaches BUDGET and the step is saved or aborted with OVR. -/
  | budgetOverrun (core : Nat)
  /-- MACHINE_FAULT (R79): An uncorrectable error inside a core or matrix unit is taken by the dispatcher. -/
  | machineFault (core : Nat)
  /-- CORRECTED_ERROR (R172): The HBM on-die ECC corrects an error and the pseudo-channel's score rises by 4. -/
  | correctedError (pch : Nat)
  /-- STEP_RETIRE (R84): After every hart's tdone the dispatcher waits for outstanding work and publishes. -/
  | stepRetire (handle : Nat)
  /-- COMPLETION_RECORD_WRITE (R85): The completion record is written to the ring once there is room, and dependents are released. -/
  | completionRecordWrite
  /-- TIMER_DEADLINE (R347): DTIME reaches a step's armed deadline and TIP is set in its harts. -/
  | timerDeadline (handle : Nat)
  /-- PAGE_MOVE_IN (R150): The migration engine forms a host page anew on the device and ownership passes to the device. -/
  | pageMoveIn (launchId : Nat) (va : Word) (image : List (Nat × GData))
  /-- PAGE_MOVE_OUT (R150): A page is drained, switched to level 4, invalidated and copied to the host. -/
  | pageMoveOut (launchId : Nat) (va : Word)
  /-- EXTEND (R88): Adds budget to an OVR step, clears OVR and resumes or reruns it. -/
  | extend (arg : BitVec 32)
  /-- RETRY (R88): Reruns an OVR retryable step, using up a retry. -/
  | retry
  /-- KILL (R88): Ends a queued, OVR or running step with KILLED, or ends a standing launch. -/
  | kill
  /-- PREEMPT (R82): Pre-empts a step: aborts a retryable one or saves a non-retryable one. -/
  | preempt (area : Bool)
  /-- TIMER (R347): Sets a step's timer deadline from DTIMER. -/
  | timer
  /-- BIND_RECORD_WRITE (R71): Firmware's write of dword 0 with V = 1 submits a bind record to a core's bind queue. -/
  | bindRecordWrite (core : Nat) (dws : List Word)
  /-- ROUTE_INSTALL (R91): A PRVAL write with V = 1 installs a pipe route. -/
  | routeInstall (v : Word)
  /-- ROUTE_REMOVE (R91): A PRVAL write with V = 0 removes a pipe route. -/
  | routeRemove (v : Word)
  /-- CRNG_WRITE (R143): A write to a commutative-range descriptor register, ignored if it would leave an invalid valid range. -/
  | crngWrite (n : BitVec 4) (isC : Bool) (v : Word)
  /-- GRAPH_ENABLE (R368): A write that sets EN of a stream graph, accepted only if the configuration is valid. -/
  | graphEnable (g : BitVec 6) (v : Word)
  /-- GRAPH_DISABLE (R368): A write that clears EN stops deposits and discards the graph's live windows. -/
  | graphDisable (g : BitVec 6) (v : Word)
  /-- SCDATA_WRITE (R403): Firmware sets a unit's suspicion score and the thresholds are applied. -/
  | scdataWrite (v : Word)
  /-- LCMD (R403): Firmware requests a lease of the unit with the given score index. -/
  | lcmd (v : Word)
  /-- TLB_INVALIDATION (R354): Firmware's TLB invalidation completes after instructions holding the translation and the stash drop. -/
  | tlbInvalidation (launchId : Nat) (va : Word)
  /-- REGISTER_WRITE (R87): A write to a management register that has no behaviour of its own. -/
  | registerWrite (r : MReg) (v : Word)
  /-- LAUNCH (R410): A host LAUNCH message is tested and the launch accepted, with a response at acceptance and at completion. -/
  | launch (l : MsgLink) (h : MsgHead) (body : List Byte)
  /-- QUERY_SELF_TEST (R419): QUERY item 0 returns the self-test record. -/
  | querySelfTest (m : HostMsg)
  /-- QUERY_CAPV (R409): QUERY item 1 returns CAPV. -/
  | queryCapv (m : HostMsg)
  /-- QUERY_RETIREMENT_LOG (R409): QUERY item 2 returns a retirement-log entry and its signature. -/
  | queryRetirementLog (l : MsgLink) (p : MsgPacket)
  /-- QUERY_LIVE_LAUNCHES (R409): QUERY item 3 returns the live launches and their step counts. -/
  | queryLiveLaunches (m : HostMsg)
  /-- PAGE_TO_DEVICE (R413): A PAGE message with DIR 0 moves a page in to the device. -/
  | pageToDevice (l : MsgLink) (h : MsgHead) (body : List Byte) (image : List (Nat × GData))
  /-- PAGE_TO_HOST (R413): A PAGE message with DIR 1 moves a page out to the host. -/
  | pageToHost (l : MsgLink) (h : MsgHead) (body : List Byte)
  /-- PAGE_RESPONSE (R413): The host's response to the device's PAGE request grants or refuses the page. -/
  | pageResponse (l : MsgLink) (h : MsgHead) (body : List Byte) (image : List (Nat × GData))
  /-- STREAM_BIND_SOURCE (R415): Binds an endpoint to a source of a graph. -/
  | streamBindSource (l : MsgLink) (h : MsgHead) (body : List Byte)
  /-- STREAM_BIND_OUTPUT (R415): Binds an output of a launch to an endpoint and source id, restarting its sequence. -/
  | streamBindOutput (l : MsgLink) (h : MsgHead) (body : List Byte)
  /-- WINDOW (R415): Binds a remote window to a port and endpoint. -/
  | window (l : MsgLink) (h : MsgHead) (body : List Byte)
  /-- GET_VERSION (R421): SPDM request answered with the supported version. -/
  | getVersion (l : MsgLink) (p : MsgPacket)
  /-- GET_CAPABILITIES (R421): SPDM request answered with the device's capabilities. -/
  | getCapabilities (l : MsgLink) (p : MsgPacket)
  /-- NEGOTIATE_ALGORITHMS (R421): SPDM request settling on ECDSA P-384 and SHA-384. -/
  | negotiateAlgorithms (l : MsgLink) (p : MsgPacket)
  /-- GET_DIGESTS (R421): SPDM request answered with certificate chain digests. -/
  | getDigests (l : MsgLink) (p : MsgPacket)
  /-- GET_CERTIFICATE (R421): SPDM request answered with the Renmund certificate chain. -/
  | getCertificate (l : MsgLink) (p : MsgPacket)
  /-- CHALLENGE (R421): SPDM challenge signed with the device identity key. -/
  | challenge (l : MsgLink) (p : MsgPacket)
  /-- GET_MEASUREMENTS (R421): SPDM request answered with the measurement blocks. -/
  | getMeasurements (l : MsgLink) (p : MsgPacket)
  /-- UNSUPPORTED_REQUEST (R421): Any other SPDM request is answered with the UnsupportedRequest error. -/
  | unsupportedRequest (l : MsgLink) (p : MsgPacket)
  /-- REMOTE_WRITE (R411): A remote write forms granules at level 4 and is acknowledged after a notice. -/
  | remoteWrite (port : BitVec 3) (launchId : Nat) (va : Word) (data : List Byte)
  /-- REMOTE_READ (R412): A remote read reads each granule at relation 4 with check. -/
  | remoteRead (port : BitVec 3) (launchId : Nat) (va : Word) (len : Nat)
  /-- DISCARDED_PACKET (R406): A packet in an unsupported delivery mode is discarded and counted. -/
  | discardedPacket (port : BitVec 3)
  /-- STREAM_RECORD (R371): An arriving data record is dropped, or deposited with an arrival index and joined to its windows. -/
  | streamRecord (port : BitVec 3) (ep : BitVec 128) (h0 : Word) (h1 : Word) (payload : List Byte)
  /-- WATERMARK_RECORD (R372): A source's watermark record raises its watermark and the graph watermark is recomputed. -/
  | watermarkRecord (port : BitVec 3) (ep : BitVec 128) (h0 : Word) (h1 : Word)
  /-- IDLE_TIMEOUT (R373): A source silent for IDLE ticks becomes idle and leaves the watermark minimum. -/
  | idleTimeout (g : BitVec 6) (src : Nat)
  /-- AMENDDELAY_EXPIRY (R381): AMENDDELAY ticks after the first late record, the amendment step is queued. -/
  | amenddelayExpiry (g : BitVec 6) (win : Nat)
  /-- OUTPUT_WATERMARK (R375): The meridian sends a watermark record on each output when the output watermark rises. -/
  | outputWatermark (launchId : Nat) (out : BitVec 3)
  /-- SLOT_RECLAIM (R382): After every cluster acknowledges the notice, slots below the new RCL become free. -/
  | slotReclaim (g : BitVec 6)
  /-- STALLED_RECORD_DEPOSIT (R383): A record waiting for buffer room or a window is deposited once room appears. -/
  | stalledRecordDeposit (g : BitVec 6) (src : Nat)
  /-- LEASE_INTERVAL (R388): At each class interval the next unit's lease starts if the class limits allow. -/
  | leaseInterval (cls : BitVec 2)
  /-- LEASE_PATIENCE_EXPIRY (R390): LEASEPATIENCE runs out and the running step on a draining unit is aborted or saved. -/
  | leasePatienceExpiry (cls : BitVec 2) (unit : Nat)
  /-- DRAIN_COMPLETE (R389): A draining unit becomes idle and enters LEASED for its patterns. -/
  | drainComplete (cls : BitVec 2) (unit : Nat)
  /-- PATTERN_RUN_COMPLETE (R395): A pattern run ends: a pass returns the unit to IN, a failure leases it again or retires it. -/
  | patternRunComplete (cls : BitVec 2) (unit : Nat) (pass : Bool) (patid : BitVec 32)
  /-- PSEUDO_CHANNEL_REMAP (R402): A retired pseudo-channel's data is moved into the spares of its stack. -/
  | pseudoChannelRemap (pch : Nat)
  /-- SCORE_HALVING (R397): Every suspicion score is halved when DTIME passes a multiple of 2^20 ms. -/
  | scoreHalving
  /-- POWER_ON (R416): The device passes its power-on stages in order. -/
  | powerOn (r : PowerOn)
  /-- THERMAL_STEP (R423): Every 1 ms firmware lowers or raises a chiplet's clock by 100 MHz by its sensor. -/
  | thermalStep (chiplet : BitVec 3) (temp : Nat)
  /-- ENERGY_INTERVAL (R86): For each interval of 1024 ac the dispatcher charges the cluster's measured energy to its running steps. -/
  | energyInterval (cluster : Nat)
  /-- ILLEGAL_WORD (R206): A fetched word that names no instruction raises the illegal-instruction trap and changes nothing else. -/
  | illegalWord (word : BitVec 32)
  /-- FETCH_FAULT (R200): An instruction fetch that is misaligned, fails translation, or finds an unturned or failing granule traps with EPC naming the address. -/
  | fetchFault
  /-- MANAGEMENT_CORE_STORE (R159): The management core stores to device memory, forming granules with PROD 465 and LEVEL 4, checking the old granule on a partial store. -/
  | managementCoreStore (pa : Nat) (data : List Byte)
  /-- IEEE_1588_SYNC (R23): Time messages on the ports keep the device time base to IEEE 1588, slewing DTIME. -/
  | ieee1588Sync (ns : Nat)
  deriving DecidableEq, Repr, Inhabited

end Sys2Proof
end

