-- ==== Sys2Proof/Config.lean ====
section
/-! DEFINITION. What an implementation fixes and what the spec leaves open: the free values (opaque constants, applied to
the counter State.tick or to the operands they depend on; nothing can evaluate them), and the Acts, which say who moves
next. -/

namespace Sys2Proof

/-- One move of the machine: an event row of the opcode table, or the next instruction issue of a core. `units` is where a
divisible instruction is stopped: after that many elements, blocks, rows or granules (Table 23.13); `none` lets it run to
its end. -/
inductive Act where
  | event (i : Instr)
  | run (core : Nat) (units : Option Nat)
  /-- The patience of a lease runs out (the event LEASE_PATIENCE_EXPIRY), queued by a quarantine (R398). -/
  | expire (cls : BitVec 2) (unit : Nat)
  /-- Firmware goes on with the oldest message of a connection that waits (R410). -/
  | resume (conn : Nat)
  deriving DecidableEq, Repr, Inhabited

/-- The next act when the agenda is empty: the environment, the other agents and the order in which independent agents
move are not fixed by the spec (DESIGN CHOICE, log 1). -/
opaque Config.environment : Nat → Act

/-- How much time has passed between two readings of a clock (DESIGN CHOICE, log 4). -/
opaque Config.elapsed : Nat → Nat

/-- Device serial number (Tables 28.7, 30.4): fixed by the part, not by the spec. -/
opaque Config.serial : BitVec 64
/-- The boot ROM's bytes (Table 30.5): fixed by the part. -/
opaque Config.bootRom : List Byte
/-- The Renmund certificate chain (R420): fixed by the part. -/
opaque Config.certificates : List Byte

/-- Whether a fill keeps the granule, and whether an older ordinary copy stays in an inbound level when a fill happens:
the replacement policy is not stated (DESIGN CHOICE, log 6). Arguments: tick, granule. -/
opaque Config.keepsCopy : Nat → Nat → Bool

/-- Which of the lines, or of the ways, that can be given up goes (DESIGN CHOICE, log 6). Argument: tick. -/
opaque Config.victim : Nat → Nat

/-- Whether a multicast branch is blocked at this moment (R118). Arguments: tick, 8·router + output port. -/
opaque Config.blocked : Nat → Nat → Bool

/-- PATH.COMP: whether the HBM block was stored compressed (R163, Table 10.2). Arguments: tick, granule. -/
opaque Config.compressed : Nat → Nat → Bool

/-- Data and metadata of a scratchpad granule that nothing has written (R63, R234). Arguments: core, granule slot. -/
opaque Config.undefinedGranule : Nat → Nat → BitVec 512 × BitVec 64

/-- Data of a granule read from a remote endpoint (R27). Arguments: tick, physical granule. -/
opaque Config.remoteData : Nat → Nat → BitVec 512

/-- Energy that a cluster's counter has measured over an interval, in units of 2^-32 mJ (R86). Arguments: tick, cluster, part: 0
the matrix unit's, 1 that of HBM and the mesh, 2 the rest. -/
opaque Config.energy : Nat → Nat → Nat → Nat
/-- What a core asked of HBM and the mesh in an interval: bits and bytes × hops (R86). Arguments: tick, core. -/
opaque Config.work : Nat → Nat → Nat

/-- What of an SPDM response neither the spec nor the device's state gives: capabilities, nonces, signatures (R421).
Arguments: the response code, tick. -/
opaque Config.spdmBody : Nat → Nat → List Byte

/-- The 96 signature bytes of a retirement record (R401). -/
opaque Config.signature : List (BitVec 64) → Vector (BitVec 8) 96

/-- Data of a granule of a test stripe that the almanac's pattern source has written (R393, R394). Arguments: tick of the run,
pseudo-channel, granule of the stripe. -/
opaque Config.pattern : Nat → Nat → Nat → BitVec 512

/-- Whether firmware has a save area free when a `tyield`, an overrun or a lease needs one (R362). -/
opaque Config.saveArea : Nat → Bool

/-- The largest smoothed port round trip, in ac, while a window is bound (R121). -/
opaque Config.portRtt : Nat → BitVec 32

/-- An unstated numeric result (see the log entry named where it is used). Arguments: which one, its operands. -/
opaque Config.unstated : Nat → List Nat → Nat

end Sys2Proof
end

