-- ==== Sys2Proof/Machine/State.lean ====
section
/-! DEFINITION. The state of the machine as plain data: everything the spec gives the device, and its value after reset.
INVENTORY.md lists each piece with the rule that names it. -/

namespace Sys2Proof.Machine

/-- The machine has no fault that stops it: every fault of the spec is a trap, an end of a step, a completion record or a
message, and is taken as a next state (R343). The one constructor is raised by nothing. -/
inductive Fault where
  /-- Raised by no meaning. Safe: a stop proves nothing of a next state. -/
  | none
  deriving DecidableEq, Repr

/-- Why the model gives an instruction no meaning. -/
inductive Refusal where
  /-- Raised by an arm of exec whose instruction has no meaning yet, with its mnemonic. Safe: nothing runs. -/
  | notModelled (mnemonic : String)
  deriving DecidableEq, Repr

/-- A sparse table: keys strictly rising (what is not listed has the default its reader names). -/
abbrev Tbl (α : Type) := List (Nat × α)

/-! ## Granules and copies -/

/-- A granule: 64 data bytes and 64 bits of metadata (R4, Table 06.2). -/
structure Granule where
  data : GData
  md : Meta
  deriving DecidableEq, Repr, Inhabited

/-- A granule held in an inbound level. -/
structure Copy where
  g : Granule
  /-- A placeholder: metadata without usable data (R154). -/
  ph : Bool
  /-- Held until its granule reaches its home junction (R154): 0 an ordinary copy, 1 a level-1 copy that stands in I2 in
  place of a placeholder (removed then), 2 another copy that a turn or release placed (ordinary from then on). -/
  pin : Nat
  /-- The provenance part of PATH (R168): bits [60:29] of Table 10.2. -/
  tag : Word
  /-- The formation that a placeholder or placed copy stands for (OutEntry.seq); 0 for what a fill brought from the home. -/
  seq : Nat
  deriving DecidableEq, Repr, Inhabited

/-- A granule held in an outbound level, with the step that holds it (R79) and its place in the order of formation. -/
structure OutEntry where
  g : Granule
  held : Option Nat
  seq : Nat
  /-- Formerly held: drains in the order written (R80). -/
  fifo : Bool
  /-- The page was a SELF page when the granule was formed (R117). -/
  self : Bool
  /-- The highest level a turn has asked of a held granule (R108). -/
  want : Nat
  /-- The place in the order of formation of the first store that the entry combines (R124). -/
  first : Nat
  deriving DecidableEq, Repr, Inhabited

/-- A partial of `redst` in a cluster's O2 (R146): the element's physical address, its range, the combined value. -/
structure Partial where
  pa : Nat
  range : Nat
  val : Int
  core : Nat
  held : Option Nat
  deriving DecidableEq, Repr, Inhabited

/-- A scratchpad line: its full bit and its two granules; `none` is data that is not defined (R63). -/
structure SpLine where
  full : Bool
  lo : Option (Granule × Word)
  hi : Option (Granule × Word)
  deriving DecidableEq, Repr, Inhabited

/-- The attachment of a flag granule (R133, R134), with the order of attachment. -/
structure Attachment where
  sil : Sil
  seq : Nat
  deriving DecidableEq, Repr, Inhabited

/-- A multicast flit (R107, R118, R131, R133): a turn notice over physical granules, a published count, or a silhouette on
its way to the router of a junction slice. -/
inductive Flit where
  | notice (src : Nat) (lo hi : Nat)
  | count (src : Nat) (prod : Nat) (level : Nat) (value : BitVec 16)
  | sil (src : Nat) (dest : Nat)
  deriving DecidableEq, Repr, Inhabited

/-- A multicast flit inside the mesh (R118): it stands whole in an input buffer of a router, or as the copy for one branch in
that output port's entry of the multicast reserve. Ports: 0 the cluster or attachment, 1 east, 2 west, 3 north, 4 south. -/
structure MeshFlit where
  flit : Flit
  /-- The router where it was injected (R14). -/
  origin : Nat
  router : Nat
  input : Nat
  /-- The output port whose reserve entry holds it; none in an input buffer. -/
  branch : Option Nat
  deriving DecidableEq, Repr, Inhabited

/-- An entry of the tile stash (R305): one operand tile's row length, the physical addresses of the rows it has fetched, and
their granules. -/
structure StashTile where
  len : Nat
  rows : Tbl Nat
  grans : Tbl Copy
  deriving DecidableEq, Repr, Inhabited

/-- A cached translation of a TLB: launch, virtual page (VA / 65536), level of the leaf, the entry (R354). -/
structure TlbEntry where
  launch : Nat
  page : Nat
  big : Bool
  pte : Word
  deriving DecidableEq, Repr, Inhabited

/-- Release and published counts of a producer (R102). -/
structure Counts where
  rcnt : BitVec 16
  p1 : BitVec 16
  p2 : BitVec 16
  p3 : BitVec 16
  p4 : BitVec 16
  deriving DecidableEq, Repr, Inhabited

/-! ## Harts -/

/-- An open loop frame (R223). -/
structure Frame where
  level : Nat
  start : Word
  len : Nat
  count : Nat
  iter : Nat
  flags : Nat
  dinc : Nat
  ainc : Nat
  binc : Nat
  deriving DecidableEq, Repr, Inhabited

/-- One entry of the no-progress monitor (R222). -/
structure MonEntry where
  addr : Word
  prev : Word
  miss : Nat
  deriving DecidableEq, Repr, Inhabited

/-- An accumulator tile: element (i, j) is bits 32·(32i+j)+31 … of `cont` and 8·(32i+j)+7 … of `guard` (R295, R182). -/
structure Tile where
  cont : BitVec 32768
  guard : BitVec 8192
  deriving DecidableEq, Repr, Inhabited

/-- One level of the copy nest (R317). -/
structure NestLevel where
  n : Nat
  s : Word
  d : Word
  deriving DecidableEq, Repr, Inhabited

/-- TSTAT's kept bits (Table 23.7). -/
structure TStat where
  tip : Bool
  lev : Bool
  nie : Bool
  qie : Bool
  tie : Bool
  rsm : Bool
  pie : Bool
  ie : Bool
  plev : Bool
  deriving DecidableEq, Repr, Inhabited

/-- A trap to be taken: its cause, EVAL, and the words of the fault record that its cause fills (R350, R351). -/
structure TrapInfo where
  cause : BitVec 6
  val : Word
  /-- ADDR of the record. -/
  addr : Word
  npg : Nat
  more : Bool
  eng : Bool
  /-- The words at 0x18 to 0x38. -/
  words : List Word
  /-- The granule, PROD and PATH a check fault scores (R170). -/
  score : Option (Nat × Word)
  /-- The stop is at a resume point (R425). -/
  resume : Bool
  /-- The instruction word that the record holds, where it is not the one fetched last (R366). -/
  word : Option (BitVec 32)
  deriving DecidableEq, Repr, Inhabited

/-- The context of a hart: what belongs to one slot's program. -/
structure Hart where
  x : Vector Word 32
  v : Vector VReg 32
  p : Vector PReg 16
  pc : Word
  vstart : BitVec 8
  vl : BitVec 8
  mfc : Word
  scalebase : BitVec 48
  dirtymap : BitVec 32
  numst : Bool
  mvl : BitVec 6
  /-- The granted tiles; GRANT is their number (R297). -/
  tiles : List Tile
  /-- Pending counts of LC0-LC5 (R228). -/
  lc : Vector Word 6
  /-- Open frames, innermost first (R223). -/
  frames : List Frame
  susp : Bool
  turnpos : BitVec 33
  turnst : Word
  tvec : Word
  epc : Word
  ecause : BitVec 6
  eval : Word
  frecbase : Word
  tstat : TStat
  /-- The internal RESUME flag (R345). -/
  resume : Bool
  tileix : Vector (BitVec 16) 6
  steph : BitVec 32
  winid : Word
  winstart : Word
  winend : Word
  arrlo : Word
  arrhi : Word
  revision : Word
  nest : Vector NestLevel 12
  cprun : BitVec 13
  cpres : BitVec 48
  cpcvt : BitVec 20
  sil : Sil
  /-- Notice queue, oldest first, and whether a notice was dropped since the last one queued (R341). -/
  notices : List Word
  lost : Bool
  /-- Inbound queues, oldest first (R291, R292). -/
  qin : Vector (List Word) 4
  /-- bstrip monitor, most recently used first (R222). -/
  mon : List MonEntry
  /-- The instruction at pc has passed its probe and was stopped at a boundary inside it (R425). -/
  mid : Bool
  /-- The instruction at pc has issued and waits: a stop now is no resume point (R93, R425). -/
  waits : Bool
  /-- Phase of an instruction that waits: 0 outside one, 1 a release, 2 a `qpush` whose turn is done or a barrier, 3 a turn,
4 a silhouette on its way, 5 a `wait` (R109, R132, R133, R232, R293, R335). -/
  phase : Nat
  /-- Engine faults awaiting delivery, oldest first (R326). -/
  engineFaults : List TrapInfo
  /-- The outcome word of `tdone` (R334). -/
  tdone : Option Word
  /-- The hart has issued an instruction since its step's run began (R85). -/
  began : Bool
  deriving DecidableEq, Repr

/-- TSTAT at reset and at hart start (Table 23.7). -/
def TStat.reset : TStat :=
  ⟨false, false, false, false, true, false, false, true, false⟩

/-- A hart whose registers all hold zero and which has nothing open, granted or queued (R63). (DESIGN CHOICE, log 2.) -/
def Hart.reset : Hart where
  x := Vector.replicate 32 0
  v := Vector.replicate 32 0
  p := Vector.replicate 16 0
  pc := 0
  vstart := 0
  vl := 0
  mfc := 0
  scalebase := 0
  dirtymap := 0
  numst := false
  mvl := 0
  tiles := []
  lc := Vector.replicate 6 0
  frames := []
  susp := false
  turnpos := 0
  turnst := 0
  tvec := 0
  epc := 0
  ecause := 0
  eval := 0
  frecbase := 0
  tstat := TStat.reset
  resume := false
  tileix := Vector.replicate 6 0
  steph := 0
  winid := 0
  winstart := 0
  winend := 0
  arrlo := 0
  arrhi := 0
  revision := 0
  nest := Vector.replicate 12 ⟨1, 0, 0⟩
  cprun := 0
  cpres := 0
  cpcvt := 0
  sil := 0
  notices := []
  lost := false
  qin := Vector.replicate 4 []
  mon := []
  mid := false
  waits := false
  phase := 0
  engineFaults := []
  tdone := none
  began := false

/-! ## Cores, clusters and slots -/

/-- What a core holds beside its harts. -/
structure CoreSt where
  bankrole : Word
  /-- I1 copies by granule (PA / 64). -/
  i1 : Tbl Copy
  /-- O1 entries by granule. -/
  o1 : Tbl OutEntry
  /-- Scratchpad lines by 64·bank + line of the bank. -/
  sp : Tbl SpLine
  /-- Lane store granules by 64·lane + granule, with the provenance of the fill that brought them (R168). -/
  ls : Tbl (Granule × Word)
  /-- The I1 TLB, most recently filled first (R354). -/
  tlb : List TlbEntry
  cycle : Word
  /-- Bind queue: handles of the steps whose records wait, in order of acceptance (R70). -/
  bindq : List Nat
  /-- Products that the matrix unit's array has taken from the core since the last energy interval: the array slots that it used
  (R86, R315). -/
  products : Nat
  deriving DecidableEq, Repr, Inhabited

/-- A core after reset. -/
def CoreSt.reset : CoreSt := ⟨0, [], [], [], [], [], 0, [], 0⟩

/-- Slot states (Table 04.4). -/
inductive SlotState where
  | empty | staging | staged | running
  deriving DecidableEq, Repr, Inhabited

/-- The eight dwords of a bind record (Table 04.3), named field by field where they are used. -/
abbrev BindRec := List Word

/-- One line of a preload (R73): where it comes from and which scratchpad line it lands in. -/
structure PreLine where
  va : Word
  spline : Nat
  /-- Its place in the order of the `in` entries and their addresses. -/
  ord : Nat
  deriving DecidableEq, Repr, Inhabited

/-- A slot-table entry (R70, R72). -/
structure Slot where
  st : SlotState
  rcd : BindRec
  /-- Lines still to land, in order. -/
  pre : List PreLine
  /-- Lines landed while the slot is staged: a preload into banks of this core (R73). -/
  landed : Tbl SpLine
  /-- The preload fault of the first line that has one, with the line's place in the order (R73). -/
  preFault : Option (Nat × TrapInfo)
  deriving DecidableEq, Repr, Inhabited

def Slot.reset : Slot := ⟨.empty, [], [], [], none⟩

/-- A command of the copy sequencer (R319, R320). -/
structure CopyCmd where
  q : Nat
  slot : Nat
  step : Nat
  nest : Vector NestLevel 12
  cprun : BitVec 13
  cpres : BitVec 48
  cpcvt : BitVec 20
  src : Word
  dst : Word
  acq : Bool
  rel : Bool
  scope : Scope
  cv : Bool
  ef : Bool
  /-- Runs whose writes are formed. -/
  runs : Nat
  /-- The destination pass is done (R322). -/
  passed : Bool
  /-- The release after the last run waits for its acknowledgements. -/
  phase : Nat
  /-- The word of its `cpgo` as fetched (R366). -/
  word : BitVec 32
  deriving DecidableEq, Repr

/-- Status of an accepted command (Table 21.7). -/
structure CopyStatus where
  state : BitVec 2
  ecause : BitVec 6
  runs : BitVec 48
  deriving DecidableEq, Repr, Inhabited

/-- What a cluster holds. -/
structure ClusterSt where
  i2 : Tbl Copy
  /-- O2 entries by granule, and those held for a retryable step apart (R79). -/
  o2 : Tbl OutEntry
  o2held : List (Nat × OutEntry)
  partials : List Partial
  tlb : List TlbEntry
  /-- The tile stash, most recently used first (R305). -/
  stash : List StashTile
  /-- PCNT3 and PCNT4 this cluster's replica still shows: key 8·producer + level (R131). -/
  stale : Tbl (BitVec 16)
  copyq : List CopyCmd
  /-- q of the last accepted command (R325). -/
  copyn : Nat
  /-- Status of the most recent commands, key q. -/
  copyst : Tbl CopyStatus
  /-- Slots of waiting `mattach.w`, in order of arrival, with the tiles asked for and the destination register (R296). -/
  mwait : List (Nat × Nat × XIdx)
  /-- The energy counter, in units of 2^-32 mJ (R86). -/
  energy : Nat
  deriving DecidableEq, Repr

def ClusterSt.reset : ClusterSt := ⟨[], [], [], [], [], [], [], [], 0, [], [], 0⟩

/-! ## Dispatcher -/

/-- Window context of a firing (Table 26.5) with its graph. -/
structure WinCtx where
  graph : Nat
  win : Nat
  start : Word
  stop : Word
  arrlo : Word
  arrhi : Word
  revision : Word
  deriving DecidableEq, Repr, Inhabited

/-- A hart saved at a switch-out (R362). -/
structure SavedHart where
  hart : Hart
  atResume : Bool
  ntiles : Nat
  bankrole : Word
  sp : Tbl SpLine
  ls : Tbl (Granule × Word)
  deriving DecidableEq, Repr

/-- Where a step stands. -/
inductive Place where
  /-- Not ready, or ready and unbound, in the step queues. -/
  | queued
  /-- Some record of the step waits in a bind queue or is staged, and none of its harts has started. -/
  | bound
  /-- Some hart of the step has started. -/
  | running
  /-- Every hart is done; the dispatcher publishes and writes the record (R84). -/
  | retiring
  deriving DecidableEq, Repr, Inhabited

/-- Why the harts of a non-retryable step have stopped, while its copy commands end or no save area is free (R78, R82, R362,
R390): a PREEMPT command; a `tyield`; an overrun; a lease, or a chiplet that is too hot (R423). -/
inductive Stopping where
  | preempt | yield | overrun | lease
  deriving DecidableEq, Repr, Inhabited

/-- A step the dispatcher knows (R65-R88). -/
structure StepRec where
  handle : Nat
  launch : Nat
  tileix : List Nat
  deps : Nat
  /-- Pages of the `in` regions are known to be resident (R69). -/
  resident : Bool
  /-- A residency request stands with firmware (R69). -/
  asked : Bool
  ownPrio : Nat
  age : Nat
  /-- When the last record was accepted (R76). -/
  bseq : Nat
  place : Place
  /-- Its harts have stopped for a switch-out that is still to come (R362). -/
  stopping : Option Stopping
  /-- Accepted records by core. -/
  recs : Tbl BindRec
  retries : Nat
  used : Nat
  nr : Bool
  ovr : Bool
  chkx : Nat
  budget : Nat
  timer : Word
  tip : Bool
  win : Option WinCtx
  /-- What a switch-out has saved of each member, in the order of the members' cores; none for one that had not started. -/
  saved : List (Option SavedHart)
  /-- Cores of the last run. -/
  cores : List Nat
  cycles : Nat
  energy : Nat
  tstart : Word
  ran : Bool
  /-- Outcome once known: OUTCOME, ECAUSE, FREC (Table 04.5). -/
  outcome : Option (Nat × Nat × Word)
  deriving DecidableEq, Repr

/-- A live launch (R66-R68). -/
structure LaunchRec where
  id : Nat
  blk : List Word
  desc : List Word
  pipes : List Word
  /-- Physical address of the top-level table (R352). -/
  table : Nat
  standing : Bool
  total : Nat
  emitted : Nat
  completed : Nat
  /-- Firings so far (R378). -/
  firings : Nat
  /-- The dependees of the launch's own edges, which apply to each of its steps that are not yet staged, and to those still to be
  queued (R68, R333). -/
  deferred : List Nat
  /-- KILL of the standing launch was accepted (R368). -/
  ended : Bool
  accepted : Word
  cycles : Nat
  energy : Nat
  /-- The LAUNCH message to answer at completion (R410). -/
  msg : Option HostMsg
  /-- The output watermark kept while no graph names the kernel (R375). -/
  outwm : Word
  deriving DecidableEq, Repr

/-- A pipe route (R91): step handle, index, receiving slot and queue, level. -/
structure Route where
  handle : Nat
  index : Nat
  slot : Nat
  qin : Nat
  level : Nat
  deriving DecidableEq, Repr, Inhabited

/-- A barrier of a gang or team (R335). -/
structure Barrier where
  handle : Nat
  team : Bool
  cluster : Nat
  union : Sil
  arrived : List Nat
  deriving DecidableEq, Repr, Inhabited

/-- A completion record waiting for the ring (R84, R85). -/
structure PendingRecord where
  handle : Nat
  words : List Word
  /-- The step or launch is complete with it; a record of OUTCOME 2 leaves the step queued (R78). -/
  final : Bool
  deriving DecidableEq, Repr, Inhabited

/-- The dispatcher and its registers (R62-R91). -/
structure Dispatcher where
  ageperiod : BitVec 32
  dhandle : BitVec 32
  dtimer : Word
  dstat : BitVec 2
  cqbase : BitVec 48
  cqsize : BitVec 16
  cqhead : BitVec 16
  cqtail : BitVec 16
  prkey : Word
  routes : List Route
  lastId : Nat
  launches : List LaunchRec
  /-- How many steps the last launch of an id that is over had: commands for them are refused (R88). -/
  past : Tbl Nat
  steps : List StepRec
  /-- Dependence edges of steps on steps and launches: waiter handle, dependee handle (R333). -/
  edges : List (Nat × Nat)
  /-- What the edges of launches (LaunchRec.deferred) give each of their steps: waiter handle, dependee handle (R68, R333). -/
  shared : List (Nat × Nat)
  records : List PendingRecord
  /-- The steps whose team records hold their places at the heads of bind queues, by core (R76). -/
  fronts : Tbl Nat
  barriers : List Barrier
  /-- Counter that gives ages and orders. -/
  seq : Nat
  /-- Reports to firmware: bind errors, residency requests, routing failures and check faults met outside a hart. -/
  reports : List (List Word)
  deriving DecidableEq, Repr

def Dispatcher.reset : Dispatcher :=
  ⟨0x00100000, 0, 0, 0, 0, 0, 0, 0, 0, [], 0, [], [], [], [], [], [], [], [], 0, []⟩

/-! ## Meridian -/

/-- States of a source (R373). -/
inductive SrcState where
  | active | idle | rejoining
  deriving DecidableEq, Repr, Inhabited

/-- A source of an enabled graph. -/
structure Source where
  st : SrcState
  wm : Word
  /-- DTIME of its last record or watermark record, or of the enabling of the graph (R373). -/
  last : Word
  deriving DecidableEq, Repr, Inhabited

/-- A live window (R376-R382). -/
structure Win where
  id : Nat
  /-- 0 open, 1 transited, 2 amendment pending, 3 expired (Table 26.4). -/
  state : Nat
  /-- Arrival index of its first on-time record. -/
  first : Option Nat
  /-- Lowest arrival index it refers to. -/
  lowest : Nat
  late : List Nat
  /-- DTIME at which the first record of the late list joined (R381). -/
  lateAt : Word
  /-- Revision of the last firing; `none` before any. -/
  rev : Option Nat
  /-- Handles of firings not yet completed, oldest first. -/
  firings : List Nat
  /-- The handle of its latest firing (R375, R381); `none` before any. -/
  last : Option Nat
  deriving DecidableEq, Repr, Inhabited

/-- A record that waits under R383. -/
structure Stalled where
  port : Nat
  /-- The source of the graph that its endpoint is bound to (R415). -/
  src : Nat
  h0 : Word
  h1 : Word
  payload : List Byte
  /-- The slot whose `semit` waits with it (R339). -/
  slot : Option Nat
  deriving DecidableEq, Repr, Inhabited

/-- A stream graph (Table 26.1). -/
structure Graph where
  sgbase : Word
  sgcfg : Word
  sgwin : Word
  sglate : Word
  sgtime : Word
  sgdrop : Word
  wm : Word
  next : Nat
  rcl : Nat
  lastdrop : BitVec 3
  samp : BitVec 128
  sources : Tbl Source
  wins : List Win
  stalled : List Stalled
  deriving DecidableEq, Repr

def Graph.reset : Graph := ⟨0, 0, 0, 0, 0, 0, 0, 0, 0, 0, 0, [], [], []⟩

/-- A bound output of a launch (R386, R387, R415). -/
structure Output where
  launch : Nat
  out : Nat
  endpoint : BitVec 128
  src : Nat
  seq : BitVec 32
  /-- The highest watermark yet sent (R386). -/
  sentWm : Word
  /-- Watermark records that rises of the output watermark have made and that are still to be sent, oldest first (R375). -/
  rises : List Word
  deriving DecidableEq, Repr, Inhabited

/-- A record sent on an output (R339, R387). -/
structure SentRecord where
  endpoint : BitVec 128
  h0 : Word
  h1 : Word
  payload : List Byte
  deriving DecidableEq, Repr, Inhabited

structure Meridian where
  graphs : Tbl Graph
  /-- Endpoint bound to a source: key 1024·graph + source (R415). -/
  binds : Tbl (BitVec 128)
  outputs : List Output
  sent : List SentRecord
  deriving DecidableEq, Repr

def Meridian.reset : Meridian := ⟨[], [], [], []⟩

/-! ## Service, ports and start-up -/

/-- Lease states (Table 28.2). -/
inductive Lease where
  | inService | drain | leased | retired
  deriving DecidableEq, Repr, Inhabited

/-- Leases, scores and retirement. Unit keys are 1024·class + unit. -/
structure Service where
  lease : Tbl Lease
  /-- Failed leases since power-on (R395). -/
  fails : Tbl Nat
  scores : Tbl Nat
  patience : BitVec 32
  lperiod : Vector (BitVec 32) 4
  scix : BitVec 11
  /-- Next unit of each class's schedule (R388). -/
  nextUnit : Vector Nat 4
  /-- Units whose next lease is brought forward (R398, R403). -/
  early : List (Nat × Nat)
  /-- Cores whose quarantine lease waits for another core of the cluster (R398). -/
  quarantined : List Nat
  gen : BitVec 16
  /-- Retirement log: eight dwords and the signature (R401). -/
  log : List (List Word × Vector Byte 96)
  logFull : Bool
  /-- Pseudo-channels whose data lies in the spares of their stack (R402). -/
  remapped : List Nat
  /-- Pseudo-channels whose second lease has failed and whose data is still to be moved, with the pattern that failed
  (R402). -/
  retiring : Tbl (BitVec 32)
  deriving DecidableEq, Repr

def Service.reset : Service where
  lease := []
  fails := []
  scores := []
  patience := 1600000
  lperiod := ⟨#[60000, 60000, 10000, 120000], rfl⟩
  scix := 0
  nextUnit := Vector.replicate 4 0
  early := []
  quarantined := []
  gen := 0
  log := []
  logFull := false
  remapped := []
  retiring := []

/-- A message the device has sent: a response or a request of its own, with the two dwords of its header (R407, R413). -/
structure Msg where
  port : Nat
  conn : Nat
  h0 : Word
  h1 : Word
  body : List Byte
  deriving DecidableEq, Repr, Inhabited

/-- A PAGE request of the device that stands: the launch id it names, the page by VA / 65536, the request's TAG, and the
top-level table of the address space, which a LAUNCH that waits for its descriptor has before its id is live (R90, R413). -/
structure PageRequest where
  launch : Nat
  page : Nat
  tag : BitVec 32
  table : Nat
  deriving DecidableEq, Repr, Inhabited

/-- A message that firmware has begun and that waits, or that came behind one on its connection (R410), with the page image
that the host sends. -/
structure Waiting where
  msg : HostMsg
  image : List (Nat × GData)
  deriving DecidableEq, Repr, Inhabited

/-- A page that the device has copied to the host (R150): the physical address of its frame, and its granules that are not
zero. -/
structure HostPage where
  base : Nat
  data : List (Nat × GData)
  deriving DecidableEq, Repr, Inhabited

/-- Ports, remote windows and start-up. -/
structure Ports where
  sent : List Msg
  /-- Messages that wait, oldest first (R410). -/
  waiting : List Waiting
  /-- Device PAGE requests that wait for the host, and the TAG of the next one (R413). -/
  pageRequests : List PageRequest
  nextTag : BitVec 32
  /-- Pages that are moving out and have not left yet, by top-level table, VA / 65536 and level: accesses to them wait (R150). -/
  moving : List (Nat × Nat × Nat)
  /-- Pages that have moved out to the host (R150, R151). -/
  hostPages : List HostPage
  /-- Pages the host has refused and that no access has yet seen refused: top-level table and VA / 65536 (R149). -/
  refusals : List (Nat × Nat)
  /-- Packets discarded per port (R406). -/
  discarded : Tbl Nat
  /-- Remote windows 1-7: port and endpoint (R26, R415). -/
  windows : Tbl (Nat × BitVec 128)
  /-- Granules in the port engines' buffers (R27). -/
  buffer : Tbl OutEntry
  /-- PCNT4 that the replica of a port engine still shows, by 512·port + producer, while a later count is on its way (R131). -/
  stale : Tbl (BitVec 16)
  /-- Granules delivered to remote endpoints, latest last (R27): granule and data. -/
  delivered : List (Nat × GData)
  /-- Results of remote reads: port, data, or none for a transport error (R412). -/
  reads : List (Nat × Option (List Byte))
  /-- Acknowledgements of remote writes: port, and whether without error (R411). -/
  acks : List (Nat × Bool)
  /-- Power-on stage last begun and whether the sequence has started (Table 30.3). -/
  stage : Nat
  selfTest : List Word
  /-- The Celior image that stage 0 found last, and the almanac: what the nonvolatile store holds (R394, R420). -/
  celior : Celior
  almanac : List Byte
  /-- The measurements of Table 30.5, once stage 5 has fixed them. -/
  measured : Option (List (List Byte))
  talkative : Bool
  rom : Bool
  tlimit : BitVec 8
  /-- 100 MHz steps taken, by chiplet, and chiplets that take no binding (R423). -/
  steps : Vector Nat 8
  /-- The reading of each chiplet's hottest sensor, °C (R423). -/
  temps : Vector Nat 8
  hot : Vector Bool 8
  /-- What firmware does with each chiplet's clock: 0 holds it, 1 lowers it, 2 raises it (R423). -/
  thermal : Vector Nat 8
  deriving DecidableEq, Repr

def Ports.reset : Ports where
  sent := []
  waiting := []
  pageRequests := []
  nextTag := 0
  moving := []
  hostPages := []
  refusals := []
  discarded := []
  windows := []
  buffer := []
  stale := []
  delivered := []
  reads := []
  acks := []
  stage := 0
  selfTest := List.replicate 8 0
  celior := ⟨0, []⟩
  almanac := []
  measured := none
  talkative := false
  rom := false
  tlimit := 95
  steps := Vector.replicate 8 0
  temps := Vector.replicate 8 0
  hot := Vector.replicate 8 false
  thermal := Vector.replicate 8 0

/-! ## The whole device -/

/-- The machine. -/
structure State where
  /-- Context of the acting slot `cur`. -/
  hart : Hart
  /-- Contexts of the other slots that hold one. -/
  rest : Tbl Hart
  slots : Tbl Slot
  cores : Tbl CoreSt
  clusters : Tbl ClusterSt
  /-- Counts of producers 0-383; unlisted: RCNT 1, PCNT 0 (R102). -/
  counts : Tbl Counts
  /-- HBM data by physical byte address; unlisted bytes read 0 (R100). -/
  mem : List Host.Cell
  /-- HBM metadata by granule; unlisted: the reset fill's (R100). -/
  memMeta : Tbl Meta
  i3 : Tbl Copy
  o3 : Tbl OutEntry
  /-- The place in the order of formation of the granules that HBM holds; unlisted 0 (the model's own field, log 14). -/
  hbmSeq : Tbl Nat
  /-- Test stripes that the pattern source has written, by pseudo-channel: the tick of the last run (R17, R393). -/
  stripes : Tbl Nat
  /-- The system parts of the reserved areas: key 65536·pseudo-channel + granule; what is not listed reads zero (R17, R394). -/
  system : Tbl Granule
  /-- Multicast flits in the mesh, in the order in which they came where they stand (R118, R119). -/
  mesh : List MeshFlit
  attach : Tbl Attachment
  /-- Lines marked attachment lost (R134). -/
  lost : List Nat
  crngb : Vector Word 16
  crngc : Vector Word 16
  memzone : Word
  dtime : Word
  portrtt : BitVec 32
  disp : Dispatcher
  mer : Meridian
  svc : Service
  ports : Ports
  /-- The acting slot (the model's own field, log 1). -/
  cur : Nat
  /-- Counter that the free values are applied to (DESIGN CHOICE, log 1). -/
  tick : Nat
  /-- Acts still to perform; when empty, Config.environment chooses (DESIGN CHOICE, log 1). -/
  agenda : List Act
  /-- The instruction word as fetched (DESIGN CHOICE, log 1). -/
  ir : BitVec 32
  /-- Units left before the stop that the act asked for (DESIGN CHOICE, log 1). -/
  units : Option Nat
  deriving DecidableEq, Repr

/-- The machine right after reset: every level empty, every slot EMPTY (R100, R72). (DESIGN CHOICE, log 2.) -/
def State.reset : State where
  hart := Hart.reset
  rest := []
  slots := []
  cores := []
  clusters := []
  counts := []
  mem := []
  memMeta := []
  i3 := []
  o3 := []
  hbmSeq := []
  stripes := []
  system := []
  mesh := []
  attach := []
  lost := []
  crngb := Vector.replicate 16 0
  crngc := Vector.replicate 16 0
  memzone := 0
  dtime := 0
  portrtt := 0
  disp := Dispatcher.reset
  mer := Meridian.reset
  svc := Service.reset
  ports := Ports.reset
  cur := 0
  tick := 0
  agenda := []
  ir := 0
  units := none

end Sys2Proof.Machine
end

