-- ==== Sys2Proof/Machine/Access.lean ====
section
/-! DEFINITION. Sparse tables, the homes of harts, slots, cores and clusters in the state, the numbering of units (R7, R8,
R24), and the form of a computation that may trap or wait. -/

namespace Sys2Proof

/-! ## Widths -/

/-- The width in bits. -/
def EW.bits : EW → Nat
  | .b => 8 | .h => 16 | .w => 32 | .d => 64

/-- The width in bytes. -/
def EW.bytes : EW → Nat
  | .b => 1 | .h => 2 | .w => 4 | .d => 8

/-- The width of a format in bits (Table 12.1). -/
def Fmt.bits : Fmt → Nat
  | .f32 => 32 | .bf16 => 16 | .f16 => 16 | .e4m3 => 8 | .e5m2 => 8 | .e2m1 => 4 | .i8 => 8
  | .ui8 => 8 | .i4 => 4 | .rns3 => 32 | .i16 => 16 | .i32 => 32 | .e8m0 => 8

/-- The relation and release level of a scope (R123). -/
def Scope.level : Scope → Nat
  | .core => 1 | .cluster => 2 | .device => 3 | .system => 4

/-- Bytes of a load width (R60). -/
def LWidth.bytes : LWidth → Nat
  | .b => 1 | .h => 2 | .w => 4 | .d => 8 | .bu => 1 | .hu => 2 | .wu => 4

/-- Whether the loaded value is extended by its sign (R218). -/
def LWidth.signed : LWidth → Bool
  | .b => true | .h => true | .w => true | .d => true | .bu => false | .hu => false | .wu => false

end Sys2Proof

namespace Sys2Proof.Machine

/-! ## Sparse tables -/

/-- The entry of a key. -/
def tget {α : Type} : Tbl α → Nat → Option α
  | [], _ => none
  | (k, a) :: t, n => if k = n then some a else tget t n

/-- The entry of a key, or a default. -/
def tgetD {α : Type} (t : Tbl α) (n : Nat) (d : α) : α := (tget t n).getD d

/-- Writes an entry, keeping the keys rising. -/
def tput {α : Type} : Tbl α → Nat → α → Tbl α
  | [], n, a => [(n, a)]
  | (k, b) :: t, n, a =>
    if n < k then (n, a) :: (k, b) :: t
    else if k = n then (n, a) :: t
    else (k, b) :: tput t n a

/-- Removes what a table has under a key. -/
def tdel {α : Type} : Tbl α → Nat → Tbl α
  | [], _ => []
  | (k, b) :: t, n => if k = n then tdel t n else (k, b) :: tdel t n

/-- Keys strictly rising. -/
def tsorted {α : Type} : Tbl α → Bool
  | [] => true
  | [_] => true
  | (k, _) :: (m, b) :: t => decide (k < m) && tsorted ((m, b) :: t)

/-! ## Loops -/

/-- `f i` for `i` = lo, lo+1, …, lo+n-1, on a state. -/
def forUp {σ : Type} : Nat → Nat → (Nat → σ → σ) → σ → σ
  | 0, _, _, s => s
  | n + 1, lo, f, s => forUp n (lo + 1) f (f lo s)

/-! ## Units -/

/-- The core of a slot (R8). -/
def coreOfSlot (slot : Nat) : Nat := slot / 2
/-- The cluster of a core (R9). -/
def clusterOfCore (c : Nat) : Nat := c / 4
def clusterOfSlot (slot : Nat) : Nat := slot / 8
/-- The producer id of a matrix unit, a copy sequencer, a junction atomic unit, a port engine (R24). -/
def prodMatrix (cluster : Nat) : Nat := 256 + cluster
def prodCopy (cluster : Nat) : Nat := 320 + cluster
def prodJunction (slice : Nat) : Nat := 384 + slice
def prodPort (port : Nat) : Nat := 448 + port
def prodMigration : Nat := 464
def prodManagement : Nat := 465
/-- Whether an id is ever produced (R24). -/
def prodExists (p : Nat) : Bool := (p < 456) || p == 464 || p == 465 || p == 511
/-- The cluster of a producer that lies in one (R101). -/
def clusterOfProd (p : Nat) : Option Nat :=
  if p < 256 then some (p / 4) else if p < 320 then some (p - 256) else if p < 384 then some (p - 320) else none

/-! ## Homes -/

/-- The context of a slot. -/
def hartAt (s : State) (slot : Nat) : Hart :=
  if slot = s.cur then s.hart else tgetD s.rest slot Hart.reset

def setHart (s : State) (slot : Nat) (h : Hart) : State :=
  if slot = s.cur then { s with hart := h } else { s with rest := tput s.rest slot h }

/-- Makes a slot the acting one. -/
def switchTo (s : State) (slot : Nat) : State :=
  if slot = s.cur then s
  else { s with hart := hartAt s slot, rest := tdel (tput s.rest s.cur s.hart) slot, cur := slot }

def slotAt (s : State) (slot : Nat) : Slot := tgetD s.slots slot Slot.reset
def setSlot (s : State) (slot : Nat) (x : Slot) : State := { s with slots := tput s.slots slot x }
def coreAt (s : State) (c : Nat) : CoreSt := tgetD s.cores c CoreSt.reset
def setCore (s : State) (c : Nat) (x : CoreSt) : State := { s with cores := tput s.cores c x }
def clusterAt (s : State) (n : Nat) : ClusterSt := tgetD s.clusters n ClusterSt.reset
def setCluster (s : State) (n : Nat) (x : ClusterSt) : State := { s with clusters := tput s.clusters n x }
def graphAt (s : State) (g : Nat) : Graph := tgetD s.mer.graphs g Graph.reset
def setGraph (s : State) (g : Nat) (x : Graph) : State :=
  { s with mer := { s.mer with graphs := tput s.mer.graphs g x } }

def Counts.reset : Counts := ⟨1, 0, 0, 0, 0⟩
def countsAt (s : State) (p : Nat) : Counts := tgetD s.counts p Counts.reset
def setCounts (s : State) (p : Nat) (c : Counts) : State := { s with counts := tput s.counts p c }

/-- The acting core and cluster. -/
def curCore (s : State) : Nat := coreOfSlot s.cur
def curCluster (s : State) : Nat := clusterOfSlot s.cur

/-- The slots of a core (R8). -/
def slotsOfCore (c : Nat) : List Nat := [2 * c, 2 * c + 1]

/-- The running slot of a core. -/
def runningSlot (s : State) (c : Nat) : Option Nat :=
  (slotsOfCore c).find? (fun k => (slotAt s k).st == .running)

/-- A fresh value of the counter that the free values are applied to. -/
def nextTick (s : State) : State := { s with tick := s.tick + 1 }

/-! ## Computations that may trap or wait -/

/-- How an instruction ends before its end. -/
inductive Stop where
  /-- A trap is taken (R343). -/
  | trap (t : TrapInfo)
  /-- The instruction does not complete in this act: it waits (R93) or stops at a boundary inside it (R360). -/
  | hold
  deriving DecidableEq, Repr

/-- A computation on the state that may trap or wait; what it changed before stays. -/
abbrev M (α : Type) := ExceptT Stop (StateM State) α

def getS : M State := fun s => (.ok s, s)
def setS (s : State) : M Unit := fun _ => (.ok (), s)
def modS (f : State → State) : M Unit := fun s => (.ok (), f s)
def modHart (f : Hart → Hart) : M Unit := modS fun s => { s with hart := f s.hart }
def stopM {α : Type} (st : Stop) : M α := fun s => (.error st, s)
/-- A test that stops the computation. -/
def guardM (ok : Bool) (st : Stop) : M Unit := fun s => if ok then (.ok (), s) else (.error st, s)

/-- An instruction that has issued waits: a stop here is no resume point, and RESUME stands until it completes or traps (R93,
R345, R425). -/
def waiting (s : State) : State := { s with hart := { s.hart with waits := true } }

/-- The instruction waits. -/
def holdM {α : Type} : M α := fun s => (.error .hold, waiting s)

/-- A trap with a cause and a value; the record's ADDR is the value (Table 23.9). -/
def TrapInfo.plain (cause : BitVec 6) (val : Word) : TrapInfo :=
  { cause := cause, val := val, addr := val, npg := 0, more := false, eng := false, words := [],
    score := none, resume := false, word := none }

/-- The pseudocode's `raise` (Table 14.6). -/
def raise {α : Type} (cause : BitVec 6) (val : Word) : M α := stopM (.trap (.plain cause val))

/-- Illegal instruction: EVAL is the word (R206). -/
def raiseIllegal {α : Type} : M α := fun s => (.error (.trap (.plain 0x01 (s.ir.setWidth 64))), s)
/-- Illegal operand whose description names no EVAL: the word (Table 23.1). -/
def raiseOperand {α : Type} : M α := fun s => (.error (.trap (.plain 0x02 (s.ir.setWidth 64))), s)

/-- `f i` for `i` = lo … lo+n-1, stopping at the first stop. -/
def forM' : Nat → Nat → (Nat → M Unit) → M Unit
  | 0, _, _ => fun s => (.ok (), s)
  | n + 1, lo, f => fun s =>
    match f lo s with
    | (.ok _, s') => forM' n (lo + 1) f s'
    | (.error e, s') => (.error e, s')

/-- `f x` for each member of a list, stopping at the first stop. -/
def eachM {α : Type} : List α → (α → M Unit) → M Unit
  | [], _ => fun s => (.ok (), s)
  | x :: t, f => fun s =>
    match f x s with
    | (.ok _, s') => eachM t f s'
    | (.error e, s') => (.error e, s')

end Sys2Proof.Machine
end

