-- ==== Sys2Proof/Machine/Formats.lean ====
section
/-! DEFINITION. Number formats, rounding and conversion (R175-R192): exact values, `round_fmt`, block scales, RNS3. -/

namespace Sys2Proof.Machine

/-! ## Exact values -/

/-- An exact value: not a number, an infinity, or (−1)^neg · m · 2^e. -/
inductive Exact where
  | nan
  | inf (neg : Bool)
  | fin (neg : Bool) (m : Nat) (e : Int)
  deriving DecidableEq, Repr, Inhabited

/-- A floating-point format: exponent bits, mantissa bits, bias (Table 12.2). -/
structure FloatSpec where
  ebits : Nat
  mbits : Nat
  bias : Int
  /-- Largest finite magnitude is maxM · 2^maxE. -/
  maxM : Nat
  maxE : Int
  deriving DecidableEq, Repr

/-- The floating-point formats (Table 12.2). -/
def floatSpec : Fmt → Option FloatSpec
  | .f32 => some ⟨8, 23, 127, 2 ^ 24 - 1, 104⟩
  | .bf16 => some ⟨8, 7, 127, 255, 120⟩
  | .f16 => some ⟨5, 10, 15, 2047, 5⟩
  | .e4m3 => some ⟨4, 3, 7, 14, 5⟩
  | .e5m2 => some ⟨5, 2, 15, 7, 13⟩
  | .e2m1 => some ⟨2, 1, 1, 3, 1⟩
  | .i8 => none | .ui8 => none | .i4 => none | .rns3 => none | .i16 => none | .i32 => none | .e8m0 => none

/-- The canonical NaN of a format (Table 12.2); E2M1 has none and a NaN becomes +0 (Table 12.6). -/
def canonNaN : Fmt → Nat
  | .f32 => 0x7FC00000
  | .bf16 => 0x7FC0
  | .f16 => 0x7E00
  | .e4m3 => 0x7F
  | .e5m2 => 0x7E
  | .e2m1 => 0 | .i8 => 0 | .ui8 => 0 | .i4 => 0 | .rns3 => 0 | .i16 => 0 | .i32 => 0
  | .e8m0 => 0xFF

/-- Whether the top exponent of a format holds infinities and NaNs as IEEE 754 does (Table 12.2). -/
def hasInf : Fmt → Bool
  | .f32 => true | .bf16 => true | .f16 => true | .e5m2 => true
  | .e4m3 => false | .e2m1 => false | .i8 => false | .ui8 => false | .i4 => false | .rns3 => false | .i16 => false
  | .i32 => false | .e8m0 => false

/-- The value of an encoding of a floating-point format (R177). -/
def decodeFloat (f : Fmt) (sp : FloatSpec) (bits : Nat) : Exact :=
  let m := bits % 2 ^ sp.mbits
  let e := bits / 2 ^ sp.mbits % 2 ^ sp.ebits
  let neg := bits / 2 ^ (sp.mbits + sp.ebits) % 2 == 1
  if e = 0 then .fin neg m (1 - sp.bias - sp.mbits)
  else if e = 2 ^ sp.ebits - 1 && hasInf f then (if m = 0 then .inf neg else .nan)
  else if f = .e4m3 && e = 15 && m = 7 then .nan
  else .fin neg (2 ^ sp.mbits + m) ((e : Int) - sp.bias - sp.mbits)

/-- The signed value of the low `w` bits. -/
def toSigned (w bits : Nat) : Int :=
  let b := bits % 2 ^ w
  if 2 * b ≥ 2 ^ w then (b : Int) - 2 ^ w else b

/-- The low `w` bits of an integer. -/
def ofInt (w : Nat) (x : Int) : Nat := (x % (2 : Int) ^ w).toNat

/-- `sat_int` (R179, R180). -/
def satInt (x : Int) (w : Nat) (signed : Bool) : Int :=
  let lo : Int := if signed then -(2 : Int) ^ (w - 1) else 0
  let hi : Int := if signed then (2 : Int) ^ (w - 1) - 1 else (2 : Int) ^ w - 1
  if x < lo then lo else if hi < x then hi else x

/-- The integer an encoding of an integer format holds (R179). -/
def decodeInt (f : Fmt) (bits : Nat) : Int :=
  match f with
  | .ui8 => (bits % 256 : Nat)
  | f => toSigned f.bits bits

def Exact.ofInt (x : Int) : Exact := .fin (x < 0) x.natAbs 0

/-- The exact value of an encoding; E8M0 by R178. RNS3 is no number by itself. -/
def decodeExact (f : Fmt) (bits : Nat) : Exact :=
  match floatSpec f with
  | some sp => decodeFloat f sp bits
  | none =>
    if f = .e8m0 then (if bits % 256 = 255 then .nan else .fin false 1 ((bits % 256 : Nat) - 127))
    else .ofInt (decodeInt f bits)

/-! ## Rounding (R187, R188) -/

/-- Rounds m / 2^sh to an integer magnitude in a mode. -/
def roundShift (r : Rnd) (neg : Bool) (m sh : Nat) : Nat :=
  let q := m >>> sh
  let rem := m - q <<< sh
  let up := match r with
    | .rne => 2 * rem > 1 <<< sh || (2 * rem == 1 <<< sh && q % 2 == 1)
    | .rtz => false
    | .rdn => neg && rem != 0
    | .rup => !neg && rem != 0
  if up then q + 1 else q

/-- A magnitude m · 2^e rounded to a multiple of 2^q. -/
def roundGrid (r : Rnd) (neg : Bool) (m : Nat) (e q : Int) : Nat :=
  if q ≤ e then m <<< (e - q).toNat else roundShift r neg m (q - e).toNat

/-- m · 2^e > n · 2^f. -/
def magGt (m : Nat) (e : Int) (n : Nat) (f : Int) : Bool :=
  if e ≥ f then m <<< (e - f).toNat > n else m > n <<< (f - e).toNat

/-- The encoding of a representable magnitude r · 2^q, with r below 2^(mbits+1) or equal to it. -/
def encodeMag (sp : FloatSpec) (r : Nat) (q : Int) : Nat :=
  if r < 2 ^ sp.mbits then r
  else
    let k := Nat.log2 r
    let e := (q + k + sp.bias).toNat
    let m := (if k ≥ sp.mbits then r >>> (k - sp.mbits) else r <<< (sp.mbits - k)) - 2 ^ sp.mbits
    e * 2 ^ sp.mbits + m

def signBit (sp : FloatSpec) (neg : Bool) : Nat := if neg then 2 ^ (sp.ebits + sp.mbits) else 0

/-- The largest finite value of a format, with a sign. -/
def encodeMax (sp : FloatSpec) (neg : Bool) : Nat := signBit sp neg + encodeMag sp sp.maxM sp.maxE

/-- An infinity as the destination holds it (Table 12.6). -/
def encodeInf (f : Fmt) (sp : FloatSpec) (neg sat : Bool) : Nat :=
  if sat || f = .e2m1 then encodeMax sp neg
  else if f = .e4m3 then canonNaN f
  else signBit sp neg + (2 ^ sp.ebits - 1) * 2 ^ sp.mbits

/-- Step one of an overflow: whether the mode gives an infinity (R188). -/
def overflowsToInf (r : Rnd) (neg : Bool) : Bool :=
  match r with
  | .rne => true
  | .rtz => false
  | .rdn => neg
  | .rup => !neg

/-- `round_fmt` for a floating-point destination (R187-R189). -/
def roundFloat (f : Fmt) (sp : FloatSpec) (x : Exact) (r : Rnd) (sat : Bool) : Nat :=
  match x with
  | .nan => canonNaN f
  | .inf neg => encodeInf f sp neg sat
  | .fin neg m e =>
    if m = 0 then signBit sp neg
    else
      let q := max (1 - sp.bias - sp.mbits) ((Nat.log2 m : Int) + e - sp.mbits)
      let k := roundGrid r neg m e q
      if magGt k q sp.maxM sp.maxE then
        if sat then encodeMax sp neg
        else if overflowsToInf r neg then encodeInf f sp neg false
        else encodeMax sp neg
      else signBit sp neg + encodeMag sp k q

/-- An exact value rounded to an integer in a mode; NaN gives 0 (R190). -/
def Exact.toInt (x : Exact) (r : Rnd) : Int :=
  match x with
  | .nan => 0
  | .inf neg => if neg then -(2 : Int) ^ 200 else (2 : Int) ^ 200
  | .fin neg m e =>
    let k : Int := roundGrid r neg m e 0
    if neg then -k else k

/-- Whether an integer format is signed. -/
def intSigned (f : Fmt) : Bool := f != .ui8

/-- `round_fmt` for an integer destination: rounded and always saturated (R190). -/
def roundInt (f : Fmt) (x : Exact) (r : Rnd) : Nat := ofInt f.bits (satInt (x.toInt r) f.bits (intSigned f))

/-- `round_fmt` of an exact value (R187-R190). -/
def roundFmt (f : Fmt) (x : Exact) (r : Rnd) (sat : Bool) : Nat :=
  match floatSpec f with
  | some sp => roundFloat f sp x r sat
  | none => roundInt f x r

def isFloat (f : Fmt) : Bool := (floatSpec f).isSome

/-- Conversion of an encoding from one format to another (R187-R190); RNS3 is handled where it is admitted. -/
def convert (src dst : Fmt) (bits : Nat) (r : Rnd) (sat : Bool) : Nat :=
  if isFloat src || isFloat dst then roundFmt dst (decodeExact src bits) r sat
  else
    let x := decodeInt src bits
    ofInt dst.bits (if sat then satInt x dst.bits (intSigned dst) else x)

/-! ## Exact arithmetic -/

def Exact.neg : Exact → Exact
  | .nan => .nan
  | .inf n => .inf (!n)
  | .fin n m e => .fin (!n) m e
def Exact.abs : Exact → Exact
  | .nan => .nan
  | .inf _ => .inf false
  | .fin _ m e => .fin false m e

/-- The signed mantissa at a lower exponent. -/
def scaled (neg : Bool) (m : Nat) (e q : Int) : Int :=
  let k : Int := m <<< (e - q).toNat
  if neg then -k else k

/-- Exact sum; an exact zero of operands of opposite sign is +0, or −0 under RDN (R187). -/
def Exact.add (r : Rnd) (x y : Exact) : Exact :=
  match x, y with
  | .nan, _ => .nan
  | _, .nan => .nan
  | .inf a, .inf b => if a = b then .inf a else .nan
  | .inf a, .fin _ _ _ => .inf a
  | .fin _ _ _, .inf b => .inf b
  | .fin a m e, .fin b n f =>
    let q := min e f
    let t := scaled a m e q + scaled b n f q
    if t = 0 then .fin (if m = 0 && n = 0 && a = b then a else r == .rdn) 0 q
    else .fin (t < 0) t.natAbs q

/-- Exact product; infinity times zero is a NaN. -/
def Exact.mul (x y : Exact) : Exact :=
  match x, y with
  | .nan, _ => .nan
  | _, .nan => .nan
  | .inf a, .inf b => .inf (a != b)
  | .inf a, .fin b n _ => if n = 0 then .nan else .inf (a != b)
  | .fin a m _, .inf b => if m = 0 then .nan else .inf (a != b)
  | .fin a m e, .fin b n f => .fin (a != b) (m * n) (e + f)

/-- Quotient with a last bit that tells whether anything is left, far below any destination's precision. -/
def Exact.div (x y : Exact) : Exact :=
  match x, y with
  | .nan, _ => .nan
  | _, .nan => .nan
  | .inf _, .inf _ => .nan
  | .inf a, .fin b _ _ => .inf (a != b)
  | .fin a _ _, .inf b => .fin (a != b) 0 0
  | .fin a m e, .fin b n f =>
    if n = 0 then (if m = 0 then .nan else .inf (a != b))
    else
      let k := 80 + Nat.log2 n
      let q := (m <<< k) / n
      let sticky := if (m <<< k) % n = 0 then 0 else 1
      .fin (a != b) (2 * q + sticky) (e - f - k - 1)

/-- Integer square root from bit `n`-1 down. -/
def isqrt (v : Nat) : Nat → Nat → Nat
  | 0, r => r
  | n + 1, r => if (r + 2 ^ n) * (r + 2 ^ n) ≤ v then isqrt v n (r + 2 ^ n) else isqrt v n r

/-- Square root with a last bit for what is left; negative numbers below zero give a NaN, −0 gives −0. -/
def Exact.sqrt (x : Exact) : Exact :=
  match x with
  | .nan => .nan
  | .inf neg => if neg then .nan else .inf false
  | .fin neg m e =>
    if m = 0 then .fin neg 0 0
    else if neg then .nan
    else
      let odd := (e % 2 != 0)
      let m := if odd then 2 * m else m
      let e := if odd then e - 1 else e
      let v := m <<< 160
      let r := isqrt v ((Nat.log2 v) / 2 + 1) 0
      .fin false (2 * r + (if r * r = v then 0 else 1)) (e / 2 - 80 - 1)

/-- Order of two values that are not NaN; ±0 are equal. -/
def Exact.lt (x y : Exact) : Bool :=
  match x, y with
  | .nan, _ => false
  | _, .nan => false
  | .inf a, .inf b => a && !b
  | .inf a, .fin _ _ _ => a
  | .fin _ _ _, .inf b => !b
  | .fin a m e, .fin b n f => let q := min e f; scaled a m e q < scaled b n f q
def Exact.eq (x y : Exact) : Bool :=
  match x, y with
  | .nan, _ => false
  | _, .nan => false
  | .inf a, .inf b => a == b
  | .inf _, .fin _ _ _ => false
  | .fin _ _ _, .inf _ => false
  | .fin a m e, .fin b n f => let q := min e f; scaled a m e q == scaled b n f q
def Exact.isNaN : Exact → Bool
  | .nan => true
  | .inf _ => false
  | .fin _ _ _ => false
def Exact.isFinite : Exact → Bool
  | .nan => false
  | .inf _ => false
  | .fin _ _ _ => true

/-- x · 2^k. -/
def Exact.scale (x : Exact) (k : Int) : Exact :=
  match x with
  | .nan => .nan
  | .inf n => .inf n
  | .fin n m e => .fin n m (e + k)

/-! ## Block scales (R186, R191) -/

/-- The value of a block-scaled element (R186). -/
def mxValue (f : Fmt) (scale bits : Nat) : Exact :=
  if scale % 256 = 255 then .nan
  else (decodeExact f bits).scale ((scale % 256 : Nat) - 127 - (if f = .i8 then 6 else 0))

/-- fmax of an element format, as m · 2^e (R186). -/
def mxMax : Fmt → Nat × Int
  | .e4m3 => (14, 5)
  | .e5m2 => (7, 13)
  | .e2m1 => (3, 1)
  | .i8 => (127, -6)
  | .f32 => (1, 0) | .bf16 => (1, 0) | .f16 => (1, 0) | .ui8 => (1, 0) | .i4 => (1, 0) | .rns3 => (1, 0) | .i16 => (1, 0)
  | .i32 => (1, 0) | .e8m0 => (1, 0)

/-- The larger magnitude of two. -/
def maxMag (a : Nat × Int) (x : Exact) : Nat × Int :=
  match x with
  | .fin _ m e => if magGt m e a.1 a.2 then (m, e) else a
  | .nan => a
  | .inf _ => a

/-- The scale field of a block of present elements (R191 steps 1 to 4). -/
def mxScale (f : Fmt) (xs : List Exact) : Nat :=
  if xs.any fun x => !x.isFinite then 0xFF
  else
    let a := xs.foldl maxMag (0, 0)
    if a.1 = 0 then 0x7F
    else
      let t0 : Int := (Nat.log2 a.1 : Int) + a.2 - (Nat.log2 (mxMax f).1 + (mxMax f).2)
      let t := if magGt a.1 a.2 (mxMax f).1 ((mxMax f).2 + t0) then t0 + 1 else t0
      (max (-127) (min 127 t) + 127).toNat

/-- An element of a block under its scale field (R191 steps 2 and 5). -/
def mxElem (f : Fmt) (scale : Nat) (x : Exact) : Nat :=
  if scale = 0xFF then 0
  else roundFmt f (x.scale (127 - scale + (if f = .i8 then 6 else 0))) .rne true

/-! ## RNS3 (R181-R184) -/

/-- The container of an integer (R181). -/
def rnsOfInt (x : Int) : Nat := (x % 256).toNat + 256 * (x % 255).toNat + 65536 * (x % 253).toNat

/-- Residues of a container as they are used (R181). -/
def rnsResidues (c : Nat) : Nat × Nat × Nat := (c % 256, c / 256 % 256 % 255, c / 65536 % 256 % 253)

/-- Reconstruction of a container (R183). -/
def rnsValue (c : Nat) : Int :=
  let a := rnsResidues c
  let d1 : Int := a.1
  let d2 : Int := ((a.2.1 : Int) - d1) % 255
  let d3 : Int := (((a.2.2 : Int) - (d1 + 256 * d2)) % 253) * 211 % 253
  let u := d1 + 256 * d2 + 65280 * d3
  if u ≥ 8257920 then u - 16515840 else u

/-- The guard residue of a value (R182). -/
def rnsGuard (s : Int) : Nat := (s % 251).toNat

/-! ## Error feedback (R192) -/

/-- Narrow value and residue of a source (R192). -/
def feedback (src narrow res : Fmt) (bits : Nat) (r : Rnd) (sat : Bool) : Nat × Nat :=
  let x := decodeExact src bits
  let n := roundFmt narrow x r sat
  let v := decodeExact narrow n
  if !x.isFinite || !v.isFinite then (n, canonNaN res)
  else
    match Exact.add .rne x v.neg with
    | .fin neg m e => if m = 0 then (n, 0) else (n, roundFmt res (.fin neg m e) r true)
    | .nan => (n, canonNaN res)
    | .inf _ => (n, canonNaN res)

end Sys2Proof.Machine
end

