-- ==== Sys2Proof/Machine/Memory.lean ====
section
/-! DEFINITION. The device's memory: HBM bytes in canonical form, granule metadata, check words (R157-R162), commutative
ranges by address (R143), and where a physical address lives (R20, R22). -/

namespace Sys2Proof.Machine

/-! ## HBM bytes -/

/-- Data bytes by physical address. -/
abbrev Memory := List Host.Cell

/-- What an unlisted byte reads as: the reset fill (R100). -/
def memDefault : Byte := 0

def Memory.read : Memory → Nat → Byte
  | [], _ => memDefault
  | (k, b) :: m, a => if k = a then b else Memory.read m a

/-- Writes a byte, keeping addresses rising and no entry equal to what an unlisted address reads as. -/
def Memory.write : Memory → Nat → Byte → Memory
  | [], a, b => if b = memDefault then [] else [(a, b)]
  | (k, c) :: m, a, b =>
    if a < k then (if b = memDefault then (k, c) :: m else (a, b) :: (k, c) :: m)
    else if k = a then (if b = memDefault then m else (a, b) :: m)
    else (k, c) :: Memory.write m a b

/-- The canonical form, from a lower bound on the addresses. -/
def Memory.wfFrom : Nat → Memory → Bool
  | _, [] => true
  | lo, (k, b) :: m => decide (lo ≤ k) && decide (b ≠ memDefault) && Memory.wfFrom (k + 1) m

/-- Addresses strictly rising, no entry equal to the default. -/
def Memory.wf (m : Memory) : Bool := Memory.wfFrom 0 m

/-- `n` bytes from an address up, as a little-endian number. -/
def Memory.readN (m : Memory) (a : Nat) : Nat → Nat
  | 0 => 0
  | n + 1 => (Memory.read m a).toNat + 256 * Memory.readN m (a + 1) n

/-- Writes the `n` low bytes of a number, least significant first. -/
def Memory.writeN (m : Memory) (a : Nat) (v : Nat) : Nat → Memory
  | 0 => m
  | n + 1 => Memory.writeN (Memory.write m a (BitVec.ofNat 8 v)) (a + 1) (v / 256) n

/-! ## Metadata (Table 06.2) -/

def Granule.level (g : Granule) : Nat := (g.md.extractLsb' 41 3).toNat
def Granule.prod (g : Granule) : Nat := (g.md.extractLsb' 32 9).toNat
def Granule.rc (g : Granule) : BitVec 16 := g.md.extractLsb' 44 16
def Granule.chk (g : Granule) : BitVec 32 := g.md.extractLsb' 0 32
def Granule.reserved (g : Granule) : BitVec 3 := g.md.extractLsb' 60 3
def Granule.lpar (g : Granule) : Bool := g.md.getLsbD 63

/-- Even parity of a level (R97). -/
def levelParity (l : Nat) : Bool := (l % 2 + l / 2 % 2 + l / 4 % 2) % 2 == 1

/-- A metadata word from its fields. -/
def packMeta (rc : BitVec 16) (level prod : Nat) (chk : BitVec 32) : Meta :=
  BitVec.ofBool (levelParity level) ++ (0 : BitVec 3) ++ rc ++ BitVec.ofNat 3 level ++ BitVec.ofNat 9 prod ++ chk

/-! ## Check words -/

/-- One bit of CRC-32C (R157). -/
def crcBit (c : Nat) : Nat := if c % 2 = 1 then (c / 2) ^^^ 0x82F63B78 else c / 2

/-- One byte of CRC-32C. -/
def crcByte (c b : Nat) : Nat :=
  crcBit (crcBit (crcBit (crcBit (crcBit (crcBit (crcBit (crcBit (c ^^^ b))))))))

/-- The loop of `crc32c` over the `n` low bytes of a number, least significant first. -/
def crcLoop : Nat → Nat → Nat → Nat
  | 0, _, c => c
  | n + 1, msg, c => crcLoop n (msg / 256) (crcByte c (msg % 256))

/-- `crc32c(msg, n)`, the message given as a little-endian number (R157). -/
def crc32c (msg n : Nat) : Nat := crcLoop n msg 0xFFFFFFFF ^^^ 0xFFFFFFFF

/-- `crc0`: initial value 0 and final XOR 0 (R162). -/
def crc0 (msg n : Nat) : Nat := crcLoop n msg 0

/-- `meta_word`: RC and PROD, with LEVEL outside (R157). -/
def metaWord (rc : BitVec 16) (prod : Nat) : Nat := rc.toNat * 4096 + prod

/-- `check_word` over data and metadata (R157). -/
def checkWord (data : GData) (rc : BitVec 16) (prod : Nat) : BitVec 32 :=
  BitVec.ofNat 32 (crc32c (BitVec.ofNat 32 (metaWord rc prod) ++ data).toNat 68)

/-- The word computed over a granule as received. -/
def Granule.computed (g : Granule) : BitVec 32 := checkWord g.data g.rc g.prod

/-- Forms a granule (R98, R159). -/
def mkGranule (data : GData) (prod level : Nat) (rc : BitVec 16) : Granule :=
  ⟨data, packMeta rc level prod (checkWord data rc prod)⟩

/-- The conditions of R99, by KIND (Table 10.2); `none` when none holds. -/
def Granule.metaKind (g : Granule) : Option Nat :=
  if g.level ≥ 5 || g.lpar != levelParity g.level then some 1
  else if g.reserved != 0 then some 2
  else if !prodExists g.prod then some 3
  else none

/-- How a granule fails its check, by KIND; `none` when it verifies (R158). -/
def Granule.badKind (g : Granule) : Option Nat :=
  match g.metaKind with
  | some k => some k
  | none => if g.chk == g.computed then none else some 0

/-- A granule verifies (R158). -/
def Granule.verifies (g : Granule) : Bool := g.badKind.isNone

/-- `relabel`: the copy sequencer's metadata, with CHK brought up to date without reading the data (R162). -/
def Granule.relabel (g : Granule) (rc : BitVec 16) (level prod : Nat) : Granule :=
  let d := metaWord g.rc g.prod ^^^ metaWord rc prod
  ⟨g.data, packMeta rc level prod (g.chk ^^^ BitVec.ofNat 32 (crc0 (d * 2 ^ 512) 68))⟩

/-- LEVEL := max(LEVEL, l), with LPAR (R106); the check word is not touched (R97). -/
def Granule.raiseLevel (g : Granule) (l : Nat) : Granule :=
  ⟨g.data, packMeta g.rc (max g.level l) g.prod g.chk⟩

/-- The bits of a granule that a byte mask selects. -/
def maskBits (mask : BitVec 64) : Nat → GData
  | 0 => 0
  | n + 1 =>
    (if mask.getLsbD n then (255 : GData) <<< (8 * n) else 0) ||| maskBits mask n

/-- Replaces the bytes a byte mask selects (R160). -/
def mergeMask (old new : GData) (mask : BitVec 64) : GData :=
  (old &&& ~~~(maskBits mask 64)) ||| (new &&& maskBits mask 64)

/-- The byte mask of `n` bytes from byte `off` up. -/
def byteMask (off n : Nat) : BitVec 64 := (BitVec.allOnes 64 >>> (64 - n)) <<< off

/-- The low `n` bytes of a number placed at byte `off` of a granule. -/
def placeBytes (off : Nat) (v : Nat) : GData := BitVec.ofNat 512 v <<< (8 * off)

/-- `n` bytes of a granule from byte `off` up, as a little-endian number (R3). -/
def granuleBytes (data : GData) (off n : Nat) : Nat := (data.extractLsb' (8 * off) (8 * n)).toNat

/-- The metadata of the reset fill (R100). -/
def resetMeta : Meta := packMeta 0 4 prodManagement (checkWord 0 0 prodManagement)

/-! ## Places (R4, R20, R22, R26) -/

/-- Bytes of HBM. -/
def hbmBytes : Nat := 2 ^ 39

/-- The remote window of a granule; 0 is HBM (R26). -/
def windowOf (gran : Nat) : Nat := gran / 2 ^ 33 % 8

/-- The size of the stack-local zone (R20). -/
def zoneSize (s : State) : Nat :=
  let l := (s.memzone.extractLsb' 0 6).toNat
  if 32 ≤ l && l ≤ 38 then 2 ^ l else 0

/-- Whether a physical address lies in the stack-local zone (R20). -/
def inLocalZone (s : State) (pa : Nat) : Bool := hbmBytes - zoneSize s ≤ pa && pa < hbmBytes

/-- Junction slice and pseudo-channel of a granule in HBM (R17, R20). -/
def homeOf (s : State) (gran : Nat) : Nat × Nat :=
  let pa := gran * 64
  if inLocalZone s pa then
    let o := pa - (hbmBytes - zoneSize s)
    let stack := o / (zoneSize s / 8) % 8
    let j := 8 * stack + o / 4096 % 8
    (j, 8 * j + o / 512 % 8)
  else
    let j := pa / 4096 % 64
    (j, 8 * j + pa / 512 % 8)

def junctionOf (s : State) (gran : Nat) : Nat := (homeOf s gran).1

/-- The home I3 slice of a granule's line (R22). -/
def i3SliceOf (gran : Nat) : Nat := (gran / 2 % 64) ^^^ (gran / 128 % 64)

/-! ## HBM granules -/

/-- The HBM copy of a granule. -/
def hbmGranule (s : State) (gran : Nat) : Granule :=
  ⟨BitVec.ofNat 512 (Memory.readN s.mem (64 * gran) 64), tgetD s.memMeta gran resetMeta⟩

/-- Writes a granule to HBM, data and metadata. -/
def setHbm (s : State) (gran : Nat) (g : Granule) : State :=
  { s with
    mem := Memory.writeN s.mem (64 * gran) g.data.toNat 64
    memMeta := if g.md = resetMeta then tdel s.memMeta gran else tput s.memMeta gran g.md }

/-! ## Commutative ranges (R143, R144) -/

def crngValid (c : Word) : Bool := c.getLsbD 63
def crngOvf (c : Word) : Bool := c.getLsbD 62
def crngBase (b : Word) : Nat := (b.extractLsb' 12 30).toNat * 4096
def crngLen (c : Word) : Nat := (c.extractLsb' 0 30).toNat * 4096
def crngOp (c : Word) : Nat := (c.extractLsb' 42 2).toNat
def crngFmt (c : Word) : Nat := (c.extractLsb' 40 2).toNat
def crngExp (c : Word) : Int := (c.extractLsb' 44 8).toInt
/-- Bytes of an element (R144). -/
def crngElem (c : Word) : Nat := if crngFmt c = 0 then 4 else 8

/-- The valid range that meets [pa, pa + n). -/
def rangeMeeting (s : State) (pa n : Nat) : Option Nat :=
  (List.range 16).find? fun i =>
    let b := s.crngb.toList.getD i 0
    let c := s.crngc.toList.getD i 0
    crngValid c && pa < crngBase b + crngLen c && crngBase b < pa + n

/-- The valid range that holds a physical address. -/
def rangeOf (s : State) (pa : Nat) : Option Nat := rangeMeeting s pa 1

/-- The range of a granule while its OVF is set: a read raises a range error (R147). -/
def ovfRange (s : State) (gran : Nat) : Option Nat :=
  match rangeMeeting s (64 * gran) 64 with
  | some i => if crngOvf (s.crngc.toList.getD i 0) then some i else none
  | none => none

end Sys2Proof.Machine
end

