-- ==== Sys2Proof/Machine/Flags.lean ====
section
/-! DEFINITION. The sticky flags: NUMST.RNSOVF (R183, R185) and OVF of a commutative range with the saturating combination
that sets it (R144, R146); and saturation of an integer result (R180, R246). -/

namespace Sys2Proof.Machine

/-- An RNS3 reconstruction found a wrap: RNSOVF is set (R183). -/
def Hart.setRnsOvf (h : Hart) (wrapped : Bool) : Hart := { h with numst := h.numst || wrapped }

/-- An integer result of `w` bits: wrapped, or clamped when saturation is on (R180, R246). -/
def narrowInt (w : Nat) (sat : Bool) (x : Int) : Nat := ofInt w (if sat then satInt x w true else x)

/-! ## Commutative ranges -/

/-- Bits of a range's element (R144). -/
def rangeBits (c : Word) : Nat := 8 * crngElem c

/-- Combines two values of a range's element: the value and whether it saturated (R146). -/
def rangeCombine (c : Word) (a b : Int) : Int × Bool :=
  if crngOp c = 1 then (min a b, false)
  else if crngOp c = 2 then (max a b, false)
  else let t := satInt (a + b) (rangeBits c) true; (t, t != a + b)

/-- The descriptor of a range. -/
def crngcOf (s : State) (r : Nat) : Word := s.crngc.toList.getD r 0

/-- Sets OVF of a range when a combination saturated (R146). -/
def setOvf (s : State) (r : Nat) (sat : Bool) : State :=
  if sat then { s with crngc := s.crngc.setIfInBounds r (crngcOf s r ||| (1 : Word) <<< 62) } else s

end Sys2Proof.Machine
end

