-- ==== Sys2Proof/WellFormed.lean ====
section
/-! DEFINITION. Which instructions are well formed: the limits that a field's width does not enforce (R206, R212, R263,
R266, R270, R303, R309, R312, R317). A word that breaks one is illegal. For an event row, that its operands name units
that exist. -/

namespace Sys2Proof

/-- Control register addresses of Table 14.4. -/
def cregValid (r : BitVec 12) : Bool :=
  let n := r.toNat
  n ≤ 7 || (0x10 ≤ n && n ≤ 0x16) || (0x20 ≤ n && n ≤ 0x22) || (0x30 ≤ n && n ≤ 0x35) ||
  (0x40 ≤ n && n ≤ 0x4A) || (0x50 ≤ n && n ≤ 0x52) || (0x60 ≤ n && n ≤ 0x65) || n == 0x70

/-- Formats that `vcvt` admits on both sides in any pair (R263). -/
def cvtFmt : Fmt → Bool
  | .f32 | .bf16 | .f16 | .e4m3 | .e5m2 | .e2m1 | .i8 | .ui8 | .i4 | .i16 | .i32 => true
  | .rns3 | .e8m0 => false

/-- Source and destination pairs of `vcvt` (R263). -/
def cvtPair (src dst : Fmt) : Bool :=
  (cvtFmt src && cvtFmt dst) || (src == .rns3 && dst == .i32) ||
  (dst == .rns3 && (src == .i8 || src == .i16 || src == .i32))

/-- Wide and narrow formats of `vquant`, and of `vdquant` the other way round (R266, R267). -/
def quantPair (wide narrow : Fmt) : Bool :=
  (wide == .f32 || wide == .bf16 || wide == .f16) &&
  (narrow == .e4m3 || narrow == .e5m2 || narrow == .e2m1 || narrow == .i8)

/-- Pairs of `mcvt` (R312). -/
def mcvtPair (src dst : Fmt) : Bool :=
  (src == .f32 && (dst == .bf16 || dst == .f16 || dst == .e4m3 || dst == .e5m2)) ||
  (src == .rns3 && dst == .i32) || (src == .i32 && dst == .f32)

/-- Operand formats of `mma` and `mmas` (R303). -/
def mmaFmt : Fmt → Bool
  | .bf16 | .f16 | .e4m3 | .e5m2 | .e2m1 | .i8 | .ui8 | .i4 | .rns3 => true
  | .f32 | .i16 | .i32 | .e8m0 => false

/-- Operand formats of `mrank` (R303). -/
def mrankFmt (f : Fmt) : Bool := mmaFmt f || f == .f32

/-- Formats of `mld` and `mst` (R309). -/
def mldFmt (f : Fmt) : Bool := f == .f32 || f == .i32 || f == .rns3

/-- The number of units of a leased class (Table 28.1). -/
def classUnits (c : BitVec 2) : Nat :=
  match c.toNat with
  | 0 => 256 | 1 => 64 | 2 => 224 | _ => 512

/-- Well-formed instructions and events. -/
def WellFormed : Instr → Prop
  | .add _ _ _ => True
  | .sub _ _ _ => True
  | .and _ _ _ => True
  | .or _ _ _ => True
  | .xor _ _ _ => True
  | .sll _ _ _ => True
  | .srl _ _ _ => True
  | .sra _ _ _ => True
  | .slt _ _ _ => True
  | .sltu _ _ _ => True
  | .min _ _ _ => True
  | .max _ _ _ => True
  | .minu _ _ _ => True
  | .maxu _ _ _ => True
  | .clz _ _ => True
  | .ctz _ _ => True
  | .popc _ _ => True
  | .addSat _ _ _ => True
  | .subSat _ _ _ => True
  | .bfx _ _ pos lenM1 => pos.toNat + lenM1.toNat + 1 ≤ 64
  | .bfxu _ _ pos lenM1 => pos.toNat + lenM1.toNat + 1 ≤ 64
  | .bfi _ _ pos lenM1 => pos.toNat + lenM1.toNat + 1 ≤ 64
  | .fsl _ _ _ _ => True
  | .fsr _ _ _ _ => True
  | .mul _ _ _ => True
  | .mulh _ _ _ => True
  | .mulhu _ _ _ => True
  | .mulhsu _ _ _ => True
  | .div _ _ _ => True
  | .divu _ _ _ => True
  | .rem _ _ _ => True
  | .remu _ _ _ => True
  | .divSat _ _ _ => True
  | .addi _ _ _ => True
  | .andi _ _ _ => True
  | .ori _ _ _ => True
  | .xori _ _ _ => True
  | .slti _ _ _ => True
  | .sltiu _ _ _ => True
  | .slli _ _ _ => True
  | .srli _ _ _ => True
  | .srai _ _ _ => True
  | .rori _ _ _ => True
  | .lui _ _ => True
  | .addpc _ _ => True
  | .ld _ _ _ _ => True
  | .st _ _ _ _ => True
  | .amoadd _ _ _ _ _ _ _ => True
  | .amomin _ _ _ _ _ _ _ => True
  | .amomax _ _ _ _ _ _ _ => True
  | .amominu _ _ _ _ _ _ _ => True
  | .amomaxu _ _ _ _ _ _ _ => True
  | .amoand _ _ _ _ _ _ _ => True
  | .amoor _ _ _ _ _ _ _ => True
  | .amoxor _ _ _ _ _ _ _ => True
  | .amoswap _ _ _ _ _ _ _ => True
  | .amocas _ _ _ _ _ _ _ => True
  | .ldNc _ _ _ _ => True
  | .beq _ _ _ => True
  | .bne _ _ _ => True
  | .blt _ _ _ => True
  | .bge _ _ _ => True
  | .bltu _ _ _ => True
  | .bgeu _ _ _ => True
  | .jal _ _ => True
  | .jalr _ _ _ => True
  | .bstrip _ _ => True
  | .loop _ _ level _ _ _ _ => level.toNat ≤ 5
  | .eret => True
  | .halt => True
  | .wait => True
  | .brk => True
  | .trap _ => True
  | .crd _ r => cregValid r = true
  | .cwr _ r => cregValid r = true
  | .cset _ _ r => cregValid r = true
  | .ccl _ _ r => cregValid r = true
  | .fence _ => True
  | .rel _ => True
  | .strel _ _ _ _ => True
  | .ldacq _ _ _ => True
  | .drain => True
  | .turn _ _ _ => True
  | .turnq _ _ _ => True
  | .qsend _ _ => True
  | .qrecv _ _ => True
  | .qpoll _ _ _ => True
  | .qpush _ _ _ => True
  | .tspawn _ _ => True
  | .tdep _ _ => True
  | .tdone _ => True
  | .gbar _ => True
  | .tyield => True
  | .vsetvl _ _ _ => True
  | .vadd _ _ _ pg _ _ _ z => ¬ (pg = 0 ∧ z = true)
  | .vsub _ _ _ pg _ _ _ z => ¬ (pg = 0 ∧ z = true)
  | .vmul _ _ _ pg _ z => ¬ (pg = 0 ∧ z = true)
  | .vmulh _ _ _ pg _ z => ¬ (pg = 0 ∧ z = true)
  | .vmulhu _ _ _ pg _ z => ¬ (pg = 0 ∧ z = true)
  | .vdiv _ _ _ pg _ z => ¬ (pg = 0 ∧ z = true)
  | .vdivu _ _ _ pg _ z => ¬ (pg = 0 ∧ z = true)
  | .vrem _ _ _ pg _ z => ¬ (pg = 0 ∧ z = true)
  | .vremu _ _ _ pg _ z => ¬ (pg = 0 ∧ z = true)
  | .vmin _ _ _ pg _ z => ¬ (pg = 0 ∧ z = true)
  | .vmax _ _ _ pg _ z => ¬ (pg = 0 ∧ z = true)
  | .vminu _ _ _ pg _ z => ¬ (pg = 0 ∧ z = true)
  | .vmaxu _ _ _ pg _ z => ¬ (pg = 0 ∧ z = true)
  | .vand _ _ _ pg _ z => ¬ (pg = 0 ∧ z = true)
  | .vor _ _ _ pg _ z => ¬ (pg = 0 ∧ z = true)
  | .vxor _ _ _ pg _ z => ¬ (pg = 0 ∧ z = true)
  | .vavg _ _ _ pg _ z => ¬ (pg = 0 ∧ z = true)
  | .vabsd _ _ _ pg _ z => ¬ (pg = 0 ∧ z = true)
  | .vaddx _ _ _ pg _ z => ¬ (pg = 0 ∧ z = true)
  | .vsubx _ _ _ pg _ z => ¬ (pg = 0 ∧ z = true)
  | .vrsubx _ _ _ pg _ z => ¬ (pg = 0 ∧ z = true)
  | .vmulx _ _ _ pg _ z => ¬ (pg = 0 ∧ z = true)
  | .vmulhx _ _ _ pg _ z => ¬ (pg = 0 ∧ z = true)
  | .vdivx _ _ _ pg _ z => ¬ (pg = 0 ∧ z = true)
  | .vdivux _ _ _ pg _ z => ¬ (pg = 0 ∧ z = true)
  | .vremx _ _ _ pg _ z => ¬ (pg = 0 ∧ z = true)
  | .vremux _ _ _ pg _ z => ¬ (pg = 0 ∧ z = true)
  | .vminx _ _ _ pg _ z => ¬ (pg = 0 ∧ z = true)
  | .vmaxx _ _ _ pg _ z => ¬ (pg = 0 ∧ z = true)
  | .vminux _ _ _ pg _ z => ¬ (pg = 0 ∧ z = true)
  | .vmaxux _ _ _ pg _ z => ¬ (pg = 0 ∧ z = true)
  | .vandx _ _ _ pg _ z => ¬ (pg = 0 ∧ z = true)
  | .vorx _ _ _ pg _ z => ¬ (pg = 0 ∧ z = true)
  | .vxorx _ _ _ pg _ z => ¬ (pg = 0 ∧ z = true)
  | .vmacc _ _ _ pg _ z => ¬ (pg = 0 ∧ z = true)
  | .vmsac _ _ _ pg _ z => ¬ (pg = 0 ∧ z = true)
  | .vneg _ _ pg _ z => ¬ (pg = 0 ∧ z = true)
  | .vabs _ _ pg _ z => ¬ (pg = 0 ∧ z = true)
  | .vnot _ _ pg _ z => ¬ (pg = 0 ∧ z = true)
  | .vsqrt _ _ pg _ z => ¬ (pg = 0 ∧ z = true)
  | .vclz _ _ pg _ z => ¬ (pg = 0 ∧ z = true)
  | .vctz _ _ pg _ z => ¬ (pg = 0 ∧ z = true)
  | .vpopc _ _ pg _ z => ¬ (pg = 0 ∧ z = true)
  | .vmv _ _ pg _ z => ¬ (pg = 0 ∧ z = true)
  | .vcmpVv _ _ _ _ pg _ z => ¬ (pg = 0 ∧ z = true)
  | .vcmpVx _ _ _ _ pg _ z => ¬ (pg = 0 ∧ z = true)
  | .pand _ _ _ => True
  | .por _ _ _ => True
  | .pxor _ _ _ => True
  | .pandn _ _ _ => True
  | .pnot _ _ => True
  | .pleadIncl _ _ _ _ => True
  | .pleadExcl _ _ _ _ => True
  | .ppopc _ _ _ _ => True
  | .pfind _ _ _ _ => True
  | .pset _ _ _ => True
  | .vslideup _ _ _ pg _ z => ¬ (pg = 0 ∧ z = true)
  | .vslidedn _ _ _ pg _ z => ¬ (pg = 0 ∧ z = true)
  | .vrgather _ _ _ pg _ z => ¬ (pg = 0 ∧ z = true)
  | .vcompress _ _ pg _ z => ¬ (pg = 0 ∧ z = true)
  | .viota _ pg _ z => ¬ (pg = 0 ∧ z = true)
  | .vsplat _ _ pg _ z => ¬ (pg = 0 ∧ z = true)
  | .vmvx _ _ _ _ => True
  | .vins _ _ _ _ => True
  | .vredsum _ _ _ _ _ => True
  | .vredmin _ _ _ _ _ => True
  | .vredmax _ _ _ _ _ => True
  | .vredminu _ _ _ _ _ => True
  | .vredmaxu _ _ _ _ _ => True
  | .vredand _ _ _ _ _ => True
  | .vredor _ _ _ _ _ => True
  | .vredxor _ _ _ _ _ => True
  | .vscansum _ _ pg _ z => ¬ (pg = 0 ∧ z = true)
  | .vscanmax _ _ pg _ z => ¬ (pg = 0 ∧ z = true)
  | .vscanmin _ _ pg _ z => ¬ (pg = 0 ∧ z = true)
  | .vcvt dst src _ _ _ _ => cvtPair src dst = true
  | .vquant dst src _ _ _ => quantPair src dst = true
  | .vdquant dst src _ _ _ => quantPair dst src = true
  | .vsll _ _ _ pg _ z => ¬ (pg = 0 ∧ z = true)
  | .vsrl _ _ _ pg _ z => ¬ (pg = 0 ∧ z = true)
  | .vsra _ _ _ pg _ z => ¬ (pg = 0 ∧ z = true)
  | .vrol _ _ _ pg _ z => ¬ (pg = 0 ∧ z = true)
  | .vbfx _ _ _ pg _ z => ¬ (pg = 0 ∧ z = true)
  | .vbfxu _ _ _ pg _ z => ¬ (pg = 0 ∧ z = true)
  | .vbfi _ _ _ pg _ z => ¬ (pg = 0 ∧ z = true)
  | .vfsl _ _ _ pg _ z => ¬ (pg = 0 ∧ z = true)
  | .vfsr _ _ _ pg _ z => ¬ (pg = 0 ∧ z = true)
  | .vaddi _ _ _ pg _ z => ¬ (pg = 0 ∧ z = true)
  | .vrsubi _ _ _ pg _ z => ¬ (pg = 0 ∧ z = true)
  | .vandi _ _ _ pg _ z => ¬ (pg = 0 ∧ z = true)
  | .vori _ _ _ pg _ z => ¬ (pg = 0 ∧ z = true)
  | .vxori _ _ _ pg _ z => ¬ (pg = 0 ∧ z = true)
  | .vslli _ _ _ pg _ z => ¬ (pg = 0 ∧ z = true)
  | .vsrli _ _ _ pg _ z => ¬ (pg = 0 ∧ z = true)
  | .vsrai _ _ _ pg _ z => ¬ (pg = 0 ∧ z = true)
  | .vsplati _ _ pg _ z => ¬ (pg = 0 ∧ z = true)
  | .vmini _ _ _ pg _ z => ¬ (pg = 0 ∧ z = true)
  | .vmaxi _ _ _ pg _ z => ¬ (pg = 0 ∧ z = true)
  | .vldUnit _ _ _ _ cv space => ¬ (space = .ls ∧ cv = true)
  | .vldStrided _ _ _ _ _ _ space => space ≠ .ls
  | .vldIndexed _ _ _ _ _ _ space => space ≠ .ls
  | .vldff _ _ _ _ _ => True
  | .vstUnit _ _ _ _ cv space => ¬ (space = .ls ∧ cv = true)
  | .vstStrided _ _ _ _ _ _ space => space ≠ .ls
  | .vstIndexed _ _ _ _ _ _ space => space ≠ .ls
  | .vldl _ _ _ pg _ z => ¬ (pg = 0 ∧ z = true)
  | .vstl _ _ _ _ _ => True
  | .sfull _ => True
  | .sempty _ => True
  | .sprobe _ _ => True
  | .vamoadd _ _ _ pg _ z => ¬ (pg = 0 ∧ z = true)
  | .vamomin _ _ _ pg _ z => ¬ (pg = 0 ∧ z = true)
  | .vamomax _ _ _ pg _ z => ¬ (pg = 0 ∧ z = true)
  | .vamominu _ _ _ pg _ z => ¬ (pg = 0 ∧ z = true)
  | .vamomaxu _ _ _ pg _ z => ¬ (pg = 0 ∧ z = true)
  | .vamoand _ _ _ pg _ z => ¬ (pg = 0 ∧ z = true)
  | .vamoor _ _ _ pg _ z => ¬ (pg = 0 ∧ z = true)
  | .vamoxor _ _ _ pg _ z => ¬ (pg = 0 ∧ z = true)
  | .vamoswap _ _ _ pg _ z => ¬ (pg = 0 ∧ z = true)
  | .redst _ _ _ _ _ => True
  | .gather _ _ _ pg _ z => ¬ (pg = 0 ∧ z = true)
  | .mattach _ _ _ => True
  | .mdetach => True
  | .mmode _ => True
  | .mexit => True
  | .mzero _ => True
  | .mrank _ _ _ _ _ fmt _ => mrankFmt fmt = true
  | .mma _ _ _ _ _ fmt _ => mmaFmt fmt = true
  | .mmas _ _ _ _ _ fmt _ => mmaFmt fmt = true
  | .mld _ _ _ fmt => mldFmt fmt = true
  | .mst _ _ _ fmt => mldFmt fmt = true
  | .mcvt _ dst src _ _ _ => mcvtPair src dst = true
  | .cpset _ _ _ level => level.toNat ≤ 11
  | .cpgo _ _ _ _ _ _ _ _ => True
  | .cpq _ _ => True
  | .swm _ _ => True
  | .swin _ _ => True
  | .semit _ _ => True
  | .sidle _ _ => True
  | .capq _ => True
  | .outboundDrain lvl _ _ => 1 ≤ lvl ∧ lvl ≤ 3
  | .o3Writeback _ => True
  | .multicastReserveForward out => out.router < 64 ∧ out.port < 5
  | .copyCommand cluster => cluster < 64
  | .engineFaultDelivery core => core < 256
  | .interrupt core => core < 256
  | .barrierOpen _ _ gang => gang < 64
  | .tileGrantWaiter cluster => cluster < 64
  | .walkerEmit launchId => launchId < 256
  | .residencyGranted _ => True
  | .residencyFailed _ _ => True
  | .aging _ => True
  | .stageRecord core => core < 256
  | .preloadLineLand slot => slot < 512
  | .hartStart slot => slot < 512
  | .budgetOverrun core => core < 256
  | .machineFault core => core < 256
  | .correctedError pch => pch < 512
  | .stepRetire _ => True
  | .completionRecordWrite => True
  | .timerDeadline _ => True
  | .pageMoveIn launchId _ _ => launchId < 256
  | .pageMoveOut launchId _ => launchId < 256
  | .extend _ => True
  | .retry => True
  | .kill => True
  | .preempt _ => True
  | .timer => True
  | .bindRecordWrite core dws => core < 256 ∧ dws.length = 8
  | .routeInstall _ => True
  | .routeRemove _ => True
  | .crngWrite _ _ _ => True
  | .graphEnable _ _ => True
  | .graphDisable _ _ => True
  | .scdataWrite _ => True
  | .lcmd _ => True
  | .tlbInvalidation launchId _ => launchId < 256
  | .registerWrite _ _ => True
  | .launch _ _ _ => True
  | .querySelfTest _ => True
  | .queryCapv _ => True
  | .queryRetirementLog _ _ => True
  | .queryLiveLaunches _ => True
  | .pageToDevice _ _ _ _ => True
  | .pageToHost _ _ _ => True
  | .pageResponse _ _ _ _ => True
  | .streamBindSource _ _ _ => True
  | .streamBindOutput _ _ _ => True
  | .window _ _ _ => True
  | .getVersion _ _ => True
  | .getCapabilities _ _ => True
  | .negotiateAlgorithms _ _ => True
  | .getDigests _ _ => True
  | .getCertificate _ _ => True
  | .challenge _ _ => True
  | .getMeasurements _ _ => True
  | .unsupportedRequest _ _ => True
  | .remoteWrite _ launchId _ _ => launchId < 256
  | .remoteRead _ launchId _ _ => launchId < 256
  | .discardedPacket _ => True
  | .streamRecord _ _ _ h1 payload => payload.length = (h1.extractLsb' 16 16).toNat
  | .watermarkRecord _ _ _ _ => True
  | .idleTimeout _ _ => True
  | .amenddelayExpiry _ _ => True
  | .outputWatermark launchId _ => launchId < 256
  | .slotReclaim _ => True
  | .stalledRecordDeposit _ _ => True
  | .leaseInterval _ => True
  | .leasePatienceExpiry cls unit => unit < classUnits cls
  | .drainComplete cls unit => unit < classUnits cls
  | .patternRunComplete cls unit _ _ => unit < classUnits cls
  | .pseudoChannelRemap pch => pch < 512
  | .scoreHalving => True
  | .powerOn _ => True
  | .thermalStep _ _ => True
  | .energyInterval cluster => cluster < 64
  | .illegalWord _ => True
  | .fetchFault => True
  | .managementCoreStore _ _ => True
  | .ieee1588Sync _ => True

/-- The check of well-formedness as a decision. -/
def wellFormedDec (i : Instr) : Decidable (WellFormed i) := by
  cases i <;> unfold WellFormed <;> infer_instance

/-- Keeps an instruction when it is well formed. -/
def wf? (i : Instr) : Option Instr := @ite _ (WellFormed i) (wellFormedDec i) (some i) none

end Sys2Proof
end

