-- ==== Sys2Proof/Decode.lean ====
section
/-! DEFINITION. The decoder of instruction words, total on any word and on any bytes, and the encoder, both from the
encoding tables of 14_encoding.md (Tables 14.1 to 14.3, R200-R206). A word that names no instruction is refused by name. -/

namespace Sys2Proof

/-! ## Codes of the fields that name something -/

/-- The 2-bit code of a width. -/
def EW.code : EW → BitVec 2
  | .b => 0 | .h => 1 | .w => 2 | .d => 3

/-- The width a 2-bit code names. -/
def EW.ofCode (c : BitVec 2) : EW :=
  match c.toNat with
  | 0 => .b | 1 => .h | 2 => .w | _ => .d

/-- The 4-bit code of a format (Table 12.1). -/
def Fmt.code : Fmt → BitVec 4
  | .f32 => 0 | .bf16 => 1 | .f16 => 2 | .e4m3 => 3 | .e5m2 => 4 | .e2m1 => 5 | .i8 => 6
  | .ui8 => 7 | .i4 => 8 | .rns3 => 9 | .i16 => 10 | .i32 => 11 | .e8m0 => 12

/-- The format a 4-bit code names; 0xD to 0xF are reserved (R175). -/
def Fmt.ofCode (c : BitVec 4) : Option Fmt :=
  match c.toNat with
  | 0 => some .f32 | 1 => some .bf16 | 2 => some .f16 | 3 => some .e4m3 | 4 => some .e5m2
  | 5 => some .e2m1 | 6 => some .i8 | 7 => some .ui8 | 8 => some .i4 | 9 => some .rns3
  | 10 => some .i16 | 11 => some .i32 | 12 => some .e8m0 | _ => none

/-- The 2-bit code of a scope (R123). -/
def Scope.code : Scope → BitVec 2
  | .core => 0 | .cluster => 1 | .device => 2 | .system => 3

/-- The scope a code names (R123). -/
def Scope.ofCode (c : BitVec 2) : Scope :=
  match c.toNat with
  | 0 => .core | 1 => .cluster | 2 => .device | _ => .system

/-- The 2-bit code of a rounding mode (R187). -/
def Rnd.code : Rnd → BitVec 2
  | .rne => 0 | .rtz => 1 | .rdn => 2 | .rup => 3

/-- The rounding mode a code names (R187). -/
def Rnd.ofCode (c : BitVec 2) : Rnd :=
  match c.toNat with
  | 0 => .rne | 1 => .rtz | 2 => .rdn | _ => .rup

/-- The code of a space (R270). -/
def Space.code : Space → BitVec 2
  | .mem => 0 | .sp => 1 | .ls => 2

/-- The space a code names; 11 is illegal (R270). -/
def Space.ofCode (c : BitVec 2) : Option Space :=
  match c.toNat with
  | 0 => some .mem | 1 => some .sp | 2 => some .ls | _ => none

/-- The code of a load width (R60). -/
def LWidth.code : LWidth → BitVec 3
  | .b => 0 | .h => 1 | .w => 2 | .d => 3 | .bu => 4 | .hu => 5 | .wu => 6

/-- The load width a code names (R60). -/
def LWidth.ofCode (c : BitVec 3) : Option LWidth :=
  match c.toNat with
  | 0 => some .b | 1 => some .h | 2 => some .w | 3 => some .d | 4 => some .bu | 5 => some .hu
  | 6 => some .wu | _ => none

/-- The code of a condition (R255). -/
def Cond.code : Cond → BitVec 3
  | .eq => 0 | .ne => 1 | .lt => 2 | .le => 3 | .ltu => 4 | .leu => 5 | .gt => 6 | .gtu => 7

/-- The condition a code names (R255). -/
def Cond.ofCode (c : BitVec 3) : Cond :=
  match c.toNat with
  | 0 => .eq | 1 => .ne | 2 => .lt | 3 => .le | 4 => .ltu | 5 => .leu | 6 => .gt | _ => .gtu

/-- One bit as a 1-bit vector. -/
def bit1 (b : Bool) : BitVec 1 := BitVec.ofBool b

/-! ## Words -/

/-- Why bytes decode to no instruction (R206; a short fetch is no instruction of the spec's). -/
inductive DecodeError where
  /-- The word names no instruction (R206): it raises the illegal-instruction trap. -/
  | illegalWord (w : BitVec 32)
  /-- Fewer than four bytes were given. -/
  | tooShort
  deriving DecidableEq, Repr

/-- Field of a word: `n` bits from bit `lo` up (R201). -/
def fld (w : BitVec 32) (lo n : Nat) : BitVec n := w.extractLsb' lo n

/-- Bits that must equal a fixed pattern (R206: a field marked 0, a selector). -/
def fixedBits (w mask val : BitVec 32) : Bool := (w &&& mask) == val

/-- Words of major opcode 0x01 (Table 14.3). -/
def decodeOp01 (w : BitVec 32) : Option Instr :=
  if fixedBits w 0xfc0007ff 0x04000000 then
    wf? (.add (fld w 21 5) (fld w 16 5) (fld w 11 5))
  else if fixedBits w 0xfc0007ff 0x04000001 then
    wf? (.sub (fld w 21 5) (fld w 16 5) (fld w 11 5))
  else if fixedBits w 0xfc0007ff 0x04000002 then
    wf? (.and (fld w 21 5) (fld w 16 5) (fld w 11 5))
  else if fixedBits w 0xfc0007ff 0x04000003 then
    wf? (.or (fld w 21 5) (fld w 16 5) (fld w 11 5))
  else if fixedBits w 0xfc0007ff 0x04000004 then
    wf? (.xor (fld w 21 5) (fld w 16 5) (fld w 11 5))
  else if fixedBits w 0xfc0007ff 0x04000005 then
    wf? (.sll (fld w 21 5) (fld w 16 5) (fld w 11 5))
  else if fixedBits w 0xfc0007ff 0x04000006 then
    wf? (.srl (fld w 21 5) (fld w 16 5) (fld w 11 5))
  else if fixedBits w 0xfc0007ff 0x04000007 then
    wf? (.sra (fld w 21 5) (fld w 16 5) (fld w 11 5))
  else if fixedBits w 0xfc0007ff 0x04000008 then
    wf? (.slt (fld w 21 5) (fld w 16 5) (fld w 11 5))
  else if fixedBits w 0xfc0007ff 0x04000009 then
    wf? (.sltu (fld w 21 5) (fld w 16 5) (fld w 11 5))
  else if fixedBits w 0xfc0007ff 0x0400000a then
    wf? (.min (fld w 21 5) (fld w 16 5) (fld w 11 5))
  else if fixedBits w 0xfc0007ff 0x0400000b then
    wf? (.max (fld w 21 5) (fld w 16 5) (fld w 11 5))
  else if fixedBits w 0xfc0007ff 0x0400000c then
    wf? (.minu (fld w 21 5) (fld w 16 5) (fld w 11 5))
  else if fixedBits w 0xfc0007ff 0x0400000d then
    wf? (.maxu (fld w 21 5) (fld w 16 5) (fld w 11 5))
  else if fixedBits w 0xfc00ffff 0x0400000e then
    wf? (.clz (fld w 21 5) (fld w 16 5))
  else if fixedBits w 0xfc00ffff 0x0400000f then
    wf? (.ctz (fld w 21 5) (fld w 16 5))
  else if fixedBits w 0xfc00ffff 0x04000010 then
    wf? (.popc (fld w 21 5) (fld w 16 5))
  else if fixedBits w 0xfc0007ff 0x04000011 then
    wf? (.addSat (fld w 21 5) (fld w 16 5) (fld w 11 5))
  else if fixedBits w 0xfc0007ff 0x04000012 then
    wf? (.subSat (fld w 21 5) (fld w 16 5) (fld w 11 5))
  else none

/-- Words of major opcode 0x02 (Table 14.3). -/
def decodeOp02 (w : BitVec 32) : Option Instr :=
  if fixedBits w 0xfc00000f 0x08000000 then
    wf? (.bfx (fld w 21 5) (fld w 16 5) (fld w 10 6) (fld w 4 6))
  else if fixedBits w 0xfc00000f 0x08000001 then
    wf? (.bfxu (fld w 21 5) (fld w 16 5) (fld w 10 6) (fld w 4 6))
  else if fixedBits w 0xfc00000f 0x08000002 then
    wf? (.bfi (fld w 21 5) (fld w 16 5) (fld w 10 6) (fld w 4 6))
  else if fixedBits w 0xfc00001f 0x08000003 then
    wf? (.fsl (fld w 21 5) (fld w 16 5) (fld w 11 5) (fld w 5 6))
  else if fixedBits w 0xfc00001f 0x08000004 then
    wf? (.fsr (fld w 21 5) (fld w 16 5) (fld w 11 5) (fld w 5 6))
  else none

/-- Words of major opcode 0x03 (Table 14.3). -/
def decodeOp03 (w : BitVec 32) : Option Instr :=
  if fixedBits w 0xfc0007ff 0x0c000000 then
    wf? (.mul (fld w 21 5) (fld w 16 5) (fld w 11 5))
  else if fixedBits w 0xfc0007ff 0x0c000001 then
    wf? (.mulh (fld w 21 5) (fld w 16 5) (fld w 11 5))
  else if fixedBits w 0xfc0007ff 0x0c000002 then
    wf? (.mulhu (fld w 21 5) (fld w 16 5) (fld w 11 5))
  else if fixedBits w 0xfc0007ff 0x0c000003 then
    wf? (.mulhsu (fld w 21 5) (fld w 16 5) (fld w 11 5))
  else if fixedBits w 0xfc0007ff 0x0c000004 then
    wf? (.div (fld w 21 5) (fld w 16 5) (fld w 11 5))
  else if fixedBits w 0xfc0007ff 0x0c000005 then
    wf? (.divu (fld w 21 5) (fld w 16 5) (fld w 11 5))
  else if fixedBits w 0xfc0007ff 0x0c000006 then
    wf? (.rem (fld w 21 5) (fld w 16 5) (fld w 11 5))
  else if fixedBits w 0xfc0007ff 0x0c000007 then
    wf? (.remu (fld w 21 5) (fld w 16 5) (fld w 11 5))
  else if fixedBits w 0xfc0007ff 0x0c000008 then
    wf? (.divSat (fld w 21 5) (fld w 16 5) (fld w 11 5))
  else none

/-- Words of major opcode 0x04 (Table 14.3). -/
def decodeOp04 (w : BitVec 32) : Option Instr :=
  if fixedBits w 0xfc000000 0x10000000 then
    wf? (.addi (fld w 21 5) (fld w 16 5) (fld w 0 16))
  else none

/-- Words of major opcode 0x05 (Table 14.3). -/
def decodeOp05 (w : BitVec 32) : Option Instr :=
  if fixedBits w 0xfc000000 0x14000000 then
    wf? (.andi (fld w 21 5) (fld w 16 5) (fld w 0 16))
  else none

/-- Words of major opcode 0x06 (Table 14.3). -/
def decodeOp06 (w : BitVec 32) : Option Instr :=
  if fixedBits w 0xfc000000 0x18000000 then
    wf? (.ori (fld w 21 5) (fld w 16 5) (fld w 0 16))
  else none

/-- Words of major opcode 0x07 (Table 14.3). -/
def decodeOp07 (w : BitVec 32) : Option Instr :=
  if fixedBits w 0xfc000000 0x1c000000 then
    wf? (.xori (fld w 21 5) (fld w 16 5) (fld w 0 16))
  else none

/-- Words of major opcode 0x08 (Table 14.3). -/
def decodeOp08 (w : BitVec 32) : Option Instr :=
  if fixedBits w 0xfc000000 0x20000000 then
    wf? (.slti (fld w 21 5) (fld w 16 5) (fld w 0 16))
  else none

/-- Words of major opcode 0x09 (Table 14.3). -/
def decodeOp09 (w : BitVec 32) : Option Instr :=
  if fixedBits w 0xfc000000 0x24000000 then
    wf? (.sltiu (fld w 21 5) (fld w 16 5) (fld w 0 16))
  else none

/-- Words of major opcode 0x0a (Table 14.3). -/
def decodeOp0A (w : BitVec 32) : Option Instr :=
  if fixedBits w 0xfc00ffc0 0x28000000 then
    wf? (.slli (fld w 21 5) (fld w 16 5) (fld w 0 6))
  else if fixedBits w 0xfc00ffc0 0x28000040 then
    wf? (.srli (fld w 21 5) (fld w 16 5) (fld w 0 6))
  else if fixedBits w 0xfc00ffc0 0x28000080 then
    wf? (.srai (fld w 21 5) (fld w 16 5) (fld w 0 6))
  else if fixedBits w 0xfc00ffc0 0x280000c0 then
    wf? (.rori (fld w 21 5) (fld w 16 5) (fld w 0 6))
  else none

/-- Words of major opcode 0x0b (Table 14.3). -/
def decodeOp0B (w : BitVec 32) : Option Instr :=
  if fixedBits w 0xfc000000 0x2c000000 then
    wf? (.lui (fld w 21 5) (fld w 0 21))
  else none

/-- Words of major opcode 0x0c (Table 14.3). -/
def decodeOp0C (w : BitVec 32) : Option Instr :=
  if fixedBits w 0xfc000000 0x30000000 then
    wf? (.addpc (fld w 21 5) (fld w 0 21))
  else none

/-- Words of major opcode 0x0d (Table 14.3). -/
def decodeOp0D (w : BitVec 32) : Option Instr :=
  if fixedBits w 0xfc000000 0x34000000 then
    (LWidth.ofCode (fld w 13 3)).bind fun wd => (wf? (.ld wd (fld w 21 5) (fld w 16 5) (fld w 0 13)))
  else none

/-- Words of major opcode 0x0e (Table 14.3). -/
def decodeOp0E (w : BitVec 32) : Option Instr :=
  if fixedBits w 0xfc008000 0x38000000 then
    wf? (.st (EW.ofCode (fld w 13 2)) (fld w 21 5) (fld w 16 5) (fld w 0 13))
  else none

/-- Words of major opcode 0x0f (Table 14.3). -/
def decodeOp0F (w : BitVec 32) : Option Instr :=
  if fixedBits w 0xfc000783 0x3c000000 then
    wf? (.amoadd ((fld w 6 1) == 1) ((fld w 5 1) == 1) ((fld w 4 1) == 1) (Scope.ofCode (fld w 2 2)) (fld w 21 5) (fld w 16 5) (fld w 11 5))
  else if fixedBits w 0xfc000783 0x3c000080 then
    wf? (.amomin ((fld w 6 1) == 1) ((fld w 5 1) == 1) ((fld w 4 1) == 1) (Scope.ofCode (fld w 2 2)) (fld w 21 5) (fld w 16 5) (fld w 11 5))
  else if fixedBits w 0xfc000783 0x3c000100 then
    wf? (.amomax ((fld w 6 1) == 1) ((fld w 5 1) == 1) ((fld w 4 1) == 1) (Scope.ofCode (fld w 2 2)) (fld w 21 5) (fld w 16 5) (fld w 11 5))
  else if fixedBits w 0xfc000783 0x3c000180 then
    wf? (.amominu ((fld w 6 1) == 1) ((fld w 5 1) == 1) ((fld w 4 1) == 1) (Scope.ofCode (fld w 2 2)) (fld w 21 5) (fld w 16 5) (fld w 11 5))
  else if fixedBits w 0xfc000783 0x3c000200 then
    wf? (.amomaxu ((fld w 6 1) == 1) ((fld w 5 1) == 1) ((fld w 4 1) == 1) (Scope.ofCode (fld w 2 2)) (fld w 21 5) (fld w 16 5) (fld w 11 5))
  else if fixedBits w 0xfc000783 0x3c000280 then
    wf? (.amoand ((fld w 6 1) == 1) ((fld w 5 1) == 1) ((fld w 4 1) == 1) (Scope.ofCode (fld w 2 2)) (fld w 21 5) (fld w 16 5) (fld w 11 5))
  else if fixedBits w 0xfc000783 0x3c000300 then
    wf? (.amoor ((fld w 6 1) == 1) ((fld w 5 1) == 1) ((fld w 4 1) == 1) (Scope.ofCode (fld w 2 2)) (fld w 21 5) (fld w 16 5) (fld w 11 5))
  else if fixedBits w 0xfc000783 0x3c000380 then
    wf? (.amoxor ((fld w 6 1) == 1) ((fld w 5 1) == 1) ((fld w 4 1) == 1) (Scope.ofCode (fld w 2 2)) (fld w 21 5) (fld w 16 5) (fld w 11 5))
  else if fixedBits w 0xfc000783 0x3c000400 then
    wf? (.amoswap ((fld w 6 1) == 1) ((fld w 5 1) == 1) ((fld w 4 1) == 1) (Scope.ofCode (fld w 2 2)) (fld w 21 5) (fld w 16 5) (fld w 11 5))
  else if fixedBits w 0xfc000783 0x3c000480 then
    wf? (.amocas ((fld w 6 1) == 1) ((fld w 5 1) == 1) ((fld w 4 1) == 1) (Scope.ofCode (fld w 2 2)) (fld w 21 5) (fld w 16 5) (fld w 11 5))
  else if fixedBits w 0xfc00078f 0x3c000500 then
    (LWidth.ofCode (fld w 4 3)).bind fun wd => (wf? (.ldNc wd (fld w 21 5) (fld w 16 5) (fld w 11 5)))
  else none

/-- Words of major opcode 0x10 (Table 14.3). -/
def decodeOp10 (w : BitVec 32) : Option Instr :=
  if fixedBits w 0xfc000000 0x40000000 then
    wf? (.beq (fld w 21 5) (fld w 16 5) (fld w 0 16))
  else none

/-- Words of major opcode 0x11 (Table 14.3). -/
def decodeOp11 (w : BitVec 32) : Option Instr :=
  if fixedBits w 0xfc000000 0x44000000 then
    wf? (.bne (fld w 21 5) (fld w 16 5) (fld w 0 16))
  else none

/-- Words of major opcode 0x12 (Table 14.3). -/
def decodeOp12 (w : BitVec 32) : Option Instr :=
  if fixedBits w 0xfc000000 0x48000000 then
    wf? (.blt (fld w 21 5) (fld w 16 5) (fld w 0 16))
  else none

/-- Words of major opcode 0x13 (Table 14.3). -/
def decodeOp13 (w : BitVec 32) : Option Instr :=
  if fixedBits w 0xfc000000 0x4c000000 then
    wf? (.bge (fld w 21 5) (fld w 16 5) (fld w 0 16))
  else none

/-- Words of major opcode 0x14 (Table 14.3). -/
def decodeOp14 (w : BitVec 32) : Option Instr :=
  if fixedBits w 0xfc000000 0x50000000 then
    wf? (.bltu (fld w 21 5) (fld w 16 5) (fld w 0 16))
  else none

/-- Words of major opcode 0x15 (Table 14.3). -/
def decodeOp15 (w : BitVec 32) : Option Instr :=
  if fixedBits w 0xfc000000 0x54000000 then
    wf? (.bgeu (fld w 21 5) (fld w 16 5) (fld w 0 16))
  else none

/-- Words of major opcode 0x16 (Table 14.3). -/
def decodeOp16 (w : BitVec 32) : Option Instr :=
  if fixedBits w 0xfc000000 0x58000000 then
    wf? (.jal (fld w 21 5) (fld w 0 21))
  else none

/-- Words of major opcode 0x17 (Table 14.3). -/
def decodeOp17 (w : BitVec 32) : Option Instr :=
  if fixedBits w 0xfc000000 0x5c000000 then
    wf? (.jalr (fld w 21 5) (fld w 16 5) (fld w 0 16))
  else none

/-- Words of major opcode 0x18 (Table 14.3). -/
def decodeOp18 (w : BitVec 32) : Option Instr :=
  if fixedBits w 0xfc1f0000 0x60000000 then
    wf? (.bstrip (fld w 21 5) (fld w 0 16))
  else none

/-- Words of major opcode 0x19 (Table 14.3). -/
def decodeOp19 (w : BitVec 32) : Option Instr :=
  if fixedBits w 0xfc000000 0x64000000 then
    wf? (.loop (fld w 21 5) (fld w 16 5) (fld w 13 3) (fld w 9 4) (fld w 6 3) (fld w 3 3) (fld w 0 3))
  else none

/-- Words of major opcode 0x1b (Table 14.3). -/
def decodeOp1B (w : BitVec 32) : Option Instr :=
  if fixedBits w 0xffffffff 0x6c000001 then
    wf? (.eret)
  else if fixedBits w 0xffffffff 0x6c000002 then
    wf? (.halt)
  else if fixedBits w 0xffffffff 0x6c000003 then
    wf? (.wait)
  else if fixedBits w 0xffffffff 0x6c000004 then
    wf? (.brk)
  else if fixedBits w 0xffffff00 0x6c000100 then
    wf? (.trap (fld w 0 8))
  else none

/-- Words of major opcode 0x1c (Table 14.3). -/
def decodeOp1C (w : BitVec 32) : Option Instr :=
  if fixedBits w 0xfc1ff000 0x70000000 then
    wf? (.crd (fld w 21 5) (fld w 0 12))
  else if fixedBits w 0xffe0f000 0x70001000 then
    wf? (.cwr (fld w 16 5) (fld w 0 12))
  else if fixedBits w 0xfc00f000 0x70002000 then
    wf? (.cset (fld w 21 5) (fld w 16 5) (fld w 0 12))
  else if fixedBits w 0xfc00f000 0x70003000 then
    wf? (.ccl (fld w 21 5) (fld w 16 5) (fld w 0 12))
  else none

/-- Words of major opcode 0x1d (Table 14.3). -/
def decodeOp1D (w : BitVec 32) : Option Instr :=
  if fixedBits w 0xffffff9f 0x74000000 then
    wf? (.fence (Scope.ofCode (fld w 5 2)))
  else if fixedBits w 0xffffff9f 0x74000080 then
    wf? (.rel (Scope.ofCode (fld w 5 2)))
  else if fixedBits w 0xffe00780 0x74000100 then
    wf? (.strel (Scope.ofCode (fld w 5 2)) (fld w 16 5) (fld w 11 5) (fld w 0 5))
  else if fixedBits w 0xfc00ffe0 0x74000180 then
    wf? (.ldacq (fld w 21 5) (fld w 16 5) (fld w 0 5))
  else if fixedBits w 0xffffffff 0x74000200 then
    wf? (.drain)
  else if fixedBits w 0xffe0079f 0x74000280 then
    wf? (.turn (fld w 16 5) (fld w 11 5) (fld w 5 2))
  else if fixedBits w 0xfc0007ff 0x74000300 then
    wf? (.turnq (fld w 21 5) (fld w 16 5) (fld w 11 5))
  else none

/-- Words of major opcode 0x1e (Table 14.3). -/
def decodeOp1E (w : BitVec 32) : Option Instr :=
  if fixedBits w 0xffe0ff3f 0x78000000 then
    wf? (.qsend (fld w 16 5) (fld w 6 2))
  else if fixedBits w 0xfc1fff3f 0x78000100 then
    wf? (.qrecv (fld w 21 5) (fld w 6 2))
  else if fixedBits w 0xfc1f073f 0x78000200 then
    wf? (.qpoll (fld w 21 5) (fld w 11 5) (fld w 6 2))
  else if fixedBits w 0xffe0073f 0x78000300 then
    wf? (.qpush (fld w 16 5) (fld w 11 5) (fld w 6 2))
  else none

/-- Words of major opcode 0x1f (Table 14.3). -/
def decodeOp1F (w : BitVec 32) : Option Instr :=
  if fixedBits w 0xfc00ffff 0x7c000000 then
    wf? (.tspawn (fld w 21 5) (fld w 16 5))
  else if fixedBits w 0xffe007ff 0x7c000100 then
    wf? (.tdep (fld w 16 5) (fld w 11 5))
  else if fixedBits w 0xffe0ffff 0x7c000200 then
    wf? (.tdone (fld w 16 5))
  else if fixedBits w 0xffffff7f 0x7c000300 then
    wf? (.gbar ((fld w 7 1) == 1))
  else if fixedBits w 0xffffffff 0x7c000400 then
    wf? (.tyield)
  else none

/-- Words of major opcode 0x20 (Table 14.3). -/
def decodeOp20 (w : BitVec 32) : Option Instr :=
  if fixedBits w 0xfc00fffc 0x80000000 then
    wf? (.vsetvl (EW.ofCode (fld w 0 2)) (fld w 21 5) (fld w 16 5))
  else none

/-- Words of major opcode 0x21 (Table 14.3). -/
def decodeOp21 (w : BitVec 32) : Option Instr :=
  if fixedBits w 0xfc000010 0x84000000 then
    wf? (.vadd (fld w 21 5) (fld w 16 5) (fld w 11 5) (fld w 7 4) (EW.ofCode (fld w 5 2)) ((fld w 3 1) == 1) (Rnd.ofCode (fld w 1 2)) ((fld w 0 1) == 1))
  else if fixedBits w 0xfc000010 0x84000010 then
    wf? (.vsub (fld w 21 5) (fld w 16 5) (fld w 11 5) (fld w 7 4) (EW.ofCode (fld w 5 2)) ((fld w 3 1) == 1) (Rnd.ofCode (fld w 1 2)) ((fld w 0 1) == 1))
  else none

/-- Words of major opcode 0x22 (Table 14.3). -/
def decodeOp22 (w : BitVec 32) : Option Instr :=
  if fixedBits w 0xfc00001e 0x88000000 then
    wf? (.vmul (fld w 21 5) (fld w 16 5) (fld w 11 5) (fld w 7 4) (EW.ofCode (fld w 5 2)) ((fld w 0 1) == 1))
  else if fixedBits w 0xfc00001e 0x88000002 then
    wf? (.vmulh (fld w 21 5) (fld w 16 5) (fld w 11 5) (fld w 7 4) (EW.ofCode (fld w 5 2)) ((fld w 0 1) == 1))
  else if fixedBits w 0xfc00001e 0x88000004 then
    wf? (.vmulhu (fld w 21 5) (fld w 16 5) (fld w 11 5) (fld w 7 4) (EW.ofCode (fld w 5 2)) ((fld w 0 1) == 1))
  else if fixedBits w 0xfc00001e 0x88000006 then
    wf? (.vdiv (fld w 21 5) (fld w 16 5) (fld w 11 5) (fld w 7 4) (EW.ofCode (fld w 5 2)) ((fld w 0 1) == 1))
  else if fixedBits w 0xfc00001e 0x88000008 then
    wf? (.vdivu (fld w 21 5) (fld w 16 5) (fld w 11 5) (fld w 7 4) (EW.ofCode (fld w 5 2)) ((fld w 0 1) == 1))
  else if fixedBits w 0xfc00001e 0x8800000a then
    wf? (.vrem (fld w 21 5) (fld w 16 5) (fld w 11 5) (fld w 7 4) (EW.ofCode (fld w 5 2)) ((fld w 0 1) == 1))
  else if fixedBits w 0xfc00001e 0x8800000c then
    wf? (.vremu (fld w 21 5) (fld w 16 5) (fld w 11 5) (fld w 7 4) (EW.ofCode (fld w 5 2)) ((fld w 0 1) == 1))
  else if fixedBits w 0xfc00001e 0x8800000e then
    wf? (.vmin (fld w 21 5) (fld w 16 5) (fld w 11 5) (fld w 7 4) (EW.ofCode (fld w 5 2)) ((fld w 0 1) == 1))
  else if fixedBits w 0xfc00001e 0x88000010 then
    wf? (.vmax (fld w 21 5) (fld w 16 5) (fld w 11 5) (fld w 7 4) (EW.ofCode (fld w 5 2)) ((fld w 0 1) == 1))
  else if fixedBits w 0xfc00001e 0x88000012 then
    wf? (.vminu (fld w 21 5) (fld w 16 5) (fld w 11 5) (fld w 7 4) (EW.ofCode (fld w 5 2)) ((fld w 0 1) == 1))
  else if fixedBits w 0xfc00001e 0x88000014 then
    wf? (.vmaxu (fld w 21 5) (fld w 16 5) (fld w 11 5) (fld w 7 4) (EW.ofCode (fld w 5 2)) ((fld w 0 1) == 1))
  else if fixedBits w 0xfc00001e 0x88000016 then
    wf? (.vand (fld w 21 5) (fld w 16 5) (fld w 11 5) (fld w 7 4) (EW.ofCode (fld w 5 2)) ((fld w 0 1) == 1))
  else if fixedBits w 0xfc00001e 0x88000018 then
    wf? (.vor (fld w 21 5) (fld w 16 5) (fld w 11 5) (fld w 7 4) (EW.ofCode (fld w 5 2)) ((fld w 0 1) == 1))
  else if fixedBits w 0xfc00001e 0x8800001a then
    wf? (.vxor (fld w 21 5) (fld w 16 5) (fld w 11 5) (fld w 7 4) (EW.ofCode (fld w 5 2)) ((fld w 0 1) == 1))
  else if fixedBits w 0xfc00001e 0x8800001c then
    wf? (.vavg (fld w 21 5) (fld w 16 5) (fld w 11 5) (fld w 7 4) (EW.ofCode (fld w 5 2)) ((fld w 0 1) == 1))
  else if fixedBits w 0xfc00001e 0x8800001e then
    wf? (.vabsd (fld w 21 5) (fld w 16 5) (fld w 11 5) (fld w 7 4) (EW.ofCode (fld w 5 2)) ((fld w 0 1) == 1))
  else none

/-- Words of major opcode 0x23 (Table 14.3). -/
def decodeOp23 (w : BitVec 32) : Option Instr :=
  if fixedBits w 0xfc00001e 0x8c000000 then
    wf? (.vaddx (fld w 21 5) (fld w 16 5) (fld w 11 5) (fld w 7 4) (EW.ofCode (fld w 5 2)) ((fld w 0 1) == 1))
  else if fixedBits w 0xfc00001e 0x8c000002 then
    wf? (.vsubx (fld w 21 5) (fld w 16 5) (fld w 11 5) (fld w 7 4) (EW.ofCode (fld w 5 2)) ((fld w 0 1) == 1))
  else if fixedBits w 0xfc00001e 0x8c000004 then
    wf? (.vrsubx (fld w 21 5) (fld w 16 5) (fld w 11 5) (fld w 7 4) (EW.ofCode (fld w 5 2)) ((fld w 0 1) == 1))
  else if fixedBits w 0xfc00001e 0x8c000006 then
    wf? (.vmulx (fld w 21 5) (fld w 16 5) (fld w 11 5) (fld w 7 4) (EW.ofCode (fld w 5 2)) ((fld w 0 1) == 1))
  else if fixedBits w 0xfc00001e 0x8c000008 then
    wf? (.vmulhx (fld w 21 5) (fld w 16 5) (fld w 11 5) (fld w 7 4) (EW.ofCode (fld w 5 2)) ((fld w 0 1) == 1))
  else if fixedBits w 0xfc00001e 0x8c00000a then
    wf? (.vdivx (fld w 21 5) (fld w 16 5) (fld w 11 5) (fld w 7 4) (EW.ofCode (fld w 5 2)) ((fld w 0 1) == 1))
  else if fixedBits w 0xfc00001e 0x8c00000c then
    wf? (.vdivux (fld w 21 5) (fld w 16 5) (fld w 11 5) (fld w 7 4) (EW.ofCode (fld w 5 2)) ((fld w 0 1) == 1))
  else if fixedBits w 0xfc00001e 0x8c00000e then
    wf? (.vremx (fld w 21 5) (fld w 16 5) (fld w 11 5) (fld w 7 4) (EW.ofCode (fld w 5 2)) ((fld w 0 1) == 1))
  else if fixedBits w 0xfc00001e 0x8c000010 then
    wf? (.vremux (fld w 21 5) (fld w 16 5) (fld w 11 5) (fld w 7 4) (EW.ofCode (fld w 5 2)) ((fld w 0 1) == 1))
  else if fixedBits w 0xfc00001e 0x8c000012 then
    wf? (.vminx (fld w 21 5) (fld w 16 5) (fld w 11 5) (fld w 7 4) (EW.ofCode (fld w 5 2)) ((fld w 0 1) == 1))
  else if fixedBits w 0xfc00001e 0x8c000014 then
    wf? (.vmaxx (fld w 21 5) (fld w 16 5) (fld w 11 5) (fld w 7 4) (EW.ofCode (fld w 5 2)) ((fld w 0 1) == 1))
  else if fixedBits w 0xfc00001e 0x8c000016 then
    wf? (.vminux (fld w 21 5) (fld w 16 5) (fld w 11 5) (fld w 7 4) (EW.ofCode (fld w 5 2)) ((fld w 0 1) == 1))
  else if fixedBits w 0xfc00001e 0x8c000018 then
    wf? (.vmaxux (fld w 21 5) (fld w 16 5) (fld w 11 5) (fld w 7 4) (EW.ofCode (fld w 5 2)) ((fld w 0 1) == 1))
  else if fixedBits w 0xfc00001e 0x8c00001a then
    wf? (.vandx (fld w 21 5) (fld w 16 5) (fld w 11 5) (fld w 7 4) (EW.ofCode (fld w 5 2)) ((fld w 0 1) == 1))
  else if fixedBits w 0xfc00001e 0x8c00001c then
    wf? (.vorx (fld w 21 5) (fld w 16 5) (fld w 11 5) (fld w 7 4) (EW.ofCode (fld w 5 2)) ((fld w 0 1) == 1))
  else if fixedBits w 0xfc00001e 0x8c00001e then
    wf? (.vxorx (fld w 21 5) (fld w 16 5) (fld w 11 5) (fld w 7 4) (EW.ofCode (fld w 5 2)) ((fld w 0 1) == 1))
  else none

/-- Words of major opcode 0x24 (Table 14.3). -/
def decodeOp24 (w : BitVec 32) : Option Instr :=
  if fixedBits w 0xfc00001e 0x90000000 then
    wf? (.vmacc (fld w 21 5) (fld w 16 5) (fld w 11 5) (fld w 7 4) (EW.ofCode (fld w 5 2)) ((fld w 0 1) == 1))
  else if fixedBits w 0xfc00001e 0x90000002 then
    wf? (.vmsac (fld w 21 5) (fld w 16 5) (fld w 11 5) (fld w 7 4) (EW.ofCode (fld w 5 2)) ((fld w 0 1) == 1))
  else if fixedBits w 0xfc00f81e 0x90000004 then
    wf? (.vneg (fld w 21 5) (fld w 16 5) (fld w 7 4) (EW.ofCode (fld w 5 2)) ((fld w 0 1) == 1))
  else if fixedBits w 0xfc00f81e 0x90000006 then
    wf? (.vabs (fld w 21 5) (fld w 16 5) (fld w 7 4) (EW.ofCode (fld w 5 2)) ((fld w 0 1) == 1))
  else if fixedBits w 0xfc00f81e 0x90000008 then
    wf? (.vnot (fld w 21 5) (fld w 16 5) (fld w 7 4) (EW.ofCode (fld w 5 2)) ((fld w 0 1) == 1))
  else if fixedBits w 0xfc00f81e 0x9000000a then
    wf? (.vsqrt (fld w 21 5) (fld w 16 5) (fld w 7 4) (EW.ofCode (fld w 5 2)) ((fld w 0 1) == 1))
  else if fixedBits w 0xfc00f81e 0x9000000c then
    wf? (.vclz (fld w 21 5) (fld w 16 5) (fld w 7 4) (EW.ofCode (fld w 5 2)) ((fld w 0 1) == 1))
  else if fixedBits w 0xfc00f81e 0x9000000e then
    wf? (.vctz (fld w 21 5) (fld w 16 5) (fld w 7 4) (EW.ofCode (fld w 5 2)) ((fld w 0 1) == 1))
  else if fixedBits w 0xfc00f81e 0x90000010 then
    wf? (.vpopc (fld w 21 5) (fld w 16 5) (fld w 7 4) (EW.ofCode (fld w 5 2)) ((fld w 0 1) == 1))
  else if fixedBits w 0xfc00f81e 0x90000012 then
    wf? (.vmv (fld w 21 5) (fld w 16 5) (fld w 7 4) (EW.ofCode (fld w 5 2)) ((fld w 0 1) == 1))
  else none

/-- Words of major opcode 0x25 (Table 14.3). -/
def decodeOp25 (w : BitVec 32) : Option Instr :=
  if fixedBits w 0xfe000002 0x94000000 then
    wf? (.vcmpVv (Cond.ofCode (fld w 2 3)) (fld w 21 4) (fld w 16 5) (fld w 11 5) (fld w 7 4) (EW.ofCode (fld w 5 2)) ((fld w 0 1) == 1))
  else if fixedBits w 0xfe000002 0x94000002 then
    wf? (.vcmpVx (Cond.ofCode (fld w 2 3)) (fld w 21 4) (fld w 16 5) (fld w 11 5) (fld w 7 4) (EW.ofCode (fld w 5 2)) ((fld w 0 1) == 1))
  else none

/-- Words of major opcode 0x26 (Table 14.3). -/
def decodeOp26 (w : BitVec 32) : Option Instr :=
  if fixedBits w 0xfe1087ff 0x98000000 then
    wf? (.pand (fld w 21 4) (fld w 16 4) (fld w 11 4))
  else if fixedBits w 0xfe1087ff 0x98000001 then
    wf? (.por (fld w 21 4) (fld w 16 4) (fld w 11 4))
  else if fixedBits w 0xfe1087ff 0x98000002 then
    wf? (.pxor (fld w 21 4) (fld w 16 4) (fld w 11 4))
  else if fixedBits w 0xfe1087ff 0x98000003 then
    wf? (.pandn (fld w 21 4) (fld w 16 4) (fld w 11 4))
  else if fixedBits w 0xfe10ffff 0x98000004 then
    wf? (.pnot (fld w 21 4) (fld w 16 4))
  else if fixedBits w 0xfe10f81f 0x98000005 then
    wf? (.pleadIncl (fld w 21 4) (fld w 16 4) (fld w 7 4) (EW.ofCode (fld w 5 2)))
  else if fixedBits w 0xfe10f81f 0x98000006 then
    wf? (.pleadExcl (fld w 21 4) (fld w 16 4) (fld w 7 4) (EW.ofCode (fld w 5 2)))
  else if fixedBits w 0xfc10f81f 0x98000007 then
    wf? (.ppopc (fld w 21 5) (fld w 16 4) (fld w 7 4) (EW.ofCode (fld w 5 2)))
  else if fixedBits w 0xfc10f81f 0x98000008 then
    wf? (.pfind (fld w 21 5) (fld w 16 4) (fld w 7 4) (EW.ofCode (fld w 5 2)))
  else if fixedBits w 0xfe00ff9f 0x98000009 then
    wf? (.pset (fld w 21 4) (fld w 16 5) (EW.ofCode (fld w 5 2)))
  else none

/-- Words of major opcode 0x27 (Table 14.3). -/
def decodeOp27 (w : BitVec 32) : Option Instr :=
  if fixedBits w 0xfc00001e 0x9c000000 then
    wf? (.vslideup (fld w 21 5) (fld w 16 5) (fld w 11 5) (fld w 7 4) (EW.ofCode (fld w 5 2)) ((fld w 0 1) == 1))
  else if fixedBits w 0xfc00001e 0x9c000002 then
    wf? (.vslidedn (fld w 21 5) (fld w 16 5) (fld w 11 5) (fld w 7 4) (EW.ofCode (fld w 5 2)) ((fld w 0 1) == 1))
  else if fixedBits w 0xfc00001e 0x9c000004 then
    wf? (.vrgather (fld w 21 5) (fld w 16 5) (fld w 11 5) (fld w 7 4) (EW.ofCode (fld w 5 2)) ((fld w 0 1) == 1))
  else if fixedBits w 0xfc00f81e 0x9c000006 then
    wf? (.vcompress (fld w 21 5) (fld w 16 5) (fld w 7 4) (EW.ofCode (fld w 5 2)) ((fld w 0 1) == 1))
  else if fixedBits w 0xfc1ff81e 0x9c000008 then
    wf? (.viota (fld w 21 5) (fld w 7 4) (EW.ofCode (fld w 5 2)) ((fld w 0 1) == 1))
  else if fixedBits w 0xfc00f81e 0x9c00000a then
    wf? (.vsplat (fld w 21 5) (fld w 16 5) (fld w 7 4) (EW.ofCode (fld w 5 2)) ((fld w 0 1) == 1))
  else if fixedBits w 0xfc00079f 0x9c00000c then
    wf? (.vmvx (fld w 21 5) (fld w 16 5) (fld w 11 5) (EW.ofCode (fld w 5 2)))
  else if fixedBits w 0xfc00079f 0x9c00000e then
    wf? (.vins (fld w 21 5) (fld w 16 5) (fld w 11 5) (EW.ofCode (fld w 5 2)))
  else none

/-- Words of major opcode 0x28 (Table 14.3). -/
def decodeOp28 (w : BitVec 32) : Option Instr :=
  if fixedBits w 0xfc00001f 0xa0000000 then
    wf? (.vredsum (fld w 21 5) (fld w 16 5) (fld w 11 5) (fld w 7 4) (EW.ofCode (fld w 5 2)))
  else if fixedBits w 0xfc00001f 0xa0000002 then
    wf? (.vredmin (fld w 21 5) (fld w 16 5) (fld w 11 5) (fld w 7 4) (EW.ofCode (fld w 5 2)))
  else if fixedBits w 0xfc00001f 0xa0000004 then
    wf? (.vredmax (fld w 21 5) (fld w 16 5) (fld w 11 5) (fld w 7 4) (EW.ofCode (fld w 5 2)))
  else if fixedBits w 0xfc00001f 0xa0000006 then
    wf? (.vredminu (fld w 21 5) (fld w 16 5) (fld w 11 5) (fld w 7 4) (EW.ofCode (fld w 5 2)))
  else if fixedBits w 0xfc00001f 0xa0000008 then
    wf? (.vredmaxu (fld w 21 5) (fld w 16 5) (fld w 11 5) (fld w 7 4) (EW.ofCode (fld w 5 2)))
  else if fixedBits w 0xfc00001f 0xa000000a then
    wf? (.vredand (fld w 21 5) (fld w 16 5) (fld w 11 5) (fld w 7 4) (EW.ofCode (fld w 5 2)))
  else if fixedBits w 0xfc00001f 0xa000000c then
    wf? (.vredor (fld w 21 5) (fld w 16 5) (fld w 11 5) (fld w 7 4) (EW.ofCode (fld w 5 2)))
  else if fixedBits w 0xfc00001f 0xa000000e then
    wf? (.vredxor (fld w 21 5) (fld w 16 5) (fld w 11 5) (fld w 7 4) (EW.ofCode (fld w 5 2)))
  else if fixedBits w 0xfc00f81e 0xa0000010 then
    wf? (.vscansum (fld w 21 5) (fld w 16 5) (fld w 7 4) (EW.ofCode (fld w 5 2)) ((fld w 0 1) == 1))
  else if fixedBits w 0xfc00f81e 0xa0000012 then
    wf? (.vscanmax (fld w 21 5) (fld w 16 5) (fld w 7 4) (EW.ofCode (fld w 5 2)) ((fld w 0 1) == 1))
  else if fixedBits w 0xfc00f81e 0xa0000014 then
    wf? (.vscanmin (fld w 21 5) (fld w 16 5) (fld w 7 4) (EW.ofCode (fld w 5 2)) ((fld w 0 1) == 1))
  else none

/-- Words of major opcode 0x29 (Table 14.3). -/
def decodeOp29 (w : BitVec 32) : Option Instr :=
  if fixedBits w 0xfc00001f 0xa4000000 then
    (Fmt.ofCode (fld w 12 4)).bind fun dst => (Fmt.ofCode (fld w 8 4)).bind fun src => (wf? (.vcvt dst src (fld w 21 5) (fld w 16 5) (Rnd.ofCode (fld w 6 2)) ((fld w 5 1) == 1)))
  else if fixedBits w 0xfc000007 0xa4000001 then
    (Fmt.ofCode (fld w 12 4)).bind fun dst => (Fmt.ofCode (fld w 8 4)).bind fun src => (wf? (.vquant dst src (fld w 21 5) (fld w 16 5) (fld w 3 5)))
  else if fixedBits w 0xfc000007 0xa4000002 then
    (Fmt.ofCode (fld w 12 4)).bind fun dst => (Fmt.ofCode (fld w 8 4)).bind fun src => (wf? (.vdquant dst src (fld w 21 5) (fld w 16 5) (fld w 3 5)))
  else none

/-- Words of major opcode 0x2a (Table 14.3). -/
def decodeOp2A (w : BitVec 32) : Option Instr :=
  if fixedBits w 0xfc00001e 0xa8000000 then
    wf? (.vsll (fld w 21 5) (fld w 16 5) (fld w 11 5) (fld w 7 4) (EW.ofCode (fld w 5 2)) ((fld w 0 1) == 1))
  else if fixedBits w 0xfc00001e 0xa8000002 then
    wf? (.vsrl (fld w 21 5) (fld w 16 5) (fld w 11 5) (fld w 7 4) (EW.ofCode (fld w 5 2)) ((fld w 0 1) == 1))
  else if fixedBits w 0xfc00001e 0xa8000004 then
    wf? (.vsra (fld w 21 5) (fld w 16 5) (fld w 11 5) (fld w 7 4) (EW.ofCode (fld w 5 2)) ((fld w 0 1) == 1))
  else if fixedBits w 0xfc00001e 0xa8000006 then
    wf? (.vrol (fld w 21 5) (fld w 16 5) (fld w 11 5) (fld w 7 4) (EW.ofCode (fld w 5 2)) ((fld w 0 1) == 1))
  else if fixedBits w 0xfc00001e 0xa8000008 then
    wf? (.vbfx (fld w 21 5) (fld w 16 5) (fld w 11 5) (fld w 7 4) (EW.ofCode (fld w 5 2)) ((fld w 0 1) == 1))
  else if fixedBits w 0xfc00001e 0xa800000a then
    wf? (.vbfxu (fld w 21 5) (fld w 16 5) (fld w 11 5) (fld w 7 4) (EW.ofCode (fld w 5 2)) ((fld w 0 1) == 1))
  else if fixedBits w 0xfc00001e 0xa800000c then
    wf? (.vbfi (fld w 21 5) (fld w 16 5) (fld w 11 5) (fld w 7 4) (EW.ofCode (fld w 5 2)) ((fld w 0 1) == 1))
  else if fixedBits w 0xfc00001e 0xa800000e then
    wf? (.vfsl (fld w 21 5) (fld w 16 5) (fld w 11 5) (fld w 7 4) (EW.ofCode (fld w 5 2)) ((fld w 0 1) == 1))
  else if fixedBits w 0xfc00001e 0xa8000010 then
    wf? (.vfsr (fld w 21 5) (fld w 16 5) (fld w 11 5) (fld w 7 4) (EW.ofCode (fld w 5 2)) ((fld w 0 1) == 1))
  else none

/-- Words of major opcode 0x2b (Table 14.3). -/
def decodeOp2B (w : BitVec 32) : Option Instr :=
  if fixedBits w 0xfc00001e 0xac000000 then
    wf? (.vaddi (fld w 21 5) (fld w 16 5) (fld w 11 5) (fld w 7 4) (EW.ofCode (fld w 5 2)) ((fld w 0 1) == 1))
  else if fixedBits w 0xfc00001e 0xac000002 then
    wf? (.vrsubi (fld w 21 5) (fld w 16 5) (fld w 11 5) (fld w 7 4) (EW.ofCode (fld w 5 2)) ((fld w 0 1) == 1))
  else if fixedBits w 0xfc00001e 0xac000004 then
    wf? (.vandi (fld w 21 5) (fld w 16 5) (fld w 11 5) (fld w 7 4) (EW.ofCode (fld w 5 2)) ((fld w 0 1) == 1))
  else if fixedBits w 0xfc00001e 0xac000006 then
    wf? (.vori (fld w 21 5) (fld w 16 5) (fld w 11 5) (fld w 7 4) (EW.ofCode (fld w 5 2)) ((fld w 0 1) == 1))
  else if fixedBits w 0xfc00001e 0xac000008 then
    wf? (.vxori (fld w 21 5) (fld w 16 5) (fld w 11 5) (fld w 7 4) (EW.ofCode (fld w 5 2)) ((fld w 0 1) == 1))
  else if fixedBits w 0xfc00001e 0xac00000a then
    wf? (.vslli (fld w 21 5) (fld w 16 5) (fld w 11 5) (fld w 7 4) (EW.ofCode (fld w 5 2)) ((fld w 0 1) == 1))
  else if fixedBits w 0xfc00001e 0xac00000c then
    wf? (.vsrli (fld w 21 5) (fld w 16 5) (fld w 11 5) (fld w 7 4) (EW.ofCode (fld w 5 2)) ((fld w 0 1) == 1))
  else if fixedBits w 0xfc00001e 0xac00000e then
    wf? (.vsrai (fld w 21 5) (fld w 16 5) (fld w 11 5) (fld w 7 4) (EW.ofCode (fld w 5 2)) ((fld w 0 1) == 1))
  else if fixedBits w 0xfc1f001e 0xac000010 then
    wf? (.vsplati (fld w 21 5) (fld w 11 5) (fld w 7 4) (EW.ofCode (fld w 5 2)) ((fld w 0 1) == 1))
  else if fixedBits w 0xfc00001e 0xac000012 then
    wf? (.vmini (fld w 21 5) (fld w 16 5) (fld w 11 5) (fld w 7 4) (EW.ofCode (fld w 5 2)) ((fld w 0 1) == 1))
  else if fixedBits w 0xfc00001e 0xac000014 then
    wf? (.vmaxi (fld w 21 5) (fld w 16 5) (fld w 11 5) (fld w 7 4) (EW.ofCode (fld w 5 2)) ((fld w 0 1) == 1))
  else none

/-- Words of major opcode 0x2c (Table 14.3). -/
def decodeOp2C (w : BitVec 32) : Option Instr :=
  if fixedBits w 0xfc00f803 0xb0000000 then
    (Space.ofCode (fld w 2 2)).bind fun space => (wf? (.vldUnit (fld w 21 5) (fld w 16 5) (fld w 7 4) (EW.ofCode (fld w 5 2)) ((fld w 4 1) == 1) space))
  else if fixedBits w 0xfc000003 0xb0000001 then
    (Space.ofCode (fld w 2 2)).bind fun space => (wf? (.vldStrided (fld w 21 5) (fld w 16 5) (fld w 11 5) (fld w 7 4) (EW.ofCode (fld w 5 2)) ((fld w 4 1) == 1) space))
  else if fixedBits w 0xfc000003 0xb0000002 then
    (Space.ofCode (fld w 2 2)).bind fun space => (wf? (.vldIndexed (fld w 21 5) (fld w 16 5) (fld w 11 5) (fld w 7 4) (EW.ofCode (fld w 5 2)) ((fld w 4 1) == 1) space))
  else if fixedBits w 0xfc00f80f 0xb0000003 then
    wf? (.vldff (fld w 21 5) (fld w 16 5) (fld w 7 4) (EW.ofCode (fld w 5 2)) ((fld w 4 1) == 1))
  else none

/-- Words of major opcode 0x2d (Table 14.3). -/
def decodeOp2D (w : BitVec 32) : Option Instr :=
  if fixedBits w 0xfc00f803 0xb4000000 then
    (Space.ofCode (fld w 2 2)).bind fun space => (wf? (.vstUnit (fld w 21 5) (fld w 16 5) (fld w 7 4) (EW.ofCode (fld w 5 2)) ((fld w 4 1) == 1) space))
  else if fixedBits w 0xfc000003 0xb4000001 then
    (Space.ofCode (fld w 2 2)).bind fun space => (wf? (.vstStrided (fld w 21 5) (fld w 16 5) (fld w 11 5) (fld w 7 4) (EW.ofCode (fld w 5 2)) ((fld w 4 1) == 1) space))
  else if fixedBits w 0xfc000003 0xb4000002 then
    (Space.ofCode (fld w 2 2)).bind fun space => (wf? (.vstIndexed (fld w 21 5) (fld w 16 5) (fld w 11 5) (fld w 7 4) (EW.ofCode (fld w 5 2)) ((fld w 4 1) == 1) space))
  else none

/-- Words of major opcode 0x2e (Table 14.3). -/
def decodeOp2E (w : BitVec 32) : Option Instr :=
  if fixedBits w 0xfc000704 0xb8000000 then
    wf? (.vldl (fld w 21 5) (fld w 16 5) (fld w 11 5) (fld w 4 4) (EW.ofCode (fld w 0 2)) ((fld w 3 1) == 1))
  else if fixedBits w 0xfc00070c 0xb8000100 then
    wf? (.vstl (fld w 21 5) (fld w 16 5) (fld w 11 5) (fld w 4 4) (EW.ofCode (fld w 0 2)))
  else if fixedBits w 0xffe0ffff 0xb8000200 then
    wf? (.sfull (fld w 16 5))
  else if fixedBits w 0xffe0ffff 0xb8000300 then
    wf? (.sempty (fld w 16 5))
  else if fixedBits w 0xfc00ffff 0xb8000400 then
    wf? (.sprobe (fld w 21 5) (fld w 16 5))
  else none

/-- Words of major opcode 0x2f (Table 14.3). -/
def decodeOp2F (w : BitVec 32) : Option Instr :=
  if fixedBits w 0xfc00005e 0xbc000040 then
    wf? (.vamoadd (fld w 21 5) (fld w 16 5) (fld w 11 5) (fld w 7 4) ((fld w 5 1) == 1) ((fld w 0 1) == 1))
  else if fixedBits w 0xfc00005e 0xbc000042 then
    wf? (.vamomin (fld w 21 5) (fld w 16 5) (fld w 11 5) (fld w 7 4) ((fld w 5 1) == 1) ((fld w 0 1) == 1))
  else if fixedBits w 0xfc00005e 0xbc000044 then
    wf? (.vamomax (fld w 21 5) (fld w 16 5) (fld w 11 5) (fld w 7 4) ((fld w 5 1) == 1) ((fld w 0 1) == 1))
  else if fixedBits w 0xfc00005e 0xbc000046 then
    wf? (.vamominu (fld w 21 5) (fld w 16 5) (fld w 11 5) (fld w 7 4) ((fld w 5 1) == 1) ((fld w 0 1) == 1))
  else if fixedBits w 0xfc00005e 0xbc000048 then
    wf? (.vamomaxu (fld w 21 5) (fld w 16 5) (fld w 11 5) (fld w 7 4) ((fld w 5 1) == 1) ((fld w 0 1) == 1))
  else if fixedBits w 0xfc00005e 0xbc00004a then
    wf? (.vamoand (fld w 21 5) (fld w 16 5) (fld w 11 5) (fld w 7 4) ((fld w 5 1) == 1) ((fld w 0 1) == 1))
  else if fixedBits w 0xfc00005e 0xbc00004c then
    wf? (.vamoor (fld w 21 5) (fld w 16 5) (fld w 11 5) (fld w 7 4) ((fld w 5 1) == 1) ((fld w 0 1) == 1))
  else if fixedBits w 0xfc00005e 0xbc00004e then
    wf? (.vamoxor (fld w 21 5) (fld w 16 5) (fld w 11 5) (fld w 7 4) ((fld w 5 1) == 1) ((fld w 0 1) == 1))
  else if fixedBits w 0xfc00005e 0xbc000050 then
    wf? (.vamoswap (fld w 21 5) (fld w 16 5) (fld w 11 5) (fld w 7 4) ((fld w 5 1) == 1) ((fld w 0 1) == 1))
  else if fixedBits w 0xfc00001f 0xbc000012 then
    wf? (.redst (fld w 21 5) (fld w 16 5) (fld w 11 5) (fld w 7 4) (EW.ofCode (fld w 5 2)))
  else if fixedBits w 0xfc00005e 0xbc000054 then
    wf? (.gather (fld w 21 5) (fld w 16 5) (fld w 11 5) (fld w 7 4) ((fld w 5 1) == 1) ((fld w 0 1) == 1))
  else none

/-- Words of major opcode 0x30 (Table 14.3). -/
def decodeOp30 (w : BitVec 32) : Option Instr :=
  if fixedBits w 0xfc00ff7f 0xc0000000 then
    wf? (.mattach (fld w 21 5) (fld w 16 5) ((fld w 7 1) == 1))
  else if fixedBits w 0xffffffff 0xc0000100 then
    wf? (.mdetach)
  else if fixedBits w 0xffe0ffff 0xc0000200 then
    wf? (.mmode (fld w 16 5))
  else if fixedBits w 0xffffffff 0xc0000300 then
    wf? (.mexit)
  else if fixedBits w 0xfffffff8 0xc0000400 then
    wf? (.mzero (fld w 0 3))
  else none

/-- Words of major opcode 0x31 (Table 14.3). -/
def decodeOp31 (w : BitVec 32) : Option Instr :=
  if fixedBits w 0xfc000000 0xc4000000 then
    (Fmt.ofCode (fld w 1 4)).bind fun fmt => (wf? (.mrank (fld w 23 3) (fld w 18 5) (fld w 13 5) (fld w 9 4) (fld w 5 4) fmt ((fld w 0 1) == 1)))
  else none

/-- Words of major opcode 0x32 (Table 14.3). -/
def decodeOp32 (w : BitVec 32) : Option Instr :=
  if fixedBits w 0xfc000000 0xc8000000 then
    (Fmt.ofCode (fld w 1 4)).bind fun fmt => (wf? (.mma (fld w 23 3) (fld w 18 5) (fld w 13 5) (fld w 9 4) (fld w 5 4) fmt ((fld w 0 1) == 1)))
  else none

/-- Words of major opcode 0x33 (Table 14.3). -/
def decodeOp33 (w : BitVec 32) : Option Instr :=
  if fixedBits w 0xfc000000 0xcc000000 then
    (Fmt.ofCode (fld w 1 4)).bind fun fmt => (wf? (.mmas (fld w 23 3) (fld w 18 5) (fld w 13 5) (fld w 9 4) (fld w 5 4) fmt ((fld w 0 1) == 1)))
  else none

/-- Words of major opcode 0x34 (Table 14.3). -/
def decodeOp34 (w : BitVec 32) : Option Instr :=
  if fixedBits w 0xfc03e1e1 0xd0000000 then
    (Fmt.ofCode (fld w 1 4)).bind fun fmt => (wf? (.mld (fld w 23 3) (fld w 18 5) (fld w 9 4) fmt))
  else if fixedBits w 0xfc03e1e1 0xd0000100 then
    (Fmt.ofCode (fld w 1 4)).bind fun fmt => (wf? (.mst (fld w 23 3) (fld w 18 5) (fld w 9 4) fmt))
  else none

/-- Words of major opcode 0x35 (Table 14.3). -/
def decodeOp35 (w : BitVec 32) : Option Instr :=
  if fixedBits w 0xfc4003e1 0xd4000000 then
    (Fmt.ofCode (fld w 18 4)).bind fun dst => (Fmt.ofCode (fld w 1 4)).bind fun src => (wf? (.mcvt (fld w 23 3) dst src (fld w 13 5) (Rnd.ofCode (fld w 11 2)) ((fld w 10 1) == 1)))
  else none

/-- Words of major opcode 0x38 (Table 14.3). -/
def decodeOp38 (w : BitVec 32) : Option Instr :=
  if fixedBits w 0xfc00070f 0xe0000000 then
    wf? (.cpset (fld w 21 5) (fld w 16 5) (fld w 11 5) (fld w 4 4))
  else if fixedBits w 0xfc000703 0xe0000100 then
    wf? (.cpgo ((fld w 7 1) == 1) ((fld w 6 1) == 1) (Scope.ofCode (fld w 4 2)) ((fld w 3 1) == 1) ((fld w 2 1) == 1) (fld w 21 5) (fld w 16 5) (fld w 11 5))
  else if fixedBits w 0xfc00ffff 0xe0000200 then
    wf? (.cpq (fld w 21 5) (fld w 16 5))
  else none

/-- Words of major opcode 0x39 (Table 14.3). -/
def decodeOp39 (w : BitVec 32) : Option Instr :=
  if fixedBits w 0xfc00ffff 0xe4000000 then
    wf? (.swm (fld w 21 5) (fld w 16 5))
  else if fixedBits w 0xfc00ffff 0xe4000100 then
    wf? (.swin (fld w 21 5) (fld w 16 5))
  else if fixedBits w 0xffe007ff 0xe4000200 then
    wf? (.semit (fld w 16 5) (fld w 11 5))
  else if fixedBits w 0xffe007ff 0xe4000300 then
    wf? (.sidle (fld w 16 5) (fld w 11 5))
  else none

/-- Words of major opcode 0x3a (Table 14.3). -/
def decodeOp3A (w : BitVec 32) : Option Instr :=
  if fixedBits w 0xfc1fffff 0xe8000000 then
    wf? (.capq (fld w 21 5))
  else none

/-- Decodes one word by its major opcode (R205). Reserved and illegal opcodes give none. -/
def decodeWord (w : BitVec 32) : Option Instr :=
  match (fld w 26 6).toNat with
  | 1 => decodeOp01 w
  | 2 => decodeOp02 w
  | 3 => decodeOp03 w
  | 4 => decodeOp04 w
  | 5 => decodeOp05 w
  | 6 => decodeOp06 w
  | 7 => decodeOp07 w
  | 8 => decodeOp08 w
  | 9 => decodeOp09 w
  | 10 => decodeOp0A w
  | 11 => decodeOp0B w
  | 12 => decodeOp0C w
  | 13 => decodeOp0D w
  | 14 => decodeOp0E w
  | 15 => decodeOp0F w
  | 16 => decodeOp10 w
  | 17 => decodeOp11 w
  | 18 => decodeOp12 w
  | 19 => decodeOp13 w
  | 20 => decodeOp14 w
  | 21 => decodeOp15 w
  | 22 => decodeOp16 w
  | 23 => decodeOp17 w
  | 24 => decodeOp18 w
  | 25 => decodeOp19 w
  | 27 => decodeOp1B w
  | 28 => decodeOp1C w
  | 29 => decodeOp1D w
  | 30 => decodeOp1E w
  | 31 => decodeOp1F w
  | 32 => decodeOp20 w
  | 33 => decodeOp21 w
  | 34 => decodeOp22 w
  | 35 => decodeOp23 w
  | 36 => decodeOp24 w
  | 37 => decodeOp25 w
  | 38 => decodeOp26 w
  | 39 => decodeOp27 w
  | 40 => decodeOp28 w
  | 41 => decodeOp29 w
  | 42 => decodeOp2A w
  | 43 => decodeOp2B w
  | 44 => decodeOp2C w
  | 45 => decodeOp2D w
  | 46 => decodeOp2E w
  | 47 => decodeOp2F w
  | 48 => decodeOp30 w
  | 49 => decodeOp31 w
  | 50 => decodeOp32 w
  | 51 => decodeOp33 w
  | 52 => decodeOp34 w
  | 53 => decodeOp35 w
  | 56 => decodeOp38 w
  | 57 => decodeOp39 w
  | 58 => decodeOp3A w
  | _ => none

/-- Decodes one word, naming the word that is refused (R206). -/
def decode (w : BitVec 32) : Except DecodeError Instr :=
  match decodeWord w with
  | some i => .ok i
  | none => .error (.illegalWord w)

/-- The word that four bytes hold, little-endian (R3, R200). -/
def wordOfBytes (b0 b1 b2 b3 : Byte) : BitVec 32 := b3 ++ b2 ++ b1 ++ b0

/-- The four bytes of a word in ascending address order (R3). -/
def bytesOfWord (w : BitVec 32) : List Byte := [fld w 0 8, fld w 8 8, fld w 16 8, fld w 24 8]

/-- Decodes the instruction at the head of some bytes and gives the bytes after it. -/
def decodeBytes : List Byte → Except DecodeError (Instr × List Byte)
  | b0 :: b1 :: b2 :: b3 :: rest => (decode (wordOfBytes b0 b1 b2 b3)).map fun i => (i, rest)
  | _ => .error .tooShort

/-- The instruction the decoder reads from a table row's bits, laid out as the hardware stores them. -/
def decodeTableWord (nbits w : Nat) : Option Instr :=
  if nbits = 0 ∨ nbits > 32 then none
  else match decodeBytes (bytesOfWord (BitVec.ofNat 32 w)) with
    | .ok (i, _) => some i
    | .error _ => none

/-- The word of an instruction, from the same tables; an event row has no word. -/
def encode : Instr → Option (BitVec 32)
  | .add d a b => some ((1#6) ++ d ++ a ++ b ++ (0#11))
  | .sub d a b => some ((1#6) ++ d ++ a ++ b ++ (1#11))
  | .and d a b => some ((1#6) ++ d ++ a ++ b ++ (2#11))
  | .or d a b => some ((1#6) ++ d ++ a ++ b ++ (3#11))
  | .xor d a b => some ((1#6) ++ d ++ a ++ b ++ (4#11))
  | .sll d a b => some ((1#6) ++ d ++ a ++ b ++ (5#11))
  | .srl d a b => some ((1#6) ++ d ++ a ++ b ++ (6#11))
  | .sra d a b => some ((1#6) ++ d ++ a ++ b ++ (7#11))
  | .slt d a b => some ((1#6) ++ d ++ a ++ b ++ (8#11))
  | .sltu d a b => some ((1#6) ++ d ++ a ++ b ++ (9#11))
  | .min d a b => some ((1#6) ++ d ++ a ++ b ++ (10#11))
  | .max d a b => some ((1#6) ++ d ++ a ++ b ++ (11#11))
  | .minu d a b => some ((1#6) ++ d ++ a ++ b ++ (12#11))
  | .maxu d a b => some ((1#6) ++ d ++ a ++ b ++ (13#11))
  | .clz d a => some ((1#6) ++ d ++ a ++ (14#16))
  | .ctz d a => some ((1#6) ++ d ++ a ++ (15#16))
  | .popc d a => some ((1#6) ++ d ++ a ++ (16#16))
  | .addSat d a b => some ((1#6) ++ d ++ a ++ b ++ (17#11))
  | .subSat d a b => some ((1#6) ++ d ++ a ++ b ++ (18#11))
  | .bfx d a pos lenM1 => some ((2#6) ++ d ++ a ++ pos ++ lenM1 ++ (0#4))
  | .bfxu d a pos lenM1 => some ((2#6) ++ d ++ a ++ pos ++ lenM1 ++ (1#4))
  | .bfi d a pos lenM1 => some ((2#6) ++ d ++ a ++ pos ++ lenM1 ++ (2#4))
  | .fsl d a b sh => some ((2#6) ++ d ++ a ++ b ++ sh ++ (3#5))
  | .fsr d a b sh => some ((2#6) ++ d ++ a ++ b ++ sh ++ (4#5))
  | .mul d a b => some ((3#6) ++ d ++ a ++ b ++ (0#11))
  | .mulh d a b => some ((3#6) ++ d ++ a ++ b ++ (1#11))
  | .mulhu d a b => some ((3#6) ++ d ++ a ++ b ++ (2#11))
  | .mulhsu d a b => some ((3#6) ++ d ++ a ++ b ++ (3#11))
  | .div d a b => some ((3#6) ++ d ++ a ++ b ++ (4#11))
  | .divu d a b => some ((3#6) ++ d ++ a ++ b ++ (5#11))
  | .rem d a b => some ((3#6) ++ d ++ a ++ b ++ (6#11))
  | .remu d a b => some ((3#6) ++ d ++ a ++ b ++ (7#11))
  | .divSat d a b => some ((3#6) ++ d ++ a ++ b ++ (8#11))
  | .addi d a imm => some ((4#6) ++ d ++ a ++ imm)
  | .andi d a imm => some ((5#6) ++ d ++ a ++ imm)
  | .ori d a imm => some ((6#6) ++ d ++ a ++ imm)
  | .xori d a imm => some ((7#6) ++ d ++ a ++ imm)
  | .slti d a imm => some ((8#6) ++ d ++ a ++ imm)
  | .sltiu d a imm => some ((9#6) ++ d ++ a ++ imm)
  | .slli d a sh => some ((10#6) ++ d ++ a ++ (0#10) ++ sh)
  | .srli d a sh => some ((10#6) ++ d ++ a ++ (1#10) ++ sh)
  | .srai d a sh => some ((10#6) ++ d ++ a ++ (2#10) ++ sh)
  | .rori d a sh => some ((10#6) ++ d ++ a ++ (3#10) ++ sh)
  | .lui d imm => some ((11#6) ++ d ++ imm)
  | .addpc d imm => some ((12#6) ++ d ++ imm)
  | .ld wd d a off => some ((13#6) ++ d ++ a ++ wd.code ++ off)
  | .st wd src a off => some ((14#6) ++ src ++ a ++ (0#1) ++ wd.code ++ off)
  | .amoadd dbl acq rls sc d a b => some ((15#6) ++ d ++ a ++ b ++ (0#4) ++ bit1 dbl ++ bit1 acq ++ bit1 rls ++ sc.code ++ (0#2))
  | .amomin dbl acq rls sc d a b => some ((15#6) ++ d ++ a ++ b ++ (1#4) ++ bit1 dbl ++ bit1 acq ++ bit1 rls ++ sc.code ++ (0#2))
  | .amomax dbl acq rls sc d a b => some ((15#6) ++ d ++ a ++ b ++ (2#4) ++ bit1 dbl ++ bit1 acq ++ bit1 rls ++ sc.code ++ (0#2))
  | .amominu dbl acq rls sc d a b => some ((15#6) ++ d ++ a ++ b ++ (3#4) ++ bit1 dbl ++ bit1 acq ++ bit1 rls ++ sc.code ++ (0#2))
  | .amomaxu dbl acq rls sc d a b => some ((15#6) ++ d ++ a ++ b ++ (4#4) ++ bit1 dbl ++ bit1 acq ++ bit1 rls ++ sc.code ++ (0#2))
  | .amoand dbl acq rls sc d a b => some ((15#6) ++ d ++ a ++ b ++ (5#4) ++ bit1 dbl ++ bit1 acq ++ bit1 rls ++ sc.code ++ (0#2))
  | .amoor dbl acq rls sc d a b => some ((15#6) ++ d ++ a ++ b ++ (6#4) ++ bit1 dbl ++ bit1 acq ++ bit1 rls ++ sc.code ++ (0#2))
  | .amoxor dbl acq rls sc d a b => some ((15#6) ++ d ++ a ++ b ++ (7#4) ++ bit1 dbl ++ bit1 acq ++ bit1 rls ++ sc.code ++ (0#2))
  | .amoswap dbl acq rls sc d a b => some ((15#6) ++ d ++ a ++ b ++ (8#4) ++ bit1 dbl ++ bit1 acq ++ bit1 rls ++ sc.code ++ (0#2))
  | .amocas dbl acq rls sc d a b => some ((15#6) ++ d ++ a ++ b ++ (9#4) ++ bit1 dbl ++ bit1 acq ++ bit1 rls ++ sc.code ++ (0#2))
  | .ldNc wd d a off => some ((15#6) ++ d ++ a ++ off ++ (10#4) ++ wd.code ++ (0#4))
  | .beq a b off => some ((16#6) ++ a ++ b ++ off)
  | .bne a b off => some ((17#6) ++ a ++ b ++ off)
  | .blt a b off => some ((18#6) ++ a ++ b ++ off)
  | .bge a b off => some ((19#6) ++ a ++ b ++ off)
  | .bltu a b off => some ((20#6) ++ a ++ b ++ off)
  | .bgeu a b off => some ((21#6) ++ a ++ b ++ off)
  | .jal d off => some ((22#6) ++ d ++ off)
  | .jalr d a off => some ((23#6) ++ d ++ a ++ off)
  | .bstrip a off => some ((24#6) ++ a ++ (0#5) ++ off)
  | .loop a b level lenM1 dinc ainc binc => some ((25#6) ++ a ++ b ++ level ++ lenM1 ++ dinc ++ ainc ++ binc)
  | .eret => some ((1811939329#32))
  | .halt => some ((1811939330#32))
  | .wait => some ((1811939331#32))
  | .brk => some ((1811939332#32))
  | .trap code => some ((7077889#24) ++ code)
  | .crd d r => some ((28#6) ++ d ++ (0#9) ++ r)
  | .cwr a r => some ((896#11) ++ a ++ (1#4) ++ r)
  | .cset d a r => some ((28#6) ++ d ++ a ++ (2#4) ++ r)
  | .ccl d a r => some ((28#6) ++ d ++ a ++ (3#4) ++ r)
  | .fence sc => some ((15204352#25) ++ sc.code ++ (0#5))
  | .rel sc => some ((15204353#25) ++ sc.code ++ (0#5))
  | .strel sc a b off => some ((928#11) ++ a ++ b ++ (2#4) ++ sc.code ++ off)
  | .ldacq d a off => some ((29#6) ++ d ++ a ++ (12#11) ++ off)
  | .drain => some ((1946157568#32))
  | .turn a b levelM1 => some ((928#11) ++ a ++ b ++ (5#4) ++ levelM1 ++ (0#5))
  | .turnq d a b => some ((29#6) ++ d ++ a ++ b ++ (768#11))
  | .qsend a q => some ((960#11) ++ a ++ (0#8) ++ q ++ (0#6))
  | .qrecv d q => some ((30#6) ++ d ++ (1#13) ++ q ++ (0#6))
  | .qpoll d b q => some ((30#6) ++ d ++ (0#5) ++ b ++ (2#3) ++ q ++ (0#6))
  | .qpush a b q => some ((960#11) ++ a ++ b ++ (3#3) ++ q ++ (0#6))
  | .tspawn d a => some ((31#6) ++ d ++ a ++ (0#16))
  | .tdep a b => some ((992#11) ++ a ++ b ++ (256#11))
  | .tdone a => some ((992#11) ++ a ++ (512#16))
  | .gbar team => some ((8126467#24) ++ bit1 team ++ (0#7))
  | .tyield => some ((2080375808#32))
  | .vsetvl ew d a => some ((32#6) ++ d ++ a ++ (0#14) ++ ew.code)
  | .vadd d a b pg ew sat rnd z => some ((33#6) ++ d ++ a ++ b ++ pg ++ ew.code ++ (0#1) ++ bit1 sat ++ rnd.code ++ bit1 z)
  | .vsub d a b pg ew sat rnd z => some ((33#6) ++ d ++ a ++ b ++ pg ++ ew.code ++ (1#1) ++ bit1 sat ++ rnd.code ++ bit1 z)
  | .vmul d a b pg ew z => some ((34#6) ++ d ++ a ++ b ++ pg ++ ew.code ++ (0#4) ++ bit1 z)
  | .vmulh d a b pg ew z => some ((34#6) ++ d ++ a ++ b ++ pg ++ ew.code ++ (1#4) ++ bit1 z)
  | .vmulhu d a b pg ew z => some ((34#6) ++ d ++ a ++ b ++ pg ++ ew.code ++ (2#4) ++ bit1 z)
  | .vdiv d a b pg ew z => some ((34#6) ++ d ++ a ++ b ++ pg ++ ew.code ++ (3#4) ++ bit1 z)
  | .vdivu d a b pg ew z => some ((34#6) ++ d ++ a ++ b ++ pg ++ ew.code ++ (4#4) ++ bit1 z)
  | .vrem d a b pg ew z => some ((34#6) ++ d ++ a ++ b ++ pg ++ ew.code ++ (5#4) ++ bit1 z)
  | .vremu d a b pg ew z => some ((34#6) ++ d ++ a ++ b ++ pg ++ ew.code ++ (6#4) ++ bit1 z)
  | .vmin d a b pg ew z => some ((34#6) ++ d ++ a ++ b ++ pg ++ ew.code ++ (7#4) ++ bit1 z)
  | .vmax d a b pg ew z => some ((34#6) ++ d ++ a ++ b ++ pg ++ ew.code ++ (8#4) ++ bit1 z)
  | .vminu d a b pg ew z => some ((34#6) ++ d ++ a ++ b ++ pg ++ ew.code ++ (9#4) ++ bit1 z)
  | .vmaxu d a b pg ew z => some ((34#6) ++ d ++ a ++ b ++ pg ++ ew.code ++ (10#4) ++ bit1 z)
  | .vand d a b pg ew z => some ((34#6) ++ d ++ a ++ b ++ pg ++ ew.code ++ (11#4) ++ bit1 z)
  | .vor d a b pg ew z => some ((34#6) ++ d ++ a ++ b ++ pg ++ ew.code ++ (12#4) ++ bit1 z)
  | .vxor d a b pg ew z => some ((34#6) ++ d ++ a ++ b ++ pg ++ ew.code ++ (13#4) ++ bit1 z)
  | .vavg d a b pg ew z => some ((34#6) ++ d ++ a ++ b ++ pg ++ ew.code ++ (14#4) ++ bit1 z)
  | .vabsd d a b pg ew z => some ((34#6) ++ d ++ a ++ b ++ pg ++ ew.code ++ (15#4) ++ bit1 z)
  | .vaddx d a b pg ew z => some ((35#6) ++ d ++ a ++ b ++ pg ++ ew.code ++ (0#4) ++ bit1 z)
  | .vsubx d a b pg ew z => some ((35#6) ++ d ++ a ++ b ++ pg ++ ew.code ++ (1#4) ++ bit1 z)
  | .vrsubx d a b pg ew z => some ((35#6) ++ d ++ a ++ b ++ pg ++ ew.code ++ (2#4) ++ bit1 z)
  | .vmulx d a b pg ew z => some ((35#6) ++ d ++ a ++ b ++ pg ++ ew.code ++ (3#4) ++ bit1 z)
  | .vmulhx d a b pg ew z => some ((35#6) ++ d ++ a ++ b ++ pg ++ ew.code ++ (4#4) ++ bit1 z)
  | .vdivx d a b pg ew z => some ((35#6) ++ d ++ a ++ b ++ pg ++ ew.code ++ (5#4) ++ bit1 z)
  | .vdivux d a b pg ew z => some ((35#6) ++ d ++ a ++ b ++ pg ++ ew.code ++ (6#4) ++ bit1 z)
  | .vremx d a b pg ew z => some ((35#6) ++ d ++ a ++ b ++ pg ++ ew.code ++ (7#4) ++ bit1 z)
  | .vremux d a b pg ew z => some ((35#6) ++ d ++ a ++ b ++ pg ++ ew.code ++ (8#4) ++ bit1 z)
  | .vminx d a b pg ew z => some ((35#6) ++ d ++ a ++ b ++ pg ++ ew.code ++ (9#4) ++ bit1 z)
  | .vmaxx d a b pg ew z => some ((35#6) ++ d ++ a ++ b ++ pg ++ ew.code ++ (10#4) ++ bit1 z)
  | .vminux d a b pg ew z => some ((35#6) ++ d ++ a ++ b ++ pg ++ ew.code ++ (11#4) ++ bit1 z)
  | .vmaxux d a b pg ew z => some ((35#6) ++ d ++ a ++ b ++ pg ++ ew.code ++ (12#4) ++ bit1 z)
  | .vandx d a b pg ew z => some ((35#6) ++ d ++ a ++ b ++ pg ++ ew.code ++ (13#4) ++ bit1 z)
  | .vorx d a b pg ew z => some ((35#6) ++ d ++ a ++ b ++ pg ++ ew.code ++ (14#4) ++ bit1 z)
  | .vxorx d a b pg ew z => some ((35#6) ++ d ++ a ++ b ++ pg ++ ew.code ++ (15#4) ++ bit1 z)
  | .vmacc d a b pg ew z => some ((36#6) ++ d ++ a ++ b ++ pg ++ ew.code ++ (0#4) ++ bit1 z)
  | .vmsac d a b pg ew z => some ((36#6) ++ d ++ a ++ b ++ pg ++ ew.code ++ (1#4) ++ bit1 z)
  | .vneg d a pg ew z => some ((36#6) ++ d ++ a ++ (0#5) ++ pg ++ ew.code ++ (2#4) ++ bit1 z)
  | .vabs d a pg ew z => some ((36#6) ++ d ++ a ++ (0#5) ++ pg ++ ew.code ++ (3#4) ++ bit1 z)
  | .vnot d a pg ew z => some ((36#6) ++ d ++ a ++ (0#5) ++ pg ++ ew.code ++ (4#4) ++ bit1 z)
  | .vsqrt d a pg ew z => some ((36#6) ++ d ++ a ++ (0#5) ++ pg ++ ew.code ++ (5#4) ++ bit1 z)
  | .vclz d a pg ew z => some ((36#6) ++ d ++ a ++ (0#5) ++ pg ++ ew.code ++ (6#4) ++ bit1 z)
  | .vctz d a pg ew z => some ((36#6) ++ d ++ a ++ (0#5) ++ pg ++ ew.code ++ (7#4) ++ bit1 z)
  | .vpopc d a pg ew z => some ((36#6) ++ d ++ a ++ (0#5) ++ pg ++ ew.code ++ (8#4) ++ bit1 z)
  | .vmv d a pg ew z => some ((36#6) ++ d ++ a ++ (0#5) ++ pg ++ ew.code ++ (9#4) ++ bit1 z)
  | .vcmpVv c d a b pg ew z => some ((74#7) ++ d ++ a ++ b ++ pg ++ ew.code ++ c.code ++ (0#1) ++ bit1 z)
  | .vcmpVx c d a b pg ew z => some ((74#7) ++ d ++ a ++ b ++ pg ++ ew.code ++ c.code ++ (1#1) ++ bit1 z)
  | .pand d a b => some ((76#7) ++ d ++ (0#1) ++ a ++ (0#1) ++ b ++ (0#11))
  | .por d a b => some ((76#7) ++ d ++ (0#1) ++ a ++ (0#1) ++ b ++ (1#11))
  | .pxor d a b => some ((76#7) ++ d ++ (0#1) ++ a ++ (0#1) ++ b ++ (2#11))
  | .pandn d a b => some ((76#7) ++ d ++ (0#1) ++ a ++ (0#1) ++ b ++ (3#11))
  | .pnot d a => some ((76#7) ++ d ++ (0#1) ++ a ++ (4#16))
  | .pleadIncl d a pg ew => some ((76#7) ++ d ++ (0#1) ++ a ++ (0#5) ++ pg ++ ew.code ++ (5#5))
  | .pleadExcl d a pg ew => some ((76#7) ++ d ++ (0#1) ++ a ++ (0#5) ++ pg ++ ew.code ++ (6#5))
  | .ppopc d a pg ew => some ((38#6) ++ d ++ (0#1) ++ a ++ (0#5) ++ pg ++ ew.code ++ (7#5))
  | .pfind d a pg ew => some ((38#6) ++ d ++ (0#1) ++ a ++ (0#5) ++ pg ++ ew.code ++ (8#5))
  | .pset d a ew => some ((76#7) ++ d ++ a ++ (0#9) ++ ew.code ++ (9#5))
  | .vslideup d a b pg ew z => some ((39#6) ++ d ++ a ++ b ++ pg ++ ew.code ++ (0#4) ++ bit1 z)
  | .vslidedn d a b pg ew z => some ((39#6) ++ d ++ a ++ b ++ pg ++ ew.code ++ (1#4) ++ bit1 z)
  | .vrgather d a b pg ew z => some ((39#6) ++ d ++ a ++ b ++ pg ++ ew.code ++ (2#4) ++ bit1 z)
  | .vcompress d a pg ew z => some ((39#6) ++ d ++ a ++ (0#5) ++ pg ++ ew.code ++ (3#4) ++ bit1 z)
  | .viota d pg ew z => some ((39#6) ++ d ++ (0#10) ++ pg ++ ew.code ++ (4#4) ++ bit1 z)
  | .vsplat d a pg ew z => some ((39#6) ++ d ++ a ++ (0#5) ++ pg ++ ew.code ++ (5#4) ++ bit1 z)
  | .vmvx d a b ew => some ((39#6) ++ d ++ a ++ b ++ (0#4) ++ ew.code ++ (12#5))
  | .vins d a b ew => some ((39#6) ++ d ++ a ++ b ++ (0#4) ++ ew.code ++ (14#5))
  | .vredsum d a b pg ew => some ((40#6) ++ d ++ a ++ b ++ pg ++ ew.code ++ (0#5))
  | .vredmin d a b pg ew => some ((40#6) ++ d ++ a ++ b ++ pg ++ ew.code ++ (2#5))
  | .vredmax d a b pg ew => some ((40#6) ++ d ++ a ++ b ++ pg ++ ew.code ++ (4#5))
  | .vredminu d a b pg ew => some ((40#6) ++ d ++ a ++ b ++ pg ++ ew.code ++ (6#5))
  | .vredmaxu d a b pg ew => some ((40#6) ++ d ++ a ++ b ++ pg ++ ew.code ++ (8#5))
  | .vredand d a b pg ew => some ((40#6) ++ d ++ a ++ b ++ pg ++ ew.code ++ (10#5))
  | .vredor d a b pg ew => some ((40#6) ++ d ++ a ++ b ++ pg ++ ew.code ++ (12#5))
  | .vredxor d a b pg ew => some ((40#6) ++ d ++ a ++ b ++ pg ++ ew.code ++ (14#5))
  | .vscansum d a pg ew z => some ((40#6) ++ d ++ a ++ (0#5) ++ pg ++ ew.code ++ (8#4) ++ bit1 z)
  | .vscanmax d a pg ew z => some ((40#6) ++ d ++ a ++ (0#5) ++ pg ++ ew.code ++ (9#4) ++ bit1 z)
  | .vscanmin d a pg ew z => some ((40#6) ++ d ++ a ++ (0#5) ++ pg ++ ew.code ++ (10#4) ++ bit1 z)
  | .vcvt dst src d a rnd sat => some ((41#6) ++ d ++ a ++ dst.code ++ src.code ++ rnd.code ++ bit1 sat ++ (0#5))
  | .vquant dst src d a x => some ((41#6) ++ d ++ a ++ dst.code ++ src.code ++ x ++ (1#3))
  | .vdquant dst src d a x => some ((41#6) ++ d ++ a ++ dst.code ++ src.code ++ x ++ (2#3))
  | .vsll d a b pg ew z => some ((42#6) ++ d ++ a ++ b ++ pg ++ ew.code ++ (0#4) ++ bit1 z)
  | .vsrl d a b pg ew z => some ((42#6) ++ d ++ a ++ b ++ pg ++ ew.code ++ (1#4) ++ bit1 z)
  | .vsra d a b pg ew z => some ((42#6) ++ d ++ a ++ b ++ pg ++ ew.code ++ (2#4) ++ bit1 z)
  | .vrol d a b pg ew z => some ((42#6) ++ d ++ a ++ b ++ pg ++ ew.code ++ (3#4) ++ bit1 z)
  | .vbfx d a b pg ew z => some ((42#6) ++ d ++ a ++ b ++ pg ++ ew.code ++ (4#4) ++ bit1 z)
  | .vbfxu d a b pg ew z => some ((42#6) ++ d ++ a ++ b ++ pg ++ ew.code ++ (5#4) ++ bit1 z)
  | .vbfi d a b pg ew z => some ((42#6) ++ d ++ a ++ b ++ pg ++ ew.code ++ (6#4) ++ bit1 z)
  | .vfsl d a b pg ew z => some ((42#6) ++ d ++ a ++ b ++ pg ++ ew.code ++ (7#4) ++ bit1 z)
  | .vfsr d a b pg ew z => some ((42#6) ++ d ++ a ++ b ++ pg ++ ew.code ++ (8#4) ++ bit1 z)
  | .vaddi d a m pg ew z => some ((43#6) ++ d ++ a ++ m ++ pg ++ ew.code ++ (0#4) ++ bit1 z)
  | .vrsubi d a m pg ew z => some ((43#6) ++ d ++ a ++ m ++ pg ++ ew.code ++ (1#4) ++ bit1 z)
  | .vandi d a m pg ew z => some ((43#6) ++ d ++ a ++ m ++ pg ++ ew.code ++ (2#4) ++ bit1 z)
  | .vori d a m pg ew z => some ((43#6) ++ d ++ a ++ m ++ pg ++ ew.code ++ (3#4) ++ bit1 z)
  | .vxori d a m pg ew z => some ((43#6) ++ d ++ a ++ m ++ pg ++ ew.code ++ (4#4) ++ bit1 z)
  | .vslli d a m pg ew z => some ((43#6) ++ d ++ a ++ m ++ pg ++ ew.code ++ (5#4) ++ bit1 z)
  | .vsrli d a m pg ew z => some ((43#6) ++ d ++ a ++ m ++ pg ++ ew.code ++ (6#4) ++ bit1 z)
  | .vsrai d a m pg ew z => some ((43#6) ++ d ++ a ++ m ++ pg ++ ew.code ++ (7#4) ++ bit1 z)
  | .vsplati d m pg ew z => some ((43#6) ++ d ++ (0#5) ++ m ++ pg ++ ew.code ++ (8#4) ++ bit1 z)
  | .vmini d a m pg ew z => some ((43#6) ++ d ++ a ++ m ++ pg ++ ew.code ++ (9#4) ++ bit1 z)
  | .vmaxi d a m pg ew z => some ((43#6) ++ d ++ a ++ m ++ pg ++ ew.code ++ (10#4) ++ bit1 z)
  | .vldUnit d a pg ew cv space => some ((44#6) ++ d ++ a ++ (0#5) ++ pg ++ ew.code ++ bit1 cv ++ space.code ++ (0#2))
  | .vldStrided d a b pg ew cv space => some ((44#6) ++ d ++ a ++ b ++ pg ++ ew.code ++ bit1 cv ++ space.code ++ (1#2))
  | .vldIndexed d a b pg ew cv space => some ((44#6) ++ d ++ a ++ b ++ pg ++ ew.code ++ bit1 cv ++ space.code ++ (2#2))
  | .vldff d a pg ew cv => some ((44#6) ++ d ++ a ++ (0#5) ++ pg ++ ew.code ++ bit1 cv ++ (3#4))
  | .vstUnit d a pg ew cv space => some ((45#6) ++ d ++ a ++ (0#5) ++ pg ++ ew.code ++ bit1 cv ++ space.code ++ (0#2))
  | .vstStrided d a b pg ew cv space => some ((45#6) ++ d ++ a ++ b ++ pg ++ ew.code ++ bit1 cv ++ space.code ++ (1#2))
  | .vstIndexed d a b pg ew cv space => some ((45#6) ++ d ++ a ++ b ++ pg ++ ew.code ++ bit1 cv ++ space.code ++ (2#2))
  | .vldl d a b pg ew z => some ((46#6) ++ d ++ a ++ b ++ (0#3) ++ pg ++ bit1 z ++ (0#1) ++ ew.code)
  | .vstl d a b pg ew => some ((46#6) ++ d ++ a ++ b ++ (1#3) ++ pg ++ (0#2) ++ ew.code)
  | .sfull a => some ((1472#11) ++ a ++ (512#16))
  | .sempty a => some ((1472#11) ++ a ++ (768#16))
  | .sprobe d a => some ((46#6) ++ d ++ a ++ (1024#16))
  | .vamoadd d a b pg dbl z => some ((47#6) ++ d ++ a ++ b ++ pg ++ (1#1) ++ bit1 dbl ++ (0#4) ++ bit1 z)
  | .vamomin d a b pg dbl z => some ((47#6) ++ d ++ a ++ b ++ pg ++ (1#1) ++ bit1 dbl ++ (1#4) ++ bit1 z)
  | .vamomax d a b pg dbl z => some ((47#6) ++ d ++ a ++ b ++ pg ++ (1#1) ++ bit1 dbl ++ (2#4) ++ bit1 z)
  | .vamominu d a b pg dbl z => some ((47#6) ++ d ++ a ++ b ++ pg ++ (1#1) ++ bit1 dbl ++ (3#4) ++ bit1 z)
  | .vamomaxu d a b pg dbl z => some ((47#6) ++ d ++ a ++ b ++ pg ++ (1#1) ++ bit1 dbl ++ (4#4) ++ bit1 z)
  | .vamoand d a b pg dbl z => some ((47#6) ++ d ++ a ++ b ++ pg ++ (1#1) ++ bit1 dbl ++ (5#4) ++ bit1 z)
  | .vamoor d a b pg dbl z => some ((47#6) ++ d ++ a ++ b ++ pg ++ (1#1) ++ bit1 dbl ++ (6#4) ++ bit1 z)
  | .vamoxor d a b pg dbl z => some ((47#6) ++ d ++ a ++ b ++ pg ++ (1#1) ++ bit1 dbl ++ (7#4) ++ bit1 z)
  | .vamoswap d a b pg dbl z => some ((47#6) ++ d ++ a ++ b ++ pg ++ (1#1) ++ bit1 dbl ++ (8#4) ++ bit1 z)
  | .redst d a b pg ew => some ((47#6) ++ d ++ a ++ b ++ pg ++ ew.code ++ (18#5))
  | .gather d a b pg dbl z => some ((47#6) ++ d ++ a ++ b ++ pg ++ (1#1) ++ bit1 dbl ++ (10#4) ++ bit1 z)
  | .mattach d a wt => some ((48#6) ++ d ++ a ++ (0#8) ++ bit1 wt ++ (0#7))
  | .mdetach => some ((3221225728#32))
  | .mmode a => some ((1536#11) ++ a ++ (512#16))
  | .mexit => some ((3221226240#32))
  | .mzero acc => some ((402653312#29) ++ acc)
  | .mrank acc a b prc pk fmt z => some ((49#6) ++ acc ++ a ++ b ++ prc ++ pk ++ fmt.code ++ bit1 z)
  | .mma acc a b prc pk fmt z => some ((50#6) ++ acc ++ a ++ b ++ prc ++ pk ++ fmt.code ++ bit1 z)
  | .mmas acc a b prc pk fmt z => some ((51#6) ++ acc ++ a ++ b ++ prc ++ pk ++ fmt.code ++ bit1 z)
  | .mld acc a prc fmt => some ((52#6) ++ acc ++ a ++ (0#5) ++ prc ++ (0#4) ++ fmt.code ++ (0#1))
  | .mst acc a prc fmt => some ((52#6) ++ acc ++ a ++ (0#5) ++ prc ++ (8#4) ++ fmt.code ++ (0#1))
  | .mcvt acc dst src b rnd sat => some ((53#6) ++ acc ++ (0#1) ++ dst.code ++ b ++ rnd.code ++ bit1 sat ++ (0#5) ++ src.code ++ (0#1))
  | .cpset d a b level => some ((56#6) ++ d ++ a ++ b ++ (0#3) ++ level ++ (0#4))
  | .cpgo acq rls sc cv ef d a b => some ((56#6) ++ d ++ a ++ b ++ (1#3) ++ bit1 acq ++ bit1 rls ++ sc.code ++ bit1 cv ++ bit1 ef ++ (0#2))
  | .cpq d a => some ((56#6) ++ d ++ a ++ (512#16))
  | .swm d a => some ((57#6) ++ d ++ a ++ (0#16))
  | .swin d a => some ((57#6) ++ d ++ a ++ (256#16))
  | .semit a b => some ((1824#11) ++ a ++ b ++ (512#11))
  | .sidle a b => some ((1824#11) ++ a ++ b ++ (768#11))
  | .capq d => some ((58#6) ++ d ++ (0#21))
  | .outboundDrain _ _ _ => none
  | .o3Writeback _ => none
  | .multicastReserveForward _ => none
  | .copyCommand _ => none
  | .engineFaultDelivery _ => none
  | .interrupt _ => none
  | .barrierOpen _ _ _ => none
  | .tileGrantWaiter _ => none
  | .walkerEmit _ => none
  | .residencyGranted _ => none
  | .residencyFailed _ _ => none
  | .aging _ => none
  | .stageRecord _ => none
  | .preloadLineLand _ => none
  | .hartStart _ => none
  | .budgetOverrun _ => none
  | .machineFault _ => none
  | .correctedError _ => none
  | .stepRetire _ => none
  | .completionRecordWrite => none
  | .timerDeadline _ => none
  | .pageMoveIn _ _ _ => none
  | .pageMoveOut _ _ => none
  | .extend _ => none
  | .retry => none
  | .kill => none
  | .preempt _ => none
  | .timer => none
  | .bindRecordWrite _ _ => none
  | .routeInstall _ => none
  | .routeRemove _ => none
  | .crngWrite _ _ _ => none
  | .graphEnable _ _ => none
  | .graphDisable _ _ => none
  | .scdataWrite _ => none
  | .lcmd _ => none
  | .tlbInvalidation _ _ => none
  | .registerWrite _ _ => none
  | .launch _ _ _ => none
  | .querySelfTest _ => none
  | .queryCapv _ => none
  | .queryRetirementLog _ _ => none
  | .queryLiveLaunches _ => none
  | .pageToDevice _ _ _ _ => none
  | .pageToHost _ _ _ => none
  | .pageResponse _ _ _ _ => none
  | .streamBindSource _ _ _ => none
  | .streamBindOutput _ _ _ => none
  | .window _ _ _ => none
  | .getVersion _ _ => none
  | .getCapabilities _ _ => none
  | .negotiateAlgorithms _ _ => none
  | .getDigests _ _ => none
  | .getCertificate _ _ => none
  | .challenge _ _ => none
  | .getMeasurements _ _ => none
  | .unsupportedRequest _ _ => none
  | .remoteWrite _ _ _ _ => none
  | .remoteRead _ _ _ _ => none
  | .discardedPacket _ => none
  | .streamRecord _ _ _ _ _ => none
  | .watermarkRecord _ _ _ _ => none
  | .idleTimeout _ _ => none
  | .amenddelayExpiry _ _ => none
  | .outputWatermark _ _ => none
  | .slotReclaim _ => none
  | .stalledRecordDeposit _ _ => none
  | .leaseInterval _ => none
  | .leasePatienceExpiry _ _ => none
  | .drainComplete _ _ => none
  | .patternRunComplete _ _ _ _ => none
  | .pseudoChannelRemap _ => none
  | .scoreHalving => none
  | .powerOn _ => none
  | .thermalStep _ _ => none
  | .energyInterval _ => none
  | .illegalWord _ => none
  | .fetchFault => none
  | .managementCoreStore _ _ => none
  | .ieee1588Sync _ => none

/-- Whether an instruction is one of the 234 words rather than an event. -/
def Instr.isWord (i : Instr) : Bool := (encode i).isSome

end Sys2Proof
end

