-- ==== Sys2Proof/Machine/Mesh.lean ====
section
/-! DEFINITION. The mesh of the mount: routers and links (R11-R15), the routes of unicast flits (R14, R392), and multicast
flits with their reserve (R118, R119, R122). A router is numbered 8·y + x. -/

namespace Sys2Proof.Machine

/-! ## Units and routers (R11, R15) -/

/-- The router of a junction slice (Table 01.4). -/
def junctionRouter (j : Nat) : Nat :=
  let i := j % 8
  match j / 16 with
  | 0 => i
  | 1 => 8 * i + 7
  | 2 => 56 + i
  | _ => 8 * i

/-- The router of a port engine (Table 01.4). -/
def portRouter (p : Nat) : Nat := if p < 4 then 8 * (p + 2) else 8 * (p - 2) + 7

/-- The router of the management core and the migration engine (Table 01.4). -/
def managementRouter : Nat := 16

/-- The router of a producer (R11, Table 01.4). -/
def routerOfProd (p : Nat) : Nat :=
  if p < 256 then p / 4
  else if p < 320 then p - 256
  else if p < 384 then p - 320
  else if p < 448 then junctionRouter (p - 384)
  else if p < 456 then portRouter (p - 448)
  else managementRouter

/-! ## Links (R12, R389, R392) -/

/-- The first member of the pair between (x, y) and (x + 1, y). -/
def linkEast (x y : Nat) : Nat := 2 * (7 * y + x)
/-- The first member of the pair between (x, y) and (x, y + 1). -/
def linkNorth (x y : Nat) : Nat := 112 + 2 * (8 * y + x)

/-- Key of a leased unit: 1024·class + unit (Table 28.1). -/
def unitKey (cls unit : Nat) : Nat := 1024 * cls + unit
def leaseOf (s : State) (cls unit : Nat) : Lease := tgetD s.svc.lease (unitKey cls unit) .inService
/-- A unit is in service only in state IN (R389). -/
def inService (s : State) (cls unit : Nat) : Bool := leaseOf s cls unit == .inService

/-- A pair carries flits while a member is in service (R12, R392). -/
def pairUp (s : State) (link : Nat) : Bool := inService s 2 link || inService s 2 (link + 1)

/-- The pairs of row y between columns x and x'. -/
def rowUp (s : State) (y x x' : Nat) : Bool :=
  (List.range (max x x' - min x x')).all fun d => pairUp s (linkEast (min x x' + d) y)
/-- The pairs of column x between rows y and y'. -/
def columnUp (s : State) (x y y' : Nat) : Bool :=
  (List.range (max y y' - min y y')).all fun d => pairUp s (linkNorth x (min y y' + d))

/-- A unicast flit has a way: the route first along x and then along y, else the one first along y (R14, R392). -/
def routeUp (s : State) (a b : Nat) : Bool :=
  (rowUp s (a / 8) (a % 8) (b % 8) && columnUp s (b % 8) (a / 8) (b / 8)) ||
  (columnUp s (a % 8) (a / 8) (b / 8) && rowUp s (b / 8) (a % 8) (b % 8))

/-- A report to firmware. -/
def report (s : State) (w : List Word) : State := { s with disp := { s.disp with reports := s.disp.reports ++ [w] } }

/-- The report of a routing failure between two routers (R392). (DESIGN CHOICE, log 34.) -/
def routingFailure (a b : Nat) : List Word := [5, BitVec.ofNat 64 a, BitVec.ofNat 64 b]

/-- Reports a routing failure, once while it stands. -/
def reportRoute (s : State) (a b : Nat) : State :=
  if s.disp.reports.getLast? = some (routingFailure a b) then s else report s (routingFailure a b)

/-! ## Multicast flits (R118, R119, R122) -/

def Flit.src : Flit → Nat
  | .notice src _ _ => src
  | .count src _ _ _ => src
  | .sil src _ => src

/-- The router beyond an output port, and the input port at which a flit arrives there. -/
def neighbour (r port : Nat) : Nat × Nat :=
  if port = 1 then (r + 1, 2) else if port = 2 then (r - 1, 1) else if port = 3 then (r + 8, 4) else (r - 8, 3)

/-- The output ports of a flit at a router (R14): a notice or a count runs along the row of its origin and up and down every
column, and leaves at every router; a silhouette takes its one route, and leaves there by the ejection port whatever stands at
the router. (DESIGN CHOICE, log 34.) -/
def meshBranches (f : MeshFlit) : List Nat :=
  let x := f.router % 8
  let y := f.router / 8
  let ox := f.origin % 8
  let oy := f.origin / 8
  match f.flit with
  | .sil _ d =>
    if x < d % 8 then [1] else if d % 8 < x then [2] else if y < d / 8 then [3] else if d / 8 < y then [4] else [0]
  | _ =>
    [0] ++ (if y = oy ∧ ox ≤ x ∧ x < 7 then [1] else []) ++ (if y = oy ∧ x ≤ ox ∧ 0 < x then [2] else []) ++
      (if oy ≤ y ∧ y < 7 then [3] else []) ++ (if y ≤ oy ∧ 0 < y then [4] else [])

/-- The link pair of an output port is in service. -/
def branchUp (s : State) (r port : Nat) : Bool :=
  let x := r % 8
  let y := r / 8
  if port = 1 then pairUp s (linkEast x y) else if port = 2 then pairUp s (linkEast (x - 1) y)
  else if port = 3 then pairUp s (linkNorth x y) else if port = 4 then pairUp s (linkNorth x (y - 1)) else true

/-- A branch has no free input slot downstream at this moment (R118). (DESIGN CHOICE, log 34.) -/
def branchBlocked (s : State) (r port : Nat) : Bool := !branchUp s r port || Config.blocked s.tick (8 * r + port)

/-- The copy that an output port's entry of the multicast reserve holds. -/
def reserveHeld (m : List MeshFlit) (r port : Nat) : Bool := m.any fun f => f.router == r && f.branch == some port

/-- The flits ahead of one in its input buffer. -/
def waitsBehind (f : MeshFlit) (ahead : List MeshFlit) : Bool :=
  ahead.any fun g => g.branch.isNone && g.router == f.router && g.input == f.input

/-- What can move: the flits passed over, the flit, the flits after it. A reserve entry leaves when its branch frees; the
first flit of an input buffer is accepted when every branch is free or has its reserve entry free, and a branch whose entry
is taken is not free, so flits leave each port in the order of acceptance (R118, R119). -/
def meshNext (blocked : Nat → Nat → Bool) : List MeshFlit → List MeshFlit → Option (List MeshFlit × MeshFlit × List MeshFlit)
  | _, [] => none
  | ahead, f :: t =>
    let moves := match f.branch with
      | some port => !blocked f.router port
      | none => !waitsBehind f ahead && (meshBranches f).all fun port => !reserveHeld (ahead ++ f :: t) f.router port
    if moves then some (ahead, f, t) else meshNext blocked (ahead ++ [f]) t

/-- A copy of a flit goes out of a port: to the unit there, or into the next router's input buffer. -/
def leavePort (apply : State → Nat → Flit → State) (f : MeshFlit) (s : State) (port : Nat) : State :=
  if port = 0 then apply s f.router f.flit
  else { s with mesh := s.mesh ++ [{ f with router := (neighbour f.router port).1, input := (neighbour f.router port).2, branch := none }] }

/-- Moves one flit. -/
def meshMove (apply : State → Nat → Flit → State) (blocked : Nat → Nat → Bool) (s : State) : Option State :=
  match meshNext blocked [] s.mesh with
  | none => none
  | some (ahead, f, t) =>
    let s := { s with mesh := ahead ++ t }
    some (match f.branch with
      | some port => leavePort apply f s port
      | none =>
        (meshBranches f).foldl (fun s port =>
          if blocked f.router port then { s with mesh := s.mesh ++ [{ f with branch := some port }] }
          else leavePort apply f s port) s)

/-- Moves flits until none can move; every flit makes fewer than 400 moves. -/
def meshRun (apply : State → Nat → Flit → State) (blocked : Nat → Nat → Bool) : Nat → State → State
  | 0, s => s
  | n + 1, s => match meshMove apply blocked s with
    | some s => meshRun apply blocked n s
    | none => s

end Sys2Proof.Machine
end

