-- ==== Sys2Proof/Machine/Leases.lean ====
section
/-! DEFINITION. The steps and launches the dispatcher knows, clocks (R235) with the moments that no reading passes (R347,
R373, R381, R397), lease states, capacity notices and suspicion scores (R388-R400), which every check fault reaches. -/

namespace Sys2Proof.Machine

/-! ## Steps and launches -/

/-- The step with a handle. -/
def findStep (s : State) (handle : Nat) : Option StepRec := s.disp.steps.find? fun r => r.handle == handle

/-- Replaces the record of a step. -/
def setStep (s : State) (r : StepRec) : State :=
  { s with disp := { s.disp with steps := s.disp.steps.map fun q => if q.handle == r.handle then r else q } }

def findLaunch (s : State) (id : Nat) : Option LaunchRec := s.disp.launches.find? fun l => l.id == id

def setLaunch (s : State) (l : LaunchRec) : State :=
  { s with disp := { s.disp with launches := s.disp.launches.map fun q => if q.id == l.id then l else q } }

/-- A step is retryable while RETRY > 0 and NR = 0 (R79). -/
def StepRec.retryable (r : StepRec) : Bool := r.retries != 0 && !r.nr

/-- The handle of the acting hart's step while it is retryable. -/
def heldBy (s : State) : Option Nat :=
  match findStep s s.hart.steph.toNat with
  | some r => if r.retryable then some r.handle else none
  | none => none

/-- The four cores of a cluster. -/
def coresOf (n : Nat) : List Nat := [4 * n, 4 * n + 1, 4 * n + 2, 4 * n + 3]

/-! ## Device time -/

/-- The next multiple of 2^20 ms that DTIME passes (R397). -/
def nextHalving (t : Word) : Nat := (t.toNat / (2 ^ 20 * 1000000) + 1) * (2 ^ 20 * 1000000)

/-- Bits [lo + n - 1 : lo] of a word. -/
def bits (w : Word) (lo n : Nat) : Nat := (w.extractLsb' lo n).toNat

/-- A tick of a stream graph is 1 µs of device time. -/
def ticksNs (n : Nat) : Nat := 1000 * n

/-- When an active source that sends nothing becomes idle (R373). -/
def Graph.idleAt (g : Graph) (x : Source) : Nat := x.last.toNat + ticksNs (bits g.sgtime 32 32)

/-- When the late list of a window is queued for its age (R381). -/
def Graph.amendAt (g : Graph) (w : Win) : Nat := w.lateAt.toNat + ticksNs (bits g.sgtime 0 32)

/-- The moments that await a graph: idle timeouts and amendment delays. -/
def Graph.moments (g : Graph) : List Nat :=
  if !g.sgcfg.getLsbD 63 then []
  else
    (if bits g.sgtime 32 32 = 0 then [] else
      (List.range (bits g.sgcfg 30 10 + 1)).filterMap fun i =>
        match tget g.sources i with
        | some x => if x.st == .active then some (g.idleAt x) else none
        | none => none) ++
    g.wins.filterMap fun w => if w.state == 2 then some (g.amendAt w) else none

/-- The moments that no reading of DTIME passes before they have been acted on: deadlines of timers (R347), the next halving
of scores (R397), idle timeouts and amendment delays (R373, R381). -/
def moments (s : State) : List Nat :=
  nextHalving s.dtime ::
    (s.disp.steps.filterMap fun r => if r.timer = 0 || r.place == .retiring then none else some r.timer.toNat) ++
    s.mer.graphs.flatMap fun x => x.2.moments

/-- The latest time that a reading may show. -/
def timeLimit (s : State) : Nat := (moments s).foldl (fun t m => min t (m - 1)) (2 ^ 64 - 1)

/-- Reads the device time base: it has advanced by an unstated amount since the last reading, short of every moment that
still awaits its event (R235, R347, R397; DESIGN CHOICE, log 4). -/
def readTime (s : State) : Word × State :=
  let t := min (s.dtime.toNat + Config.elapsed s.tick) (timeLimit s)
  let t := if t < s.dtime.toNat then s.dtime else BitVec.ofNat 64 t
  (t, nextTick { s with dtime := t })

/-- Whether a moment is the next to come: none that awaits its event lies before it, and a halving of the same instant comes
first (R397). -/
def momentComes (s : State) (t : Nat) : Bool :=
  ((moments s).all fun m => t ≤ m || m ≤ s.dtime.toNat) && (t ≤ s.dtime.toNat || t < nextHalving s.dtime)

/-- Moves the time base up to a moment that an event says has come. -/
def timeReaches (s : State) (t : Word) : State := if s.dtime.toNat < t.toNat then { s with dtime := t } else s

/-! ## Units and lease states -/

def unitsOf (cls : Nat) : Nat := if cls = 0 then 256 else if cls = 1 then 64 else if cls = 2 then 224 else 512
/-- Most units of a class leased at once (Table 28.1). -/
def leaseLimit (cls : Nat) : Nat := if cls = 0 then 4 else if cls = 1 then 2 else if cls = 2 then 8 else 16
/-- Units of a class in service. -/
def serviceCount (s : State) (cls : Nat) : Nat :=
  unitsOf cls - (s.svc.lease.filter fun kl => kl.1 / 1024 == cls && kl.2 != .inService).length

/-- CAPV (Table 28.6). -/
def capv (s : State) : Word :=
  s.svc.gen.setWidth 64 <<< 48 ||| BitVec.ofNat 64 (serviceCount s 3) <<< 38 ||| BitVec.ofNat 64 (serviceCount s 2) <<< 30 |||
    BitVec.ofNat 64 (serviceCount s 1) <<< 23 ||| BitVec.ofNat 64 (serviceCount s 0) <<< 14

/-! ## Notices (R341, R400) -/

/-- A notice word (Table 21.10), without LOST. -/
def noticeWord (kind cls unit : Nat) (t : Word) : Word :=
  BitVec.ofNat 64 kind <<< 60 ||| BitVec.ofNat 64 cls <<< 58 ||| BitVec.ofNat 64 unit <<< 38 ||| (t.extractLsb' 0 38).setWidth 64

/-- A notice arrives at a hart (R341). -/
def pushNotice (w : Word) (h : Hart) : Hart :=
  if h.notices.length < 16 then
    { h with notices := h.notices ++ [if h.lost then w ||| (1 : Word) <<< 57 else w], lost := false }
  else { h with lost := true }

/-- The slots whose hart is RUNNING. -/
def runningSlots (s : State) : List Nat := (s.slots.filter fun kx => kx.2.st == .running).map (·.1)

/-- KIND 1 to 3 go to every hart whose step is RUNNING and that has not executed `tdone` (R400). -/
def noticeAll (s : State) (kind cls unit : Nat) (t : Word) : State :=
  (runningSlots s).foldl (fun s k =>
    let h := hartAt s k
    if h.tdone.isSome then s else setHart s k (pushNotice (noticeWord kind cls unit t) h)) s

/-- A lease state changes at a time, with CAPV.GEN and the notices (R399, R400). -/
def setLeaseAt (s : State) (cls unit : Nat) (l : Lease) (now : Word) : State :=
  let old := leaseOf s cls unit
  let t := if l = .inService then tdel s.svc.lease (unitKey cls unit) else tput s.svc.lease (unitKey cls unit) l
  let changes := (old == .inService) != (l == .inService)
  let s := { s with svc := { s.svc with lease := t, gen := if changes then s.svc.gen + 1 else s.svc.gen } }
  if l = .retired && old ≠ .retired then noticeAll s 3 cls unit now
  else if cls < 2 && old = .inService && l ≠ .inService then noticeAll s 1 cls unit now
  else if cls < 2 && old ≠ .inService && l = .inService then noticeAll s 2 cls unit now
  else s

/-- A lease state changes now. -/
def setLease (s : State) (cls unit : Nat) (l : Lease) : State :=
  let (t, s) := readTime s
  setLeaseAt s cls unit l t

/-! ## Starting a lease (R388, R390) -/

/-- The step a slot's record names. -/
def slotHandle (x : Slot) : Nat := ((x.rcd.getD 0 0).extractLsb' 0 32).toNat

/-- The slot's record waits for its hart to start. -/
def Slot.waits (x : Slot) : Bool := x.st == .staging || x.st == .staged

/-- The records of a step whose harts have not started leave their bind queues and slots, on the cores that satisfy a test. -/
def dropBound (s : State) (handle : Nat) (on : Nat → Bool) : State :=
  { s with
    cores := List.map (fun x : Nat × CoreSt =>
      (x.1, if on x.1 then { x.2 with bindq := x.2.bindq.filter (· != handle) } else x.2)) s.cores
    disp := { s.disp with fronts := s.disp.fronts.filter fun x => !(on x.1 && x.2 == handle) }
    slots := s.slots.filter fun kx => !(on (coreOfSlot kx.1) && kx.2.waits && slotHandle kx.2 == handle) }

/-- A step's unstaged and staged records go back to the step queues, keeping its age (R390). -/
def unbindStep (s : State) (handle : Nat) : State :=
  match findStep s handle with
  | some r => if r.place = .bound then setStep (dropBound s handle fun _ => true) { r with place := .queued, recs := [] } else s
  | none => s

/-- A step's record on a core goes back: that of a member whose hart has not started while others run (R72), else the step's
whole binding. (DESIGN CHOICE, log 26.) -/
def unbindAt (c : Nat) (s : State) (handle : Nat) : State :=
  match findStep s handle with
  | some r =>
    if r.place = .running then setStep (dropBound s handle (· == c)) { r with recs := tdel r.recs c } else unbindStep s handle
  | none => s

/-- Gangs of a size that the cores in service of the whole device can hold (R92). -/
def gangRoom (s : State) (gsize : Nat) : Nat :=
  (List.range 64).foldl (fun t n => t + ((coresOf n).filter fun c => inService s 0 c).length / gsize) 0

/-- A team fits (R92). -/
def teamFits (s : State) (gsize tgm1 : Nat) : Bool := gangRoom s gsize ≥ tgm1 + 1

/-- The gang size and TGM1 of a record (Table 04.3). -/
def rcdGsize (r : BindRec) : Nat := ((List.range 4).filter fun i => (r.getD 7 0).getLsbD (32 + i)).length
def rcdTgm1 (r : BindRec) : Nat := bits (r.getD 7 0) 42 6
def rcdTeam (r : BindRec) : Nat := bits (r.getD 7 0) 48 16

/-- The record is of a team that does not fit now (R92). Firmware fills TEAM and TGM1 from the launch block (R71); where they
differ from it, those of the record count. (DESIGN CHOICE, log 26.) -/
def rcdTooWide (s : State) (r : BindRec) : Bool := rcdTeam r != 0 && !teamFits s (rcdGsize r) (rcdTgm1 r)

/-- The unstaged records of teams that no longer fit go back to the step queues (R92). -/
def unbindTeams (s : State) : State :=
  s.disp.steps.foldl (fun s r =>
    if r.recs.any (fun x => rcdTooWide s x.2) && !s.slots.any (fun kx => kx.2.st != .empty && slotHandle kx.2 == r.handle) then
      unbindStep s r.handle
    else s) s

/-- Every record bound to a core and not running goes back (R390). -/
def unbindCore (s : State) (c : Nat) : State :=
  let staged := ((slotsOfCore c).filter fun k => (slotAt s k).waits).map fun k => slotHandle (slotAt s k)
  (staged ++ (coreAt s c).bindq).foldl (unbindAt c) s

/-- KIND 4 to every hart of the team that holds a core's running step (R390). -/
def noticeTeam (s : State) (c : Nat) (t : Word) : State :=
  match runningSlot s c with
  | some k =>
    let handle := slotHandle (slotAt s k)
    let team := ((slotAt s k).rcd.getD 7 0).extractLsb' 48 16
    if team = 0 then s
    else
      ((runningSlots s).filter fun j => slotHandle (slotAt s j) == handle).foldl
        (fun s j => setHart s j (pushNotice (noticeWord 4 0 c t) (hartAt s j))) s
  | none => s

/-- A lease starts: the unit enters DRAIN (R388-R393). The KIND 4 notices are queued before the KIND 1 notices, all of one
instant (R404). `now` takes the patience as 0 (R398). In the safe talkative state nothing is leased (R417). -/
def startLease (s : State) (cls unit : Nat) (now : Bool) : State :=
  if leaseOf s cls unit ≠ .inService || unit ≥ unitsOf cls || s.ports.talkative then s
  else
    let (t, s) := readTime s
    let s := if cls = 0 then noticeTeam s unit t else s
    let s := setLeaseAt s cls unit .drain t
    let s := if cls = 0 then unbindTeams (unbindCore s unit) else s
    let s := { s with svc := { s.svc with
      early := s.svc.early.filter (· != (cls, unit))
      quarantined := if cls = 0 then s.svc.quarantined.filter (· != unit) else s.svc.quarantined } }
    if now then { s with agenda := .expire (BitVec.ofNat 2 cls) unit :: s.agenda } else s

/-- Units of a class in DRAIN or LEASED. -/
def leasedCount (s : State) (cls : Nat) : Nat :=
  (s.svc.lease.filter fun kl => kl.1 / 1024 == cls && (kl.2 == .drain || kl.2 == .leased)).length

def busyLease (s : State) (cls unit : Nat) : Bool :=
  leaseOf s cls unit == .drain || leaseOf s cls unit == .leased

/-- Whether the class limits allow a unit's lease to start (R388). -/
def limitsAllow (s : State) (cls unit : Nat) : Bool :=
  leasedCount s cls < leaseLimit cls &&
  (if cls = 0 then (coresOf (unit / 4)).all fun c => !busyLease s 0 c
   else if cls = 2 then
    -- both members of a pair are never leased at once
    !busyLease s 2 (unit / 2 * 2) && !busyLease s 2 (unit / 2 * 2 + 1)
   else true)

/-- Brings a unit's next lease forward (R398). -/
def addEarly (s : State) (cls unit : Nat) : State :=
  if leaseOf s cls unit ≠ .inService || s.svc.early.contains (cls, unit) || s.ports.talkative then s
  else { s with svc := { s.svc with early := s.svc.early ++ [(cls, unit)] } }

/-- Once no core of its cluster is under lease, the next core that waits there for a quarantine lease starts at once: they go
one at a time (R398, Table 28.5). (DEDUCED, log 33.) -/
def nextQuarantine (s : State) (cls unit : Nat) : State :=
  if cls ≠ 0 || (coresOf (unit / 4)).any (busyLease s 0) then s
  else match s.svc.quarantined.find? fun c => c / 4 == unit / 4 && leaseOf s 0 c == .inService with
    | some c => startLease s 0 c true
    | none => s

/-! ## Scores (R396-R398) -/

/-- The leased units that a score index stands for (Table 28.5). -/
def unitsOfScore (ix : Nat) : List (Nat × Nat) :=
  if ix < 256 then [(0, ix)]
  else if ix < 320 then [(1, ix - 256)]
  else if ix < 384 then (coresOf (ix - 320)).map fun c => (0, c)
  else if ix < 448 then (List.range 8).map fun i => (3, 8 * (ix - 384) + i)
  else if ix < 512 then []
  else if ix < 576 then (coresOf (ix - 512)).map fun c => (0, c)
  else if ix < 640 then (coresOf (ix - 576)).map fun c => (0, c)
  else if ix < 864 then [(2, ix - 640)]
  else if ix < 1376 then [(3, ix - 864)]
  else []

/-- Units leased one at a time: cores that stand for another unit. -/
def oneAtATime (ix : Nat) : Bool := (320 ≤ ix && ix < 384) || (512 ≤ ix && ix < 640)

/-- After a change the score is compared with the two thresholds (R398). (DEDUCED, log 33.) -/
def applyThresholds (s : State) (ix old new : Nat) : State :=
  let us := unitsOfScore ix
  let s := if (old < 256 && 256 ≤ new) || (old < 1024 && 1024 ≤ new) then
      report s [BitVec.ofNat 64 ix, BitVec.ofNat 64 new] else s
  if new ≥ 1024 then
    if oneAtATime ix then
      let wait := (us.filter fun u => leaseOf s u.1 u.2 == .inService).map (·.2)
      let s := { s with svc := { s.svc with
        quarantined := s.svc.quarantined ++ wait.filter fun c => !s.svc.quarantined.contains c } }
      nextQuarantine s 0 (us.headD (0, 0)).2
    else us.foldl (fun s u => startLease s u.1 u.2 true) s
  else if new ≥ 256 then us.foldl (fun s u => addEarly s u.1 u.2) s
  else s

/-- Sets a score, then applies R398. -/
def setScore (s : State) (ix new : Nat) : State :=
  let old := tgetD s.svc.scores ix 0
  let t := if new = 0 then tdel s.svc.scores ix else tput s.svc.scores ix new
  applyThresholds { s with svc := { s.svc with scores := t } } ix old new

/-- A score rises, saturating at 65,535 (R396); unused indices stay 0. -/
def addScore (s : State) (ix n : Nat) : State :=
  if ix < 512 && !prodExists ix then s
  else setScore s ix (min 65535 (tgetD s.svc.scores ix 0 + n))

/-- The rises of one check fault (R170), by score index: PROD by 64, each unit named by a valid PATH field by 16, and the
consuming core by 16 when SRC is 0, 5, 6 or 7. -/
def checkRises (core : Option Nat) (prod : Nat) (path : Word) : List (Nat × Nat) :=
  let named := fun (valid ix : Nat) => if path.getLsbD valid then [(ix, 16)] else ([] : List (Nat × Nat))
  let src := bits path 61 3
  let near := src = 0 || src = 5 || src = 6 || src = 7
  [(prod, 64)] ++ named 59 (512 + bits path 50 6) ++ named 58 (576 + bits path 44 6) ++ named 57 (384 + bits path 38 6) ++
    named 56 (864 + bits path 29 9) ++ (match core with | some c => if near then [(c, 16)] else [] | none => [])

/-- The scores rise for a check fault, one index after another. -/
def scoreCheck (s : State) (core : Option Nat) (prod : Nat) (path : Word) : State :=
  (checkRises core prod path).foldl (fun s r => addScore s r.1 r.2) s

end Sys2Proof.Machine
end

