-- ==== Sys2Proof/Machine/Hier.lean ====
section
/-! DEFINITION. The inbound and outbound hierarchies (R94-R96, R424): lookups and fills, placeholders (R154), formation in
the outbound levels, drains to the home junction (R95), visibility (R101-R103), notices and published counts (R107, R118,
R119, R131), silhouettes (R129, R130) and held granules (R79, R80). Every level keeps to its size (Table 06.1). -/

namespace Sys2Proof.Machine

/-! ## Banks -/

/-- The role of a bank: 0 off, 1 I1, 2 scratchpad (Table 04.3). -/
def bankRole (w : Word) (b : Nat) : Nat := (w.extractLsb' (2 * b) 2).toNat
def hasI1 (c : CoreSt) : Bool := (List.range 32).any fun b => bankRole c.bankrole b == 1
/-- The scratchpad banks in ascending order (R268). -/
def spBanks (w : Word) : List Nat := (List.range 32).filter fun b => bankRole w b == 2

/-! ## Relation and visibility -/

/-- Who reads (Table 06.4). -/
inductive Reader where
  | core (c : Nat)
  | cluster (n : Nat)
  /-- Dispatcher, management core, walkers, and instruction fetch (R200). -/
  | far
  /-- Port engines and the migration engine (relation 4). -/
  | port
  deriving DecidableEq, Repr

/-- Relation of a reader to a producer (Table 06.4). -/
def relation (r : Reader) (prod : Nat) : Nat :=
  match r with
  | .core c => if prod = c then 1 else if clusterOfProd prod = some (clusterOfCore c) then 2 else 3
  | .cluster n => if clusterOfProd prod = some n then 2 else 3
  | .far => 3
  | .port => 4

/-- Replicas of the published counts are numbered: 0-63 a cluster's, 64-71 a port engine's, which holds PCNT4 alone (R131). -/
def portReplica (port : Nat) : Nat := 64 + port

/-- `pcnt(p, k)` at a replica (R103, R131). A reader for which the spec names none (the dispatcher, the walks that no cluster
makes, the management core) takes the producer's own count, as it was published last. (DESIGN CHOICE, log 34.) -/
def pcnt (s : State) (replica : Option Nat) (p k : Nat) : BitVec 16 :=
  let c := countsAt s p
  let now := if k = 1 then c.p1 else if k = 2 then c.p2 else if k = 3 then c.p3 else c.p4
  match replica with
  | some n =>
    if n ≥ 64 then (if k = 4 then tgetD s.ports.stale (512 * (n - 64) + p) now else now)
    else if k ≥ 3 then tgetD (clusterAt s n).stale (8 * p + k) now else now
  | none => now

/-- `visible` (R103). -/
def visible (s : State) (cluster : Option Nat) (g : Granule) (k : Nat) : Bool :=
  if g.level ≥ k then true
  else if g.prod ≥ 384 then false
  else (pcnt s cluster g.prod k - g.rc).toNat < 32768

/-! ## PATH (Table 10.2) -/

/-- JUNC, PCH and COMP of a granule met at its home junction. (DESIGN CHOICE, log 37.) -/
def tagJunction (s : State) (gran : Nat) : Word :=
  let h := homeOf s gran
  let comp := if (tget s.o3 gran).isSome then false else Config.compressed s.tick gran
  (BitVec.ofBool comp).setWidth 64 <<< 60 ||| (0x03 : Word) <<< 56 |||
    BitVec.ofNat 64 h.1 <<< 38 ||| BitVec.ofNat 64 h.2 <<< 29
def tagI3 (t : Word) (gran : Nat) : Word := t ||| (1 : Word) <<< 58 ||| BitVec.ofNat 64 (i3SliceOf gran) <<< 44
def tagI2 (t : Word) (cluster : Nat) : Word :=
  (t &&& ~~~((0x3F : Word) <<< 50)) ||| (1 : Word) <<< 59 ||| BitVec.ofNat 64 cluster <<< 50
/-- PATH from SRC, the provenance and KIND. -/
def pathWord (src : Nat) (tag : Word) (kind : Nat) : Word :=
  BitVec.ofNat 64 src <<< 61 ||| tag ||| BitVec.ofNat 64 kind <<< 26

/-! ## Inbound tables -/

/-- The two granules of a granule's line. -/
def lineOf (gran : Nat) : List Nat := [gran / 2 * 2, gran / 2 * 2 + 1]

/-- A copy that fills may evict and invalidations remove (R154). -/
def Copy.ordinary (c : Copy) : Bool := !c.ph && c.pin == 0

def sameLine (gran k : Nat) : Bool := k / 2 == gran / 2

/-- The other granule of a line. -/
def partner (gran : Nat) : Nat := if gran % 2 = 0 then gran + 1 else gran - 1

/-- Lines that an inbound level holds: it holds whole lines (R94). -/
def lineCount (t : Tbl Copy) : Nat := t.length / 2

/-- Every copy of a granule's line that a level holds is ordinary. -/
def evictable (t : Tbl Copy) (gran : Nat) : Bool :=
  (lineOf gran).all fun k => match tget t k with | some c => c.ordinary | none => true

/-- A fill of a whole line into a level of `cap` lines: lines of ordinary copies may be evicted, and a line that is not
there is kept where a way is found for it, if the level keeps it (R94, R154). (DESIGN CHOICE, log 6.) -/
def fillTbl (tick cap : Nat) (t : Tbl Copy) (new : List (Nat × Copy)) : Tbl Copy :=
  let t := t.filter fun kc => !evictable t kc.1 || Config.keepsCopy tick (kc.1 / 2)
  if new.any (fun kc => (tget t kc.1).isSome) || lineCount t ≥ cap ||
      new.all (fun kc => kc.2.ordinary && !Config.keepsCopy tick (kc.1 / 2)) then t
  else new.foldl (fun t kc => tput t kc.1 kc.2) t

/-- Removes the ordinary copies whose granules satisfy a test. (DEDUCED, log 15.) -/
def invTbl (t : Tbl Copy) (p : Nat → Bool) : Tbl Copy := t.filter fun kc => !(kc.2.ordinary && p kc.1)

/-- Makes lines whole again after removals (R94): what is left of a line goes with it when it is ordinary; a copy that stays
has its line's other granule brought in from the next level (DEDUCED, log 15), within the act, whatever links are in service
(DESIGN CHOICE, log 15). -/
def wholeLines (next : Nat → Copy) (t : Tbl Copy) : Tbl Copy :=
  t.foldl (fun r kc =>
    match tget t kc.1 with
    | some c =>
      if (tget t (partner kc.1)).isSome then r
      else if c.ordinary then tdel r kc.1
      else tput r (partner kc.1) (next (partner kc.1))
    | none => r) t

/-- Drops every stash entry with a granule that satisfies a test (R305). -/
def dropStash (c : ClusterSt) (p : Nat → Bool) : ClusterSt :=
  { c with stash := c.stash.filter fun e => !e.grans.any fun kc => p kc.1 }

/-- Whether an event invalidated or replaced a copy of a granule's line. -/
def lineChanged (old new : Tbl Copy) (gran : Nat) : Bool :=
  (lineOf gran).any fun k => (tget old k).isSome && tget old k != tget new k

/-! ## The home junction -/

/-- The granule as it stands at its home junction, and 3 for O3 or 4 for HBM (R96). -/
def junctionGranule (s : State) (gran : Nat) : Granule × Nat :=
  match tget s.o3 gran with
  | some e => (e.g, 3)
  | none => (hbmGranule s gran, 4)

/-! ## Lookups (R96, R424) -/

/-- A copy a reader finds: the copy, SRC, and the provenance of PATH. -/
structure Found where
  c : Copy
  src : Nat
  tag : Word
  deriving DecidableEq, Repr

/-- A copy as it comes from where its granule's home is. -/
def homeCopy (g : Granule) (tag : Word) : Copy := ⟨g, false, 0, tag, 0⟩

/-- At the home junction. -/
def peekJ (s : State) (gran : Nat) : Found :=
  let r := junctionGranule s gran
  ⟨homeCopy r.1 (tagJunction s gran), r.2, tagJunction s gran⟩

/-- In the home I3 slice, then at the junction. -/
def peekI3 (s : State) (gran : Nat) : Found :=
  match tget s.i3 gran with
  | some c => ⟨c, 2, c.tag⟩
  | none => let f := peekJ s gran; { f with tag := tagI3 f.tag gran }

/-- In a cluster's I2, then outward. -/
def peekI2 (s : State) (n gran : Nat) : Found :=
  match tget (clusterAt s n).i2 gran with
  | some c => ⟨c, 1, c.tag⟩
  | none => let f := peekI3 s gran; { f with tag := tagI2 f.tag n }

/-- In a core's I1, then outward. -/
def peekI1 (s : State) (core gran : Nat) : Found :=
  match tget (coreAt s core).i1 gran with
  | some c => ⟨c, 0, c.tag⟩
  | none => peekI2 s (clusterOfCore core) gran

/-- The copy as a fill brings it into the next level inward: one that stands in I2 for an outbound entry is known by its place in
the order there too, for the discard of that entry (R154). -/
def inward (f : Found) : Copy :=
  { f.c with pin := if f.c.ph then f.c.pin else if f.c.pin == 1 then 1 else 0, tag := f.tag }

/-- Lines of the I1 banks, of an I2, of an I3 slice (Tables 01.1, 01.2, R11). -/
def i1Lines (c : CoreSt) : Nat := 64 * ((List.range 32).filter fun b => bankRole c.bankrole b == 1).length
def i2Lines : Nat := 32768
def i3Lines : Nat := 16384

/-- The part of the I3 level that one slice holds. -/
def i3Slice (t : Tbl Copy) (j : Nat) : Tbl Copy := t.filter fun kc => i3SliceOf kc.1 == j

/-- Sets a cluster's I2, its lines made whole, dropping the stash entries of every line whose copy went (R94, R305). -/
def setI2 (s : State) (n : Nat) (t : Tbl Copy) : State :=
  let k := clusterAt s n
  let t := wholeLines (fun g => let f := peekI3 s g; inward { f with tag := tagI2 f.tag n }) t
  setCluster s n (dropStash { k with i2 := t } (lineChanged k.i2 t))

/-- Sets a core's I1, its lines made whole. -/
def setI1 (s : State) (core : Nat) (t : Tbl Copy) : State :=
  setCore s core { coreAt s core with i1 := wholeLines (fun g => inward (peekI2 s (clusterOfCore core) g)) t }

/-- A miss in I3 brings the line in, into its home slice (R22). -/
def fillI3 (s : State) (gran : Nat) : State :=
  if (tget s.i3 gran).isSome then s
  else
    let j := i3SliceOf gran
    let slice := fillTbl s.tick i3Lines (i3Slice s.i3 j) ((lineOf gran).map fun k => (k, inward (peekI3 s k)))
    nextTick { s with i3 := slice.foldl (fun t kc => tput t kc.1 kc.2) (s.i3.filter fun kc => i3SliceOf kc.1 != j) }

/-- A miss in I2 brings the line in, through I3; an eviction drops stash entries (R305). -/
def fillI2 (s : State) (n gran : Nat) : State :=
  if (tget (clusterAt s n).i2 gran).isSome then s
  else
    let s := fillI3 s gran
    nextTick (setI2 s n (fillTbl s.tick i2Lines (clusterAt s n).i2 ((lineOf gran).map fun j => (j, inward (peekI2 s n j)))))

/-- A miss in I1 brings the line in, through I2. -/
def fillI1 (s : State) (core gran : Nat) : State :=
  if (tget (coreAt s core).i1 gran).isSome then s
  else
    let s := fillI2 s (clusterOfCore core) gran
    let c := coreAt s core
    if hasI1 c then
      nextTick (setI1 s core (fillTbl s.tick (i1Lines c) c.i1 ((lineOf gran).map fun j => (j, inward (peekI1 s core j)))))
    else s

/-! ## Invalidation -/

/-- Invalidates ordinary copies in a core's I1. -/
def invI1 (s : State) (core : Nat) (p : Nat → Bool) : State := setI1 s core (invTbl (coreAt s core).i1 p)

/-- Invalidates ordinary copies in a cluster's I2, with the tile stash (R305). -/
def invI2 (s : State) (n : Nat) (p : Nat → Bool) : State :=
  let s := setI2 s n (invTbl (clusterAt s n).i2 p)
  setCluster s n (dropStash (clusterAt s n) p)

/-- Invalidates ordinary copies in every I1 and in the I2 of a cluster. -/
def invCluster (s : State) (n : Nat) (p : Nat → Bool) : State :=
  (coresOf n).foldl (fun s c => invI1 s c p) (invI2 s n p)

/-- Removes every copy of one granule from the I1s of a cluster; the I2, from which a line is made whole, has changed before. -/
def dropI1s (s : State) (n gran : Nat) : State :=
  (coresOf n).foldl (fun s c => setI1 s c (tdel (coreAt s c).i1 gran)) s

/-! ## The home junction: arrivals and writebacks -/

/-- Replaces the home I3 slice's copy of the line, if it holds one, with the line as it stands at the junction (R95). -/
def refreshI3 (s : State) (gran : Nat) : State :=
  if (lineOf gran).any fun k => (tget s.i3 k).isSome then
    { s with i3 := (lineOf gran).foldl (fun t k =>
        tput t k (homeCopy (junctionGranule s k).1 (tagI3 (tagJunction s k) k))) s.i3 }
  else s

/-- The entry of a table that was formed first. -/
def oldestEntry : List (Nat × OutEntry) → Option (Nat × OutEntry)
  | [] => none
  | x :: t => match oldestEntry t with
    | some y => some (if y.2.seq < x.2.seq then y else x)
    | none => some x

/-- The junction moves an O3 entry on into HBM (R95). -/
def writeBack (s : State) (gran : Nat) : State :=
  match tget s.o3 gran with
  | some e => setHbm { s with o3 := tdel s.o3 gran, hbmSeq := tput s.hbmSeq gran e.seq } gran e.g
  | none => s

/-- Granules of O3 in a junction slice (R18: 1 MiB). -/
def o3Room : Nat := 16384

/-- Makes room in the O3 of a granule's junction slice: the entry formed first moves on (R95). (DESIGN CHOICE, log 6.) -/
def roomO3 (s : State) (gran : Nat) : State :=
  let mine := s.o3.filter fun x => junctionOf s x.1 == junctionOf s gran
  if (tget s.o3 gran).isSome || mine.length < o3Room then s
  else match oldestEntry mine with
    | some x => writeBack s x.1
    | none => s

/-- A granule formed at a place in the order arrives in O3 (R95). -/
def putO3At (s : State) (gran : Nat) (g : Granule) (seq : Nat) : State :=
  let s := roomO3 s gran
  refreshI3 { s with o3 := tput s.o3 gran ⟨g, none, seq, false, false, 0, seq⟩ } gran

/-- A granule formed now arrives in O3 (R95). -/
def putO3 (s : State) (gran : Nat) (g : Granule) : State := putO3At s gran g s.disp.seq

/-- The place in the order of formation of the granule that the home junction has. -/
def homeSeq (s : State) (gran : Nat) : Nat :=
  match tget s.o3 gran with
  | some e => e.seq
  | none => tgetD s.hbmSeq gran 0

/-- Switches a granule at its home junction to LEVEL := max(LEVEL, l), in O3 or in HBM metadata (R107, R108). -/
def raiseAtJunction (s : State) (gran l : Nat) : State :=
  match tget s.o3 gran with
  | some e => refreshI3 { s with o3 := tput s.o3 gran { e with g := e.g.raiseLevel l } } gran
  | none => refreshI3 (setHbm s gran ((hbmGranule s gran).raiseLevel l)) gran

/-- A copy that an outbound entry left inward: its placeholder, one of an earlier store that it combines, or a copy placed from
it (R79, R154). -/
def Copy.leftBy (c : Copy) (e : OutEntry) : Bool := c.g.prod == e.g.prod && e.first ≤ c.seq && c.seq ≤ e.seq && c.seq != 0

/-- The entries of a cluster's outbound levels for a granule, its core's O1s first. -/
def outboundOf (s : State) (n gran : Nat) : List OutEntry :=
  let k := clusterAt s n
  ((coresOf n).filterMap fun c => tget (coreAt s c).o1 gran) ++ (tget k.o2 gran).toList ++
    (k.o2held.filter fun x => x.1 == gran).map (·.2)

/-- When a granule has reached its home junction, its cluster removes the placeholder, or the level-1 copy that stands in
its place, from I2 and every I1; other held copies of it become ordinary (R154). What another entry has taken the place of is
gone with it: only the copies of entries that still wait, `es`, stay held. -/
def settleTbl (t : Tbl Copy) (gran : Nat) (es : List OutEntry) : Tbl Copy :=
  match tget t gran with
  | some c =>
    if c.seq = 0 || es.any c.leftBy then t
    else if c.ph || c.pin == 1 then tdel t gran
    else tput t gran { c with pin := 0, seq := 0 }
  | none => t

/-- The cluster of a granule that has reached its home junction. Copies of a SELF granule older than it leave the I2, so
that its core finds it there or at its home (R116; DEDUCED, log 15). Where entries of two cores wait for one granule, the I2 has
one placeholder for it, that of the later store; the earlier one's does not stand again when the later has gone home.
(DESIGN CHOICE, log 15.) -/
def settle (s : State) (n gran : Nat) (e : OutEntry) : State :=
  let es := outboundOf s n gran
  let t := settleTbl (clusterAt s n).i2 gran es
  let s := setI2 s n (if e.self then invTbl t (sameLine gran) else t)
  (coresOf n).foldl (fun s c => setI1 s c (settleTbl (coreAt s c).i1 gran es)) s

/-! ## Check faults outside a hart (R168, R170) -/

/-- The 64-byte record of a fault that no hart takes: the cause, the physical address and the cause words (R167, R168). -/
def unitRecord (cause : BitVec 6) (pa : Nat) (ws : List Word) : List Word :=
  [cause.setWidth 64, 0, BitVec.ofNat 64 pa, ws.getD 0 0, ws.getD 1 0, ws.getD 2 0, ws.getD 3 0, ws.getD 4 0]

/-- A granule fails its check outside any hart: the record goes to firmware and the scores rise. -/
def reportCheck (s : State) (core : Option Nat) (gran : Nat) (g : Granule) (path : Word) : State :=
  let s := report s (unitRecord 0x08 (64 * gran) [g.chk.setWidth 64 <<< 32 ||| g.computed.setWidth 64, path, BitVec.ofNat 64 g.prod])
  scoreCheck s core g.prod path

/-- A fault that a unit outside the harts meets: its record goes to firmware, with a physical address, and its scores rise
(R168, R170). -/
def reportFault (s : State) (core : Option Nat) (pa : Nat) (t : TrapInfo) : State :=
  let s := report s (unitRecord t.cause pa t.words)
  match t.score with
  | some (prod, path) => scoreCheck s core prod path
  | none => s

/-! ## Remote windows (R27) -/

/-- The port bound to a window. -/
def portOfWindow (s : State) (w : Nat) : Option Nat := (tget s.ports.windows w).map (·.1)

/-- Delivers a buffered granule of a remote window to the endpoint, after its check (R27, R167). One that fails is recorded
and scored, is not sent, and stays in the buffer as it is (R168-R170; DESIGN CHOICE, log 8). -/
def deliverRemote (s : State) (gran : Nat) : State :=
  match tget s.ports.buffer gran with
  | some e =>
    if e.g.verifies then
      { s with ports := { s.ports with buffer := tdel s.ports.buffer gran,
                                       delivered := s.ports.delivered ++ [(gran, e.g.data)] } }
    else reportCheck s none gran e.g (pathWord 3 0 (e.g.badKind.getD 0))
  | none => s

/-- Granules of a port engine's outbound buffer (R27: 1 MiB). -/
def bufferRoom : Nat := 16384

/-- What the buffer of a granule's port engine holds. -/
def bufferOf (s : State) (gran : Nat) : List (Nat × OutEntry) :=
  s.ports.buffer.filter fun x => portOfWindow s (windowOf x.1) == portOfWindow s (windowOf gran)

/-- A port engine's buffer has a place for a granule: its own, or room. -/
def bufferFits (s : State) (gran : Nat) : Bool := (tget s.ports.buffer gran).isSome || (bufferOf s gran).length < bufferRoom

/-- A port engine's buffer makes room: the entry formed first of those that verify is delivered to the endpoint (R27).
(DESIGN CHOICE, log 6.) -/
def roomBuffer (s : State) (gran : Nat) : State :=
  if bufferFits s gran then s
  else match oldestEntry ((bufferOf s gran).filter fun x => x.2.g.verifies) with
    | some x => deliverRemote s x.1
    | none => s

/-- A port engine's buffer has, or can make, a place for a granule; where all that it holds fails its check, none leaves. -/
def bufferTakes (s : State) (gran : Nat) : Bool := bufferFits s gran || (bufferOf s gran).any fun x => x.2.g.verifies

/-! ## Drains (R95, R117, R154) -/

/-- The router of the unit that stands at an address's home: the junction slice, or the bound port (R15, R27). -/
def homeRouter (s : State) (gran : Nat) : Nat :=
  if windowOf gran = 0 then junctionRouter (junctionOf s gran)
  else portRouter ((portOfWindow s (windowOf gran)).getD 0)

/-! ## Ways through the mesh (R14, R392) -/

/-- The routers between which a read of cluster `n` travels to where it finds its granule: to the home I3 slice for SRC 2, and
on to the home for SRC 3 and 4; straight to the home when it bypasses I3 or the home is a port. -/
def readLegs (s : State) (n gran src : Nat) (direct : Bool) : List (Nat × Nat) :=
  if windowOf gran != 0 || direct then [(n, homeRouter s gran)]
  else if src = 2 then [(n, i3SliceOf gran)]
  else if src = 3 || src = 4 then [(n, i3SliceOf gran), (i3SliceOf gran, homeRouter s gran)]
  else []

/-- The leg of a read that has no way now (R392). -/
def noWay (s : State) (n gran src : Nat) (direct : Bool) : Option (Nat × Nat) :=
  (readLegs s n gran src direct).find? fun l => !routeUp s l.1 l.2

/-- The leg from a router to the home of a granule, where it has no way now (R392). -/
def legFrom (s : State) (router : Option Nat) (gran : Nat) : Option (Nat × Nat) :=
  match router with
  | some r => if routeUp s r (homeRouter s gran) then none else some (r, homeRouter s gran)
  | none => none

/-- The leg from a junction to the home I3 slice of a granule's line, whose copy it replaces when the granule arrives (R95), where
it has no way now (R392). -/
def refreshLeg (s : State) (gran : Nat) : Option (Nat × Nat) :=
  if windowOf gran = 0 && ((lineOf gran).any fun k => (tget s.i3 k).isSome) && !routeUp s (homeRouter s gran) (i3SliceOf gran) then
    some (homeRouter s gran, i3SliceOf gran)
  else none

/-- The leg of a write from a router to a granule's home, and on to the I3 copy that the junction replaces, that has no way now
(R95, R392). -/
def writeLeg (s : State) (router : Option Nat) (gran : Nat) : Option (Nat × Nat) :=
  match legFrom s router gran with
  | some l => some l
  | none => refreshLeg s gran

/-- The leg of the fill that a cluster's I2 needs before it can hold a copy of a granule, since it holds whole lines, that has no
way now (R94, R392). -/
def lineLeg (s : State) (n gran : Nat) : Option (Nat × Nat) :=
  if windowOf gran != 0 || (tget (clusterAt s n).i2 gran).isSome then none
  else noWay s n (partner gran) (peekI3 s (partner gran)).src false

/-- A granule of a cluster's O2 can go to its home: it finds its way, and room in a port engine's buffer (R27, R392). -/
def homeTakes (s : State) (n gran : Nat) : Bool := (writeLeg s (some n) gran).isNone && (windowOf gran = 0 || bufferTakes s gran)

/-- A leg without a way is reported (R392). -/
def reportLeg (s : State) (leg : Option (Nat × Nat)) : State :=
  match leg with
  | some l => reportRoute s l.1 l.2
  | none => s

/-- The way home of a granule of a cluster is reported where it has none. -/
def reportHome (s : State) (n gran : Nat) : State := reportLeg s (writeLeg s (some n) gran)

/-- The leg without a way, if there is one, that keeps a granule of a cluster where it is: its line's into the I2, or its own to its
home (R94, R392). -/
def formLeg (s : State) (n gran : Nat) : Option (Nat × Nat) := (lineLeg s n gran).or (writeLeg s (some n) gran)

/-- What keeps a granule of a cluster where it is is reported where it is a way. -/
def reportForm (s : State) (n gran : Nat) : State := reportLeg s (formLeg s n gran)

/-- Writes a granule out of a cluster's O2 to its home: O3, or the buffer of the bound port (R27). -/
def arriveHome (s : State) (n gran : Nat) (e : OutEntry) : State :=
  if windowOf gran = 0 then settle (putO3At s gran e.g e.seq) n gran e
  else
    let s := roomBuffer s gran
    { s with ports := { s.ports with buffer := tput s.ports.buffer gran { e with held := none } } }

/-- O2 to home of one granule that is not held; one that finds no way waits, and that is reported (R392). -/
def drainO2 (s : State) (n gran : Nat) : State :=
  let k := clusterAt s n
  match tget k.o2 gran with
  | some e =>
    if homeTakes s n gran then arriveHome (setCluster s n { k with o2 := tdel k.o2 gran }) n gran e
    else reportHome s n gran
  | none => s

/-! ## Partials at their home junctions (R146) -/

/-- Combines a partial with its element at the home junction (R146), as its range's descriptor then stands. A granule that
fails its check is left as it is, and the partial is gone. (DEDUCED, log 21.) -/
def combineAtJunction (s : State) (p : Partial) : State :=
  let gran := p.pa / 64
  let f := peekJ s gran
  let g := f.c.g
  match g.badKind with
  | some kind => reportCheck s (some p.core) gran g (pathWord f.src f.tag kind)
  | none =>
    let c := crngcOf s p.range
    let n := crngElem c
    let old := toSigned (8 * n) (granuleBytes g.data (p.pa % 64) n)
    let r := rangeCombine c old p.val
    let s := setOvf s p.range r.2
    let data := mergeMask g.data (placeBytes (p.pa % 64) (ofInt (8 * n) r.1)) (byteMask (p.pa % 64) n)
    putO3 s gran (mkGranule data (prodJunction (junctionOf s gran)) 3 0)

/-- A partial of a cluster goes to its home junction and is combined there; one that finds no way waits (R127, R392). -/
def sendPartial (n : Nat) (s : State) (p : Partial) : State :=
  let k := clusterAt s n
  if homeTakes s n (p.pa / 64) then combineAtJunction (setCluster s n { k with partials := k.partials.erase p }) p
  else reportHome s n (p.pa / 64)

/-- Combines the partials of a cluster that are not held and satisfy a test (R127, R148). -/
def combinePartials (s : State) (n : Nat) (p : Partial → Bool) : State :=
  ((clusterAt s n).partials.filter fun q => q.held.isNone && p q).foldl (sendPartial n) s

/-! ## Room in the outbound levels (R95, Table 06.1) -/

/-- Granules of an O1, and bytes of an O2 (Table 06.1: 64 KiB and 2 MiB). -/
def o1Room : Nat := 1024
def o2Size : Nat := 2097152

/-- Bytes of a cluster's partials. -/
def partialBytes (s : State) (ps : List Partial) : Nat :=
  ps.foldl (fun t p => t + crngElem (s.crngc.toList.getD p.range 0)) 0

/-- The bytes that a cluster's O2 holds: its granules, held or not, and its partials (R80, R146). -/
def o2Bytes (s : State) (n : Nat) : Nat :=
  let k := clusterAt s n
  64 * (k.o2.length + k.o2held.length) + partialBytes s k.partials

/-- Some more bytes fit in a cluster's O2. -/
def o2Fits (s : State) (n bytes : Nat) : Bool := o2Bytes s n + bytes ≤ o2Size

/-- Makes room in a cluster's O2: the entry formed first of those that find a way goes home; where there is none, the partials
go (R95). (DESIGN CHOICE, log 6.) -/
def roomO2 (s : State) (n bytes : Nat) : State :=
  if o2Fits s n bytes then s
  else match oldestEntry ((clusterAt s n).o2.filter fun x => homeTakes s n x.1) with
    | some x => drainO2 s n x.1
    | none => combinePartials s n fun _ => true

/-- The O2 has the place that an entry takes: an older one of its granule, held for the same step or not held as it is. -/
def o2Has (s : State) (n gran : Nat) (held : Option Nat) : Bool :=
  match held with
  | some _ => (clusterAt s n).o2held.any fun x => x.1 == gran && x.2.held == held
  | none => (tget (clusterAt s n).o2 gran).isSome

/-- An entry can enter a cluster's O2: there is room, or it passes straight on to its home. (DESIGN CHOICE, log 6.) -/
def o2Takes (s : State) (n gran : Nat) (held : Option Nat) : Bool :=
  o2Has s n gran held || o2Fits s n 64 || (held.isNone && homeTakes s n gran)

/-- Makes room for an entry of a granule, unless it has its place. -/
def readyO2 (s : State) (n gran : Nat) (held : Option Nat) : State := if o2Has s n gran held then s else roomO2 s n 64

/-- An entry that O2 has no room for passes on to its home. -/
def passO2 (s : State) (n gran : Nat) : State := if o2Bytes s n > o2Size then drainO2 s n gran else s

/-- An entry enters the cluster's O2, where it takes the place of an older one. -/
def enterO2 (s : State) (n gran : Nat) (e : OutEntry) : State :=
  let k := clusterAt s n
  match e.held with
  | some _ => setCluster s n { k with o2held := (gran, e) :: k.o2held.filter fun x => !(x.1 == gran && x.2.held == e.held) }
  | none =>
    let e := match tget k.o2 gran with
      | some old => if old.g.prod = e.g.prod then { e with first := min old.first e.first } else e
      | none => e
    setCluster s n { k with o2 := tput k.o2 gran e }

/-- An entry leaves a core's O1 for the cluster's O2. -/
def leaveO1 (s : State) (core gran : Nat) (e : OutEntry) : State :=
  let n := clusterOfCore core
  let c := coreAt s core
  passO2 (enterO2 (setCore s core { c with o1 := tdel c.o1 gran }) n gran e) n gran

/-- Moves one entry out of a core's O1 that leaves nothing inward; one that the O2 cannot take stays. -/
def moveO1 (s : State) (core gran : Nat) : State :=
  let n := clusterOfCore core
  match tget (coreAt s core).o1 gran with
  | some e =>
    let s := readyO2 s n gran e.held
    if o2Takes s n gran e.held then leaveO1 s core gran e else reportHome s n gran
  | none => s

/-- Drains the entries of a cluster that stand for copies in its I2 and are not held to their homes; a SELF granule in an O1
stands for none (R116). -/
def drainCluster (s : State) (n : Nat) : State :=
  let s := (coresOf n).foldl (fun s c =>
    (((coreAt s c).o1.filter fun x => x.2.held.isNone && !x.2.self).map (·.1)).foldl (fun s g => moveO1 s c g) s) s
  ((clusterAt s n).o2.map (·.1)).foldl (fun s g => drainO2 s n g) s

/-- An outbound entry of a cluster for a granule, formed at a place in the order, has not gone home. -/
def standsOut (s : State) (n gran seq : Nat) : Bool :=
  ((coresOf n).any fun c => (coreAt s c).o1.any fun x => x.1 == gran && x.2.seq == seq) ||
  (clusterAt s n).o2.any (fun x => x.1 == gran && x.2.seq == seq) ||
  (clusterAt s n).o2held.any (fun x => x.1 == gran && x.2.seq == seq)

/-- A line of ordinary copies that a level gives up for room (DESIGN CHOICE, log 6). -/
def dropLine (tick : Nat) (t : Tbl Copy) : Tbl Copy :=
  let free := t.filter fun kc => evictable t kc.1
  match free[Config.victim tick % free.length]? with
  | some x => t.filter fun kc => kc.1 / 2 != x.1 / 2
  | none => t

/-- Makes room for a line in a cluster's I2, for a copy that must be held there: a line of ordinary copies leaves; where
there is none, the cluster's entries first go home, which frees what is held for them (R154). (DEDUCED, log 6.) -/
def roomI2 (s : State) (n gran : Nat) : State :=
  if (tget (clusterAt s n).i2 gran).isSome || lineCount (clusterAt s n).i2 < i2Lines then s
  else
    let s := if (clusterAt s n).i2.any fun kc => evictable (clusterAt s n).i2 kc.1 then s else drainCluster s n
    nextTick (setI2 s n (dropLine s.tick (clusterAt s n).i2))

/-- Makes room for a line in a core's I1 where some line can leave. -/
def roomI1 (s : State) (core gran : Nat) : State :=
  if (tget (coreAt s core).i1 gran).isSome || lineCount (coreAt s core).i1 < i1Lines (coreAt s core) then s
  else nextTick (setI1 s core (dropLine s.tick (coreAt s core).i1))

/-- A cluster's I2 has a place for a line. -/
def i2Takes (s : State) (n gran : Nat) : Bool :=
  (tget (clusterAt s n).i2 gran).isSome || lineCount (clusterAt s n).i2 < i2Lines

/-- Places a copy of an outbound entry in a cluster's I2, its line's other granule with it, dropping the stash entries of
the line (R94, R305). Where every line of the I2 is held for entries that cannot go home, because retryable steps hold them or
they find no way, none is placed. (DESIGN CHOICE, log 6.) -/
def putI2 (s : State) (n gran : Nat) (c : Copy) : State :=
  let s := roomI2 s n gran
  if !i2Takes s n gran then s
  else if !standsOut s n gran c.seq then s
  else
    let s := fillI3 s gran
    let s := setI2 s n (tput (clusterAt s n).i2 gran c)
    setCluster s n (dropStash (clusterAt s n) (sameLine gran))

/-- A core's I1 has, or can make, room for a line. -/
def i1Takes (s : State) (core gran : Nat) : Bool :=
  let c := coreAt s core
  hasI1 c && ((tget c.i1 gran).isSome || lineCount c.i1 < i1Lines c || c.i1.any fun kc => evictable c.i1 kc.1)

/-- Places a copy of an outbound entry in a core's I1, its line's other granule with it (R94). -/
def putI1 (s : State) (core gran : Nat) (c : Copy) : State :=
  let s := roomI1 s core gran
  let s := fillI2 s (clusterOfCore core) gran
  setI1 s core (tput (coreAt s core).i1 gran c)

/-- O1 to O2 of one SELF granule: it is copied inward as it leaves, and the copy is held until it has reached its home. Room is
made for both first. Where no level can take the copy, the granule goes home at once, and a held one stays (R117; DEDUCED,
log 15). -/
def drainSelf (s : State) (core gran : Nat) (e : OutEntry) : State :=
  let n := clusterOfCore core
  let s := readyO2 (if i1Takes s core gran then s else roomI2 s n gran) n gran e.held
  if !o2Takes s n gran e.held then reportHome s n gran
  else match lineLeg s n gran with
  | some l => reportRoute s l.1 l.2
  | none =>
    if i1Takes s core gran then leaveO1 (putI1 s core gran ⟨e.g, false, 2, 0, e.seq⟩) core gran e
    else if i2Takes s n gran then leaveO1 (putI2 s n gran ⟨e.g, false, 2, tagI2 0 n, e.seq⟩) core gran e
    else if e.held.isNone && homeTakes s n gran then drainO2 (leaveO1 s core gran e) n gran
    else reportHome s n gran

/-- O1 to O2 of one granule, where it can go (R95, R117). -/
def drainO1 (s : State) (core gran : Nat) : State :=
  match tget (coreAt s core).o1 gran with
  | some e => if e.self && windowOf gran == 0 then drainSelf s core gran e else moveO1 s core gran
  | none => s

/-- Every outbound entry of a core's granule that is not held goes to its home (R283, R284). -/
def drainOwn (s : State) (core gran : Nat) : State :=
  let n := clusterOfCore core
  let s := match tget (coreAt s core).o1 gran with
    | some e => if e.held.isNone then drainO1 s core gran else s
    | none => s
  match tget (clusterAt s n).o2 gran with
  | some e => if e.g.prod == core then drainO2 s n gran else s
  | none => s

/-- An outbound entry of a core's granule that is not held has not gone home. -/
def ownWaits (s : State) (core gran : Nat) : Bool :=
  (tget (coreAt s core).o1 gran).any (·.held.isNone) || (tget (clusterAt s (clusterOfCore core)).o2 gran).any (·.g.prod == core)

/-- Granules of a core that wait in its O1, and of a producer in a cluster's O2, and are not held. -/
def o1Keys (s : State) (core : Nat) : List Nat :=
  ((coreAt s core).o1.filter fun x => x.2.held.isNone).map (·.1)
def o2Keys (s : State) (n prod : Nat) : List Nat :=
  ((clusterAt s n).o2.filter fun x => x.2.g.prod == prod).map (·.1)

/-- Places an inward copy of a granule at level 1: the core's I1, or the cluster I2 in place of the placeholder when the
core has no I1 bank, or none that can take it (Table 06.5, R154; DEDUCED, log 6). -/
def placeLevel1 (s : State) (core gran : Nat) (g : Granule) (seq : Nat) : State :=
  let n := clusterOfCore core
  if windowOf gran != 0 then s
  else if (lineLeg s n gran).isSome then reportLeg s (lineLeg s n gran)
  else if i1Takes s core gran then putI1 s core gran ⟨g, false, 2, 0, seq⟩
  else
    dropI1s (putI2 s n gran ⟨g, false, 1, tagI2 0 n, seq⟩) n gran

/-- Places the copy that O2 forwards into the cluster I2 at level 2, in place of a placeholder (Table 06.5, R154). -/
def placeLevel2 (s : State) (n gran : Nat) (g : Granule) (seq : Nat) : State :=
  if windowOf gran != 0 then s
  else if (lineLeg s n gran).isSome then reportLeg s (lineLeg s n gran)
  else dropI1s (putI2 s n gran ⟨g, false, 2, tagI2 0 n, seq⟩) n gran

/-! ## Multicast (R107, R118, R119, R131) -/

/-- What the replica of a cluster shows after a count has come, while later ones are still on their way. -/
def showCount (t : Tbl (BitVec 16)) (key : Nat) (v now : BitVec 16) : Tbl (BitVec 16) :=
  if v = now then tdel t key else tput t key v

/-- The port engines at a router (Table 01.4). -/
def portsAt (n : Nat) : List Nat := (List.range 8).filter fun p => portRouter p == n

/-- The port engines at a router take a count of level 4 (R131). -/
def portCounts (s : State) (n p : Nat) (v : BitVec 16) : State :=
  { s with ports := { s.ports with
      stale := (portsAt n).foldl (fun t q => showCount t (512 * q + p) v (countsAt s p).p4) s.ports.stale } }

/-- The units at a router apply a flit: the cluster, and for a count of level 4 the port engines; a silhouette that has come to its
junction's router has nothing more to do. -/
def applyFlit (s : State) (n : Nat) (f : Flit) : State :=
  match f with
  | .notice _ lo hi => invCluster s n fun k => lo / 2 ≤ k / 2 && k / 2 ≤ hi / 2
  | .count _ p level v =>
    let k := clusterAt s n
    let c := countsAt s p
    let st := showCount k.stale (8 * p + 3) v c.p3
    let s := setCluster s n { k with stale := if level ≥ 4 then showCount st (8 * p + 4) v c.p4 else st }
    if level ≥ 4 then portCounts s n p v else s
  | .sil _ _ => s

/-- Moves the flits of the mesh as far as their branches are free now (R118). -/
def flow (s : State) : State := nextTick (meshRun applyFlit (branchBlocked s) (400 * s.mesh.length + 400) s)

/-- Every branch whose link pair is in service frees until no flit can move: what a unit that waits for its acknowledgements
sees (R118, R392). -/
def flush (s : State) : State := meshRun applyFlit (fun r port => !branchUp s r port) (400 * s.mesh.length) s

/-- Puts a flit into the injection buffer of a router. -/
def inject (s : State) (router : Nat) (f : Flit) : State := { s with mesh := s.mesh ++ [⟨f, router, router, 0, none⟩] }

/-- Until a count comes, the replicas show what they showed (R131). -/
def keepCounts (s : State) (f : Flit) (old : Counts) : State :=
  match f with
  | .count _ p level _ =>
    let keep := fun (t : Tbl (BitVec 16)) (key : Nat) (v : BitVec 16) => if (tget t key).isSome then t else tput t key v
    let s := forUp 64 0 (fun n s =>
      let k := clusterAt s n
      let st := keep k.stale (8 * p + 3) old.p3
      setCluster s n { k with stale := if level ≥ 4 then keep st (8 * p + 4) old.p4 else st }) s
    if level ≥ 4 then
      { s with ports := { s.ports with
          stale := (List.range 8).foldl (fun t q => keep t (512 * q + p) old.p4) s.ports.stale } }
    else s
  | .notice _ _ _ => s
  | .sil _ _ => s

/-- Multicast of a flit from its source's router to all 64 clusters (R14, R118). -/
def multicast (s : State) (f : Flit) (old : Counts) : State :=
  flow (inject (keepCounts s f old) (routerOfProd f.src) f)

/-- A notice of a unit outside the harts, which waits until every cluster has applied it (R150, R382, R411). -/
def noticeNow (s : State) (src lo hi : Nat) : State := flush (inject s (routerOfProd src) (.notice src lo hi))

/-- A silhouette of a core sets out for a router (R118, R122). -/
def shipTo (s : State) (core router : Nat) : State := flow (inject s (clusterOfCore core) (.sil core router))

/-- A silhouette sets out for the junction slice of a flag (R118, R133). -/
def shipSilhouette (s : State) (core gran : Nat) : State := shipTo s core (junctionRouter (junctionOf s gran))

/-- No flit of a source is on its way: every cluster has acknowledged its notices and counts, and its silhouettes have come
to their junctions. -/
def acked (s : State) (src : Nat) : Bool := s.mesh.all fun f => f.flit.src != src

/-! ## Release counts (R102, R132) -/

/-- PCNTk := RCNT for every k ≤ l. -/
def publish (s : State) (p l : Nat) : State :=
  let c := countsAt s p
  setCounts s p { c with
    p1 := if l ≥ 1 then c.rcnt else c.p1
    p2 := if l ≥ 2 then c.rcnt else c.p2
    p3 := if l ≥ 3 then c.rcnt else c.p3
    p4 := if l ≥ 4 then c.rcnt else c.p4 }

/-- RCNT := RCNT + 1 modulo 2^16. -/
def advanceRcnt (s : State) (p : Nat) : State :=
  let c := countsAt s p
  setCounts s p { c with rcnt := c.rcnt + 1 }

/-! ## Silhouettes (R129, R130) -/

def reverse10 (v : BitVec 10) : BitVec 10 :=
  BitVec.ofBool (v.getLsbD 0) ++ BitVec.ofBool (v.getLsbD 1) ++ BitVec.ofBool (v.getLsbD 2) ++ BitVec.ofBool (v.getLsbD 3) ++
  BitVec.ofBool (v.getLsbD 4) ++ BitVec.ofBool (v.getLsbD 5) ++ BitVec.ofBool (v.getLsbD 6) ++ BitVec.ofBool (v.getLsbD 7) ++
  BitVec.ofBool (v.getLsbD 8) ++ BitVec.ofBool (v.getLsbD 9)

/-- Bits lo+n-1 .. lo of a granule address, widened to 10 bits. -/
def g10 (g : BitVec 42) (lo n : Nat) : BitVec 10 := (g.extractLsb' lo n).setWidth 10

def silHash0 (g : BitVec 42) : BitVec 10 := g10 g 0 10 ^^^ g10 g 10 10 ^^^ g10 g 20 10 ^^^ g10 g 30 10 ^^^ g10 g 40 2
def silHash1 (g : BitVec 42) : BitVec 10 :=
  g10 g 5 10 ^^^ g10 g 15 10 ^^^ g10 g 25 10 ^^^ g10 g 35 7 ^^^ (g10 g 0 5 <<< 5)
def silHash2 (g : BitVec 42) : BitVec 10 :=
  reverse10 (g10 g 0 10) ^^^ g10 g 12 10 ^^^ g10 g 22 10 ^^^ g10 g 32 10 ^^^ g10 g 10 2

/-- Enters a granule in a silhouette. -/
def silAdd (sil : Sil) (gran : Nat) : Sil :=
  let g := BitVec.ofNat 42 gran
  sil ||| (1 : Sil) <<< (silHash0 g).toNat ||| (1 : Sil) <<< (silHash1 g).toNat ||| (1 : Sil) <<< (silHash2 g).toNat

def silHas (sil : Sil) (gran : Nat) : Bool :=
  let g := BitVec.ofNat 42 gran
  sil.getLsbD (silHash0 g).toNat && sil.getLsbD (silHash1 g).toNat && sil.getLsbD (silHash2 g).toNat

/-- A silhouette matches a line when, for either granule, all three bits are set (R130). -/
def silMatches (sil : Sil) (gran : Nat) : Bool := (lineOf gran).any (silHas sil)

/-- Applies a silhouette to a core's I1, and to its cluster I2 when asked (R130, R135). -/
def applySil (s : State) (core : Nat) (sil : Sil) (i2 : Bool) : State :=
  let s := if i2 then invI2 s (clusterOfCore core) (silMatches sil) else s
  invI1 s core (silMatches sil)

/-! ## Holding (R79, R80) -/

/-- Held bytes of a cluster (R80). -/
def heldBytes (s : State) (n : Nat) : Nat :=
  let k := clusterAt s n
  let o1 := (coresOf n).foldl (fun t c => t + ((coreAt s c).o1.filter fun x => x.2.held.isSome).length) 0
  let parts := partialBytes s (k.partials.filter fun p => p.held.isSome)
  64 * (o1 + k.o2held.length) + parts

/-- An entry held for a step becomes an ordinary outbound write, in the order written (R80). A level that a turn has asked of
it is not applied: it drains as it is. (DESIGN CHOICE, log 16.) -/
def freeEntry (handle : Nat) (e : OutEntry) : OutEntry :=
  if e.held = some handle then { e with held := none, fifo := true } else e

def freePartial (handle : Nat) (p : Partial) : Partial := if p.held = some handle then { p with held := none } else p

def unholdCore (handle : Nat) (c : CoreSt) : CoreSt :=
  { c with o1 := List.map (fun x : Nat × OutEntry => (x.1, freeEntry handle x.2)) c.o1 }

def unholdCluster (handle : Nat) (k : ClusterSt) : ClusterSt :=
  let mine := k.o2held.filter fun x => x.2.held == some handle
  { k with
    o2held := k.o2held.filter fun x => x.2.held != some handle
    o2 := mine.foldr (fun x t => tput t x.1 (freeEntry handle x.2)) k.o2
    partials := k.partials.map (freePartial handle) }

/-- A step's held granules and partials become ordinary outbound writes (R80, R142). -/
def unhold (s : State) (handle : Nat) : State :=
  { s with
    cores := List.map (fun x : Nat × CoreSt => (x.1, unholdCore handle x.2)) s.cores
    clusters := List.map (fun x : Nat × ClusterSt => (x.1, unholdCluster handle x.2)) s.clusters }

/-- Sets NR of a retryable step (R80, R142). -/
def setNr (s : State) (handle : Nat) : State :=
  match findStep s handle with
  | some r => if r.retryable then unhold (setStep s { r with nr := true }) handle else s
  | none => s

/-- Removes a copy of a granule that an outbound entry has left, unless one that still waits, of `es`, has left it. -/
def forgetTbl (t : Tbl Copy) (gran : Nat) (es : List OutEntry) : Tbl Copy :=
  match tget t gran with
  | some c => if c.seq = 0 || es.any c.leftBy then t else tdel t gran
  | none => t

/-- The newest entry of a cluster for a granule that no step holds. -/
def newestFree (s : State) (n gran : Nat) : Option OutEntry :=
  let all := ((coresOf n).flatMap fun c => (coreAt s c).o1) ++ (clusterAt s n).o2
  (all.filter fun x => x.1 == gran && x.2.held.isNone).foldl (fun r x =>
    match r with
    | some y => if y.seq < x.2.seq then some x.2 else r
    | none => some x.2) none

/-- The discard of a held entry removes what it left in its cluster, with what an entry whose place it took had left; the
placeholder of an older entry that still waits there stands again (DEDUCED, log 16), whatever links are in service (DESIGN CHOICE,
log 15). -/
def forget (s : State) (n gran : Nat) : State :=
  let es := outboundOf s n gran
  let s := setI2 s n (forgetTbl (clusterAt s n).i2 gran es)
  let s := (coresOf n).foldl (fun s c => setI1 s c (forgetTbl (coreAt s c).i1 gran es)) s
  match newestFree s n gran with
  | some o =>
    if (tget (clusterAt s n).i2 gran).isSome || o.self || windowOf gran != 0 then s
    else putI2 s n gran ⟨o.g, true, 2, tagI2 0 n, o.seq⟩
  | none => s

/-- Discards a step's held granules and partials (R79, R142, R154). -/
def discardHeld (s : State) (handle : Nat) : State :=
  let s := s.cores.foldl (fun s kc =>
    let c := coreAt s kc.1
    let s := setCore s kc.1 { c with o1 := c.o1.filter fun x => x.2.held != some handle }
    (kc.2.o1.filter fun x => x.2.held == some handle).foldl (fun s x => forget s (clusterOfCore kc.1) x.1) s) s
  s.clusters.foldl (fun s kc =>
    let k := clusterAt s kc.1
    let s := setCluster s kc.1 { k with
      o2held := k.o2held.filter fun x => x.2.held != some handle
      partials := k.partials.filter fun p => p.held != some handle }
    (kc.2.o2held.filter fun x => x.2.held == some handle).foldl (fun s x => forget s kc.1 x.1) s) s

/-! ## Formation in the outbound levels (R98, R154) -/

/-- A store invalidates its line in the storing core's I1: the granule's own copy leaves whatever it is (R116, R154). -/
def dropOwnLine (s : State) (core gran : Nat) : State :=
  let t := invTbl (coreAt s core).i1 (sameLine gran)
  setI1 s core (tdel t gran)

/-- Leaves a placeholder for a formed granule in a cluster's I2 and invalidates its line in a core's I1 (R154). -/
def leavePlaceholder (s : State) (n core gran : Nat) (g : Granule) (seq : Nat) : State :=
  if windowOf gran != 0 then s
  else dropOwnLine (putI2 s n gran ⟨g, true, 2, tagI2 0 n, seq⟩) core gran

/-- Accounts for one more held granule: beyond 2 MiB the step becomes non-retryable from this act on (R80). Answers the
step that still holds. -/
def holdFor (s : State) (n : Nat) (handle : Option Nat) (already : Bool) (bytes : Nat) : State × Option Nat :=
  match handle with
  | some h => if !already && heldBytes s n + bytes > 2097152 then (setNr s h, none) else (s, some h)
  | none => (s, none)

/-- Makes room in a core's O1: the entry formed first, of those that can, moves into O2 (R95). (DESIGN CHOICE, log 6.) -/
def roomO1 (s : State) (core gran : Nat) : State :=
  if (tget (coreAt s core).o1 gran).isSome || (coreAt s core).o1.length < o1Room then s
  else
    let n := clusterOfCore core
    let s := roomO2 s n 64
    match oldestEntry ((coreAt s core).o1.filter fun x => o2Takes s n x.1 x.2.held) with
    | some x => drainO1 s core x.1
    | none => match oldestEntry (coreAt s core).o1 with
      | some x => reportHome s n x.1
      | none => s

/-- Readies a core's O1 for a granule: an entry that another step left is not lost with a held one, it drains on. -/
def readyO1 (s : State) (core gran : Nat) (held : Option Nat) : State :=
  match tget (coreAt s core).o1 gran with
  | some e => if e.held != held then drainO1 s core gran else s
  | none => roomO1 s core gran

/-- A core's O1 takes a granule: its own entry stands there, or there is room. -/
def o1Takes (s : State) (core gran : Nat) (held : Option Nat) : Bool :=
  match tget (coreAt s core).o1 gran with
  | some e => e.held == held
  | none => (coreAt s core).o1.length < o1Room

/-- The first of the stores that a new entry combines: the entry it takes the place of goes on in it (R124). -/
def firstOf (old : Option OutEntry) (held : Option Nat) (prod seq : Nat) : Nat :=
  match old with
  | some e => if e.held = held && e.g.prod = prod then e.first else seq
  | none => seq

/-- A core's granule enters O1 (R98, R116, R129, R154). (DEDUCED, log 16.) -/
def formInO1 (s : State) (core gran : Nat) (data : GData) (self : Bool) : State :=
  let n := clusterOfCore core
  let c := coreAt s core
  let h := heldBy s
  let already := (tget c.o1 gran).any (fun e => e.held.isSome) ||
    (clusterAt s n).o2held.any (fun x => x.1 == gran && x.2.held == h)
  let (s, h) := holdFor s n h already 64
  let s := readyO1 s core gran h
  let k := clusterAt s n
  let inO2 := if h.isSome then (k.o2held.find? fun x => x.1 == gran && x.2.held == h).map (·.2) else none
  let s := setCluster s n { k with o2held := k.o2held.filter fun x => !(x.1 == gran && x.2.held == h && h.isSome) }
  let seq := s.disp.seq
  let first := firstOf (tget (coreAt s core).o1 gran) h core (firstOf inO2 h core seq)
  let g := mkGranule data core (if self then 1 else 0) (countsAt s core).rcnt
  let c := coreAt s core
  let s := setCore s core { c with o1 := tput c.o1 gran ⟨g, h, seq, false, self, 0, first⟩ }
  let s := { s with disp := { s.disp with seq := seq + 1 } }
  let s := if self then dropOwnLine s core gran else leavePlaceholder s n core gran g seq
  { s with hart := { s.hart with sil := silAdd s.hart.sil gran } }

/-- Readies a cluster's O2 for a granule of the matrix unit or the copy sequencer: the state, and for which step it is held
(R80, R95). -/
def readyForm (s : State) (n gran : Nat) (handle : Option Nat) : State × Option Nat :=
  let already := (clusterAt s n).o2held.any (fun x => x.1 == gran && x.2.held == handle)
  let x := holdFor s n handle already 64
  (readyO2 x.1 n gran x.2, x.2)

/-- A granule of the matrix unit or the copy sequencer enters O2 for a hart of a core (R98, R323). -/
def formInO2 (s : State) (prod slot gran : Nat) (g : Granule) (handle : Option Nat) : State :=
  let core := coreOfSlot slot
  let n := clusterOfCore core
  let (s, h) := readyForm s n gran handle
  let k := clusterAt s n
  let seq := s.disp.seq
  let old := match h with
    | some _ => (k.o2held.find? fun x => x.1 == gran && x.2.held == h).map (·.2)
    | none => tget k.o2 gran
  let e : OutEntry := ⟨g, h, seq, false, false, 0, firstOf old h prod seq⟩
  let s := match h with
    | some _ => setCluster s n { k with o2held := (gran, e) :: k.o2held.filter fun x => !(x.1 == gran && x.2.held == h) }
    | none => setCluster s n { k with o2 := tput k.o2 gran e }
  let s := { s with disp := { s.disp with seq := seq + 1 } }
  let s := leavePlaceholder s n core gran { g with md := packMeta g.rc g.level prod g.chk } seq
  let s := passO2 s n gran
  let hh := hartAt s slot
  setHart s slot { hh with sil := silAdd hh.sil gran }

/-- Granules of one row or run enter O2 together; or the first is named for which no room can be made, or whose line has no way
into the I2 (R94, R95, R392). -/
def formEach (prod slot : Nat) (handle : State → Option Nat) : List (Nat × Granule) → State → Except Nat State
  | [], s => .ok s
  | y :: ys, s =>
    let n := clusterOfSlot slot
    let x := readyForm s n y.1 (handle s)
    if o2Takes x.1 n y.1 x.2 && (lineLeg x.1 n y.1).isNone then
      formEach prod slot handle ys (formInO2 x.1 prod slot y.1 y.2 (handle x.1))
    else .error y.1

/-- They wait together, with none formed, while one finds no room. -/
def formEachM (prod slot : Nat) (handle : State → Option Nat) (ys : List (Nat × Granule)) : M Unit := fun s =>
  match formEach prod slot handle ys s with
  | .ok s' => (.ok (), s')
  | .error g => (.error .hold, reportForm s (clusterOfSlot slot) g)

/-- Enters a contribution of a core in its cluster's O2: combined with a partial of the same element that waits there
(R145, R146). Contributions of two cores of a cluster to one element stand side by side, and meet at the junction.
(DESIGN CHOICE, log 21.) -/
def enterPartial (s : State) (core pa r : Nat) (v : Int) : State :=
  let n := clusterOfCore core
  let c := crngcOf s r
  let held := heldBy s
  let same := fun (q : Partial) => q.pa == pa && q.core == core && q.held == held
  match (clusterAt s n).partials.find? same with
  | some q =>
    let x := rangeCombine c q.val v
    let s := setOvf s r x.2
    let k := clusterAt s n
    setCluster s n { k with partials := { q with val := x.1 } :: k.partials.erase q }
  | none =>
    let (s, held) := holdFor s n held false (crngElem c)
    let k := clusterAt s n
    setCluster s n { k with partials := k.partials ++ [⟨pa, r, v, core, held⟩] }

/-- A contribution of a core joins one that waits in its cluster's O2. -/
def partialJoins (s : State) (core pa : Nat) : Bool :=
  (clusterAt s (clusterOfCore core)).partials.any fun q => q.pa == pa && q.core == core && q.held == heldBy s

/-- Makes room for a contribution, unless it joins one; one held too many frees its step's granules first (R80). -/
def readyPartial (s : State) (core pa r : Nat) : State :=
  let n := clusterOfCore core
  let bytes := crngElem (crngcOf s r)
  if partialJoins s core pa then s else roomO2 (holdFor s n (heldBy s) false bytes).1 n bytes

/-- A cluster's O2 takes a contribution: it joins one, or there is room, or it passes straight on. (DESIGN CHOICE, log 6.) -/
def partialTakes (s : State) (core pa r : Nat) : Bool :=
  let n := clusterOfCore core
  partialJoins s core pa || o2Fits s n (crngElem (crngcOf s r)) ||
    ((heldBy s).isNone && homeTakes s n (pa / 64))

/-- A contribution that O2 has no room for passes on to its junction. -/
def passPartial (s : State) (core pa : Nat) : State :=
  let n := clusterOfCore core
  if o2Bytes s n > o2Size then combinePartials s n fun q => q.pa == pa && q.core == core else s

end Sys2Proof.Machine
end

