-- ==== Sys2Proof/Machine/Translate.lean ====
section
/-! DEFINITION. Lookups with their fills (R96, R424), the checks of a consumer (R104, R167-R169), and translation (R25,
R352-R354). -/

namespace Sys2Proof.Machine

/-! ## What a consumer makes of a copy -/

/-- The unturned-read fault of a copy (R104, Table 23.10). -/
def unturnedTrap (s : State) (cluster : Option Nat) (va : Word) (g : Granule) (ph : Bool) (k : Nat) : TrapInfo :=
  { TrapInfo.plain 0x07 (va &&& ~~~0x3F) with
    words := [(if g.prod < 384 then pcnt s cluster g.prod k else 0).setWidth 64 <<< 48 ||| g.rc.setWidth 64 <<< 32 |||
      (BitVec.ofBool ph).setWidth 64 <<< 24 ||| BitVec.ofNat 64 k <<< 16 ||| BitVec.ofNat 64 g.level <<< 12 |||
      BitVec.ofNat 64 g.prod] }

/-- The check fault of a granule (R168, Table 23.10). -/
def checkTrap (va : Word) (g : Granule) (path : Word) : TrapInfo :=
  { TrapInfo.plain 0x08 (va &&& ~~~0x3F) with
    words := [g.chk.setWidth 64 <<< 32 ||| g.computed.setWidth 64, path, BitVec.ofNat 64 g.prod]
    score := some (g.prod, path) }

/-- The range error of an address (Table 23.10): range 0-15, or 15 when none holds it, and the reason. -/
def rangeTrap (va : Word) (range reason : Nat) : TrapInfo :=
  { TrapInfo.plain 0x11 va with words := [BitVec.ofNat 64 (16 * range + reason)] }

/-- A consumer applies R103 and then the check (Table 14.6 read_granule). (DEDUCED, log 13.) -/
def consume (s : State) (r : Reader) (cluster : Option Nat) (va : Word) (f : Found) : Except TrapInfo Granule :=
  let k := relation r f.c.g.prod
  if f.c.ph || !visible s cluster f.c.g k then .error (unturnedTrap s cluster va f.c.g f.c.ph k)
  else match f.c.g.badKind with
    | some kind => .error (checkTrap va f.c.g (pathWord f.src f.tag kind))
    | none => .ok f.c.g

/-- A check fault invalidates the copy that failed and the inner copies of its line that the consumer can reach (R169).
(DEDUCED, log 17.) -/
def dropFailed (s : State) (core : Option Nat) (cluster : Option Nat) (src gran : Nat) : State :=
  let drop := fun (t : Tbl Copy) => t.filter fun kc => !(sameLine gran kc.1 && !kc.2.ph)
  let s := if src = 2 || src = 3 || src = 4 then { s with i3 := drop s.i3 } else s
  let s := match cluster with
    | some n =>
      let s := if src ≠ 0 then setI2 s n (drop (clusterAt s n).i2) else s
      setCluster s n (dropStash (clusterAt s n) (sameLine gran))
    | none => s
  match core with
  | some c => setI1 s c (drop (coreAt s c).i1)
  | none => s

/-- Raises what a consumer finds, with R169. -/
def consumeM (r : Reader) (core cluster : Option Nat) (va : Word) (gran : Nat) (f : Found) : M Granule := fun s =>
  match consume s r cluster va f with
  | .ok g => (.ok g, s)
  | .error t => (.error (.trap t), if t.cause = 0x08 then dropFailed s core cluster f.src gran else s)

/-! ## Ways through the mesh (R14, R392) -/

/-- A read of an engine waits while some leg of its way meets pairs with no member in service both ways; the failure is
reported (R392). -/
def wayE {α : Type} (n gran src : Nat) (direct : Bool) (m : M α) : M α := fun s =>
  match noWay s n gran src direct with
  | some l => (.error .hold, reportRoute s l.1 l.2)
  | none => m s

/-- The same for a read of the acting hart's instruction, which has issued (R425). -/
def wayM {α : Type} (n gran src : Nat) (direct : Bool) (m : M α) : M α := fun s =>
  match noWay s n gran src direct with
  | some l => (.error .hold, waiting (reportRoute s l.1 l.2))
  | none => m s

/-! ## Remote windows -/

/-- A read of a granule of a remote window by a core or an engine (R27). (DESIGN CHOICE, log 8.) -/
def readRemote (r : Reader) (cluster : Option Nat) (va : Word) (gran : Nat) : M Granule := fun s =>
  match tget s.ports.buffer gran with
  | some e =>
    match consume s r cluster va ⟨homeCopy e.g 0, 3, 0⟩ with
    | .ok g => (.ok g, s)
    | .error t => (.error (.trap t), s)
  | none =>
    let port := (portOfWindow s (windowOf gran)).getD 0
    (.ok (mkGranule (Config.remoteData s.tick gran) (prodPort port) 4 0), nextTick s)

/-! ## Translation (R352-R354) -/

/-- What an access needs (R353). -/
inductive Acc where
  | read | write | rw | fetch
  deriving DecidableEq, Repr

/-- What a translation answers. -/
inductive Xl where
  | ok (pa : Nat) (self : Bool)
  /-- A page fault: cause 0x04 or 0x05, KIND and WLEV of Table 23.10. -/
  | page (cause : BitVec 6) (kind wlev : Nat)
  /-- A present page that the host owns (R149). -/
  | host (wlev : Nat)
  /-- A failure of the walker's own reads (R353). -/
  | walk (t : TrapInfo)
  /-- The access waits: for a way to the home of a table entry, between two routers (R392), or, with none, for the page's move
  (R150). -/
  | wait (leg : Option (Nat × Nat))
  deriving DecidableEq, Repr

def pteV (e : Word) : Bool := e.getLsbD 63
def pteHost (e : Word) : Bool := e.getLsbD 62
def pteSelf (e : Word) : Bool := e.getLsbD 61
def pteSloc (e : Word) : Bool := e.getLsbD 60
def pteLeaf (e : Word) : Bool := e.getLsbD 56
/-- PA[41:16] of the frame or table, as an address. -/
def pteBase (e : Word) : Nat := (e.extractLsb' 16 26).toNat * 65536

/-- An entry of a level breaks the rules of R353. -/
def pteBad (e : Word) (level : Nat) : Bool :=
  e.extractLsb' 42 14 != 0 || e.extractLsb' 0 16 != 0 ||
  (level == 1 && pteLeaf e) || (level == 3 && !pteLeaf e) ||
  (!pteLeaf e && e.extractLsb' 57 6 != 0) ||
  (level == 2 && pteLeaf e && e.extractLsb' 16 13 != 0)

/-- Whether an entry allows an access (R353). -/
def pteAllows (e : Word) (a : Acc) : Bool :=
  match a with
  | .read => e.getLsbD 59
  | .write => e.getLsbD 58
  | .rw => e.getLsbD 59 && e.getLsbD 58
  | .fetch => e.getLsbD 57

/-- The end of a walk. -/
inductive WalkEnd where
  | leaf (pte : Word) (level : Nat)
  | notPresent (level : Nat)
  | bad (level : Nat)
  /-- The entry of a level lies in an unbound remote window (R26). -/
  | unbound (level : Nat)
  | fault (t : TrapInfo)
  /-- No way to the home of an entry now (R392). -/
  | noWay (leg : Nat × Nat)
  deriving DecidableEq, Repr

/-- The granule that a reader outside the inbound levels finds at an address's home: at the junction, or, in a remote window,
in the bound port engine's buffer or from the endpoint (R27, R424). (DESIGN CHOICE, log 8.) -/
def peekHome (s : State) (gran : Nat) : Found :=
  if windowOf gran = 0 then peekJ s gran
  else match tget s.ports.buffer gran with
    | some e => ⟨homeCopy e.g 0, 3, 0⟩
    | none =>
      let port := (portOfWindow s (windowOf gran)).getD 0
      ⟨homeCopy (mkGranule (Config.remoteData s.tick gran) (prodPort port) 4 0) 0, 3, 0⟩

/-- An address lies in a remote window that no port is bound to (R26). -/
def unbound (s : State) (pa : Nat) : Bool := pa ≥ hbmBytes && (portOfWindow s (pa / hbmBytes)).isNone

/-- Who walks a page table: the cluster whose replica of the counts it uses, and the router that it reads from. -/
structure Walker where
  cluster : Option Nat
  router : Option Nat
  deriving DecidableEq, Repr

/-- A cluster's walkers. -/
def Walker.ofCluster (n : Nat) : Walker := ⟨some n, some n⟩
/-- The dispatcher, whose place on the mesh the spec does not give: its reads meet no link. (DESIGN CHOICE, log 34.) -/
def Walker.dispatcher : Walker := ⟨none, none⟩
/-- Firmware and the migration engine (Table 01.4). -/
def Walker.management : Walker := ⟨none, some managementRouter⟩
/-- A port engine (Table 01.4). -/
def Walker.ofPort (p : Nat) : Walker := ⟨none, some (portRouter p)⟩

/-- What a walker's read of an entry gives. -/
inductive PteRead where
  | entry (e : Word)
  | fault (t : TrapInfo)
  /-- No way to the entry's home now (R392). -/
  | noWay (leg : Nat × Nat)
  deriving DecidableEq, Repr

/-- A walker reads one entry at its home (R353, R392, R424). -/
def readPte (s : State) (w : Walker) (va : Word) (pa : Nat) : PteRead :=
  match legFrom s w.router (pa / 64) with
  | some l => .noWay l
  | none =>
    match consume s .far w.cluster va (peekHome s (pa / 64)) with
    | .ok g => .entry (BitVec.ofNat 64 (granuleBytes g.data (pa % 64) 8))
    | .error t => .fault { t with val := va, addr := BitVec.ofNat 64 pa }

/-- Index of a level in a virtual address (R25). -/
def vaIndex (va : Word) (level : Nat) : Nat :=
  if level = 1 then (va.extractLsb' 42 6).toNat
  else if level = 2 then (va.extractLsb' 29 13).toNat
  else (va.extractLsb' 16 13).toNat

/-- The walk from a level down; `fuel` levels are left. -/
def walk (s : State) (w : Walker) (va : Word) : Nat → Nat → Nat → WalkEnd
  | 0, level, _ => .bad level
  | fuel + 1, level, table =>
    if unbound s (table + 8 * vaIndex va level) then .unbound level
    else match readPte s w va (table + 8 * vaIndex va level) with
    | .fault t => .fault t
    | .noWay l => .noWay l
    | .entry e =>
      if !pteV e then .notPresent level
      else if pteBad e level then .bad level
      else if pteLeaf e then .leaf e level
      else walk s w va fuel (level + 1) (pteBase e)

/-- What a leaf answers for an access: permission, then ownership, then the stack-local attribute (R21) and the binding of
a remote window (R26). (DEDUCED, log 13.) -/
def leafAnswer (s : State) (va : Word) (a : Acc) (pte : Word) (level : Nat) : Xl :=
  let off := if level = 2 then (va.extractLsb' 0 29).toNat else (va.extractLsb' 0 16).toNat
  let pa := pteBase pte + off
  if !pteAllows pte a then .page 0x05 1 level
  else if pteHost pte then .host level
  else if pteSloc pte != inLocalZone s pa then .page 0x05 1 level
  else if unbound s pa then .page 0x05 1 level
  else .ok pa (pteSelf pte)

/-- A page of the address space: launch and VA / 65536. -/
def pageOf (va : Word) : Nat := (va.extractLsb' 16 32).toNat

/-- The page that a leaf of a level maps: VA / 65536 of its first byte (R25). -/
def pageKey (va : Word) (level : Nat) : Nat := if level = 2 then pageOf va / 8192 * 8192 else pageOf va

/-- The top-level table of a launch's address space (R352). -/
def tableOf (s : State) (launch : Nat) : Nat := match findLaunch s launch with | some l => l.table | none => 0

/-- A page of an address space is moving out and has not left yet: accesses to it wait (R150). -/
def moving (s : State) (table : Nat) (va : Word) (level : Nat) : Bool := s.ports.moving.contains (table, pageKey va level, level)

/-- A cached translation of a cluster TLB. -/
def tlbFind (t : List TlbEntry) (launch : Nat) (va : Word) : Option TlbEntry :=
  let page := (va.extractLsb' 16 32).toNat
  t.find? fun e => e.launch == launch && if e.big then e.page / 8192 == page / 8192 else e.page == page

/-- Whose translations an access uses: a cluster's, and for a core first its own (R354). -/
structure Tlbs where
  cluster : Nat
  core : Option Nat
  deriving DecidableEq, Repr

/-- What a unit of a cluster uses that is no core. -/
def clusterTlb (n : Nat) : Tlbs := ⟨n, none⟩
/-- What the acting core uses. -/
def hereTlb (s : State) : Tlbs := ⟨curCluster s, some (curCore s)⟩

/-- A cached translation: in the core's I1 TLB, then in the cluster TLB (R354). -/
def cached (s : State) (x : Tlbs) (launch : Nat) (va : Word) : Option TlbEntry :=
  match (match x.core with | some c => tlbFind (coreAt s c).tlb launch va | none => none) with
  | some e => some e
  | none => tlbFind (clusterAt s x.cluster).tlb launch va

/-- The leaf that maps an address in a launch's address space, from a TLB or by a walk. -/
def leafFor (s : State) (x : Tlbs) (launch : Nat) (va : Word) : WalkEnd :=
  match cached s x launch va with
  | some e => .leaf e.pte (if e.big then 2 else 3)
  | none =>
    match findLaunch s launch with
    | some l => walk s (.ofCluster x.cluster) va 3 1 l.table
    | none => .notPresent 1

/-- Entries of an I1 TLB and of a cluster TLB (R354). -/
def i1TlbSize : Nat := 64
def clusterTlbSize : Nat := 2048

/-- A TLB with a translation that it did not hold; the entry filled first leaves. (DESIGN CHOICE, log 12.) -/
def tlbWith (t : List TlbEntry) (size launch : Nat) (va pte : Word) (level : Nat) : List TlbEntry :=
  if (tlbFind t launch va).isSome then t
  else ((⟨launch, (va.extractLsb' 16 32).toNat, level == 2, pte⟩ : TlbEntry) :: t).take size

/-- Caches a leaf whose page the device owns (R354). (DEDUCED, log 12.) -/
def tlbFill (s : State) (x : Tlbs) (launch : Nat) (va : Word) (pte : Word) (level : Nat) : State :=
  if pteHost pte then s
  else
    let k := clusterAt s x.cluster
    let s := setCluster s x.cluster { k with tlb := tlbWith k.tlb clusterTlbSize launch va pte level }
    match x.core with
    | some c => setCore s c { coreAt s c with tlb := tlbWith (coreAt s c).tlb i1TlbSize launch va pte level }
    | none => s

/-- Translation of an address for an access (R25, R353). -/
def xlate (s : State) (x : Tlbs) (launch : Nat) (va : Word) (a : Acc) : Xl :=
  if va.extractLsb' 48 16 != 0 then .page 0x04 3 0
  else match leafFor s x launch va with
    | .leaf pte level => if moving s (tableOf s launch) va level then .wait none else leafAnswer s va a pte level
    | .notPresent level => .page 0x04 0 level
    | .bad level => .page 0x04 3 level
    | .unbound level => .page 0x05 1 level
    | .fault t => .walk t
    | .noWay l => .wait (some l)

/-- The translation is cached as it is used: a hit in the first TLB changes nothing. -/
def xlateFill (s : State) (x : Tlbs) (launch : Nat) (va : Word) : State :=
  if va.extractLsb' 48 16 != 0 || x.core.any (fun c => (tlbFind (coreAt s c).tlb launch va).isSome) then s
  else match leafFor s x launch va with
    | .leaf pte level => tlbFill s x launch va pte level
    | _ => s

/-- The launch whose address space a step handle names (R67, R352). -/
def launchOf (handle : BitVec 32) : Nat := (handle.extractLsb' 24 8).toNat
def curLaunch (s : State) : Nat := launchOf s.hart.steph

/-- One listed page of a fault record (R351). -/
structure PageFault where
  cause : BitVec 6
  kind : Nat
  wlev : Nat
  fel : Nat
  va : Word
  deriving DecidableEq, Repr

/-- The trap of a list of faulting pages, first first (R351, R356). -/
def pageTrap (resume : Bool) (all : List PageFault) : TrapInfo :=
  let ps := all.take 8
  match ps with
  | [] => TrapInfo.plain 0x04 0
  | p :: _ =>
    let kinds := (List.range ps.length).foldl (fun w i => w + (ps.getD i p).kind * 4 ^ i) 0
    let page := fun i => if i < ps.length then ((ps.getD i p).va.extractLsb' 16 32).setWidth 64 else (0 : Word)
    let pair := fun i => page (2 * i) ||| page (2 * i + 1) <<< 32
    { TrapInfo.plain p.cause p.va with
      npg := ps.length
      more := all.length > 8
      words := [BitVec.ofNat 64 (p.wlev * 2 ^ 24 + p.fel * 2 ^ 16 + kinds), pair 0, pair 1, pair 2, pair 3]
      resume := resume }

/-- The bytes of words, little-endian (R3). -/
def wordBytes (ws : List Word) : List Byte := ws.flatMap fun w => (List.range 8).map fun i => w.extractLsb' (8 * i) 8

/-- A message with its header (Table 30.1). -/
def message (port conn type : Nat) (resp : Bool) (status : Nat) (tag : BitVec 32) (body : List Byte) : Msg :=
  ⟨port, conn, BitVec.ofNat 64 (type * 2 ^ 56 + (if resp then 2 ^ 55 else 0) + status * 2 ^ 32 + tag.toNat),
    BitVec.ofNat 64 body.length, body⟩

/-- A PAGE request with DIR 0 to the host, on a connection of port 0, unless one stands for the page already (R149, R413).
(DESIGN CHOICE, log 32.) -/
def requestPageAt (s : State) (launch table : Nat) (va : Word) (level : Nat) : State :=
  let key := pageKey va level
  if s.ports.pageRequests.any fun q => q.table == table && q.page == key then s
  else
    let tag := s.ports.nextTag
    { s with ports := { s.ports with
        pageRequests := s.ports.pageRequests ++ [⟨launch, key, tag, table⟩]
        nextTag := tag + 1
        sent := s.ports.sent ++ [message 0 0 3 false 0 tag
          (wordBytes [BitVec.ofNat 64 (launch * 256), BitVec.ofNat 64 (key * 65536), 0])] } }

/-- The host has refused the page and no access has taken that yet (R149). -/
def pageRefusedAt (s : State) (table : Nat) (va : Word) (level : Nat) : Bool :=
  s.ports.refusals.contains (table, pageKey va level)
def takeRefusalAt (s : State) (table : Nat) (va : Word) (level : Nat) : State :=
  { s with ports := { s.ports with refusals := s.ports.refusals.erase (table, pageKey va level) } }

def requestPage (s : State) (launch : Nat) (va : Word) (level : Nat) : State :=
  requestPageAt s launch (tableOf s launch) va level
def pageRefused (s : State) (launch : Nat) (va : Word) (level : Nat) : Bool := pageRefusedAt s (tableOf s launch) va level
def takeRefusal (s : State) (launch : Nat) (va : Word) (level : Nat) : State := takeRefusalAt s (tableOf s launch) va level

/-- Translation of one access in a launch's address space: a page fault traps with a record of its one page, an
ownership case waits while the page moves in (R149, R351). -/
def translateFor (x : Tlbs) (l : Nat) (va : Word) (a : Acc) : M (Nat × Bool) := fun s =>
  match xlate s x l va a with
  | .ok pa self => (.ok (pa, self), xlateFill s x l va)
  | .page cause kind wlev => (.error (.trap (pageTrap false [⟨cause, kind, wlev, 0, va⟩])), s)
  | .walk t => (.error (.trap t), s)
  | .host wlev =>
    if pageRefused s l va wlev then (.error (.trap (pageTrap false [⟨0x06, 2, wlev, 0, va⟩])), takeRefusal s l va wlev)
    else (.error .hold, requestPage s l va wlev)
  | .wait leg => (.error .hold, reportLeg s leg)

/-- An instruction that has issued waits where a computation of it waits (R93, R425). -/
def waitingM {α : Type} (m : M α) : M α := fun s =>
  match m s with
  | (.error .hold, s) => (.error .hold, waiting s)
  | r => r

/-- Translation of one access of the acting hart's instruction. -/
def translateM (va : Word) (a : Acc) : M (Nat × Bool) := waitingM fun s => translateFor (hereTlb s) (curLaunch s) va a s

/-! ## Reads of a core (R96, R116, R218, R283) -/

/-- A SELF load looks in the core's O1, then among its held granules in O2 (R116). -/
def selfEntry (s : State) (core gran : Nat) : Option OutEntry :=
  match tget (coreAt s core).o1 gran with
  | some e => some e
  | none =>
    ((clusterAt s (clusterOfCore core)).o2held.find? fun x => x.1 == gran && x.2.g.prod == core).map (·.2)

/-- A granule of the acting core's outbound entries: checked, at relation 1 (R167). -/
def consumeOwn (va : Word) (e : OutEntry) : M Granule := fun s =>
  match consume s (.core (curCore s)) (some (curCluster s)) va ⟨homeCopy e.g 0, 7, 0⟩ with
  | .ok g => (.ok g, s)
  | .error t => (.error (.trap t), s)

/-- `read_granule` for the acting core's loads and merge fetches (Table 14.6). -/
def readGranule (va : Word) (gran : Nat) (self : Bool) : M Granule := fun s =>
  let core := curCore s
  let n := curCluster s
  match (if self then selfEntry s core gran else none) with
  | some e => consumeOwn va e s
  | none =>
    let f := peekI1 s core gran
    wayM n gran f.src false (fun s =>
      if windowOf gran != 0 then readRemote (.core core) (some n) va gran s
      else consumeM (.core core) (some core) (some n) va gran f (fillI1 s core gran)) s

/-- The read of `ld.nc`: the core's own outbound entries first, then the home junction (R283). -/
def readBypass (va : Word) (gran : Nat) (self : Bool) : M Granule := fun s =>
  let core := curCore s
  let n := curCluster s
  match (if self then selfEntry s core gran else none) with
  | some e => consumeOwn va e s
  | none =>
    let s := drainOwn s core gran
    if ownWaits s core gran then holdM (reportForm s n gran)
    else wayM n gran 3 true (fun s =>
      if windowOf gran != 0 then readRemote (.core core) (some n) va gran s
      else consumeM (.core core) (some core) (some n) va gran (peekJ s gran) s) s

/-- A load of a range granule while OVF is set raises a range error (R147). -/
def ovfTest (va : Word) (gran : Nat) : M Unit := fun s =>
  match ovfRange s gran with
  | some r => (.error (.trap (rangeTrap va r 2)), s)
  | none => (.ok (), s)

/-! ## Stores of a core (R160, R165) -/

/-- A store of the acting hart forms a granule in its core's O1; it waits while no way is found to make room there, or to bring
in the line of its placeholder (R94, R95, R392). -/
def formM (gran : Nat) (self : Bool) (data : GData) : M Unit := fun s =>
  let core := curCore s
  let s := readyO1 s core gran (heldBy s)
  match (if self then none else lineLeg s (curCluster s) gran) with
  | some l => holdM (reportRoute s l.1 l.2)
  | none => if o1Takes s core gran (heldBy s) then (.ok (), formInO1 s core gran data self) else holdM s

/-- `form_granule`: a whole store forms the granule; a partial one merges in O1, where the granule is not checked, or
merge-fetches first (R165; DEDUCED, log 22). -/
def formGranule (va : Word) (gran : Nat) (self : Bool) (new : GData) (mask : BitVec 64) : M Unit := fun s =>
  if mask = BitVec.allOnes 64 then formM gran self new s
  else match tget (coreAt s (curCore s)).o1 gran with
    | some e => formM gran self (mergeMask e.g.data new mask) s
    | none =>
      match readGranule va gran self s with
      | (.ok g, s') => formM gran self (mergeMask g.data new mask) s'
      | (.error e, s') => (.error e, s')

end Sys2Proof.Machine
end

