-- ==== Sys2Proof/Machine/Watermarks.lean ====
section
/-! DEFINITION. What a stream graph's registers say (Table 26.1), the windows' bounds (R376, R377), and the output watermark of a
standing kernel with its rises (R375, R386), which the end of every firing can bring about. -/

namespace Sys2Proof.Machine

/-! ## A graph's registers (Table 26.1) -/

def Graph.en (g : Graph) : Bool := g.sgcfg.getLsbD 63
def Graph.dropfull (g : Graph) : Bool := g.sgcfg.getLsbD 62
def Graph.slotlog (g : Graph) : Nat := bits g.sgcfg 52 4
def Graph.nslotlog (g : Graph) : Nat := bits g.sgcfg 47 5
def Graph.nsrcm1 (g : Graph) : Nat := bits g.sgcfg 30 10
def Graph.kl (g : Graph) : Nat := bits g.sgcfg 0 8
def Graph.mm1 (g : Graph) : Nat := bits g.sgwin 58 6
def Graph.slide (g : Graph) : Nat := bits g.sgwin 0 48
def Graph.lateness (g : Graph) : Nat := bits g.sglate 0 48
def Graph.idle (g : Graph) : Nat := bits g.sgtime 32 32
def Graph.base (g : Graph) : Nat := bits g.sgbase 0 42
def Graph.slots (g : Graph) : Nat := 2 ^ g.nslotlog
def Graph.slotBytes (g : Graph) : Nat := 2 ^ g.slotlog

/-- A source; all are active with watermark 0 from the enabling of the graph (R368). -/
def Graph.source (g : Graph) (i : Nat) : Source := tgetD g.sources i ⟨.active, 0, 0⟩

/-- SGSTAT (Table 26.1): STALL while a record waits under R383, LASTDROP, and the sources now idle. -/
def Graph.stat (g : Graph) : Word :=
  (BitVec.ofBool (!g.stalled.isEmpty)).setWidth 64 <<< 63 ||| g.lastdrop.setWidth 64 <<< 60 |||
    BitVec.ofNat 64 ((List.range (g.nsrcm1 + 1)).filter fun i => (g.source i).st == .idle).length

/-- 2^64 − 1, at which times saturate (R377). -/
def timeMax : Nat := 2 ^ 64 - 1
/-- WINSTART, E and E + LATENESS of window `k` (R376, R377). -/
def Graph.winStart (g : Graph) (k : Nat) : Nat := k * g.slide
def Graph.winEnd (g : Graph) (k : Nat) : Nat := min timeMax ((k + g.mm1 + 1) * g.slide)
def Graph.winLimit (g : Graph) (k : Nat) : Nat := min timeMax (g.winEnd k + g.lateness)

/-- The enabled graph that names a launch (R368). -/
def kernelGraph (s : State) (launch : Nat) : Option (Nat × Graph) :=
  s.mer.graphs.find? fun x => x.2.en && x.2.kl == launch

/-! ## The output watermark (R375, R386) -/

/-- The latest firing step of a window, if it has not completed (R375, R381). -/
def Win.lastOpen (w : Win) : Option Nat := w.last.filter w.firings.contains

/-- The output watermark of a launch (R375). -/
def outputWm (s : State) (l : LaunchRec) : Nat :=
  match kernelGraph s l.id with
  | some (_, g) =>
    match g.wins.find? fun w => w.state == 0 || w.lastOpen.isSome with
    | some w => min g.wm.toNat (g.winStart w.id)
    | none => g.wm.toNat
  | none => l.outwm.toNat

/-- The highest watermark that an output has sent or is still to send. -/
def Output.highest (o : Output) : Nat := max o.sentWm.toNat ((o.rises.getLast?.getD 0).toNat)

/-- A rise of the output watermark from one state to the next, above what an output has sent, gives it a watermark record to send
(R375, R386). -/
def Output.rise (old s : State) (o : Output) : Output :=
  match findLaunch s o.launch with
  | some l =>
    if (kernelGraph s o.launch).isSome && outputWm old l < outputWm s l && o.highest < outputWm s l then
      { o with rises := o.rises ++ [BitVec.ofNat 64 (outputWm s l)] }
    else o
  | none => o

/-- Notes the rises that an act has brought about. -/
def noteRises (old s : State) : State := { s with mer := { s.mer with outputs := s.mer.outputs.map (Output.rise old s) } }

/-! ## Records of `semit` that wait (R93, R339, R383) -/

/-- The waiting record of a slot's `semit` is withdrawn. -/
def Graph.withdraw (g : Graph) (k : Nat) : Graph := { g with stalled := g.stalled.filter fun r => r.slot != some k }

def withdrawRecord (s : State) (k : Nat) : State :=
  { s with mer := { s.mer with graphs := List.map (fun x : Nat × Graph => (x.1, x.2.withdraw k)) s.mer.graphs } }

end Sys2Proof.Machine
end

