-- ==== Sys2Proof/Machine/Ending.lean ====
section
/-! DEFINITION. How a step's run ends: its harts leave their slots, its held granules are discarded, it is requeued or its
completion record is queued (R78-R85, R327, R364). -/

namespace Sys2Proof.Machine

/-- The slots whose RUNNING hart belongs to a step. -/
def slotsOfStep (s : State) (handle : Nat) : List Nat :=
  (runningSlots s).filter fun k => slotHandle (slotAt s k) == handle

/-- A slot becomes EMPTY; the hart's tiles are released and its context is gone (R72, R298). -/
def freeSlot (s : State) (k : Nat) : State :=
  let s := setHart (withdrawRecord s k) k Hart.reset
  let n := clusterOfSlot k
  let c := clusterAt s n
  let s := setCluster s n { c with mwait := c.mwait.filter fun x => x.1 != k }
  { s with slots := tdel s.slots k }

/-- The hart is in a release (phase 1), a turn (phase 3) or behind its silhouette (phase 4) that waits for acknowledgements
(R109, R132, R133). -/
def Hart.awaitsAcks (h : Hart) : Bool := h.phase == 1 || h.phase == 3 || h.phase == 4

/-- A hart that must stop while its release or turn waits lets the acknowledgements arrive first; a release then advances
RCNT (R111, R132; DEDUCED, log 5). Flits that meet a pair with no member in service follow when one returns: the stop does not
wait for them (R392; DESIGN CHOICE, log 5). -/
def settlePhase (s : State) (k : Nat) : State :=
  let h := hartAt s k
  if h.awaitsAcks then
    let s := flush s
    let s := if h.phase = 1 then advanceRcnt s (coreOfSlot k) else s
    setHart s k { hartAt s k with phase := 0 }
  else s

/-- The queued commands of a slot are removed, and a running one stops at a run boundary (R327); a release of the sequencer
that has published gets its acknowledgements first, as far as the links in service let it (DESIGN CHOICE, log 5). -/
def removeCommands (s : State) (k : Nat) : State :=
  let n := clusterOfSlot k
  let published := (clusterAt s n).copyq.any fun x => x.slot == k && x.phase == 1
  let s := if published then advanceRcnt (flush s) (prodCopy n) else s
  let c := clusterAt s n
  setCluster s n { c with copyq := c.copyq.filter fun x => x.slot != k }

/-- Accounts for a run that ends: CYCLES from the first instruction (Table 04.5). (DESIGN CHOICE, log 4.) -/
def endRun (s : State) (r : StepRec) : State × StepRec :=
  let ks := slotsOfStep s r.handle
  let r := { r with cores := ks.map coreOfSlot, stopping := none }
  if ks.any fun k => (hartAt s k).began then (nextTick s, { r with cycles := r.cycles + Config.elapsed s.tick }) else (s, r)

/-- The harts of a step end: commands removed, slots freed, barriers dropped; and records of it that still wait for their harts to
start are dropped. -/
def endHarts (s : State) (handle : Nat) : State :=
  let s := dropBound s handle fun _ => true
  let s := (slotsOfStep s handle).foldl (fun s k => freeSlot (removeCommands (settlePhase s k) k) k) s
  { s with disp := { s.disp with barriers := s.disp.barriers.filter fun b => b.handle != handle } }

/-- The harts of a step that is over stop: commands removed, requests and barriers dropped, contexts gone; their slots become
EMPTY once its record is written (R72, R85). Records of it that still wait for their harts to start are dropped. -/
def stopHarts (s : State) (handle : Nat) : State :=
  let s := dropBound s handle fun _ => true
  let s := (slotsOfStep s handle).foldl (fun s k =>
    let s := withdrawRecord (removeCommands (settlePhase s k) k) k
    let n := clusterOfSlot k
    let c := clusterAt s n
    let s := setCluster s n { c with mwait := c.mwait.filter fun x => x.1 != k }
    setHart s k { Hart.reset with steph := BitVec.ofNat 32 handle, tdone := some 0 }) s
  { s with disp := { s.disp with barriers := s.disp.barriers.filter fun b => b.handle != handle } }

/-- The words of a step's completion record (Table 04.5), without TEND. OVR is that of the step as it ends: 0 where EXTEND or RETRY
has cleared it since its last overrun. (DESIGN CHOICE, log 28.) -/
def recordWords (r : StepRec) (outcome cause : Nat) (frec : Word) : List Word :=
  let core := r.cores.foldl min 255
  let w0 := (if r.ran then BitVec.ofNat 64 core else 0) <<< 56 ||| (BitVec.ofBool (!r.ran)).setWidth 64 <<< 47 |||
    (BitVec.ofBool (r.ovr || outcome == 2)).setWidth 64 <<< 46 ||| (BitVec.ofBool r.nr).setWidth 64 <<< 45 |||
    BitVec.ofNat 64 (r.used % 8) <<< 42 ||| BitVec.ofNat 64 (cause % 64) <<< 36 ||| BitVec.ofNat 64 outcome <<< 32 |||
    BitVec.ofNat 64 r.handle
  [w0, if r.ran then BitVec.ofNat 64 r.cycles else 0, BitVec.ofNat 64 r.energy, if r.ran then r.tstart else 0, 0, frec, 0, 0]

/-- A window without one of its firings. -/
def Win.without (w : Win) (handle : Nat) : Win := { w with firings := w.firings.filter (· != handle) }

/-- A window is retained until it is expired and every step queued for it has completed (R382). -/
def Win.retained (w : Win) : Bool := !(w.state == 3 && w.firings.isEmpty && w.late.isEmpty)

/-- FIRING_STEP_COMPLETE: the windows that a step fired no longer wait for it, and those no longer retained are reclaimed
(R382, R384). -/
def Graph.firingDone (handle : Nat) (g : Graph) : Graph :=
  { g with wins := (g.wins.map (·.without handle)).filter Win.retained }

def firingDone (s : State) (handle : Nat) : State :=
  noteRises s
    { s with mer := { s.mer with graphs := List.map (fun x : Nat × Graph => (x.1, x.2.firingDone handle)) s.mer.graphs } }

/-- The step is over: its record waits for the ring (R84, R85). -/
def completeStep (s : State) (r : StepRec) (outcome cause : Nat) (frec : Word) : State :=
  let s := setStep s { r with place := .retiring, outcome := some (outcome, cause, frec), recs := [] }
  { s with disp := { s.disp with records := s.disp.records ++ [⟨r.handle, recordWords r outcome cause frec, true⟩] } }

/-- The dispatcher ends a step at once (R83, R88, R232): held granules are discarded, the rest drains unpublished, and its slots
wait for its record (R72). -/
def endStep (s : State) (handle : Nat) (outcome cause : Nat) (frec : Word) : State :=
  match findStep s handle with
  | some r =>
    let (s, r) := endRun s r
    completeStep (stopHarts (discardHeld s handle) handle) r outcome cause frec
  | none =>
    -- a hart outside any step the dispatcher knows: its slot is freed
    endHarts s handle

/-- A retryable step is aborted for a rerun (R79): it is requeued, with a retry used when asked, or completes with FAULT
when no retry is left; its slots then wait for its record (R72). -/
def abortStep (s : State) (handle : Nat) (useRetry : Bool) (chkx : Option Nat) (cause : Nat) (frec : Word) : State :=
  match findStep s handle with
  | some r =>
    let (s, r) := endRun s r
    let s := discardHeld s handle
    let r := match chkx with | some c => { r with chkx := c + 1 } | none => r
    if useRetry && r.used ≥ r.retries then completeStep (stopHarts s handle) r 1 cause frec
    else setStep (endHarts s handle) { r with
      place := .queued, recs := [], outcome := none, used := if useRetry then r.used + 1 else r.used }
  | none => s

end Sys2Proof.Machine
end

