-- ==== Sys2Proof/Machine/Ops.lean ====
section
/-! DEFINITION. The named operations of a hart: registers (R41, R210), loop frames and the advance of the pc (R225-R227),
taking an exception (R343-R351, R83, R174) and returning from one (R345, R230). -/

namespace Sys2Proof.Machine

/-! ## Registers -/

/-- `xreg`: x0 reads zero (R41). -/
def Hart.xreg (h : Hart) (r : XIdx) : Word := if r = 0 then 0 else h.x[r.toNat]
/-- `set_xreg`: x0 ignores writes (R41). -/
def Hart.setX (h : Hart) (r : XIdx) (v : Word) : Hart :=
  if r = 0 then h else { h with x := h.x.set r.toNat v }
def Hart.vreg (h : Hart) (r : VIdx) : VReg := h.v[r.toNat]
/-- Writes a vector register and its DIRTYMAP bit (R361). -/
def Hart.setV (h : Hart) (r : VIdx) (v : VReg) : Hart :=
  { h with v := h.v.set r.toNat v, dirtymap := h.dirtymap ||| (1 : BitVec 32) <<< r.toNat }
/-- p0 reads all ones (R42, R247). -/
def Hart.preg (h : Hart) (r : PIdx) : PReg := if r = 0 then BitVec.allOnes 128 else h.p[r.toNat]
/-- p0 ignores writes (R247). -/
def Hart.setP (h : Hart) (r : PIdx) (v : PReg) : Hart :=
  if r = 0 then h else { h with p := h.p.set r.toNat v }

def xreg (s : State) (r : XIdx) : Word := s.hart.xreg r
def vreg (s : State) (r : VIdx) : VReg := s.hart.vreg r
def preg (s : State) (r : PIdx) : PReg := s.hart.preg r
def setX (s : State) (r : XIdx) (v : Word) : State := { s with hart := s.hart.setX r v }
def setV (s : State) (r : VIdx) (v : VReg) : State := { s with hart := s.hart.setV r v }
def setP (s : State) (r : PIdx) (v : PReg) : State := { s with hart := s.hart.setP r v }

/-- The hart is at kernel level (Table 23.7). -/
def kernel (s : State) : Bool := s.hart.tstat.lev

/-! ## Loop frames -/

/-- An address lies in a frame's body (R223). -/
def Frame.holds (f : Frame) (a : Word) : Bool := (a - f.start).toNat < 4 * f.len
/-- The address of a body's last instruction. -/
def Frame.last (f : Frame) : Word := f.start + BitVec.ofNat 64 (4 * f.len - 4)

/-- `frame_step` (R225): the frames left open and the next pc. -/
def frameStep : List Frame → Word → List Frame × Word
  | [], a => ([], a + 4)
  | f :: fs, a =>
    if a = f.last then
      if f.iter + 1 < f.count then ({ f with iter := f.iter + 1 } :: fs, f.start)
      else frameStep fs a
    else (f :: fs, a + 4)

/-- Frames act only while they are not suspended (R230). -/
def Hart.framesAct (h : Hart) : Bool := !h.susp

/-- The frames that still hold a target, outermost kept (R227). -/
def framesHolding (fs : List Frame) (t : Word) : List Frame := fs.filter fun f => f.holds t

/-- The hart goes on after the instruction at `a` has completed: `frame_step`, and the resumed attempt is over (R225,
R345). -/
def Hart.goOn (h : Hart) (a : Word) : Hart :=
  let r := if h.framesAct then frameStep h.frames a else (h.frames, a + 4)
  { h with frames := r.1, pc := r.2, resume := false, mid := false, waits := false, phase := 0 }

/-- The hart's instruction completes and the pc advances. -/
def Hart.advance (h : Hart) : Hart := h.goOn h.pc

/-- The hart passes over the instruction at pc, which does not count as issued: RESUME stays (R226, R345). -/
def Hart.skip (h : Hart) : Hart :=
  let r := if h.framesAct then frameStep h.frames h.pc else (h.frames, h.pc + 4)
  { h with frames := r.1, pc := r.2 }

/-- The acting hart's instruction completes. -/
def advance (s : State) : State := { s with hart := s.hart.advance }

/-- Transfers control to a target; `none` when the target lies in the innermost open body (R224 code 5, R227). -/
def Hart.jump (h : Hart) (t : Word) : Option Hart :=
  if h.framesAct then
    match h.frames with
    | [] => some { h with pc := t, resume := false, mid := false, waits := false, phase := 0 }
    | f :: fs =>
      if f.holds t then none
      else some { h with frames := framesHolding (f :: fs) t, pc := t, resume := false, mid := false, waits := false, phase := 0 }
  else some { h with pc := t, resume := false, mid := false, waits := false, phase := 0 }

/-! ## The fault record (R350, R351) -/

/-- Causes whose record holds the instruction word (Table 23.10). -/
def wordCause (c : BitVec 6) : Bool :=
  c == 0x01 || c == 0x02 || c == 0x03 || c == 0x0B || c == 0x0C || c == 0x0D || c == 0x0E || c == 0x11 || c == 0x12

/-- The eight dwords of the fault record of a trap of the acting hart. -/
def faultRecord (s : State) (t : TrapInfo) : List Word :=
  let h := s.hart
  let b := fun (x : Bool) (i : Nat) => (BitVec.ofBool x).setWidth 64 <<< i
  let w0 : Word := h.steph.setWidth 64 <<< 32 ||| h.vstart.setWidth 64 <<< 16 ||| BitVec.ofNat 64 t.npg <<< 12 |||
    b t.more 11 ||| b h.resume 10 ||| b h.tstat.lev 9 ||| b t.eng 8 ||| t.cause.setWidth 64
  let cw := if wordCause t.cause then
      ((t.word.getD s.ir).setWidth 64 ||| (t.val.extractLsb' 0 32).setWidth 64 <<< 32) :: t.words
    else t.words
  [w0, h.pc, t.addr, cw.getD 0 0, cw.getD 1 0, cw.getD 2 0, cw.getD 3 0, cw.getD 4 0]

/-- A granule whose dwords are given, lowest address first. -/
def granuleOfWords (ws : List Word) : GData :=
  (ws.take 8).foldr (fun w d => (d <<< 64) ||| w.setWidth 512) 0

/-- Writes the fault record at FRECBASE, straight to its home junction (R350); or answers, where FRECBASE cannot be used, with the
state in which the step ends. A table entry of its page that fails the walker's check is reported and scored (R168, R170, R353).
(DEDUCED, log 18.) -/
def writeRecord (s : State) (t : TrapInfo) : Except State State :=
  let va := s.hart.frecbase
  let core := curCore s
  let n := curCluster s
  match xlate s (hereTlb s) (curLaunch s) va .write with
  | .ok pa _ =>
    let gran := pa / 64
    if windowOf gran != 0 || (rangeMeeting s (64 * gran) 64).isSome then .error s
    else
      let s := drainOwn s core gran
      let s := putO3 s gran (mkGranule (granuleOfWords (faultRecord s t)) core 3 0)
      .ok (invI1 (invI2 s n (sameLine gran)) core (sameLine gran))
  | .walk f => .error (reportFault s (some core) f.addr.toNat f)
  | .wait _ => .error s
  | .page _ _ _ => .error s
  | .host _ => .error s

/-- What keeps the acting hart's fault record from being written now, if anything does: a way to its page's entry or of its
granule, or, with none, its page's move or an entry of its own that waits (R95, R150, R392). -/
def recordLeg (s : State) : Option (Option (Nat × Nat)) :=
  if s.hart.frecbase = 0 then none
  else match xlate s (hereTlb s) (curLaunch s) s.hart.frecbase .write with
    | .ok pa _ =>
      let gran := pa / 64
      let n := curCluster s
      let v := drainOwn s (curCore s) gran
      if windowOf gran != 0 || (rangeMeeting s (64 * gran) 64).isSome then none
      else if ownWaits v (curCore s) gran then some (formLeg v n gran)
      else (writeLeg v (some n) gran).map some
    | .wait leg => some leg
    | .page _ _ _ => none
    | .host _ => none
    | .walk _ => none

/-! ## Taking an exception (R343, R344) -/

/-- The hart stands at a resume point: between two units of an instruction that has passed its probe, or before an instruction
that RESUME applies to; not inside one that waits (R345, R425). -/
def Hart.atResume (h : Hart) : Bool := !h.waits && (h.resume || h.mid)

/-- The registers a trap entry writes (R344). -/
def Hart.enter (h : Hart) (t : TrapInfo) : Hart :=
  let late := t.cause == 0x10 || t.eng
  { h with
    epc := h.pc
    ecause := t.cause
    eval := t.val
    tstat := { h.tstat with
      plev := h.tstat.lev
      lev := true
      pie := h.tstat.ie
      ie := false
      rsm := t.resume || (late && h.atResume) }
    resume := false
    mid := false
    waits := false
    phase := 0
    susp := true }

/-- A check fault raises the suspicion scores (R170). -/
def scoreTrap (s : State) (t : TrapInfo) : State :=
  match t.score with
  | some (prod, path) => scoreCheck s (some (curCore s)) prod path
  | none => s

/-- A barrier arrival that the hart has signalled is withdrawn (R93, R335). -/
def withdrawArrival (s : State) (k : Nat) : State :=
  { s with disp := { s.disp with barriers := s.disp.barriers.map fun b => { b with arrived := b.arrived.filter (· != k) } } }

/-- A waiting `mattach` of a slot is withdrawn (R93, R296). -/
def withdrawRequest (s : State) (k : Nat) : State :=
  let n := clusterOfSlot k
  let c := clusterAt s n
  setCluster s n { c with mwait := c.mwait.filter fun x => x.1 != k }

/-- What a slot's hart waits for is withdrawn when it stops (R93). -/
def withdrawWaits (s : State) (k : Nat) : State := withdrawRecord (withdrawRequest (withdrawArrival s k) k) k

/-- The dispatcher takes a check fault of the acting hart's retryable step: the record is written and reported, and the step is
aborted and rerun (R79, R174). An unusable FRECBASE ends the step at once, as for any trap (R350). With FRECBASE = 0 no record
is written, and the abort report still holds what it would hold. (DEDUCED, log 18.) -/
def checkAbort (s : State) (t : TrapInfo) (handle : Nat) (chkx : Option Nat) : State :=
  if s.hart.frecbase = 0 then abortStep (report s (faultRecord s t)) handle true chkx 0x08 0
  else match writeRecord s t with
    | .error s' => endStep s' handle 1 0x08 0
    | .ok s' => abortStep (report s' (faultRecord s t)) handle true chkx 0x08 s.hart.frecbase

/-- The acting hart takes a trap: the dispatcher takes check faults of a retryable step (R79, R174); every other cause
enters the handler at TVEC, after the fault record is written (R344, R350); with TVEC = 0, or an unusable FRECBASE, the step
ends (R83, R350). -/
def enterTrap (s : State) (t : TrapInfo) : State :=
  let s := withdrawWaits s s.cur
  let handle := s.hart.steph.toNat
  let retry := (heldBy s).isSome
  let s := scoreTrap s t
  if t.cause = 0x08 && retry then checkAbort s t handle (some (curCore s))
  else if t.cause = 0x10 then
    if s.hart.tvec = 0 then endStep s handle 1 t.cause.toNat 0
    else let h := s.hart.enter t; { s with hart := { h with pc := h.tvec } }
  else if s.hart.frecbase = 0 then
    if s.hart.tvec = 0 then endStep s handle 1 t.cause.toNat 0
    else let h := s.hart.enter t; { s with hart := { h with pc := h.tvec } }
  else match writeRecord s t with
    | .error s' => endStep s' handle 1 t.cause.toNat 0
    | .ok s' =>
      if s'.hart.tvec = 0 then endStep s' handle 1 t.cause.toNat s'.hart.frecbase
      else let h := s'.hart.enter t; { s' with hart := { h with pc := h.tvec } }

/-- A trap is taken once its fault record can be written; the instruction waits till then (R350, R392). (DEDUCED, log 18.) -/
def takeTrap (s : State) (t : TrapInfo) : State :=
  match (if t.cause = 0x10 then none else recordLeg s) with
  | some leg => waiting (reportLeg s leg)
  | none => enterTrap s t

/-- Returning from an exception (R345), with the frames of R230. -/
def Hart.leave (h : Hart) : Hart :=
  let t := h.epc
  let h := { h with
    pc := t
    resume := h.tstat.rsm
    mid := false
    waits := false
    phase := 0
    tstat := { h.tstat with lev := h.tstat.plev, ie := h.tstat.pie, rsm := false } }
  if h.tstat.lev then h
  else
    let h := { h with susp := false }
    match h.frames with
    | [] => h
    | f :: fs =>
      if f.holds t then h
      else if t = f.last + 4 then
        let r := frameStep (f :: fs) f.last
        { h with frames := r.1, pc := r.2 }
      else { h with frames := framesHolding (f :: fs) t }

/-! ## Running a meaning -/

/-- What one step answers. -/
abbrev Result := Host.Outcome State Fault Refusal

/-- Runs a computation of the acting hart: a trap is taken, a wait leaves the instruction to be issued again (R93). -/
def runM (m : M Unit) (s : State) : Result :=
  match m s with
  | (.ok _, s') => .next s'
  | (.error .hold, s') => .next s'
  | (.error (.trap t), s') => .next (takeTrap s' t)

/-- The instruction completes and the pc advances. -/
def done : M Unit := modS advance

/-- The acting hart's instruction waits, and issues again (R93). -/
def waitHere (s : State) : Result := .next (waiting s)


/-- Writes a scalar result and completes. -/
def finishX (d : XIdx) (v : Word) : M Unit := modS fun s => advance (setX s d v)

/-- A register-only instruction: its result is written and the pc advances. -/
def nextX (s : State) (d : XIdx) (v : Word) : Result := .next (advance (setX s d v))

/-- Transfers control (R227). -/
def jumpM (t : Word) : M Unit := fun s =>
  match s.hart.jump t with
  | some h => (.ok (), { s with hart := h })
  | none => (.error (.trap (TrapInfo.plain 0x12 5)), s)

/-- Sets NR of the acting hart's retryable step before the instruction acts (R142). -/
def setNrM : M Unit := modS fun s =>
  match heldBy s with
  | some h => setNr s h
  | none => s

end Sys2Proof.Machine
end

