-- ==== Sys2Proof/Machine/Operands.lean ====
section
/-! DEFINITION. Operand forms: elements of vector registers and of register groups (R8, R176, R265), predicate bits (R247),
element kinds (R240), addresses of vector memory operands (R271), scratchpad and lane-store numbering (R268, R281), tile
elements (R295) and the row descriptors of the matrix unit (R302). -/

namespace Sys2Proof.Machine

/-! ## Elements -/

/-- `elem`: element `i` of width `w` bits (Table 14.6). -/
def elemN (v : VReg) (w i : Nat) : Nat := (v.extractLsb' (w * i) w).toNat

/-- `set_elem`: element `i` of width `w` replaced (Table 14.6). -/
def putN (v : VReg) (w i x : Nat) : VReg :=
  (v &&& ~~~((BitVec.allOnes 1024 >>> (1024 - w)) <<< (w * i))) ||| (BitVec.ofNat 1024 (x % 2 ^ w) <<< (w * i))

/-- `pbit`: the governing bit of element `i` (R247). -/
def pbit (p : PReg) (i : Nat) (w : Nat) : Bool := p.getLsbD (i * w / 8)

/-- `active`: the governing predicate enables element `i` (R247). -/
def Hart.active (h : Hart) (pg : PIdx) (w i : Nat) : Bool := pbit (h.preg pg) i w

/-- Writes the value `b` to element `i` of a predicate (R247). -/
def putBit (p : PReg) (i w : Nat) (b : Bool) : PReg :=
  let m : PReg := (BitVec.allOnes 128 >>> (128 - w / 8)) <<< (i * w / 8)
  if b then p ||| m else p &&& ~~~m

/-- The bits of a predicate at and above element `vl` cleared (R247). -/
def clearAbove (p : PReg) (vl w : Nat) : PReg := if vl * w / 8 ≥ 128 then p else p &&& (BitVec.allOnes 128 >>> (128 - vl * w / 8))

/-- Elements lo … hi-1 of a destination: active ones take `f i`, the others are kept, or zeroed under `z` (R242). -/
def eachElem (h : Hart) (pg : PIdx) (w : Nat) (z : Bool) (lo hi : Nat) (f : Nat → Nat) (old : VReg) : VReg :=
  forUp (hi - lo) lo (fun i v => if h.active pg w i then putN v w i (f i) else if z then putN v w i 0 else v) old

/-- The active elements in lo … hi-1, ascending. -/
def Hart.actives (h : Hart) (pg : PIdx) (w lo hi : Nat) : List Nat :=
  ((List.range (hi - lo)).map (· + lo)).filter fun i => h.active pg w i

/-! ## Register groups (R265) -/

/-- Registers of a group of `vl` elements of `w` bits. -/
def groupSize (vl w : Nat) : Nat := max 1 ((vl * w + 1023) / 1024)

/-- Element `i` of the group that starts at a register. -/
def groupElem (h : Hart) (r : VIdx) (w i : Nat) : Nat :=
  elemN (h.vreg (r + BitVec.ofNat 5 (i * w / 1024))) w (i % (1024 / w))

/-- Replaces element `i` of a group. -/
def putGroup (h : Hart) (r : VIdx) (w i x : Nat) : Hart :=
  let k := r + BitVec.ofNat 5 (i * w / 1024)
  h.setV k (putN (h.vreg k) w (i % (1024 / w)) x)

/-- Sets the DIRTYMAP bits of a group by writing each register as it stands (R244). -/
def touchGroup (h : Hart) (r : VIdx) (n : Nat) : Hart :=
  forUp n 0 (fun i h => let k := r + BitVec.ofNat 5 i; h.setV k (h.vreg k)) h

/-- A group passes `v31`. -/
def groupPast (r : VIdx) (n : Nat) : Bool := r.toNat + n > 32
/-- Two groups share a register. -/
def groupsMeet (r : VIdx) (n : Nat) (q : VIdx) (m : Nat) : Bool := r.toNat < q.toNat + m && q.toNat < r.toNat + n

/-! ## Element kinds (R240, R241) -/

/-- What an element is. -/
inductive Kind where
  | int
  | flt (f : Fmt)
  | none
  deriving DecidableEq, Repr

/-- MFC fields (Table 16.2). -/
def mfcSenc (h : Hart) : Option Fmt := Fmt.ofCode (h.mfc.extractLsb' 12 4)
def mfcRtype (h : Hart) : Nat := (h.mfc.extractLsb' 10 2).toNat
def mfcRound (h : Hart) : Rnd := Rnd.ofCode (h.mfc.extractLsb' 8 2)
def mfcSat (h : Hart) : Bool := h.mfc.getLsbD 7
def mfcBse (h : Hart) : Bool := h.mfc.getLsbD 6

/-- The element kind of a width (Table 16.4). -/
def kindOf (rtype : Nat) (ew : EW) : Kind :=
  if rtype = 0 then .int
  else if rtype = 1 then (match ew with | .h => .flt .f16 | .w => .flt .f32 | .b => .none | .d => .none)
  else (match ew with | .h => .flt .bf16 | .b => .none | .w => .none | .d => .none)

def Hart.kind (h : Hart) (ew : EW) : Kind := kindOf (mfcRtype h) ew

/-- The classes of Table 16.5. -/
inductive Class where
  | B | I | FI | F
  deriving DecidableEq, Repr

def Class.admits (c : Class) (k : Kind) : Bool :=
  match c, k with
  | .B, _ => true
  | .I, .int => true
  | .I, .flt _ => false
  | .I, .none => false
  | .FI, .int => true
  | .FI, .flt _ => true
  | .FI, .none => false
  | .F, .int => false
  | .F, .flt _ => true
  | .F, .none => false

/-! ## Addresses of vector memory operands (R271) -/

/-- The address forms: ADDR 00, 01 and 10, and 11, the unit stride of `vldff`. -/
inductive Addr where
  | unit
  | first
  | strided (b : XIdx)
  | indexed (b : VIdx)
  deriving DecidableEq, Repr

/-- The address of element `i`: `wm` is the memory element's width in bits, `w` the register's. -/
def Hart.elemAddr (h : Hart) (a : XIdx) (m : Addr) (wm w i : Nat) : Word :=
  match m with
  | .unit => h.xreg a + BitVec.ofNat 64 (i * wm / 8)
  | .first => h.xreg a + BitVec.ofNat 64 (i * wm / 8)
  | .strided b => h.xreg a + BitVec.ofNat 64 i * h.xreg b
  | .indexed b => h.xreg a + BitVec.ofNat 64 (elemN (h.vreg b) w i)

/-- Bytes that an element of `wm` bits touches. -/
def elemBytes (wm : Nat) : Nat := max 1 (wm / 8)

/-! ## Scratchpad and lane store (R268, R281) -/

/-- Bytes of a core's scratchpad space. -/
def spSize (c : CoreSt) : Nat := 8192 * (spBanks c.bankrole).length

/-- The key of the line that holds an offset: 64·bank + line of the bank. -/
def spKey (c : CoreSt) (off : Nat) : Nat := 64 * (spBanks c.bankrole).getD (off / 8192) 0 + off % 8192 / 128

/-- A line nothing has written: its bit clear and its data not defined (R63). -/
def spLine (c : CoreSt) (off : Nat) : SpLine := tgetD c.sp (spKey c off) ⟨false, none, none⟩

/-- A granule of a line, with its provenance; a free value where the data is not defined (R63, DESIGN CHOICE, log 7). -/
def spGranule (core : Nat) (c : CoreSt) (off : Nat) : Granule × Word :=
  let l := spLine c off
  let slot := 2 * spKey c off + off / 64 % 2
  let u := Config.undefinedGranule core slot
  (if off / 64 % 2 = 0 then l.lo else l.hi).getD (⟨u.1, u.2⟩, 0)

/-- A lane's granule with its provenance: after the hart's start zero bytes, PROD the core, LEVEL 1, RC 0 (R281). -/
def laneGranule (core : Nat) (c : CoreSt) (key : Nat) : Granule × Word := tgetD c.ls key (mkGranule 0 core 1 0, 0)

/-! ## Tiles (R295, R182) -/

def Tile.zero : Tile := ⟨0, 0⟩
/-- Container of element (i, j). -/
def Tile.get (t : Tile) (i j : Nat) : Nat := (t.cont.extractLsb' (32 * (32 * i + j)) 32).toNat
def Tile.getGuard (t : Tile) (i j : Nat) : Nat := (t.guard.extractLsb' (8 * (32 * i + j)) 8).toNat
/-- The elements (i, j) in row order. -/
def tileIndices : List (Nat × Nat) := (List.range 32).flatMap fun i => (List.range 32).map fun j => (i, j)
/-- A tile from its elements, in row order: container and guard residue. -/
def Tile.build (f : Nat → Nat → Nat × Nat) : Tile :=
  let es := tileIndices.map fun ij => f ij.1 ij.2
  ⟨BitVec.ofNat 32768 (es.foldr (fun e n => e.1 % 2 ^ 32 + 2 ^ 32 * n) 0),
   BitVec.ofNat 8192 (es.foldr (fun e n => e.2 % 256 + 256 * n) 0)⟩
/-- A container written other than by RNS3 accumulation, with the guard residue it takes (R295). -/
def newElement (c : Nat) : Nat × Nat := (c, rnsGuard (rnsValue c))

/-- Row and column enables of PRC: row `i` by bit `i`, column `j` by bit 32 + `j` (R204). -/
def rowOn (p : PReg) (i : Nat) : Bool := p.getLsbD i
def colOn (p : PReg) (j : Nat) : Bool := p.getLsbD (32 + j)

/-- Address of row `r` of a descriptor: base [47:0], stride [63:48] in units of 32 bytes (R204, R302). -/
def rowAddr (desc : Word) (r : Nat) : Word :=
  (desc.extractLsb' 0 48).setWidth 64 + BitVec.ofNat 64 (32 * (desc.extractLsb' 48 16).toNat * r)

end Sys2Proof.Machine
end

