-- ==== Sys2Proof/Machine/Frames.lean ====
section
/-! DEFINITION. What open loop frames do to an instruction before it issues: whether every frame allows it (R226), and the
vector register numbers it names (R227). -/

namespace Sys2Proof.Machine

/-- Frame `f` allows body instruction at `a` on this iteration (R226). -/
def Frame.allows (f : Frame) (a : Word) : Bool :=
  let j := (a - f.start).toNat / 4
  let first := f.flags.testBit (2 * j)
  let last := f.flags.testBit (2 * j + 1)
  (!first && !last) || (first && f.iter == 0) || (last && f.iter + 1 == f.count)

/-- Every open frame whose body holds the instruction allows it (R226). -/
def Hart.frameAllows (h : Hart) (a : Word) : Bool :=
  !h.framesAct || h.frames.all fun f => !f.holds a || f.allows a

/-- The sum of ITER times an increment over the open frames whose body holds the instruction, mod 32 (R227). -/
def Hart.staggerBy (h : Hart) (a : Word) (inc : Frame → Nat) : BitVec 5 :=
  if h.framesAct then BitVec.ofNat 5 (h.frames.foldl (fun t f => if f.holds a then t + f.iter * inc f else t) 0) else 0

/-- Replaces the vector register fields of an instruction (R227): `dd` for D, `da` for A, `db` for B. An instruction with no
vector register field is unchanged. -/
def stagger (dd da db : BitVec 5) (i : Instr) : Instr :=
  match i with
  | .vadd d a b pg ew sat rnd z => .vadd (d + dd) (a + da) (b + db) pg ew sat rnd z
  | .vsub d a b pg ew sat rnd z => .vsub (d + dd) (a + da) (b + db) pg ew sat rnd z
  | .vmul d a b pg ew z => .vmul (d + dd) (a + da) (b + db) pg ew z
  | .vmulh d a b pg ew z => .vmulh (d + dd) (a + da) (b + db) pg ew z
  | .vmulhu d a b pg ew z => .vmulhu (d + dd) (a + da) (b + db) pg ew z
  | .vdiv d a b pg ew z => .vdiv (d + dd) (a + da) (b + db) pg ew z
  | .vdivu d a b pg ew z => .vdivu (d + dd) (a + da) (b + db) pg ew z
  | .vrem d a b pg ew z => .vrem (d + dd) (a + da) (b + db) pg ew z
  | .vremu d a b pg ew z => .vremu (d + dd) (a + da) (b + db) pg ew z
  | .vmin d a b pg ew z => .vmin (d + dd) (a + da) (b + db) pg ew z
  | .vmax d a b pg ew z => .vmax (d + dd) (a + da) (b + db) pg ew z
  | .vminu d a b pg ew z => .vminu (d + dd) (a + da) (b + db) pg ew z
  | .vmaxu d a b pg ew z => .vmaxu (d + dd) (a + da) (b + db) pg ew z
  | .vand d a b pg ew z => .vand (d + dd) (a + da) (b + db) pg ew z
  | .vor d a b pg ew z => .vor (d + dd) (a + da) (b + db) pg ew z
  | .vxor d a b pg ew z => .vxor (d + dd) (a + da) (b + db) pg ew z
  | .vavg d a b pg ew z => .vavg (d + dd) (a + da) (b + db) pg ew z
  | .vabsd d a b pg ew z => .vabsd (d + dd) (a + da) (b + db) pg ew z
  | .vaddx d a b pg ew z => .vaddx (d + dd) (a + da) b pg ew z
  | .vsubx d a b pg ew z => .vsubx (d + dd) (a + da) b pg ew z
  | .vrsubx d a b pg ew z => .vrsubx (d + dd) (a + da) b pg ew z
  | .vmulx d a b pg ew z => .vmulx (d + dd) (a + da) b pg ew z
  | .vmulhx d a b pg ew z => .vmulhx (d + dd) (a + da) b pg ew z
  | .vdivx d a b pg ew z => .vdivx (d + dd) (a + da) b pg ew z
  | .vdivux d a b pg ew z => .vdivux (d + dd) (a + da) b pg ew z
  | .vremx d a b pg ew z => .vremx (d + dd) (a + da) b pg ew z
  | .vremux d a b pg ew z => .vremux (d + dd) (a + da) b pg ew z
  | .vminx d a b pg ew z => .vminx (d + dd) (a + da) b pg ew z
  | .vmaxx d a b pg ew z => .vmaxx (d + dd) (a + da) b pg ew z
  | .vminux d a b pg ew z => .vminux (d + dd) (a + da) b pg ew z
  | .vmaxux d a b pg ew z => .vmaxux (d + dd) (a + da) b pg ew z
  | .vandx d a b pg ew z => .vandx (d + dd) (a + da) b pg ew z
  | .vorx d a b pg ew z => .vorx (d + dd) (a + da) b pg ew z
  | .vxorx d a b pg ew z => .vxorx (d + dd) (a + da) b pg ew z
  | .vmacc d a b pg ew z => .vmacc (d + dd) (a + da) (b + db) pg ew z
  | .vmsac d a b pg ew z => .vmsac (d + dd) (a + da) (b + db) pg ew z
  | .vneg d a pg ew z => .vneg (d + dd) (a + da) pg ew z
  | .vabs d a pg ew z => .vabs (d + dd) (a + da) pg ew z
  | .vnot d a pg ew z => .vnot (d + dd) (a + da) pg ew z
  | .vsqrt d a pg ew z => .vsqrt (d + dd) (a + da) pg ew z
  | .vclz d a pg ew z => .vclz (d + dd) (a + da) pg ew z
  | .vctz d a pg ew z => .vctz (d + dd) (a + da) pg ew z
  | .vpopc d a pg ew z => .vpopc (d + dd) (a + da) pg ew z
  | .vmv d a pg ew z => .vmv (d + dd) (a + da) pg ew z
  | .vcmpVv c d a b pg ew z => .vcmpVv c d (a + da) (b + db) pg ew z
  | .vcmpVx c d a b pg ew z => .vcmpVx c d (a + da) b pg ew z
  | .vslideup d a b pg ew z => .vslideup (d + dd) (a + da) b pg ew z
  | .vslidedn d a b pg ew z => .vslidedn (d + dd) (a + da) b pg ew z
  | .vrgather d a b pg ew z => .vrgather (d + dd) (a + da) (b + db) pg ew z
  | .vcompress d a pg ew z => .vcompress (d + dd) (a + da) pg ew z
  | .viota d pg ew z => .viota (d + dd) pg ew z
  | .vsplat d a pg ew z => .vsplat (d + dd) a pg ew z
  | .vmvx d a b ew => .vmvx d (a + da) b ew
  | .vins d a b ew => .vins (d + dd) a b ew
  | .vredsum d a b pg ew => .vredsum d (a + da) b pg ew
  | .vredmin d a b pg ew => .vredmin d (a + da) b pg ew
  | .vredmax d a b pg ew => .vredmax d (a + da) b pg ew
  | .vredminu d a b pg ew => .vredminu d (a + da) b pg ew
  | .vredmaxu d a b pg ew => .vredmaxu d (a + da) b pg ew
  | .vredand d a b pg ew => .vredand d (a + da) b pg ew
  | .vredor d a b pg ew => .vredor d (a + da) b pg ew
  | .vredxor d a b pg ew => .vredxor d (a + da) b pg ew
  | .vscansum d a pg ew z => .vscansum (d + dd) (a + da) pg ew z
  | .vscanmax d a pg ew z => .vscanmax (d + dd) (a + da) pg ew z
  | .vscanmin d a pg ew z => .vscanmin (d + dd) (a + da) pg ew z
  | .vcvt dst src d a rnd sat => .vcvt dst src (d + dd) (a + da) rnd sat
  | .vquant dst src d a x => .vquant dst src (d + dd) (a + da) x
  | .vdquant dst src d a x => .vdquant dst src (d + dd) (a + da) x
  | .vsll d a b pg ew z => .vsll (d + dd) (a + da) (b + db) pg ew z
  | .vsrl d a b pg ew z => .vsrl (d + dd) (a + da) (b + db) pg ew z
  | .vsra d a b pg ew z => .vsra (d + dd) (a + da) (b + db) pg ew z
  | .vrol d a b pg ew z => .vrol (d + dd) (a + da) (b + db) pg ew z
  | .vbfx d a b pg ew z => .vbfx (d + dd) (a + da) (b + db) pg ew z
  | .vbfxu d a b pg ew z => .vbfxu (d + dd) (a + da) (b + db) pg ew z
  | .vbfi d a b pg ew z => .vbfi (d + dd) (a + da) (b + db) pg ew z
  | .vfsl d a b pg ew z => .vfsl (d + dd) (a + da) (b + db) pg ew z
  | .vfsr d a b pg ew z => .vfsr (d + dd) (a + da) (b + db) pg ew z
  | .vaddi d a m pg ew z => .vaddi (d + dd) (a + da) m pg ew z
  | .vrsubi d a m pg ew z => .vrsubi (d + dd) (a + da) m pg ew z
  | .vandi d a m pg ew z => .vandi (d + dd) (a + da) m pg ew z
  | .vori d a m pg ew z => .vori (d + dd) (a + da) m pg ew z
  | .vxori d a m pg ew z => .vxori (d + dd) (a + da) m pg ew z
  | .vslli d a m pg ew z => .vslli (d + dd) (a + da) m pg ew z
  | .vsrli d a m pg ew z => .vsrli (d + dd) (a + da) m pg ew z
  | .vsrai d a m pg ew z => .vsrai (d + dd) (a + da) m pg ew z
  | .vsplati d m pg ew z => .vsplati (d + dd) m pg ew z
  | .vmini d a m pg ew z => .vmini (d + dd) (a + da) m pg ew z
  | .vmaxi d a m pg ew z => .vmaxi (d + dd) (a + da) m pg ew z
  | .vldUnit d a pg ew cv space => .vldUnit (d + dd) a pg ew cv space
  | .vldStrided d a b pg ew cv space => .vldStrided (d + dd) a b pg ew cv space
  | .vldIndexed d a b pg ew cv space => .vldIndexed (d + dd) a (b + db) pg ew cv space
  | .vldff d a pg ew cv => .vldff (d + dd) a pg ew cv
  | .vstUnit d a pg ew cv space => .vstUnit (d + dd) a pg ew cv space
  | .vstStrided d a b pg ew cv space => .vstStrided (d + dd) a b pg ew cv space
  | .vstIndexed d a b pg ew cv space => .vstIndexed (d + dd) a (b + db) pg ew cv space
  | .vldl d a b pg ew z => .vldl (d + dd) a (b + db) pg ew z
  | .vstl d a b pg ew => .vstl (d + dd) a (b + db) pg ew
  | .vamoadd d a b pg dbl z => .vamoadd (d + dd) a (b + db) pg dbl z
  | .vamomin d a b pg dbl z => .vamomin (d + dd) a (b + db) pg dbl z
  | .vamomax d a b pg dbl z => .vamomax (d + dd) a (b + db) pg dbl z
  | .vamominu d a b pg dbl z => .vamominu (d + dd) a (b + db) pg dbl z
  | .vamomaxu d a b pg dbl z => .vamomaxu (d + dd) a (b + db) pg dbl z
  | .vamoand d a b pg dbl z => .vamoand (d + dd) a (b + db) pg dbl z
  | .vamoor d a b pg dbl z => .vamoor (d + dd) a (b + db) pg dbl z
  | .vamoxor d a b pg dbl z => .vamoxor (d + dd) a (b + db) pg dbl z
  | .vamoswap d a b pg dbl z => .vamoswap (d + dd) a (b + db) pg dbl z
  | .redst d a b pg ew => .redst (d + dd) a (b + db) pg ew
  | .gather d a b pg dbl z => .gather (d + dd) a (b + db) pg dbl z
  | .mrank acc a b prc pk fmt z => .mrank acc (a + da) (b + db) prc pk fmt z
  | j => j

/-- The instruction as its frames number its registers (R227). -/
def staggered (h : Hart) (i : Instr) : Instr :=
  if h.framesAct && !h.frames.isEmpty then
    stagger (h.staggerBy h.pc Frame.dinc) (h.staggerBy h.pc Frame.ainc) (h.staggerBy h.pc Frame.binc) i
  else i

end Sys2Proof.Machine
end

