-- ==== Sys2Proof/Machine/Traps.lean ====
section
/-! DEFINITION. Instruction fetch (R200) and the events between instructions: interrupts (R348, R349), engine faults (R326),
fetch faults and illegal words (R206). -/

namespace Sys2Proof.Machine

/-- The word fetched at the acting hart's pc, a consumer at relation 3 (R200, R424). Where the pc is misaligned nothing is
fetched, and the record's instruction word is 0. (DESIGN CHOICE, log 18.) -/
def fetchWord : M (BitVec 32) := fun s =>
  let pc := s.hart.pc
  if pc.extractLsb' 0 2 != 0 then (.error (.trap (TrapInfo.plain 0x03 pc)), { s with ir := 0 })
  else match translateFor (hereTlb s) (curLaunch s) pc .fetch { s with ir := 0 } with
    | (.error e, s') => (.error e, s')
    | (.ok (pa, _), s') =>
      let gran := pa / 64
      let core := curCore s'
      let n := curCluster s'
      let f := peekI1 s' core gran
      let r : Except Stop Granule × State :=
        match noWay s' n gran f.src false with
        | some l => (.error .hold, reportRoute s' l.1 l.2)
        | none =>
          if windowOf gran != 0 then readRemote .far (some n) pc gran s'
          else consumeM .far (some core) (some n) pc gran f (fillI1 s' core gran)
      match r with
      | (.error e, s'') => (.error e, s'')
      | (.ok g, s'') =>
        let w := BitVec.ofNat 32 (granuleBytes g.data (pa % 64) 4)
        (.ok w, { s'' with ir := w })

/-- The harts of a slot's step have stopped for a switch-out that is still to come (R362). -/
def stopped (s : State) (k : Nat) : Bool := (findStep s (hartAt s k).steph.toNat).any fun r => r.stopping.isSome

/-- The acting slot has a hart that issues instructions. -/
def acting (s : State) : Bool := (slotAt s s.cur).st == .running && s.hart.tdone.isNone && !stopped s s.cur

/-- The acting hart issues the instruction at its pc: its open frames allow it (R226). -/
def issues (s : State) : Bool := acting s && s.hart.frameAllows s.hart.pc

/-- The trap of a fetch that faults: an attempt that stands at a resume point has not issued, so the entry is one too
(R345, R425). (DEDUCED, log 18.) -/
def fetchTrap (h : Hart) (t : TrapInfo) : TrapInfo := { t with resume := t.resume || h.atResume }

/-- FETCH_FAULT: the fetch at pc faults, and EPC names the address that could not be fetched (R200). Nothing has issued, so while
its fault record cannot be written no instruction waits: the fetch is tried again (R350, R392, R425). (DEDUCED, log 18.) -/
def execFetchFault (s : State) : Result :=
  if issues s then
    match fetchWord s with
    | (.error .hold, s') => .next s'
    | (.error (.trap t), s') =>
      .next (match recordLeg s' with
        | some leg => reportLeg s' leg
        | none => enterTrap s' (fetchTrap s.hart t))
    | (.ok _, _) => .next s
  else .next s

/-- ILLEGAL_WORD: a fetched word that names no instruction (R206). One that an open frame does not allow is skipped as any
other word: it raises no trap (R226). (DEDUCED, log 18.) -/
def execIllegalWord (word : BitVec 32) (s : State) : Result :=
  if issues s then
    match fetchWord s with
    | (.ok w, s') =>
      if w = word && (decodeWord word).isNone then .next (takeTrap s' (TrapInfo.plain 0x01 (word.setWidth 64)))
      else .next s
    | (.error _, _) => .next s
  else .next s

/-- The pipe index that PIPEMAP gives a queue register: `qin` q is field q, `qout` q is field 4 + q (Table 04.3). -/
def pipeIndex (rcd : BindRec) (field : Nat) : Nat := ((rcd.getD 7 0).extractLsb' (4 * field) 4).toNat

/-- A bound inbound queue holds a word (TSTAT.QIP). -/
def qip (s : State) (k : Nat) : Bool :=
  (List.range 4).any fun q => pipeIndex (slotAt s k).rcd q != 0 && !((hartAt s k).qin.toList.getD q []).isEmpty

/-- The notice queue holds a word (TSTAT.NIP). -/
def nip (h : Hart) : Bool := !h.notices.isEmpty

/-- Interrupt sources that are pending: timer, queue, notice (R348). -/
def pendingSources (s : State) (k : Nat) : BitVec 3 :=
  BitVec.ofBool (nip (hartAt s k)) ++ BitVec.ofBool (qip s k) ++ BitVec.ofBool (hartAt s k).tstat.tip

/-- The sources enabled (R348). -/
def enabledSources (h : Hart) : BitVec 3 := BitVec.ofBool h.tstat.nie ++ BitVec.ofBool h.tstat.qie ++ BitVec.ofBool h.tstat.tie

/-- The sources an interrupt of a slot would take now; 0 when none is taken (R348, R349): none while a release or a turn
waits for its acknowledgements (R111, R132). (DEDUCED, log 36.) -/
def takenSources (s : State) (k : Nat) : BitVec 3 :=
  let h := hartAt s k
  if h.tstat.ie && h.tdone.isNone && !h.awaitsAcks && !stopped s k then pendingSources s k &&& enabledSources h else 0

/-- A `wait` completes before an interrupt that it has waited for is taken, so EPC names the next instruction (R232). -/
def endWait (s : State) : State := if s.hart.phase = 5 && pendingSources s s.cur != 0 then advance s else s

/-- A hart at user level has an engine fault to take, outside a release or a turn that waits (R326, R349). -/
def engineFaultDue (h : Hart) : Bool := !h.engineFaults.isEmpty && !h.tstat.lev && h.tdone.isNone && !h.awaitsAcks

/-- INTERRUPT: a pending enabled source is taken; an engine fault that awaits delivery is taken before it, and words that an open
frame skips are passed over first, so that EPC names the next instruction to issue (R226, R348, R349). -/
def execInterrupt (core : Nat) (s : State) : Result :=
  match runningSlot s core with
  | some k =>
    let v := takenSources s k
    let u := endWait (switchTo s k)
    if v = 0 || engineFaultDue (hartAt s k) || !u.hart.frameAllows u.hart.pc then .next s
    else .next (takeTrap u (TrapInfo.plain 0x10 (v.setWidth 64)))
  | none => .next s

/-- ENGINE_FAULT_DELIVERY: a pending engine fault is taken at an instruction boundary at user level (R326), before the next
instruction to issue (R226, R349), once its record can be written (R350, R392). -/
def execEngineFaultDelivery (core : Nat) (s : State) : Result :=
  match runningSlot s core with
  | some k =>
    let h := hartAt s k
    match h.engineFaults with
    | t :: rest =>
      if engineFaultDue h && h.frameAllows h.pc && !stopped s k then
        let s := switchTo s k
        .next (match recordLeg s with
          | some leg => reportLeg s leg
          | none => takeTrap { s with hart := { s.hart with engineFaults := rest } } t)
      else .next s
    | [] => .next s
  | none => .next s

end Sys2Proof.Machine
end

