-- ==== Sys2Proof/Machine/Ordering.lean ====
section
/-! DEFINITION. Fences, releases, acquires and turns (R106-R111, R127-R136, R287-R290). -/

namespace Sys2Proof.Machine

/-! ## Releases (R132, Table 08.1) -/

/-- The drains of a release of producer `prod` in cluster `n`; `core` is the core whose O1 it has, none for an engine. -/
def releaseDrain (s : State) (n : Nat) (core : Option Nat) (prod l : Nat) : State :=
  let o1 := match core with | some c => o1Keys s c | none => []
  if l ≤ 1 then
    match core with
    | some c =>
      let s := o1.foldl (fun s k => match tget (coreAt s c).o1 k with
        | some e => placeLevel1 s c k e.g e.seq
        | none => s) s
      (o2Keys s n prod).foldl (fun s k => match tget (clusterAt s n).o2 k with
        | some e => if o1.contains k then s else placeLevel1 s c k e.g e.seq
        | none => s) s
    | none => s
  else
    let s := match core with | some c => o1.foldl (fun s k => drainO1 s c k) s | none => s
    if l = 2 then
      (o2Keys s n prod).foldl (fun s k => match tget (clusterAt s n).o2 k with
        | some e => placeLevel2 s n k e.g e.seq
        | none => s) s
    else
      let s := (o2Keys s n prod).foldl (fun s k => drainO2 s n k) s
      let s := match core with | some c => combinePartials s n (fun p => p.core == c) | none => s
      if l = 3 then s
      else ((s.ports.buffer.filter fun x => x.2.g.prod == prod).map (·.1)).foldl deliverRemote s

/-- Publication at a level; at levels 3 and 4 the replicas are updated by multicast (R131). -/
def releasePublish (s : State) (prod l : Nat) : State :=
  let old := countsAt s prod
  let s := publish s prod l
  if l ≥ 3 then multicast s (.count prod prod l old.rcnt) old else s

/-- What the drains of a level have left behind: granules of an O1, and at the home junctions' levels granules of O2 and
partials, that find no way; at levels 1 and 2 granules whose line finds none into the I2 that is to hold the copy (R94, R392). -/
def undrained (s : State) (n : Nat) (core : Option Nat) (prod l : Nat) : Bool :=
  (l ≤ 1 && core.any fun c => (o1Keys s c ++ o2Keys s n prod).any fun g => (lineLeg s n g).isSome) ||
  (l == 2 && (o2Keys s n prod).any fun g => (lineLeg s n g).isSome) || (l ≥ 2 && core.any fun c => !(o1Keys s c).isEmpty) ||
    (l ≥ 3 && ((core.any fun c => (clusterAt s n).partials.any fun p => p.core == c && p.held.isNone) ||
      !(o2Keys s n prod).isEmpty))

/-- The drains of a release and, once they are done, its publication up to the acknowledgements of the replicas (R132 steps 2
and 3); and whether it has published. -/
def release (s : State) (n : Nat) (core : Option Nat) (prod l : Nat) : State × Bool :=
  let s := releaseDrain s n core prod l
  if undrained s n core prod l then (s, false) else (releasePublish s prod l, true)

/-- Copy commands of a slot that are queued or running. -/
def copiesOf (s : State) (k : Nat) : Bool := (clusterAt s (clusterOfSlot k)).copyq.any fun c => c.slot == k

/-- The release of the acting hart, in the phases of R132: it waits for earlier operations, drains and publishes, and waits
for the acknowledgements; then `RCNT := RCNT + 1`. (DEDUCED, log 5.) -/
def releaseM (l : Nat) : M Unit := fun s =>
  let core := curCore s
  let finish := fun (s : State) =>
    let s := advanceRcnt s core
    ((.ok () : Except Stop Unit), { s with hart := { s.hart with phase := 0 } })
  if s.hart.phase = 1 then (if acked s core then finish s else holdM s)
  else if copiesOf s s.cur then holdM s
  else
    let r := release s (curCluster s) (some core) core l
    if !r.2 then holdM r.1
    else if acked r.1 core then finish r.1
    else holdM { r.1 with hart := { r.1.hart with phase := 1 } }

/-! ## Attachments (R133-R135) -/

/-- The line of a flag is marked attachment lost. -/
def isLost (s : State) (gran : Nat) : Bool := s.lost.contains (gran / 2)

/-- Attachments held by a junction slice, oldest attachment first. -/
def sliceAttachments (s : State) (j : Nat) : List (Nat × Attachment) := s.attach.filter fun x => junctionOf s x.1 == j

/-- The least recently attached flag of a slice. -/
def oldestAttachment : List (Nat × Attachment) → Option (Nat × Attachment)
  | [] => none
  | x :: t => match oldestAttachment t with
    | some y => some (if y.2.seq < x.2.seq then y else x)
    | none => some x

/-- Drops an attachment and marks its line attachment lost (R134). -/
def loseAttachment (s : State) (gran : Nat) : State :=
  { s with attach := tdel s.attach gran, lost := if s.lost.contains (gran / 2) then s.lost else gran / 2 :: s.lost }

/-- ORs a silhouette into a flag's attachment, evicting the least recently attached of 64 (R133, R134). -/
def attachTo (s : State) (gran : Nat) (sil : Sil) : State :=
  if isLost s gran then s
  else
    let old := match tget s.attach gran with | some a => a.sil | none => 0
    let mine := sliceAttachments s (junctionOf s gran)
    let s := if (tget s.attach gran).isSome || mine.length < 64 then s
      else match oldestAttachment mine with
        | some x => loseAttachment s x.1
        | none => s
    -- an eviction may have marked this very line
    if isLost s gran then s
    else { s with
      attach := tput s.attach gran ⟨old ||| sil, s.disp.seq⟩
      disp := { s.disp with seq := s.disp.seq + 1 } }

/-- An acquirer acts on a flag's attachment (R135). -/
def acquire (s : State) (gran : Nat) : State :=
  let core := curCore s
  if isLost s gran then
    let s := invI1 (invI2 s (curCluster s) fun _ => true) core fun _ => true
    { s with hart := { s.hart with sil := BitVec.allOnes 1024 } }
  else match tget s.attach gran with
    | some a =>
      let s := applySil s core a.sil true
      { s with hart := { s.hart with sil := s.hart.sil ||| a.sil } }
    | none => s

/-! ## Accesses at the home junction -/

/-- The level of the leaf that maps an address; 0 where none does. -/
def leafLevel (s : State) (va : Word) : Nat :=
  match leafFor s (hereTlb s) (curLaunch s) va with
  | .leaf _ level => level
  | .notPresent _ => 0
  | .bad _ => 0
  | .unbound _ => 0
  | .fault _ => 0
  | .noWay _ => 0

/-- Translation for an instruction that remote windows do not admit (R27). -/
def translateLocalM (va : Word) (a : Acc) : M Nat := fun s =>
  match translateM va a s with
  | (.error e, s') => (.error e, s')
  | (.ok (pa, _), s') =>
    if windowOf (pa / 64) = 0 then (.ok pa, s')
    else (.error (.trap (pageTrap false [⟨0x05, 1, leafLevel s' va, 0, va⟩])), s')

/-- The junction checks the old granule for the issuing instruction (R133, R138): no R103. -/
def junctionCheckM (va : Word) (gran : Nat) : M Granule := fun s =>
  let f := peekJ s gran
  match f.c.g.badKind with
  | none => (.ok f.c.g, s)
  | some kind =>
    (.error (.trap (checkTrap va f.c.g (pathWord f.src f.tag kind))),
      dropFailed s (some (curCore s)) (some (curCluster s)) f.src gran)

/-- An access that the home junction performs for the acting hart: the core's own outbound entries of the granule go first, and
it waits for its own way there, which for one that forms a granule goes on to the I3 copy (R95, R124, R392). -/
def homewardM (gran : Nat) (forms : Bool) : M Unit := fun s =>
  let n := curCluster s
  let s := drainOwn s (curCore s) gran
  if ownWaits s (curCore s) gran then holdM (reportForm s n gran)
  else match (if forms then writeLeg s (some n) gran else legFrom s (some n) gran) with
    | some l => holdM (reportRoute s l.1 l.2)
    | none => (.ok (), s)

/-- The junction forms the granule with `n` bytes replaced (R133, R138). -/
def junctionForm (s : State) (pa : Nat) (g : Granule) (n v level : Nat) : State :=
  let gran := pa / 64
  let data := mergeMask g.data (placeBytes (pa % 64) v) (byteMask (pa % 64) n)
  putO3 s gran (mkGranule data (prodJunction (junctionOf s gran)) level 0)

/-- A write that meets a valid commutative range raises a range error (R147). (DEDUCED, log 13.) -/
def noRangeM (va : Word) (pa n : Nat) : M Unit := fun s =>
  match rangeMeeting s pa n with
  | some r => (.error (.trap (rangeTrap va r 1)), s)
  | none => (.ok (), s)

/-! ## FENCE, REL, STREL, LDACQ, DRAIN -/

/-- Earlier stores of the acting hart drain as far as a fence's scope requires (R127). At system scope it does not wait for the
remote acknowledgement of a buffered granule that fails its check at delivery. (DESIGN CHOICE, log 8.) -/
def fenceDrain (s : State) (sc : Scope) : State :=
  let core := curCore s
  let n := curCluster s
  match sc with
  | .core => s
  | .cluster => ((coreAt s core).o1.map (·.1)).foldl (fun s k => drainO1 s core k) s
  | .device => releaseDrain (((coreAt s core).o1.map (·.1)).foldl (fun s k => drainO1 s core k) s) n (some core) core 3
  | .system => releaseDrain (((coreAt s core).o1.map (·.1)).foldl (fun s k => drainO1 s core k) s) n (some core) core 4

/-- FENCE (R127, R287). It waits while an entry finds no way, a held one to O2 (R392). -/
def execFence (sc : Scope) (s : State) : Result :=
  let s := fenceDrain s sc
  if (sc.level ≥ 2 && !(coreAt s (curCore s)).o1.isEmpty) ||
      (sc.level ≥ 3 && undrained s (curCluster s) (some (curCore s)) (curCore s) sc.level) then waitHere s
  else .next (advance s)

/-- REL (R132, R287). -/
def execRel (sc : Scope) (s : State) : Result :=
  runM (do
    setNrM
    releaseM sc.level
    done) s

/-- Byte offset of `strel` and `ldacq`: OFF5 in units of 8 (R288). -/
def off5 (off : BitVec 5) (size : Nat) : Word := off.signExtend 64 * BitVec.ofNat 64 size

/-- The release part of `strel` and of a `.rel` atomic, and the silhouette's way to the flag's junction (R118, R133, R139):
done once, it is phase 4 that the instruction waits in. (DEDUCED, log 5.) -/
def shipM (l gran : Nat) : M Unit := fun s =>
  let core := curCore s
  if s.hart.phase = 4 then (if acked s core then (.ok (), s) else holdM s)
  else match releaseM l s with
    | (.error e, s) => (.error e, s)
    | (.ok _, s) =>
      let s := shipSilhouette s core gran
      let s := { s with hart := { s.hart with phase := 4 } }
      if acked s core then (.ok (), s) else holdM s

/-- STREL (R133, R288). Where the junction's check of the old flag granule fails, the release stands and the silhouette is
not cleared. (DESIGN CHOICE, log 5.) -/
def execStrel (sc : Scope) (a b : XIdx) (off : BitVec 5) (s : State) : Result :=
  let va := xreg s a + off5 off 8
  let v := xreg s b
  runM (do
    guardM (va.extractLsb' 0 3 == 0) (.trap (TrapInfo.plain 0x03 va))
    let pa ← translateLocalM va .rw
    noRangeM va pa 8
    setNrM
    shipM sc.level (pa / 64)
    homewardM (pa / 64) true
    let g ← junctionCheckM va (pa / 64)
    modS fun s =>
      let s := junctionForm s pa g 8 v.toNat (max 3 sc.level)
      let s := attachTo s (pa / 64) s.hart.sil
      { s with hart := { s.hart with sil := 0 } }
    done) s

/-- LDACQ (R135, R288). -/
def execLdacq (d a : XIdx) (off : BitVec 5) (s : State) : Result :=
  let va := xreg s a + off5 off 8
  runM (do
    guardM (va.extractLsb' 0 3 == 0) (.trap (TrapInfo.plain 0x03 va))
    let pa ← translateLocalM va .read
    ovfTest va (pa / 64)
    homewardM (pa / 64) false
    let g ← junctionCheckM va (pa / 64)
    modS fun s => acquire s (pa / 64)
    finishX d (BitVec.ofNat 64 (granuleBytes g.data (pa % 64) 8))) s

/-- DRAIN (R128, R287): only copy commands outlast their instruction in this model. -/
def execDrain (s : State) : Result := if copiesOf s s.cur then waitHere s else .next (advance s)

/-! ## TURN (R106-R111, R289) -/

/-- A producer whose granules a turn of a core counts as own (R106). -/
def ownOf (core level prod : Nat) : Bool :=
  prod == core || prod == prodMatrix (clusterOfCore core) || prod == prodCopy (clusterOfCore core) ||
    (level == 4 && 384 ≤ prod && prod < 448)

/-- Where a turn finds the newest form of a granule. -/
inductive TurnPlace where
  | o1 (core : Nat)
  | o2
  /-- Held for a retryable step, in an O1 or in the cluster O2, with its place in the order of formation. -/
  | held (seq : Nat)
  | home
  /-- An outbound level of another cluster. -/
  | elsewhere
  deriving DecidableEq, Repr

/-- The outbound entries of a cluster for a granule. -/
def formsIn (s : State) (n gran : Nat) : List (TurnPlace × OutEntry) :=
  let k := clusterAt s n
  ((coresOf n).filterMap fun c => (tget (coreAt s c).o1 gran).map fun e =>
    (if e.held.isSome then .held e.seq else .o1 c, e)) ++
  (tget k.o2 gran).toList.map (fun e => (.o2, e)) ++
  (k.o2held.filter fun x => x.1 == gran).map fun x => (.held x.2.seq, x.2)

/-- The entry that was formed last. -/
def newestForm : List (TurnPlace × OutEntry) → Option (TurnPlace × OutEntry)
  | [] => none
  | x :: t => match newestForm t with
    | some y => some (if x.2.seq < y.2.seq then y else x)
    | none => some x

/-- Another cluster's outbound levels have a form of a granule of a place in the order or a later one (R115). -/
def newerElsewhere (s : State) (n gran seq : Nat) : Bool :=
  (s.cores.any fun kc => clusterOfCore kc.1 != n && kc.2.o1.any fun x => x.1 == gran && seq ≤ x.2.seq) ||
  s.clusters.any fun kc => kc.1 != n && (kc.2.o2 ++ kc.2.o2held).any fun x => x.1 == gran && seq ≤ x.2.seq

/-- The form at a granule's home, with its place in the order: the junction, or the bound port's buffer (R27). -/
def homeForm (s : State) (gran : Nat) : Option (Granule × Nat) :=
  if windowOf gran = 0 then some ((junctionGranule s gran).1, homeSeq s gran)
  else (tget s.ports.buffer gran).map fun e => (e.g, e.seq)

/-- The form of a granule that was formed last when a turn of a core reaches it: in the outbound levels of the core's
cluster, at its home, or in another cluster, whose store has then made it foreign (R106, R115). (DEDUCED, log 14.) -/
def turnFind (s : State) (core gran : Nat) : Option (TurnPlace × Granule) :=
  let n := clusterOfCore core
  let home := homeForm s gran
  match newestForm (formsIn s n gran) with
  | some (p, e) =>
    if newerElsewhere s n gran e.seq then some (.elsewhere, e.g)
    else if home.any fun h => e.seq < h.2 then home.map fun h => (.home, h.1)
    else some (p, e.g)
  | none => home.map fun h => (if newerElsewhere s n gran h.2 then .elsewhere else .home, h.1)

/-- Raises the level of a granule that has left O2 (R108). -/
def raiseHome (s : State) (gran l : Nat) : State :=
  if windowOf gran = 0 then raiseAtJunction s gran l
  else match tget s.ports.buffer gran with
    | some e => { s with ports := { s.ports with buffer := tput s.ports.buffer gran { e with g := e.g.raiseLevel l } } }
    | none => s

/-- Records the level that a turn asks of a held granule, in whichever outbound level it waits (R108). -/
def wantHeld (s : State) (n gran seq l : Nat) : State :=
  let raise := fun (x : Nat × OutEntry) =>
    if x.1 == gran && x.2.seq == seq then (x.1, { x.2 with want := max x.2.want l }) else x
  let s := (coresOf n).foldl (fun s c =>
    let k := coreAt s c
    if k.o1.any fun x => x.1 == gran && x.2.seq == seq then setCore s c { k with o1 := k.o1.map raise } else s) s
  let k := clusterAt s n
  setCluster s n { k with o2held := k.o2held.map raise }

/-- Switches one own granule (R107, Table 06.5). One that is at its home is switched there, and at levels 1 and 2 the copies
with its old level leave the inbound levels that the turn serves (R108, R112; DEDUCED, log 14). -/
def switchOwn (s : State) (core gran level : Nat) (p : TurnPlace) : State :=
  let n := clusterOfCore core
  match p with
  | .held seq => wantHeld s n gran seq level
  | .elsewhere => s
  | .o1 c =>
    let k := coreAt s c
    match tget k.o1 gran with
    | some e =>
      let g := e.g.raiseLevel level
      let s := setCore s c { k with o1 := tput k.o1 gran { e with g := g } }
      if level ≤ 1 then placeLevel1 s core gran g e.seq
      else
        let s := drainO1 s c gran
        if level = 2 then placeLevel2 s n gran g e.seq
        else raiseHome (drainO2 s n gran) gran level
    | none => s
  | .o2 =>
    let k := clusterAt s n
    match tget k.o2 gran with
    | some e =>
      let g := e.g.raiseLevel level
      let s := setCluster s n { k with o2 := tput k.o2 gran { e with g := g } }
      if level ≤ 1 then placeLevel1 s core gran g e.seq
      else if level = 2 then placeLevel2 s n gran g e.seq
      else raiseHome (drainO2 s n gran) gran level
    | none => s
  | .home =>
    let s := raiseHome s gran level
    if level = 1 then invI1 (invI2 s n (sameLine gran)) core (sameLine gran)
    else if level = 2 then invI2 s n (sameLine gran)
    else s

/-- The partials of a core in a granule that a turn counts (R148). -/
def partialsIn (s : State) (core gran : Nat) : Nat :=
  ((clusterAt s (clusterOfCore core)).partials.filter fun p => p.core == core && p.pa / 64 == gran).length

/-- PATH of a granule whose metadata a turn finds bad (R111); for one in a port engine's buffer, which is part of O3 (R27), SRC
is 3 and no field is valid (DESIGN CHOICE, log 14). -/
def turnPath (s : State) (gran : Nat) (p : TurnPlace) (kind : Nat) : Word :=
  match p with
  | .home => if windowOf gran = 0 then let f := peekJ s gran; pathWord f.src f.tag kind else pathWord 3 0 kind
  | .held _ => pathWord 7 0 kind
  | .o2 => pathWord 7 0 kind
  | .o1 _ => pathWord 7 0 kind
  | .elsewhere => pathWord 7 0 kind

/-- A turn that leaves the state `r` has not brought a granule where its level asks for it: it still waits in the O1 or the O2 that
it has to leave, or its line finds no way into the I2 that is to hold its copy (R94, R95, R392). -/
def turnStuck (s r : State) (n gran level : Nat) (p : TurnPlace) : Bool :=
  match p with
  | .o1 c => (lineLeg s n gran).isSome || level ≥ 2 && (tget (coreAt r c).o1 gran).isSome ||
      level ≥ 3 && (tget (clusterAt r n).o2 gran).isSome
  | .o2 => level ≤ 2 && (lineLeg s n gran).isSome || level ≥ 3 && (tget (clusterAt r n).o2 gran).isSome
  | .held _ => false
  | .home => false
  | .elsewhere => false

/-- The turn has to reach the granule's home (Table 06.5, R108). -/
def turnsHome (level : Nat) (p : TurnPlace) : Bool := level ≥ 3 || p == .home

/-- A turn acts on one granule: the state, the own granules raised, the foreign ones skipped; or what stops it: the check
fault of R99, or no way to its home (R392). (DEDUCED, log 14.) -/
def turnOne (s : State) (core level gran : Nat) (va : Word) : Except Stop (State × Nat × Nat) :=
  let n := clusterOfCore core
  match turnFind s core gran with
  | some (p, g) =>
    if p != .elsewhere && g.metaKind.isSome then .error (.trap (checkTrap va g (turnPath s gran p (g.metaKind.getD 0))))
    else
      let own := p != .elsewhere && ownOf core level g.prod
      let parts := if level ≥ 3 then partialsIn s core gran else 0
      let home := own && turnsHome level p || parts != 0
      let r : State × Nat × Nat :=
        if own then (switchOwn s core gran level p, 1, 0) else (s, 0, 1)
      if home && (writeLeg s (some n) gran).isSome || own && turnStuck s r.1 n gran level p then .error .hold
      else
      -- partials are combined after the granule's own outbound entry has drained
      let s := if level ≥ 3 then combinePartials r.1 n (fun q => q.core == core && q.pa / 64 == gran) else r.1
      let s := if level = 2 then (coresOf n).foldl (fun s c => invI1 s c (sameLine gran)) s else s
      -- what a combination has formed is own at level 4
      let formed := partialsIn s core gran < parts && (homeForm s gran).any fun h => 384 ≤ h.1.prod && h.1.prod < 448
      let s := if level = 4 && formed then raiseHome s gran level else s
      let s := if level = 4 && windowOf gran != 0 && r.2.1 != 0 then deliverRemote s gran else s
      .ok (s, r.2.1 + parts, r.2.2)
  | none => .ok (s, 0, 1)

/-- Adds to TURNST's counts (Table 06.7), within their 28 bits. -/
def addTurnst (w : Word) (raised foreign : Nat) : Word :=
  let r := min (2 ^ 28 - 1) ((w.extractLsb' 0 28).toNat + raised)
  let f := min (2 ^ 28 - 1) ((w.extractLsb' 28 28).toNat + foreign)
  (w &&& ((7 : Word) <<< 61)) ||| BitVec.ofNat 64 (f * 2 ^ 28 + r)

/-- The granules of a turn in ascending order from TURNPOS, at most `n` of them: those done (latest first), and what stopped
it (R110, R111). -/
def turnLoop (base : Word) (xlen level : Nat) : Nat → List Nat → State → (List Nat × Option Stop) × State
  | 0, acc, s => ((acc, none), s)
  | n + 1, acc, s =>
    let pos := s.hart.turnpos.toNat
    if pos ≥ xlen then ((acc, none), s)
    else
      let va := base + BitVec.ofNat 64 pos
      let rest := 64 - (va.extractLsb' 0 6).toNat
      match translateM va .read s with
      | (.error e, s) => ((acc, some e), s)
      | (.ok (pa, _), s) =>
        match turnOne s (curCore s) level (pa / 64) va with
        | .error .hold => ((acc, some .hold), reportForm s (curCluster s) (pa / 64))
        | .error (.trap t) => ((acc, some (.trap t)), s)
        | .ok (s, raised, foreign) =>
          let h := s.hart
          let s := { s with hart := { h with
            turnpos := BitVec.ofNat 33 (min xlen (pos + rest))
            turnst := addTurnst h.turnst raised foreign } }
          turnLoop base xlen level n (pa / 64 :: acc) s

/-- The physically contiguous runs of granules done, latest first (R107). -/
def runsOf : List Nat → List (Nat × Nat)
  | [] => []
  | g :: t =>
    match runsOf t with
    | (lo, hi) :: r => if hi + 1 = g then (lo, g) :: r else (g, g) :: (lo, hi) :: r
    | [] => [(g, g)]

/-- The notices of a level-3 or level-4 turn over the granules done; none for remote windows (R27, R107). -/
def turnNotices (s : State) (core level : Nat) (done : List Nat) : State :=
  if level < 3 then s
  else (runsOf (done.filter fun g => windowOf g == 0)).foldr
    (fun r s => multicast s (.notice core r.1 r.2) Counts.reset) s

/-- A turn over [base, base + len): it ends normally when it is complete (R106-R111, R289). A stop between its granules is no
resume point: TURNPOS says where it goes on (R110, R425). -/
def turnM (base len : Word) (level : Nat) : M Unit := fun s =>
  let h := s.hart
  let core := curCore s
  if len.toNat > 2 ^ 32 || h.turnpos.toNat > len.toNat then raiseOperand s
  else if h.phase = 3 && !acked s core then holdM s
  else
    let s := { s with hart := { h with
      phase := 0, waits := true, turnst := if h.turnpos = 0 then BitVec.ofNat 64 level <<< 61 else h.turnst } }
    let left := (len.toNat - h.turnpos.toNat) / 64 + 2
    let n := match s.units with | some u => min left u | none => left
    let r := turnLoop base len.toNat level n [] s
    let s := turnNotices r.2 core level r.1.1
    if level ≥ 3 && !acked s core then (.error .hold, { s with hart := { s.hart with phase := 3 } })
    else match r.1.2 with
      | some e => (.error e, s)
      | none =>
        if s.hart.turnpos.toNat ≥ len.toNat then
          (.ok (), { s with hart := { s.hart with turnpos := 0 } })
        else (.error .hold, s)

/-- TURN (R106-R111, R289). -/
def execTurn (a b : XIdx) (levelM1 : BitVec 2) (s : State) : Result :=
  let base := xreg s a
  let len := xreg s b
  runM (do
    turnM base len (levelM1.toNat + 1)
    done) s

/-! ## TURNQ (R290) -/

/-- A granule formed by a core that waits in O1 or O2 at LEVEL 0, not covered by PCNT1 (R290). -/
def awaits (s : State) (core : Nat) (g : Granule) : Bool :=
  g.prod == core && g.level == 0 && !((countsAt s core).p1 - g.rc).toNat < 32768

/-- Granules lo … hi of a core that await handover. -/
def awaiting (s : State) (core lo hi : Nat) : Nat :=
  let k := clusterAt s (clusterOfCore core)
  let all := List.map (fun x : Nat × OutEntry => (x.1, x.2.g)) ((coreAt s core).o1 ++ k.o2 ++ k.o2held)
  ((all.filter fun x => lo ≤ x.1 && x.1 ≤ hi && awaits s core x.2).map (·.1)).eraseDups.length

/-- The count over [va, stop), page by page. -/
def turnqLoop (core : Nat) : Nat → Word → Nat → M Nat
  | 0, _, _ => fun s => (.ok 0, s)
  | n + 1, va, left => fun s =>
    if left = 0 then (.ok 0, s)
    else
      match translateM va .read s with
      | (.error e, s) => (.error e, s)
      | (.ok (pa, _), s) =>
        let here := min left (65536 - pa % 65536)
        match turnqLoop core n (va + BitVec.ofNat 64 here) (left - here) s with
        | (.error e, s) => (.error e, s)
        | (.ok c, s) => (.ok (c + awaiting s core (pa / 64) ((pa + here - 1) / 64)), s)

/-- TURNQ (R290). -/
def execTurnq (d a b : XIdx) (s : State) : Result :=
  let base := xreg s a
  let len := (xreg s b).toNat
  runM (do
    guardM (len ≤ 2 ^ 26) (.trap (TrapInfo.plain 0x02 (s.ir.setWidth 64)))
    let c ← turnqLoop (curCore s) (len / 65536 + 2) base len
    finishX d (BitVec.ofNat 64 (min (2 ^ 28 - 1) c))) s

end Sys2Proof.Machine
end

