-- ==== Sys2Proof/Machine/Mem.lean ====
section
/-! DEFINITION. Scalar loads and stores, the bypass load and the scalar atomics (R218, R219, R283, R284). -/

namespace Sys2Proof.Machine

/-- The loaded value: extended by its sign or by zeros (R218). -/
def extended (wd : LWidth) (v : Nat) : Word :=
  if wd.signed then BitVec.ofInt 64 (toSigned (8 * wd.bytes) v) else BitVec.ofNat 64 v

/-- An address that is no multiple of the access size raises 0x03 (R218). -/
def alignedM (va : Word) (size : Nat) : M Unit := guardM (va.toNat % size == 0) (.trap (TrapInfo.plain 0x03 va))

/-- A load of the acting hart from an aligned address, the granule found by `read` (R218, R283). -/
def loadM (wd : LWidth) (d : XIdx) (va : Word) (read : Word → Nat → Bool → M Granule) : M Unit := do
  alignedM va wd.bytes
  let x ← translateM va .read
  ovfTest va (x.1 / 64)
  let g ← read va (x.1 / 64) x.2
  finishX d (extended wd (granuleBytes g.data (x.1 % 64) wd.bytes))

/-- LD (R218). -/
def execLd (wd : LWidth) (d a : XIdx) (off : BitVec 13) (s : State) : Result :=
  runM (loadM wd d (xreg s a + off.signExtend 64) readGranule) s

/-- LD_NC (R283). -/
def execLdNc (wd : LWidth) (d a : XIdx) (off : BitVec 5) (s : State) : Result :=
  runM (loadM wd d (xreg s a + off5 off wd.bytes) readBypass) s

/-- ST (R219). -/
def execSt (wd : EW) (src a : XIdx) (off : BitVec 13) (s : State) : Result :=
  let va := xreg s a + off.signExtend 64
  let n := wd.bytes
  runM (do
    alignedM va n
    let x ← translateM va .write
    noRangeM va x.1 n
    formGranule va (x.1 / 64) x.2 (placeBytes (x.1 % 64) ((xreg s src).toNat % 2 ^ wd.bits)) (byteMask (x.1 % 64) n)
    done) s

/-! ## Scalar atomics (R284, Table 17.6) -/

/-- New value of an atomic from the width, the old value and the operand; `none` where nothing is formed. -/
abbrev AmoOp := Nat → Nat → Nat → Option Nat

/-- add (Table 17.6). -/
def amoOpAdd : AmoOp := fun w a b => some ((fun _ a b => a + b) w a b % 2 ^ w)
/-- min (Table 17.6). -/
def amoOpMin : AmoOp := fun w a b => some ((fun w a b => if toSigned w a ≤ toSigned w b then a else b) w a b % 2 ^ w)
/-- max (Table 17.6). -/
def amoOpMax : AmoOp := fun w a b => some ((fun w a b => if toSigned w a ≤ toSigned w b then b else a) w a b % 2 ^ w)
/-- minu (Table 17.6). -/
def amoOpMinu : AmoOp := fun w a b => some ((fun _ a b => min a b) w a b % 2 ^ w)
/-- maxu (Table 17.6). -/
def amoOpMaxu : AmoOp := fun w a b => some ((fun _ a b => max a b) w a b % 2 ^ w)
/-- and (Table 17.6). -/
def amoOpAnd : AmoOp := fun w a b => some ((fun _ a b => a &&& b) w a b % 2 ^ w)
/-- or (Table 17.6). -/
def amoOpOr : AmoOp := fun w a b => some ((fun _ a b => a ||| b) w a b % 2 ^ w)
/-- xor (Table 17.6). -/
def amoOpXor : AmoOp := fun w a b => some ((fun _ a b => a ^^^ b) w a b % 2 ^ w)
/-- swap (Table 17.6). -/
def amoOpSwap : AmoOp := fun w a b => some ((fun _ _ b => b) w a b % 2 ^ w)
/-- cas against `c` (Table 17.6). -/
def amoOpCas (c : Nat) : AmoOp := fun w a b => if a = c % 2 ^ w then some (b % 2 ^ w) else none

/-- The junction's part of an atomic of `n` bytes at a physical address: checked, applied, formed (R138); answers the old
value. -/
def junctionAtomic (op : AmoOp) (va : Word) (pa n b : Nat) : M Nat := do
  homewardM (pa / 64) true
  let g ← junctionCheckM va (pa / 64)
  let old := granuleBytes g.data (pa % 64) n
  modS fun s => match op (8 * n) old b with
    | some v => junctionForm s pa g n v 3
    | none => s
  fun s => (.ok old, s)

/-- The release part of an atomic: the silhouette is shipped and cleared as `strel` does (R139). -/
def atomicRelease (rls : Bool) (sc : Scope) (gran : Nat) : M Unit :=
  if rls then shipM sc.level gran else fun s => (.ok (), s)

/-- A scalar atomic (R284). Where the junction's check of the old granule fails, a release that came first stands and the
silhouette is not cleared. (DESIGN CHOICE, log 5.) -/
def atomic (op : AmoOp) (dbl acq rls : Bool) (sc : Scope) (d a b : XIdx) (s : State) : Result :=
  let va := xreg s a
  let n := if dbl then 8 else 4
  let v := (xreg s b).toNat % 2 ^ (8 * n)
  runM (do
    alignedM va n
    let pa ← translateLocalM va .rw
    noRangeM va pa n
    setNrM
    atomicRelease rls sc (pa / 64)
    let old ← junctionAtomic op va pa n v
    modS fun s =>
      if rls then
        let s := attachTo s (pa / 64) s.hart.sil
        { s with hart := { s.hart with sil := 0 } }
      else s
    modS fun s => if acq then acquire s (pa / 64) else s
    finishX d (BitVec.ofInt 64 (toSigned (8 * n) old))) s

/-- AMOADD (R284). -/
def execAmoadd (dbl acq rls : Bool) (sc : Scope) (d a b : XIdx) (s : State) : Result :=
  atomic amoOpAdd dbl acq rls sc d a b s
/-- AMOMIN (R284). -/
def execAmomin (dbl acq rls : Bool) (sc : Scope) (d a b : XIdx) (s : State) : Result :=
  atomic amoOpMin dbl acq rls sc d a b s
/-- AMOMAX (R284). -/
def execAmomax (dbl acq rls : Bool) (sc : Scope) (d a b : XIdx) (s : State) : Result :=
  atomic amoOpMax dbl acq rls sc d a b s
/-- AMOMINU (R284). -/
def execAmominu (dbl acq rls : Bool) (sc : Scope) (d a b : XIdx) (s : State) : Result :=
  atomic amoOpMinu dbl acq rls sc d a b s
/-- AMOMAXU (R284). -/
def execAmomaxu (dbl acq rls : Bool) (sc : Scope) (d a b : XIdx) (s : State) : Result :=
  atomic amoOpMaxu dbl acq rls sc d a b s
/-- AMOAND (R284). -/
def execAmoand (dbl acq rls : Bool) (sc : Scope) (d a b : XIdx) (s : State) : Result :=
  atomic amoOpAnd dbl acq rls sc d a b s
/-- AMOOR (R284). -/
def execAmoor (dbl acq rls : Bool) (sc : Scope) (d a b : XIdx) (s : State) : Result :=
  atomic amoOpOr dbl acq rls sc d a b s
/-- AMOXOR (R284). -/
def execAmoxor (dbl acq rls : Bool) (sc : Scope) (d a b : XIdx) (s : State) : Result :=
  atomic amoOpXor dbl acq rls sc d a b s
/-- AMOSWAP (R284). -/
def execAmoswap (dbl acq rls : Bool) (sc : Scope) (d a b : XIdx) (s : State) : Result :=
  atomic amoOpSwap dbl acq rls sc d a b s
/-- AMOCAS (R284): compares with xd. -/
def execAmocas (dbl acq rls : Bool) (sc : Scope) (d a b : XIdx) (s : State) : Result :=
  atomic (amoOpCas (xreg s d).toNat) dbl acq rls sc d a b s

end Sys2Proof.Machine
end

