-- ==== Sys2Proof/Machine/Scalar.lean ====
section
/-! DEFINITION. Register arithmetic, bit fields, multiplication and division, immediates (R213-R217). -/

namespace Sys2Proof.Machine

/-- 1 or 0 as a word. -/
def boolWord (b : Bool) : Word := if b then 1 else 0

/-- Set bits of a vector of bits (Table 14.6). -/
def popcount {w : Nat} (v : BitVec w) : Nat := (List.range w).countP fun i => v.getLsbD i
/-- Leading zeros in `w` bits; `w` when the value is 0 (Table 14.6). -/
def leadZeros {w : Nat} (v : BitVec w) : Nat := ((List.range w).takeWhile fun i => !v.getMsbD i).length
/-- Trailing zeros in `w` bits; `w` when the value is 0 (Table 14.6). -/
def trailZeros {w : Nat} (v : BitVec w) : Nat := ((List.range w).takeWhile fun i => !v.getLsbD i).length

/-- Quotient of R180 for signed operands of `w` bits. -/
def sdiv (w : Nat) (a b : Int) (sat : Bool) : Int :=
  if b = 0 then -1 else
    let q := Int.tdiv a b
    if sat then satInt q w true else q
/-- Remainder of R180 for signed operands. -/
def srem (a b : Int) : Int := if b = 0 then a else Int.tmod a b
/-- Quotient of R180 for unsigned operands of `w` bits. -/
def udiv (w : Nat) (a b : Nat) : Nat := if b = 0 then 2 ^ w - 1 else a / b
/-- Remainder of R180 for unsigned operands. -/
def urem (a b : Nat) : Nat := if b = 0 then a else a % b

/-- The low `n` ones shifted left by `p` (R215). -/
def fieldMask (p n : Nat) : Word := (BitVec.allOnes 64 >>> (64 - n)) <<< p

/-- `bfx` (R215). -/
def bfxValue (v : Word) (p n : Nat) : Word := ((v >>> p) <<< (64 - n)).sshiftRight (64 - n)
/-- `bfxu` (R215). -/
def bfxuValue (v : Word) (p n : Nat) : Word := (v >>> p) &&& fieldMask 0 n
/-- `bfi` (R215). -/
def bfiValue (old v : Word) (p n : Nat) : Word := (old &&& ~~~(fieldMask p n)) ||| ((v <<< p) &&& fieldMask p n)
/-- `fsl` (R216). -/
def fslValue (a b : Word) (sh : Nat) : Word := if sh = 0 then a else (a <<< sh) ||| (b >>> (64 - sh))
/-- `fsr` (R216). -/
def fsrValue (a b : Word) (sh : Nat) : Word := if sh = 0 then a else (a >>> sh) ||| (b <<< (64 - sh))

/-- ADD (R213). -/
def execAdd (d a b : XIdx) (s : State) : Result :=
  nextX s d (xreg s a + xreg s b)

/-- SUB (R213). -/
def execSub (d a b : XIdx) (s : State) : Result :=
  nextX s d (xreg s a - xreg s b)

/-- AND (R213). -/
def execAnd (d a b : XIdx) (s : State) : Result :=
  nextX s d (xreg s a &&& xreg s b)

/-- OR (R213). -/
def execOr (d a b : XIdx) (s : State) : Result :=
  nextX s d (xreg s a ||| xreg s b)

/-- XOR (R213). -/
def execXor (d a b : XIdx) (s : State) : Result :=
  nextX s d (xreg s a ^^^ xreg s b)

/-- SLL: xb[5:0] counts (R213). -/
def execSll (d a b : XIdx) (s : State) : Result :=
  nextX s d (xreg s a <<< ((xreg s b).toNat % 64))

/-- SRL (R213). -/
def execSrl (d a b : XIdx) (s : State) : Result :=
  nextX s d (xreg s a >>> ((xreg s b).toNat % 64))

/-- SRA (R213). -/
def execSra (d a b : XIdx) (s : State) : Result :=
  nextX s d ((xreg s a).sshiftRight ((xreg s b).toNat % 64))

/-- SLT (R213). -/
def execSlt (d a b : XIdx) (s : State) : Result :=
  nextX s d (boolWord ((xreg s a).slt (xreg s b)))

/-- SLTU (R213). -/
def execSltu (d a b : XIdx) (s : State) : Result :=
  nextX s d (boolWord ((xreg s a).ult (xreg s b)))

/-- MIN (R213). -/
def execMin (d a b : XIdx) (s : State) : Result :=
  nextX s d (if (xreg s b).slt (xreg s a) then xreg s b else xreg s a)

/-- MAX (R213). -/
def execMax (d a b : XIdx) (s : State) : Result :=
  nextX s d (if (xreg s a).slt (xreg s b) then xreg s b else xreg s a)

/-- MINU (R213). -/
def execMinu (d a b : XIdx) (s : State) : Result :=
  nextX s d (if (xreg s b).ult (xreg s a) then xreg s b else xreg s a)

/-- MAXU (R213). -/
def execMaxu (d a b : XIdx) (s : State) : Result :=
  nextX s d (if (xreg s a).ult (xreg s b) then xreg s b else xreg s a)

/-- CLZ (R213). -/
def execClz (d a : XIdx) (s : State) : Result :=
  nextX s d (BitVec.ofNat 64 (leadZeros (xreg s a)))

/-- CTZ (R213). -/
def execCtz (d a : XIdx) (s : State) : Result :=
  nextX s d (BitVec.ofNat 64 (trailZeros (xreg s a)))

/-- POPC (R213). -/
def execPopc (d a : XIdx) (s : State) : Result :=
  nextX s d (BitVec.ofNat 64 (popcount (xreg s a)))

/-- ADD_SAT (R213). -/
def execAddSat (d a b : XIdx) (s : State) : Result :=
  nextX s d (BitVec.ofInt 64 (satInt ((xreg s a).toInt + (xreg s b).toInt) 64 true))

/-- SUB_SAT (R213). -/
def execSubSat (d a b : XIdx) (s : State) : Result :=
  nextX s d (BitVec.ofInt 64 (satInt ((xreg s a).toInt - (xreg s b).toInt) 64 true))

/-- BFX (R215). -/
def execBfx (d a : XIdx) (pos lenM1 : BitVec 6) (s : State) : Result :=
  nextX s d (bfxValue (xreg s a) pos.toNat (lenM1.toNat + 1))

/-- BFXU (R215). -/
def execBfxu (d a : XIdx) (pos lenM1 : BitVec 6) (s : State) : Result :=
  nextX s d (bfxuValue (xreg s a) pos.toNat (lenM1.toNat + 1))

/-- BFI: xd is a source too (R215). -/
def execBfi (d a : XIdx) (pos lenM1 : BitVec 6) (s : State) : Result :=
  nextX s d (bfiValue (xreg s d) (xreg s a) pos.toNat (lenM1.toNat + 1))

/-- FSL (R216). -/
def execFsl (d a b : XIdx) (sh : BitVec 6) (s : State) : Result :=
  nextX s d (fslValue (xreg s a) (xreg s b) sh.toNat)

/-- FSR (R216). -/
def execFsr (d a b : XIdx) (sh : BitVec 6) (s : State) : Result :=
  nextX s d (fsrValue (xreg s a) (xreg s b) sh.toNat)

/-- MUL (R214). -/
def execMul (d a b : XIdx) (s : State) : Result :=
  nextX s d (xreg s a * xreg s b)

/-- MULH: bits 127..64 of the signed product (R214). -/
def execMulh (d a b : XIdx) (s : State) : Result :=
  nextX s d (BitVec.ofInt 64 (((xreg s a).toInt * (xreg s b).toInt) / 2 ^ 64))

/-- MULHU (R214). -/
def execMulhu (d a b : XIdx) (s : State) : Result :=
  nextX s d (BitVec.ofNat 64 (((xreg s a).toNat * (xreg s b).toNat) / 2 ^ 64))

/-- MULHSU: xa signed, xb unsigned (R214). -/
def execMulhsu (d a b : XIdx) (s : State) : Result :=
  nextX s d (BitVec.ofInt 64 (((xreg s a).toInt * ((xreg s b).toNat : Int)) / 2 ^ 64))

/-- DIV (R214, R180). -/
def execDiv (d a b : XIdx) (s : State) : Result :=
  nextX s d (BitVec.ofInt 64 (sdiv 64 (xreg s a).toInt (xreg s b).toInt false))

/-- DIVU (R214, R180). -/
def execDivu (d a b : XIdx) (s : State) : Result :=
  nextX s d (BitVec.ofNat 64 (udiv 64 (xreg s a).toNat (xreg s b).toNat))

/-- REM (R214, R180). -/
def execRem (d a b : XIdx) (s : State) : Result :=
  nextX s d (BitVec.ofInt 64 (srem (xreg s a).toInt (xreg s b).toInt))

/-- REMU (R214, R180). -/
def execRemu (d a b : XIdx) (s : State) : Result :=
  nextX s d (BitVec.ofNat 64 (urem (xreg s a).toNat (xreg s b).toNat))

/-- DIV_SAT (R214, R180). -/
def execDivSat (d a b : XIdx) (s : State) : Result :=
  nextX s d (BitVec.ofInt 64 (sdiv 64 (xreg s a).toInt (xreg s b).toInt true))

/-- ADDI (R217). -/
def execAddi (d a : XIdx) (imm : BitVec 16) (s : State) : Result :=
  nextX s d (xreg s a + imm.signExtend 64)

/-- ANDI (R217). -/
def execAndi (d a : XIdx) (imm : BitVec 16) (s : State) : Result :=
  nextX s d (xreg s a &&& imm.setWidth 64)

/-- ORI (R217). -/
def execOri (d a : XIdx) (imm : BitVec 16) (s : State) : Result :=
  nextX s d (xreg s a ||| imm.setWidth 64)

/-- XORI (R217). -/
def execXori (d a : XIdx) (imm : BitVec 16) (s : State) : Result :=
  nextX s d (xreg s a ^^^ imm.setWidth 64)

/-- SLTI (R217). -/
def execSlti (d a : XIdx) (imm : BitVec 16) (s : State) : Result :=
  nextX s d (boolWord ((xreg s a).slt (imm.signExtend 64)))

/-- SLTIU: the sign-extended immediate, both unsigned (R217). -/
def execSltiu (d a : XIdx) (imm : BitVec 16) (s : State) : Result :=
  nextX s d (boolWord ((xreg s a).ult (imm.signExtend 64)))

/-- SLLI (R217). -/
def execSlli (d a : XIdx) (sh : BitVec 6) (s : State) : Result :=
  nextX s d (xreg s a <<< sh.toNat)

/-- SRLI (R217). -/
def execSrli (d a : XIdx) (sh : BitVec 6) (s : State) : Result :=
  nextX s d (xreg s a >>> sh.toNat)

/-- SRAI (R217). -/
def execSrai (d a : XIdx) (sh : BitVec 6) (s : State) : Result :=
  nextX s d ((xreg s a).sshiftRight sh.toNat)

/-- RORI (R217). -/
def execRori (d a : XIdx) (sh : BitVec 6) (s : State) : Result :=
  nextX s d ((xreg s a).rotateRight sh.toNat)

/-- LUI (R217). -/
def execLui (d : XIdx) (imm : BitVec 21) (s : State) : Result :=
  nextX s d (imm.signExtend 64 <<< 16)

/-- ADDPC: PC is the address of the instruction itself (R217). -/
def execAddpc (d : XIdx) (imm : BitVec 21) (s : State) : Result :=
  nextX s d (s.hart.pc + imm.signExtend 64 <<< 12)

end Sys2Proof.Machine
end

