-- ==== Sys2Proof/Machine/Vector.lean ====
section
/-! DEFINITION. Vector instructions on registers: arithmetic, shifts and immediates (R236-R254, R262). -/

namespace Sys2Proof.Machine

/-! ## Traps at issue -/

def illegalTrap (s : State) : TrapInfo := TrapInfo.plain 0x01 (s.ir.setWidth 64)
def operandTrap (s : State) : TrapInfo := TrapInfo.plain 0x02 (s.ir.setWidth 64)
/-- VL · EW above 1024 raises 0x02 with EVAL = VL (R242, R243). -/
def lengthTrap (s : State) : TrapInfo := TrapInfo.plain 0x02 (s.hart.vl.setWidth 64)
def tooLong (s : State) (ew : EW) : Bool := s.hart.vl.toNat * ew.bits > 1024

/-- VSETVL (R237). -/
def execVsetvl (ew : EW) (d a : XIdx) (s : State) : Result :=
  let n := min (xreg s a).toNat (1024 / ew.bits)
  nextX { s with hart := { s.hart with vl := BitVec.ofNat 8 n, vstart := 0 } } d (BitVec.ofNat 64 n)

/-! ## Element-wise instructions (R242) -/

/-- An element-wise instruction of a class: `f` gives element `i`'s result. -/
def elementWise (c : Class) (d : VIdx) (pg : PIdx) (ew : EW) (z : Bool) (f : Hart → Kind → Nat → Nat) (s : State) : Result :=
  let h := s.hart
  let k := h.kind ew
  if !c.admits k then .next (takeTrap s (illegalTrap s))
  else if tooLong s ew then .next (takeTrap s (lengthTrap s))
  else
    let v := eachElem h pg ew.bits z h.vstart.toNat h.vl.toNat (f h k) (h.vreg d)
    .next (advance { s with hart := { h.setV d v with vstart := 0 } })

/-- Two vector sources. -/
def vv (c : Class) (d a b : VIdx) (pg : PIdx) (ew : EW) (z : Bool) (f : Hart → Kind → Nat → Nat → Nat) (s : State) : Result :=
  elementWise c d pg ew z (fun h k i => f h k (elemN (h.vreg a) ew.bits i) (elemN (h.vreg b) ew.bits i)) s

/-- A vector and a scalar source, `s` = trunc(xb, EW) (R252). -/
def vx (c : Class) (d a : VIdx) (b : XIdx) (pg : PIdx) (ew : EW) (z : Bool) (f : Hart → Kind → Nat → Nat → Nat)
    (s : State) : Result :=
  elementWise c d pg ew z (fun h k i => f h k (elemN (h.vreg a) ew.bits i) ((h.xreg b).toNat % 2 ^ ew.bits)) s

/-- Two vector sources and the old destination. -/
def vvd (c : Class) (d a b : VIdx) (pg : PIdx) (ew : EW) (z : Bool) (f : Hart → Kind → Nat → Nat → Nat → Nat)
    (s : State) : Result :=
  elementWise c d pg ew z (fun h k i =>
    f h k (elemN (h.vreg d) ew.bits i) (elemN (h.vreg a) ew.bits i) (elemN (h.vreg b) ew.bits i)) s

/-- One vector source. -/
def v1 (c : Class) (d a : VIdx) (pg : PIdx) (ew : EW) (z : Bool) (f : Hart → Kind → Nat → Nat) (s : State) : Result :=
  elementWise c d pg ew z (fun h k i => f h k (elemN (h.vreg a) ew.bits i)) s

/-- The operand value of a 5-bit signed immediate (R254). -/
def imm5 (m : BitVec 5) (w : Nat) : Nat := ofInt w m.toInt

/-! ## Results of an element -/

/-- A floating result rounded once; an infinite result that did not overflow stays infinite (R245). (DEDUCED, log 20.) -/
def fltResult (f : Fmt) (x : Exact) (r : Rnd) (sat : Bool) : Nat := roundFmt f x r (sat && x.isFinite)

/-- An F/I operation of two operands: integers wrap or saturate, floats round once (R245, R246). -/
def fiOp (k : Kind) (w : Nat) (r : Rnd) (sat : Bool) (gi : Int → Int → Int) (gf : Exact → Exact → Exact) (a b : Nat) : Nat :=
  match k with
  | .flt f => fltResult f (gf (decodeExact f a) (decodeExact f b)) r sat
  | .int => narrowInt w sat (gi (toSigned w a) (toSigned w b))
  | .none => 0

def addElem (k : Kind) (w : Nat) (r : Rnd) (sat : Bool) : Nat → Nat → Nat := fiOp k w r sat (· + ·) (Exact.add r)
def subElem (k : Kind) (w : Nat) (r : Rnd) (sat : Bool) : Nat → Nat → Nat :=
  fiOp k w r sat (· - ·) (fun x y => Exact.add r x y.neg)
def mulElem (k : Kind) (w : Nat) (r : Rnd) (sat : Bool) : Nat → Nat → Nat := fiOp k w r sat (· * ·) Exact.mul
def divElem (k : Kind) (w : Nat) (r : Rnd) (sat : Bool) : Nat → Nat → Nat :=
  fiOp k w r sat (fun x y => sdiv w x y sat) Exact.div

/-- The sign bit of an encoding of `w` bits. -/
def signOf (w a : Nat) : Bool := a.testBit (w - 1)

/-- Minimum (`lo`) or maximum of a kind; −0 lies below +0, a NaN gives the canonical NaN (R245). -/
def extremeElem (lo : Bool) (k : Kind) (w : Nat) (a b : Nat) : Nat :=
  match k with
  | .flt f =>
    let x := decodeExact f a
    let y := decodeExact f b
    if x.isNaN || y.isNaN then canonNaN f
    else
      let aLower := x.lt y || (!y.lt x && signOf w a)
      if aLower == lo then a else b
  | .int => if decide (toSigned w a ≤ toSigned w b) == lo then a else b
  | .none => 0

def extremeU (lo : Bool) (a b : Nat) : Nat := if decide (a ≤ b) == lo then a else b

/-- Fused d ± a·b, rounded once (R253). -/
def fusedElem (minus : Bool) (k : Kind) (w : Nat) (r : Rnd) (sat : Bool) (d a b : Nat) : Nat :=
  match k with
  | .flt f =>
    let p := Exact.mul (decodeExact f a) (decodeExact f b)
    fltResult f (Exact.add r (decodeExact f d) (if minus then p.neg else p)) r sat
  | .int =>
    let p := toSigned w a * toSigned w b
    narrowInt w sat (toSigned w d + if minus then -p else p)
  | .none => 0

/-- −a or |a|: only the sign bit of a number changes (R245, R253). -/
def signElem (abs : Bool) (k : Kind) (w : Nat) (sat : Bool) (a : Nat) : Nat :=
  match k with
  | .flt f =>
    if (decodeExact f a).isNaN then canonNaN f
    else if abs then a % 2 ^ (w - 1)
    else a ^^^ 2 ^ (w - 1)
  | .int =>
    let x := toSigned w a
    narrowInt w sat (if abs && 0 ≤ x then x else -x)
  | .none => 0

/-- √a, rounded once (R253). -/
def sqrtElem (k : Kind) (r : Rnd) (sat : Bool) (a : Nat) : Nat :=
  match k with
  | .flt f => fltResult f (decodeExact f a).sqrt r sat
  | .int => 0
  | .none => 0

/-- Bits [2·EW − 1 : EW] of the signed product (R251). -/
def mulhElem (w a b : Nat) : Nat := ofInt w (toSigned w a * toSigned w b / 2 ^ w)
def mulhuElem (w a b : Nat) : Nat := a * b / 2 ^ w
def avgElem (w a b : Nat) : Nat := ofInt w ((toSigned w a + toSigned w b) / 2)
def absdElem (w a b : Nat) : Nat := (toSigned w a - toSigned w b).natAbs % 2 ^ w
def remElem (w a b : Nat) : Nat := ofInt w (srem (toSigned w a) (toSigned w b))

/-! ## Shifts and fields (R262) -/

def sllElem (w a c : Nat) : Nat := (a <<< (c % w)) % 2 ^ w
def srlElem (w a c : Nat) : Nat := a >>> (c % w)
def sraElem (w a c : Nat) : Nat := ofInt w (toSigned w a / 2 ^ (c % w))
def rolElem (w a c : Nat) : Nat := ((a <<< (c % w)) ||| (a >>> (w - c % w))) % 2 ^ w
/-- Position and length of a field: p = b[k−1:0], n = min(b[2k−1:k] + 1, EW − p), k = log₂ EW (R262). -/
def fieldOf (w b : Nat) : Nat × Nat := (b % w, min (b / w % w + 1) (w - b % w))
def bfxuElem (w a b : Nat) : Nat := let f := fieldOf w b; (a >>> f.1) % 2 ^ f.2
def bfxElem (w a b : Nat) : Nat := let f := fieldOf w b; ofInt w (toSigned f.2 (a >>> f.1))
def bfiElem (w d a b : Nat) : Nat :=
  let f := fieldOf w b
  d - ((d >>> f.1) % 2 ^ f.2) * 2 ^ f.1 + (a % 2 ^ f.2) * 2 ^ f.1
def fslElem (w d a b : Nat) : Nat := if b % w = 0 then d else ((d <<< (b % w)) ||| (a >>> (w - b % w))) % 2 ^ w
def fsrElem (w d a b : Nat) : Nat := if b % w = 0 then d else ((d >>> (b % w)) ||| (a <<< (w - b % w))) % 2 ^ w

/-! ## The instructions -/

/-- VADD (R250): rounding and saturation from the word. -/
def execVadd (d a b : VIdx) (pg : PIdx) (ew : EW) (sat : Bool) (rnd : Rnd) (z : Bool) (s : State) : Result :=
  vv .FI d a b pg ew z (fun _ k => addElem k ew.bits rnd sat) s
/-- VSUB (R250). -/
def execVsub (d a b : VIdx) (pg : PIdx) (ew : EW) (sat : Bool) (rnd : Rnd) (z : Bool) (s : State) : Result :=
  vv .FI d a b pg ew z (fun _ k => subElem k ew.bits rnd sat) s
/-- VMUL (R251). -/
def execVmul (d a b : VIdx) (pg : PIdx) (ew : EW) (z : Bool) (s : State) : Result :=
  vv .FI d a b pg ew z (fun h k => mulElem k ew.bits (mfcRound h) (mfcSat h)) s
/-- VMULH (R251). -/
def execVmulh (d a b : VIdx) (pg : PIdx) (ew : EW) (z : Bool) (s : State) : Result :=
  vv .I d a b pg ew z (fun _ _ => mulhElem ew.bits) s
/-- VMULHU (R251). -/
def execVmulhu (d a b : VIdx) (pg : PIdx) (ew : EW) (z : Bool) (s : State) : Result :=
  vv .I d a b pg ew z (fun _ _ => mulhuElem ew.bits) s
/-- VDIV (R251). -/
def execVdiv (d a b : VIdx) (pg : PIdx) (ew : EW) (z : Bool) (s : State) : Result :=
  vv .FI d a b pg ew z (fun h k => divElem k ew.bits (mfcRound h) (mfcSat h)) s
/-- VDIVU (R251). -/
def execVdivu (d a b : VIdx) (pg : PIdx) (ew : EW) (z : Bool) (s : State) : Result :=
  vv .I d a b pg ew z (fun _ _ => udiv ew.bits) s
/-- VREM (R251). -/
def execVrem (d a b : VIdx) (pg : PIdx) (ew : EW) (z : Bool) (s : State) : Result :=
  vv .I d a b pg ew z (fun _ _ => remElem ew.bits) s
/-- VREMU (R251). -/
def execVremu (d a b : VIdx) (pg : PIdx) (ew : EW) (z : Bool) (s : State) : Result :=
  vv .I d a b pg ew z (fun _ _ => urem) s
/-- VMIN (R251). -/
def execVmin (d a b : VIdx) (pg : PIdx) (ew : EW) (z : Bool) (s : State) : Result :=
  vv .FI d a b pg ew z (fun _ k => extremeElem true k ew.bits) s
/-- VMAX (R251). -/
def execVmax (d a b : VIdx) (pg : PIdx) (ew : EW) (z : Bool) (s : State) : Result :=
  vv .FI d a b pg ew z (fun _ k => extremeElem false k ew.bits) s
/-- VMINU (R251). -/
def execVminu (d a b : VIdx) (pg : PIdx) (ew : EW) (z : Bool) (s : State) : Result :=
  vv .I d a b pg ew z (fun _ _ => extremeU true) s
/-- VMAXU (R251). -/
def execVmaxu (d a b : VIdx) (pg : PIdx) (ew : EW) (z : Bool) (s : State) : Result :=
  vv .I d a b pg ew z (fun _ _ => extremeU false) s
/-- VAND (R251). -/
def execVand (d a b : VIdx) (pg : PIdx) (ew : EW) (z : Bool) (s : State) : Result :=
  vv .B d a b pg ew z (fun _ _ => (· &&& ·)) s
/-- VOR (R251). -/
def execVor (d a b : VIdx) (pg : PIdx) (ew : EW) (z : Bool) (s : State) : Result :=
  vv .B d a b pg ew z (fun _ _ => (· ||| ·)) s
/-- VXOR (R251). -/
def execVxor (d a b : VIdx) (pg : PIdx) (ew : EW) (z : Bool) (s : State) : Result :=
  vv .B d a b pg ew z (fun _ _ => (· ^^^ ·)) s
/-- VAVG (R251). -/
def execVavg (d a b : VIdx) (pg : PIdx) (ew : EW) (z : Bool) (s : State) : Result :=
  vv .I d a b pg ew z (fun _ _ => avgElem ew.bits) s
/-- VABSD (R251). -/
def execVabsd (d a b : VIdx) (pg : PIdx) (ew : EW) (z : Bool) (s : State) : Result :=
  vv .I d a b pg ew z (fun _ _ => absdElem ew.bits) s
/-- VADDX (R252). -/
def execVaddx (d a : VIdx) (b : XIdx) (pg : PIdx) (ew : EW) (z : Bool) (s : State) : Result :=
  vx .FI d a b pg ew z (fun h k => addElem k ew.bits (mfcRound h) (mfcSat h)) s
/-- VSUBX (R252). -/
def execVsubx (d a : VIdx) (b : XIdx) (pg : PIdx) (ew : EW) (z : Bool) (s : State) : Result :=
  vx .FI d a b pg ew z (fun h k => subElem k ew.bits (mfcRound h) (mfcSat h)) s
/-- VRSUBX (R252). -/
def execVrsubx (d a : VIdx) (b : XIdx) (pg : PIdx) (ew : EW) (z : Bool) (s : State) : Result :=
  vx .FI d a b pg ew z (fun h k => fun a b => subElem k ew.bits (mfcRound h) (mfcSat h) b a) s
/-- VMULX (R252). -/
def execVmulx (d a : VIdx) (b : XIdx) (pg : PIdx) (ew : EW) (z : Bool) (s : State) : Result :=
  vx .FI d a b pg ew z (fun h k => mulElem k ew.bits (mfcRound h) (mfcSat h)) s
/-- VMULHX (R252). -/
def execVmulhx (d a : VIdx) (b : XIdx) (pg : PIdx) (ew : EW) (z : Bool) (s : State) : Result :=
  vx .I d a b pg ew z (fun _ _ => mulhElem ew.bits) s
/-- VDIVX (R252). -/
def execVdivx (d a : VIdx) (b : XIdx) (pg : PIdx) (ew : EW) (z : Bool) (s : State) : Result :=
  vx .FI d a b pg ew z (fun h k => divElem k ew.bits (mfcRound h) (mfcSat h)) s
/-- VDIVUX (R252). -/
def execVdivux (d a : VIdx) (b : XIdx) (pg : PIdx) (ew : EW) (z : Bool) (s : State) : Result :=
  vx .I d a b pg ew z (fun _ _ => udiv ew.bits) s
/-- VREMX (R252). -/
def execVremx (d a : VIdx) (b : XIdx) (pg : PIdx) (ew : EW) (z : Bool) (s : State) : Result :=
  vx .I d a b pg ew z (fun _ _ => remElem ew.bits) s
/-- VREMUX (R252). -/
def execVremux (d a : VIdx) (b : XIdx) (pg : PIdx) (ew : EW) (z : Bool) (s : State) : Result :=
  vx .I d a b pg ew z (fun _ _ => urem) s
/-- VMINX (R252). -/
def execVminx (d a : VIdx) (b : XIdx) (pg : PIdx) (ew : EW) (z : Bool) (s : State) : Result :=
  vx .FI d a b pg ew z (fun _ k => extremeElem true k ew.bits) s
/-- VMAXX (R252). -/
def execVmaxx (d a : VIdx) (b : XIdx) (pg : PIdx) (ew : EW) (z : Bool) (s : State) : Result :=
  vx .FI d a b pg ew z (fun _ k => extremeElem false k ew.bits) s
/-- VMINUX (R252). -/
def execVminux (d a : VIdx) (b : XIdx) (pg : PIdx) (ew : EW) (z : Bool) (s : State) : Result :=
  vx .I d a b pg ew z (fun _ _ => extremeU true) s
/-- VMAXUX (R252). -/
def execVmaxux (d a : VIdx) (b : XIdx) (pg : PIdx) (ew : EW) (z : Bool) (s : State) : Result :=
  vx .I d a b pg ew z (fun _ _ => extremeU false) s
/-- VANDX (R252). -/
def execVandx (d a : VIdx) (b : XIdx) (pg : PIdx) (ew : EW) (z : Bool) (s : State) : Result :=
  vx .B d a b pg ew z (fun _ _ => (· &&& ·)) s
/-- VORX (R252). -/
def execVorx (d a : VIdx) (b : XIdx) (pg : PIdx) (ew : EW) (z : Bool) (s : State) : Result :=
  vx .B d a b pg ew z (fun _ _ => (· ||| ·)) s
/-- VXORX (R252). -/
def execVxorx (d a : VIdx) (b : XIdx) (pg : PIdx) (ew : EW) (z : Bool) (s : State) : Result :=
  vx .B d a b pg ew z (fun _ _ => (· ^^^ ·)) s
/-- VMACC (R253). -/
def execVmacc (d a b : VIdx) (pg : PIdx) (ew : EW) (z : Bool) (s : State) : Result :=
  vvd .FI d a b pg ew z (fun h k => fusedElem false k ew.bits (mfcRound h) (mfcSat h)) s
/-- VMSAC (R253). -/
def execVmsac (d a b : VIdx) (pg : PIdx) (ew : EW) (z : Bool) (s : State) : Result :=
  vvd .FI d a b pg ew z (fun h k => fusedElem true k ew.bits (mfcRound h) (mfcSat h)) s
/-- VNEG (R253). -/
def execVneg (d a : VIdx) (pg : PIdx) (ew : EW) (z : Bool) (s : State) : Result :=
  v1 .FI d a pg ew z (fun h k => signElem false k ew.bits (mfcSat h)) s
/-- VABS (R253). -/
def execVabs (d a : VIdx) (pg : PIdx) (ew : EW) (z : Bool) (s : State) : Result :=
  v1 .FI d a pg ew z (fun h k => signElem true k ew.bits (mfcSat h)) s
/-- VNOT (R253). -/
def execVnot (d a : VIdx) (pg : PIdx) (ew : EW) (z : Bool) (s : State) : Result :=
  v1 .B d a pg ew z (fun _ _ => fun a => 2 ^ ew.bits - 1 - a) s
/-- VSQRT (R253). -/
def execVsqrt (d a : VIdx) (pg : PIdx) (ew : EW) (z : Bool) (s : State) : Result :=
  v1 .F d a pg ew z (fun h k => sqrtElem k (mfcRound h) (mfcSat h)) s
/-- VCLZ (R253). -/
def execVclz (d a : VIdx) (pg : PIdx) (ew : EW) (z : Bool) (s : State) : Result :=
  v1 .B d a pg ew z (fun _ _ => fun a => leadZeros (BitVec.ofNat ew.bits a)) s
/-- VCTZ (R253). -/
def execVctz (d a : VIdx) (pg : PIdx) (ew : EW) (z : Bool) (s : State) : Result :=
  v1 .B d a pg ew z (fun _ _ => fun a => trailZeros (BitVec.ofNat ew.bits a)) s
/-- VPOPC (R253). -/
def execVpopc (d a : VIdx) (pg : PIdx) (ew : EW) (z : Bool) (s : State) : Result :=
  v1 .B d a pg ew z (fun _ _ => fun a => popcount (BitVec.ofNat ew.bits a)) s
/-- VMV (R253). -/
def execVmv (d a : VIdx) (pg : PIdx) (ew : EW) (z : Bool) (s : State) : Result :=
  v1 .B d a pg ew z (fun _ _ => id) s
/-- VSLL (R262). -/
def execVsll (d a b : VIdx) (pg : PIdx) (ew : EW) (z : Bool) (s : State) : Result :=
  vv .B d a b pg ew z (fun _ _ => sllElem ew.bits) s
/-- VSRL (R262). -/
def execVsrl (d a b : VIdx) (pg : PIdx) (ew : EW) (z : Bool) (s : State) : Result :=
  vv .B d a b pg ew z (fun _ _ => srlElem ew.bits) s
/-- VSRA (R262). -/
def execVsra (d a b : VIdx) (pg : PIdx) (ew : EW) (z : Bool) (s : State) : Result :=
  vv .B d a b pg ew z (fun _ _ => sraElem ew.bits) s
/-- VROL (R262). -/
def execVrol (d a b : VIdx) (pg : PIdx) (ew : EW) (z : Bool) (s : State) : Result :=
  vv .B d a b pg ew z (fun _ _ => rolElem ew.bits) s
/-- VBFX (R262). -/
def execVbfx (d a b : VIdx) (pg : PIdx) (ew : EW) (z : Bool) (s : State) : Result :=
  vv .B d a b pg ew z (fun _ _ => bfxElem ew.bits) s
/-- VBFXU (R262). -/
def execVbfxu (d a b : VIdx) (pg : PIdx) (ew : EW) (z : Bool) (s : State) : Result :=
  vv .B d a b pg ew z (fun _ _ => bfxuElem ew.bits) s
/-- VBFI (R262). -/
def execVbfi (d a b : VIdx) (pg : PIdx) (ew : EW) (z : Bool) (s : State) : Result :=
  vvd .B d a b pg ew z (fun _ _ => bfiElem ew.bits) s
/-- VFSL (R262). -/
def execVfsl (d a b : VIdx) (pg : PIdx) (ew : EW) (z : Bool) (s : State) : Result :=
  vvd .B d a b pg ew z (fun _ _ => fslElem ew.bits) s
/-- VFSR (R262). -/
def execVfsr (d a b : VIdx) (pg : PIdx) (ew : EW) (z : Bool) (s : State) : Result :=
  vvd .B d a b pg ew z (fun _ _ => fsrElem ew.bits) s
/-- VADDI (R254). -/
def execVaddi (d a : VIdx) (m : BitVec 5) (pg : PIdx) (ew : EW) (z : Bool) (s : State) : Result :=
  v1 .I d a pg ew z (fun h k => fun a => addElem k ew.bits (mfcRound h) (mfcSat h) a (imm5 m ew.bits)) s
/-- VRSUBI (R254). -/
def execVrsubi (d a : VIdx) (m : BitVec 5) (pg : PIdx) (ew : EW) (z : Bool) (s : State) : Result :=
  v1 .I d a pg ew z (fun h k => fun a => subElem k ew.bits (mfcRound h) (mfcSat h) (imm5 m ew.bits) a) s
/-- VANDI (R254). -/
def execVandi (d a : VIdx) (m : BitVec 5) (pg : PIdx) (ew : EW) (z : Bool) (s : State) : Result :=
  v1 .B d a pg ew z (fun _ _ => (· &&& imm5 m ew.bits)) s
/-- VORI (R254). -/
def execVori (d a : VIdx) (m : BitVec 5) (pg : PIdx) (ew : EW) (z : Bool) (s : State) : Result :=
  v1 .B d a pg ew z (fun _ _ => (· ||| imm5 m ew.bits)) s
/-- VXORI (R254). -/
def execVxori (d a : VIdx) (m : BitVec 5) (pg : PIdx) (ew : EW) (z : Bool) (s : State) : Result :=
  v1 .B d a pg ew z (fun _ _ => (· ^^^ imm5 m ew.bits)) s
/-- VSLLI (R254). -/
def execVslli (d a : VIdx) (m : BitVec 5) (pg : PIdx) (ew : EW) (z : Bool) (s : State) : Result :=
  v1 .B d a pg ew z (fun _ _ => (sllElem ew.bits · m.toNat)) s
/-- VSRLI (R254). -/
def execVsrli (d a : VIdx) (m : BitVec 5) (pg : PIdx) (ew : EW) (z : Bool) (s : State) : Result :=
  v1 .B d a pg ew z (fun _ _ => (srlElem ew.bits · m.toNat)) s
/-- VSRAI (R254). -/
def execVsrai (d a : VIdx) (m : BitVec 5) (pg : PIdx) (ew : EW) (z : Bool) (s : State) : Result :=
  v1 .B d a pg ew z (fun _ _ => (sraElem ew.bits · m.toNat)) s
/-- VMINI (R254). -/
def execVmini (d a : VIdx) (m : BitVec 5) (pg : PIdx) (ew : EW) (z : Bool) (s : State) : Result :=
  v1 .I d a pg ew z (fun _ k => (extremeElem true k ew.bits · (imm5 m ew.bits))) s
/-- VMAXI (R254). -/
def execVmaxi (d a : VIdx) (m : BitVec 5) (pg : PIdx) (ew : EW) (z : Bool) (s : State) : Result :=
  v1 .I d a pg ew z (fun _ k => (extremeElem false k ew.bits · (imm5 m ew.bits))) s
/-- VSPLATI (R254). -/
def execVsplati (d : VIdx) (m : BitVec 5) (pg : PIdx) (ew : EW) (z : Bool) (s : State) : Result :=
  elementWise .B d pg ew z (fun _ _ _ => imm5 m ew.bits) s
/-- VSPLAT (R259): element-wise. -/
def execVsplat (d : VIdx) (a : XIdx) (pg : PIdx) (ew : EW) (z : Bool) (s : State) : Result :=
  elementWise .B d pg ew z (fun h _ _ => (h.xreg a).toNat % 2 ^ ew.bits) s

end Sys2Proof.Machine
end

