-- ==== Sys2Proof/Machine/VectorWhole.lean ====
section
/-! DEFINITION. Compares and predicates, permutes, reductions and scans, conversions (R255-R261, R263-R267, R199). -/

namespace Sys2Proof.Machine

/-! ## Compares (R255, R247) -/

/-- The truth of a cond b; a NaN makes every floating condition false but `ne` (R255). -/
def condHolds (c : Cond) (k : Kind) (w a b : Nat) : Bool :=
  match k with
  | .flt f =>
    let x := decodeExact f a
    let y := decodeExact f b
    match c with
    | .eq => x.eq y
    | .ne => !x.eq y
    | .lt => x.lt y
    | .le => x.lt y || x.eq y
    | .gt => y.lt x
    | .ltu => false
    | .leu => false
    | .gtu => false
  | .int =>
    match c with
    | .eq => a == b
    | .ne => a != b
    | .lt => toSigned w a < toSigned w b
    | .le => toSigned w a ≤ toSigned w b
    | .gt => toSigned w b < toSigned w a
    | .ltu => a < b
    | .leu => a ≤ b
    | .gtu => b < a
  | .none => false

/-- The class of a compare (Table 16.5). -/
def condClass (c : Cond) : Class :=
  match c with
  | .ltu => .I | .leu => .I | .gtu => .I
  | .eq => .FI | .ne => .FI | .lt => .FI | .le => .FI | .gt => .FI

/-- A compare: `f` gives the two operands of element `i`. Where VSTART > VL, the bits from VL·EW/8 up to VSTART·EW/8 are cleared, as
those at and above VL are, although they lie below VSTART (R247). (DESIGN CHOICE, log 20.) -/
def compare (c : Cond) (d : PIdx) (pg : PIdx) (ew : EW) (z : Bool) (f : Hart → Nat → Nat × Nat) (s : State) : Result :=
  let h := s.hart
  let k := h.kind ew
  if !(condClass c).admits k then .next (takeTrap s (illegalTrap s))
  else if tooLong s ew then .next (takeTrap s (lengthTrap s))
  else
    let lo := h.vstart.toNat
    let p := forUp (h.vl.toNat - lo) lo (fun i p =>
      if h.active pg ew.bits i then let x := f h i; putBit p i ew.bits (condHolds c k ew.bits x.1 x.2)
      else if z then putBit p i ew.bits false else p) (h.preg d)
    .next (advance { s with hart := { h.setP d (clearAbove p h.vl.toNat ew.bits) with vstart := 0 } })

/-- VCMP_VV (R255). -/
def execVcmpVv (c : Cond) (d : PIdx) (a b : VIdx) (pg : PIdx) (ew : EW) (z : Bool) (s : State) : Result :=
  compare c d pg ew z (fun h i => (elemN (h.vreg a) ew.bits i, elemN (h.vreg b) ew.bits i)) s
/-- VCMP_VX (R255). -/
def execVcmpVx (c : Cond) (d : PIdx) (a : VIdx) (b : XIdx) (pg : PIdx) (ew : EW) (z : Bool) (s : State) : Result :=
  compare c d pg ew z (fun h i => (elemN (h.vreg a) ew.bits i, (h.xreg b).toNat % 2 ^ ew.bits)) s

/-! ## Whole instructions (R243) -/

/-- A whole instruction that uses VL and EW: `f` is its effect on the hart, or the operand trap. Of the operand traps, that of VSTART
comes first, then that of the length, then those of `f`, such as an overlap: their EVAL differ, and R207 gives them one place.
(DESIGN CHOICE, log 20.) -/
def whole (c : Class) (ew : EW) (f : Hart → Kind → Option Hart) (s : State) : Result :=
  let h := s.hart
  if !c.admits (h.kind ew) then .next (takeTrap s (illegalTrap s))
  else if h.vstart != 0 then .next (takeTrap s (operandTrap s))
  else if tooLong s ew then .next (takeTrap s (lengthTrap s))
  else match f h (h.kind ew) with
    | some h' => .next (advance { s with hart := h' })
    | none => .next (takeTrap s (operandTrap s))

/-- Predicate logic over all 128 bits (R256). -/
def predLogic (d : PIdx) (p : Hart → PReg) (s : State) : Result :=
  if s.hart.vstart != 0 then .next (takeTrap s (operandTrap s))
  else .next (advance (setP s d (p s.hart)))

/-- PAND (R256). -/
def execPand (d a b : PIdx) (s : State) : Result := predLogic d (fun h => h.preg a &&& h.preg b) s
/-- POR (R256). -/
def execPor (d a b : PIdx) (s : State) : Result := predLogic d (fun h => h.preg a ||| h.preg b) s
/-- PXOR (R256). -/
def execPxor (d a b : PIdx) (s : State) : Result := predLogic d (fun h => h.preg a ^^^ h.preg b) s
/-- PANDN (R256). -/
def execPandn (d a b : PIdx) (s : State) : Result := predLogic d (fun h => h.preg a &&& ~~~(h.preg b)) s
/-- PNOT (R256). -/
def execPnot (d a : PIdx) (s : State) : Result := predLogic d (fun h => ~~~(h.preg a)) s

/-- The governed set elements below VL, ascending (R257, R258). -/
def governedSet (h : Hart) (a pg : PIdx) (w : Nat) : List Nat :=
  (List.range h.vl.toNat).filter fun i => pbit (h.preg pg) i w && pbit (h.preg a) i w

/-- The leading run of governed elements (R257). -/
def leadingRun (incl : Bool) (h : Hart) (a pg : PIdx) (w : Nat) : PReg :=
  let f := ((governedSet h a pg w).head?).getD h.vl.toNat
  forUp h.vl.toNat 0 (fun i p =>
    if pbit (h.preg pg) i w && (i < f || (incl && i == f)) then putBit p i w true else p) 0

/-- PLEAD_INCL (R257). -/
def execPleadIncl (d a pg : PIdx) (ew : EW) (s : State) : Result :=
  whole .B ew (fun h _ => some (h.setP d (leadingRun true h a pg ew.bits))) s
/-- PLEAD_EXCL (R257). -/
def execPleadExcl (d a pg : PIdx) (ew : EW) (s : State) : Result :=
  whole .B ew (fun h _ => some (h.setP d (leadingRun false h a pg ew.bits))) s
/-- PPOPC (R258). -/
def execPpopc (d : XIdx) (a pg : PIdx) (ew : EW) (s : State) : Result :=
  whole .B ew (fun h _ => some (h.setX d (BitVec.ofNat 64 (governedSet h a pg ew.bits).length))) s
/-- PFIND (R258). -/
def execPfind (d : XIdx) (a pg : PIdx) (ew : EW) (s : State) : Result :=
  whole .B ew (fun h _ => some (h.setX d (match (governedSet h a pg ew.bits).head? with
    | some i => BitVec.ofNat 64 i
    | none => BitVec.allOnes 64))) s
/-- PSET (R258). -/
def execPset (d : PIdx) (a : XIdx) (ew : EW) (s : State) : Result :=
  whole .B ew (fun h _ => some (h.setP d
    (forUp (min (h.xreg a).toNat h.vl.toNat) 0 (fun i p => putBit p i ew.bits true) 0))) s

/-! ## Permutes (R259) -/

/-- A permute of whole instructions: `f` gives element `i`, or `none` to leave it unchanged. The length is tested before the
overlap. (DESIGN CHOICE, log 20.) -/
def permute (ew : EW) (d : VIdx) (pg : PIdx) (z : Bool) (overlap : Bool) (f : Hart → Nat → Option Nat) (s : State) : Result :=
  whole .B ew (fun h _ =>
    if overlap then none
    else
      let old := h.vreg d
      let w := ew.bits
      some (h.setV d (eachElem h pg w z 0 h.vl.toNat (fun i => (f h i).getD (elemN old w i)) old))) s

/-- VSLIDEUP (R259). -/
def execVslideup (d a : VIdx) (b : XIdx) (pg : PIdx) (ew : EW) (z : Bool) (s : State) : Result :=
  permute ew d pg z (d == a) (fun h i =>
    if (h.xreg b).toNat ≤ i then some (elemN (h.vreg a) ew.bits (i - (h.xreg b).toNat)) else none) s
/-- VSLIDEDN (R259). -/
def execVslidedn (d a : VIdx) (b : XIdx) (pg : PIdx) (ew : EW) (z : Bool) (s : State) : Result :=
  permute ew d pg z (d == a) (fun h i =>
    if i + (h.xreg b).toNat < h.vl.toNat then some (elemN (h.vreg a) ew.bits (i + (h.xreg b).toNat)) else some 0) s
/-- VRGATHER (R259). -/
def execVrgather (d a b : VIdx) (pg : PIdx) (ew : EW) (z : Bool) (s : State) : Result :=
  permute ew d pg z (d == a || d == b) (fun h i =>
    let j := elemN (h.vreg b) ew.bits i
    if j < h.vl.toNat then some (elemN (h.vreg a) ew.bits j) else some 0) s
/-- VCOMPRESS (R259): the active elements, packed; the tail is cleared under `inactive=zero`. -/
def execVcompress (d a : VIdx) (pg : PIdx) (ew : EW) (z : Bool) (s : State) : Result :=
  whole .B ew (fun h _ =>
    if d == a then none
    else
      let w := ew.bits
      let n := h.vl.toNat
      let xs := (h.actives pg w 0 n).map fun i => elemN (h.vreg a) w i
      some (h.setV d (forUp n 0 (fun i v =>
        if i < xs.length then putN v w i (xs.getD i 0) else if z then putN v w i 0 else v) (h.vreg d)))) s
/-- VIOTA (R259). -/
def execViota (d : VIdx) (pg : PIdx) (ew : EW) (z : Bool) (s : State) : Result :=
  permute ew d pg z false (fun h i => some (h.actives pg ew.bits 0 i).length) s
/-- VMVX (R259): sign-extended for integer kinds. -/
def execVmvx (d : XIdx) (a : VIdx) (b : XIdx) (ew : EW) (s : State) : Result :=
  whole .B ew (fun h k =>
    let i := (h.xreg b).toNat
    let v := elemN (h.vreg a) ew.bits i
    some (h.setX d (if i < h.vl.toNat then
      (if k = .int then BitVec.ofInt 64 (toSigned ew.bits v) else BitVec.ofNat 64 v) else 0))) s
/-- VINS (R259). -/
def execVins (d : VIdx) (a b : XIdx) (ew : EW) (s : State) : Result :=
  whole .B ew (fun h _ =>
    let i := (h.xreg b).toNat
    some (h.setV d (if i < h.vl.toNat then putN (h.vreg d) ew.bits i (h.xreg a).toNat else h.vreg d))) s

/-! ## Reductions and scans (R199, R260, R261) -/

/-- One level of the tree: neighbours combined, an absent one passed over. -/
def treeLevel (op : Nat → Nat → Nat) : List (Option Nat) → List (Option Nat)
  | x :: y :: t =>
    (match x, y with
      | none, v => v
      | some u, none => some u
      | some u, some v => some (op u v)) :: treeLevel op t
  | t => t

/-- The tree of R199 over a list of a power of two. -/
def tree (op : Nat → Nat → Nat) : Nat → List (Option Nat) → Option Nat
  | 0, t => t.headD none
  | n + 1, t => if t.length ≤ 1 then t.headD none else tree op n (treeLevel op t)

/-- The smallest power of two at or above `n`, at least 1. -/
def pow2Above (n : Nat) : Nat := if n ≤ 1 then 1 else 2 ^ (Nat.log2 (n - 1) + 1)

/-- A reduction: the result in `w` bits (R199). -/
def reduce (h : Hart) (pg : PIdx) (w : Nat) (a : VIdx) (init : Nat) (op : Nat → Nat → Nat) : Nat :=
  let vl := h.vl.toNat
  let t := (List.range (pow2Above vl)).map fun i =>
    if i < vl && h.active pg w i then some (elemN (h.vreg a) w i) else none
  match tree op 8 t with
  | some x => op init x
  | none => init

/-- A reduction instruction: sign-extended for integer kinds unless `uns` (R260). -/
def reduction (c : Class) (uns : Bool) (d : XIdx) (a : VIdx) (b : XIdx) (pg : PIdx) (ew : EW)
    (op : Hart → Kind → Nat → Nat → Nat) (s : State) : Result :=
  whole c ew (fun h k =>
    let r := reduce h pg ew.bits a ((h.xreg b).toNat % 2 ^ ew.bits) (op h k)
    some (h.setX d (if k = .int && !uns then BitVec.ofInt 64 (toSigned ew.bits r) else BitVec.ofNat 64 r))) s

/-- A scan from left to right (R261). -/
def scan (d a : VIdx) (pg : PIdx) (ew : EW) (z : Bool) (op : Hart → Kind → Nat → Nat → Nat) (s : State) : Result :=
  whole .FI ew (fun h k =>
    let w := ew.bits
    let src := h.vreg a
    let r := forUp h.vl.toNat 0 (fun i (x : Option Nat × VReg) =>
      if h.active pg w i then
        let t := match x.1 with
          | none => elemN src w i
          | some u => op h k u (elemN src w i)
        (some t, putN x.2 w i t)
      else (x.1, if z then putN x.2 w i 0 else x.2)) (none, h.vreg d)
    some (h.setV d r.2)) s

/-- VREDSUM (R260). -/
def execVredsum (d : XIdx) (a : VIdx) (b : XIdx) (pg : PIdx) (ew : EW) (s : State) : Result :=
  reduction .FI false d a b pg ew (fun h k => addElem k ew.bits (mfcRound h) (mfcSat h)) s
/-- VREDMIN (R260). -/
def execVredmin (d : XIdx) (a : VIdx) (b : XIdx) (pg : PIdx) (ew : EW) (s : State) : Result :=
  reduction .FI false d a b pg ew (fun _ k => extremeElem true k ew.bits) s
/-- VREDMAX (R260). -/
def execVredmax (d : XIdx) (a : VIdx) (b : XIdx) (pg : PIdx) (ew : EW) (s : State) : Result :=
  reduction .FI false d a b pg ew (fun _ k => extremeElem false k ew.bits) s
/-- VREDMINU (R260). -/
def execVredminu (d : XIdx) (a : VIdx) (b : XIdx) (pg : PIdx) (ew : EW) (s : State) : Result :=
  reduction .I true d a b pg ew (fun _ _ => extremeU true) s
/-- VREDMAXU (R260). -/
def execVredmaxu (d : XIdx) (a : VIdx) (b : XIdx) (pg : PIdx) (ew : EW) (s : State) : Result :=
  reduction .I true d a b pg ew (fun _ _ => extremeU false) s
/-- VREDAND (R260). -/
def execVredand (d : XIdx) (a : VIdx) (b : XIdx) (pg : PIdx) (ew : EW) (s : State) : Result :=
  reduction .B false d a b pg ew (fun _ _ => (· &&& ·)) s
/-- VREDOR (R260). -/
def execVredor (d : XIdx) (a : VIdx) (b : XIdx) (pg : PIdx) (ew : EW) (s : State) : Result :=
  reduction .B false d a b pg ew (fun _ _ => (· ||| ·)) s
/-- VREDXOR (R260). -/
def execVredxor (d : XIdx) (a : VIdx) (b : XIdx) (pg : PIdx) (ew : EW) (s : State) : Result :=
  reduction .B false d a b pg ew (fun _ _ => (· ^^^ ·)) s
/-- VSCANSUM (R261). -/
def execVscansum (d a : VIdx) (pg : PIdx) (ew : EW) (z : Bool) (s : State) : Result :=
  scan d a pg ew z (fun h k => addElem k ew.bits (mfcRound h) (mfcSat h)) s
/-- VSCANMAX (R261). -/
def execVscanmax (d a : VIdx) (pg : PIdx) (ew : EW) (z : Bool) (s : State) : Result :=
  scan d a pg ew z (fun _ k => extremeElem false k ew.bits) s
/-- VSCANMIN (R261). -/
def execVscanmin (d a : VIdx) (pg : PIdx) (ew : EW) (z : Bool) (s : State) : Result :=
  scan d a pg ew z (fun _ k => extremeElem true k ew.bits) s

/-! ## Conversions (R263-R267) -/

/-- Formats that any pair of which `vcvt` admits (R263). -/
def cvtPlain (f : Fmt) : Bool :=
  match f with
  | .rns3 => false
  | .e8m0 => false
  | .f32 => true | .bf16 => true | .f16 => true | .e4m3 => true | .e5m2 => true | .e2m1 => true | .i8 => true
  | .ui8 => true | .i4 => true | .i16 => true | .i32 => true

/-- The pairs `vcvt` admits (R263). -/
def cvtAdmits (src dst : Fmt) : Bool :=
  (cvtPlain src && cvtPlain dst) || (src == .rns3 && dst == .i32) ||
    (dst == .rns3 && (src == .i8 || src == .i16 || src == .i32))

/-- The conversion of an element (R264). (DEDUCED, log 20.) -/
def cvtElem (src dst : Fmt) (bits : Nat) (r : Rnd) (sat : Bool) : Nat :=
  if src = .rns3 then ofInt 32 (rnsValue bits)
  else if dst = .rns3 then rnsOfInt (decodeInt src bits)
  else if src = dst then
    (if isFloat src && (decodeExact src bits).isNaN then canonNaN src else bits % 2 ^ src.bits)
  else convert src dst bits r sat

/-- VCVT (R263-R265). -/
def execVcvt (dst src : Fmt) (d a : VIdx) (rnd : Rnd) (sat : Bool) (s : State) : Result :=
  let h := s.hart
  let vl := h.vl.toNat
  let lo := h.vstart.toNat
  let ns := groupSize vl src.bits
  let nd := groupSize vl dst.bits
  if !cvtAdmits src dst then .next (takeTrap s (illegalTrap s))
  else if groupPast a ns || groupPast d nd || (groupsMeet a ns d nd && !(d == a && nd == ns)) || (0 < vl && vl ≤ lo) then
    .next (takeTrap s (operandTrap s))
  else
    let h' := forUp (vl - lo) lo (fun i g => putGroup g d dst.bits i (cvtElem src dst (groupElem h a src.bits i) rnd sat)) h
    .next (advance { s with hart := { touchGroup h' d nd with vstart := 0 } })

/-- The MX element formats (R186). -/
def mxFormat (f : Fmt) : Bool := f == .e4m3 || f == .e5m2 || f == .e2m1 || f == .i8
/-- The floating formats that `vquant` reads and `vdquant` writes (R266, R267). -/
def mxWide (f : Fmt) : Bool := f == .f32 || f == .bf16 || f == .f16

/-- The operand tests of `vquant` and `vdquant` (R266). -/
def quantBad (h : Hart) (d a : VIdx) (nd ns : Nat) : Bool :=
  h.vstart != 0 || groupPast a ns || groupPast d nd || groupsMeet a ns d nd

/-- The scale field of block `b` of a register group (R191, R266). -/
def blockScale (h : Hart) (src dst : Fmt) (a : VIdx) (b : Nat) : Nat :=
  mxScale dst (((List.range 32).filter fun j => 32 * b + j < h.vl.toNat).map fun j =>
    decodeExact src (groupElem h a src.bits (32 * b + j)))

/-- VQUANT (R266). At VL = 0 only `xb` changes, DIRTYMAP does not, whatever R244 says of an instruction that completes. (DESIGN
CHOICE, log 20.) -/
def execVquant (dst src : Fmt) (d a : VIdx) (x : XIdx) (s : State) : Result :=
  let h := s.hart
  let vl := h.vl.toNat
  let ns := groupSize vl src.bits
  let nd := groupSize vl dst.bits
  if !(mxWide src && mxFormat dst) then .next (takeTrap s (illegalTrap s))
  else if quantBad h d a nd ns then .next (takeTrap s (operandTrap s))
  else
    let scales := (List.range ((vl + 31) / 32)).map fun b => blockScale h src dst a b
    let h' := forUp vl 0 (fun i g =>
      putGroup g d dst.bits i (mxElem dst (scales.getD (i / 32) 0) (decodeExact src (groupElem h a src.bits i)))) h
    let h' := if vl = 0 then h' else touchGroup h' d nd
    let w : Word := BitVec.ofNat 64 (scales.foldr (fun b n => b % 256 + 256 * n) 0)
    .next (advance { s with hart := h'.setX x w })

/-- VDQUANT (R267). At VL = 0 nothing changes: `xb`, a source here, keeps its value, and DIRTYMAP too. (DESIGN CHOICE, log 20.) -/
def execVdquant (dst src : Fmt) (d a : VIdx) (x : XIdx) (s : State) : Result :=
  let h := s.hart
  let vl := h.vl.toNat
  let ns := groupSize vl src.bits
  let nd := groupSize vl dst.bits
  if !(mxWide dst && mxFormat src) then .next (takeTrap s (illegalTrap s))
  else if quantBad h d a nd ns then .next (takeTrap s (operandTrap s))
  else
    let scale := fun (b : Nat) => ((h.xreg x).extractLsb' (8 * b) 8).toNat
    let h' := forUp vl 0 (fun i g =>
      putGroup g d dst.bits i (roundFmt dst (mxValue src (scale (i / 32)) (groupElem h a src.bits i)) .rne false)) h
    .next (advance { s with hart := if vl = 0 then h' else touchGroup h' d nd })

end Sys2Proof.Machine
end

