-- ==== Sys2Proof/Machine/VMem.lean ====
section
/-! DEFINITION. Vector loads and stores (R269-R277), the scratchpad and its full bits (R278-R280), the lane store (R281,
R282), and the probe that runs ahead of every vector memory instruction (R355-R358). -/

namespace Sys2Proof.Machine

/-! ## Stops inside an instruction (R360, R425) -/

/-- A trap at a unit of a divisible instruction: VSTART names the unit, and the stop is at a resume point. -/
def trapAt {α : Type} (u : Nat) (t : TrapInfo) : M α := fun s =>
  (.error (.trap { t with resume := true }), { s with hart := { s.hart with vstart := BitVec.ofNat 8 u } })

/-- The instruction waits at a unit: no resume point, and what is below the unit stands; it has passed its probe, and goes on
from the unit (R93, R345, R425). (DEDUCED, log 22.) -/
def waitAt {α : Type} (u : Nat) : M α := fun s =>
  (.error .hold, { s with hart := { s.hart with vstart := BitVec.ofNat 8 u, mid := true, waits := true } })

/-- The instruction stops at a unit's boundary (R276, R360). -/
def breakAt {α : Type} (u : Nat) : M α := fun s =>
  (.error .hold, { s with hart := { s.hart with vstart := BitVec.ofNat 8 u, mid := true, waits := false } })

/-- Runs the act of one unit; a stop inside it names the unit. -/
def actAt {α : Type} (u : Nat) (m : M α) : M α := fun s =>
  match m s with
  | (.ok x, s') => (.ok x, s')
  | (.error (.trap t), s') => trapAt u t s'
  | (.error .hold, s') => waitAt u s'

/-! ## The probe (R355-R358) -/

/-- An address that a unit touches in the memory space. -/
structure Touch where
  unit : Nat
  va : Word
  deriving DecidableEq, Repr

/-- A page that translates: VA / 65536, the physical address of its first byte, and whether it is a SELF page. -/
structure PageMap where
  key : Nat
  base : Nat
  self : Bool
  deriving DecidableEq, Repr

/-- The touches that are the first of their page; pages count as distinct by VA[63:16] (R351). -/
def firstTouches : List Touch → List Nat → List Touch
  | [], _ => []
  | t :: ts, seen =>
    if seen.contains (t.va.toNat / 65536) then firstTouches ts seen
    else t :: firstTouches ts (t.va.toNat / 65536 :: seen)

/-- Translation for the probe; `loc`: remote windows are not admitted (R27). -/
def xlateFor (s : State) (loc : Bool) (a : Acc) (va : Word) : Xl :=
  match xlate s (hereTlb s) (curLaunch s) va a with
  | .ok pa self => if loc && windowOf (pa / 64) != 0 then .page 0x05 1 (leafLevel s va) else .ok pa self
  | .page c k w => .page c k w
  | .host w => .host w
  | .walk t => .walk t
  | .wait l => .wait l

/-- The page fault of a translation, an ownership case counting as refused. -/
def faultOf (t : Touch) (x : Xl) : Option PageFault :=
  match x with
  | .page c k w => some ⟨c, k, w, t.unit, t.va⟩
  | .host w => some ⟨0x06, 2, w, t.unit, t.va⟩
  | .ok _ _ => none
  | .walk _ => none
  | .wait _ => none

def walkOf (x : Xl) : Option TrapInfo :=
  match x with
  | .walk t => some t
  | .page _ _ _ => none
  | .host _ => none
  | .ok _ _ => none
  | .wait _ => none

/-- What a translation waits for (R150, R392). -/
def waitOf (x : Xl) : Option (Option (Nat × Nat)) :=
  match x with
  | .wait l => some l
  | .page _ _ _ => none
  | .host _ => none
  | .ok _ _ => none
  | .walk _ => none

def mapOf (t : Touch) (x : Xl) : Option PageMap :=
  match x with
  | .ok pa self => some ⟨t.va.toNat / 65536, pa - t.va.toNat % 65536, self⟩
  | .page _ _ _ => none
  | .host _ => none
  | .walk _ => none
  | .wait _ => none

/-- A page the host owns and has not refused (R149). -/
def hostOf (s : State) (t : Touch) (x : Xl) : Option (Word × Nat) :=
  match x with
  | .host w => if pageRefused s (curLaunch s) t.va w then none else some (t.va, w)
  | .ok _ _ => none
  | .page _ _ _ => none
  | .walk _ => none
  | .wait _ => none

/-- The refusals among the listed pages are taken (R357). -/
def takeRefusals (s : State) (fs : List PageFault) : State :=
  (fs.take 8).foldl (fun s f => if f.kind = 2 then takeRefusal s (curLaunch s) f.va f.wlev else s) s

/-- What the probe leaves: the pages that translate, and the faulting pages of a resumed attempt (R358). -/
structure Probe where
  pages : List PageMap
  faults : List PageFault
  deriving DecidableEq, Repr

/-- One entry for each faulting page: a leaf of the second level is one page of 512 MiB (R25, R351). -/
def faultKey (f : PageFault) : Nat × Nat :=
  if f.wlev = 2 && (f.kind = 1 || f.kind = 2) then (1, f.va.toNat / 2 ^ 29) else (0, f.va.toNat / 65536)

def distinctFaults : List PageFault → List (Nat × Nat) → List PageFault
  | [], _ => []
  | f :: fs, seen =>
    if seen.contains (faultKey f) then distinctFaults fs seen else f :: distinctFaults fs (faultKey f :: seen)

/-- The probe over the touches in ascending order. Ownership cases are served first (R357); it waits for pages that move, and for
ways to their entries (R150, R392). -/
def probeAll (loc : Bool) (a : Acc) (ts : List Touch) : M Probe := fun s =>
  let xs := (firstTouches ts []).map fun t => (t, xlateFor s loc a t.va)
  match xs.findSome? fun x => walkOf x.2 with
  | some t => (.error (.trap t), s)
  | none =>
    let hosts := xs.filterMap fun x => hostOf s x.1 x.2
    let waits := xs.filterMap fun x => waitOf x.2
    if !hosts.isEmpty || !waits.isEmpty then
      (.error .hold, waiting (hosts.foldl (fun s h => requestPage s (curLaunch s) h.1 h.2) (waits.foldl reportLeg s)))
    else
      let s' := (xs.filter fun x => (mapOf x.1 x.2).isSome).foldl
        (fun s x => xlateFill s (hereTlb s) (curLaunch s) x.1.va) s
      (.ok ⟨xs.filterMap fun x => mapOf x.1 x.2, distinctFaults (xs.filterMap fun x => faultOf x.1 x.2) []⟩, s')

/-- A first attempt with faulting pages commits nothing (R356). -/
def commitNothing (resume : Bool) (p : Probe) : M Probe := fun s =>
  if p.faults.isEmpty then (.ok p, s) else (.error (.trap (pageTrap resume p.faults)), takeRefusals s p.faults)

/-- The probe of a divisible instruction: a resumed attempt goes on past faulting pages (R358). -/
def probeM (loc : Bool) (a : Acc) (ts : List Touch) : M Probe := do
  let p ← probeAll loc a ts
  let s ← getS
  if s.hart.resume || s.hart.mid then fun s => (.ok p, s) else commitNothing true p

/-- The probe of an indivisible instruction: every attempt is a first attempt (R304, R425). -/
def probeWhole (loc : Bool) (a : Acc) (ts : List Touch) : M Probe := do
  let p ← probeAll loc a ts
  commitNothing false p

/-- The physical address of an address on a page the probe translated, and whether the page is a SELF page. -/
def Probe.at (p : Probe) (va : Word) : Option (Nat × Bool) :=
  (p.pages.find? fun m => m.key == va.toNat / 65536).map fun m => (m.base + va.toNat % 65536, m.self)

/-- A faulting page stops a resumed attempt at its first unit, and the record lists the pages from there on (R358). -/
def faultAt {α : Type} (u : Nat) (fs : List PageFault) : M α := fun s =>
  trapAt u (pageTrap true fs) (takeRefusals s fs)

/-- The lowest misaligned address raises 0x03 (R271). -/
def alignAll (n : Nat) (vas : List Word) : M Unit := fun s =>
  match vas.find? fun va => va.toNat % n != 0 with
  | some va => (.error (.trap (TrapInfo.plain 0x03 va)), s)
  | none => (.ok (), s)

/-- The lowest offset that a test refuses raises 0x05 (R268, R282). -/
def boundAll (bad : Nat → Bool) (vas : List Word) : M Unit := fun s =>
  match vas.find? fun va => bad va.toNat with
  | some va => (.error (.trap (TrapInfo.plain 0x05 va)), s)
  | none => (.ok (), s)

/-- A write into a valid range raises a range error at issue (R147, R275, R285). -/
def noRanges (p : Probe) (n : Nat) (vas : List Word) : M Unit := fun s =>
  match vas.findSome? fun va => match p.at va with
    | some x => (rangeMeeting s x.1 n).map fun r => rangeTrap va r 1
    | none => none with
  | some t => (.error (.trap t), s)
  | none => (.ok (), s)

/-! ## Units in order -/

/-- Units in ascending order, stopping at a boundary the act asked for, at a faulting page, or where a unit stops. `k` units
are done. -/
def unitsM {σ : Type} (limit : Option Nat) (fs : List PageFault) (act : Nat → σ → M σ) : Nat → List Nat → σ → M σ
  | _, [], x => fun s => (.ok x, s)
  | k, u :: us, x => fun s =>
    if limit = some k then breakAt u s
    else if fs.any fun f => f.fel ≤ u then faultAt u fs s
    else match actAt u (act u x) s with
      | (.ok y, s') => unitsM limit fs act (k + 1) us y s'
      | (.error e, s') => (.error e, s')

/-- Completion of a divisible instruction. -/
def doneV : M Unit := modS fun s => advance { s with hart := { s.hart with vstart := 0 } }

/-! ## Reads of the local spaces (R278, R281) -/

/-- A granule checked without R103, found in a local space. It has no virtual address: its record names its offset, in the lane for
the lane store, rounded down to the granule (R168). (DESIGN CHOICE, log 17.) -/
def checkLocal (g : Granule) (off src : Nat) (tag : Word) : M Granule := fun s =>
  match g.badKind with
  | some kind => (.error (.trap (checkTrap (BitVec.ofNat 64 off) g (pathWord src tag kind))), s)
  | none => (.ok g, s)

/-- A scratchpad granule of a core once its line is full; R103 is not applied. -/
def readSpAt (core off : Nat) : M Granule := fun s =>
  let c := coreAt s core
  if !(spLine c off).full then holdM s
  else
    let x := spGranule core c off
    checkLocal x.1 off 5 x.2 s

/-- A lane-store granule; `key` is 64 times the lane plus the granule, `off` the offset in the lane. -/
def readLsAt (core key off : Nat) : M Granule := fun s =>
  let x := laneGranule core (coreAt s core) key
  checkLocal x.1 off 6 x.2 s

def readSp (off : Nat) : M Granule := fun s => readSpAt (curCore s) off s
def readLs (key off : Nat) : M Granule := fun s => readLsAt (curCore s) key off s

/-! ## The operands of a vector load or store -/

/-- The fields of a VM word. -/
structure VMemOp where
  reg : VIdx
  a : XIdx
  m : Addr
  pg : PIdx
  ew : EW
  cv : Bool
  space : Space
  deriving DecidableEq, Repr

/-- SENC while CV = 1. -/
def VMemOp.fmt (o : VMemOp) (h : Hart) : Option Fmt := if o.cv then mfcSenc h else none
def VMemOp.blocks (o : VMemOp) (h : Hart) : Bool := o.cv && mfcBse h
/-- The memory element width (R271). -/
def VMemOp.wm (o : VMemOp) (h : Hart) : Nat := match o.fmt h with | some f => f.bits | none => o.ew.bits

/-- The formats that a block-scaled access admits (Table 17.3). -/
def scaledFmt (f : Option Fmt) : Bool :=
  match f with
  | some f => mxFormat f
  | none => false

/-- Illegal-instruction cases of Table 17.3. -/
def VMemOp.illegal (o : VMemOp) (h : Hart) : Bool :=
  (o.space == .ls && (o.m != .unit || o.cv)) ||
  (o.cv && (match mfcSenc h with | none => true | some f => f == .rns3 || f == .e8m0)) ||
  (o.cv && h.kind o.ew == .none)

/-- Illegal-operand cases of Table 17.3. -/
def VMemOp.badOperand (o : VMemOp) (h : Hart) (store : Bool) : Bool :=
  h.vl.toNat * o.ew.bits > 1024 ||
  (o.cv && o.wm h == 4 && o.m != .unit) ||
  (o.blocks h && (o.m != .unit || !scaledFmt (mfcSenc h) || h.kind o.ew == .int)) ||
  (store && o.blocks h && h.vstart.toNat % 32 != 0)

/-- The active elements still to be done. -/
def VMemOp.elems (o : VMemOp) (h : Hart) : List Nat := h.actives o.pg o.ew.bits h.vstart.toNat h.vl.toNat

/-- The address or offset of element `i` (R271); in the lane store, the offset in its lane (R281). -/
def VMemOp.va (o : VMemOp) (h : Hart) (i : Nat) : Word :=
  if o.space = .ls then h.xreg o.a + BitVec.ofNat 64 (i * o.ew.bytes % 8)
  else if o.wm h = 4 then h.xreg o.a + BitVec.ofNat 64 (i / 2)
  else h.elemAddr o.a o.m (o.wm h) o.ew.bits i

/-- The address of the scale byte of block `b` (R273). -/
def scaleVa (h : Hart) (b : Nat) : Word := h.scalebase.setWidth 64 + BitVec.ofNat 64 b

/-- What element `i` touches in the memory space, data before its scale byte. -/
def VMemOp.touch (o : VMemOp) (h : Hart) (i : Nat) : List Touch :=
  (if o.space = .mem then [⟨i, o.va h i⟩] else []) ++ (if o.blocks h then [⟨i, scaleVa h (i / 32)⟩] else [])

/-- The lane-store offset must be a multiple of 8 and at most 4088 (R281). -/
def VMemOp.laneTest (o : VMemOp) (h : Hart) : M Unit := fun s =>
  let x := h.xreg o.a
  if o.space ≠ .ls then (.ok (), s)
  else if x.toNat % 8 ≠ 0 then (.error (.trap (TrapInfo.plain 0x03 x)), s)
  else if x.toNat > 4088 then (.error (.trap (TrapInfo.plain 0x05 x)), s)
  else (.ok (), s)

/-- The tests of the addresses that need no translation: misalignment first, then the bounds of the local spaces (R271,
R276, R281). -/
def VMemOp.local (o : VMemOp) (h : Hart) : M Unit := fun s =>
  let vas := (o.elems h).map (o.va h)
  match o.laneTest h s with
  | (.error e, s) => (.error e, s)
  | (.ok _, s) =>
    match alignAll (elemBytes (o.wm h)) vas s with
    | (.error e, s) => (.error e, s)
    | (.ok _, s) =>
      if o.space = .sp then boundAll (fun off => off ≥ spSize (coreAt s (curCore s))) vas s else (.ok (), s)

/-- The bits of an element within its granule: offset and width. -/
def VMemOp.field (o : VMemOp) (h : Hart) (i byte : Nat) : Nat × Nat :=
  (8 * (byte % 64) + (if o.wm h = 4 then 4 * (i % 2) else 0), o.wm h)

/-! ## Values (R272, R273) -/

/-- A memory element as the register takes it: converted to the kind of EW (R272), with its block's scale (R273). -/
def cvLoad (h : Hart) (ew : EW) (f : Fmt) (scale : Option Nat) (bits : Nat) : Nat :=
  match h.kind ew with
  | .flt k =>
    match scale with
    | some x => roundFmt k (mxValue f x bits) (mfcRound h) (mfcSat h)
    | none => cvtElem f k bits (mfcRound h) (mfcSat h)
  | .int =>
    if isFloat f then ofInt ew.bits (satInt ((decodeExact f bits).toInt (mfcRound h)) ew.bits true)
    else narrowInt ew.bits (mfcSat h) (decodeInt f bits)
  | .none => 0

/-- A register element as memory takes it (R272). -/
def cvStore (h : Hart) (ew : EW) (f : Fmt) (bits : Nat) : Nat :=
  match h.kind ew with
  | .flt k => cvtElem k f bits (mfcRound h) (mfcSat h)
  | .int =>
    let x := toSigned ew.bits bits
    if isFloat f then roundFmt f (Exact.ofInt x) (mfcRound h) (mfcSat h)
    else ofInt f.bits (if mfcSat h then satInt x f.bits (intSigned f) else x)
  | .none => 0

/-! ## Vector loads (R274, R276) -/

/-- Granules read and checked once in an act: in the memory space key 2·granule, in a local space an odd key. -/
abbrev Cache := List (Nat × Granule)

def cachedM (c : Cache) (key : Nat) (read : M Granule) : M (Granule × Cache) := fun s =>
  match c.find? fun x => x.1 == key with
  | some x => (.ok (x.2, c), s)
  | none =>
    match read s with
    | (.ok g, s') => (.ok (g, (key, g) :: c), s')
    | (.error e, s') => (.error e, s')

/-- A granule of the memory space at a virtual address. -/
def memGranule (p : Probe) (va : Word) (c : Cache) : M (Granule × Cache) := fun s =>
  match p.at va with
  | some x =>
    cachedM c (2 * (x.1 / 64)) (do
      ovfTest va (x.1 / 64)
      readGranule va (x.1 / 64) x.2) s
  | none => (.error .hold, s)

/-- The granule that holds element `i`. -/
def VMemOp.granule (o : VMemOp) (h : Hart) (p : Probe) (i : Nat) (c : Cache) : M (Granule × Cache) :=
  let va := o.va h i
  match o.space with
  | .mem => memGranule p va c
  | .sp => cachedM c (2 * (va.toNat / 64) + 1) (readSp va.toNat)
  | .ls =>
    let key := 64 * (i * o.ew.bits / 64) + va.toNat / 64
    cachedM c (2 * key + 1) (readLs key va.toNat)

/-- Loads element `i`. -/
def VMemOp.loadElem (o : VMemOp) (h : Hart) (p : Probe) (i : Nat) (c : Cache) : M Cache := do
  let x ← o.granule h p i c
  let b := o.field h i (o.va h i).toNat
  let bits := (x.1.data.extractLsb' b.1 b.2).toNat
  let y ← if o.blocks h then memGranule p (scaleVa h (i / 32)) x.2 else fun s => (.ok x, s)
  let scale := if o.blocks h then some (granuleBytes y.1.data ((scaleVa h (i / 32)).toNat % 64) 1) else none
  let v := match o.fmt h with | some f => cvLoad h o.ew f scale bits | none => bits
  modHart fun g => g.setV o.reg (putN (g.vreg o.reg) o.ew.bits i v)
  fun s => (.ok y.2, s)

/-- A vector load after its issue tests. -/
def VMemOp.load (o : VMemOp) : M Unit := do
  let s ← getS
  let h := s.hart
  o.local h
  let p ← probeM false .read ((o.elems h).flatMap (o.touch h))
  let _ ← unitsM s.units p.faults (o.loadElem h p) 0 (o.elems h) ([] : Cache)
  doneV

/-- A vector load (R269-R276). -/
def vld (o : VMemOp) (s : State) : Result :=
  if o.illegal s.hart then .next (takeTrap s (illegalTrap s))
  else if o.badOperand s.hart false then .next (takeTrap s (operandTrap s))
  else runM o.load s

/-- VLD_UNIT. -/
def execVldUnit (d : VIdx) (a : XIdx) (pg : PIdx) (ew : EW) (cv : Bool) (space : Space) (s : State) : Result :=
  vld ⟨d, a, .unit, pg, ew, cv, space⟩ s
/-- VLD_STRIDED. -/
def execVldStrided (d : VIdx) (a b : XIdx) (pg : PIdx) (ew : EW) (cv : Bool) (space : Space) (s : State) : Result :=
  vld ⟨d, a, .strided b, pg, ew, cv, space⟩ s
/-- VLD_INDEXED. -/
def execVldIndexed (d : VIdx) (a : XIdx) (b : VIdx) (pg : PIdx) (ew : EW) (cv : Bool) (space : Space) (s : State) : Result :=
  vld ⟨d, a, .indexed b, pg, ew, cv, space⟩ s

/-- An element of `vldff` that would fault in the probe: misaligned, or a page that does not translate (R277). -/
def VMemOp.bad (o : VMemOp) (s : State) (i : Nat) : Bool :=
  (o.va s.hart i).toNat % elemBytes (o.wm s.hart) != 0 ||
    (o.touch s.hart i).any fun t => (faultOf t (xlateFor s false .read t.va)).isSome

/-- VL of `vldff`: shortened to the first later element that would fault (R277). -/
def VMemOp.shorten (o : VMemOp) (s : State) : State :=
  match o.elems s.hart with
  | [] => s
  | f :: later =>
    if o.bad s f then s
    else match later.find? (o.bad s) with
      | some e => { s with hart := { s.hart with vl := BitVec.ofNat 8 e } }
      | none => s

/-- VLDFF (R277): its ADDR field is 11, so the cases of Table 17.3 that name ADDR ≠ 00 hold for it (R270). -/
def execVldff (d : VIdx) (a : XIdx) (pg : PIdx) (ew : EW) (cv : Bool) (s : State) : Result :=
  let o : VMemOp := ⟨d, a, .first, pg, ew, cv, .mem⟩
  if o.illegal s.hart then .next (takeTrap s (illegalTrap s))
  else if o.badOperand s.hart false then .next (takeTrap s (operandTrap s))
  else runM (do
    modS o.shorten
    o.load) s

/-! ## Vector stores (R275) -/

/-- Bits that a unit writes into a granule of a space. -/
structure Piece where
  unit : Nat
  space : Space
  /-- Granule: physical; offset / 64 in the scratchpad; 64·lane + granule in the lane store. -/
  key : Nat
  bit : Nat
  width : Nat
  val : Nat
  va : Word
  self : Bool
  deriving DecidableEq, Repr

def Piece.meets (p q : Piece) : Bool := p.space == q.space && p.key == q.key

/-- Mask and data of the pieces of one granule; the later piece wins (R275). -/
def merged (ps : List Piece) : GData × GData :=
  ps.foldl (fun md p =>
    let m : GData := (BitVec.allOnes 512 >>> (512 - p.width)) <<< p.bit
    (md.1 ||| m, (md.2 &&& ~~~m) ||| (BitVec.ofNat 512 p.val <<< p.bit &&& m))) (0, 0)

/-- Replaces the bits of a mask. -/
def mergeBits (old new mask : GData) : GData := (old &&& ~~~mask) ||| (new &&& mask)

/-- `form_granule` with a mask of bits (R165). -/
def formGranuleBits (va : Word) (gran : Nat) (self : Bool) (new mask : GData) : M Unit := fun s =>
  if mask = BitVec.allOnes 512 then formM gran self new s
  else match tget (coreAt s (curCore s)).o1 gran with
    | some e => formM gran self (mergeBits e.g.data new mask) s
    | none =>
      match readGranule va gran self s with
      | (.ok g, s') => formM gran self (mergeBits g.data new mask) s'
      | (.error e, s') => (.error e, s')

/-- Puts a granule into half of a scratchpad line and sets the full bit (R278). -/
def putSp (s : State) (core off : Nat) (x : Granule × Word) : State :=
  let c := coreAt s core
  let l := spLine c off
  let l := if off / 64 % 2 = 0 then { l with lo := some x, full := true } else { l with hi := some x, full := true }
  setCore s core { c with sp := tput c.sp (spKey c off) l }

/-- A granule that a core's store forms in a local space (R278); in the lane store too it has LEVEL 1 and RC = RCNT (R281; DESIGN
CHOICE, log 22). -/
def localGranule (s : State) (core : Nat) (data : GData) : Granule := mkGranule data core 1 (countsAt s core).rcnt

/-- Stores the bits of one granule, `all` being everything the store writes. -/
def putPieces (all : List Piece) (p : Piece) : M Unit := fun s =>
  let core := curCore s
  let mw := merged (all.filter p.meets)
  let whole := mw.1 == BitVec.allOnes 512
  match p.space with
  | .mem => formGranuleBits p.va p.key p.self mw.2 mw.1 s
  | .sp =>
    let off := 64 * p.key
    let other := if p.key % 2 = 0 then p.key + 1 else p.key - 1
    let pair := (merged (all.filter fun q => q.space == .sp && q.key == other)).1 == BitVec.allOnes 512
    if !(spLine (coreAt s core) off).full && !(whole && pair) then (.error .hold, s)
    else if whole then (.ok (), putSp s core off (localGranule s core mw.2, 0))
    else match readSp off s with
      | (.ok g, s) => (.ok (), putSp s core off (localGranule s core (mergeBits g.data mw.2 mw.1), 0))
      | (.error e, s) => (.error e, s)
  | .ls =>
    let put := fun (s : State) (d : GData) =>
      let c := coreAt s core
      setCore s core { c with ls := tput c.ls p.key (localGranule s core d, 0) }
    if whole then (.ok (), put s mw.2)
    else match readLs p.key (p.key % 64 * 64) s with
      | (.ok g, s) => (.ok (), put s (mergeBits g.data mw.2 mw.1))
      | (.error e, s) => (.error e, s)

/-- The first piece of each granule. -/
def firstPieces : List Piece → List Piece → List Piece
  | [], seen => seen.reverse
  | p :: ps, seen => if seen.any p.meets then firstPieces ps seen else firstPieces ps (p :: seen)

/-- Granule by granule in order of first touch; answers the piece that stopped the store. -/
def storeGroups (all : List Piece) : List Piece → State → Option (Piece × Stop) × State
  | [], s => (none, s)
  | p :: ps, s =>
    match putPieces all p s with
    | (.ok _, s') => storeGroups all ps s'
    | (.error e, s') => (some (p, e), s')

/-- Stores the pieces. Where a granule stops the store, exactly the units below its first piece are stored (R275, R276). -/
def storePieces : Nat → List Piece → State → Option (Piece × Stop) × State
  | 0, _, s => (none, s)
  | n + 1, ps, s =>
    match storeGroups ps (firstPieces ps []) s with
    | (none, s') => (none, s')
    | (some (p, e), _) =>
      match storePieces n (ps.filter fun q => q.unit < p.unit) s with
      | (some x, s') => (some x, s')
      | (none, s') =>
        match putPieces ps p s' with
        | (.error _, s'') => (some (p, e), s'')
        | (.ok _, _) => (some (p, e), s')

/-- Units below a cut are stored; then the store stops at the cut or completes. A unit is `size` elements, whose first names
it. (DEDUCED, log 22.) -/
def storeM (size : Nat) (units : List Nat) (limit : Option Nat) (fs : List PageFault) (ps : List Piece) : M Unit := fun s =>
  let byLimit := match limit with | some k => units[k]? | none => none
  let byFault := units.find? fun u => fs.any fun f => f.fel / size * size ≤ u
  let cut := match byLimit, byFault with
    | some a, some b => some (min a b)
    | some a, none => some a
    | none, some b => some b
    | none, none => none
  let mine := match cut with | some u => ps.filter fun p => p.unit < u | none => ps
  match storePieces (mine.length + 1) mine s with
  | (some (p, .trap t), s') => trapAt p.unit t s'
  | (some (p, .hold), s') => waitAt p.unit s'
  | (none, s') =>
    match cut with
    | none => (.ok (), s')
    | some u => if byFault = some u then faultAt u fs s' else breakAt u s'

/-- Where element `i` of a store lies: key, byte, and whether the page is a SELF page. -/
def VMemOp.place (o : VMemOp) (h : Hart) (p : Probe) (i : Nat) : Nat × Nat × Bool :=
  let va := o.va h i
  match o.space with
  | .mem => match p.at va with | some x => (x.1 / 64, x.1, x.2) | none => (0, 0, false)
  | .sp => (va.toNat / 64, va.toNat, false)
  | .ls => (64 * (i * o.ew.bits / 64) + va.toNat / 64, va.toNat, false)

/-- The piece of an element under the unit that stores it. -/
def VMemOp.piece (o : VMemOp) (h : Hart) (p : Probe) (unit i v : Nat) : Piece :=
  let x := o.place h p i
  let b := o.field h i x.2.1
  ⟨unit, o.space, x.1, b.1, b.2, v, o.va h i, x.2.2⟩

/-- The blocks of a block-scaled store (R273). -/
def storeBlocks (h : Hart) : List Nat :=
  (List.range ((h.vl.toNat + 31) / 32 - h.vstart.toNat / 32)).map (· + h.vstart.toNat / 32)

/-- The pieces of block `b`: its present elements quantised, then its scale byte (R191, R273). -/
def VMemOp.blockPieces (o : VMemOp) (h : Hart) (p : Probe) (f : Fmt) (b : Nat) : List Piece :=
  let mine := (o.elems h).filter fun i => i / 32 == b
  let value := fun i => match h.kind o.ew with
    | .flt k => decodeExact k (elemN (h.vreg o.reg) o.ew.bits i)
    | .int => .nan
    | .none => .nan
  let scale := mxScale f (mine.map value)
  let va := scaleVa h b
  let x := (p.at va).getD (0, false)
  mine.map (fun i => o.piece h p (32 * b) i (mxElem f scale (value i))) ++
    [⟨32 * b, .mem, x.1 / 64, 8 * (x.1 % 64), 8, scale, va, x.2⟩]

/-- The pieces of a store, in the order in which they are stored. -/
def VMemOp.pieces (o : VMemOp) (h : Hart) (p : Probe) : List Piece :=
  match o.fmt h with
  | some f =>
    if o.blocks h then (storeBlocks h).flatMap (o.blockPieces h p f)
    else (o.elems h).map fun i => o.piece h p i i (cvStore h o.ew f (elemN (h.vreg o.reg) o.ew.bits i))
  | none => (o.elems h).map fun i => o.piece h p i i (elemN (h.vreg o.reg) o.ew.bits i)

/-- The touches of a store: those of its elements, and the scale bytes of blocks without an active element. -/
def VMemOp.storeTouches (o : VMemOp) (h : Hart) : List Touch :=
  if o.blocks h then (storeBlocks h).flatMap fun b =>
    let mine := (o.elems h).filter fun i => i / 32 == b
    if mine.isEmpty then [⟨32 * b, scaleVa h b⟩] else mine.flatMap (o.touch h)
  else (o.elems h).flatMap (o.touch h)

/-- A vector store after its issue tests. -/
def VMemOp.store (o : VMemOp) : M Unit := do
  let s ← getS
  let h := s.hart
  o.local h
  let ts := o.storeTouches h
  let p ← probeM false .write ts
  -- an element and a scale byte meet a range by their bytes
  if o.space = .mem then noRanges p (elemBytes (o.wm h)) ((o.elems h).map (o.va h)) else fun s => (.ok (), s)
  if o.blocks h then noRanges p 1 ((storeBlocks h).map (scaleVa h)) else fun s => (.ok (), s)
  storeM (if o.blocks h then 32 else 1) (if o.blocks h then (storeBlocks h).map (32 * ·) else o.elems h) s.units p.faults (o.pieces h p)
  doneV

/-- A vector store (R269-R276). -/
def vst (o : VMemOp) (s : State) : Result :=
  if o.illegal s.hart then .next (takeTrap s (illegalTrap s))
  else if o.badOperand s.hart true then .next (takeTrap s (operandTrap s))
  else runM o.store s

/-- VST_UNIT. -/
def execVstUnit (d : VIdx) (a : XIdx) (pg : PIdx) (ew : EW) (cv : Bool) (space : Space) (s : State) : Result :=
  vst ⟨d, a, .unit, pg, ew, cv, space⟩ s
/-- VST_STRIDED. -/
def execVstStrided (d : VIdx) (a b : XIdx) (pg : PIdx) (ew : EW) (cv : Bool) (space : Space) (s : State) : Result :=
  vst ⟨d, a, .strided b, pg, ew, cv, space⟩ s
/-- VST_INDEXED. -/
def execVstIndexed (d : VIdx) (a : XIdx) (b : VIdx) (pg : PIdx) (ew : EW) (cv : Bool) (space : Space) (s : State) : Result :=
  vst ⟨d, a, .indexed b, pg, ew, cv, space⟩ s

/-! ## The lane store by index (R282) -/

/-- The offset of element `i` in its lane. -/
def laneVa (h : Hart) (a : XIdx) (b : VIdx) (w i : Nat) : Word := h.xreg a + BitVec.ofNat 64 (elemN (h.vreg b) w i)

/-- Every active element's offset is tested before any acts. -/
def laneTests (h : Hart) (ew : EW) (vas : List Word) : M Unit := fun s =>
  if h.vl.toNat * ew.bits > 1024 then (.error (.trap (TrapInfo.plain 0x02 (h.vl.setWidth 64))), s)
  else match alignAll ew.bytes vas s with
    | (.error e, s) => (.error e, s)
    | (.ok _, s) => boundAll (fun off => off + ew.bytes > 4096) vas s

/-- One element of `vldl`; an inactive one is kept or zeroed. -/
def vldlElem (h : Hart) (d : VIdx) (a : XIdx) (b : VIdx) (pg : PIdx) (ew : EW) (z : Bool) (i : Nat) (c : Cache) : M Cache :=
  if h.active pg ew.bits i then do
    let va := laneVa h a b ew.bits i
    let key := 64 * (i * ew.bits / 64) + va.toNat / 64
    let x ← cachedM c (2 * key + 1) (readLs key va.toNat)
    modHart fun g => g.setV d (putN (g.vreg d) ew.bits i (granuleBytes x.1.data (va.toNat % 64) ew.bytes))
    fun s => (.ok x.2, s)
  else do
    if z then modHart fun g => g.setV d (putN (g.vreg d) ew.bits i 0) else fun s => (.ok (), s)
    fun s => (.ok c, s)

/-- Elements VSTART to VL − 1. -/
def Hart.remaining (h : Hart) : List Nat := (List.range (h.vl.toNat - h.vstart.toNat)).map (· + h.vstart.toNat)

/-- VLDL (R282). -/
def execVldl (d : VIdx) (a : XIdx) (b : VIdx) (pg : PIdx) (ew : EW) (z : Bool) (s : State) : Result :=
  let h := s.hart
  let els := h.actives pg ew.bits h.vstart.toNat h.vl.toNat
  runM (do
    laneTests h ew (els.map (laneVa h a b ew.bits))
    let _ ← unitsM s.units [] (vldlElem h d a b pg ew z) 0 h.remaining ([] : Cache)
    doneV) s

/-- VSTL (R282). -/
def execVstl (d : VIdx) (a : XIdx) (b : VIdx) (pg : PIdx) (ew : EW) (s : State) : Result :=
  let h := s.hart
  let els := h.actives pg ew.bits h.vstart.toNat h.vl.toNat
  let va := laneVa h a b ew.bits
  runM (do
    laneTests h ew (els.map va)
    storeM 1 els s.units [] (els.map fun i => ⟨i, .ls, 64 * (i * ew.bits / 64) + (va i).toNat / 64, 8 * ((va i).toNat % 64),
      ew.bits, elemN (h.vreg d) ew.bits i, va i, false⟩)
    doneV) s

/-! ## Full bits (R279) -/

/-- Acts on the line of a scratchpad offset; an offset past the space raises 0x05. -/
def lineM (a : XIdx) (f : SpLine → State → State) (s : State) : Result :=
  let core := curCore s
  let off := xreg s a
  let c := coreAt s core
  if off.toNat ≥ spSize c then .next (takeTrap s (TrapInfo.plain 0x05 off))
  else .next (advance (f (spLine c off.toNat) s))

/-- Writes the full bit of the line at an offset. -/
def setFull (off : Nat) (b : Bool) (l : SpLine) (s : State) : State :=
  let core := curCore s
  let c := coreAt s core
  setCore s core { c with sp := tput c.sp (spKey c off) { l with full := b } }

/-- SFULL (R279). -/
def execSfull (a : XIdx) (s : State) : Result := lineM a (setFull (xreg s a).toNat true) s
/-- SEMPTY (R279). -/
def execSempty (a : XIdx) (s : State) : Result := lineM a (setFull (xreg s a).toNat false) s
/-- SPROBE (R279). -/
def execSprobe (d a : XIdx) (s : State) : Result := lineM a (fun l s => setX s d (if l.full then 1 else 0)) s

/-! ## Vector atomics (R285) -/

/-- The address of element `i` of an indexed instruction of OP 0x2F. -/
def indexVa (h : Hart) (a : XIdx) (b : VIdx) (w i : Nat) : Word := h.xreg a + BitVec.ofNat 64 (elemN (h.vreg b) w i)

/-- The width of OP 0x2F's `ew`. -/
def dblBits (dbl : Bool) : Nat := if dbl then 64 else 32

/-- One element of a vector atomic. -/
def vamoElem (op : AmoOp) (h : Hart) (p : Probe) (d : VIdx) (a : XIdx) (b : VIdx) (pg : PIdx) (w : Nat) (z : Bool) (i : Nat)
    (_ : Unit) : M Unit := fun s =>
  if h.active pg w i then
    let va := indexVa h a b w i
    match p.at va with
    | some x =>
      match junctionAtomic op va x.1 (w / 8) (elemN (h.vreg d) w i) s with
      | (.ok old, s) => (.ok (), setV s d (putN (s.hart.vreg d) w i old))
      | (.error e, s) => (.error e, s)
    | none => (.error .hold, s)
  else (.ok (), if z then setV s d (putN (s.hart.vreg d) w i 0) else s)

/-- A vector atomic (R285). -/
def vamo (op : AmoOp) (d : VIdx) (a : XIdx) (b : VIdx) (pg : PIdx) (dbl z : Bool) (s : State) : Result :=
  let h := s.hart
  let w := dblBits dbl
  let els := h.actives pg w h.vstart.toNat h.vl.toNat
  let vas := els.map (indexVa h a b w)
  if h.vl.toNat * w > 1024 then .next (takeTrap s (operandTrap s))
  else runM (do
    alignAll (w / 8) vas
    let p ← probeM true .rw (els.map fun i => ⟨i, indexVa h a b w i⟩)
    noRanges p (w / 8) vas
    setNrM
    unitsM s.units p.faults (vamoElem op h p d a b pg w z) 0 h.remaining ()
    doneV) s

/-- VAMOADD. -/
def execVamoadd (d : VIdx) (a : XIdx) (b : VIdx) (pg : PIdx) (dbl z : Bool) (s : State) : Result :=
  vamo amoOpAdd d a b pg dbl z s
/-- VAMOMIN. -/
def execVamomin (d : VIdx) (a : XIdx) (b : VIdx) (pg : PIdx) (dbl z : Bool) (s : State) : Result :=
  vamo amoOpMin d a b pg dbl z s
/-- VAMOMAX. -/
def execVamomax (d : VIdx) (a : XIdx) (b : VIdx) (pg : PIdx) (dbl z : Bool) (s : State) : Result :=
  vamo amoOpMax d a b pg dbl z s
/-- VAMOMINU. -/
def execVamominu (d : VIdx) (a : XIdx) (b : VIdx) (pg : PIdx) (dbl z : Bool) (s : State) : Result :=
  vamo amoOpMinu d a b pg dbl z s
/-- VAMOMAXU. -/
def execVamomaxu (d : VIdx) (a : XIdx) (b : VIdx) (pg : PIdx) (dbl z : Bool) (s : State) : Result :=
  vamo amoOpMaxu d a b pg dbl z s
/-- VAMOAND. -/
def execVamoand (d : VIdx) (a : XIdx) (b : VIdx) (pg : PIdx) (dbl z : Bool) (s : State) : Result :=
  vamo amoOpAnd d a b pg dbl z s
/-- VAMOOR. -/
def execVamoor (d : VIdx) (a : XIdx) (b : VIdx) (pg : PIdx) (dbl z : Bool) (s : State) : Result :=
  vamo amoOpOr d a b pg dbl z s
/-- VAMOXOR. -/
def execVamoxor (d : VIdx) (a : XIdx) (b : VIdx) (pg : PIdx) (dbl z : Bool) (s : State) : Result :=
  vamo amoOpXor d a b pg dbl z s
/-- VAMOSWAP. -/
def execVamoswap (d : VIdx) (a : XIdx) (b : VIdx) (pg : PIdx) (dbl z : Bool) (s : State) : Result :=
  vamo amoOpSwap d a b pg dbl z s

/-! ## Commutative contributions (R145, R286) -/

/-- The range test of a contribution: outside every range, an EW that does not match, or an address that is no multiple of
the element's size (R145, R286). (DEDUCED, log 22.) -/
def redstTest (s : State) (ew : EW) (va : Word) (pa : Nat) : Option TrapInfo :=
  match rangeOf s pa with
  | none => some (rangeTrap va 15 0)
  | some r =>
    let f := crngFmt (crngcOf s r)
    let want := if f = 0 || f = 2 then 32 else if f = 1 then 64 else 0
    if ew.bits ≠ want then some (rangeTrap va r 3)
    else if pa % crngElem (crngcOf s r) ≠ 0 then some (TrapInfo.plain 0x03 va)
    else none

/-- The contribution of an element: an integer, or an FP32 value in units of 2^E; `none` for a NaN, an infinity or an
overflow (R145). -/
def contribution (c : Word) (w x : Nat) : Option Int :=
  if crngFmt c = 2 then
    let e := decodeExact .f32 x
    if e.isFinite then
      let n := (e.scale (-(crngExp c))).toInt .rne
      if -(2 : Int) ^ 63 ≤ n && n < 2 ^ 63 then some n else none
    else none
  else some (toSigned w x)

/-- One contribution, entered as a partial (R146), with its granule in the silhouette (R129); it waits while no way is found to
make room in O2 (R95, R392). -/
def redstElem (h : Hart) (p : Probe) (d : VIdx) (a : XIdx) (b : VIdx) (ew : EW) (i : Nat) (_ : Unit) : M Unit := fun s =>
  let va := indexVa h a b ew.bits i
  match p.at va with
  | some x =>
    let r := (rangeOf s x.1).getD 15
    match contribution (crngcOf s r) ew.bits (elemN (h.vreg d) ew.bits i) with
    | some n =>
      let core := curCore s
      let s := readyPartial s core x.1 r
      if !partialTakes s core x.1 r then holdM (reportHome s (clusterOfCore core) (x.1 / 64))
      else
        let s := passPartial (enterPartial s core x.1 r n) core x.1
        (.ok (), { s with hart := { s.hart with sil := silAdd s.hart.sil (x.1 / 64) } })
    | none => (.error (.trap (rangeTrap va r 4)), s)
  | none => (.error .hold, s)

/-- REDST (R145, R286). -/
def execRedst (d : VIdx) (a : XIdx) (b : VIdx) (pg : PIdx) (ew : EW) (s : State) : Result :=
  let h := s.hart
  let els := h.actives pg ew.bits h.vstart.toNat h.vl.toNat
  let vas := els.map (indexVa h a b ew.bits)
  if h.vl.toNat * ew.bits > 1024 then .next (takeTrap s (operandTrap s))
  else runM (do
    alignAll ew.bytes vas
    let p ← probeM true .rw (els.map fun i => ⟨i, indexVa h a b ew.bits i⟩)
    (fun s => match vas.findSome? fun va => (p.at va).bind fun x => redstTest s ew va x.1 with
      | some t => (.error (.trap t), s)
      | none => (.ok (), s) : M Unit)
    unitsM s.units p.faults (redstElem h p d a b ew) 0 els ()
    doneV) s

/-! ## Gather (R329-R331) -/

/-- Where the gather engine of a cluster finds a granule: its own I2, the I2 at the router of the line's I3 slice, that
slice, the home junction. The cluster whose copy it is, when another's (R330). -/
def peekGather (s : State) (n gran : Nat) : Found × Option Nat :=
  match tget (clusterAt s n).i2 gran with
  | some c => (⟨c, 1, c.tag⟩, none)
  | none =>
    let peer := i3SliceOf gran
    match (if peer = n then none else tget (clusterAt s peer).i2 gran) with
    | some c => (⟨c, 1, tagI2 c.tag peer⟩, some peer)
    | none => let f := peekI3 s gran; ({ f with tag := tagI2 f.tag n }, none)

/-- A line that gather brings in fills its own I2 only; one in which the peer slice holds a placeholder, or a copy in place of
one, is not kept, since only the cluster that formed it removes it (R154). (DESIGN CHOICE, log 17.) -/
def fillGather (s : State) (n gran : Nat) : State :=
  let line := (lineOf gran).map fun j =>
    let f := (peekGather s n j).1
    (j, { inward f with tag := tagI2 f.tag n, seq := 0 })
  if (tget (clusterAt s n).i2 gran).isSome || line.any fun x => !x.2.ordinary then s
  else nextTick (setI2 s n (fillTbl s.tick i2Lines (clusterAt s n).i2 line))

/-- A granule for the gather engine, checked on behalf of the core (R167). -/
def readGather (va : Word) (gran : Nat) : M Granule := fun s =>
  let n := curCluster s
  let f := peekGather s n gran
  match wayM n gran (if f.2.isSome then 2 else f.1.src) false
      (fun s => consumeM (.cluster n) none (some n) va gran f.1 (fillGather s n gran)) s with
  | (.ok g, s) => (.ok g, s)
  | (.error e, s) =>
    (.error e, match f.2, e with
      | some p, .trap t =>
        if t.cause = 0x08 then
          setI2 s p ((clusterAt s p).i2.filter fun kc => !(sameLine gran kc.1 && !kc.2.ph))
        else s
      | _, _ => s)

/-- A computation of an instruction that is not divided where it waits: the hart stands before it, as it was (R331). -/
def undivided {α : Type} (m : M α) : M α := fun s =>
  match m s with
  | (.error .hold, s') => (.error .hold, { s' with hart := s.hart })
  | r => r

/-- One element of a gather. -/
def gatherElem (h : Hart) (p : Probe) (d : VIdx) (a : XIdx) (b : VIdx) (w : Nat) (i : Nat) (c : Cache) : M Cache := fun s =>
  let va := indexVa h a b w i
  match p.at va with
  | some x =>
    match cachedM c (2 * (x.1 / 64)) (do
        ovfTest va (x.1 / 64)
        readGather va (x.1 / 64)) s with
    | (.ok y, s) => (.ok y.2, setV s d (putN (s.hart.vreg d) w i (granuleBytes y.1.data (x.1 % 64) (w / 8))))
    | (.error e, s) => (.error e, s)
  | none => (.error .hold, s)

/-- p15 after a gather: the active elements whose address an earlier active element has (R331). -/
def gatherMarks (h : Hart) (a : XIdx) (b : VIdx) (pg : PIdx) (w : Nat) : PReg :=
  let vl := h.vl.toNat
  forUp vl 0 (fun i q =>
    let again := h.active pg w i && (List.range i).any fun j => h.active pg w j && indexVa h a b w j == indexVa h a b w i
    if again then putBit q i w true else q) 0

/-- GATHER (R329-R331). -/
def execGather (d : VIdx) (a : XIdx) (b : VIdx) (pg : PIdx) (dbl z : Bool) (s : State) : Result :=
  let h := s.hart
  let w := dblBits dbl
  let els := h.actives pg w h.vstart.toNat h.vl.toNat
  if h.vl.toNat * w > 1024 then .next (takeTrap s (operandTrap s))
  else runM (do
    alignAll (w / 8) (els.map (indexVa h a b w))
    let p ← probeM true .read (els.map fun i => ⟨i, indexVa h a b w i⟩)
    let _ ← undivided (unitsM none p.faults (gatherElem h p d a b w) 0 els ([] : Cache))
    modHart fun g =>
      let v := forUp h.vl.toNat 0 (fun i v => if h.active pg w i then v else putN v w i 0) (g.vreg d)
      (if z && h.vl != 0 then g.setV d v else g).setP 15 (gatherMarks h a b pg w)
    doneV) s

end Sys2Proof.Machine
end

