-- ==== Sys2Proof/Machine/Matrix.lean ====
section
/-! DEFINITION. The matrix unit: tiles and grants (R295-R299), operand fetch (R302-R305), products (R306-R308, R193-R198),
moves (R309, R310), and conversion (R312). -/

namespace Sys2Proof.Machine

/-! ## Tiles and grants -/

/-- Tiles that no hart of a cluster holds (R296). -/
def freeTiles (s : State) (n : Nat) : Nat :=
  16 - ((List.range 8).foldl (fun t i => t + (hartAt s (8 * n + i)).tiles.length) 0)

/-- A hart receives `g` tiles of zeros, and `mattach` completes (R295, R296). -/
def Hart.grant (h : Hart) (d : XIdx) (g : Nat) : Hart :=
  ({ h with tiles := List.replicate g Tile.zero }.setX d (BitVec.ofNat 64 g)).advance

/-- MATTACH (R296); a unit out of service grants nothing and does not wait (R391). -/
def execMattach (d a : XIdx) (wt : Bool) (s : State) : Result :=
  let n := (xreg s a).toNat
  let c := curCluster s
  let k := clusterAt s c
  if n < 1 || n > 8 || !s.hart.tiles.isEmpty then .next (takeTrap s (operandTrap s))
  else if !inService s 1 c then
    let s' := withdrawRequest s s.cur
    .next { s' with hart := s'.hart.grant d 0 }
  else if !wt then
    let f := if k.mwait.isEmpty then freeTiles s c else 0
    .next { s with hart := s.hart.grant d (min n f) }
  else
    let first := match k.mwait with | [] => true | w :: _ => w.1 == s.cur
    if first && freeTiles s c != 0 then
      let s' := setCluster s c { k with mwait := k.mwait.filter fun w => w.1 != s.cur }
      .next { s' with hart := s'.hart.grant d (min n (freeTiles s c)) }
    else if k.mwait.any fun w => w.1 == s.cur then waitHere s
    else waitHere (setCluster s c { k with mwait := k.mwait ++ [(s.cur, n, d)] })

/-- TILE_GRANT_WAITER: tiles that became free go to the waiting requests in order of arrival (R296); a unit out of service
answers them with 0 (R391). -/
def execTileGrantWaiter (n : Nat) (s : State) : Result :=
  let k := clusterAt s n
  let f := freeTiles s n
  match k.mwait with
  | (slot, want, d) :: rest =>
    if !inService s 1 n then .next (setHart (setCluster s n { k with mwait := rest }) slot ((hartAt s slot).grant d 0))
    else if f = 0 then .next s
    else
      let s := setCluster s n { k with mwait := rest }
      .next (setHart s slot ((hartAt s slot).grant d (min want f)))
  | [] => .next s

/-- MDETACH (R298). -/
def execMdetach (s : State) : Result := .next (advance { s with hart := { s.hart with tiles := [] } })

/-- MMODE (R299). -/
def execMmode (a : XIdx) (s : State) : Result :=
  let v := (xreg s a).toNat
  if v = 16 || v = 32 then .next (advance { s with hart := { s.hart with mvl := BitVec.ofNat 6 v } })
  else .next (takeTrap s (operandTrap s))

/-- MEXIT (R299). -/
def execMexit (s : State) : Result := .next (advance { s with hart := { s.hart with mvl := 0 } })

/-! ## Traps at issue (R207, R300, R304) -/

/-- The issue tests of an instruction on tile `acc`. -/
def tileIssue (s : State) (acc : BitVec 3) (illegal operand : Bool) (act : Tile → Result) : Result :=
  if illegal then .next (takeTrap s (illegalTrap s))
  else if operand then .next (takeTrap s (operandTrap s))
  else match s.hart.tiles[acc.toNat]? with
    | some t => act t
    | none => .next (takeTrap s (TrapInfo.plain 0x0B (acc.setWidth 64)))

/-- Replaces a tile. -/
def setTile (s : State) (acc : BitVec 3) (t : Tile) : State :=
  { s with hart := { s.hart with tiles := s.hart.tiles.set acc.toNat t } }

/-- The array takes one product of the acting hart's core: one array slot (R86, R315). -/
def useArray (s : State) : State :=
  let c := coreAt s (curCore s)
  setCore s (curCore s) { c with products := c.products + 1 }

/-- MZERO (R311). -/
def execMzero (acc : BitVec 3) (s : State) : Result :=
  tileIssue s acc false (s.hart.vstart != 0) fun _ => .next (advance (setTile s acc Tile.zero))

/-! ## Sums (R193-R197, R182) -/

/-- The floating sum of the terms with the accumulator, rounded once to FP32 (R193, R194, R196). -/
def fltSum (c : Option Exact) (terms : List Exact) : Nat :=
  let x := match c, terms with
    | some c, ts => ts.foldl (Exact.add .rne) c
    | none, t :: ts => ts.foldl (Exact.add .rne) t
    | none, [] => .fin false 0 0
  roundFmt .f32 x .rne false

/-- One element: its container and guard residue, from the old ones (or none under Z) and the pairs of operand encodings at
the enabled positions (R195, R197). Where every depth position is masked, the element is unchanged, its guard residue with it, or
under Z both are 0. (DESIGN CHOICE, log 24.) -/
def matElem (f : Fmt) (old : Nat × Nat) (z : Bool) (pairs : List (Nat × Nat)) : Nat × Nat :=
  if pairs.isEmpty then (if z then (0, 0) else old)
  else if f = .rns3 then
    let vs := pairs.map fun ab => decodeInt .i8 ab.1 * decodeInt .i8 ab.2
    let a := rnsResidues (if z then 0 else old.1)
    let sum := vs.foldl (· + ·) 0
    let r := fun (c : Nat) (m : Int) => ((c : Int) + sum) % m
    ((r a.1 256).toNat + 256 * (r a.2.1 255).toNat + 65536 * (r a.2.2 253).toNat,
      (r (if z then 0 else old.2) 251).toNat)
  else if isFloat f then
    newElement (fltSum (if z then none else some (decodeExact .f32 old.1))
      (pairs.map fun ab => Exact.mul (decodeExact f ab.1) (decodeExact f ab.2)))
  else
    let sum := pairs.foldl (fun t ab => t + decodeInt f ab.1 * decodeInt f ab.2) (if z then 0 else toSigned 32 old.1)
    newElement (ofInt 32 sum)

/-- The width of an operand element: RNS3 operands are INT8 values (R182). -/
def operandBits (f : Fmt) : Nat := if f = .rns3 then 8 else f.bits

/-- Elements of a row of `n` bytes at the enabled byte positions. -/
def rowElems (w n : Nat) (pk : PReg) (row : Nat) : List Nat :=
  ((List.range (8 * n / w)).filter fun t => pk.getLsbD (t * w / 8)).map fun t => row / 2 ^ (w * t) % 2 ^ w

/-- The update of R308. `as` and `bs` hold the enabled elements of each row and column. -/
def product (f : Fmt) (t : Tile) (z : Bool) (prc : PReg) (mvl : BitVec 6) (as bs : List (List Nat)) : Tile :=
  Tile.build fun i j =>
    let on := rowOn prc i && colOn prc j && !(mvl == 16 && i / 16 != j / 16)
    let old := (t.get i j, t.getGuard i j)
    if on then matElem f old z ((as.getD i []).zip (bs.getD j [])) else old

/-- The formats of `mma` and `mmas` (R303). -/
def matFormat (f : Fmt) : Bool :=
  f == .bf16 || f == .f16 || f == .e4m3 || f == .e5m2 || f == .e2m1 || f == .i8 || f == .ui8 || f == .i4 || f == .rns3

/-- pK breaks the rule of a format over its first `n` bits (R303, R306). -/
def badPk (f : Fmt) (n : Nat) (pk : PReg) : Bool :=
  if f.bits = 32 && f != .rns3 then (List.range 4).any fun i => pk.getLsbD i != pk.getLsbD 0
  else if f.bits = 16 then (List.range (n / 2)).any fun e => pk.getLsbD (2 * e) != pk.getLsbD (2 * e + 1)
  else false

/-- MRANK (R306, R308). -/
def execMrank (acc : BitVec 3) (a b : VIdx) (prc pk : PIdx) (fmt : Fmt) (z : Bool) (s : State) : Result :=
  let h := s.hart
  let m := h.preg pk
  tileIssue s acc (h.mvl == 0 || !(matFormat fmt || fmt == .f32)) (h.vstart != 0 || badPk fmt 4 m) fun t =>
    let w := operandBits fmt
    let side := fun (v : VReg) => (List.range 32).map fun i => rowElems w 4 m (elemN v 32 i)
    .next (advance (setTile (useArray s) acc (product fmt t z (h.preg prc) h.mvl (side (h.vreg a)) (side (h.vreg b)))))

/-! ## Operand fetch (R302-R305) -/

/-- The row length and the physical row addresses of an operand's fetched rows: the key of its stash entry (R305). -/
structure StashKey where
  len : Nat
  rows : Tbl Nat
  deriving DecidableEq, Repr

/-- A stash entry holds an operand: the row lengths agree, and so do the addresses of the rows that both have, at least one.
(DESIGN CHOICE, log 24.) -/
def StashTile.holds (e : StashTile) (x : StashKey) : Bool :=
  e.len == x.len && x.rows.any (fun r => tget e.rows r.1 == some r.2) &&
    x.rows.all fun r => match tget e.rows r.1 with | some a => a == r.2 | none => true

/-- A fetched granule enters its operand's stash entry, which becomes the most recently used of the 16 (R305). -/
def stashPut (k : ClusterSt) (x : StashKey) (gran : Nat) (c : Copy) : ClusterSt :=
  let e := (k.stash.find? fun e => e.holds x).getD ⟨x.len, [], []⟩
  let e := { e with rows := x.rows.foldl (fun t r => tput t r.1 r.2) e.rows, grans := tput e.grans gran c }
  { k with stash := (e :: k.stash.filter fun e => !e.holds x).take 16 }

/-- The stash's copy of a granule of an operand. -/
def stashGet (k : ClusterSt) (x : StashKey) (gran : Nat) : Option Copy :=
  (k.stash.find? fun e => e.holds x).bind fun e => tget e.grans gran

/-- Where the tile fetch unit finds a granule: its operand's stash entry, then the cluster I2 outward (R305). The granules
of the stash keep their check words (R167, R305), against R164's list. (DESIGN CHOICE, log 24.) -/
def peekTile (s : State) (n gran : Nat) (key : Option StashKey) : Found × Bool :=
  match key.bind fun x => stashGet (clusterAt s n) x gran with
  | some c => (⟨c, 1, c.tag⟩, true)
  | none => (peekI2 s n gran, false)

/-- A granule of the memory space for the tile fetch unit; the stash keeps it while I2 does (R304, R305). -/
def readTile (key : Option StashKey) (va : Word) (gran : Nat) : M Granule := fun s =>
  let n := curCluster s
  match ovfTest va gran s with
  | (.error e, s) => (.error e, s)
  | (.ok _, s) =>
    let f := peekTile s n gran key
    match wayM n gran f.1.src false (fun s =>
        consumeM (.cluster n) none (some n) va gran f.1 (if f.2 then s else fillI2 s n gran)) s with
    | (.error e, s) => (.error e, s)
    | (.ok g, s) =>
      match key, (if f.2 then some f.1.c else tget (clusterAt s n).i2 gran) with
      | some x, some c => (.ok g, setCluster s n (stashPut (clusterAt s n) x gran c))
      | some _, none => (.ok g, s)
      | none, _ => (.ok g, s)

/-- A granule by virtual address on a page the probe translated. -/
def tileGranule (key : Option StashKey) (p : Probe) (va : Word) (c : Cache) : M (Granule × Cache) := fun s =>
  match p.at va with
  | some x => cachedM c (2 * (x.1 / 64)) (readTile key va (x.1 / 64)) s
  | none => (.error .hold, s)

/-- First base of the scratchpad window (R302). -/
def windowBase : Nat := 0xFFFFFFFC0000

/-- Base and stride of a descriptor. -/
def descBase (d : Word) : Word := (d.extractLsb' 0 48).setWidth 64
def inWindow (d : Word) : Bool := (descBase d).toNat ≥ windowBase
/-- Scratchpad offset of a row of a descriptor in the window. -/
def windowOffset (d : Word) (r : Nat) : Nat :=
  (descBase d).toNat - windowBase + 32 * (d.extractLsb' 48 16).toNat * r

/-- The granule addresses of `len` bytes from an address: the address itself, then each next granule. -/
def granulesOf (va : Word) (len : Nat) : List Word :=
  let off := va.toNat % 64
  (List.range ((off + len + 63) / 64)).map fun i => if i = 0 then va else va + BitVec.ofNat 64 (64 * i - off)

/-- The bytes of a row from its granules, which `get` reads in ascending order. -/
def rowBytes (get : Word → Cache → M (Granule × Cache)) : List Word → Nat → Nat → Nat → Cache → M (Nat × Cache)
  | [], _, acc, _, c => fun s => (.ok (acc, c), s)
  | va :: vas, left, acc, sh, c => fun s =>
    match get va c s with
    | (.error e, s) => (.error e, s)
    | (.ok (g, c), s) =>
      let here := min left (64 - va.toNat % 64)
      rowBytes get vas (left - here) (acc + granuleBytes g.data (va.toNat % 64) here * 2 ^ (8 * sh)) (sh + here) c s

/-- The stash key of an operand (R305). -/
def operandKey (p : Probe) (d : Word) (len : Nat) (on : Nat → Bool) : StashKey :=
  ⟨len, ((List.range 32).filter on).filterMap fun r => (p.at (rowAddr d r)).map fun x => (r, x.1)⟩

/-- The rows of one operand: each fetched row's bytes, 0 for a row that is not fetched (R303). -/
def operandRows (p : Probe) (d : Word) (len : Nat) (on : Nat → Bool) : List Nat → List Nat → Cache → M (List Nat × Cache)
  | [], acc, c => fun s => (.ok (acc.reverse, c), s)
  | r :: rs, acc, c => fun s =>
    if on r && len != 0 then
      let read : M (Nat × Cache) :=
        if inWindow d then
          rowBytes (fun va c => cachedM c (2 * (va.toNat / 64) + 1) (readSp va.toNat))
            (granulesOf (BitVec.ofNat 64 (windowOffset d r)) len) len 0 0 c
        else rowBytes (tileGranule (some (operandKey p d len on)) p) (granulesOf (rowAddr d r) len) len 0 0 c
      match read s with
      | (.error e, s) => (.error e, s)
      | (.ok (x, c), s) => operandRows p d len on rs (x :: acc) c s
    else operandRows p d len on rs (0 :: acc) c s

/-- The touches of an operand's fetched rows; `tag` numbers the rows of B after those of A. -/
def operandTouches (d : Word) (len tag : Nat) (on : Nat → Bool) : List Touch :=
  if inWindow d || len = 0 then []
  else ((List.range 32).filter on).flatMap fun r => (granulesOf (rowAddr d r) len).map fun va => ⟨tag + r, va⟩

/-- A fetched row of the scratchpad window that does not lie in the space raises 0x05 (R302). -/
def windowTest (d : Word) (len : Nat) (on : Nat → Bool) : M Unit := fun s =>
  if inWindow d && len != 0 then
    boundAll (fun off => off + len > spSize (coreAt s (curCore s)))
      (((List.range 32).filter on).map fun r => BitVec.ofNat 64 (windowOffset d r)) s
  else (.ok (), s)

/-- A row of compressed A spread to its byte positions (R307). -/
def expandRow (pk : PReg) (row : Nat) : Nat :=
  ((List.range 96).foldl (fun (x : Nat × Nat) t =>
    if pk.getLsbD t then (x.1 + row / 256 ^ x.2 % 256 * 256 ^ t, x.2 + 1) else x) (0, 0)).1

/-- A product from memory; `packed` for `mmas` (R302-R308). (DEDUCED, log 24.) -/
def matProduct (packed : Bool) (acc : BitVec 3) (a b : XIdx) (prc pk : PIdx) (fmt : Fmt) (z : Bool) (s : State) : Result :=
  let h := s.hart
  let m := h.preg pk
  let q := h.preg prc
  let da := h.xreg a
  let db := h.xreg b
  let lenA := if packed then ((List.range 96).filter fun t => m.getLsbD t).length else 96
  tileIssue s acc (h.mvl == 0 || !matFormat fmt) (h.vstart != 0 || badPk fmt 96 m) fun t =>
    runM (do
      alignAll 32 [descBase da, descBase db]
      windowTest da lenA (rowOn q)
      windowTest db 96 (colOn q)
      let p ← probeWhole true .read (operandTouches da lenA 0 (rowOn q) ++ operandTouches db 96 32 (colOn q))
      let ra ← operandRows p da lenA (rowOn q) (List.range 32) [] []
      let rb ← operandRows p db 96 (colOn q) (List.range 32) [] ra.2
      let w := operandBits fmt
      let side := fun (rows : List Nat) => rows.map fun r => rowElems w 96 m r
      modS fun s => setTile (useArray s) acc (product fmt t z q h.mvl
        (side (if packed then ra.1.map (expandRow m) else ra.1)) (side rb.1))
      done) s

/-- MMA (R307). -/
def execMma (acc : BitVec 3) (a b : XIdx) (prc pk : PIdx) (fmt : Fmt) (z : Bool) (s : State) : Result :=
  matProduct false acc a b prc pk fmt z s
/-- MMAS (R307). -/
def execMmas (acc : BitVec 3) (a b : XIdx) (prc pk : PIdx) (fmt : Fmt) (z : Bool) (s : State) : Result :=
  matProduct true acc a b prc pk fmt z s

/-! ## MLD and MST (R309, R310) -/

/-- The canonical form of a container (R181). -/
def rnsCanon (c : Nat) : Nat := let r := rnsResidues c; r.1 + 256 * r.2.1 + 65536 * r.2.2

/-- The formats of `mld` and `mst`. -/
def moveFormat (f : Fmt) : Bool := f == .f32 || f == .i32 || f == .rns3

/-- The enabled columns. -/
def colsOn (p : PReg) : List Nat := (List.range 32).filter (colOn p)

/-- The address of element (i, j) of a tile in memory. -/
def tileVa (d : Word) (i j : Nat) : Word := rowAddr d i + BitVec.ofNat 64 (4 * j)

/-- Reads the enabled containers of `mld` in row order. -/
def mldElems (p : Probe) (d : Word) : List (Nat × Nat) → Tbl Nat → Cache → M (Tbl Nat)
  | [], acc, _ => fun s => (.ok acc, s)
  | (i, j) :: es, acc, c => fun s =>
    let va := tileVa d i j
    match tileGranule none p va c s with
    | (.error e, s) => (.error e, s)
    | (.ok (g, c), s) => mldElems p d es ((32 * i + j, granuleBytes g.data (va.toNat % 64) 4) :: acc) c s

/-- MLD (R309). -/
def execMld (acc : BitVec 3) (a : XIdx) (prc : PIdx) (fmt : Fmt) (s : State) : Result :=
  let h := s.hart
  let q := h.preg prc
  let d := h.xreg a
  let es := ((List.range 32).filter (rowOn q)).flatMap fun i => (colsOn q).map fun j => (i, j)
  tileIssue s acc (!moveFormat fmt) (h.vstart != 0) fun t =>
    runM (do
      alignAll 32 [descBase d]
      let p ← probeWhole true .read (es.map fun ij => ⟨ij.1, tileVa d ij.1 ij.2⟩)
      let vs ← mldElems p d es [] []
      -- what was read, by row and column
      let row := fun (i : Nat) => vs.filter fun kv => kv.1 / 32 == i
      let rows := (List.range 32).map row
      modS fun s => setTile s acc (Tile.build fun i j =>
        match tget (rows.getD i []) (32 * i + j) with
        | some v => newElement (if fmt = .rns3 then rnsCanon v else v)
        | none => (t.get i j, t.getGuard i j))
      done) s

/-- An engine's own outbound entries for a granule: among those held for its step, then in O2. -/
def engineEntry (s : State) (n gran : Nat) (mine : Option Nat) : Option OutEntry :=
  match (clusterAt s n).o2held.find? fun x => x.1 == gran && x.2.held == mine with
  | some x => some x.2
  | none => tget (clusterAt s n).o2 gran

/-- Who formed the present copy of a granule, for an engine that merges into it: a held copy or placeholder of the cluster
I2 tells it; else its outbound entry in O2, else its home (R27, R310, R323). (DEDUCED, log 25.) -/
def presentProd (s : State) (n gran : Nat) (mine : Option Nat) : Nat :=
  match (tget (clusterAt s n).i2 gran).filter fun c => c.ph || c.pin != 0 with
  | some c => c.g.prod
  | none => match engineEntry s n gran mine with
    | some e => e.g.prod
    | none => (peekHome s gran).c.g.prod

/-- The old granule that an engine of a cluster merges into: its own from O2 or its home, checked without R103 and past the
inbound levels; any other by a merge fetch at relation 2 or 3 (R165, R310, R323), which fills I2 for the matrix unit and no
level for the copy sequencer (R321, R424). -/
def engineOld (n prod : Nat) (mine : Option Nat) (va : Word) (gran : Nat) : M Granule := fun s =>
  let checked := fun (f : Found) (s : State) => match f.c.g.badKind with
    | none => ((.ok f.c.g : Except Stop Granule), s)
    | some kind => (.error (.trap (checkTrap va f.c.g (pathWord f.src f.tag kind))), dropFailed s none (some n) f.src gran)
  if presentProd s n gran mine = prod then
    match engineEntry s n gran mine with
    | some e => match e.g.badKind with
      | none => (.ok e.g, s)
      | some kind => (.error (.trap (checkTrap va e.g (pathWord 7 0 kind))), s)
    | none => wayE n gran 3 true (checked (peekHome s gran)) s
  else
    let f := if windowOf gran = 0 then peekI2 s n gran else peekHome s gran
    let fill := fun (s : State) => if windowOf gran = 0 && prod == prodMatrix n then fillI2 s n gran else s
    wayE n gran f.src false (fun s => consumeM (.cluster n) none (some n) va gran f (fill s)) s

/-- Groups pieces of one row by granule, in ascending address order, each with its mask and data. -/
def rowGroups (ps : List Piece) : List (Piece × GData × GData) :=
  (firstPieces ps []).map fun p => (p, merged (ps.filter p.meets))

/-- What an engine's write of one granule leaves: the data, merged where the mask does not cover it. -/
def engineData (n prod : Nat) (mine : Option Nat) (x : Piece × GData × GData) : M (Piece × GData) := fun s =>
  if x.2.1 = BitVec.allOnes 512 then (.ok (x.1, x.2.2), s)
  else match engineOld n prod mine x.1.va x.1.key s with
    | (.ok g, s) => (.ok (x.1, mergeBits g.data x.2.2 x.2.1), s)
    | (.error e, s) => (.error e, s)

/-- All the granules of a row before any is formed. -/
def engineRow (n prod : Nat) (mine : Option Nat) : List (Piece × GData × GData) → List (Piece × GData) → M (List (Piece × GData))
  | [], acc => fun s => (.ok acc.reverse, s)
  | x :: xs, acc => fun s =>
    match engineData n prod mine x s with
    | (.ok y, s) => engineRow n prod mine xs (y :: acc) s
    | (.error e, s) => (.error e, s)

/-- One row of `mst`: nothing of it is written when a granule of it faults. -/
def mstRow (p : Probe) (d : Word) (t : Tile) (fmt : Fmt) (cols : List Nat) (i : Nat) (_ : Unit) : M Unit := fun s =>
  let n := curCluster s
  let prod := prodMatrix n
  let mine := heldBy s
  let ps : List Piece := cols.filterMap fun j =>
    let va := tileVa d i j
    (p.at va).map fun x =>
      ⟨i, .mem, x.1 / 64, 8 * (x.1 % 64), 32, if fmt = .rns3 then rnsCanon (t.get i j) else t.get i j, va, false⟩
  match engineRow n prod mine (rowGroups ps) [] s with
  | (.error e, s) => (.error e, s)
  | (.ok ys, s) =>
    formEachM prod s.cur heldBy (ys.map fun y => (y.1.key, mkGranule y.2 prod 0 (countsAt s prod).rcnt)) s

/-- The probe of `mst` (R310): a first attempt translates every row that holds an enabled element; a resumed one goes on
from row VSTART. (DEDUCED, log 24.) -/
def mstTouches (h : Hart) (d : Word) (rows : List Nat) : List Touch :=
  (rows.filter fun i => !(h.resume || h.mid) || h.vstart.toNat ≤ i).flatMap fun i =>
    (granulesOf (rowAddr d i) 128).map fun va => ⟨i, va⟩

/-- MST (R310). -/
def execMst (acc : BitVec 3) (a : XIdx) (prc : PIdx) (fmt : Fmt) (s : State) : Result :=
  let h := s.hart
  let q := h.preg prc
  let d := h.xreg a
  let cols := colsOn q
  let all := (List.range 32).filter fun i => rowOn q i && !cols.isEmpty
  let rows := all.filter fun i => h.vstart.toNat ≤ i
  tileIssue s acc (!moveFormat fmt) (h.vstart.toNat > 31) fun t =>
    runM (do
      alignAll 32 [descBase d]
      let p ← probeM true .write (mstTouches h d all)
      noRanges p 4 (rows.flatMap fun i => cols.map fun j => tileVa d i j)
      unitsM s.units p.faults (mstRow p d t fmt cols) 0 rows ()
      doneV) s

/-! ## MCVT (R312) -/

/-- The admitted pairs: a float to a narrower one, RNS3 to i32, i32 to f32. -/
def mcvtAdmits (src dst : Fmt) : Bool :=
  (src == .f32 && (dst == .bf16 || dst == .f16 || dst == .e4m3 || dst == .e5m2)) ||
  (src == .rns3 && dst == .i32) || (src == .i32 && dst == .f32)

def mcvtRange (src : Fmt) (e : Int) : Bool := if src = .rns3 then -31 ≤ e && e ≤ 8 else -128 ≤ e && e ≤ 127

/-- One element converted. -/
def mcvtElem (src dst : Fmt) (e : Int) (r : Rnd) (sat : Bool) (c : Nat) : Nat :=
  if src = .rns3 then ofInt 32 (((Exact.ofInt (rnsValue c)).scale e).toInt r)
  else if src = .i32 then roundFmt .f32 ((Exact.ofInt (toSigned 32 c)).scale e) r sat
  else roundFmt dst ((decodeExact .f32 c).scale e) r sat

/-- Row `i` packed to width `w` (R176). -/
def packedRow (w : Nat) (f : Nat → Nat) : Nat := (List.range 32).foldl (fun n j => n + f j * 2 ^ (w * j)) 0

/-- MCVT (R312). -/
def execMcvt (acc : BitVec 3) (dst src : Fmt) (b : XIdx) (rnd : Rnd) (sat : Bool) (s : State) : Result :=
  let h := s.hart
  let e := (h.xreg b).toInt
  tileIssue s acc (!mcvtAdmits src dst) (h.vstart != 0 || !mcvtRange src e) fun t =>
    let f := fun i j => mcvtElem src dst e rnd sat (t.get i j)
    let t' :=
      if dst.bits = 32 then Tile.build fun i j => newElement (f i j)
      else
        let rows := (List.range 32).map fun i => packedRow dst.bits (f i)
        Tile.build fun i j => newElement (rows.getD i 0 / 2 ^ (32 * j) % 2 ^ 32)
    let wrapped := src == .rns3 && tileIndices.any fun ij => rnsGuard (rnsValue (t.get ij.1 ij.2)) != t.getGuard ij.1 ij.2
    let s := setTile s acc t'
    .next (advance { s with hart := s.hart.setRnsOvf wrapped })

end Sys2Proof.Machine
end

