-- ==== Sys2Proof/Machine/CopySeq.lean ====
section
/-! DEFINITION. The copy sequencer (R317-R328): the nest, issue, runs, completion, faults and status. -/

namespace Sys2Proof.Machine

/-! ## The nest and its fields -/

/-- CPSET (R317). -/
def execCpset (d a b : XIdx) (level : BitVec 4) (s : State) : Result :=
  let n := (xreg s d).toNat
  let h := s.hart
  if h12 : level.toNat < 12 then
    if n > 2 ^ 32 - 1 then .next (takeTrap s (operandTrap s))
    else .next (advance { s with hart := { h with nest := h.nest.set level.toNat ⟨n, xreg s a, xreg s b⟩ h12 } })
  else .next (takeTrap s (illegalTrap s))

/-- CPCVT (Table 21.5). -/
def cvtSpace (w : BitVec 20) (lo : Nat) : Option Space := Space.ofCode (w.extractLsb' lo 2)
def cvtDst (w : BitVec 20) : Option Fmt := Fmt.ofCode (w.extractLsb' 12 4)
def cvtSrc (w : BitVec 20) : Option Fmt := Fmt.ofCode (w.extractLsb' 8 4)
def cvtRes (w : BitVec 20) : Option Fmt := Fmt.ofCode (w.extractLsb' 4 4)
def cvtRnd (w : BitVec 20) : Rnd := Rnd.ofCode (w.extractLsb' 2 2)
def cvtSat (w : BitVec 20) : Bool := w.getLsbD 1

def fmtBits (f : Option Fmt) : Nat := match f with | some f => f.bits | none => 8

/-- ws, wd and wr (R319). -/
def CopyCmd.ws (c : CopyCmd) : Nat := if c.cv then fmtBits (cvtSrc c.cpcvt) else 8
def CopyCmd.wd (c : CopyCmd) : Nat := if c.cv then fmtBits (cvtDst c.cpcvt) else 8
def CopyCmd.wr (c : CopyCmd) : Nat := fmtBits (cvtRes c.cpcvt)
def CopyCmd.run (c : CopyCmd) : Nat := c.cprun.toNat
/-- Elements of a run. -/
def CopyCmd.elems (c : CopyCmd) : Nat := c.run * 8 / c.ws
/-- Destination bytes of a run. -/
def CopyCmd.bd (c : CopyCmd) : Nat := c.elems * c.wd / 8
def CopyCmd.br (c : CopyCmd) : Nat := c.elems * c.wr / 8
def CopyCmd.sspace (c : CopyCmd) : Option Space := cvtSpace c.cpcvt 16
def CopyCmd.dspace (c : CopyCmd) : Option Space := cvtSpace c.cpcvt 18
/-- The runs of a command. -/
def CopyCmd.total (c : CopyCmd) : Nat := c.nest.toList.foldl (fun t l => t * l.n) 1

/-- Formats a converting copy admits (R319 code 4). -/
def copyPair (s d : Option Fmt) : Bool :=
  match s, d with
  | some s, some d => cvtAdmits s d && s != .rns3 && d != .rns3 && s != .e8m0 && d != .e8m0
  | some _, none => false
  | none, _ => false

/-- Formats of error feedback (R192). -/
def feedbackFormats (s n r : Option Fmt) : Bool :=
  (s == some .f32 || s == some .bf16 || s == some .f16) &&
  (n == some .bf16 || n == some .f16 || n == some .e4m3 || n == some .e5m2 || n == some .e2m1) &&
  (r == some .f32 || r == some .bf16 || r == some .f16 || r == some .e4m3 || r == some .e5m2)

/-- A side's base, or a stride of a level whose count is 2 or more, is no multiple of `m`. -/
def offGrid (base : Word) (strides : List Word) (m : Nat) : Bool := base.toNat % m != 0 || strides.any fun x => x.toNat % m != 0

/-- The lowest code of Table 21.6 whose condition holds. -/
def CopyCmd.badCode (c : CopyCmd) : Option Nat :=
  let live := c.nest.toList.filter fun l => l.n ≥ 2
  let ss := live.map (·.s)
  let ds := live.map (·.d)
  if c.run = 0 || c.run > 4096 then some 1
  else if c.sspace.isNone || c.dspace.isNone then some 2
  else if c.ef && (!c.cv || c.dspace != some .mem) then some 3
  else if (c.cv && !copyPair (cvtSrc c.cpcvt) (cvtDst c.cpcvt)) ||
      (c.ef && !feedbackFormats (cvtSrc c.cpcvt) (cvtDst c.cpcvt) (cvtRes c.cpcvt)) then some 4
  else if c.run * 8 % c.ws != 0 || c.elems * c.wd % 8 != 0 || offGrid c.src ss (max 1 (c.ws / 8)) ||
      offGrid c.dst ds (max 1 (c.wd / 8)) then some 5
  else if c.dspace = some .sp && (offGrid c.dst ds 128 || c.bd % 128 != 0) then some 6
  else if (c.sspace = some .ls && (offGrid c.src ss 8 || c.run % 8 != 0)) ||
      (c.dspace = some .ls && (offGrid c.dst ds 8 || c.bd % 8 != 0)) then some 7
  else if c.ef && (c.cpres.toNat % max 1 (c.wr / 8) != 0 || ds.any fun x => x.toInt * c.wr % c.wd != 0) then some 8
  else if c.total > 2 ^ 48 then some 9
  else none

/-! ## Issue and status (R319, R325, R328) -/

/-- The q after another. -/
def nextQ (q : Nat) : Nat := if q = 2 ^ 32 - 1 then 1 else q + 1

/-- How many commands were accepted after `q`. -/
def copiesSince (last q : Nat) : Nat := if q ≤ last then last - q else last + (2 ^ 32 - 1) - q

/-- Sets a command's status; only the 64 most recently accepted are kept (R328). -/
def setStatus (k : ClusterSt) (q : Nat) (st : CopyStatus) : ClusterSt :=
  { k with copyst := (tput k.copyst q st).filter fun x => copiesSince k.copyn x.1 < 64 }

/-- The handle of a command: (cluster << 32) | q. -/
def copyHandle (n q : Nat) : Word := BitVec.ofNat 64 (n * 2 ^ 32 + q)

/-- CPGO (R319). -/
def execCpgo (acq rls : Bool) (sc : Scope) (cv ef : Bool) (d a b : XIdx) (s : State) : Result :=
  let n := curCluster s
  let h := s.hart
  let k := clusterAt s n
  let q := nextQ k.copyn
  let c : CopyCmd := ⟨q, s.cur, h.steph.toNat, h.nest, h.cprun, h.cpres, h.cpcvt, xreg s a, xreg s b, acq, rls, sc, cv, ef, 0,
    false, 0, s.ir⟩
  match c.badCode with
  | some code => .next (takeTrap s (TrapInfo.plain 0x02 (BitVec.ofNat 64 code)))
  | none =>
    if k.copyq.length ≥ 16 then waitHere s
    else runM (do
      if rls then setNrM else fun s => (.ok (), s)
      modS fun s =>
        let k := clusterAt s n
        setCluster s n (setStatus { k with copyq := k.copyq ++ [c], copyn := q } q ⟨0, 0, 0⟩)
      finishX d (copyHandle n q)) s

/-- What `cpq` reads for a handle it has no status of. -/
def noStatus : Word := 0x8000FFFFFFFFFFFF

/-- The status word (Table 21.7). -/
def statusWord (st : CopyStatus) : Word :=
  st.state.setWidth 64 <<< 62 ||| st.ecause.setWidth 64 <<< 48 ||| st.runs.setWidth 64

/-- CPQ (R328). -/
def execCpq (d a : XIdx) (s : State) : Result :=
  let w := xreg s a
  let n := curCluster s
  if w = 0 then nextX s d noStatus
  else if (w.extractLsb' 32 32).toNat ≠ n then .next (takeTrap s (TrapInfo.plain 0x02 w))
  else match tget (clusterAt s n).copyst (w.extractLsb' 0 32).toNat with
    | some st => nextX s d (statusWord st)
    | none => nextX s d noStatus

/-! ## Runs (R320-R324) -/

/-- The indices of run `i`, innermost first. -/
def runIndices : List NestLevel → Nat → List Nat
  | [], _ => []
  | l :: ls, i => (if l.n = 0 then 0 else i % l.n) :: runIndices ls (if l.n = 0 then 0 else i / l.n)

/-- The address of a side in run `i`. -/
def runAddr (c : CopyCmd) (base : Word) (stride : NestLevel → Word) (i : Nat) : Word :=
  (c.nest.toList.zip (runIndices c.nest.toList i)).foldl (fun a x => a + BitVec.ofNat 64 x.2 * stride x.1) base

def CopyCmd.srcAt (c : CopyCmd) (i : Nat) : Word := runAddr c c.src (·.s) i
def CopyCmd.dstAt (c : CopyCmd) (i : Nat) : Word := runAddr c c.dst (·.d) i
/-- CPRES + (d − xdst) · wr / wd (R320). -/
def CopyCmd.resAt (c : CopyCmd) (i : Nat) : Word :=
  c.cpres.setWidth 64 + BitVec.ofInt 64 ((c.dstAt i - c.dst).toInt * c.wr / c.wd)

/-- The parts of `len` bytes from an address that lie in one granule each: address, place in the run, bytes. -/
def partsFrom : List Word → Nat → Nat → List (Word × Nat × Nat)
  | [], _, _ => []
  | va :: vas, at', left =>
    let here := min left (64 - va.toNat % 64)
    (va, at', here) :: partsFrom vas (at' + here) (left - here)
def partsOf (va : Word) (len : Nat) : List (Word × Nat × Nat) := if len = 0 then [] else partsFrom (granulesOf va len) 0 len

/-- Bytes `at'` … `at' + n` − 1 of a run. -/
def partVal (bytes at' n : Nat) : Nat := bytes / 256 ^ at' % 256 ^ n

/-- A permission fault of a local space's address (R322). -/
def spaceFault (va : Word) : Stop := .trap (TrapInfo.plain 0x05 va)

/-- The test of `len` bytes in a local space: within the space, and in one lane (R322). -/
def spaceTest (core : Nat) (side : Space) (va : Word) (len : Nat) : M Unit := fun s =>
  match side with
  | .mem => (.ok (), s)
  | .sp => if va.toNat + len > spSize (coreAt s core) then (.error (spaceFault va), s) else (.ok (), s)
  | .ls => if va.toNat + len > 65536 || va.toNat / 4096 ≠ (va.toNat + len - 1) / 4096 then (.error (spaceFault va), s)
    else (.ok (), s)

/-- The destination pass over the memory bytes of one side of a run (R322). -/
def passParts (n l : Nat) (va : Word) (len : Nat) : M Unit :=
  eachM (partsOf va len) fun x => fun s =>
    match translateFor (clusterTlb n) l x.1 .write s with
    | (.error e, s) => (.error e, s)
    | (.ok (pa, _), s) => noRangeM x.1 pa x.2.2 s

/-- The destination pass (R322): every run's destination and residues. -/
def destinationPass (n : Nat) (c : CopyCmd) : M Unit :=
  forM' c.total 0 fun i =>
    let l := launchOf (BitVec.ofNat 32 c.step)
    let side := c.dspace.getD .mem
    do
      if side = .mem then passParts n l (c.dstAt i) c.bd else spaceTest (coreOfSlot c.slot) side (c.dstAt i) c.bd
      if c.ef then passParts n l (c.resAt i) c.br else fun s => (.ok (), s)

/-- A copy is relabelled: no conversion, and granule boundaries on both sides (R162, R323). -/
def CopyCmd.relabels (c : CopyCmd) (i : Nat) : Bool :=
  !c.cv && (c.srcAt i).toNat % 64 == 0 && (c.dstAt i).toNat % 64 == 0 && c.run % 64 == 0

/-- A memory source granule: the first copy from the cluster I2 outward, at relation 2 or 3, no fill (R321); in a remote
window, from the port engine's buffer or the endpoint (R27). A copy that relabels tests its metadata alone (R99, R161). -/
def copySource (n : Nat) (produce : Bool) (va : Word) (gran : Nat) : M (Granule × Word) := fun s =>
  match ovfTest va gran s with
  | (.error e, s) => (.error e, s)
  | (.ok _, s) =>
    let f := if windowOf gran = 0 then peekI2 s n gran else peekHome s gran
    let k := relation (.cluster n) f.c.g.prod
    wayE n gran f.src false (fun s =>
      if f.c.ph || !visible s (some n) f.c.g k then (.error (.trap (unturnedTrap s (some n) va f.c.g f.c.ph k)), s)
      else match (if produce then f.c.g.badKind else f.c.g.metaKind) with
        | some kind =>
          (.error (.trap (checkTrap va f.c.g (pathWord f.src f.tag kind))), dropFailed s none (some n) f.src gran)
        | none => (.ok (f.c.g, f.tag), nextTick s)) s

/-- A granule of a local space as a source: its word is checked when the sequencer produces, its metadata always. -/
def copyLocal (produce : Bool) (g : Granule) (off src : Nat) (tag : Word) : M (Granule × Word) := fun s =>
  match (if produce then g.badKind else g.metaKind) with
  | some kind => (.error (.trap (checkTrap (BitVec.ofNat 64 off) g (pathWord src tag kind))), s)
  | none => (.ok (g, tag), s)

/-- One source granule of a run. -/
def sourceGranule (n : Nat) (c : CopyCmd) (produce : Bool) (va : Word) : M (Granule × Word) := fun s =>
  let core := coreOfSlot c.slot
  match c.sspace.getD .mem with
  | .mem =>
    match translateFor (clusterTlb n) (launchOf (BitVec.ofNat 32 c.step)) va .read s with
    | (.error e, s) => (.error e, s)
    | (.ok (pa, _), s) => copySource n produce va (pa / 64) s
  | .sp =>
    let k := coreAt s core
    if va.toNat ≥ spSize k then (.error (spaceFault va), s)
    else if !(spLine k va.toNat).full then (.error .hold, s)
    else let x := spGranule core k va.toNat; copyLocal produce x.1 va.toNat 5 x.2 s
  | .ls =>
    if va.toNat ≥ 65536 then (.error (spaceFault va), s)
    else let x := laneGranule core (coreAt s core) (va.toNat / 64); copyLocal produce x.1 va.toNat 6 x.2 s

/-- The source bytes of a run and its granules, in order. -/
def sourceRun (n : Nat) (c : CopyCmd) (produce : Bool) : List (Word × Nat × Nat) → Nat → List (Granule × Word) →
    M (Nat × List (Granule × Word))
  | [], bytes, gs => fun s => (.ok (bytes, gs.reverse), s)
  | (va, at', len) :: ps, bytes, gs => fun s =>
    match sourceGranule n c produce va s with
    | (.error e, s) => (.error e, s)
    | (.ok x, s) => sourceRun n c produce ps (bytes + granuleBytes x.1.data (va.toNat % 64) len * 256 ^ at') (x :: gs) s

/-- The destination and residue bytes of a run (R324). -/
def CopyCmd.convert (c : CopyCmd) (bytes : Nat) : Nat × Nat :=
  match c.cv, cvtSrc c.cpcvt, cvtDst c.cpcvt with
  | true, some f, some g =>
    let r := cvtRnd c.cpcvt
    let sat := cvtSat c.cpcvt
    let e := fun i => bytes / 2 ^ (c.ws * i) % 2 ^ c.ws
    match c.ef, cvtRes c.cpcvt with
    | true, some q =>
      let xs := (List.range c.elems).map fun i => feedback f g q (e i) r sat
      (xs.foldr (fun x n => x.1 + 2 ^ c.wd * n) 0, xs.foldr (fun x n => x.2 + 2 ^ c.wr * n) 0)
    | _, _ => (((List.range c.elems).map fun i => Machine.convert f g (e i) r sat).foldr (fun x n => x + 2 ^ c.wd * n) 0, 0)
  | _, _, _ => (bytes, 0)

/-- The step that holds a command's granules (R79). -/
def holder (s : State) (step : Nat) : Option Nat :=
  match findStep s step with
  | some r => if r.retryable then some step else none
  | none => none

/-- The pieces of a run's bytes in memory. -/
def memPieces (n l : Nat) (bytes : Nat) : List (Word × Nat × Nat) → List Piece → M (List Piece)
  | [], acc => fun s => (.ok acc.reverse, s)
  | (va, at', len) :: ps, acc => fun s =>
    match translateFor (clusterTlb n) l va .write s with
    | (.error e, s) => (.error e, s)
    | (.ok (pa, _), s) =>
      memPieces n l bytes ps (⟨0, .mem, pa / 64, 8 * (pa % 64), 8 * len, partVal bytes at' len, va, false⟩ :: acc) s

/-- Forms the granules of a run in O2 (R323). -/
def formRun (n slot step : Nat) (ys : List (Nat × Granule)) : M Unit := formEachM (prodCopy n) slot (fun s => holder s step) ys

/-- A run's write to memory: relabelled, or produced anew with its residues. -/
def writeMem (n : Nat) (c : CopyCmd) (i bytes res : Nat) (gs : List (Granule × Word)) : M Unit := fun s =>
  let l := launchOf (BitVec.ofNat 32 c.step)
  let prod := prodCopy n
  match memPieces n l bytes (partsOf (c.dstAt i) c.bd) [] s with
  | (.error e, s) => (.error e, s)
  | (.ok ps, s) =>
    if c.relabels i then
      let rc := (countsAt s prod).rcnt
      formRun n c.slot c.step ((ps.zip gs).map fun x => (x.1.key, x.2.1.relabel rc 0 prod)) s
    else match (if c.ef then memPieces n l res (partsOf (c.resAt i) c.br) [] s else (.ok [], s)) with
      | (.error e, s) => (.error e, s)
      | (.ok qs, s) =>
        match engineRow n prod (holder s c.step) (rowGroups (ps ++ qs)) [] s with
        | (.error e, s) => (.error e, s)
        | (.ok ys, s) =>
          let rc := (countsAt s prod).rcnt
          formRun n c.slot c.step (ys.map fun y => (y.1.key, mkGranule y.2 prod 0 rc)) s

/-- Granules of `bytes` as the sequencer puts them into a local space: the source's own when the copy relabels, else
produced. -/
def landed (s : State) (n : Nat) (c : CopyCmd) (i bytes : Nat) (gs : List (Granule × Word)) : List (Granule × Word) :=
  if c.relabels i then gs
  else (List.range (c.bd / 64)).map fun j =>
    (mkGranule (BitVec.ofNat 512 (partVal bytes (64 * j) 64)) (prodCopy n) 0 (countsAt s (prodCopy n)).rcnt, 0)

/-- A run lands in the scratchpad, line by line (R280, R323). -/
def writeSp (n : Nat) (c : CopyCmd) (i bytes : Nat) (gs : List (Granule × Word)) : M Unit := fun s =>
  let core := coreOfSlot c.slot
  let d := (c.dstAt i).toNat
  let xs := landed s n c i bytes gs
  (.ok (), ((List.range xs.length).zip xs).foldl (fun s x => putSp s core (d + 64 * x.1) x.2) s)

/-- The lane-store granules of a run: each whole, or its old granule checked and merged (R281, R323). -/
def laneParts (n : Nat) (c : CopyCmd) (bytes : Nat) : List (Word × Nat × Nat) → List (Nat × Granule) →
    M (List (Nat × Granule))
  | [], acc => fun s => (.ok acc.reverse, s)
  | (va, at', len) :: ps, acc => fun s =>
    let core := coreOfSlot c.slot
    let key := va.toNat / 64
    let new := placeBytes (va.toNat % 64) (partVal bytes at' len)
    let form := fun (d : GData) => mkGranule d (prodCopy n) 0 (countsAt s (prodCopy n)).rcnt
    if len = 64 then laneParts n c bytes ps ((key, form new) :: acc) s
    else match readLsAt core key va.toNat s with
      | (.error e, s) => (.error e, s)
      | (.ok g, s) => laneParts n c bytes ps ((key, form (mergeMask g.data new (byteMask (va.toNat % 64) len))) :: acc) s

/-- A run lands in the lane store. -/
def writeLs (n : Nat) (c : CopyCmd) (i bytes : Nat) (gs : List (Granule × Word)) : M Unit := fun s =>
  let core := coreOfSlot c.slot
  let put := fun (s : State) (ys : List (Nat × Granule × Word)) =>
    let k := coreAt s core
    setCore s core { k with ls := ys.foldl (fun t y => tput t y.1 y.2) k.ls }
  if c.relabels i then
    (.ok (), put s (((List.range gs.length).zip gs).map fun x => ((c.dstAt i).toNat / 64 + x.1, x.2)))
  else match laneParts n c bytes (partsOf (c.dstAt i) c.bd) [] s with
    | (.error e, s) => (.error e, s)
    | (.ok ys, s) => (.ok (), put s (ys.map fun y => (y.1, y.2, 0)))

/-- Run `i`: read whole, converted, written (R320, R323, R324). -/
def copyRun (n : Nat) (c : CopyCmd) (i : Nat) : M Unit := do
  let x ← sourceRun n c (!c.relabels i) (partsOf (c.srcAt i) c.run) 0 []
  let y := c.convert x.1
  match c.dspace.getD .mem with
  | .mem => writeMem n c i y.1 y.2 x.2
  | .sp => writeSp n c i y.1 x.2
  | .ls => writeLs n c i y.1 x.2

/-! ## Completion and faults (R325-R327) -/

/-- Replaces the command at the head of the queue, and its status. -/
def setHead (s : State) (n : Nat) (c : CopyCmd) (st : BitVec 2) : State :=
  let k := clusterAt s n
  setCluster s n (setStatus { k with copyq := c :: k.copyq.tail } c.q ⟨st, 0, BitVec.ofNat 48 c.runs⟩)

/-- The command at the head leaves the queue. -/
def endHead (s : State) (n : Nat) (c : CopyCmd) (st : BitVec 2) (cause : BitVec 6) : State :=
  let k := clusterAt s n
  setCluster s n (setStatus { k with copyq := k.copyq.tail } c.q ⟨st, cause, BitVec.ofNat 48 c.runs⟩)

/-- The address of an engine fault's record: the virtual address of the faulting granule, or of the faulting page (R326);
where a page-table entry failed, its physical address (R353), and in a local space the offset (R322). -/
def engineAddr (t : TrapInfo) : Word :=
  if t.npg = 0 then (if t.cause = 0x11 then t.addr &&& ~~~0x3F else t.addr)
  else
    let w := t.words.getD 0 0
    let leaf := w.extractLsb' 0 2 == 1 || w.extractLsb' 0 2 == 2
    if leaf && w.extractLsb' 24 3 == 2 then t.addr &&& ~~~0x1FFFFFFF else t.addr &&& ~~~0xFFFF

/-- A fault ends the command (R326): the dispatcher takes a check fault of a retryable step, as for a trap (R79, R174, R350);
any other waits for delivery at the hart. The record's instruction word is the `cpgo`'s. While the record of an abort cannot be
written, the run is tried again (R392). (DEDUCED, log 25.) -/
def copyFault (s : State) (n : Nat) (c : CopyCmd) (t : TrapInfo) : State :=
  let abort := t.cause = 0x08 && (holder s c.step).isSome
  let leg := if abort then recordLeg (switchTo s c.slot) else none
  if leg.isSome then reportLeg s (leg.getD none)
  else
  let s := endHead s n c 3 t.cause
  let core := coreOfSlot c.slot
  let s := match t.score with
    | some (prod, path) => scoreCheck s (some core) prod path
    | none => s
  let t := { t with val := copyHandle n c.q, addr := engineAddr t, eng := true, resume := false, word := some c.word }
  if abort then
    switchTo (checkAbort (switchTo s c.slot) t c.step (some core)) s.cur
  else
    let h := hartAt s c.slot
    setHart s c.slot { h with engineFaults := h.engineFaults ++ [{ t with score := none }] }

/-- After the last run: the release of R140, then completion. -/
def copyFinish (s : State) (n : Nat) (c : CopyCmd) : State :=
  let prod := prodCopy n
  if !c.rel then endHead s n c 2 0
  else
    let r := if c.phase = 0 then release s n none prod c.scope.level else (s, true)
    if !r.2 then setHead r.1 n c 1
    else if acked r.1 prod then endHead (advanceRcnt r.1 prod) n c 2 0
    else setHead r.1 n { c with phase := 1 } 1

/-- The offsets of a run's side lie in a bank of the core that satisfies a test. -/
def runInBanks (k : CoreSt) (p : Nat → Bool) (va : Word) (len : Nat) : Bool :=
  (partsOf va len).any fun x => ((spBanks k.bankrole)[x.1.toNat / 8192]?).any p

/-- An outstanding command reads or writes a scratchpad bank that satisfies a test, in whichever of its runs (R234, R325). -/
def CopyCmd.usesBank (c : CopyCmd) (k : CoreSt) (p : Nat → Bool) : Bool :=
  (List.range c.total).any fun j =>
    (c.sspace == some .sp && runInBanks k p (c.srcAt j) c.run) || (c.dspace == some .sp && runInBanks k p (c.dstAt j) c.bd)

/-- COPY_COMMAND: the sequencer's next act on the command at the head of its queue: the destination pass, the next run in
index order, or the release and completion (R320-R326). (DEDUCED, log 25.) -/
def execCopyCommand (n : Nat) (s : State) : Result :=
  match (clusterAt s n).copyq with
  | [] => .next s
  | c :: _ =>
    if !c.passed then
      match destinationPass n c s with
      | (.ok _, s') => .next (setHead s' n { c with passed := true } 1)
      | (.error .hold, s') => .next (setHead s' n c 1)
      | (.error (.trap t), s') => .next (copyFault s' n c t)
    else if c.runs < c.total then
      match copyRun n c c.runs s with
      | (.ok _, s') => .next (setHead s' n { c with runs := c.runs + 1 } 1)
      | (.error .hold, s') => .next s'
      | (.error (.trap t), s') => .next (copyFault s' n c t)
    else .next (copyFinish s n c)

end Sys2Proof.Machine
end

