-- ==== Sys2Proof/Machine/CReg.lean ====
section
/-! DEFINITION. Control registers: reads, and writes under each field's access rules (R208, R209, R233-R235, Table 14.4). -/

namespace Sys2Proof.Machine

def bitAt (b : Bool) (i : Nat) : Word := (BitVec.ofBool b).setWidth 64 <<< i

/-- Bit `n` for each open frame of a level `n` below 6 that satisfies a test. -/
def frameBits (fs : List Frame) (p : Frame → Bool) : Word :=
  fs.foldl (fun w f => if f.level < 6 && p f then w ||| (1 : Word) <<< f.level else w) 0

/-- LSTG (Table 15.7). -/
def lstg (h : Hart) : Word :=
  frameBits h.frames (fun f => f.iter + 1 == f.count) <<< 16 ||| frameBits h.frames (fun f => f.iter == 0) <<< 8 |||
    bitAt h.susp 6 ||| frameBits h.frames fun _ => true

/-- LCn: the live remaining count while frame n is open, else the pending count (R228). -/
def lcRead (h : Hart) (n : Nat) : Word :=
  match h.frames.find? fun f => f.level == n with
  | some f => BitVec.ofNat 64 (f.count - f.iter)
  | none => h.lc.toList.getD n 0

/-- TSTAT (Table 23.7). -/
def tstatWord (s : State) (k : Nat) : Word :=
  let h := hartAt s k
  let t := h.tstat
  bitAt (nip h) 10 ||| bitAt (qip s k) 9 ||| bitAt t.tip 8 ||| bitAt t.lev 7 ||| bitAt t.nie 6 ||| bitAt t.qie 5 |||
    bitAt t.tie 4 ||| bitAt t.rsm 3 ||| bitAt t.pie 2 ||| bitAt t.ie 1 ||| bitAt t.plev 0

/-- Reads CYCLE: it has advanced by an unstated amount (R235, DESIGN CHOICE, log 4). -/
def readCycle (s : State) : Word × State :=
  let c := curCore s
  let k := coreAt s c
  let v := k.cycle + BitVec.ofNat 64 (Config.elapsed s.tick)
  let v := if v.toNat < k.cycle.toNat then k.cycle else v
  (v, nextTick (setCore s c { k with cycle := v }))

/-- Reads PORTRTT: 0 when no window is bound (R121). -/
def readPortRtt (s : State) : Word × State :=
  let v := if s.ports.windows.isEmpty then 0 else Config.portRtt s.tick
  (v.setWidth 64, nextTick { s with portrtt := v })

/-- Reads a control register of the acting hart (Table 14.4). -/
def readCreg (s : State) (r : Nat) : Word × State :=
  let h := s.hart
  let pure := fun (v : Word) => (v, s)
  if r = 0x00 then pure (h.vl.setWidth 64)
  else if r = 0x01 then pure (h.vstart.setWidth 64)
  else if r = 0x02 then pure h.mfc
  else if r = 0x03 then pure (h.scalebase.setWidth 64)
  else if r = 0x04 then pure (h.dirtymap.setWidth 64)
  else if r = 0x05 then pure (bitAt h.numst 0)
  else if r = 0x06 then pure (h.mvl.setWidth 64)
  else if r = 0x07 then pure (BitVec.ofNat 64 h.tiles.length)
  else if 0x10 ≤ r && r ≤ 0x15 then pure (lcRead h (r - 0x10))
  else if r = 0x16 then pure (lstg h)
  else if r = 0x20 then pure (h.turnpos.setWidth 64)
  else if r = 0x21 then pure h.turnst
  else if r = 0x22 then readPortRtt s
  else if r = 0x30 then pure h.tvec
  else if r = 0x31 then pure h.epc
  else if r = 0x32 then pure (h.ecause.setWidth 64)
  else if r = 0x33 then pure h.eval
  else if r = 0x34 then pure h.frecbase
  else if r = 0x35 then pure (tstatWord s s.cur)
  else if 0x40 ≤ r && r ≤ 0x45 then pure ((h.tileix.toList.getD (r - 0x40) 0).setWidth 64)
  else if r = 0x46 then pure (h.steph.setWidth 64)
  else if r = 0x47 then pure (coreAt s (curCore s)).bankrole
  else if r = 0x48 then pure (BitVec.ofNat 64 (curCore s + 256 * (s.cur % 2)))
  else if r = 0x49 then readCycle s
  else if r = 0x4A then readTime s
  else if r = 0x50 then pure (h.cprun.setWidth 64)
  else if r = 0x51 then pure (h.cpres.setWidth 64)
  else if r = 0x52 then pure (h.cpcvt.setWidth 64)
  else if r = 0x60 then pure h.winid
  else if r = 0x61 then pure h.winstart
  else if r = 0x62 then pure h.winend
  else if r = 0x63 then pure h.arrlo
  else if r = 0x64 then pure h.arrhi
  else if r = 0x65 then pure h.revision
  else if r = 0x70 then pure (capv s)
  else pure 0

/-- CRD (R208, R233). -/
def execCrd (d : XIdx) (r : BitVec 12) (s : State) : Result :=
  let v := readCreg s r.toNat
  nextX v.2 d v.1

/-! ## Writes -/

/-- How a write instruction acts on the bits. -/
inductive WriteKind where
  | write | set | clear
  deriving DecidableEq, Repr

/-- The new value of plain RW bits (R208). -/
def WriteKind.apply (k : WriteKind) (old v : Word) : Word :=
  match k with
  | .write => v
  | .set => old ||| v
  | .clear => old &&& ~~~v

/-- Access RO (Table 14.4). -/
def cregReadOnly (r : Nat) : Bool :=
  r == 0x00 || r == 0x06 || r == 0x07 || r == 0x22 || (0x40 ≤ r && r ≤ 0x46) || (0x48 ≤ r && r ≤ 0x4A) ||
  (0x60 ≤ r && r ≤ 0x65) || r == 0x70

/-- Registers written at kernel level only (R233). -/
def cregKernel (r : Nat) : Bool := (0x30 ≤ r && r ≤ 0x35) || r == 0x47 || r == 0x16

/-- A bank's role pair is 11 in a BANKROLE value. -/
def bankroleBad (v : Word) : Bool := (List.range 32).any fun b => bankRole v b == 3

/-- Banks whose role differs between two images. -/
def bankChanged (old new : Word) (b : Nat) : Bool := bankRole old b != bankRole new b

/-- A change of BANKROLE waits for copies and preloads of the core that use a bank whose role changes (R234). -/
def bankroleBusy (s : State) (core : Nat) (new : Word) : Bool :=
  let k := coreAt s core
  let changes := bankChanged k.bankrole new
  ((clusterAt s (clusterOfCore core)).copyq.any fun c => coreOfSlot c.slot == core && c.usesBank k changes) ||
    (slotsOfCore core).any fun j =>
      (slotAt s j).st == .staging && (slotAt s j).pre.any fun p =>
        changes (p.spline / 64) && bankRole k.bankrole (p.spline / 64) != 2

/-- A bank leaves the I1 role. -/
def losesI1 (old new : Word) : Bool := (List.range 32).any fun b => bankRole old b == 1 && bankRole new b != 1

/-- Granules of a core's I1 that are held there for an outbound entry which no step holds (R154). -/
def pinnedGrans (s : State) (core : Nat) : List Nat :=
  ((coreAt s core).i1.filter fun kc => kc.2.pin != 0 && !kc.2.ph &&
    ((o1Keys s core).contains kc.1 || (clusterAt s (clusterOfCore core)).o2.any fun x => x.1 == kc.1)).map (·.1)

/-- The entries that copies of a core's I1 are held for go home, so that the copies can leave (R154, R234; DEDUCED, log 15). -/
def freePinned (s : State) (core : Nat) : State :=
  let n := clusterOfCore core
  (pinnedGrans s core).foldl (fun s g =>
    let s := match tget (coreAt s core).o1 g with
      | some e => if e.held.isNone then drainO1 s core g else s
      | none => s
    drainO2 s n g) s

/-- A line of a table, whatever its copies are, that goes with its bank (DESIGN CHOICE, log 6). -/
def loseLine (tick : Nat) (t : Tbl Copy) : Tbl Copy :=
  match t[Config.victim tick % t.length]? with
  | some x => t.filter fun kc => kc.1 / 2 != x.1 / 2
  | none => t

/-- What is left of an I1 when banks leave it: the lines in them go, and which those are is not stated (DESIGN CHOICE, log 6);
the rest fits the banks that stay. -/
def i1After (tick : Nat) (c : CoreSt) : Tbl Copy :=
  if hasI1 c then
    let t := c.i1.filter fun kc => Config.keepsCopy tick (kc.1 / 2)
    forUp (lineCount t - i1Lines c) 0 (fun i t => loseLine (tick + i) t) t
  else []

/-- The copies of an I1 that stand for outbound entries and have no place in what is left of it. -/
def outOfI1 (old left : Tbl Copy) : List (Nat × Copy) :=
  old.filter fun kc => kc.2.pin != 0 && !kc.2.ph && (tget left kc.1).isNone

/-- A copy that was held in a core's I1 is held in the cluster I2, as where the core has no bank in the I1 role: in place of the
placeholder there, if one stands there (R117, R154, R234; DEDUCED, log 15). -/
def holdInI2 (core : Nat) (s : State) (kc : Nat × Copy) : State :=
  let n := clusterOfCore core
  let pin := if (tget (clusterAt s n).i2 kc.1).any (·.ph) then 1 else 2
  dropI1s (putI2 s n kc.1 ⟨kc.2.g, false, pin, tagI2 0 n, kc.2.seq⟩) n kc.1

/-- BANKROLE takes a new image: the banks that leave the I1 role are invalidated, a bank that changes role holds no scratchpad
line (R234, R268). What a retryable step's granules have placed there moves to the I2. -/
def setBankrole (s : State) (core : Nat) (new : Word) : State :=
  let c := coreAt s core
  let old := c.bankrole
  let d := { c with bankrole := new, sp := c.sp.filter fun x => !bankChanged old new (x.1 / 64) }
  let left := if losesI1 old new then i1After s.tick d else c.i1
  (outOfI1 c.i1 left).foldl (holdInI2 core) (nextTick (setCore s core { d with i1 := left }))

/-- TSTAT's writable bits: RW fields follow the write; a written 1 clears TIP, which `ccl` never changes (R208). -/
def writeTstat (t : TStat) (k : WriteKind) (v : Word) : TStat :=
  let rw := fun (old : Bool) (i : Nat) => (k.apply (bitAt old i) v).getLsbD i
  { t with
    tip := t.tip && (k == .clear || !v.getLsbD 8)
    nie := rw t.nie 6
    qie := rw t.qie 5
    tie := rw t.tie 4
    rsm := rw t.rsm 3
    pie := rw t.pie 2
    ie := rw t.ie 1
    plev := rw t.plev 0 }

/-- RNSOVF: a written 1 is ignored; `ccl`, or a `cwr` of 0, clears it (R208). -/
def writeNumst (old : Bool) (k : WriteKind) (v : Word) : Bool :=
  match k with
  | .write => old && v.getLsbD 0
  | .set => old
  | .clear => old && !v.getLsbD 0

/-- A MFC value that a write may not leave (R239). -/
def mfcBad (v : Word) : Bool := v.extractLsb' 10 2 == 3 || (v.extractLsb' 12 4).toNat ≥ 13

/-- Writes a control register of the acting hart; a trap writes nothing. -/
def writeCreg (r : Nat) (k : WriteKind) (v : Word) : M Unit := fun s =>
  let h := s.hart
  let ok := fun (h : Hart) => ((.ok () : Except Stop Unit), { s with hart := h })
  if cregReadOnly r || (cregKernel r && !h.tstat.lev) then raiseIllegal s
  else if r = 0x01 then ok { h with vstart := (k.apply (h.vstart.setWidth 64) v).setWidth 8 }
  else if r = 0x02 then
    let n := k.apply h.mfc v &&& 0xFFC0
    if mfcBad n then raiseOperand s else ok { h with mfc := n }
  else if r = 0x03 then ok { h with scalebase := (k.apply (h.scalebase.setWidth 64) v).setWidth 48 }
  else if r = 0x04 then ok { h with dirtymap := (k.apply (h.dirtymap.setWidth 64) v).setWidth 32 }
  else if r = 0x05 then ok { h with numst := writeNumst h.numst k v }
  else if 0x10 ≤ r && r ≤ 0x15 then
    ok { h with lc := h.lc.setIfInBounds (r - 0x10) (k.apply (h.lc.toList.getD (r - 0x10) 0) v) }
  else if r = 0x16 then ok (if k != .clear && v.getLsbD 32 then { h with frames := [] } else h)
  else if r = 0x20 then ok { h with turnpos := (k.apply (h.turnpos.setWidth 64) v).setWidth 33 }
  else if r = 0x21 then ok { h with turnst := k.apply h.turnst v &&& 0xE0FFFFFFFFFFFFFF }
  else if r = 0x30 then ok { h with tvec := k.apply h.tvec v &&& ~~~3 }
  else if r = 0x31 then ok { h with epc := k.apply h.epc v }
  else if r = 0x32 then ok { h with ecause := (k.apply (h.ecause.setWidth 64) v).setWidth 6 }
  else if r = 0x33 then ok { h with eval := k.apply h.eval v }
  else if r = 0x34 then ok { h with frecbase := k.apply h.frecbase v &&& ~~~63 }
  else if r = 0x35 then ok { h with tstat := writeTstat h.tstat k v }
  else if r = 0x47 then
    let n := k.apply (coreAt s (curCore s)).bankrole v
    if bankroleBad n then raiseOperand s
    else if bankroleBusy s (curCore s) n then holdM s
    else
      let s := if losesI1 (coreAt s (curCore s)).bankrole n then freePinned s (curCore s) else s
      if losesI1 (coreAt s (curCore s)).bankrole n && !(pinnedGrans s (curCore s)).isEmpty then holdM s
      else (.ok (), setBankrole s (curCore s) n)
  else if r = 0x50 then ok { h with cprun := (k.apply (h.cprun.setWidth 64) v).setWidth 13 }
  else if r = 0x51 then ok { h with cpres := (k.apply (h.cpres.setWidth 64) v).setWidth 48 }
  else if r = 0x52 then ok { h with cpcvt := (k.apply (h.cpcvt.setWidth 64) v &&& 0xFFFFE).setWidth 20 }
  else raiseIllegal s

/-- Writes a control register and returns its old value in xd, unless D = 0 (R208). -/
def updateCreg (d a : XIdx) (r : BitVec 12) (k : WriteKind) (s : State) : Result :=
  let old := (readCreg s r.toNat).1
  runM (do
    writeCreg r.toNat k (xreg s a)
    finishX d old) s

/-- CWR (R208, R233). -/
def execCwr (a : XIdx) (r : BitVec 12) (s : State) : Result := updateCreg 0 a r .write s
/-- CSET (R208, R233). -/
def execCset (d a : XIdx) (r : BitVec 12) (s : State) : Result := updateCreg d a r .set s
/-- CCL (R208, R233). -/
def execCcl (d a : XIdx) (r : BitVec 12) (s : State) : Result := updateCreg d a r .clear s

end Sys2Proof.Machine
end

