-- ==== Sys2Proof/Machine/Control.lean ====
section
/-! DEFINITION. Branches, jumps, the strip-mine branch, the loop frame and the system instructions (R220-R232). -/

namespace Sys2Proof.Machine

/-! ## Branches and jumps -/

/-- A branch target: PC + 4·sext(OFF16) (R220). -/
def branchTarget (s : State) (off : BitVec 16) : Word := s.hart.pc + off.signExtend 64 <<< 2

/-- Branches when taken, else the pc advances (R220, R227). -/
def branch (taken : Bool) (off : BitVec 16) (s : State) : Result :=
  if taken then runM (jumpM (branchTarget s off)) s else .next (advance s)

/-- BEQ (R220). -/
def execBeq (a b : XIdx) (off : BitVec 16) (s : State) : Result := branch (xreg s a == xreg s b) off s
/-- BNE (R220). -/
def execBne (a b : XIdx) (off : BitVec 16) (s : State) : Result := branch (xreg s a != xreg s b) off s
/-- BLT (R220). -/
def execBlt (a b : XIdx) (off : BitVec 16) (s : State) : Result := branch ((xreg s a).slt (xreg s b)) off s
/-- BGE (R220). -/
def execBge (a b : XIdx) (off : BitVec 16) (s : State) : Result := branch (!(xreg s a).slt (xreg s b)) off s
/-- BLTU (R220). -/
def execBltu (a b : XIdx) (off : BitVec 16) (s : State) : Result := branch ((xreg s a).ult (xreg s b)) off s
/-- BGEU (R220). -/
def execBgeu (a b : XIdx) (off : BitVec 16) (s : State) : Result := branch (!(xreg s a).ult (xreg s b)) off s

/-- Jumps to a target and links (R221); a loop-frame error leaves xd as it was (R224). -/
def jumpLink (d : XIdx) (t : Word) (s : State) : Result :=
  let link := s.hart.pc + 4
  match s.hart.jump t with
  | some h => .next { s with hart := h.setX d link }
  | none => .next (takeTrap s (TrapInfo.plain 0x12 5))

/-- JAL (R221). -/
def execJal (d : XIdx) (off : BitVec 21) (s : State) : Result := jumpLink d (s.hart.pc + off.signExtend 64 <<< 2) s

/-- JALR: a misaligned target traps before xd is written (R221). -/
def execJalr (d a : XIdx) (off : BitVec 16) (s : State) : Result :=
  let t := xreg s a + off.signExtend 64
  if t.extractLsb' 0 2 != 0 then .next (takeTrap s (TrapInfo.plain 0x03 t)) else jumpLink d t s

/-! ## The strip-mine branch (R222) -/

/-- The no-progress trap of a `bstrip` (R222, Table 23.10). -/
def noProgress (s : State) : TrapInfo :=
  { TrapInfo.plain 0x09 (s.hart.vl.setWidth 64) with addr := s.hart.pc, words := [s.hart.vl.setWidth 64] }

/-- The monitor after a pass with a count above 0: `none` when the pass is the second without a fall (R222). -/
def monitorPass (mon : List MonEntry) (pc v : Word) : Option (List MonEntry) :=
  let rest := mon.filter fun e => e.addr != pc
  match mon.find? fun e => e.addr == pc with
  | none => some ((⟨pc, v, 0⟩ :: rest).take 4)
  | some e =>
    let miss := if v.ult e.prev then 0 else e.miss + 1
    if miss = 2 then none else some (⟨pc, v, miss⟩ :: rest)

/-- BSTRIP (R222). -/
def execBstrip (a : XIdx) (off : BitVec 16) (s : State) : Result :=
  let v := xreg s a
  let pc := s.hart.pc
  let without := s.hart.mon.filter fun e => e.addr != pc
  if v = 0 then .next (advance { s with hart := { s.hart with mon := without } })
  else match monitorPass s.hart.mon pc v with
    | none =>
      -- while its record cannot be written, the trap is not taken and the entry stays
      let mon := if (recordLeg s).isSome then s.hart.mon else without
      .next (takeTrap { s with hart := { s.hart with mon := mon } } (noProgress s))
    | some mon =>
      match s.hart.jump (branchTarget s off) with
      | some h => .next { s with hart := { h with mon := mon } }
      | none => .next (takeTrap s (TrapInfo.plain 0x12 5))

/-! ## The loop frame (R223-R225) -/

/-- The loop-frame error of a `loop`: the lowest code that holds (R207, R224). -/
def loopError (h : Hart) (level : Nat) (start : Word) (len : Nat) (flags : Word) : Option Nat :=
  if h.frames.any fun f => f.level ≥ level then some 1
  else if h.frames.any fun f => !(f.holds start && f.holds (start + BitVec.ofNat 64 (4 * len - 4))) then some 2
  else if flags >>> (2 * len) != 0 then some 3
  else if h.tstat.lev then some 4
  else none

/-- The count of a `loop`: the register, or the pending count of LCn when the A field is 0 (R223, R228). -/
def loopCount (s : State) (a : XIdx) (level : Nat) : Word :=
  if a = 0 then s.hart.lc.toList.getD level 0 else xreg s a

/-- LOOP (R223-R225). -/
def execLoop (a b : XIdx) (level : BitVec 3) (lenM1 : BitVec 4) (dinc ainc binc : BitVec 3) (s : State) : Result :=
  let n := level.toNat
  let len := lenM1.toNat + 1
  let start := s.hart.pc + 4
  let flags := xreg s b
  match loopError s.hart n start len flags with
  | some code => .next (takeTrap s (TrapInfo.plain 0x12 (BitVec.ofNat 64 code)))
  | none =>
    let count := loopCount s a n
    if count = 0 then .next { s with hart := s.hart.goOn (s.hart.pc + BitVec.ofNat 64 (4 * len)) }
    else
      let f : Frame := ⟨n, start, len, count.toNat, 0, (flags &&& fieldMaskLow (2 * len)).toNat, dinc.toNat, ainc.toNat,
        binc.toNat⟩
      .next { s with hart := { s.hart with
        frames := f :: s.hart.frames, pc := start, resume := false, mid := false, waits := false, phase := 0 } }
where
  fieldMaskLow (n : Nat) : Word := BitVec.allOnes 64 >>> (64 - n)

/-! ## System instructions (R231, R232) -/

/-- TRAP (R232). -/
def execTrap (code : BitVec 8) (s : State) : Result := .next (takeTrap s (TrapInfo.plain 0x0D (code.setWidth 64)))

/-- BREAK (R232). -/
def execBrk (s : State) : Result := .next (takeTrap s (TrapInfo.plain 0x0E 0))

/-- ERET: illegal at user level (R232, R345). -/
def execEret (s : State) : Result :=
  if kernel s then .next { s with hart := s.hart.leave } else runM raiseIllegal s

/-- WAIT: completes once an interrupt is pending, enabled or not (R232). -/
def execWait (s : State) : Result :=
  if pendingSources s s.cur != 0 then .next (advance s)
  else waitHere { s with hart := { s.hart with phase := 5 } }

/-- HALT: ends the step with FAULT, cause 0x0D and FREC 0 (R232). -/
def execHalt (s : State) : Result := .next (endStep s s.hart.steph.toNat 1 0x0D 0)

end Sys2Proof.Machine
end

