-- ==== Sys2Proof/Machine/Launches.lean ====
section
/-! DEFINITION. Launches and the steps they queue: launch blocks and step descriptors (R66, R90, R92), the walker (R67),
dependences (R68, R333), readiness (R69), priorities and aging (R75, R77), and `tspawn` and `tdep` (R332, R333). -/

namespace Sys2Proof.Machine

/-! ## The dispatcher's reads (R90, R294, R424) -/

/-- Translation in the address space of a top-level table by a walker outside the clusters, whose walks are not cached. -/
def xlateTable (s : State) (w : Walker) (table : Nat) (va : Word) (a : Acc) : Xl :=
  if va.extractLsb' 48 16 != 0 then .page 0x04 3 0
  else match walk s w va 3 1 table with
    | .leaf pte level => if moving s table va level then .wait none else leafAnswer s va a pte level
    | .notPresent level => .page 0x04 0 level
    | .bad level => .page 0x04 3 level
    | .unbound level => .page 0x05 1 level
    | .fault t => .walk t
    | .noWay l => .wait (some l)

/-- The level of the leaf that a table has for an address; 0 where it has none. -/
def tableLevel (s : State) (w : Walker) (table : Nat) (va : Word) : Nat :=
  match walk s w va 3 1 table with
  | .leaf _ level => level
  | .notPresent _ => 0
  | .bad _ => 0
  | .unbound _ => 0
  | .fault _ => 0
  | .noWay _ => 0

/-- A granule read by the dispatcher: relation 3, home I3 slice then home junction, checked; nothing is filled. -/
def dispGranule (table l : Nat) (va : Word) : M Granule := fun s =>
  match xlateTable s .dispatcher table va .read with
  | .ok pa _ =>
    if windowOf (pa / 64) != 0 then readRemote .far none va (pa / 64) s
    else consumeM .far none none va (pa / 64) (peekI3 s (pa / 64)) s
  | .page c k w => (.error (.trap (pageTrap false [⟨c, k, w, 0, va⟩])), s)
  | .walk t => (.error (.trap t), s)
  | .host w =>
    if pageRefusedAt s table va w then
      (.error (.trap (pageTrap false [⟨0x06, 2, w, 0, va⟩])), takeRefusalAt s table va w)
    else (.error .hold, requestPageAt s l table va w)
  | .wait leg => (.error .hold, reportLeg s leg)

/-- `n` dwords from a multiple of 8, read by the dispatcher. -/
def dispWords (table l : Nat) (va : Word) : Nat → M (List Word)
  | 0 => fun s => (.ok [], s)
  | n + 1 => fun s =>
    match dispWords table l va n s with
    | (.error e, s) => (.error e, s)
    | (.ok ws, s) =>
      let a := va + BitVec.ofNat 64 (8 * n)
      match dispGranule table l a s with
      | (.error e, s) => (.error e, s)
      | (.ok g, s) => (.ok (ws ++ [BitVec.ofNat 64 (granuleBytes g.data (a.toNat % 64) 8)]), s)

/-! ## Launch blocks (Table 04.2) -/

/-- A dword of a list. -/
def wordAt (ws : List Word) (i : Nat) : Word := ws.getD i 0

def blkStanding (b : List Word) : Bool := (wordAt b 0).getLsbD 51
def blkPrio (b : List Word) : Nat := bits (wordAt b 0) 48 3
def blkDesc (b : List Word) : Word := (wordAt b 0) &&& 0xFFFFFFFFFFFF
def blkBudget (b : List Word) : Nat := bits (wordAt b 3) 32 32
def blkAfter (b : List Word) : Nat := bits (wordAt b 4) 32 32
def blkTgm1 (b : List Word) : Nat := bits (wordAt b 4) 16 6
def blkGsize (b : List Word) : Nat := bits (wordAt b 4) 8 3
def blkLevels (b : List Word) : Nat := bits (wordAt b 4) 0 3
/-- NM1 of walker level `k`. -/
def blkNm1 (b : List Word) (k : Nat) : Nat := if k < 4 then bits (wordAt b 2) (16 * k) 16 else bits (wordAt b 3) (16 * (k - 4)) 16

/-- Steps of a launch block (R67). -/
def blkTotal (b : List Word) : Nat := (List.range (blkLevels b)).foldl (fun t k => t * (blkNm1 b k + 1)) 1

/-- A launch block is refused whole (R66). -/
def blkBad (b : List Word) : Bool :=
  b.length != 8 || bits (wordAt b 0) 52 12 != 0 || bits (wordAt b 1) 48 16 != 0 || bits (wordAt b 4) 22 10 != 0 ||
  bits (wordAt b 4) 11 5 != 0 || bits (wordAt b 4) 3 5 != 0 || wordAt b 5 != 0 || wordAt b 6 != 0 || wordAt b 7 != 0 ||
  blkLevels b < 1 || blkLevels b > 6 || blkGsize b < 1 || blkGsize b > 4 ||
  (List.range 6).any (fun k => blkLevels b ≤ k && blkNm1 b k != 0) ||
  (blkDesc b).toNat % 128 != 0 || bits (wordAt b 1) 0 48 % 64 != 0 || blkTotal b ≥ 2 ^ 24

/-! ## Step descriptors (Tables 04.8, 04.9) -/

def descNin (d : List Word) : Nat := bits (wordAt d 1) 16 4
def descNout (d : List Word) : Nat := bits (wordAt d 1) 20 4
def descPrio (d : List Word) : Nat := bits (wordAt d 1) 12 4
def descPub (d : List Word) : Nat := bits (wordAt d 1) 4 3
def descRetry (d : List Word) : Nat := bits (wordAt d 1) 0 3
def descBudget (d : List Word) : Nat := bits (wordAt d 2) 0 32
def descPipes (d : List Word) : Word := wordAt d 3
def descNpipe (d : List Word) : Nat := bits (wordAt d 4) 0 4

/-- Header fields outside their ranges. -/
def descHeaderBad (d : List Word) : Bool :=
  bits (wordAt d 0) 48 16 != 0 || bits (wordAt d 1) 24 40 != 0 || bits (wordAt d 1) 7 5 != 0 || (wordAt d 1).getLsbD 3 ||
  bits (wordAt d 2) 32 32 != 0 || bits (wordAt d 3) 48 16 != 0 || bits (wordAt d 4) 4 60 != 0 || wordAt d 5 != 0 ||
  wordAt d 6 != 0 || wordAt d 7 != 0 || descNin d > 8 || descNout d > 8 || (8 ≤ descPrio d && descPrio d != 15) ||
  descPub d < 1 || descPub d > 4 || (descPipes d).toNat % 16 != 0

/-- The eight dwords of region entry `e`. -/
def entryAt (d : List Word) (e : Nat) : List Word := (d.drop (8 + 8 * e)).take 8
def entryLen (e : List Word) : Nat := bits (wordAt e 1) 0 32
def entrySpoff (e : List Word) : Nat := bits (wordAt e 1) 32 32

/-- A region entry that breaks R58, or an `out` entry with an offset. -/
def entryBad (e : List Word) (isOut : Bool) : Bool :=
  bits (wordAt e 0) 48 16 != 0 || (wordAt e 0).toNat % 128 != 0 || entryLen e % 128 != 0 || entryLen e < 128 ||
  entryLen e > 262144 || entrySpoff e % 128 != 0 || entrySpoff e + entryLen e > 262144 ||
  (List.range 6).any (fun k => (wordAt e (2 + k)).toNat % 128 != 0) || (isOut && entrySpoff e != 0)

/-- Two `in` entries share scratchpad bytes (R58). -/
def entriesMeet (a b : List Word) : Bool :=
  entrySpoff a < entrySpoff b + entryLen b && entrySpoff b < entrySpoff a + entryLen a

def descIns (d : List Word) : List (List Word) := (List.range (descNin d)).map (entryAt d)
def descOuts (d : List Word) : List (List Word) := (List.range (descNout d)).map fun i => entryAt d (descNin d + i)

def descEntriesBad (d : List Word) : Bool :=
  (descIns d).any (entryBad · false) || (descOuts d).any (entryBad · true) ||
  (List.range (descNin d)).any fun i => (List.range i).any fun j => entriesMeet (entryAt d i) (entryAt d j)

/-- Where a region of a step starts (R58). -/
def regionBase (e : List Word) (tileix : List Nat) : Word :=
  (List.range 6).foldl (fun a k => a + BitVec.ofNat 64 (tileix.getD k 0) * wordAt e (2 + k)) (wordAt e 0)

/-- The 64 KiB pages of a region, each by an address in it. -/
def regionPages (base : Word) (len : Nat) : List Word :=
  (List.range ((base.toNat % 65536 + len + 65535) / 65536)).map fun i =>
    if i = 0 then base else base + BitVec.ofNat 64 (65536 * i - base.toNat % 65536)

/-! ## Acceptance (R66, R67, R90, R92) -/

/-- What comes of a launch block. -/
inductive Accept where
  | id (n : Nat)
  | refused
  /-- 255 launches are live (R67). -/
  | full
  deriving DecidableEq, Repr

/-- The id after one, counting to 255 and then from 1, that no live launch has (R67). -/
def freeId (s : State) : Nat → Nat → Nat
  | 0, n => n
  | fuel + 1, n =>
    let m := if n ≥ 255 then 1 else n + 1
    if (findLaunch s m).isSome then freeId s fuel m else m

/-- The handle of a launch (R67). -/
def launchHandle (id : Nat) : Nat := id * 2 ^ 24 + 0xFFFFFF

/-- A handle names a live launch. -/
def launchOfHandle (s : State) (h : Nat) : Option LaunchRec := if h % 2 ^ 24 = 0xFFFFFF then findLaunch s (h / 2 ^ 24) else none

/-- A handle names a live launch that has yet to complete: its record does not wait for the ring (R68, R85). -/
def launchOpen (s : State) (h : Nat) : Bool :=
  (launchOfHandle s h).isSome && !s.disp.records.any fun p => p.final && p.handle == h

/-- The descriptor, its entries and the pipe table, read once and tested (R90). Reserved bits of a pipe table entry are not tested,
and a descriptor with NPIPE above 0 and PIPES = 0 has its pipe table read at address 0. (DESIGN CHOICE, log 26.) -/
def readDesc (table l : Nat) (blk : List Word) : M (Option (List Word × List Word)) := fun s =>
  match dispWords table l (blkDesc blk) 8 s with
  | (.error e, s) => (.error e, s)
  | (.ok hd, s) =>
    if descHeaderBad hd then (.ok none, s)
    else match dispWords table l (blkDesc blk + 64) (8 * (descNin hd + descNout hd)) s with
      | (.error e, s) => (.error e, s)
      | (.ok es, s) =>
        let d := hd ++ es
        if descEntriesBad d then (.ok none, s)
        else match dispWords table l (descPipes d) (2 * descNpipe d) s with
          | (.error e, s) => (.error e, s)
          | (.ok ps, s) => (.ok (some (d, ps)), s)

/-- Accepts a launch block, refuses it whole, or waits for a host-owned page of its descriptor. A fault in the read refuses
the launch; a check fault is scored too (R90). -/
def acceptLaunch (blk : List Word) (table : Nat) (spawned : Bool) (msg : Option HostMsg) : M Accept := fun s =>
  if blkBad blk || (spawned && blkStanding blk) then (.ok .refused, s)
  else if s.disp.launches.length ≥ 255 then (.ok .full, s)
  else if blkTgm1 blk > 0 && !teamFits s (blkGsize blk) (blkTgm1 blk) then (.ok .refused, s)
  else
    let id := freeId s 255 s.disp.lastId
    -- the pages belong to the address space of the new launch, which for `tspawn` is the spawning step's (R332)
    match readDesc table (if spawned then curLaunch s else id) blk s with
    | (.error .hold, s) => (.error .hold, s)
    | (.error (.trap t), s) =>
      (.ok .refused, match t.score with | some (prod, path) => scoreCheck s none prod path | none => s)
    | (.ok none, s) => (.ok .refused, s)
    | (.ok (some (d, ps)), s) =>
      let (now, s) := readTime s
      let after := blkAfter blk
      let l : LaunchRec := {
        id := id, blk := blk, desc := d, pipes := ps, table := table
        standing := blkStanding blk, total := blkTotal blk
        emitted := 0, completed := 0, firings := 0
        deferred := if launchOpen s after then [after] else []
        ended := false, accepted := now, cycles := 0, energy := 0, msg := msg, outwm := 0 }
      (.ok (.id id), { s with disp := { s.disp with launches := s.disp.launches ++ [l], lastId := id } })

/-! ## Steps -/

/-- The tile indices of an ordinal, level 0 fastest (R67). -/
def tileIndexes (b : List Word) : Nat → Nat → List Nat
  | 0, _ => []
  | k + 1, n =>
    -- level 6 - (k + 1) … : lowest level first
    let level := 5 - k
    let c := if level < blkLevels b then blkNm1 b level + 1 else 1
    (n % c) :: tileIndexes b k (n / c)

/-- Every dependence of a step: its own edges, and what its launch's give it (R68, R333). -/
def allEdges (s : State) : List (Nat × Nat) := s.disp.edges ++ s.disp.shared

/-- Edges whose waiter is a step. -/
def edgesOf (s : State) (handle : Nat) : Nat := ((allEdges s).filter fun e => e.1 == handle).length

/-- The pages of a step's `in` regions, each by an address in it. -/
def inPages (l : LaunchRec) (tileix : List Nat) : List Word :=
  (descIns l.desc).flatMap fun e => regionPages (regionBase e tileix) (entryLen e)

/-- Every page of a step's `in` regions is mapped, readable and device-owned (R69). -/
def residentPages (s : State) (l : LaunchRec) (tileix : List Nat) : Bool :=
  (inPages l tileix).all fun va =>
    match xlateTable s .dispatcher l.table va .read with
    | .ok _ _ => true
    | .page _ _ _ => false
    | .host _ => false
    | .walk _ => false
    | .wait _ => false

/-- The table entry that fails the walker's check in a residency test, if one does (R353). -/
def residencyFault (s : State) (l : LaunchRec) (tileix : List Nat) : Option TrapInfo :=
  (inPages l tileix).findSome? fun va =>
    match xlateTable s .dispatcher l.table va .read with
    | .walk t => some t
    | .ok _ _ => none
    | .page _ _ _ => none
    | .host _ => none
    | .wait _ => none

/-- A table entry that fails its check outside any hart is reported and scored (R168, R170). -/
def reportWalk (s : State) (t : Option TrapInfo) : State :=
  match t with
  | some t => reportFault s none t.addr.toNat t
  | none => s

/-- A residency request to firmware (R69). -/
def askResidency (s : State) (handle : Nat) : State := report s [0x69, BitVec.ofNat 64 handle]

/-- A new step of a launch. -/
def newStep (l : LaunchRec) (handle : Nat) (tileix : List Nat) (deps age : Nat) (resident : Bool) (prio : Nat)
    (win : Option WinCtx) : StepRec where
  handle := handle
  launch := l.id
  tileix := tileix
  deps := deps
  resident := resident
  asked := !resident
  ownPrio := prio
  age := age
  bseq := 0
  place := .queued
  stopping := none
  recs := []
  retries := descRetry l.desc
  used := 0
  nr := false
  ovr := false
  chkx := 0
  budget := if descBudget l.desc = 0 then blkBudget l.blk else descBudget l.desc
  timer := 0
  tip := false
  win := win
  saved := []
  cores := []
  cycles := 0
  energy := 0
  tstart := 0
  ran := false
  outcome := none

/-- The own priority a launch gives its steps (R90). -/
def launchPrio (l : LaunchRec) : Nat := if descPrio l.desc = 15 then blkPrio l.blk else descPrio l.desc

/-! ## Priorities and the bind queues (R75-R77) -/

/-- A step is named by a dependee handle: itself, or its launch. -/
def namedBy (r : StepRec) (dependee : Nat) : Bool := dependee == r.handle || dependee == launchHandle r.launch

/-- The effective priority of a step; `fuel` bounds the chain of waiters (R75). -/
def effPrio (s : State) : Nat → StepRec → Nat
  | 0, r => r.ownPrio
  | fuel + 1, r =>
    ((allEdges s).filter fun e => namedBy r e.2).foldl (fun p e =>
      match findStep s e.1 with
      | some w => max p (effPrio s fuel w)
      | none => p) r.ownPrio

def priority (s : State) (r : StepRec) : Nat := effPrio s s.disp.steps.length r

/-- A step is ready (R69, R78). -/
def ready (r : StepRec) : Bool := r.deps == 0 && r.resident && !r.ovr

def rcdGmask (r : BindRec) : Nat := bits (wordAt r 7) 32 4
/-- The cores of a cluster that GMASK names. -/
def gangCores (n gmask : Nat) : List Nat := (coresOf n).filter fun c => gmask / 2 ^ (c % 4) % 2 == 1

/-- Harts of the record's step (R65). -/
def rcdMembers (r : BindRec) : Nat :=
  let g := (gangCores 0 (rcdGmask r)).length
  if rcdTeam r = 0 then g else g * (rcdTgm1 r + 1)

/-- The members a bound step has in all. -/
def stepMembers (r : StepRec) : Nat := match r.recs with | (_, x) :: _ => rcdMembers x | [] => 0
/-- Every hart of a running step has started. -/
def allStarted (s : State) (r : StepRec) : Bool := stepMembers r ≤ (slotsOfStep s r.handle).length
/-- Every member's record is accepted. -/
def stepComplete (r : StepRec) : Bool := r.recs.length != 0 && r.recs.length == stepMembers r

/-- The step is a team's (R76). -/
def ofTeam (r : StepRec) : Bool := r.recs.any fun x => rcdTeam x.2 != 0

/-- The cores of a bound step's members, in ascending order: those of its gang, or those of its team's records. -/
def memberCores (r : StepRec) : List Nat :=
  match r.recs with
  | (c, x) :: _ => if rcdTeam x = 0 then gangCores (clusterOfCore c) (rcdGmask x) else r.recs.map (·.1)
  | [] => []

/-- What a switch-out has saved of the member on a core (R363). -/
def savedFor (r : StepRec) (core : Nat) : Option SavedHart := (r.saved[(memberCores r).idxOf core]?).getD none

/-- A member of a running gang is still to be bound: outside a team its harts start one by one (R72). -/
def startsLater (r : StepRec) : Bool :=
  r.place == .running && r.stopping.isNone && !ofTeam r && r.recs.length < stepMembers r

/-- One ready record goes before another in a bind queue: by effective priority, then by age (R75); of two teams, the one whose
last record was accepted first (R76). (DEDUCED, log 26.) -/
def goesBefore (s : State) (a b : StepRec) : Bool :=
  let pa := priority s a
  let pb := priority s b
  if pa != pb then pb < pa
  else if ofTeam a && ofTeam b then
    if stepComplete a != stepComplete b then stepComplete a else a.bseq < b.bseq
  else a.age < b.age

/-- The record of a core's bind queue that comes first among its ready ones, no place being held. -/
def firstReady (s : State) (core : Nat) : Option StepRec :=
  (((coreAt s core).bindq.filterMap (findStep s)).filter ready).foldl
    (fun best r => match best with | some b => if goesBefore s r b then some r else best | none => some r) none

/-- The ready team record that holds its place at the head of a core's bind queue (R76). -/
def holdsFront (s : State) (core : Nat) : Option StepRec :=
  match tget s.disp.fronts core with
  | some h => if (coreAt s core).bindq.contains h then (findStep s h).filter ready else none
  | none => none

/-- The head of a core's bind queue: a team that holds its place there goes before every record of equal or lower effective
priority (R76). -/
def headOf (s : State) (core : Nat) : Option StepRec :=
  match holdsFront s core, firstReady s core with
  | some t, some b => if priority s t < priority s b then some b else some t
  | none, b => b
  | some t, none => some t

/-- Before some record becomes ready, or more urgent, the teams whose records are all there and stand at the heads of the bind
queues hold their places (R76). -/
def latchFronts (s : State) : State :=
  { s with disp := { s.disp with fronts := s.cores.filterMap fun x =>
      ((headOf s x.1).filter fun r => ofTeam r && stepComplete r).map fun r => (x.1, r.handle) } }

/-- Queues a step: its launch's edges apply to it, and its readiness is tested (R68, R69, R333). It waits for others from then on,
which raises their priority (R75, R76). A firing starts with what its window gives it alone (R378, R381). -/
def queueStep (s : State) (l : LaunchRec) (ordinal : Nat) (tileix : List Nat) (prio : Nat) (win : Option WinCtx) : State :=
  let s := latchFronts s
  let handle := l.id * 2 ^ 24 + ordinal
  let mine := if win.isSome then [] else l.deferred.map fun d => (handle, d)
  let s := { s with disp := { s.disp with shared := s.disp.shared ++ mine } }
  let res := residentPages s l tileix
  let r := newStep l handle tileix (edgesOf s handle) s.disp.seq res prio win
  let bad := residencyFault s l tileix
  let s := { s with disp := { s.disp with steps := s.disp.steps ++ [r], seq := s.disp.seq + 1 } }
  if res then s else askResidency (reportWalk s bad) handle

/-! ## Readiness (R69) -/

/-- A step's readiness is tested for residency once its last dependence is satisfied; pages that have left meanwhile are asked
for again (R69). -/
def testResidency (s : State) (handle : Nat) : State :=
  match findStep s handle with
  | some r =>
    match findLaunch s r.launch with
    | some l =>
      let res := residentPages s l r.tileix
      let bad := residencyFault s l r.tileix
      let s := reportWalk (setStep s { r with resident := res, asked := !res }) bad
      if res || r.asked then s else askResidency s handle
    | none => s
  | none => s

/-- Unbound steps in the step queues (R67). -/
def unboundSteps (s : State) : Nat := (s.disp.steps.filter fun r => r.place == .queued).length

/-- WALKER_EMIT (R67). -/
def execWalkerEmit (launchId : Nat) (s : State) : Result :=
  match findLaunch s launchId with
  | some l =>
    if l.standing || l.emitted ≥ l.total || unboundSteps s ≥ 4096 then .next s
    else
      let s := setLaunch s { l with emitted := l.emitted + 1 }
      .next (queueStep s l l.emitted (tileIndexes l.blk 6 l.emitted) (launchPrio l) none)
  | none => .next s

/-- RESIDENCY_GRANTED: firmware has made the pages resident; the dispatcher tests by translation (R69). -/
def execResidencyGranted (handle : Nat) (s : State) : Result :=
  match findStep s handle with
  | some r =>
    match findLaunch s r.launch with
    | some l =>
      if (r.place = .queued || r.place = .bound) && !r.resident && residentPages s l r.tileix then
        .next (setStep (latchFronts s) { r with resident := true, asked := false })
      else .next (reportWalk s (residencyFault s l r.tileix))
    | none => .next s
  | none => .next s

/-- RESIDENCY_FAILED: the step completes without running (R69). -/
def execResidencyFailed (handle cause : Nat) (s : State) : Result :=
  match findStep s handle with
  | some r =>
    if (r.place = .queued || r.place = .bound) && r.asked && (cause = 4 || cause = 5 || cause = 6) then
      .next (completeStep (unbindStep s handle) r 1 cause 0)
    else .next s
  | none => .next s

/-- AGING: a ready step that has waited AGEPERIOD gains one level of own priority (R77). -/
def execAging (handle : Nat) (s : State) : Result :=
  match findStep s handle with
  | some r =>
    let staged := s.slots.any fun kx => kx.2.st != .empty && slotHandle kx.2 == handle
    if s.disp.ageperiod != 0 && ready r && (r.place == .queued || r.place == .bound) && !staged && r.ownPrio < 7 then
      .next (setStep (latchFronts s) { r with ownPrio := r.ownPrio + 1 })
    else .next s
  | none => .next s

/-! ## TSPAWN (R332) -/

/-- The table of the acting hart's launch. -/
def curTable (s : State) : Nat := tableOf s (curLaunch s)

/-- The launch block at an address, read on behalf of the acting hart. -/
def spawnBlock (va : Word) : M (List Word) := fun s =>
  match translateM va .read s with
  | (.error e, s) => (.error e, s)
  | (.ok (pa, _), s) =>
    let r : Except Stop Granule × State :=
      if windowOf (pa / 64) != 0 then readRemote .far none va (pa / 64) s
      else consumeM .far none none va (pa / 64) (peekI3 s (pa / 64)) s
    match r with
    | (.error e, s) => (.error e, s)
    | (.ok g, s) => (.ok ((List.range 8).map fun i => BitVec.ofNat 64 (granuleBytes g.data (8 * i) 8)), s)

/-- TSPAWN (R332). -/
def execTspawn (d a : XIdx) (s : State) : Result :=
  let va := xreg s a
  runM (do
    alignedM va 64
    let blk ← spawnBlock va
    setNrM
    let s ← getS
    let x ← waitingM (acceptLaunch blk (curTable s) true none)
    match x with
    | .id n => do
      modS fun s => report s [0x332, BitVec.ofNat 64 (launchHandle n)]
      finishX d (BitVec.ofNat 64 (launchHandle n))
    | .refused => finishX d 0
    | .full => finishX d 0) s

/-! ## TDEP (R333) -/

/-- A step of a launch has been staged, run or completed. -/
def stepStarted (s : State) (r : StepRec) : Bool :=
  r.place == .running || r.place == .retiring || s.slots.any fun kx => kx.2.st != .empty && slotHandle kx.2 == r.handle

/-- The handle names a step of a live launch. -/
def stepHandleOf (s : State) (h : Nat) : Option LaunchRec := if h % 2 ^ 24 = 0xFFFFFF then none else findLaunch s (h / 2 ^ 24)

/-- The steps that a launch has queued so far. -/
def LaunchRec.queuedSteps (l : LaunchRec) : Nat := if l.standing then min l.firings (2 ^ 24 - 1) else l.emitted

/-- Code 3: the waiter is not live: neither a live launch nor a step of one that has been queued or is still to come. -/
def waiterDead (s : State) (w : Nat) : Bool :=
  (launchOfHandle s w).isNone && (findStep s w).isNone &&
    (match stepHandleOf s w with
    | some l => w % 2 ^ 24 ≥ if l.standing then l.queuedSteps else l.total
    | none => true)

/-- Code 2: the waiter is a step already staged, running or complete, or a launch with such a step. -/
def waiterStarted (s : State) (w : Nat) : Bool :=
  match launchOfHandle s w with
  | some l => l.completed != 0 || s.disp.steps.any fun r => r.launch == l.id && stepStarted s r
  | none =>
    match findStep s w with
    | some r => stepStarted s r
    | none => match stepHandleOf s w with
      | some l => w % 2 ^ 24 < l.queuedSteps
      | none => false

/-- The dependee is still to complete. -/
def dependeeOpen (s : State) (d : Nat) : Bool :=
  launchOpen s d || (findStep s d).isSome ||
    (match stepHandleOf s d with
    | some l => !l.standing && l.emitted ≤ d % 2 ^ 24 && d % 2 ^ 24 < l.total
    | none => false)

/-- What a handle waits on directly: its edges and its launch's deferred ones; for a launch, those of all its steps. -/
def waitsOn (s : State) (h : Nat) : List Nat :=
  match launchOfHandle s h with
  | some l => l.deferred ++ (((allEdges s).filter fun e => e.1 / 2 ^ 24 == l.id).map (·.2))
  | none =>
    let mine := ((allEdges s).filter fun e => e.1 == h).map (·.2)
    if (findStep s h).isSome then mine
    else match stepHandleOf s h with
      | some l => mine ++ l.deferred
      | none => mine

/-- Completion of `h` cannot come before that of `w`: they are one, or one is a step of the other. -/
def meets (w h : Nat) : Bool := w == h || (h % 2 ^ 24 == 0xFFFFFF && w / 2 ^ 24 == h / 2 ^ 24) ||
  (w % 2 ^ 24 == 0xFFFFFF && w / 2 ^ 24 == h / 2 ^ 24)

/-- A chain of waits from `h` reaches `w`. -/
def reaches (s : State) (w : Nat) : Nat → Nat → Bool
  | 0, h => meets w h
  | fuel + 1, h => meets w h || (waitsOn s h).any (reaches s w fuel)

/-- Code 1: the edge would close a cycle. -/
def closesCycle (s : State) (w d : Nat) : Bool := reaches s w (s.disp.edges.length + s.disp.launches.length) d

/-- The steps of a waiter that are queued. -/
def waiters (s : State) (w : Nat) : List StepRec :=
  s.disp.steps.filter fun r => r.handle == w || launchHandle r.launch == w

/-- Edges in use: an edge of a launch is one, whatever it applies to (R333), and so is that of its block's AFTER.
(DESIGN CHOICE, log 26.) -/
def edgeCount (s : State) : Nat := s.disp.edges.length + s.disp.launches.foldl (fun t l => t + l.deferred.length) 0

/-- Steps of a launch are still to be queued that its edges will apply to; a firing starts with none of them (R378). -/
def LaunchRec.later (l : LaunchRec) : Bool := !l.standing && l.emitted < l.total

/-- The dependence count that a step of a handle will start with. -/
def laterDeps (s : State) (h : Nat) : Nat :=
  edgesOf s h + match findLaunch s (h / 2 ^ 24) with | some l => l.deferred.length | none => 0

/-- A waiting step's dependence count is full (code 4): one that is queued, or one still to come. -/
def depsFull (s : State) (w : Nat) : Bool :=
  (waiters s w).any (fun r => r.deps ≥ 65535) ||
  match launchOfHandle s w with
  | some l => l.later && (l.deferred.length ≥ 65535 ||
      s.disp.edges.any fun e => e.1 / 2 ^ 24 == l.id && (findStep s e.1).isNone && laterDeps s e.1 ≥ 65535)
  | none => (findStep s w).isNone && laterDeps s w ≥ 65535

/-- Adds the edge of a waiter: a step's own, or a launch's, which applies to each of its waiting steps. -/
def addEdge (s : State) (w d : Nat) : State :=
  let ws := waiters s w
  let s := match launchOfHandle s w with
    | some l =>
      let s := setLaunch s { l with deferred := l.deferred ++ [d] }
      { s with disp := { s.disp with shared := s.disp.shared ++ ws.map fun r => (r.handle, d) } }
    | none => { s with disp := { s.disp with edges := s.disp.edges ++ [(w, d)] } }
  ws.foldl (fun s r => setStep s { r with deps := r.deps + 1 }) s

/-- TDEP (R333). -/
def execTdep (a b : XIdx) (s : State) : Result :=
  let w := (xreg s a).toNat
  let d := (xreg s b).toNat
  let bad : Word → Result := fun n => .next (takeTrap s (TrapInfo.plain 0x02 n))
  let isOpen := dependeeOpen s d
  if isOpen && !waiterDead s w && closesCycle s w d then bad 1
  else if waiterStarted s w then bad 2
  else if waiterDead s w then bad 3
  else if isOpen && depsFull s w then bad 4
  else if isOpen && 65536 ≤ edgeCount s then waitHere s
  else runM (do
    setNrM
    modS fun s => if isOpen then addEdge (latchFronts s) w d else s
    done) s

end Sys2Proof.Machine
end

