-- ==== Sys2Proof/Machine/Steps.lean ====
section
/-! DEFINITION. Steps on their cores: bind records (R70, R71), staging and preload (R72, R73, R76), hart start and resumption
(R63, R294, R363), budgets and pre-emption (R78, R82, R362), the dispatcher's commands (R88, R347) and the pipe routes
(R91). -/

namespace Sys2Proof.Machine

/-! ## Bind records (Table 04.3) -/

def rcdHandle (r : BindRec) : Nat := bits (wordAt r 0) 0 32
def rcdOprio (r : BindRec) : Nat := bits (wordAt r 0) 36 3
def rcdRetry (r : BindRec) : Nat := bits (wordAt r 0) 39 3
def rcdPub (r : BindRec) : Nat := bits (wordAt r 0) 42 3
def rcdChkx (r : BindRec) : Nat := bits (wordAt r 0) 55 9
def rcdEntry (r : BindRec) : Word := wordAt r 1 &&& 0xFFFFFFFFFFFF
def rcdParam (r : BindRec) : Word := wordAt r 2 &&& 0xFFFFFFFFFFFF
def rcdTile (r : BindRec) (k : Nat) : BitVec 16 :=
  if k < 4 then (wordAt r 4).extractLsb' (16 * k) 16 else (wordAt r 5).extractLsb' (16 * (k - 4)) 16
def rcdBudget (r : BindRec) : Nat := bits (wordAt r 5) 32 32
def rcdBankrole (r : BindRec) : Word := wordAt r 6

/-- A reserved bit of a record is set. -/
def rcdReserved (r : BindRec) : Bool :=
  r.length != 8 || bits (wordAt r 0) 48 7 != 0 || bits (wordAt r 0) 32 4 != 0 || bits (wordAt r 1) 48 16 != 0 ||
  bits (wordAt r 2) 48 16 != 0 || bits (wordAt r 3) 48 16 != 0 || bits (wordAt r 7) 36 6 != 0

/-- The record breaks R71 for a core and the step it names, or is of a team that does not fit now (R92). -/
def rcdBad (s : State) (core : Nat) (st : StepRec) (gsize : Nat) (r : BindRec) : Bool :=
  let gang := gangCores (clusterOfCore core) (rcdGmask r)
  rcdReserved r || rcdTooWide s r || rcdPub r < 1 || rcdPub r > 4 || bankroleBad (rcdBankrole r) || gang.length != gsize ||
  !gang.contains core || gang.any (fun c => c + 1 == rcdChkx r || c + 1 == st.chkx) ||
  (List.range 8).any fun f =>
    pipeIndex r f != 0 && !s.disp.routes.any fun x => x.handle == rcdHandle r && x.index == pipeIndex r f

/-- Whether power-on has completed stage 5, from which bind records are accepted and leases are scheduled (R388, R416). -/
def opened (s : State) : Bool := s.ports.stage == 5 && !s.ports.talkative

/-- A core takes steps: it is in service (R390), and its chiplet is not too hot (R423). A chiplet that is too hot stages and
starts nothing either. (DEDUCED, log 26.) -/
def coreTakes (s : State) (core : Nat) : Bool := inService s 0 core && !s.ports.hot.toList.getD (core / 32) false

/-- A core takes bindings: compute is open (R416). -/
def coreBinds (s : State) (core : Nat) : Bool := opened s && coreTakes s core

/-- A bind error is reported to firmware (R70). (DESIGN CHOICE, log 11.) -/
def bindError (s : State) (core : Nat) (r : BindRec) : State := report s [0x70, BitVec.ofNat 64 core, wordAt r 0]

/-- The bind queue accepts a record (R70). NR and OVR are the step's own, whatever the record says of them; a further member of a
running gang finds RETRY and BUDGET as they are. (DESIGN CHOICE, log 26.) -/
def acceptRecord (s : State) (core : Nat) (st : StepRec) (r : BindRec) : State :=
  let s := latchFronts s
  let c := coreAt s core
  let s := setCore s core { c with bindq := c.bindq ++ [st.handle] }
  let s := setStep s { st with
    place := if st.place == .running then .running else .bound
    recs := tput st.recs core r
    bseq := s.disp.seq
    ownPrio := max st.ownPrio (rcdOprio r)
    retries := if st.place == .running then st.retries else rcdRetry r
    budget := if st.ran || st.place == .running then st.budget else rcdBudget r }
  { s with disp := { s.disp with seq := s.disp.seq + 1 } }

/-- BIND_RECORD_WRITE: dword 0 is written with V = 1 (R70, R71). (DEDUCED, log 26.) -/
def execBindRecordWrite (core : Nat) (dws : List Word) (s : State) : Result :=
  if !(wordAt dws 0).getLsbD 47 then .next s
  else match findStep s (rcdHandle dws) with
    | some st =>
      match findLaunch s st.launch with
      | some l =>
        if (coreAt s core).bindq.length ≥ 16 || !coreBinds s core || !(st.place == .queued || st.place == .bound || startsLater st) ||
            (tget st.recs core).isSome || rcdBad s core st (blkGsize l.blk) dws then
          .next (bindError s core dws)
        else .next (acceptRecord s core st dws)
      | none => .next (bindError s core dws)
    | none => .next (bindError s core dws)

/-! ## Staging (R72, R75, R76) -/

/-- The slot a core stages into: slot 2·core when both are EMPTY (R72). -/
def emptySlot (s : State) (core : Nat) : Option Nat := (slotsOfCore core).find? fun k => (slotAt s k).st == .empty

/-- A core can stage: one slot is EMPTY, and the other neither STAGING nor STAGED (R72). -/
def canStage (s : State) (core : Nat) : Bool :=
  coreTakes s core && (emptySlot s core).isSome &&
    (slotsOfCore core).all fun k => (slotAt s k).st == .empty || (slotAt s k).st == .running

/-- The scratchpad line that an offset names under a BANKROLE image; 2048 and above lie beyond the space. -/
def imageLine (image : Word) (off : Nat) : Nat :=
  match (spBanks image)[off / 8192]? with
  | some b => 64 * b + off % 8192 / 128
  | none => 2048 + off / 128

/-- The lines of a step's `in` regions, in the order of the entries, then ascending (R73). -/
def preLines (l : LaunchRec) (r : StepRec) (x : BindRec) : List PreLine :=
  let ps := (descIns l.desc).flatMap fun e =>
    (List.range (entryLen e / 128)).map fun i : Nat =>
      (regionBase e r.tileix + BitVec.ofNat 64 (128 * i), imageLine (rcdBankrole x) (entrySpoff e + 128 * i))
  ps.zipIdx.map fun y => ⟨y.1.1, y.1.2, y.2⟩

/-- A record moves from the bind queue to a slot (R72). A saved hart has nothing to preload (R363). -/
def stageAt (s : State) (l : LaunchRec) (r : StepRec) (core : Nat) (x : BindRec) : State :=
  match emptySlot s core with
  | some k =>
    let c := coreAt s core
    let s := setCore s core { c with bindq := c.bindq.filter (· != r.handle) }
    let s := { s with disp := { s.disp with fronts := tdel s.disp.fronts core } }
    let pre := if (savedFor r core).isNone then preLines l r x else []
    setSlot s k ⟨if pre.isEmpty then .staged else .staging, x, pre, [], none⟩
  | none => s

/-- The records that are staged with a core's one: its own, and in a team those of every other member (R72, R76). -/
def stagesWith (r : StepRec) (core : Nat) : Tbl BindRec := if ofTeam r then r.recs else r.recs.filter fun cx => cx.1 == core

/-- STAGE_RECORD: the first ready record of a core's bind queue is staged, in a team with the records of every other member at
once (R72, R76). (DEDUCED, log 26.) -/
def execStageRecord (core : Nat) (s : State) : Result :=
  match headOf s core with
  | some r =>
    let xs := stagesWith r core
    let ok := (!ofTeam r || stepComplete r) && xs.all fun cx =>
      canStage s cx.1 && (match headOf s cx.1 with | some q => q.handle == r.handle | none => false)
    match ok, findLaunch s r.launch with
    | true, some l => .next (xs.foldl (fun s cx => stageAt s l r cx.1 cx.2) s)
    | _, _ => .next s
  | none => .next s

/-! ## Preload (R73) -/

/-- The running step of a slot's core holds a bank as scratchpad. -/
def bankHeld (s : State) (core bank : Nat) : Bool :=
  (runningSlot s core).isSome && bankRole (coreAt s core).bankrole bank == 2

/-- One line read for preload: along Table 06.10, at relation 3, its granules passed unchanged; a line of a remote window is not
written (R27). The record of an unturned read names the line's first granule (R73); where it is the second that fails, PROD,
LEVEL, RC and PCNT are still those of the granule that failed. (DESIGN CHOICE, log 26.) -/
def preloadM (n : Nat) (l : LaunchRec) (p : PreLine) : M SpLine := fun s =>
  let page := fun (c : BitVec 6) (kind w : Nat) => Stop.trap (pageTrap false [⟨c, kind, w, 0, p.va⟩])
  if p.spline ≥ 2048 then (.error (page 0x05 1 0), s)
  else match xlateTable s .dispatcher l.table p.va .read with
    | .wait leg => (.error .hold, reportLeg s leg)
    | .page c kind w => (.error (page c kind w), s)
    | .walk t => (.error (.trap t), s)
    | .host w =>
      if pageRefusedAt s l.table p.va w then (.error (page 0x06 2 w), takeRefusalAt s l.table p.va w)
      else (.error .hold, requestPageAt s l.id l.table p.va w)
    | .ok pa _ =>
      let gran := pa / 64
      if windowOf gran != 0 then (.error (page 0x05 1 (tableLevel s .dispatcher l.table p.va)), s)
      else wayE n gran (peekI2 s n gran).src false (fun s =>
        let s := fillI2 s n gran
        let a := peekI2 s n gran
        let b := peekI2 s n (gran + 1)
        match [a, b].find? fun f => f.c.ph || !visible s (some n) f.c.g 3 with
        | some f => (.error (.trap (unturnedTrap s (some n) p.va f.c.g f.c.ph 3)), s)
        | none => (.ok ⟨true, some (a.c.g, a.tag), some (b.c.g, b.tag)⟩, s)) s

/-- The first of some lines that does not wait for its page or its way: the line, and what became of it. -/
def preloadNext (n : Nat) (l : LaunchRec) : List PreLine → State → Option (PreLine × Except TrapInfo SpLine) × State
  | [], s => (none, s)
  | p :: ps, s =>
    match preloadM n l p s with
    | (.ok line, s) => (some (p, .ok line), s)
    | (.error (.trap t), s) => (some (p, .error t), s)
    | (.error .hold, s) => preloadNext n l ps s

/-- The fault of the line that comes first in the order (R73). -/
def firstFault (old : Option (Nat × TrapInfo)) (ord : Nat) (t : TrapInfo) : Option (Nat × TrapInfo) :=
  match old with
  | some (o, u) => if ord < o then some (ord, t) else some (o, u)
  | none => some (ord, t)

/-- PRELOAD_LINE_LAND: the first line of a STAGING slot whose bank the running step does not hold and whose page does not move
lands, or is not written; the last one makes the slot STAGED (R72, R73). -/
def execPreloadLineLand (k : Nat) (s : State) : Result :=
  let x := slotAt s k
  let core := coreOfSlot k
  match x.st, findLaunch s (slotHandle x / 2 ^ 24) with
  | .staging, some l =>
    match preloadNext (clusterOfCore core) l (x.pre.filter fun p => !bankHeld s core (p.spline / 64)) s with
    | (some (p, r), s') =>
      let rest := x.pre.filter (· != p)
      let x' : Slot := { x with pre := rest, st := if rest.isEmpty then .staged else .staging }
      .next (setSlot s' k (match r with
        | .ok line => { x' with landed := tput x.landed p.spline line }
        | .error t => { x' with preFault := firstFault x.preFault p.ord t }))
    | (none, s') => .next s'
  | _, _ => .next s

/-! ## Hart start (R63, R65, R294) and resumption (R363) -/

/-- The slots in which a step's records are STAGED. -/
def stagedSlots (s : State) (handle : Nat) : List Nat :=
  (s.slots.filter fun kx => kx.2.st == .staged && slotHandle kx.2 == handle).map (·.1)

/-- The other slot of a core. -/
def otherSlot (k : Nat) : Nat := if k % 2 = 0 then k + 1 else k - 1

/-- TVEC and FRECBASE from the parameter block (R294). -/
def readParam (l : LaunchRec) (param : Word) : M (Word × Word) := fun s =>
  if param = 0 then (.ok (0, 0), s)
  else match dispWords l.table l.id param 2 s with
    | (.error e, s) => (.error e, s)
    | (.ok ws, s) => (.ok (wordAt ws 0 &&& ~~~3, wordAt ws 1 &&& ~~~63), s)

def readParams (s₀ : State) (l : LaunchRec) : List Nat → List (Nat × Word × Word) → M (List (Nat × Word × Word))
  | [], acc => fun s => (.ok acc.reverse, s)
  | k :: ks, acc => fun s =>
    match readParam l (rcdParam (slotAt s₀ k).rcd) s with
    | (.error e, s) => (.error e, s)
    | (.ok w, s) => readParams s₀ l ks ((k, w.1, w.2) :: acc) s

/-- The window context's control registers (Table 26.5). -/
def Hart.window (h : Hart) (w : Option WinCtx) : Hart :=
  match w with
  | some c => { h with
      winid := BitVec.ofNat 64 c.win, winstart := c.start, winend := c.stop, arrlo := c.arrlo, arrhi := c.arrhi
      revision := c.revision }
  | none => h

/-- The visible state at start (R63). -/
def freshHart (r : StepRec) (x : BindRec) (tvec frecbase : Word) (fault : Option (Nat × TrapInfo)) : Hart :=
  { Hart.reset with
    x := Hart.reset.x.set 10 (rcdParam x)
    pc := rcdEntry x
    tvec := tvec
    frecbase := frecbase
    tileix := ⟨#[rcdTile x 0, rcdTile x 1, rcdTile x 2, rcdTile x 3, rcdTile x 4, rcdTile x 5], rfl⟩
    steph := BitVec.ofNat 32 r.handle
    tstat := { TStat.reset with tip := r.tip }
    engineFaults := (fault.map fun y : Nat × TrapInfo => y.2).toList }.window r.win

/-- The banks that hold the I1 role. -/
def i1Banks (w : Word) : List Nat := (List.range 32).filter fun b => bankRole w b == 1

/-- The image changes which banks hold the I1 role (R73). -/
def changesI1 (s : State) (core : Nat) (image : Word) : Bool := i1Banks (coreAt s core).bankrole != i1Banks image

/-- A core takes a BANKROLE image with the scratchpad and lane store of the hart that starts (R63, R73).
(DEDUCED, log 26.) -/
def dressCore (s : State) (core : Nat) (image : Word) (sp : Tbl SpLine) (ls : Tbl (Granule × Word)) : State :=
  let c := coreAt s core
  setCore s core { c with
    bankrole := image
    i1 := if changesI1 s core image then [] else c.i1
    sp := sp
    ls := ls }

/-- One hart starts fresh in its slot. -/
def startFresh (s : State) (r : StepRec) (k : Nat) (tvec frecbase : Word) : State :=
  let x := slotAt s k
  let s := dressCore s (coreOfSlot k) (rcdBankrole x.rcd) x.landed []
  let s := setHart s k (freshHart r x.rcd tvec frecbase x.preFault)
  setSlot s k { x with st := .running, pre := [], landed := [], preFault := none }

/-- One hart resumes in its slot (R152, R156, R363). -/
def startSaved (s : State) (r : StepRec) (k : Nat) (v : SavedHart) : State :=
  let x := slotAt s k
  let core := coreOfSlot k
  let s := dressCore s core v.bankrole v.sp v.ls
  let h := freshHart r x.rcd 0 0 none
  let s := setHart s k { v.hart with
    tileix := h.tileix
    steph := h.steph
    resume := v.atResume
    tstat := { v.hart.tstat with tip := v.hart.tstat.tip || r.tip } }
  let s := setSlot s k { x with st := .running, pre := [], landed := [], preFault := none }
  applySil s core v.hart.sil true

/-- The tiles that a saved step needs are free in their clusters (R298), and no `mattach` waits for them (R296). -/
def tilesFree (s : State) (kv : List (Nat × SavedHart)) : Bool :=
  kv.all fun x =>
    let n := clusterOfSlot x.1
    let need := kv.foldl (fun t y => if clusterOfSlot y.1 = n then t + y.2.ntiles else t) 0
    need = 0 || (inService s 1 n && (clusterAt s n).mwait.isEmpty && need ≤ freeTiles s n)

/-- The entries that I1 copies of the cores of some slots are held for go home, where the records change the I1 banks. -/
def readyCores (s : State) (ks : List Nat) : State :=
  ks.foldl (fun s k =>
    if changesI1 s (coreOfSlot k) (rcdBankrole (slotAt s k).rcd) then freePinned s (coreOfSlot k) else s) s

/-- Some core still holds copies that a start would drop. -/
def coresHeld (s : State) (ks : List Nat) : Bool :=
  ks.any fun k => changesI1 s (coreOfSlot k) (rcdBankrole (slotAt s k).rcd) && !(pinnedGrans s (coreOfSlot k)).isEmpty

/-- The slots whose harts start with the one in a slot: its own, and in a team those of every other member (R72). -/
def startsWith (s : State) (r : StepRec) (slot : Nat) : List Nat := if ofTeam r then stagedSlots s r.handle else [slot]

/-- The harts that start may: every member of a team is STAGED, their cores' other slots are EMPTY, and their step has not stopped
for a switch-out (R65, R72). -/
def mayStart (s : State) (r : StepRec) (ks : List Nat) : Bool :=
  (!ofTeam r || ks.length == r.recs.length) && r.stopping.isNone &&
    ks.all fun k => (slotAt s (otherSlot k)).st == .empty && coreTakes s (coreOfSlot k)

/-- The harts of a step that resume, with what was saved of them, and those that start fresh. -/
def resumed (r : StepRec) (ks : List Nat) : List (Nat × SavedHart) :=
  ks.filterMap fun k => (savedFor r (coreOfSlot k)).map fun v => (k, v)
def started (r : StepRec) (ks : List Nat) : List Nat := ks.filter fun k => (savedFor r (coreOfSlot k)).isNone

/-- Some harts of a step run, beside those that ran before; with the last of them nothing is left to resume, and a timer interrupt
that came before has come to all. -/
def runStep (s : State) (r : StepRec) (ks : List Nat) : State :=
  let before := slotsOfStep s r.handle
  let all := stepMembers r ≤ before.length + ks.length
  setStep s { r with
    place := .running, cores := (before ++ ks).map coreOfSlot, tip := r.tip && !all, saved := if all then [] else r.saved }

/-- A step whose parameter block cannot be read ends before its first instruction, or with those of its harts that have started
(R294). -/
def endUnread (s : State) (r : StepRec) (t : TrapInfo) : State :=
  let s := match t.score with
    | some (prod, path) => scoreCheck s none prod path
    | none => s
  if r.place == .running then endStep s r.handle 1 t.cause.toNat 0
  else completeStep (unbindStep s r.handle) r 1 t.cause.toNat 0

/-- HART_START: a STAGED hart whose core's other slot is EMPTY starts; the harts of a team start together, once every member is
STAGED (R63, R65, R72). -/
def execHartStart (slot : Nat) (s : State) : Result :=
  let x := slotAt s slot
  if x.st != .staged then .next s
  else match findStep s (slotHandle x) with
    | none => .next s
    | some r =>
      let ks := startsWith s r slot
      if !mayStart s r ks then .next s
      else
        let s := readyCores s ks
        if coresHeld s ks || !tilesFree s (resumed r ks) then .next s else
        match findLaunch s r.launch with
        | none => .next s
        | some l =>
          match readParams s l (started r ks) [] s with
          | (.ok ps, s') =>
            let s' := runStep s' r ks
            let s' := (resumed r ks).foldl (fun s y => startSaved s r y.1 y.2) s'
            .next (ps.foldl (fun s y => startFresh s r y.1 y.2.1 y.2.2) s')
          | (.error .hold, s') => .next s'
          | (.error (.trap t), s') => .next (endUnread s' r t)

/-! ## Switch-out (R152, R362) -/

/-- Vector registers by DIRTYMAP (R361). -/
def keepDirty (h : Hart) : Vector VReg 32 := Vector.ofFn fun i => if h.dirtymap.getLsbD i.val then h.v[i] else 0

/-- The saved context of a hart (R362); RESUME is saved as whether the stop is at a resume point (R425). -/
def saveHart (s : State) (k : Nat) : SavedHart :=
  let h := hartAt s k
  let c := coreAt s (coreOfSlot k)
  { hart := { h with v := keepDirty h, resume := false, mid := false, waits := false, phase := 0, mon := [], began := false }
    atResume := h.atResume
    ntiles := h.tiles.length
    bankrole := c.bankrole
    sp := c.sp
    ls := c.ls }

/-- The switch-out publication of a core: a release at level 3, with its acknowledgements (R132, R152); false when something of it
finds no way yet (R392). -/
def publishOut (s : State) (k : Nat) : State × Bool :=
  let core := coreOfSlot k
  let x := release s (clusterOfSlot k) (some core) core 3
  if x.2 then
    let t := flush x.1
    if acked t core then (advanceRcnt t core, true) else (s, false)
  else x

/-- The publications of the harts of a step. -/
def publishAll (s : State) : List Nat → State × Bool
  | [] => (s, true)
  | k :: ks => let x := publishOut s k; if x.2 then publishAll x.1 ks else x

/-- A non-retryable step whose harts have published is saved and requeued (R82, R362). Its barriers keep the silhouettes
shipped into them. (DEDUCED, log 27.) -/
def saveStep (s : State) (handle : Nat) (ovr : Bool) : State :=
  match findStep s handle with
  | some r =>
    let saved := (memberCores r).map fun c =>
      (((slotsOfStep s handle).find? fun k => coreOfSlot k == c).map (saveHart s)).or (savedFor r c)
    let bars := s.disp.barriers
    let (s, r) := endRun s r
    let s := endHarts s handle
    let s := { s with disp := { s.disp with barriers := bars } }
    setStep s { r with place := .queued, recs := [], saved := saved, ovr := ovr || r.ovr }
  | none => s

/-- Some hart of a step has commands with the copy sequencer. -/
def stepCopies (s : State) (handle : Nat) : Bool := (slotsOfStep s handle).any (copiesOf s)

/-- A step that has overrun reports OUTCOME 2 to the ring; it is not complete with it (R78, Table 04.5). -/
def overrunRecord (s : State) (handle : Nat) : State :=
  match findStep s handle with
  | some r => { s with disp := { s.disp with records := s.disp.records ++ [⟨handle, recordWords r 2 0 0, false⟩] } }
  | none => s

def setDstat (s : State) (v : BitVec 2) : State := { s with disp := { s.disp with dstat := v } }

/-- What a switch-out does at its end: an overrun is reported; a PREEMPT that was busy is done (Table 04.7). -/
def stopEnds (s : State) (handle : Nat) (why : Stopping) : State :=
  match why with
  | .overrun => overrunRecord s handle
  | .preempt => if s.disp.dstat = 3 then setDstat s 0 else s
  | .yield => s
  | .lease => s

/-- An area is there: a command and a `tyield` have one already, an overrun and a lease wait for it (R362). -/
def Stopping.area (why : Stopping) (tick : Nat) : Bool :=
  match why with
  | .preempt => true
  | .yield => true
  | .overrun => Config.saveArea tick
  | .lease => Config.saveArea tick

/-- The switch-out of a step whose harts have stopped goes on: once their commands are over and an area is free, they publish
and are saved (R362). (DEDUCED, log 27.) -/
def finishStop (s : State) (handle : Nat) : State :=
  match findStep s handle with
  | some r =>
    match r.stopping with
    | some why =>
      if stepCopies s handle || !why.area s.tick then nextTick s
      else
        let x := publishAll (nextTick s) (slotsOfStep s handle)
        if x.2 then stopEnds (saveStep x.1 handle (why == .overrun)) handle why else x.1
    | none => s
  | none => s

/-- Every hart of a non-retryable step stops at a boundary, leaving what it waits for (R78, R93, R362); the switch-out follows
as soon as it can. -/
def stopStep (s : State) (r : StepRec) (why : Stopping) : State :=
  if r.stopping.isSome then s
  else
    let s := (slotsOfStep s r.handle).foldl (fun s k => withdrawWaits (settlePhase s k) k) s
    finishStop (setStep s { r with stopping := some why }) r.handle

/-- Pre-empts a running step whole: a retryable one is aborted without a retry used (R79, R82), any other is switched out. -/
def preemptFor (s : State) (r : StepRec) (why : Stopping) : State :=
  if r.place != .running then s
  else if r.retryable then abortStep s r.handle false none 0 0
  else stopStep s r why

/-- PREEMPT of a step (R82), and DSTAT: busy while its harts have stopped and it is not saved yet, refused when no area is free
(R362). (DEDUCED, log 27.) -/
def preemptStep (s : State) (r : StepRec) (area : Bool) : State × BitVec 2 :=
  match r.place with
  | .running =>
    if r.retryable then (preemptFor s r .preempt, 0)
    else if r.stopping.isSome then (s, 3)
    else if !area then (s, 2)
    else
      let s := preemptFor s r .preempt
      (s, if (findStep s r.handle).any fun q => q.stopping.isSome then 3 else 0)
  | .retiring => (s, 2)
  | .queued => (s, 0)
  | .bound => (s, 0)

/-- The step that runs on a core. -/
def stepOnCore (s : State) (core : Nat) : Option StepRec :=
  match runningSlot s core with
  | some k => findStep s (slotHandle (slotAt s k))
  | none => none

/-- The hart on a core counts its cycles: it has come to its first instruction (R78). -/
def counts (s : State) (core : Nat) : Bool := (runningSlot s core).any fun k => (hartAt s k).began

/-- BUDGET_OVERRUN: the core's hart has counted BUDGET cycles from its first instruction (R78). -/
def execBudgetOverrun (core : Nat) (s : State) : Result :=
  match stepOnCore s core with
  | some r =>
    if r.place != .running || r.budget = 0 || !counts s core then .next s
    else if r.retryable then
      let s := abortStep s r.handle false none 0 0
      match findStep s r.handle with
      | some q => .next (overrunRecord (setStep s { q with ovr := true }) r.handle)
      | none => .next s
    else .next (stopStep s r .overrun)
  | none => .next s

/-- MACHINE_FAULT: an uncorrectable error inside a core or matrix unit is taken by the dispatcher: a retryable step is
aborted and rerun (R79), any other ends with FAULT (Table 23.1). -/
def execMachineFault (core : Nat) (s : State) : Result :=
  match stepOnCore s core with
  | some r =>
    if r.place != .running then .next s
    else if r.retryable then .next (abortStep s r.handle true none 0x0F 0)
    else .next (endStep s r.handle 1 0x0F 0)
  | none => .next s

/-- CORRECTED_ERROR: the pseudo-channel's score rises by 4 (R172). -/
def execCorrectedError (pch : Nat) (s : State) : Result := .next (if pch < 512 then addScore s (864 + pch) 4 else s)

/-! ## TYIELD (R336) -/

/-- The other slot of a core is STAGED with a step of equal or higher effective priority. -/
def waitingStep (s : State) (k : Nat) (r : StepRec) : Bool :=
  let x := slotAt s (otherSlot k)
  x.st == .staged && (match findStep s (slotHandle x) with
    | some w => priority s r ≤ priority s w
    | none => false)

/-- TYIELD (R336): the step resumes at the next instruction. Where no save area is free it goes on, as a PREEMPT would be
refused (R362). -/
def execTyield (s : State) : Result :=
  match findStep s s.hart.steph.toNat with
  | some r =>
    let s' := advance s
    if r.place == .running && !r.retryable && (slotsOfStep s r.handle).length == 1 && stepMembers r ≤ 1 && waitingStep s s.cur r then
      .next (if Config.saveArea s.tick then stopStep (nextTick s') r .yield else nextTick s')
    else .next s'
  | none => .next (advance s)

/-! ## DCMD (Table 04.6, R88) -/

/-- The handle last written to DHANDLE. -/
def dhandle (s : State) : Nat := s.disp.dhandle.toNat

/-- A step that has completed, of a live launch or of the last one of its id (R88). -/
def stepGone (s : State) (h : Nat) : Bool :=
  match stepHandleOf s h with
  | some l => (findStep s h).isNone && h % 2 ^ 24 < l.queuedSteps
  | none => h % 2 ^ 24 < tgetD s.disp.past (h / 2 ^ 24) 0

/-- The step a command names; else DSTAT reads 2 for one that has completed, and 1 where there is none. -/
def withStep (s : State) (f : StepRec → Result) : Result :=
  match findStep s (dhandle s) with
  | some r => if r.place == .retiring then .next (setDstat s 2) else f r
  | none => .next (setDstat s (if stepGone s (dhandle s) then 2 else 1))

/-- EXTEND (R88). -/
def execExtend (arg : BitVec 32) (s : State) : Result :=
  withStep s fun r =>
    if !r.ovr then .next (setDstat s 2)
    else .next (setDstat (setStep (latchFronts s) { r with ovr := false, budget := min (2 ^ 32 - 1) (r.budget + arg.toNat) }) 0)

/-- RETRY (R88). -/
def execRetry (s : State) : Result :=
  withStep s fun r =>
    if !r.ovr || !r.retryable || r.used ≥ r.retries then .next (setDstat s 2)
    else .next (setDstat (setStep (latchFronts s) { r with ovr := false, used := r.used + 1 }) 0)

/-- The steps of a launch that are still to complete. -/
def launchSteps (s : State) (id : Nat) : List StepRec := s.disp.steps.filter fun r => r.launch == id

/-- Some enabled graph names a launch (R368): EN is SGCFG[63], KL is SGCFG[7:0]. -/
def graphNames (s : State) (id : Nat) : Bool :=
  s.mer.graphs.any fun gx => gx.2.sgcfg.getLsbD 63 && bits gx.2.sgcfg 0 8 == id

/-- The edges of a step on a handle. -/
def edgesOn (s : State) (r : StepRec) (d : Nat) : Nat := ((allEdges s).filter fun e => e.1 == r.handle && e.2 == d).length

/-- The dependees of waiters on a handle are satisfied (R68, R84); a step that waits no longer is tested for residency again
(R69). -/
def satisfy (s : State) (d : Nat) : State :=
  let s := latchFronts s
  let free := s.disp.steps.filter fun r => r.deps != 0 && r.deps ≤ edgesOn s r d
  free.foldl (fun s r => testResidency s r.handle) { s with disp := { s.disp with
    edges := s.disp.edges.filter fun e => e.2 != d
    shared := s.disp.shared.filter fun e => e.2 != d
    steps := s.disp.steps.map fun r => { r with deps := r.deps - edgesOn s r d }
    launches := s.disp.launches.map fun l => { l with deferred := l.deferred.filter (· != d) } } }

/-- A launch completes: its dependents are satisfied and its record waits for the ring (R68, R84, R85). -/
def completeLaunch (s : State) (l : LaunchRec) : State :=
  let h := launchHandle l.id
  let s := satisfy s h
  { s with disp := { s.disp with records := s.disp.records ++
      [⟨h, [BitVec.ofNat 64 h, BitVec.ofNat 64 l.cycles, BitVec.ofNat 64 l.energy, l.accepted, 0, 0, 0, 0], true⟩] } }

/-- The last step of a launch has completed (R68); a standing launch also waits to be ended (R368). -/
def finishLaunch (s : State) (id : Nat) : State :=
  match findLaunch s id with
  | some l =>
    let fin := if l.standing then l.ended && (launchSteps s id).isEmpty else l.completed ≥ l.total
    if fin && !s.disp.records.any (fun p => p.handle == launchHandle id) then completeLaunch s l else s
  | none => s

/-- KILL (R88): a step, or a standing launch that no enabled graph names (R368). The handle of another live launch is refused,
and nothing changes. (DESIGN CHOICE, log 29.) -/
def execKill (s : State) : Result :=
  match launchOfHandle s (dhandle s) with
  | some l =>
    if !l.standing || l.ended || graphNames s l.id then .next (setDstat s 2)
    else .next (setDstat (finishLaunch (setLaunch s { l with ended := true }) l.id) 0)
  | none =>
    withStep s fun r =>
      if r.place == .running then .next (setDstat (endStep s r.handle 3 0 0) 0)
      else .next (setDstat (completeStep (unbindStep s r.handle) { r with saved := [] } 3 0 0) 0)

/-- PREEMPT (R82, R362): `area` says whether a save area is free. -/
def execPreempt (area : Bool) (s : State) : Result :=
  withStep s fun r =>
    let x := preemptStep s r area
    .next (setDstat x.1 x.2)

/-! ## Timers (R347) -/

/-- A step's deadline has come: TIP is set in its running harts, and in the others when they start, and the deadline is
disarmed. -/
def timerFires (s : State) (r : StepRec) : State :=
  let s := setStep s { r with timer := 0, tip := r.tip || r.place != .running || !allStarted s r }
  if r.place != .running then s
  else (slotsOfStep s r.handle).foldl (fun s k =>
    let h := hartAt s k
    setHart s k { h with tstat := { h.tstat with tip := true } }) s

/-- TIMER (R88, R347). A deadline that has passed acts at once. -/
def execTimer (s : State) : Result :=
  withStep s fun r =>
    let r := { r with timer := s.disp.dtimer }
    let s := setDstat (setStep s r) 0
    .next (if r.timer != 0 && r.timer.toNat ≤ s.dtime.toNat then timerFires s r else s)

/-- TIMER_DEADLINE: DTIME reaches a step's armed deadline (R347). -/
def execTimerDeadline (handle : Nat) (s : State) : Result :=
  match findStep s handle with
  | some r =>
    if r.timer = 0 || r.place == .retiring || !momentComes s r.timer.toNat then .next s
    else .next (timerFires (timeReaches s r.timer) r)
  | none => .next s

/-! ## Routes (R91) -/

/-- The handle and index in PRKEY. -/
def prHandle (s : State) : Nat := bits s.disp.prkey 32 32
def prIndex (s : State) : Nat := bits s.disp.prkey 0 4

/-- The routes without the one PRKEY names. -/
def otherRoutes (s : State) : List Route := s.disp.routes.filter fun x => !(x.handle == prHandle s && x.index == prIndex s)

/-- ROUTE_INSTALL: a write to PRVAL with V = 1 (R91). Reserved bits have no effect, and INDEX 0 names a route like any other.
(DESIGN CHOICE, log 29.) -/
def execRouteInstall (v : Word) (s : State) : Result :=
  let level := bits v 12 2
  if level < 1 || level > 3 || s.disp.routes.length ≥ 4096 then .next (setDstat s 2)
  else .next { s with disp := { s.disp with routes := otherRoutes s ++ [⟨prHandle s, prIndex s, bits v 0 9, bits v 9 2, level⟩] } }

/-- ROUTE_REMOVE: a write to PRVAL with V = 0 (R91); reserved bits and INDEX 0 as at ROUTE_INSTALL. (DESIGN CHOICE, log 29.) -/
def execRouteRemove (v : Word) (s : State) : Result :=
  let level := bits v 12 2
  if level < 1 || level > 3 || s.disp.routes.length ≥ 4096 then .next (setDstat s 2)
  else .next { s with disp := { s.disp with routes := otherRoutes s } }

end Sys2Proof.Machine
end

