-- ==== Sys2Proof/Machine/Retire.lean ====
section
/-! DEFINITION. How steps meet and end: barriers (R335), `tdone` (R334), retirement with its turn (R81, R84), and completion
records (R85). -/

namespace Sys2Proof.Machine

/-! ## Barriers (R335) -/

/-- What tells the gangs of a step apart: 16·cluster + GMASK. -/
def gangKey (s : State) (k : Nat) : Nat := 16 * clusterOfSlot k + rcdGmask (slotAt s k).rcd

/-- The gangs of a running step, in ascending order. -/
def gangKeys (s : State) (handle : Nat) : List Nat := ((slotsOfStep s handle).map (gangKey s)).eraseDups

/-- The place of a slot's gang among its step's gangs. -/
def gangIndex (s : State) (handle k : Nat) : Nat := (gangKeys s handle).idxOf (gangKey s k)

/-- The harts that a barrier counts. -/
def barrierMembers (s : State) (handle : Nat) (team : Bool) (gang : Nat) : List Nat :=
  (slotsOfStep s handle).filter fun k => team || gangIndex s handle k == gang

def Barrier.is (b : Barrier) (handle : Nat) (team : Bool) (gang : Nat) : Bool :=
  b.handle == handle && b.team == team && b.cluster == gang

/-- Every hart of the gang or team has started and arrived, counting those that have executed `tdone`, and the silhouettes of those
that wait have come to the union (R122, R335). -/
def barrierFull (s : State) (b : Barrier) : Bool :=
  !b.arrived.isEmpty && (findStep s b.handle).all (allStarted s) && (b.arrived.all fun k => acked s (coreOfSlot k)) &&
    (barrierMembers s b.handle b.team b.cluster).all fun k => b.arrived.contains k || (hartAt s k).tdone.isSome

/-- A waiting hart applies the union to its I1, for a team also to its cluster I2, ORs it into its silhouette, and goes
on. -/
def passBarrier (s : State) (b : Barrier) (k : Nat) : State :=
  let s := applySil s (coreOfSlot k) b.union b.team
  let h := hartAt s k
  setHart s k { h with sil := h.sil ||| b.union }.advance

/-- The barrier opens. -/
def openBarrier (s : State) (b : Barrier) : State :=
  let s := b.arrived.eraseDups.foldl (fun s k => passBarrier s b k) s
  { s with disp := { s.disp with barriers := s.disp.barriers.filter fun x => !x.is b.handle b.team b.cluster } }

/-- The router where a barrier's union stands: that of the lowest cluster among its harts. (DESIGN CHOICE, log 34.) -/
def unionRouter (s : State) (handle : Nat) (team : Bool) (gang : Nat) : Nat :=
  ((barrierMembers s handle team gang).map clusterOfSlot).foldl min (curCluster s)

/-- A hart ships its silhouette into the barrier's union, and arrives. -/
def arriveAt (s : State) (handle : Nat) (team : Bool) (gang : Nat) : State × Barrier :=
  let old := (s.disp.barriers.find? fun b => b.is handle team gang).getD ⟨handle, team, gang, 0, []⟩
  let b := { old with union := old.union ||| s.hart.sil, arrived := old.arrived ++ [s.cur] }
  (shipTo { s with
    hart := { s.hart with sil := 0, phase := 2 }
    disp := { s.disp with barriers := b :: s.disp.barriers.filter fun x => !x.is handle team gang } } (curCore s)
      (unionRouter s handle team gang), b)

/-- Arrives, unless it waits there already; the last arrival opens the barrier. -/
def meetM (team : Bool) : M Unit := fun s =>
  let handle := s.hart.steph.toNat
  let gang := if team then 0 else gangIndex s handle s.cur
  let x := if s.hart.phase = 2 then
      (s, (s.disp.barriers.find? fun b => b.is handle team gang).getD ⟨handle, team, gang, 0, []⟩)
    else arriveAt s handle team gang
  if barrierFull x.1 x.2 then (.ok (), openBarrier x.1 x.2) else holdM x.1

/-- GBAR (R335). -/
def execGbar (team : Bool) (s : State) : Result :=
  if team && rcdTeam (slotAt s s.cur).rcd = 0 then .next (takeTrap s (TrapInfo.plain 0x02 1))
  else runM (do
    if s.hart.phase = 2 then fun s => (.ok (), s) else do
      setNrM
      releaseM (if team then 3 else 2)
    meetM team) s

/-- BARRIER_OPEN: a barrier whose last hart has arrived, or has executed `tdone`, opens; `gang` is the gang's place in its
step (R335). -/
def execBarrierOpen (handle : Nat) (team : Bool) (gang : Nat) (s : State) : Result :=
  match s.disp.barriers.find? fun b => b.is handle team gang with
  | some b => .next (if barrierFull s b then openBarrier s b else s)
  | none => .next s

/-! ## TDONE (R334) -/

/-- The outcome word is outside its fields. -/
def doneBad (v : Word) : Bool :=
  bits v 14 50 != 0 || bits v 4 4 != 0 || bits v 0 4 > 1 || (bits v 0 4 == 0 && bits v 8 6 != 0)

/-- TDONE (R334): the first FAULT in time gives the step's ECAUSE. -/
def execTdone (a : XIdx) (s : State) : Result :=
  let v := xreg s a
  if doneBad v then .next (takeTrap s (operandTrap s))
  else
    let s := advance { s with hart := { s.hart with tdone := some v } }
    if bits v 0 4 = 0 then .next s
    else match findStep s s.hart.steph.toNat with
      | some r => .next (if r.outcome.isSome then s else setStep s { r with outcome := some (1, bits v 8 6, 0) })
      | none => .next s

/-! ## The retirement turn (R81) -/

/-- The held granules of a step, each with the core that stands for its producer and the level a turn has asked of it. -/
def heldGranules (s : State) (handle : Nat) : List (Nat × Nat × OutEntry) :=
  (s.cores.flatMap fun kc => (kc.2.o1.filter fun x => x.2.held == some handle).map fun x => (x.1, kc.1, x.2)) ++
  s.clusters.flatMap fun kc => (kc.2.o2held.filter fun x => x.2.held == some handle).map fun x =>
    (x.1, if x.2.g.prod < 256 then x.2.g.prod else 4 * kc.1, x.2)

/-- A check fault that the retirement turn meets: scored with the step's lowest core as consumer (R81, R170). -/
def retireScore (s : State) (low : Nat) (t : TrapInfo) : State :=
  match t.score with
  | some (prod, path) => scoreCheck s (some (coreOfSlot low)) prod path
  | none => s

/-- What a retirement waits for, if anything (R150, R392): a leg without a way, or, with none, a page's move. -/
abbrev Leg := Option (Nat × Nat)

/-- The leg without a way, if there is one, of a granule from the cluster of a slot. -/
def legHome (s : State) (low gran : Nat) : Leg := formLeg s (clusterOfSlot low) gran

/-- What keeps the fault record of a slot's hart from being written now. -/
def recordLegAt (s : State) (k : Nat) : Option Leg := recordLeg (switchTo s k)

/-- A fault record written at FRECBASE of a slot's hart, and the FREC of the completion record. -/
def recordAt (s : State) (k : Nat) (t : TrapInfo) : State × Word :=
  let back := s.cur
  let s := switchTo s k
  let frec := s.hart.frecbase
  if frec = 0 then (switchTo s back, 0)
  else match writeRecord s t with
    | .ok s' => (switchTo s' back, frec)
    | .error s' => (switchTo s' back, 0)

/-- One granule turned as a core of the step; at level 3 and above its notice follows, from the step's lowest core, and its
acknowledgements are waited for (R81, R107). -/
def retireOne (s : State) (low core level gran : Nat) (va : Word) : Except Stop State :=
  match turnOne s core level gran va with
  | .error e => .error e
  | .ok (s', raised, _) =>
    if level ≥ 3 && windowOf gran = 0 && raised != 0 then
      let s' := noticeNow s' (coreOfSlot low) gran gran
      if acked s' (coreOfSlot low) then .ok s' else .error .hold
    else .ok s'

/-- The held granules of a retiring step: all are tested against R99 before any is switched; `none` when one fails. -/
def badHeld (s : State) (handle : Nat) : Option (Nat × OutEntry × Nat) :=
  (heldGranules s handle).findSome? fun x => x.2.2.g.metaKind.map fun kind => (x.1, x.2.2, kind)

/-- Turns granules that a step has held; or says what one waits for (R392). -/
def publishList (low pub : Nat) : List (Nat × Nat × OutEntry) → State → Except Leg State
  | [], s => .ok s
  | x :: xs, s =>
    match retireOne s low x.2.1 (max pub x.2.2.want) x.1 (BitVec.ofNat 64 (64 * x.1)) with
    | .ok s' => publishList low pub xs s'
    | .error .hold => .error (legHome s low x.1)
    | .error (.trap _) => publishList low pub xs s

/-- The partials of some cores are combined; or the way of one that finds none is named. -/
def publishPartials (cores : List Nat) (s : State) : Except Leg State :=
  let s := cores.foldl (fun s c => combinePartials s (clusterOfCore c) (fun p => p.core == c)) s
  match (cores.flatMap fun c => (clusterAt s (clusterOfCore c)).partials.filter fun p => p.core == c && p.held.isNone) with
  | p :: _ => .error (legHome s (2 * p.core) (p.pa / 64))
  | [] => .ok s

/-- The held granules become ordinary, its partials are combined, and each granule is turned to PUB, or to the level a turn
had asked of it (R81, R108, R142). -/
def publishHeld (s : State) (r : StepRec) (low pub : Nat) : Except Leg State :=
  match publishList low pub (heldGranules s r.handle) (unhold s r.handle) with
  | .ok s' => publishPartials ((slotsOfStep s r.handle).map coreOfSlot) s'
  | .error g => .error g

/-- One granule of an `out` region, turned on behalf of each core of the step: every granule whose PROD is such a core, or
a matrix unit or copy sequencer of its cluster, is own. The first failure of R99 is kept. -/
def retireGranule (low pub gran : Nat) (va : Word) : List Nat → State → Except Leg (State × Option TrapInfo)
  | [], s => .ok (s, none)
  | c :: cs, s =>
    match retireOne s low c pub gran va with
    | .error .hold => .error (legHome s low gran)
    | .error (.trap t) => .ok (s, some t)
    | .ok s' => retireGranule low pub gran va cs s'

/-- Granules of [base, base + n) from a physical address. -/
def retireRun (low pub : Nat) (cores : List Nat) : Nat → Nat → Word → State × Option TrapInfo →
    Except Leg (State × Option TrapInfo)
  | 0, _, _, x => .ok x
  | n + 1, gran, va, x =>
    match retireGranule low pub gran va cores x.1 with
    | .error g => .error g
    | .ok y =>
      let s := match y.2 with | some t => retireScore y.1 low t | none => y.1
      retireRun low pub cores n (gran + 1) (va + 64) (s, x.2.or y.2)

/-- One page's part of an `out` region; a page that is not present or host-owned is skipped (R81), one that moves out is waited
for (R150). A table entry that fails its check is reported and scored, and ends the step with its cause. (DEDUCED, log 28.) -/
def retirePage (l : LaunchRec) (low pub : Nat) (cores : List Nat) (stop va : Word) (x : State × Option TrapInfo) :
    Except Leg (State × Option TrapInfo) :=
  if va.extractLsb' 48 16 != 0 then .ok x
  else match walk x.1 .dispatcher va 3 1 l.table with
    | .leaf pte level =>
      if pteHost pte || unbound x.1 (pteBase pte) then .ok x
      else if moving x.1 l.table va level then .error none
      else
        let off := if level = 2 then (va.extractLsb' 0 29).toNat else (va.extractLsb' 0 16).toNat
        let here := min (65536 - va.toNat % 65536) (stop.toNat - va.toNat)
        retireRun low pub cores ((here + 63) / 64) ((pteBase pte + off) / 64) va x
    | .notPresent _ => .ok x
    | .bad _ => .ok x
    | .unbound _ => .ok x
    | .fault t => .ok (reportFault x.1 (some (coreOfSlot low)) t.addr.toNat t, x.2.or (some { t with score := none }))
    | .noWay l => .error (some l)

/-- The pages of an `out` region, in ascending order. -/
def retirePages (l : LaunchRec) (low pub : Nat) (cores : List Nat) (stop : Word) : List Word → State × Option TrapInfo →
    Except Leg (State × Option TrapInfo)
  | [], x => .ok x
  | va :: vas, x =>
    match retirePage l low pub cores stop va x with
    | .error g => .error g
    | .ok y => retirePages l low pub cores stop vas y

/-- The declared `out` regions of a step, each by its base and its end. -/
def outRegions (l : LaunchRec) (r : StepRec) : List (Word × Nat) :=
  (descOuts l.desc).map fun e => (regionBase e r.tileix, entryLen e)

/-- The retirement turn over the declared `out` regions (R81). -/
def publishRegions (l : LaunchRec) (low pub : Nat) (cores : List Nat) : List (Word × Nat) → State × Option TrapInfo →
    Except Leg (State × Option TrapInfo)
  | [], x => .ok x
  | e :: es, x =>
    match retirePages l low pub cores (e.1 + BitVec.ofNat 64 e.2) (regionPages e.1 e.2) x with
    | .error g => .error g
    | .ok y => publishRegions l low pub cores es y

/-! ## Retirement (R84) -/

/-- The step ends with an outcome; its slots become EMPTY once its record is written (R72, R84, R85). -/
def retireWith (s : State) (handle outcome cause : Nat) (frec : Word) : State :=
  match findStep s handle with
  | some r =>
    let (s, r) := endRun s r
    completeStep s r outcome cause frec
  | none => s

/-- The step ends with a fault, once its record is written at FRECBASE of a slot's hart (R81, R326, R350). -/
def retireFault (s : State) (handle k : Nat) (t : TrapInfo) : Except Leg State :=
  match recordLegAt s k with
  | some leg => .error leg
  | none =>
    let y := recordAt s k t
    .ok (retireWith y.1 handle 1 t.cause.toNat y.2)

/-- The outcome of a step whose retirement turn met no failure: an engine fault that no boundary took (R326), else what
`tdone` reported (R334). (DEDUCED, log 28.) -/
def retireOutcome (s : State) (handle : Nat) (ks : List Nat) : Except Leg State :=
  match ks.find? fun k => !(hartAt s k).engineFaults.isEmpty with
  | some k =>
    match (hartAt s k).engineFaults with
    | t :: _ => retireFault s handle k t
    | [] => .ok s
  | none =>
    match (findStep s handle).bind (·.outcome) with
    | some (o, c, f) => .ok (retireWith s handle o c f)
    | none => .ok (retireWith s handle 0 0 0)

/-- The retirement of a retryable step: all its held granules are tested against R99 before any is switched (R81); where one
fails, the step is aborted, with its record and report (R174). -/
def retireHeld (s : State) (r : StepRec) (ks : List Nat) (low pub : Nat) : Except Leg State :=
  match badHeld s r.handle with
  | some (gran, e, kind) =>
    match recordLegAt s low with
    | some leg => .error leg
    | none =>
      let t := checkTrap (BitVec.ofNat 64 (64 * gran)) e.g (pathWord 7 0 kind)
      let s' := retireScore s low t
      .ok (switchTo (checkAbort (switchTo s' low) t r.handle none) s'.cur)
  | none =>
    match publishHeld s r low pub with
    | .error g => .error g
    | .ok s' => retireOutcome s' r.handle ks

/-- The retirement of a step that is not retryable: its `out` regions are turned (R81). -/
def retireRegions (s : State) (l : LaunchRec) (r : StepRec) (ks : List Nat) (low pub : Nat) : Except Leg State :=
  match publishRegions l low pub (ks.map coreOfSlot) (outRegions l r) (s, none) with
  | .error g => .error g
  | .ok (s', some t) => retireFault s' r.handle low t
  | .ok (s', none) => retireOutcome s' r.handle ks

/-- STEP_RETIRE: every hart has started and executed `tdone`, and nothing of theirs is outstanding: the step publishes and its record is
queued (R81, R84). Where a granule finds no way to its home, or a page moves, retirement waits (R150, R392).
(DEDUCED, log 28.) -/
def execStepRetire (handle : Nat) (s : State) : Result :=
  match findStep s handle with
  | none => .next s
  | some r =>
    let ks := slotsOfStep s handle
    match ks, findLaunch s r.launch with
    | low :: _, some l =>
      if r.place != .running || r.stopping.isSome || !allStarted s r || !ks.all (fun k => (hartAt s k).tdone.isSome) || stepCopies s handle then
        .next s
      else
        let pub := rcdPub (slotAt s low).rcd
        match (if r.retryable then retireHeld s r ks low pub else retireRegions s l r ks low pub) with
        | .ok s' => .next s'
        | .error leg => .next (reportLeg s leg)
    | _, _ => .next s

/-! ## Completion records (R84, R85) -/

/-- The second response to a LAUNCH message: the completion record (R410). -/
def launchResponse (l : LaunchRec) (ws : List Word) : List Msg :=
  match l.msg with
  | some m => [message m.port.toNat m.conn 1 true 0 (m.h0.extractLsb' 0 32) (wordBytes ws)]
  | none => []

/-- A launch's record is written: the launch is no longer live (R68, R85, R410), and of a table that no live launch has no page
moves any more, and no refusal stands (R150, R413). -/
def launchEnds (s : State) (id : Nat) (ws : List Word) : State :=
  let out := match findLaunch s id with | some l => launchResponse l ws | none => []
  let live := s.disp.launches.filter fun l => l.id != id
  { s with
    disp := { s.disp with
      launches := live
      past := match findLaunch s id with | some l => tput s.disp.past id l.queuedSteps | none => s.disp.past }
    mer := { s.mer with outputs := s.mer.outputs.filter fun o => o.launch != id }
    ports := { s.ports with
      sent := s.ports.sent ++ out
      moving := s.ports.moving.filter fun m => live.any fun l => l.table == m.1
      refusals := s.ports.refusals.filter fun m => live.any fun l => l.table == m.1 } }

/-- A step's record is written: its slots become EMPTY, its dependents are released, its routes and what it waited on go, and
its launch counts it (R72, R84, R85, R91). -/
def stepEnds (s : State) (handle : Nat) : State :=
  match findStep s handle with
  | some r =>
    let s := satisfy (endHarts s handle) handle
    let s := if r.win.isSome then firingDone s handle else s
    let s := { s with disp := { s.disp with
      steps := s.disp.steps.filter fun q => q.handle != handle
      edges := s.disp.edges.filter fun e => e.1 != handle
      shared := s.disp.shared.filter fun e => e.1 != handle
      routes := s.disp.routes.filter fun x => x.handle != handle
      barriers := s.disp.barriers.filter fun b => b.handle != handle } }
    match findLaunch s r.launch with
    | some l =>
      finishLaunch (setLaunch s { l with
        completed := l.completed + 1, cycles := l.cycles + r.cycles, energy := l.energy + r.energy }) l.id
    | none => s
  | none => s

/-- The ring has room (R85). -/
def ringRoom (d : Dispatcher) : Bool :=
  2 ≤ d.cqsize.toNat && (d.cqtail.toNat + 1) % d.cqsize.toNat != d.cqhead.toNat % d.cqsize.toNat

/-- The words of a record as it is written: a step's last holds the energy charged to it until then (R85, R86), and TEND.
(DEDUCED, log 28.) -/
def writtenWords (s : State) (p : PendingRecord) (tend : Word) : List Word :=
  (match (if p.final then findStep s p.handle else none) with
    | some r => p.words.set 2 (BitVec.ofNat 64 r.energy)
    | none => p.words).set 4 tend

/-- COMPLETION_RECORD_WRITE: the oldest record goes to the ring, once there is room and the way on to the I3 copy of its granule is
up (R84, R85, R95, R392; DEDUCED, log 28). A CQBASE that is no multiple of 64 is kept as it was written, and the record goes to
the granule that it lies in. (DESIGN CHOICE, log 28.) -/
def execCompletionRecordWrite (s : State) : Result :=
  match s.disp.records with
  | [] => .next s
  | p :: rest =>
    let gran := (s.disp.cqbase.toNat / 64 + s.disp.cqtail.toNat) % 2 ^ 36
    if !ringRoom s.disp then .next s
    else match refreshLeg s gran with
    | some l => .next (reportRoute s l.1 l.2)
    | none =>
      let (t, s) := readTime s
      let d := s.disp
      let ws := writtenWords s p t
      -- a ring outside HBM is given no place: nothing is written there
      let s := if windowOf gran = 0 then putO3 s gran (mkGranule (granuleOfWords ws) prodManagement 4 0) else s
      let s := { s with disp := { s.disp with
        records := rest, cqtail := BitVec.ofNat 16 ((d.cqtail.toNat + 1) % d.cqsize.toNat) } }
      if !p.final then .next s
      else if p.handle % 2 ^ 24 = 0xFFFFFF then .next (launchEnds s (p.handle / 2 ^ 24) ws) else .next (stepEnds s p.handle)

end Sys2Proof.Machine
end

