-- ==== Sys2Proof/Machine/Devices.lean ====
section
/-! DEFINITION. The agents outside the harts: drains in their own time (R95, R118), page moves (R149-R151, R155), the
management core's stores (R159), remote memory access (R411, R412), TLB invalidation (R354), commutative-range registers
(R143) and the device time base (R23). -/

namespace Sys2Proof.Machine

/-! ## The hierarchy in its own time -/

/-- Formerly held entries drain in the order they were written (R80): an older one waits elsewhere in the cluster. -/
def olderWaits (s : State) (n : Nat) (e : OutEntry) : Bool :=
  let older := fun (x : Nat × OutEntry) => x.2.fifo && x.2.held.isNone && x.2.seq < e.seq
  e.fifo && ((clusterAt s n).o2.any older || (coresOf n).any fun c => (coreAt s c).o1.any older)

/-- OUTBOUND_DRAIN: an entry of O1 (`lvl` 1, unit a core), of O2 (`lvl` 2, unit a cluster; its partials of the granule with
it), or of a port engine's buffer (`lvl` 3) moves outward (R27, R95, R146). -/
def execOutboundDrain (lvl unit gran : Nat) (s : State) : Result :=
  if lvl = 1 then
    match tget (coreAt s unit).o1 gran with
    | some e => .next (if e.held.isNone && olderWaits s (clusterOfCore unit) e then s else drainO1 s unit gran)
    | none => .next s
  else if lvl = 2 then
    let s := match tget (clusterAt s unit).o2 gran with
      | some e => if olderWaits s unit e then s else drainO2 s unit gran
      | none => s
    .next (combinePartials s unit fun p => p.pa / 64 == gran)
  else .next (deliverRemote s gran)

/-- O3_WRITEBACK: the junction moves an O3 entry on into HBM (R95). -/
def execO3Writeback (gran : Nat) (s : State) : Result := .next (writeBack s gran)

/-- The copy that an output port's entry of the multicast reserve holds leaves through it, unless its link pair is out of
service (R118, R392). -/
def leaveReserve (s : State) (router port : Nat) : State :=
  match s.mesh.find? fun f => f.router == router && f.branch == some port with
  | some f => if branchUp s router port then leavePort applyFlit f { s with mesh := s.mesh.erase f } port else s
  | none => s

/-- MULTICAST_RESERVE_FORWARD: a blocked branch frees, the flit of its reserve entry goes on, and what waited for the entry can
move (R118, R119). -/
def execMulticastReserveForward (out : RouterPort) (s : State) : Result := .next (flow (leaveReserve s out.router out.port))

/-! ## Stores that merge at the home junction (R159, R411) -/

/-- The bytes of a write as a little-endian number. -/
def bytesVal : List Byte → Nat
  | [] => 0
  | b :: t => b.toNat + 256 * bytesVal t

/-- The granule parts of `len` bytes at a physical address: granule, offset in it, place in the data, bytes. -/
def physParts (pa : Nat) : Nat → Nat → Nat → List (Nat × Nat × Nat × Nat)
  | 0, _, _ => []
  | n + 1, at', len =>
    if len = 0 then []
    else
      let here := min len (64 - (pa + at') % 64)
      ((pa + at') / 64, (pa + at') % 64, at', here) :: physParts pa n (at' + here) (len - here)
def partsOfPhys (pa len : Nat) : List (Nat × Nat × Nat × Nat) := physParts pa (len / 64 + 2) 0 len

/-- The first partly covered granule whose old contents fail their check. -/
def badOld (s : State) (ps : List (Nat × Nat × Nat × Nat)) : Option (Nat × Granule × Word) :=
  ps.findSome? fun p =>
    if p.2.2.2 = 64 then none
    else
      let f := peekJ s p.1
      f.c.g.badKind.map fun kind => (p.1, f.c.g, pathWord f.src f.tag kind)

/-- The granules of a write are formed at their home junctions with LEVEL 4 (R98). -/
def formParts (s : State) (prod val : Nat) (ps : List (Nat × Nat × Nat × Nat)) : State :=
  ps.foldl (fun s p =>
    let new := placeBytes p.2.1 (partVal val p.2.2.1 p.2.2.2)
    let old := (junctionGranule s p.1).1.data
    putO3 s p.1 (mkGranule (mergeMask old new (byteMask p.2.1 p.2.2.2)) prod 4 0)) s

/-- The first leg without a way of a unit's read of some granule parts at their homes (R392). -/
def readWay (s : State) (router : Nat) (ps : List (Nat × Nat × Nat × Nat)) : Leg := ps.findSome? fun p => legFrom s (some router) p.1

/-- The first leg without a way of a unit's write of some granule parts, to their homes and on to the I3 copies (R95, R392). -/
def writeWay (s : State) (router : Nat) (ps : List (Nat × Nat × Nat × Nat)) : Leg := ps.findSome? fun p => writeLeg s (some router) p.1

/-- A write of the management core: an old granule that fails its check is reported, and nothing is written (R159). -/
def managementStore (s : State) (pa : Nat) (data : List Byte) : State :=
  let ps := partsOfPhys pa data.length
  match badOld s ps with
  | some (gran, g, path) => reportCheck s none gran g path
  | none => formParts s prodManagement (bytesVal data) ps

/-- MANAGEMENT_CORE_STORE (R159): to HBM; it waits while it finds no way (R392). -/
def execManagementCoreStore (pa : Nat) (data : List Byte) (s : State) : Result :=
  if pa + data.length ≤ hbmBytes then
    match writeWay s managementRouter (partsOfPhys pa data.length) with
    | some l => .next (reportRoute s l.1 l.2)
    | none => .next (managementStore s pa data)
  else .next s

/-- A load of the management core from HBM: relation 3, the home I3 slice and then the home junction, checked (R424, R167). Its
instructions are firmware's own; what it reads is this. -/
def managementLoad (s : State) (pa : Nat) : Except TrapInfo Granule :=
  consume s .far none (BitVec.ofNat 64 pa) (if windowOf (pa / 64) = 0 then peekI3 s (pa / 64) else peekHome s (pa / 64))

/-! ## Pages (R149, R150, R413, R414) -/

/-- Why firmware's walk finds no leaf: the table maps the address to nothing (R414); an entry fails its check (R353); or an
entry's home finds no way (R392). -/
inductive NoLeaf where
  | absent
  | fault (t : TrapInfo)
  | noWay (leg : Nat × Nat)
  deriving DecidableEq, Repr

/-- What a launch's table holds for an address: the physical address of the leaf entry, the entry and its level. -/
def leafAt (s : State) (va : Word) : Nat → Nat → Nat → Except NoLeaf (Nat × Word × Nat)
  | 0, _, _ => .error .absent
  | fuel + 1, level, table =>
    let pa := table + 8 * vaIndex va level
    if unbound s pa then .error .absent
    else match readPte s .management va pa with
    | .fault t => .error (.fault t)
    | .noWay l => .error (.noWay l)
    | .entry e =>
      if !pteV e || pteBad e level then .error .absent
      else if pteLeaf e then .ok (pa, e, level)
      else leafAt s va fuel (level + 1) (pteBase e)

/-- A page's move out begins or goes on: accesses to it wait (R150). -/
def holdPage (s : State) (table key level : Nat) : State :=
  if s.ports.moving.contains (table, key, level) then s
  else { s with ports := { s.ports with moving := (table, key, level) :: s.ports.moving } }

/-- A page's move out is over. -/
def freePage (s : State) (table key level : Nat) : State :=
  { s with ports := { s.ports with moving := s.ports.moving.filter fun x => x != (table, key, level) } }

/-- A move out of the page at an address that still waits is given up: its table no longer maps it. -/
def dropMove (s : State) (table : Nat) (va : Word) : State := freePage (freePage s table (pageKey va 2) 2) table (pageKey va 3) 3

/-- What firmware makes of a walk that found no leaf: an entry that fails its check is reported and scored (R168, R170); where
there is no way (R392) it reports that, and waits. -/
def reportLeaf (s : State) (table : Nat) (va : Word) (e : NoLeaf) : State :=
  match e with
  | .absent => dropMove s table va
  | .fault t => reportWalk (dropMove s table va) (some t)
  | .noWay l => reportLeg s (some l)

/-- The same for a page of a launch; where no live launch has the id nothing is looked at (R414). -/
def reportPage (s : State) (launch : Nat) (va : Word) (e : NoLeaf) : State :=
  match findLaunch s launch with
  | some l => reportLeaf s l.table va e
  | none => s

/-- TABLE of a LAUNCH body: the dword after the launch block (Table 30.2). -/
def bodyWord (bs : List Byte) (i : Nat) : Word := BitVec.ofNat 64 (bytesVal ((bs.drop (8 * i)).take 8))
def launchTable (bs : List Byte) : Word := bodyWord bs 8

/-- The leaf of a live launch's page. -/
def pageLeaf (s : State) (launchId : Nat) (va : Word) : Except NoLeaf (Nat × Word × Nat) :=
  if va.extractLsb' 48 16 != 0 then .error .absent
  else match findLaunch s launchId with
    | some l => leafAt s va 3 1 l.table
    | none => .error .absent

def pageBytes (level : Nat) : Nat := if level = 2 then 2 ^ 29 else 65536

/-- Firmware writes a page table entry. -/
def writePte (s : State) (pa : Nat) (pte : Word) : State := managementStore s pa (wordBytes [pte])

/-- A notice of the migration engine that invalidates granules lo … hi in every I1, I2 and I3 (R150). -/
def invalidateAll (s : State) (lo hi : Nat) : State :=
  let s := noticeNow s prodMigration lo hi
  { s with i3 := invTbl s.i3 fun k => lo / 2 ≤ k / 2 && k / 2 ≤ hi / 2 }

/-- A request of the device for a page of an address space no longer stands (R413). -/
def dropRequest (s : State) (table key : Nat) : State :=
  { s with ports := { s.ports with pageRequests := s.ports.pageRequests.filter fun q => !(q.table == table && q.page == key) } }

/-- What the host holds of a page: what has moved out to it, as the host has changed it since. -/
def hostData (s : State) (base : Nat) (image : List (Nat × GData)) (i : Nat) : GData :=
  let old := match s.ports.hostPages.find? fun p => p.base == base with | some p => p.data | none => []
  match (image ++ old).find? fun x => x.1 == i with | some x => x.2 | none => 0

/-- Granules at all the homes of a page: they stand in 4 KiB blocks (R20). -/
def pageBlocks (leaf : Nat × Word × Nat) : List Nat :=
  (List.range (min 64 (pageBytes leaf.2.2 / 4096))).map fun i => pteBase leaf.2.1 / 64 + 64 * i

/-- The leg of a page's move that has no way now (R392), of its granules or of the write of its leaf entry: the migration engine and
firmware share a router (Table 01.4). -/
def moveLeg (s : State) (leaf : Nat × Word × Nat) : Leg :=
  (writeLeg s (some managementRouter) (leaf.1 / 64)).or
    ((pageBlocks leaf).findSome? fun g => legFrom s (some managementRouter) g)

/-- A request of the device for a page is answered by the page itself: it no longer stands, and a refusal that no access has taken is
forgotten (R149, R413). -/
def grantPage (s : State) (table key : Nat) : State :=
  let s := dropRequest s table key
  { s with ports := { s.ports with refusals := s.ports.refusals.filter fun x => x != (table, key) } }

/-- A page moves in (R150): every granule is formed anew by the migration engine, a notice invalidates its lines, and
ownership passes. `image` lists the granules that the host has changed; the others come back as they left, or zero.
(DEDUCED, log 30.) -/
def moveIn (s : State) (table : Nat) (va : Word) (leaf : Nat × Word × Nat) (image : List (Nat × GData)) : State :=
  let base := pteBase leaf.2.1 / 64
  let n := pageBytes leaf.2.2 / 64
  let data := hostData s (pteBase leaf.2.1) image
  let s := forUp n 0 (fun i s =>
    let s := { s with o3 := tdel s.o3 (base + i), hbmSeq := tput s.hbmSeq (base + i) s.disp.seq }
    setHbm s (base + i) (mkGranule (data i) prodMigration 4 0)) s
  let s := { s with ports := { s.ports with
    hostPages := s.ports.hostPages.filter fun p => p.base != pteBase leaf.2.1 } }
  let s := invalidateAll s base (base + n - 1)
  grantPage (writePte s leaf.1 (leaf.2.1 &&& ~~~((1 : Word) <<< 62))) table (pageKey va leaf.2.2)

/-- A page moves in where every granule finds its way and every cluster acknowledges the notice; and whether it did (R107, R150,
R392). -/
def bringIn (s : State) (table : Nat) (va : Word) (leaf : Nat × Word × Nat) (image : List (Nat × GData)) : State × Bool :=
  match moveLeg s leaf with
  | some l => (reportLeg s (some l), false)
  | none =>
    let t := moveIn s table va leaf image
    if acked t prodMigration then (t, true) else (s, false)

/-- The steps that hold granules or partials in granules lo … hi. -/
def holdersIn (s : State) (lo hi : Nat) : List Nat :=
  let within := fun (x : Nat × OutEntry) => if lo ≤ x.1 && x.1 ≤ hi then x.2.held else none
  ((s.cores.flatMap fun kc => kc.2.o1.filterMap within) ++
    (s.clusters.flatMap fun kc => kc.2.o2held.filterMap within ++
      kc.2.partials.filterMap fun p => if lo ≤ p.pa / 64 && p.pa / 64 ≤ hi then p.held else none)).eraseDups

/-- Every outbound entry and partial in granules lo … hi drains to its home junction. -/
def drainRange (s : State) (lo hi : Nat) : State :=
  let within := fun (k : Nat) => lo ≤ k && k ≤ hi
  let s := s.cores.foldl (fun s kc =>
    ((kc.2.o1.filter fun x => within x.1).map (·.1)).foldl (fun s g => drainO1 s kc.1 g) s) s
  s.clusters.foldl (fun s kc =>
    let s := ((kc.2.o2.filter fun x => within x.1).map (·.1)).foldl (fun s g => drainO2 s kc.1 g) s
    combinePartials s kc.1 fun p => within (p.pa / 64)) s

/-- The granules of a range that differ from the reset fill or wait in O3: the others hold level 4 and verify. -/
def writtenIn (s : State) (lo hi : Nat) : List Nat :=
  (((s.o3.map (·.1)) ++ (s.memMeta.map (·.1)) ++ List.map (fun c : Host.Cell => c.1 / 64) s.mem).filter fun k => lo ≤ k && k ≤ hi).eraseDups

/-- Something of granules lo … hi still waits in an outbound level of a cluster. -/
def outboundIn (s : State) (lo hi : Nat) : Bool :=
  let within := fun (x : Nat × OutEntry) => lo ≤ x.1 && x.1 ≤ hi
  (s.cores.any fun kc => kc.2.o1.any within) ||
    s.clusters.any fun kc => kc.2.o2.any within || kc.2.partials.any fun p => lo ≤ p.pa / 64 && p.pa / 64 ≤ hi

/-- The translations of a page leave every TLB, for the launches named, and the tile stashes drop (R305, R354). -/
def forgetPage (s : State) (launches : Nat → Bool) (page : Nat) : State :=
  let keep := fun (e : TlbEntry) =>
    !(launches e.launch && (if e.big then e.page / 8192 == page / 8192 else e.page == page))
  { s with
    cores := List.map (fun x : Nat × CoreSt => (x.1, { x.2 with tlb := x.2.tlb.filter keep })) s.cores
    clusters := List.map (fun x : Nat × ClusterSt => (x.1, { x.2 with tlb := x.2.tlb.filter keep, stash := [] })) s.clusters }

/-- How a move out ends: the page has left; a granule failed its check; or a granule finds no way home yet (R392). -/
inductive MoveEnd where
  | left | failed | waits
  deriving DecidableEq, Repr

/-- The copy of the page that the host receives: its granules that are not zero (R150, R151). -/
def hostCopy (s : State) (base : Nat) (keys : List Nat) : HostPage :=
  ⟨base, (keys.map fun k => (k - base / 64, (junctionGranule s k).1.data)).filter fun x => x.2 != 0⟩

/-- A page moves out (R150, R151, R155). A granule whose metadata is bad is not switched; one that fails its check is reported
and scored, and the page stays device-owned. Where something of it finds no way, the notice among it, the move waits, and
accesses to the page with it (R107, R392). (DEDUCED, log 30.) -/
def moveOut (s : State) (leaf : Nat × Word × Nat) (table : Nat) (va : Word) : State × MoveEnd :=
  let lo := pteBase leaf.2.1 / 64
  let hi := lo + pageBytes leaf.2.2 / 64 - 1
  let key := pageKey va leaf.2.2
  let s := (holdersIn s lo hi).foldl (fun s h => abortStep s h false none 0 0) s
  let s := drainRange s lo hi
  if outboundIn s lo hi || (moveLeg s leaf).isSome then (reportLeg (holdPage s table key leaf.2.2) (moveLeg s leaf), .waits)
  else if !acked (invalidateAll s lo hi) prodMigration then (holdPage s table key leaf.2.2, .waits)
  else
    let s := freePage s table key leaf.2.2
    let s := ((s.o3.filter fun x => lo ≤ x.1 && x.1 ≤ hi).map (·.1)).foldl writeBack s
    let keys := writtenIn s lo hi
    let s := keys.foldl (fun s k => if (junctionGranule s k).1.metaKind.isNone then raiseAtJunction s k 4 else s) s
    let s := invalidateAll s lo hi
    match keys.findSome? fun k => (peekJ s k).c.g.badKind.map fun kind => (k, kind) with
    | some (k, kind) =>
      let f := peekJ s k
      (reportCheck s none k f.c.g (pathWord f.src f.tag kind), .failed)
    | none =>
      let page := hostCopy s (pteBase leaf.2.1) keys
      let s := { s with ports := { s.ports with
        hostPages := page :: s.ports.hostPages.filter fun p => p.base != page.base } }
      let s := ((s.attach.filter fun x => lo ≤ x.1 && x.1 ≤ hi).map (·.1)).foldl loseAttachment s
      let s := writePte s leaf.1 (leaf.2.1 ||| (1 : Word) <<< 62)
      -- the changed entry reaches the clusters through firmware's invalidation (R354)
      (forgetPage s (fun l => tableOf s l == table) (pageOf va), .left)

/-- A running hart of the launches named is inside an instruction that holds a translation (R354, R355). (DEDUCED, log 12.) -/
def holdsTranslation (s : State) (launches : Nat → Bool) : Bool :=
  (runningSlots s).any fun k =>
    let h := hartAt s k
    launches (launchOf h.steph) && (h.mid || h.awaitsAcks)

/-- PAGE_MOVE_IN (R150): firmware brings a host-owned page in. -/
def execPageMoveIn (launchId : Nat) (va : Word) (image : List (Nat × GData)) (s : State) : Result :=
  match pageLeaf s launchId va with
  | .ok leaf =>
    .next (if pteHost leaf.2.1 && pteBase leaf.2.1 < hbmBytes then (bringIn s (tableOf s launchId) va leaf image).1 else s)
  | .error e => .next (reportPage s launchId va e)

/-- A move out waits for the instructions that hold a translation (R354), unless it has begun: then they wait for it. -/
def moveBlocked (s : State) (table : Nat) (va : Word) (level : Nat) : Bool :=
  !moving s table va level && holdsTranslation s (fun l => tableOf s l == table)

/-- PAGE_MOVE_OUT (R150). -/
def execPageMoveOut (launchId : Nat) (va : Word) (s : State) : Result :=
  match pageLeaf s launchId va with
  | .ok leaf =>
    let table := tableOf s launchId
    if pteHost leaf.2.1 || pteBase leaf.2.1 ≥ hbmBytes || moveBlocked s table va leaf.2.2 then .next s
    else .next (moveOut s leaf table va).1
  | .error e => .next (reportPage s launchId va e)

/-- TLB_INVALIDATION (R354): it waits for instructions that hold a translation; the tile stash drops (R305). -/
def execTlbInvalidation (launchId : Nat) (va : Word) (s : State) : Result :=
  let of := fun l => l == launchId
  .next (if holdsTranslation s of then s else forgetPage s of (pageOf va))

/-! ## Remote memory access (R411, R412) -/

/-- A port engine runs: in the safe talkative state port 0 alone does (R417). -/
def portRuns (s : State) (port : BitVec 3) : Bool := !s.ports.talkative || port == 0

/-- Why a port engine's access goes no further: some page is not a device-owned HBM page that admits it; a table entry fails its
check (R353); or it waits for a way to a table entry or for a page's move (R150, R392). -/
inductive PortStop where
  | refused
  | entry (t : TrapInfo)
  | wait (leg : Leg)
  deriving DecidableEq, Repr

/-- The physical pieces of an access of a port engine, page by page: place in the data, physical address, bytes. -/
def portPieces (s : State) (port table : Nat) (a : Acc) : Nat → Word → Nat → Nat → Except PortStop (List (Nat × Nat × Nat))
  | 0, _, _, _ => .ok []
  | n + 1, va, at', left =>
    if left = 0 then .ok []
    else match xlateTable s (.ofPort port) table va a with
      | .ok pa _ =>
        let here := min left (65536 - pa % 65536)
        if pa ≥ hbmBytes || (a == .write && (rangeMeeting s pa here).isSome) then .error .refused
        else match portPieces s port table a n (va + BitVec.ofNat 64 here) (at' + here) (left - here) with
          | .ok r => .ok ((at', pa, here) :: r)
          | .error e => .error e
      | .page _ _ _ => .error .refused
      | .host _ => .error .refused
      | .walk t => .error (.entry t)
      | .wait leg => .error (.wait leg)

def portAccess (s : State) (port launchId : Nat) (a : Acc) (va : Word) (len : Nat) : Except PortStop (List (Nat × Nat × Nat)) :=
  match findLaunch s launchId with
  | some l => portPieces s port l.table a (len / 65536 + 2) va 0 len
  | none => .error .refused

/-- The granule parts of the pieces of an access: granule, offset in it, place in the data, bytes. -/
def pieceParts (xs : List (Nat × Nat × Nat)) : List (Nat × Nat × Nat × Nat) :=
  xs.flatMap fun x => (partsOfPhys x.2.1 x.2.2).map fun p => (p.1, p.2.1, p.2.2.1 + x.1, p.2.2.2)

/-- What a port engine's access that goes no further answers: a transport error, unless it waits (R411, R412). -/
def portStop (s : State) (e : PortStop) (error : State → State) : State :=
  match e with
  | .refused => error s
  | .entry t => error (reportWalk s (some t))
  | .wait leg => reportLeg s leg

def ackWrite (s : State) (port : Nat) (ok : Bool) : State :=
  { s with ports := { s.ports with acks := s.ports.acks ++ [(port, ok)] } }

/-- REMOTE_WRITE (R411). It waits while a granule finds no way to its home, or a cluster cannot acknowledge its notice (R392). -/
def execRemoteWrite (port : BitVec 3) (launchId : Nat) (va : Word) (data : List Byte) (s : State) : Result :=
  if !portRuns s port then .next s
  else match portAccess s port.toNat launchId .write va data.length with
  | .error e => .next (portStop s e fun s => ackWrite s port.toNat false)
  | .ok xs =>
    let ps := pieceParts xs
    match writeWay s (portRouter port.toNat) ps with
    | some l => .next (reportRoute s l.1 l.2)
    | none =>
      match badOld s ps with
      | some (gran, g, path) => .next (ackWrite (reportCheck s none gran g path) port.toNat false)
      | none =>
        let t := formParts s (prodPort port.toNat) (bytesVal data) ps
        let t := xs.foldl (fun s x => noticeNow s (prodPort port.toNat) (x.2.1 / 64) ((x.2.1 + x.2.2 - 1) / 64)) t
        .next (if acked t (prodPort port.toNat) then ackWrite t port.toNat true else s)

/-- The bytes of a remote read, or the granule and the fault that stopped it: R103 is applied against the port engine's replica (R131),
and the record holds a physical address (R168). -/
def portRead (s : State) (port : Nat) : List (Nat × Nat × Nat × Nat) → Except (Nat × TrapInfo) (List Byte)
  | [] => .ok []
  | p :: ps =>
    match consume s .port (some (portReplica port)) (BitVec.ofNat 64 (64 * p.1)) (peekJ s p.1) with
    | .error t => .error (p.1, t)
    | .ok g =>
      match portRead s port ps with
      | .error t => .error t
      | .ok bs => .ok ((List.range p.2.2.2).map (fun i => g.data.extractLsb' (8 * (p.2.1 + i)) 8) ++ bs)

def ackRead (s : State) (port : Nat) (r : Option (List Byte)) : State :=
  { s with ports := { s.ports with reads := s.ports.reads ++ [(port, r)] } }

/-- REMOTE_READ (R412). It waits while a granule finds no way from its home (R392). -/
def execRemoteRead (port : BitVec 3) (launchId : Nat) (va : Word) (len : Nat) (s : State) : Result :=
  if !portRuns s port then .next s
  else match portAccess s port.toNat launchId .read va len with
  | .error e => .next (portStop s e fun s => ackRead s port.toNat none)
  | .ok xs =>
    let ps := pieceParts xs
    match readWay s (portRouter port.toNat) ps with
    | some l => .next (reportRoute s l.1 l.2)
    | none =>
      match portRead s port.toNat ps with
      | .ok bs => .next (ackRead s port.toNat (some bs))
      | .error (gran, t) => .next (ackRead (reportFault s none (64 * gran) t) port.toNat none)

/-- DISCARDED_PACKET (R406). -/
def execDiscardedPacket (port : BitVec 3) (s : State) : Result :=
  if !portRuns s port then .next s
  else
  let n := tgetD s.ports.discarded port.toNat 0
  .next { s with ports := { s.ports with discarded := tput s.ports.discarded port.toNat (n + 1) } }

/-! ## Registers of the management core -/

/-- A pair of range registers that no write may leave (R143). -/
def crngBad (s : State) (n : Nat) (b c : Word) : Bool :=
  crngValid c && (crngOp c == 3 || crngFmt c == 3 || crngLen c == 0 || crngBase b + crngLen c > hbmBytes ||
    (List.range 16).any fun i =>
      let b' := s.crngb.toList.getD i 0
      let c' := s.crngc.toList.getD i 0
      i != n && crngValid c' && crngBase b < crngBase b' + crngLen c' && crngBase b' < crngBase b + crngLen c)

/-- CRNG_WRITE (R143): CRNGCn when `isC`, else CRNGBn. OVF is cleared by a written 1. -/
def execCrngWrite (n : BitVec 4) (isC : Bool) (v : Word) (s : State) : Result :=
  let i := n.toNat
  let b := s.crngb.toList.getD i 0
  let c := s.crngc.toList.getD i 0
  if isC then
    let new := (v &&& 0x800FFF003FFFFFFF) ||| (c &&& ~~~v &&& ((1 : Word) <<< 62))
    .next (if crngBad s i b new then s else { s with crngc := s.crngc.setIfInBounds i new })
  else
    let new := v &&& 0x3FFFFFFF000
    .next (if crngBad s i new c then s else { s with crngb := s.crngb.setIfInBounds i new })

/-- IEEE_1588_SYNC: the time base is slewed, never stepped backward (R23, R235), and never past a moment that awaits its event
(R347, R373, R381, R397). -/
def execIeee1588Sync (ns : Nat) (s : State) : Result := .next (timeReaches s (BitVec.ofNat 64 (min ns (timeLimit s))))

end Sys2Proof.Machine
end

