-- ==== Sys2Proof/Machine/Service.lean ====
section
/-! DEFINITION. Leases, suspicion and retirement (R388-R403), thermal steps (R423) and energy (R86), and `capq` (R341). -/

namespace Sys2Proof.Machine

/-! ## The schedule (R388, R398) -/

/-- The early leases of a class, in the order they were brought forward (R398). -/
def earlyOf (s : State) (cls : Nat) : List Nat := (s.svc.early.filter fun u => u.1 == cls).map (·.2)

/-- Starts each early lease that the class limits allow; the others stay for the next interval (R398).
(DEDUCED, log 33.) -/
def startEarly (s : State) (cls : Nat) : State :=
  (earlyOf s cls).foldl (fun s u => if limitsAllow s cls u then startLease s cls u false else s) s

/-- The unit after another in a class's schedule. -/
def followingUnit (cls u : Nat) : Nat := if u + 1 < unitsOf cls then u + 1 else 0

def setNext (s : State) (cls : Nat) (u : Nat) : State :=
  { s with svc := { s.svc with nextUnit := s.svc.nextUnit.setIfInBounds cls u } }

/-- The scheduled lease of an interval: a unit that is leased or retired is passed over, a lease that a limit forbids is
skipped and retried (R388). -/
def startScheduled (s : State) (cls : Nat) : State :=
  let u := s.svc.nextUnit.toList.getD cls 0
  if leaseOf s cls u != .inService then setNext s cls (followingUnit cls u)
  else if limitsAllow s cls u then setNext (startLease s cls u false) cls (followingUnit cls u)
  else s

/-- LEASE_INTERVAL: an interval of a class; a period of 0 stops its scheduled leases (R388, R398, R403). -/
def execLeaseInterval (cls : BitVec 2) (s : State) : Result :=
  let c := cls.toNat
  if !opened s then .next s
  else
    let s := startEarly s c
    .next (if s.svc.lperiod.toList.getD c 0 = 0 then s else startScheduled s c)

/-! ## Draining (R390-R393) -/

/-- The highest cause that is written (Table 23.1, R343). -/
def lastCause : Nat := 0x12

/-- ECAUSE of a step that a lease leaves without retries is not stated; it is one that is written (R343). (DEDUCED, log 27.) -/
def leaseCause (s : State) : Nat := Config.unstated 390 [s.tick] % (lastCause + 1)

/-- The running step of a core in DRAIN is withdrawn: a retryable one is aborted, using up a retry (R79) unless it is a
team, which is pre-empted whole (R82); any other is switched out once its commands are over and an area is free (R362).
(DEDUCED, log 27.) -/
def withdrawStep (s : State) (r : StepRec) (team : Bool) : State :=
  if r.place != .running then s
  else if r.retryable then abortStep s r.handle (!team) none (leaseCause s) 0
  else stopStep s r .lease

/-- The steps that hold a tile of a cluster. -/
def tileHolders (s : State) (n : Nat) : List Nat :=
  (((runningSlots s).filter fun k => clusterOfSlot k == n && !(hartAt s k).tiles.isEmpty).map
    fun k => slotHandle (slotAt s k)).eraseDups

/-- LEASE_PATIENCE_EXPIRY (R390, R391). -/
def execLeasePatienceExpiry (cls : BitVec 2) (unit : Nat) (s : State) : Result :=
  if leaseOf s cls.toNat unit != .drain then .next s
  else if cls = 0 then
    match runningSlot s unit with
    | some k =>
      match findStep s (slotHandle (slotAt s k)) with
      | some r => .next (nextTick (withdrawStep s r (rcdTeam (slotAt s k).rcd != 0)))
      | none => .next s
    | none => .next s
  else if cls = 1 then
    .next (nextTick ((tileHolders s unit).foldl (fun s h =>
      match findStep s h with
      | some r => preemptFor s r .lease
      | none => s) s))
  else .next s

/-- A draining unit is idle (R390-R393). -/
def unitIdle (s : State) (cls unit : Nat) : Bool :=
  if cls = 0 then (slotsOfCore unit).all fun k => (slotAt s k).st == .empty
  else if cls = 1 then freeTiles s unit == 16
  else true

/-- DRAIN_COMPLETE: an idle unit enters LEASED (R389); not in the safe talkative state (R417). -/
def execDrainComplete (cls : BitVec 2) (unit : Nat) (s : State) : Result :=
  let c := cls.toNat
  .next (if !s.ports.talkative && leaseOf s c unit == .drain && unitIdle s c unit then setLease s c unit .leased else s)

/-! ## Outcome and retirement (R395, R401, R402) -/

/-- The score index of a leased unit (Table 28.4). -/
def scoreOfUnit (cls unit : Nat) : Nat :=
  if cls = 0 then unit else if cls = 1 then 256 + unit else if cls = 2 then 640 + unit else 864 + unit

/-- The 160 bytes of an entry of the retirement log: the record and its signature (R401). -/
def entryBytes (e : List Word × Vector Byte 96) : List Byte := wordBytes e.1 ++ e.2.toList

/-- Dwords from bytes, little-endian. -/
def wordsOf (bs : List Byte) (n : Nat) : List Word := (List.range n).map (bodyWord bs)

/-- The 64-byte retirement record (Table 28.7). -/
def retirementWords (s : State) (cls unit : Nat) (patid : BitVec 32) (now : Word) : List Word :=
  let seq := s.svc.log.length
  let score := tgetD s.svc.scores (scoreOfUnit cls unit) 0
  let prev := match s.svc.log.getLast? with
    | some e => wordsOf (sha384 (entryBytes e)) 4
    | none => [0, 0, 0, 0]
  [(0x4F4E : Word) <<< 48 ||| BitVec.ofNat 64 (seq % 65536 * 2 ^ 32 + cls * 2 ^ 30 + unit * 2 ^ 20 + 65536 + score % 65536),
    now, Config.serial, patid.setWidth 64 <<< 32] ++ prev

/-- Appends an entry to the retirement log, or finds it full (R401); the signature's bytes are the identity key's. (DESIGN
CHOICE, log 10.) -/
def logRetirement (s : State) (cls unit : Nat) (patid : BitVec 32) (now : Word) : State :=
  if s.svc.log.length ≥ 4096 then { s with svc := { s.svc with logFull := true } }
  else
    let ws := retirementWords s cls unit patid now
    { s with svc := { s.svc with log := s.svc.log ++ [(ws, Config.signature ws)] } }

/-- A unit is retired (R395): its log entry has the time at which it enters RETIRED (R401). -/
def retireUnit (s : State) (cls unit : Nat) (patid : BitVec 32) : State :=
  let (now, s) := readTime s
  nextQuarantine (setLeaseAt (logRetirement s cls unit patid now) cls unit .retired now) cls unit

/-- The pseudo-channels of a stack whose data lies in its spares (R402). -/
def remappedIn (s : State) (stack : Nat) : Nat := (s.svc.remapped.filter fun p => p / 64 == stack).length

/-- The pseudo-channels of a stack that its spares hold or are to hold: the stack absorbs three (R402). -/
def absorbedIn (s : State) (stack : Nat) : Nat :=
  remappedIn s stack + (s.svc.retiring.filter fun x => x.1 / 64 == stack).length

/-- A failed lease (R395): the score rises by 256; a first failure leaves the unit LEASED for the full pattern set, a second
retires it. A pseudo-channel that its stack can absorb is retired once its data is moved (R402). (DEDUCED, log 33.) -/
def leaseFails (s : State) (cls unit : Nat) (patid : BitVec 32) : State :=
  let key := unitKey cls unit
  let n := tgetD s.svc.fails key 0 + 1
  let s := { s with svc := { s.svc with fails := tput s.svc.fails key n } }
  let s := addScore s (scoreOfUnit cls unit) 256
  if n < 2 then s
  else if cls = 3 && absorbedIn s (unit / 64) < 3 then
    { s with svc := { s.svc with retiring := tput s.svc.retiring unit patid } }
  else
    let s := if cls = 3 then report s [0x402, BitVec.ofNat 64 unit] else s
    retireUnit s cls unit patid

/-- The pattern source has written the test stripe of a pseudo-channel (R17, R393, R394). -/
def writeStripe (s : State) (cls unit : Nat) : State :=
  if cls = 3 then nextTick { s with stripes := tput s.stripes unit s.tick } else s

/-- A granule of a test stripe: producer 511, LEVEL 4 (R98, R394); one that no test has written holds what is not stated.
(DESIGN CHOICE, log 40.) -/
def stripeGranule (s : State) (pch i : Nat) : Granule :=
  mkGranule (Config.pattern (tgetD s.stripes pch 0) pch i) 511 4 0

/-- PATTERN_RUN_COMPLETE (R389, R393-R395); not in the safe talkative state (R417). -/
def execPatternRunComplete (cls : BitVec 2) (unit : Nat) (pass : Bool) (patid : BitVec 32) (s : State) : Result :=
  let c := cls.toNat
  if s.ports.talkative || leaseOf s c unit != .leased || (c == 3 && (tget s.svc.retiring unit).isSome) then .next s
  else
    let s := writeStripe s c unit
    if pass then .next (nextQuarantine (setLease s c unit .inService) c unit)
    else .next (leaseFails s c unit patid)

/-- PSEUDO_CHANNEL_REMAP: the junction has moved every granule into the spares of the stack, metadata unchanged, and the
retirement is recorded (R402). -/
def execPseudoChannelRemap (pch : Nat) (s : State) : Result :=
  match tget s.svc.retiring pch with
  | some patid =>
    let s := { s with svc := { s.svc with retiring := tdel s.svc.retiring pch, remapped := s.svc.remapped ++ [pch] } }
    .next (retireUnit s 3 pch patid)
  | none => .next s

/-! ## Scores (R397, R403) -/

/-- The halving is the next moment to come. -/
def halvingComes (s : State) : Bool := (moments s).all fun m => nextHalving s.dtime ≤ m || m ≤ s.dtime.toNat

/-- SCORE_HALVING (R397): all at one instant, then the thresholds are compared. -/
def execScoreHalving (s : State) : Result :=
  if !halvingComes s then .next s
  else
  let s := timeReaches s (BitVec.ofNat 64 (nextHalving s.dtime))
  let old := s.svc.scores
  let s := { s with svc := { s.svc with
    scores := (List.map (fun x : Nat × Nat => (x.1, x.2 / 2)) old).filter fun x => x.2 != 0 } }
  .next (old.foldl (fun s x => applyThresholds s x.1 x.2 (x.2 / 2)) s)

/-- Indices that hold a score (Table 28.4). -/
def scoreIndexOk (ix : Nat) : Bool := ix < 1376 && (512 ≤ ix || prodExists ix)

/-- SCDATA_WRITE (R403). -/
def execScdataWrite (v : Word) (s : State) : Result :=
  let ix := s.svc.scix.toNat
  .next (if scoreIndexOk ix then setScore s ix (bits v 0 16) else s)

/-- LCMD (R403); nothing is leased in the safe talkative state (R417). -/
def execLcmd (v : Word) (s : State) : Result :=
  if s.ports.talkative then .next s
  else .next ((unitsOfScore (bits v 0 13)).foldl (fun s u =>
    if leaseOf s u.1 u.2 != .inService then s
    else if limitsAllow s u.1 u.2 then startLease s u.1 u.2 false
    else addEarly s u.1 u.2) s)

/-! ## Heat and energy -/

/-- What firmware does with a chiplet's clock at a sensor reading (R423): it lowers from above TLIMIT until below it, and
raises from 5 °C below TLIMIT. -/
def thermalMode (old temp limit : Nat) : Nat :=
  if limit < temp then 1
  else if temp + 5 ≤ limit then 2
  else if old = 1 && temp < limit then 0
  else old

/-- The steps that run on a chiplet. -/
def chipletSteps (s : State) (c : Nat) : List Nat :=
  (((runningSlots s).filter fun k => coreOfSlot k / 32 == c).map fun k => slotHandle (slotAt s k)).eraseDups

/-- Every step of a chiplet is pre-empted (R82, R423); one that cannot be saved yet has stopped. -/
def preemptChiplet (s : State) (c : Nat) : State :=
  (chipletSteps s c).foldl (fun s h =>
    match findStep s h with
    | some r => preemptFor s r .lease
    | none => s) s

/-- The chiplet whose sensor shows most. -/
def hottest (p : Ports) : Nat :=
  (List.range 8).foldl (fun m c => if p.temps.toList.getD m 0 < p.temps.toList.getD c 0 then c else m) 0

/-- PWRCTL as it reads: TLIMIT, and the steps now taken on the hottest chiplet (Table 30.6). -/
def pwrctl (p : Ports) : Word := p.tlimit.setWidth 64 <<< 8 ||| BitVec.ofNat 64 (p.steps.toList.getD (hottest p) 0)

/-- THERMAL_STEP: 1 ms of firmware's control of a chiplet's clock (R423). -/
def execThermalStep (chiplet : BitVec 3) (temp : Nat) (s : State) : Result :=
  let c := chiplet.toNat
  let p := s.ports
  let limit := p.tlimit.toNat
  let n := p.steps.toList.getD c 0
  let mode := thermalMode (p.thermal.toList.getD c 0) temp limit
  let n' := if mode = 1 then min 8 (n + 1) else if mode = 2 then n - 1 else n
  let tooHot := n = 8 && limit + 10 < temp
  let hot := tooHot || (p.hot.toList.getD c false && limit ≤ temp)
  let s := { s with ports := { p with
    steps := p.steps.setIfInBounds c n', temps := p.temps.setIfInBounds c temp, thermal := p.thermal.setIfInBounds c mode, hot := p.hot.setIfInBounds c hot } }
  .next (if tooHot then preemptChiplet s c else s)

/-- A part of an amount in proportion to a weight. -/
def share (total w sum : Nat) : Nat := if sum = 0 then 0 else total * w / sum

/-- What the core of a slot did in an interval: array slots used, and bits and bytes × hops asked for (R86, R315). -/
def workOf (s : State) (part k : Nat) : Nat :=
  if part = 0 then (coreAt s (coreOfSlot k)).products else Config.work s.tick (coreOfSlot k)

/-- What a running slot of a cluster is charged for an interval (R86): the matrix unit's energy by the array slots that its core used
(R315), HBM and mesh energy by what it asked for, and an equal share of the rest. -/
def energyOf (s : State) (cluster : Nat) (ks : List Nat) (k : Nat) : Nat :=
  let e := Config.energy s.tick cluster
  let sum := fun (part : Nat) => ks.foldl (fun t j => t + workOf s part j) 0
  share (e 0) (workOf s 0 k) (sum 0) + share (e 1) (workOf s 1 k) (sum 1) + share (e 2) 1 ks.length

/-- The RUNNING slots of a cluster, which are charged: also those of a step whose record waits for the ring (R72, R86). -/
def chargedSlots (s : State) (cluster : Nat) : List Nat := (runningSlots s).filter fun k => clusterOfSlot k == cluster

/-- The cores of a cluster count their products anew. -/
def clearProducts (s : State) (cluster : Nat) : State :=
  (coresOf cluster).foldl (fun s c => if (coreAt s c).products = 0 then s else setCore s c { coreAt s c with products := 0 }) s

/-- ENERGY_INTERVAL: 1024 ac of a cluster: its counter advances, and its running steps are charged (R86). What the counter
measures, and what each core asked for, are not the model's to say. (DESIGN CHOICE, log 9.) -/
def execEnergyInterval (cluster : Nat) (s : State) : Result :=
  let ks := chargedSlots s cluster
  let c := clusterAt s cluster
  let e := Config.energy s.tick cluster
  let s' := clearProducts (setCluster s cluster { c with energy := c.energy + e 0 + e 2 }) cluster
  .next (nextTick (ks.foldl (fun s k =>
    match findStep s (slotHandle (slotAt s k)) with
    | some r => setStep s { r with energy := (r.energy + energyOf s cluster ks k) % 2 ^ 64 }
    | none => s) s'))

/-! ## CAPQ (R341) -/

/-- CAPQ (R341). -/
def execCapq (d : XIdx) (s : State) : Result :=
  match s.hart.notices with
  | w :: rest => nextX { s with hart := { s.hart with notices := rest } } d w
  | [] => nextX s d 0

end Sys2Proof.Machine
end

