-- ==== Sys2Proof/Machine/Queues.lean ====
section
/-! DEFINITION. The queue instructions (R291-R293) over the pipe routes of the dispatcher (R91). -/

namespace Sys2Proof.Machine

/-- The record of the acting slot. -/
def curRec (s : State) : BindRec := (slotAt s s.cur).rcd

/-- The pipe index bound to an outbound queue register (Table 04.3). -/
def outPipe (s : State) (q : BitVec 2) : Nat := pipeIndex (curRec s) (4 + q.toNat)
/-- The pipe index bound to an inbound queue register (Table 04.3). -/
def inPipe (s : State) (q : BitVec 2) : Nat := pipeIndex (curRec s) q.toNat

/-- The route of a step's pipe (R91). -/
def routeOf (s : State) (handle index : Nat) : Option Route :=
  s.disp.routes.find? fun r => r.handle == handle && r.index == index

/-- The harts of a step that can send into a pipe (R291). -/
def sendersOf (s : State) (handle index : Nat) : List Nat :=
  (slotsOfStep s handle).filter fun k => (List.range 4).any fun q => pipeIndex (slotAt s k).rcd (4 + q) == index

/-- Every sending hart of a pipe is gone, or there is none (R291). (DEDUCED, log 19.) -/
def sendersGone (s : State) (handle index : Nat) : Bool :=
  (sendersOf s handle index).all fun k => (hartAt s k).tdone.isSome

/-- A queue trap (R291). -/
def queueTrap (code : Nat) : Stop := .trap (TrapInfo.plain 0x0C (BitVec.ofNat 64 code))

/-- The receiving end of an outbound queue register, or the queue trap (R291). -/
def receiverM (q : BitVec 2) : M Route := fun s =>
  let index := outPipe s q
  if index = 0 then (.error (queueTrap 1), s)
  else match routeOf s s.hart.steph.toNat index with
    | none => (.error (queueTrap 1), s)
    | some r => if (hartAt s r.slot).tdone.isSome then (.error (queueTrap 2), s) else (.ok r, s)

/-- An inbound queue of a hart. -/
def Hart.queue (h : Hart) (q : Nat) : List Word := h.qin.toList.getD q []
def Hart.setQueue (h : Hart) (q : Nat) (ws : List Word) : Hart := { h with qin := h.qin.setIfInBounds q ws }

/-- Places words in the receiver's queue, waiting for room (R292, R293). -/
def deliverM (r : Route) (ws : List Word) : M Unit := fun s =>
  let h := hartAt s r.slot
  if (h.queue r.qin).length + ws.length > 64 then holdM s
  else (.ok (), setHart s r.slot (h.setQueue r.qin (h.queue r.qin ++ ws)))

/-- QSEND (R292). -/
def execQsend (a : XIdx) (q : BitVec 2) (s : State) : Result :=
  let v := xreg s a
  runM (do
    let r ← receiverM q
    deliverM r [v]
    done) s

/-- QRECV (R291, R292). -/
def execQrecv (d : XIdx) (q : BitVec 2) (s : State) : Result :=
  let index := inPipe s q
  if index = 0 then runM (stopM (queueTrap 1)) s
  else match s.hart.queue q.toNat with
    | w :: rest => nextX { s with hart := s.hart.setQueue q.toNat rest } d w
    | [] => if sendersGone s s.hart.steph.toNat index then runM (stopM (queueTrap 3)) s else waitHere s

/-- QPOLL (R292): `xf`, in B, is written after `xd`. (DEDUCED, log 19.) -/
def execQpoll (d b : XIdx) (q : BitVec 2) (s : State) : Result :=
  let index := inPipe s q
  if index = 0 then runM (stopM (queueTrap 1)) s
  else match s.hart.queue q.toNat with
    | w :: rest => .next (advance (setX (setX { s with hart := s.hart.setQueue q.toNat rest } d w) b 1))
    | [] =>
      let f : Word := if sendersGone s s.hart.steph.toNat index then 2 else 0
      .next (advance (setX (setX s d 0) b f))

/-- The turn part of `qpush`, done once unless the instruction is interrupted while it waits for room (R293). -/
def pushTurnM (base len : Word) (level : Nat) : M Unit := fun s =>
  if s.hart.phase = 2 then (.ok (), s)
  else match turnM base len level s with
    | (.ok _, s) => (.ok (), { s with hart := { s.hart with phase := 2 } })
    | (.error e, s) => (.error e, s)

/-- QPUSH (R293). An operand trap is found before a queue trap. (DESIGN CHOICE, log 13.) -/
def execQpush (a b : XIdx) (q : BitVec 2) (s : State) : Result :=
  let base := xreg s a
  let len := xreg s b
  runM (do
    guardM (len.toNat ≤ 2 ^ 32 && s.hart.turnpos.toNat ≤ len.toNat) (.trap (TrapInfo.plain 0x02 (s.ir.setWidth 64)))
    let r ← receiverM q
    pushTurnM base len r.level
    deliverM r [base, len]
    done) s

end Sys2Proof.Machine
end

