-- ==== Sys2Proof/Machine/Streams.lean ====
section
/-! DEFINITION. Record streams and the meridian: graphs (R367, R368), records (R369-R371), watermarks (R372-R375), windows
(R376-R381), reclamation and back-pressure (R382, R383), outputs (R386, R387), and `swm`, `swin`, `semit`, `sidle`
(R337-R340). -/

namespace Sys2Proof.Machine

/-! ## Windows (R376) -/

def Graph.win (g : Graph) (k : Nat) : Option Win := g.wins.find? fun w => w.id == k

/-- Puts a window in its place among the live ones, by id. -/
def insertWin (w : Win) : List Win → List Win
  | [] => [w]
  | v :: t => if w.id < v.id then w :: v :: t else if w.id = v.id then w :: t else v :: insertWin w t

def setWin (s : State) (gi : Nat) (w : Win) : State :=
  let g := graphAt s gi
  setGraph s gi { g with wins := insertWin w g.wins }

/-! ## Firings (R378, R381) -/

/-- Queues one step of the bound launch with a window context: its dependence count is 0 (R378), or 1 for an amendment whose
window's previous firing has not completed (R381). -/
def fire (s : State) (l : LaunchRec) (ctx : WinCtx) (prev : Option Nat) : State × Nat :=
  let ordinal := l.firings % (2 ^ 24 - 1)
  let handle := l.id * 2 ^ 24 + ordinal
  let s := setLaunch (latchFronts s) { l with firings := l.firings + 1 }
  let s := match prev with
    | some h => { s with disp := { s.disp with edges := s.disp.edges ++ [(handle, h)] } }
    | none => s
  let s := queueStep s l ordinal [0, 0, 0, 0, 0, 0] (blkPrio l.blk) (some ctx)
  match findStep s handle with
  | some r => (setStep s { r with budget := blkBudget l.blk }, handle)
  | none => (s, handle)

/-- The context of a firing of window `k` (Table 26.5). -/
def Graph.context (g : Graph) (gi k lo hi nlate rev : Nat) : WinCtx :=
  ⟨gi, k, BitVec.ofNat 64 (g.winStart k), BitVec.ofNat 64 (g.winEnd k), BitVec.ofNat 64 lo, BitVec.ofNat 64 hi,
    BitVec.ofNat 64 (nlate * 65536 + rev)⟩

/-- A window transits (R378). -/
def transit (s : State) (gi : Nat) (w : Win) : State :=
  let g := graphAt s gi
  match findLaunch s g.kl with
  | some l =>
    let x := fire s l (g.context gi w.id (w.first.getD 0) g.next 0 0) none
    setWin x.1 gi { w with state := 1, rev := some 0, firings := w.firings ++ [x.2], last := some x.2 }
  | none => s

/-- The late list of a window is queued as an amendment (R381). -/
def amend (s : State) (gi k : Nat) : State :=
  let g := graphAt s gi
  match g.win k, findLaunch s g.kl with
  | some w, some l =>
    match w.late, w.late.getLast? with
    | a :: _, some b =>
      let rev := match w.rev with | some r => r + 1 | none => 0
      let x := fire s l (g.context gi k a (b + 1) w.late.length rev) w.lastOpen
      setWin x.1 gi { w with state := 1, late := [], rev := some rev, firings := w.firings ++ [x.2], last := some x.2 }
    | _, _ => s
  | _, _ => s

/-! ## Watermarks (R373, R374, R377) -/

/-- A window expires: a pending amendment is queued first (R377). -/
def expire (s : State) (gi k : Nat) : State :=
  let s := amend s gi k
  match (graphAt s gi).win k with
  | some w => setWin s gi { w with state := 3 }
  | none => s

/-- What a change of WM brings about: transits in ascending order, then expiries; windows no longer retained are
reclaimed. -/
def applyWatermark (s : State) (gi : Nat) : State :=
  let g := graphAt s gi
  let s := (g.wins.filter fun w => w.state == 0 && g.winEnd w.id ≤ g.wm.toNat).foldl (fun s w => transit s gi w) s
  let g := graphAt s gi
  let s := (g.wins.filter fun w => (w.state == 1 || w.state == 2) && g.winLimit w.id ≤ g.wm.toNat).foldl
    (fun s w => expire s gi w.id) s
  let g := graphAt s gi
  setGraph s gi { g with wins := g.wins.filter Win.retained }

/-- WM := max(WM, min over active sources) (R373). -/
def Graph.newWm (g : Graph) : Nat :=
  let ws := ((List.range (g.nsrcm1 + 1)).filter fun i => (g.source i).st == .active).map fun i => (g.source i).wm.toNat
  match ws with
  | [] => g.wm.toNat
  | w :: t => max g.wm.toNat (t.foldl min w)

def recompute (s : State) (gi : Nat) : State :=
  let g := graphAt s gi
  applyWatermark (setGraph s gi { g with wm := BitVec.ofNat 64 g.newWm }) gi

/-- A rejoining source whose watermark is at least WM becomes active (R374). -/
def Source.settle (x : Source) (wm : Word) : Source :=
  if x.st == .rejoining && wm.toNat ≤ x.wm.toNat then { x with st := .active } else x

/-- A source after something arrived from it (R373). -/
def Source.touch (x : Source) : Source := if x.st == .idle then { x with st := .rejoining } else x

/-- Sets a source of an enabled graph, and what follows for the watermarks (R373-R375). -/
def setSource (s : State) (gi i : Nat) (x : Source) : State :=
  let g := graphAt s gi
  let s' := setGraph s gi { g with sources := tput g.sources i (x.settle g.wm) }
  if g.en then noteRises s (recompute s' gi) else s'

/-- A record or watermark record has come from a source: an idle one is rejoining, whether or not the record then waits
(R373). -/
def touchSource (s : State) (gi i : Nat) : State :=
  let (t, s) := readTime s
  setSource s gi i { ((graphAt s gi).source i).touch with last := t }

/-- A watermark record takes effect (R372). -/
def sourceWatermark (s : State) (gi i : Nat) (t : Word) : State :=
  let x := (graphAt s gi).source i
  setSource s gi i { x with wm := if x.wm.toNat < t.toNat then t else x.wm }

/-! ## Records (R370, R371, R380) -/

def recSrc (h1 : Word) : Nat := bits h1 0 16
def recLen (h1 : Word) : Nat := bits h1 16 16
/-- LEN of a watermark record (R370). -/
def watermarkLen : Nat := 0xFFFF

/-- A drop's reason (SGSTAT.LASTDROP). -/
inductive Drop where
  | late | source | length | full
  deriving DecidableEq, Repr

def Drop.code : Drop → BitVec 3
  | .late => 1 | .source => 2 | .length => 3 | .full => 4
/-- Where its counter lies in SGDROP. -/
def Drop.place : Drop → Nat
  | .late => 48 | .source => 32 | .length => 16 | .full => 0

/-- A record is dropped: its counter, LASTDROP and SGSAMP (R371). -/
def dropRecord (s : State) (gi : Nat) (d : Drop) (h0 h1 : Word) : State :=
  let g := graphAt s gi
  let n := bits g.sgdrop d.place 16
  let v := if n < 65535 then g.sgdrop + (1 : Word) <<< d.place else g.sgdrop
  setGraph s gi { g with sgdrop := v, lastdrop := d.code, samp := h1 ++ h0 }

/-- The windows of an event time, ascending (R376). -/
def Graph.windowsOf (g : Graph) (t : Nat) : List Nat :=
  let top := t / g.slide
  (List.range (min top g.mm1 + 1)).map fun i => top - min top g.mm1 + i

/-- A record is too late for window `k` (R380, R381). -/
def Graph.tooLate (g : Graph) (k : Nat) : Bool :=
  match g.win k with
  | some w => w.state == 3 || (w.state != 0 && w.rev == some 65535)
  | none => g.winLimit k ≤ g.wm.toNat

/-- The record with arrival index `a` joins window `k` (R376, R380, R381). -/
def joinWindow (s : State) (gi a k : Nat) : State :=
  let g := graphAt s gi
  if g.tooLate k then s
  else match g.win k with
    | some w =>
      if w.state = 0 then s
      else
        let s := setWin s gi { w with
          state := 2, late := w.late ++ [a], lateAt := if w.late.isEmpty then s.dtime else w.lateAt }
        if w.late.length + 1 ≥ 8 then amend s gi k else s
    | none =>
      if g.wm.toNat < g.winEnd k then setWin s gi ⟨k, 0, some a, a, [], 0, none, [], none⟩
      else setWin s gi ⟨k, 2, none, a, [a], s.dtime, none, [], none⟩

/-- The bytes of a record in its slot, filled to whole granules with zeros (R369). -/
def recordBytes (h0 h1 : Word) (payload : List Byte) : List Byte :=
  let bs := wordBytes [h0, h1] ++ (payload ++ List.replicate (recLen h1) 0).take (recLen h1)
  bs ++ List.replicate ((64 - bs.length % 64) % 64) 0

/-- A record is deposited with the next arrival index and joins its windows (R369, R378, R380). -/
def deposit (s : State) (gi port : Nat) (h0 h1 : Word) (payload : List Byte) : State :=
  let g := graphAt s gi
  let a := g.next
  let pa := g.base + a % g.slots * g.slotBytes
  let bs := recordBytes h0 h1 payload
  let s := formParts s (prodPort port) (bytesVal bs) (partsOfPhys pa bs.length)
  let s := setGraph s gi { g with next := a + 1 }
  (g.windowsOf h0.toNat).foldl (fun s k => joinWindow s gi a k) s

/-- The buffer is full (R383). -/
def Graph.full (g : Graph) : Bool := g.slots ≤ g.next - g.rcl

/-- A record would open a 257th live window (R383). -/
def Graph.windowLimit (g : Graph) (t : Nat) : Bool :=
  256 < g.wins.length + ((g.windowsOf t).filter fun k => (g.win k).isNone && !g.tooLate k).length

/-- The granules of a record's slot can be formed from its port (R95, R392). -/
def slotReached (s : State) (g : Graph) (port len : Nat) : Bool :=
  (writeWay s (portRouter port) (partsOfPhys (g.base + g.next % g.slots * g.slotBytes) (16 + len))).isNone

/-- A record names no source of the graph: its header's SRC, or the source that its endpoint is bound to, is above NSRCM1
(R371). -/
def Graph.noSource (g : Graph) (r : Stalled) : Bool := recSrc r.h1 > g.nsrcm1 || r.src > g.nsrcm1

/-- A graph takes a record, in the order of R371; `none` when it must wait (R383, R392). (DEDUCED, log 31.) -/
def takeRecord (s : State) (gi : Nat) (r : Stalled) : Option State :=
  let g := graphAt s gi
  let len := recLen r.h1
  if g.noSource r then some (dropRecord s gi .source r.h0 r.h1)
  else if len = watermarkLen then some (sourceWatermark s gi r.src r.h0)
  else if len > 4080 || 16 + len > g.slotBytes then some (dropRecord s gi .length r.h0 r.h1)
  else if (g.windowsOf r.h0.toNat).all g.tooLate then some (dropRecord s gi .late r.h0 r.h1)
  else if g.full then (if g.dropfull then some (dropRecord s gi .full r.h0 r.h1) else none)
  else if g.windowLimit r.h0.toNat || !slotReached s g r.port len then none
  else some (deposit s gi r.port r.h0 r.h1 r.payload)

/-- A record waits (R383). -/
def holdRecord (s : State) (gi : Nat) (r : Stalled) : State :=
  let g := graphAt s gi
  setGraph s gi { g with stalled := g.stalled ++ [r] }

/-- The oldest waiting record of a source. -/
def Graph.waitingOf (g : Graph) (src : Nat) : Option Stalled := g.stalled.find? fun x => x.src == src

/-- Something has come from the source that a record enters as. -/
def touchFor (s : State) (gi : Nat) (r : Stalled) : State :=
  if r.src ≤ (graphAt s gi).nsrcm1 then touchSource s gi r.src else s

/-- A record arrives: it waits behind the waiting records of its source, or is taken, or waits itself (R372, R383). -/
def arrive (s : State) (gi : Nat) (r : Stalled) : State :=
  let s := touchFor s gi r
  if ((graphAt s gi).waitingOf r.src).isSome then holdRecord s gi r
  else (takeRecord s gi r).getD (holdRecord s gi r)

/-- The graphs and sources that an endpoint is bound to (R415). -/
def boundSources (s : State) (ep : BitVec 128) : List (Nat × Nat) :=
  (s.mer.binds.filter fun b => b.2 == ep).map fun b => (b.1 / 1024, b.1 % 1024)

/-- A record from an endpoint enters each graph and source that it is bound to (R415); a disabled graph holds its sources back
(R368), and records of an endpoint that is bound to none go nowhere. In the safe talkative state the ports but port 0 do not run
(R417). (DEDUCED, log 31.) -/
def fromEndpoint (port : BitVec 3) (ep : BitVec 128) (h0 h1 : Word) (payload : List Byte) (s : State) : State :=
  if portRuns s port then
    (boundSources s ep).foldl (fun s x =>
      if (graphAt s x.1).en then arrive s x.1 ⟨port.toNat, x.2, h0, h1, payload, none⟩ else s) s
  else s

/-- STREAM_RECORD: a data record reaches the device (R371, R415). -/
def execStreamRecord (port : BitVec 3) (ep : BitVec 128) (h0 h1 : Word) (payload : List Byte) (s : State) : Result :=
  .next (if recLen h1 = watermarkLen then s else fromEndpoint port ep h0 h1 payload s)

/-- WATERMARK_RECORD (R372): a record with LEN = 0xFFFF. -/
def execWatermarkRecord (port : BitVec 3) (ep : BitVec 128) (h0 h1 : Word) (s : State) : Result :=
  .next (if recLen h1 ≠ watermarkLen then s else fromEndpoint port ep h0 h1 [] s)

/-- Takes a waiting record, which then waits no longer. -/
def takeWaiting (s : State) (gi : Nat) (r r' : Stalled) : Option State :=
  match takeRecord s gi r' with
  | some s' =>
    let g := graphAt s' gi
    some (setGraph s' gi { g with stalled := g.stalled.erase r })
  | none => none

/-- STALLED_RECORD_DEPOSIT: the oldest waiting record of a source is offered again (R383); one of a `semit` is taken when that
instruction issues again (R93, R339). -/
def execStalledRecordDeposit (g : BitVec 6) (src : Nat) (s : State) : Result :=
  match (graphAt s g.toNat).waitingOf src with
  | some r => .next (if r.slot.isSome then s else (takeWaiting s g.toNat r r).getD s)
  | none => .next s

/-- IDLE_TIMEOUT: an active source has been silent for IDLE ticks (R373). -/
def execIdleTimeout (g : BitVec 6) (src : Nat) (s : State) : Result :=
  let x := graphAt s g.toNat
  let y := x.source src
  let t := x.idleAt y
  if x.en && x.idle != 0 && src ≤ x.nsrcm1 && y.st == .active && momentComes s t then
    .next (setSource (timeReaches s (BitVec.ofNat 64 t)) g.toNat src { y with st := .idle })
  else .next s

/-- AMENDDELAY_EXPIRY: AMENDDELAY ticks after the first late record joined the list (R381). -/
def execAmenddelayExpiry (g : BitVec 6) (win : Nat) (s : State) : Result :=
  let x := graphAt s g.toNat
  match x.win win with
  | some w =>
    let t := x.amendAt w
    if x.en && w.state == 2 && momentComes s t then .next (amend (timeReaches s (BitVec.ofNat 64 t)) g.toNat win) else .next s
  | none => .next s

/-! ## Reclamation (R382) -/

/-- The new RCL: the least of NEXT and the lowest index that a retained window refers to. -/
def Graph.newRcl (g : Graph) : Nat := (g.wins.filter Win.retained).foldl (fun m w => min m w.lowest) g.next

/-- The notices over the slots of a graph from RCL up to an index, which every cluster must acknowledge before they are free; `none`
while one cannot (R107, R382, R392). -/
def noticeSlots (s : State) (x : Graph) (upTo : Nat) : Option State :=
  if upTo ≤ x.rcl then some s
  else
    let t := (List.range (upTo - x.rcl)).foldl (fun s i =>
      let lo := (x.base + (x.rcl + i) % x.slots * x.slotBytes) / 64
      noticeNow s prodManagement lo (lo + x.slotBytes / 64 - 1)) s
    if acked t prodManagement then some t else none

/-- SLOT_RECLAIM: RCL rises, once the notices over the freed slots are acknowledged (R382). -/
def execSlotReclaim (g : BitVec 6) (s : State) : Result :=
  let gi := g.toNat
  let x := graphAt s gi
  if x.newRcl ≤ x.rcl then .next s
  else match noticeSlots s x x.newRcl with
    | some t => .next (setGraph t gi { x with rcl := x.newRcl })
    | none => .next s

/-! ## Enabling and disabling (R367, R368) -/

/-- The writable bits of SGCFG. -/
def sgcfgMask : Word := 0xC0FF80FFC00000FF

/-- What a write that sets EN requires (R368). -/
def enableOk (s : State) (gi : Nat) (g : Graph) : Bool :=
  let size := g.slots * g.slotBytes
  7 ≤ g.slotlog && g.slotlog ≤ 12 && 4 ≤ g.nslotlog && g.nslotlog ≤ 24 && g.base % 65536 == 0 &&
  g.base + size ≤ hbmBytes && (rangeMeeting s g.base size).isNone && 1 ≤ g.slide &&
  (match findLaunch s g.kl with | some l => l.standing | none => false) &&
  !s.mer.graphs.any fun x => x.1 != gi && x.2.en && x.2.kl == g.kl

/-- A write to SGCFG (R367, R368). The windows that a disabled graph discards retain nothing, so RCL rises to NEXT with it; the write
waits while a cluster cannot acknowledge the notices over those slots. (DEDUCED, log 31.) -/
def writeSgcfg (s : State) (gi : Nat) (v : Word) : State :=
  let g := graphAt s gi
  let new := { g with sgcfg := v &&& sgcfgMask }
  if g.en then
    if new.en then s
    else match noticeSlots s g g.next with
    | none => s
    | some t =>
      let t := match findLaunch s g.kl with
        | some l => setLaunch t { l with outwm := BitVec.ofNat 64 (outputWm s l) }
        | none => t
      setGraph t gi { new with rcl := g.next, wins := [], stalled := [] }
  else if !new.en then setGraph s gi new
  else if enableOk s gi new then
    let (t, s) := readTime s
    let all := (List.range (new.nsrcm1 + 1)).map fun i : Nat => (i, (⟨.active, 0, t⟩ : Source))
    setGraph s gi { new with wm := 0, next := 0, rcl := 0, lastdrop := 0, sources := all, wins := [], stalled := [] }
  else s

/-- GRAPH_ENABLE: a write that sets EN (R368). -/
def execGraphEnable (g : BitVec 6) (v : Word) (s : State) : Result :=
  .next (if v.getLsbD 63 then writeSgcfg s g.toNat v else s)

/-- GRAPH_DISABLE: a write that clears EN (R368). -/
def execGraphDisable (g : BitVec 6) (v : Word) (s : State) : Result :=
  .next (if v.getLsbD 63 then s else writeSgcfg s g.toNat v)

/-! ## Outputs (R339, R375, R386, R387) -/

/-- The bound output of a launch. -/
def outputOf (s : State) (launch out : Nat) : Option Output :=
  s.mer.outputs.find? fun o => o.launch == launch && o.out == out

/-- Changes a bound output. -/
def onOutput (s : State) (launch out : Nat) (f : Output → Output) : State :=
  { s with mer := { s.mer with
    outputs := s.mer.outputs.map fun p => if p.launch == launch && p.out == out then f p else p } }

/-- The port that serves a graph of this device; which one is not stated. (DEDUCED, log 31.) -/
def graphPort (gi : Nat) : Nat := Config.unstated 339 [gi] % 8

/-- The header an output stamps: its source id and next sequence number (R387). -/
def Output.stamp (o : Output) (len : Nat) : Word := o.seq.setWidth 64 <<< 32 ||| BitVec.ofNat 64 (len * 65536 + o.src)

/-- An output has accepted a record. -/
def Output.sent (len : Nat) (h0 : Word) (o : Output) : Output :=
  { o with seq := o.seq + 1, sentWm := if len = watermarkLen && o.sentWm.toNat < h0.toNat then h0 else o.sentWm }

/-- A record that an output makes for a source of this device: which slot's `semit` makes it, if any. -/
def fedRecord (gi src : Nat) (h0 h1 : Word) (payload : List Byte) (slot : Option Nat) : Stalled :=
  ⟨graphPort gi, src, h0, h1, payload, slot⟩

/-- The record of a slot's `semit` that waits among those of a source (R339, R383). -/
def Graph.waitsFor (g : Graph) (src : Nat) (slot : Option Nat) : Option Stalled :=
  if slot.isSome then g.stalled.find? fun x => x.src == src && x.slot == slot else none

/-- The graph that an output feeds takes a record now, if it can (R339). -/
def feed (s : State) (gi : Nat) (r : Stalled) : Option State :=
  let g := graphAt s gi
  if !g.en then none
  else match g.waitsFor r.src r.slot with
    | some old => if g.waitingOf r.src = some old then takeWaiting s gi old r else none
    | none => if (g.waitingOf r.src).isSome then none else takeRecord (touchFor s gi r) gi r

/-- Every source that an output feeds takes its record now, or none does. -/
def feedAll (h0 h1 : Word) (payload : List Byte) (slot : Option Nat) : List (Nat × Nat) → State → Option State
  | [], s => some s
  | x :: xs, s =>
    match feed s x.1 (fedRecord x.1 x.2 h0 h1 payload slot) with
    | some s' => feedAll h0 h1 payload slot xs s'
    | none => none

/-- The record of a `semit` that must wait stands among the waiting records of its sources until it is taken or withdrawn; one
that the meridian makes itself stays with its output. -/
def feedWaits (h0 h1 : Word) (payload : List Byte) (slot : Option Nat) (s : State) (x : Nat × Nat) : State :=
  let r := fedRecord x.1 x.2 h0 h1 payload slot
  let g := graphAt s x.1
  if slot.isNone || !g.en || (g.waitsFor x.2 slot).isSome then s else holdRecord (touchFor s x.1 r) x.1 r

/-- Emits a record on an output: into every graph it feeds at once (R415; DEDUCED, log 31), or out through its port (R339, R387);
and whether it was accepted. -/
def emit (s : State) (o : Output) (len : Nat) (h0 : Word) (payload : List Byte) (slot : Option Nat) : State × Bool :=
  let h1 := o.stamp len
  let xs := boundSources s o.endpoint
  let sent := fun (s : State) => (onOutput s o.launch o.out (Output.sent len h0), true)
  if xs.isEmpty then
    let r : SentRecord := ⟨o.endpoint, h0, h1, payload⟩
    sent { s with mer := { s.mer with sent := s.mer.sent ++ [r] } }
  else match feedAll h0 h1 payload slot xs s with
    | some s' => sent s'
    | none => (xs.foldl (feedWaits h0 h1 payload slot) s, false)

/-- OUTPUT_WATERMARK: the oldest rise that an output has still to send goes out, unless `semit` has sent as much (R375,
R386). -/
def execOutputWatermark (launchId : Nat) (out : BitVec 3) (s : State) : Result :=
  match outputOf s launchId out.toNat with
  | some o =>
    match o.rises with
    | [] => .next s
    | v :: _ =>
      let taken := fun (s : State) => onOutput s launchId out.toNat fun p => { p with rises := p.rises.tail }
      if v.toNat ≤ o.sentWm.toNat then .next (taken s)
      else if (kernelGraph s launchId).isNone then .next s
      else
        let x := emit s o watermarkLen v [] none
        .next (if x.2 then taken x.1 else s)
  | none => .next s

/-! ## SWM, SWIN, SEMIT, SIDLE (R337-R340) -/

/-- SWM (R337): a graph whose KL names the hart's launch. (DEDUCED, log 31.) -/
def execSwm (d a : XIdx) (s : State) : Result :=
  let v := xreg s a
  if v.toNat > 63 || (graphAt s v.toNat).kl ≠ curLaunch s then .next (takeTrap s (TrapInfo.plain 0x02 v))
  else nextX s d (graphAt s v.toNat).wm

/-- The window state word (Table 21.9). -/
def winWord (w : Win) : Word :=
  BitVec.ofNat 64 w.state <<< 62 ||| BitVec.ofNat 64 (w.rev.getD 0) <<< 32 ||| BitVec.ofNat 64 (min 65535 w.late.length) <<< 16

/-- SWIN (R338). -/
def execSwin (d a : XIdx) (s : State) : Result :=
  let k := (xreg s a).toNat
  match (kernelGraph s (curLaunch s)).bind fun x => x.2.win k with
  | some w => nextX s d (winWord w)
  | none => nextX s d ((3 : Word) <<< 62)

/-- Bytes of the acting core's memory, read as its loads read them. -/
def loadBytes : Nat → Word → Nat → M (List Byte)
  | 0, _, _ => fun s => (.ok [], s)
  | n + 1, va, left => fun s =>
    if left = 0 then (.ok [], s)
    else match translateM va .read s with
      | (.error e, s) => (.error e, s)
      | (.ok (pa, self), s) =>
        match ovfTest va (pa / 64) s with
        | (.error e, s) => (.error e, s)
        | (.ok _, s) =>
          match readGranule va (pa / 64) self s with
          | (.error e, s) => (.error e, s)
          | (.ok g, s) =>
            let here := min left (64 - pa % 64)
            match loadBytes n (va + BitVec.ofNat 64 here) (left - here) s with
            | (.error e, s) => (.error e, s)
            | (.ok bs, s) => (.ok ((List.range here).map (fun i => g.data.extractLsb' (8 * (pa % 64 + i)) 8) ++ bs), s)

/-- The record goes to its output, or waits (R339). -/
def emitM (launch out len : Nat) (h0 : Word) (payload : List Byte) : M Unit := fun s =>
  match outputOf s launch out, findLaunch s launch with
  | some o, some l =>
    let t := if len = watermarkLen then BitVec.ofNat 64 (min h0.toNat (outputWm s l)) else h0
    if len = watermarkLen && t.toNat ≤ o.sentWm.toNat then (.ok (), s)
    else
      let x := emit s o len t payload (some s.cur)
      if x.2 then (.ok (), x.1) else holdM x.1
  | _, _ => (.error (queueTrap 1), s)

/-- SEMIT (R339). (DEDUCED, log 31.) -/
def execSemit (a b : XIdx) (s : State) : Result :=
  let va := xreg s a
  let out := (xreg s b).toNat
  let l := curLaunch s
  runM (do
    alignedM va 16
    guardM (outputOf s l out).isSome (queueTrap 1)
    let h ← loadBytes 2 va 16
    let h0 := BitVec.ofNat 64 (bytesVal (h.take 8))
    let len := recLen (BitVec.ofNat 64 (bytesVal (h.drop 8)))
    if len ≠ watermarkLen && len > 4080 then raiseOperand else fun s => (.ok (), s)
    let p ← if len = watermarkLen then (fun s => (.ok [], s) : M (List Byte)) else loadBytes (len / 64 + 2) (va + 16) len
    setNrM
    emitM l out len h0 p
    done) s

/-- An output of a launch feeds source `src` of graph `gi` (R340, R415). -/
def feeds (s : State) (launch gi src : Nat) : Bool :=
  match tget s.mer.binds (1024 * gi + src) with
  | some ep => s.mer.outputs.any fun o => o.launch == launch && o.endpoint == ep
  | none => false

/-- SIDLE (R340, R373). -/
def execSidle (a b : XIdx) (s : State) : Result :=
  let v := xreg s a
  let x := (xreg s b).toNat
  let gi := bits v 16 6
  let src := bits v 0 10
  if bits v 22 42 != 0 || bits v 10 6 != 0 || x > 1 || !feeds s (curLaunch s) gi src then
    .next (takeTrap s (operandTrap s))
  else runM (do
    setNrM
    modS fun s =>
      let y := (graphAt s gi).source src
      setSource s gi src (if x = 1 then { y with st := .idle } else y.touch)
    done) s

end Sys2Proof.Machine
end

