-- ==== Sys2Proof/Machine/Firmware.lean ====
section
/-! DEFINITION. What firmware does at the host's and its own request: register writes (R87, R367, R403, R423), command
messages (R407-R415, R419), attestation (R421), and the power-on sequence (R416-R418). -/

namespace Sys2Proof.Machine

/-! ## Registers -/

/-- A write to a graph register other than SGCFG is ignored while EN = 1, SGDROP apart (R367). -/
def writeGraph (s : State) (gi : Nat) (f : Graph → Graph) : State :=
  let g := graphAt s gi
  if g.en then s else setGraph s gi (f g)

/-- MEMZONE: read-only once LOCK is set (R19). -/
def writeMemzone (s : State) (v : Word) : State :=
  if s.memzone.getLsbD 63 then s else { s with memzone := v &&& 0x800000000000003F }

/-- REGISTER_WRITE: reserved bits are dropped (Tables 01.5, 04.7, 04.11, 26.1, 28.8, 30.6). -/
def execRegisterWrite (r : MReg) (v : Word) (s : State) : Result :=
  let d := s.disp
  match r with
  | .ageperiod => .next { s with disp := { d with ageperiod := v.setWidth 32 } }
  | .dhandle => .next { s with disp := { d with dhandle := v.setWidth 32 } }
  | .dtimer => .next { s with disp := { d with dtimer := v } }
  | .cqbase => .next { s with disp := { d with cqbase := v.setWidth 48 } }
  | .cqsize => .next { s with disp := { d with cqsize := v.setWidth 16 } }
  | .cqhead => .next { s with disp := { d with cqhead := v.setWidth 16 } }
  | .prkey => .next { s with disp := { d with prkey := v &&& 0xFFFFFFFF0000000F } }
  | .memzone => .next (writeMemzone s v)
  | .leasepatience => .next { s with svc := { s.svc with patience := v.setWidth 32 } }
  | .lperiod c => .next { s with svc := { s.svc with lperiod := s.svc.lperiod.set c.toNat (v.setWidth 32) c.isLt } }
  | .scix => .next { s with svc := { s.svc with scix := v.setWidth 11 } }
  | .pwrctl => .next { s with ports := { s.ports with tlimit := v.extractLsb' 8 8 } }
  | .sgbase g => .next (writeGraph s g.toNat fun x => { x with sgbase := v &&& 0x3FFFFFFFFFF })
  | .sgcfg g => .next (writeSgcfg s g.toNat v)
  | .sgwin g => .next (writeGraph s g.toNat fun x => { x with sgwin := v &&& 0xFC00FFFFFFFFFFFF })
  | .sglate g => .next (writeGraph s g.toNat fun x => { x with sglate := v &&& 0xFFFFFFFFFFFF })
  | .sgtime g => .next (writeGraph s g.toNat fun x => { x with sgtime := v })
  | .sgdrop g =>
    let x := graphAt s g.toNat
    .next (setGraph s g.toNat { x with sgdrop := v })

/-! ## Messages (R407-R410, R417, R418) -/

/-- The fields of a header (Table 30.1). -/
def msgType (m : HostMsg) : Nat := bits m.h0 56 8
def msgStatus (m : HostMsg) : Nat := bits m.h0 32 16
def msgTag (m : HostMsg) : BitVec 32 := m.h0.setWidth 32
def isResponse (m : HostMsg) : Bool := m.h0.getLsbD 55

/-- Body bytes that a request of a type has (Table 30.2); none where the type does not fix them. -/
def bodyBytes (type : Nat) : Option Nat :=
  match type with
  | 1 => some 72
  | 2 => some 8
  | 3 => some 24
  | 4 => some 24
  | 5 => some 24
  | _ => none

/-- The most bytes of a body (Table 30.1). -/
def maxBody : Nat := 65536

/-- A header with a nonzero reserved field, or whose LEN is above its range or not the bytes of the body (R407, R410). -/
def headerBad (m : HostMsg) : Bool :=
  bits m.h0 48 7 != 0 || bits m.h1 32 32 != 0 || bits m.h1 0 32 != m.body.length || maxBody < bits m.h1 0 32

/-- What a request asks for. -/
inductive Ask where
  /-- Answered with STATUS 4 (R409, R410). -/
  | malformed
  | launch
  | query (item n : Nat)
  | pageIn (launch : Nat) (va : Word)
  | pageOut (launch : Nat) (va : Word)
  | bindSource (ep : BitVec 128) (graph src : Nat)
  | bindOutput (ep : BitVec 128) (launch out src : Nat)
  | window (ep : BitVec 128) (n port : Nat)
  | spdm (code : Nat)
  deriving DecidableEq, Repr

/-- A QUERY: ITEM and its reserved bits (R409). -/
def queryAsk (w : Word) : Ask :=
  if bits w 8 24 != 0 || bits w 48 16 != 0 || bits w 0 8 > 3 || (bits w 0 8 != 2 && bits w 32 16 != 0) then .malformed
  else .query (bits w 0 8) (bits w 32 16)

/-- A PAGE: its reserved bits, LAUNCH, DIR and VA (Table 30.7). -/
def pageAsk (w va r : Word) : Ask :=
  if bits w 16 48 != 0 || bits w 1 7 != 0 || bits va 48 16 != 0 || r != 0 then .malformed
  else if w.getLsbD 0 then .pageOut (bits w 8 8) va
  else .pageIn (bits w 8 8) va

/-- A STREAM-BIND or WINDOW body: endpoint and selector (R415). -/
def bindAsk (ep : BitVec 128) (sel : Word) : Ask :=
  if sel.getLsbD 63 then .bindOutput ep (bits sel 32 8) (bits sel 16 3) (bits sel 0 16)
  else .bindSource ep (bits sel 32 6) (bits sel 0 10)

/-- The 16-byte endpoint address that a body starts with. -/
def bodyEndpoint (bs : List Byte) : BitVec 128 := (bodyWord bs 1).setWidth 128 <<< 64 ||| (bodyWord bs 0).setWidth 128

/-- What a request of the host asks for (Table 30.2). A STATUS that is not 0 is a reserved field of a request. (DEDUCED, log
32.) -/
def askOf (m : HostMsg) : Ask :=
  let w := bodyWord m.body
  if headerBad m || msgStatus m != 0 || msgType m < 1 || msgType m > 6 || !(bodyBytes (msgType m)).all (· == m.body.length)
  then .malformed
  else if msgType m = 1 then .launch
  else if msgType m = 2 then queryAsk (w 0)
  else if msgType m = 3 then pageAsk (w 0) (w 1) (w 2)
  else if msgType m = 4 then bindAsk (bodyEndpoint m.body) (w 2)
  else if msgType m = 5 then .window (bodyEndpoint m.body) (bits (w 2) 32 3) (bits (w 2) 0 3)
  else .spdm ((m.body.getD 1 0).toNat)

/-- A response on the connection of a request. -/
def respond (s : State) (m : HostMsg) (status : Nat) (body : List Byte) : State :=
  { s with ports := { s.ports with
    sent := s.ports.sent ++ [message m.port.toNat m.conn (msgType m) true status (msgTag m) body] } }

/-- Whether the device answers a request with its action: every one while it is open; QUERY items 0 and 2 and SPDM in the safe
talkative state; QUERY item 0 and SPDM from the boot ROM (R416-R418). -/
def answers (s : State) (k : Ask) : Bool :=
  opened s ||
    match k with
    | .query item _ => item == 0 || (item == 2 && !s.ports.rom)
    | .spdm _ => true
    | _ => false

/-- The live launches in ascending id. -/
def launchesById (s : State) : List LaunchRec := (List.range 256).filterMap (findLaunch s)

/-- The two dwords of a live launch (Table 30.8). -/
def launchDwords (l : LaunchRec) : List Word :=
  let accepted := if l.standing then l.firings else l.total
  [BitVec.ofNat 64 (l.id * 2 ^ 56 + (if l.standing then 2 ^ 55 else 0) + l.completed % 2 ^ 48),
    BitVec.ofNat 64 ((accepted - l.completed) % 2 ^ 48)]

/-- LAUNCH (R410): the first response; the second comes with the completion record (R85). It waits while a page of its
descriptor moves in (R149). The body is the launch block, then TABLE. -/
def answerLaunch (m : HostMsg) (s : State) : State × Bool :=
  let blk := wordsOf m.body 8
  let table := (bodyWord m.body 8).toNat
  if blkBad blk || table % 512 != 0 then (respond s m 1 [], true)
  else match acceptLaunch blk table false (some m) s with
    | (.ok (.id n), s) => (respond s m 0 (wordBytes [BitVec.ofNat 64 (launchHandle n)]), true)
    | (.ok .refused, s) => (respond s m 1 [], true)
    | (.ok .full, s) => (respond s m 2 [], true)
    | (.error _, s) => (s, false)

/-- QUERY (Table 30.8). -/
def answerQuery (m : HostMsg) (item n : Nat) (s : State) : State :=
  if item = 0 then respond s m 0 (wordBytes s.ports.selfTest)
  else if item = 1 then respond s m 0 (wordBytes [capv s])
  else if item = 2 then
    match s.svc.log[n]? with
    | some e => respond s m 0 (entryBytes e)
    | none => respond s m 1 []
  else
    let ls := launchesById s
    respond s m 0 (wordBytes (BitVec.ofNat 64 ls.length :: ls.flatMap launchDwords))

/-- The tests that PAGE messages share (R409, R414): the launch and its mapping, the alignment of VA. A table entry that fails its
check is reported, and the message refused (DEDUCED, log 30); where an entry's home finds no way, it waits (R392). -/
def answerPage (m : HostMsg) (launch : Nat) (va : Word) (s : State) (f : Nat × Word × Nat → State × Bool) : State × Bool :=
  match pageLeaf s launch va with
  | .error (.noWay l) => (reportLeg s (some l), false)
  | .error e => (respond (reportPage s launch va e) m 1 [], true)
  | .ok leaf => if va.toNat % pageBytes leaf.2.2 != 0 then (respond s m 4 [], true) else f leaf

/-- PAGE with DIR 0 (R413, R414). -/
def answerPageIn (m : HostMsg) (launch : Nat) (va : Word) (image : List (Nat × GData)) (s : State) : State × Bool :=
  answerPage m launch va s fun leaf =>
    if !pteHost leaf.2.1 then (respond s m 0 [], true)
    else if pteBase leaf.2.1 ≥ hbmBytes then (respond s m 1 [], true)
    else match bringIn s (tableOf s launch) va leaf image with
      | (s, true) => (respond s m 0 [], true)
      | (s, false) => (s, false)

/-- PAGE with DIR 1 (R413, R414): it waits for instructions that hold a translation of the page (R354), and for granules that
find no way home (R392). -/
def answerPageOut (m : HostMsg) (launch : Nat) (va : Word) (s : State) : State × Bool :=
  answerPage m launch va s fun leaf =>
    if pteHost leaf.2.1 then (respond s m 0 [], true)
    else if pteBase leaf.2.1 ≥ hbmBytes then (respond s m 1 [], true)
    else if moveBlocked s (tableOf s launch) va leaf.2.2 then (s, false)
    else match moveOut s leaf (tableOf s launch) va with
      | (s, .left) => (respond s m 0 [], true)
      | (s, .failed) => (respond s m 1 [], true)
      | (s, .waits) => (s, false)

/-- STREAM-BIND of a source (R415). -/
def answerBindSource (m : HostMsg) (ep : BitVec 128) (graph src : Nat) (s : State) : State :=
  respond { s with mer := { s.mer with binds := tput s.mer.binds (1024 * graph + src) ep } } m 0 []

/-- STREAM-BIND of an output: its sequence and what it has sent start anew (R386, R387, R415). -/
def answerBindOutput (m : HostMsg) (ep : BitVec 128) (launch out src : Nat) (s : State) : State :=
  if (findLaunch s launch).isNone then respond s m 1 []
  else
    let rest := s.mer.outputs.filter fun o => !(o.launch == launch && o.out == out)
    respond { s with mer := { s.mer with outputs := rest ++ [⟨launch, out, ep, src, 0, 0, []⟩] } } m 0 []

/-- WINDOW (R415): what the port engine still holds for the window is delivered before a rebind, which waits for it. -/
def answerWindow (m : HostMsg) (ep : BitVec 128) (n port : Nat) (s : State) : State × Bool :=
  if n = 0 then (respond s m 1 [], true)
  else
    let s := ((s.ports.buffer.filter fun x => windowOf x.1 == n).map (·.1)).foldl deliverRemote s
    if s.ports.buffer.any fun x => windowOf x.1 == n then (s, false)
    else (respond { s with ports := { s.ports with windows := tput s.ports.windows n (port, ep) } } m 0 [], true)

/-! ## Attestation (R420, R421): SPDM 1.2 (PRESUMED, log 35) -/

/-- The measurements of Table 30.5 as they now stand, block 1 first. -/
def measurements (s : State) : List (List Byte) :=
  [sha384 Config.bootRom, sha384 s.ports.celior.image, sha384 s.ports.almanac,
    sha384 (s.svc.log.flatMap entryBytes) ++ [if s.svc.logFull then 1 else 0],
    wordBytes (s.memzone :: s.svc.lperiod.toList.map (·.setWidth 64))]

/-- What is reported: what stage 5 or the boot ROM has fixed; before either, what stands. (DESIGN CHOICE, log 35.) -/
def reported (s : State) : List (List Byte) := s.ports.measured.getD (measurements s)

/-- The low bytes of a number. -/
def numBytes (n k : Nat) : List Byte := (List.range k).map fun i => BitVec.ofNat 8 (n / 256 ^ i)

/-- A measurement block: the ROM's and the images' digests as such, the last two raw. -/
def measurementBlock (index : Nat) (v : List Byte) : List Byte :=
  let kind := if index = 1 then 0x00 else if index = 2 then 0x01 else if index = 3 then 0x03 else 0x83
  numBytes index 1 ++ [1] ++ numBytes (v.length + 3) 2 ++ [kind] ++ numBytes v.length 2 ++ v

/-- MEASUREMENTS: none but their number, one, or all (GET_MEASUREMENTS Param2 0, an index, 0xFF). -/
def spdmMeasurements (s : State) (op : Nat) : List Byte :=
  let ms := reported s
  let head := fun (p1 : Nat) (n : Nat) (rcd : List Byte) =>
    [0x12, 0x60] ++ numBytes p1 1 ++ [0] ++ numBytes n 1 ++ numBytes rcd.length 3 ++ rcd ++ Config.spdmBody 0x60 s.tick
  if op = 0 then head ms.length 0 []
  else if op = 0xFF then
    head 0 ms.length ((List.range ms.length).flatMap fun i => measurementBlock (i + 1) (ms.getD i []))
  else match ms[op - 1]? with
    | some v => head 0 1 (measurementBlock op v)
    | none => [0x12, 0x7F, 0x01, 0]

/-- CERTIFICATE: a portion of the chain by offset and length, within the body of a message (R407). -/
def spdmCertificate (req : List Byte) : List Byte :=
  let offset := bytesVal ((req.drop 4).take 2)
  let rest := Config.certificates.drop offset
  let part := rest.take (min (bytesVal ((req.drop 6).take 2)) (maxBody - 8))
  if offset > Config.certificates.length || req.getD 2 0 &&& 15 != 0 then [0x12, 0x7F, 0x01, 0]
  else [0x12, 0x02, 0, 0] ++ numBytes part.length 2 ++ numBytes (rest.length - part.length) 2 ++ part

/-- ALGORITHMS: ECDSA P-384 and SHA-384 are the only ones. -/
def spdmAlgorithms : List Byte :=
  [0x12, 0x63, 0, 0, 36, 0, 1, 0, 4, 0, 0, 0, 0x80, 0, 0, 0, 2, 0, 0, 0] ++ List.replicate 16 0

/-- What answers an SPDM request. -/
def spdmAnswer (s : State) (req : List Byte) : List Byte :=
  let code := (req.getD 1 0).toNat
  if code = 0x84 then [0x10, 0x04, 0, 0, 0, 1, 0, 0x12]
  else if code = 0xE1 then [0x12, 0x61, 0, 0] ++ Config.spdmBody 0x61 s.tick
  else if code = 0xE3 then spdmAlgorithms
  else if code = 0x81 then [0x12, 0x01, 0, 1] ++ sha384 Config.certificates
  else if code = 0x82 then spdmCertificate req
  else if code = 0x83 then [0x12, 0x03, 0, 1] ++ sha384 Config.certificates ++ Config.spdmBody 0x03 s.tick
  else if code = 0xE0 then spdmMeasurements s (req.getD 3 0).toNat
  else [0x12, 0x7F, 0x07, BitVec.ofNat 8 code]

/-- The SPDM response to a request: no longer than the body of a message (R407). -/
def spdmResponse (s : State) (req : List Byte) : List Byte := (spdmAnswer s req).take maxBody

/-- SPDM (R421): each response is made once, with what only the moment gives it. -/
def answerSpdm (m : HostMsg) (s : State) : State := nextTick (respond s m 0 (spdmResponse s m.body))

/-! ## The order of a connection (R410) -/

/-- Firmware, or the boot ROM, handles a request: its response, or nothing yet while its action is not complete. -/
def answer (m : HostMsg) (image : List (Nat × GData)) (s : State) : State × Bool :=
  let k := askOf m
  if k = .malformed then (respond s m 4 [], true)
  else if !answers s k then (respond s m 3 [], true)
  else match k with
    | .malformed => (s, true)
    | .launch => answerLaunch m s
    | .query item n => (answerQuery m item n s, true)
    | .pageIn l va => answerPageIn m l va image s
    | .pageOut l va => answerPageOut m l va s
    | .bindSource ep g src => (answerBindSource m ep g src s, true)
    | .bindOutput ep l o src => (answerBindOutput m ep l o src s, true)
    | .window ep n port => answerWindow m ep n port s
    | .spdm _ => (answerSpdm m s, true)

/-- A message waits, behind those of its connection that came before it (R410). -/
def enqueue (s : State) (m : HostMsg) (image : List (Nat × GData)) : State :=
  { s with ports := { s.ports with waiting := s.ports.waiting ++ [⟨m, image⟩] } }

/-- A request of the kind that an event names, or one that is malformed, arrives on port 0, which alone carries the endpoint
(R406); on its connection it comes after those that wait (R410). -/
def request (want : Ask → Bool) (m : HostMsg) (image : List (Nat × GData)) (s : State) : Result :=
  if m.port != 0 || isResponse m || !(want (askOf m) || askOf m == .malformed) then .next s
  else if s.ports.waiting.any fun w => w.msg.conn == m.conn then .next (enqueue s m image)
  else match answer m image s with
    | (s, true) => .next s
    | (s, false) => .next (enqueue s m image)

/-- Firmware goes on with the oldest message of a connection (R410). -/
def resumeConn (conn : Nat) (s : State) : State :=
  match s.ports.waiting.find? fun w => w.msg.conn == conn with
  | some w =>
    match answer w.msg w.image s with
    | (s, true) => { s with ports := { s.ports with waiting := s.ports.waiting.erase w } }
    | (s, false) => s
  | none => s

def isLaunch (k : Ask) : Bool := k == .launch
def isQuery (item : Nat) (k : Ask) : Bool := match k with | .query i _ => i == item | _ => false
def isPageIn (k : Ask) : Bool := match k with | .pageIn _ _ => true | _ => false
def isPageOut (k : Ask) : Bool := match k with | .pageOut _ _ => true | _ => false
def isBindSource (k : Ask) : Bool := match k with | .bindSource _ _ _ => true | _ => false
def isBindOutput (k : Ask) : Bool := match k with | .bindOutput _ _ _ _ => true | _ => false
def isWindow (k : Ask) : Bool := match k with | .window _ _ _ => true | _ => false
def isSpdm (codes : Nat → Bool) (k : Ask) : Bool := match k with | .spdm c => codes c | _ => false

/-- The requests that the device supports (R421). -/
def spdmCodes : List Nat := [0x84, 0xE1, 0xE3, 0x81, 0x82, 0x83, 0xE0]

/-- LAUNCH (R410). -/
def execLaunch (l : MsgLink) (h : MsgHead) (body : List Byte) (s : State) : Result :=
  request isLaunch ⟨l, h, body⟩ [] s
/-- QUERY item 0 (R419). -/
def execQuerySelfTest (m : HostMsg) (s : State) : Result := request (isQuery 0) m [] s
/-- QUERY item 1 (R409). -/
def execQueryCapv (m : HostMsg) (s : State) : Result := request (isQuery 1) m [] s
/-- QUERY item 2 (R409). -/
def execQueryRetirementLog (l : MsgLink) (p : MsgPacket) (s : State) : Result := request (isQuery 2) ⟨l, p⟩ [] s
/-- QUERY item 3 (R409). -/
def execQueryLiveLaunches (m : HostMsg) (s : State) : Result := request (isQuery 3) m [] s
/-- PAGE_TO_DEVICE (R413). -/
def execPageToDevice (l : MsgLink) (h : MsgHead) (body : List Byte) (image : List (Nat × GData)) (s : State) : Result :=
  request isPageIn ⟨l, h, body⟩ image s
/-- PAGE_TO_HOST (R413). -/
def execPageToHost (l : MsgLink) (h : MsgHead) (body : List Byte) (s : State) : Result :=
  request isPageOut ⟨l, h, body⟩ [] s
/-- STREAM_BIND_SOURCE (R415). -/
def execStreamBindSource (l : MsgLink) (h : MsgHead) (body : List Byte) (s : State) : Result :=
  request isBindSource ⟨l, h, body⟩ [] s
/-- STREAM_BIND_OUTPUT (R415). -/
def execStreamBindOutput (l : MsgLink) (h : MsgHead) (body : List Byte) (s : State) : Result :=
  request isBindOutput ⟨l, h, body⟩ [] s
/-- WINDOW (R415). -/
def execWindow (l : MsgLink) (h : MsgHead) (body : List Byte) (s : State) : Result :=
  request isWindow ⟨l, h, body⟩ [] s
/-- GET_VERSION (R421). -/
def execGetVersion (l : MsgLink) (p : MsgPacket) (s : State) : Result := request (isSpdm (· == 0x84)) ⟨l, p⟩ [] s
/-- GET_CAPABILITIES (R421). -/
def execGetCapabilities (l : MsgLink) (p : MsgPacket) (s : State) : Result := request (isSpdm (· == 0xE1)) ⟨l, p⟩ [] s
/-- NEGOTIATE_ALGORITHMS (R421). -/
def execNegotiateAlgorithms (l : MsgLink) (p : MsgPacket) (s : State) : Result := request (isSpdm (· == 0xE3)) ⟨l, p⟩ [] s
/-- GET_DIGESTS (R421). -/
def execGetDigests (l : MsgLink) (p : MsgPacket) (s : State) : Result := request (isSpdm (· == 0x81)) ⟨l, p⟩ [] s
/-- GET_CERTIFICATE (R421). -/
def execGetCertificate (l : MsgLink) (p : MsgPacket) (s : State) : Result := request (isSpdm (· == 0x82)) ⟨l, p⟩ [] s
/-- CHALLENGE (R421). -/
def execChallenge (l : MsgLink) (p : MsgPacket) (s : State) : Result := request (isSpdm (· == 0x83)) ⟨l, p⟩ [] s
/-- GET_MEASUREMENTS (R421, Table 30.5). -/
def execGetMeasurements (l : MsgLink) (p : MsgPacket) (s : State) : Result := request (isSpdm (· == 0xE0)) ⟨l, p⟩ [] s
/-- UNSUPPORTED_REQUEST: any other request gets the SPDM error UnsupportedRequest (R421). -/
def execUnsupportedRequest (l : MsgLink) (p : MsgPacket) (s : State) : Result :=
  request (isSpdm fun c => !spdmCodes.contains c) ⟨l, p⟩ [] s

/-- The host's answer to a request of the device: the page moves in, or it is refused; another STATUS only ends the request.
An answer for a page that is device-owned meanwhile is ignored (R149, R413; log 32). Where something of the move finds no way, the
request stands (R392). -/
def pageAnswered (q : PageRequest) (status : Nat) (image : List (Nat × GData)) (s : State) : State :=
  let va := BitVec.ofNat 64 (q.page * 65536)
  let s' := dropRequest s q.table q.page
  match leafAt s va 3 1 q.table with
  | .ok leaf =>
    if !pteHost leaf.2.1 then s'
    else if status = 0 then (if pteBase leaf.2.1 < hbmBytes then (bringIn s q.table va leaf image).1 else s')
    else if status = 1 then { s' with ports := { s'.ports with refusals := s'.ports.refusals ++ [(q.table, q.page)] } }
    else s'
  | .error (.noWay l) => reportLeg s (some l)
  | .error e => reportLeaf s' q.table va e

/-- PAGE_RESPONSE: a response of the host is matched to the device's request by its TAG; one that matches none, or whose header
is malformed, is ignored (R407, R413). -/
def execPageResponse (l : MsgLink) (h : MsgHead) (body : List Byte) (image : List (Nat × GData)) (s : State) : Result :=
  let m : HostMsg := ⟨l, h, body⟩
  if m.port != 0 || !isResponse m || headerBad m || msgType m != 3 then .next s
  else match s.ports.pageRequests.find? fun q => q.tag == msgTag m with
    | some q => .next (pageAnswered q (msgStatus m) image s)
    | none => .next s

/-! ## Power-on (R100, R416-R418) -/

/-- The self-test record (Table 30.4). -/
def selfTestRecord (stage result cls unit : Nat) (code : BitVec 32) (fw time : Word) : List Word :=
  [BitVec.ofNat 64 (stage * 2 ^ 56 + result * 2 ^ 48 + cls * 2 ^ 46 + unit * 2 ^ 36 + code.toNat), Config.serial, fw, time,
    0, 0, 0, 0]

/-- What a power-on leaves before its first stage: everything at reset, but what the nonvolatile store holds (the log, the
Celior image and the almanac) and what the model keeps of its own (R394, R401, R416, R420). -/
def powerCycle (s : State) (r : PowerOn) : State :=
  { State.reset with
    tick := s.tick
    agenda := s.agenda
    svc := { Service.reset with log := s.svc.log, logFull := s.svc.logFull }
    ports := { Ports.reset with celior := r.celior, almanac := r.almanac } }

/-- The sequence stops at a stage (R416-R418). The boot ROM reports the first two measurements (R418). -/
def stopAt (s : State) (stage : Nat) (rom : Bool) (rcd : List Word) : State :=
  { s with ports := { s.ports with
    stage := stage, selfTest := rcd, talkative := true, rom := rom
    measured := if rom then some ((measurements s).take 2) else none } }

/-- The units that the retirement log names: class and unit (R401). -/
def loggedUnits (s : State) : List (Nat × Nat) := s.svc.log.map fun e => (bits (wordAt e.1 0) 30 2, bits (wordAt e.1 0) 20 10)

/-- An entry of the retirement log follows the one before it and bears the identity key's signature (R401). That the key signs a
record in one way only is the model's. (DESIGN CHOICE, log 10.) -/
def entryVerifies (prev : List Word) (seq : Nat) (e : List Word × Vector Byte 96) : Bool :=
  e.1.length == 8 && bits (wordAt e.1 0) 48 16 == 0x4F4E && bits (wordAt e.1 0) 32 16 == seq % 65536 && e.1.drop 4 == prev &&
    e.2 == Config.signature e.1

/-- Every entry verifies, and PREV chains them (R401). -/
def logVerifies (prev : List Word) (seq : Nat) : List (List Word × Vector Byte 96) → Bool
  | [] => true
  | e :: es => entryVerifies prev seq e && logVerifies (wordsOf (sha384 (entryBytes e)) 4) (seq + 1) es

/-- A unit is masked at power-on: RETIRED, with no notice and no change of GEN (R399, R401). -/
def maskUnit (s : State) (u : Nat × Nat) : State :=
  let remap := u.1 == 3 && !s.svc.remapped.contains u.2 && remappedIn s (u.2 / 64) < 3
  { s with svc := { s.svc with
    lease := tput s.svc.lease (unitKey u.1 u.2) .retired
    remapped := if remap then s.svc.remapped ++ [u.2] else s.svc.remapped } }

/-- The granules of a list of bytes. -/
def bytesGranules : Nat → List Byte → List GData
  | 0, _ => []
  | n + 1, bs => placeBytes 0 (bytesVal (bs.take 64)) :: bytesGranules n (bs.drop 64)

/-- Stage 2 copies the almanac into the system parts of stack 0, in order over the pseudo-channels that the retirement log does
not name; management-core stores form its granules (R98, R394). -/
def copyAlmanac (s : State) : State :=
  let named := (loggedUnits s).filterMap fun u => if u.1 = 3 then some u.2 else none
  let pchs := (List.range 64).filter fun p => !named.contains p
  let gs := bytesGranules ((s.ports.almanac.length + 63) / 64) s.ports.almanac
  { s with system := gs.zipIdx.filterMap fun x =>
      pchs[x.2 / 65536]?.map fun p => (65536 * p + x.2 % 65536, mkGranule x.1 prodManagement 4 0) }

/-- A granule of a system part: what the almanac's copy does not take reads as zero (R17). -/
def systemGranule (s : State) (pch i : Nat) : Granule := tgetD s.system (65536 * pch + i) ⟨0, 0⟩

/-- The almanac pass writes the test stripe of every pseudo-channel in service (R393, R394, R416). -/
def writeStripes (s : State) : State :=
  let pchs := (List.range 512).filter fun p => leaseOf s 3 p == .inService
  nextTick { s with stripes := pchs.map fun p => (p, s.tick) }

/-- A unit that fails the almanac pass is leased, fails, fails again with the full set and is retired (R395, R416). -/
def almanacFails (s : State) (u : BitVec 2 × Nat × BitVec 32) : State :=
  let c := u.1.toNat
  if leaseOf s c u.2.1 != .inService then s
  else
    let s := setLease s c u.2.1 .leased
    let s := leaseFails (leaseFails s c u.2.1 u.2.2) c u.2.1 u.2.2
    -- the data of a pseudo-channel is moved at once: no core runs yet
    match execPseudoChannelRemap u.2.1 s with
    | .next s' => if c = 3 then s' else s
    | .fault _ => s
    | .refused _ => s

/-- A stage from 1 on fails: the sequence stops there. TIME is read as it ends (Table 30.4). -/
def failStage (r : PowerOn) (s : State) (stage : Nat) : State :=
  let (now, s) := readTime s
  stopAt s stage false (selfTestRecord stage 1 r.failClass.toNat r.failUnit.toNat r.failCode r.celior.version now)

/-- POWER_ON: the stages of Table 30.3 in order. The operands say how the tests of the part went; the retirement log is verified
here (R401). (DEDUCED, log 32.) -/
def execPowerOn (r : PowerOn) (s : State) : Result :=
  let s := powerCycle s r
  if r.image != 0 then .next (stopAt s 0 true (selfTestRecord 0 1 0 0 (if r.image = 1 then 1 else 2) 0 0))
  else if !r.mountOk then .next (failStage r s 1)
  else if !r.hbmOk then .next (failStage r s 2)
  else
    let s := copyAlmanac { s with memzone := (1 : Word) <<< 63 ||| r.lzlog.setWidth 64 }
    if !r.scanOk || !logVerifies [0, 0, 0, 0] 0 s.svc.log then .next (failStage r s 3)
    else
      let s := writeStripes ((loggedUnits s).foldl maskUnit s)
      let s := r.almanacFails.foldl almanacFails s
      let (now, s) := readTime s
      .next { s with ports := { s.ports with
        stage := 5, selfTest := selfTestRecord 5 0 0 0 0 r.celior.version now, measured := some (measurements s) } }

end Sys2Proof.Machine
end

