-- ==== Sys2Proof/Machine/Dispatch.lean ====
section
/-! DEFINITION. The one match from an instruction to its meaning. -/

namespace Sys2Proof.Machine

def exec (i : Instr) (s : State) : Host.Outcome State Fault Refusal :=
  match i with
  | .add d a b => Sys2Proof.Machine.execAdd d a b s
  | .sub d a b => Sys2Proof.Machine.execSub d a b s
  | .and d a b => Sys2Proof.Machine.execAnd d a b s
  | .or d a b => Sys2Proof.Machine.execOr d a b s
  | .xor d a b => Sys2Proof.Machine.execXor d a b s
  | .sll d a b => Sys2Proof.Machine.execSll d a b s
  | .srl d a b => Sys2Proof.Machine.execSrl d a b s
  | .sra d a b => Sys2Proof.Machine.execSra d a b s
  | .slt d a b => Sys2Proof.Machine.execSlt d a b s
  | .sltu d a b => Sys2Proof.Machine.execSltu d a b s
  | .min d a b => Sys2Proof.Machine.execMin d a b s
  | .max d a b => Sys2Proof.Machine.execMax d a b s
  | .minu d a b => Sys2Proof.Machine.execMinu d a b s
  | .maxu d a b => Sys2Proof.Machine.execMaxu d a b s
  | .clz d a => Sys2Proof.Machine.execClz d a s
  | .ctz d a => Sys2Proof.Machine.execCtz d a s
  | .popc d a => Sys2Proof.Machine.execPopc d a s
  | .addSat d a b => Sys2Proof.Machine.execAddSat d a b s
  | .subSat d a b => Sys2Proof.Machine.execSubSat d a b s
  | .bfx d a pos lenM1 => Sys2Proof.Machine.execBfx d a pos lenM1 s
  | .bfxu d a pos lenM1 => Sys2Proof.Machine.execBfxu d a pos lenM1 s
  | .bfi d a pos lenM1 => Sys2Proof.Machine.execBfi d a pos lenM1 s
  | .fsl d a b sh => Sys2Proof.Machine.execFsl d a b sh s
  | .fsr d a b sh => Sys2Proof.Machine.execFsr d a b sh s
  | .mul d a b => Sys2Proof.Machine.execMul d a b s
  | .mulh d a b => Sys2Proof.Machine.execMulh d a b s
  | .mulhu d a b => Sys2Proof.Machine.execMulhu d a b s
  | .mulhsu d a b => Sys2Proof.Machine.execMulhsu d a b s
  | .div d a b => Sys2Proof.Machine.execDiv d a b s
  | .divu d a b => Sys2Proof.Machine.execDivu d a b s
  | .rem d a b => Sys2Proof.Machine.execRem d a b s
  | .remu d a b => Sys2Proof.Machine.execRemu d a b s
  | .divSat d a b => Sys2Proof.Machine.execDivSat d a b s
  | .addi d a imm => Sys2Proof.Machine.execAddi d a imm s
  | .andi d a imm => Sys2Proof.Machine.execAndi d a imm s
  | .ori d a imm => Sys2Proof.Machine.execOri d a imm s
  | .xori d a imm => Sys2Proof.Machine.execXori d a imm s
  | .slti d a imm => Sys2Proof.Machine.execSlti d a imm s
  | .sltiu d a imm => Sys2Proof.Machine.execSltiu d a imm s
  | .slli d a sh => Sys2Proof.Machine.execSlli d a sh s
  | .srli d a sh => Sys2Proof.Machine.execSrli d a sh s
  | .srai d a sh => Sys2Proof.Machine.execSrai d a sh s
  | .rori d a sh => Sys2Proof.Machine.execRori d a sh s
  | .lui d imm => Sys2Proof.Machine.execLui d imm s
  | .addpc d imm => Sys2Proof.Machine.execAddpc d imm s
  | .ld wd d a off => Sys2Proof.Machine.execLd wd d a off s
  | .st wd src a off => Sys2Proof.Machine.execSt wd src a off s
  | .amoadd dbl acq rls sc d a b => Sys2Proof.Machine.execAmoadd dbl acq rls sc d a b s
  | .amomin dbl acq rls sc d a b => Sys2Proof.Machine.execAmomin dbl acq rls sc d a b s
  | .amomax dbl acq rls sc d a b => Sys2Proof.Machine.execAmomax dbl acq rls sc d a b s
  | .amominu dbl acq rls sc d a b => Sys2Proof.Machine.execAmominu dbl acq rls sc d a b s
  | .amomaxu dbl acq rls sc d a b => Sys2Proof.Machine.execAmomaxu dbl acq rls sc d a b s
  | .amoand dbl acq rls sc d a b => Sys2Proof.Machine.execAmoand dbl acq rls sc d a b s
  | .amoor dbl acq rls sc d a b => Sys2Proof.Machine.execAmoor dbl acq rls sc d a b s
  | .amoxor dbl acq rls sc d a b => Sys2Proof.Machine.execAmoxor dbl acq rls sc d a b s
  | .amoswap dbl acq rls sc d a b => Sys2Proof.Machine.execAmoswap dbl acq rls sc d a b s
  | .amocas dbl acq rls sc d a b => Sys2Proof.Machine.execAmocas dbl acq rls sc d a b s
  | .ldNc wd d a off => Sys2Proof.Machine.execLdNc wd d a off s
  | .beq a b off => Sys2Proof.Machine.execBeq a b off s
  | .bne a b off => Sys2Proof.Machine.execBne a b off s
  | .blt a b off => Sys2Proof.Machine.execBlt a b off s
  | .bge a b off => Sys2Proof.Machine.execBge a b off s
  | .bltu a b off => Sys2Proof.Machine.execBltu a b off s
  | .bgeu a b off => Sys2Proof.Machine.execBgeu a b off s
  | .jal d off => Sys2Proof.Machine.execJal d off s
  | .jalr d a off => Sys2Proof.Machine.execJalr d a off s
  | .bstrip a off => Sys2Proof.Machine.execBstrip a off s
  | .loop a b level lenM1 dinc ainc binc => Sys2Proof.Machine.execLoop a b level lenM1 dinc ainc binc s
  | .eret => Sys2Proof.Machine.execEret s
  | .halt => Sys2Proof.Machine.execHalt s
  | .wait => Sys2Proof.Machine.execWait s
  | .brk => Sys2Proof.Machine.execBrk s
  | .trap code => Sys2Proof.Machine.execTrap code s
  | .crd d r => Sys2Proof.Machine.execCrd d r s
  | .cwr a r => Sys2Proof.Machine.execCwr a r s
  | .cset d a r => Sys2Proof.Machine.execCset d a r s
  | .ccl d a r => Sys2Proof.Machine.execCcl d a r s
  | .fence sc => Sys2Proof.Machine.execFence sc s
  | .rel sc => Sys2Proof.Machine.execRel sc s
  | .strel sc a b off => Sys2Proof.Machine.execStrel sc a b off s
  | .ldacq d a off => Sys2Proof.Machine.execLdacq d a off s
  | .drain => Sys2Proof.Machine.execDrain s
  | .turn a b levelM1 => Sys2Proof.Machine.execTurn a b levelM1 s
  | .turnq d a b => Sys2Proof.Machine.execTurnq d a b s
  | .qsend a q => Sys2Proof.Machine.execQsend a q s
  | .qrecv d q => Sys2Proof.Machine.execQrecv d q s
  | .qpoll d b q => Sys2Proof.Machine.execQpoll d b q s
  | .qpush a b q => Sys2Proof.Machine.execQpush a b q s
  | .tspawn d a => Sys2Proof.Machine.execTspawn d a s
  | .tdep a b => Sys2Proof.Machine.execTdep a b s
  | .tdone a => Sys2Proof.Machine.execTdone a s
  | .gbar team => Sys2Proof.Machine.execGbar team s
  | .tyield => Sys2Proof.Machine.execTyield s
  | .vsetvl ew d a => Sys2Proof.Machine.execVsetvl ew d a s
  | .vadd d a b pg ew sat rnd z => Sys2Proof.Machine.execVadd d a b pg ew sat rnd z s
  | .vsub d a b pg ew sat rnd z => Sys2Proof.Machine.execVsub d a b pg ew sat rnd z s
  | .vmul d a b pg ew z => Sys2Proof.Machine.execVmul d a b pg ew z s
  | .vmulh d a b pg ew z => Sys2Proof.Machine.execVmulh d a b pg ew z s
  | .vmulhu d a b pg ew z => Sys2Proof.Machine.execVmulhu d a b pg ew z s
  | .vdiv d a b pg ew z => Sys2Proof.Machine.execVdiv d a b pg ew z s
  | .vdivu d a b pg ew z => Sys2Proof.Machine.execVdivu d a b pg ew z s
  | .vrem d a b pg ew z => Sys2Proof.Machine.execVrem d a b pg ew z s
  | .vremu d a b pg ew z => Sys2Proof.Machine.execVremu d a b pg ew z s
  | .vmin d a b pg ew z => Sys2Proof.Machine.execVmin d a b pg ew z s
  | .vmax d a b pg ew z => Sys2Proof.Machine.execVmax d a b pg ew z s
  | .vminu d a b pg ew z => Sys2Proof.Machine.execVminu d a b pg ew z s
  | .vmaxu d a b pg ew z => Sys2Proof.Machine.execVmaxu d a b pg ew z s
  | .vand d a b pg ew z => Sys2Proof.Machine.execVand d a b pg ew z s
  | .vor d a b pg ew z => Sys2Proof.Machine.execVor d a b pg ew z s
  | .vxor d a b pg ew z => Sys2Proof.Machine.execVxor d a b pg ew z s
  | .vavg d a b pg ew z => Sys2Proof.Machine.execVavg d a b pg ew z s
  | .vabsd d a b pg ew z => Sys2Proof.Machine.execVabsd d a b pg ew z s
  | .vaddx d a b pg ew z => Sys2Proof.Machine.execVaddx d a b pg ew z s
  | .vsubx d a b pg ew z => Sys2Proof.Machine.execVsubx d a b pg ew z s
  | .vrsubx d a b pg ew z => Sys2Proof.Machine.execVrsubx d a b pg ew z s
  | .vmulx d a b pg ew z => Sys2Proof.Machine.execVmulx d a b pg ew z s
  | .vmulhx d a b pg ew z => Sys2Proof.Machine.execVmulhx d a b pg ew z s
  | .vdivx d a b pg ew z => Sys2Proof.Machine.execVdivx d a b pg ew z s
  | .vdivux d a b pg ew z => Sys2Proof.Machine.execVdivux d a b pg ew z s
  | .vremx d a b pg ew z => Sys2Proof.Machine.execVremx d a b pg ew z s
  | .vremux d a b pg ew z => Sys2Proof.Machine.execVremux d a b pg ew z s
  | .vminx d a b pg ew z => Sys2Proof.Machine.execVminx d a b pg ew z s
  | .vmaxx d a b pg ew z => Sys2Proof.Machine.execVmaxx d a b pg ew z s
  | .vminux d a b pg ew z => Sys2Proof.Machine.execVminux d a b pg ew z s
  | .vmaxux d a b pg ew z => Sys2Proof.Machine.execVmaxux d a b pg ew z s
  | .vandx d a b pg ew z => Sys2Proof.Machine.execVandx d a b pg ew z s
  | .vorx d a b pg ew z => Sys2Proof.Machine.execVorx d a b pg ew z s
  | .vxorx d a b pg ew z => Sys2Proof.Machine.execVxorx d a b pg ew z s
  | .vmacc d a b pg ew z => Sys2Proof.Machine.execVmacc d a b pg ew z s
  | .vmsac d a b pg ew z => Sys2Proof.Machine.execVmsac d a b pg ew z s
  | .vneg d a pg ew z => Sys2Proof.Machine.execVneg d a pg ew z s
  | .vabs d a pg ew z => Sys2Proof.Machine.execVabs d a pg ew z s
  | .vnot d a pg ew z => Sys2Proof.Machine.execVnot d a pg ew z s
  | .vsqrt d a pg ew z => Sys2Proof.Machine.execVsqrt d a pg ew z s
  | .vclz d a pg ew z => Sys2Proof.Machine.execVclz d a pg ew z s
  | .vctz d a pg ew z => Sys2Proof.Machine.execVctz d a pg ew z s
  | .vpopc d a pg ew z => Sys2Proof.Machine.execVpopc d a pg ew z s
  | .vmv d a pg ew z => Sys2Proof.Machine.execVmv d a pg ew z s
  | .vcmpVv c d a b pg ew z => Sys2Proof.Machine.execVcmpVv c d a b pg ew z s
  | .vcmpVx c d a b pg ew z => Sys2Proof.Machine.execVcmpVx c d a b pg ew z s
  | .pand d a b => Sys2Proof.Machine.execPand d a b s
  | .por d a b => Sys2Proof.Machine.execPor d a b s
  | .pxor d a b => Sys2Proof.Machine.execPxor d a b s
  | .pandn d a b => Sys2Proof.Machine.execPandn d a b s
  | .pnot d a => Sys2Proof.Machine.execPnot d a s
  | .pleadIncl d a pg ew => Sys2Proof.Machine.execPleadIncl d a pg ew s
  | .pleadExcl d a pg ew => Sys2Proof.Machine.execPleadExcl d a pg ew s
  | .ppopc d a pg ew => Sys2Proof.Machine.execPpopc d a pg ew s
  | .pfind d a pg ew => Sys2Proof.Machine.execPfind d a pg ew s
  | .pset d a ew => Sys2Proof.Machine.execPset d a ew s
  | .vslideup d a b pg ew z => Sys2Proof.Machine.execVslideup d a b pg ew z s
  | .vslidedn d a b pg ew z => Sys2Proof.Machine.execVslidedn d a b pg ew z s
  | .vrgather d a b pg ew z => Sys2Proof.Machine.execVrgather d a b pg ew z s
  | .vcompress d a pg ew z => Sys2Proof.Machine.execVcompress d a pg ew z s
  | .viota d pg ew z => Sys2Proof.Machine.execViota d pg ew z s
  | .vsplat d a pg ew z => Sys2Proof.Machine.execVsplat d a pg ew z s
  | .vmvx d a b ew => Sys2Proof.Machine.execVmvx d a b ew s
  | .vins d a b ew => Sys2Proof.Machine.execVins d a b ew s
  | .vredsum d a b pg ew => Sys2Proof.Machine.execVredsum d a b pg ew s
  | .vredmin d a b pg ew => Sys2Proof.Machine.execVredmin d a b pg ew s
  | .vredmax d a b pg ew => Sys2Proof.Machine.execVredmax d a b pg ew s
  | .vredminu d a b pg ew => Sys2Proof.Machine.execVredminu d a b pg ew s
  | .vredmaxu d a b pg ew => Sys2Proof.Machine.execVredmaxu d a b pg ew s
  | .vredand d a b pg ew => Sys2Proof.Machine.execVredand d a b pg ew s
  | .vredor d a b pg ew => Sys2Proof.Machine.execVredor d a b pg ew s
  | .vredxor d a b pg ew => Sys2Proof.Machine.execVredxor d a b pg ew s
  | .vscansum d a pg ew z => Sys2Proof.Machine.execVscansum d a pg ew z s
  | .vscanmax d a pg ew z => Sys2Proof.Machine.execVscanmax d a pg ew z s
  | .vscanmin d a pg ew z => Sys2Proof.Machine.execVscanmin d a pg ew z s
  | .vcvt dst src d a rnd sat => Sys2Proof.Machine.execVcvt dst src d a rnd sat s
  | .vquant dst src d a x => Sys2Proof.Machine.execVquant dst src d a x s
  | .vdquant dst src d a x => Sys2Proof.Machine.execVdquant dst src d a x s
  | .vsll d a b pg ew z => Sys2Proof.Machine.execVsll d a b pg ew z s
  | .vsrl d a b pg ew z => Sys2Proof.Machine.execVsrl d a b pg ew z s
  | .vsra d a b pg ew z => Sys2Proof.Machine.execVsra d a b pg ew z s
  | .vrol d a b pg ew z => Sys2Proof.Machine.execVrol d a b pg ew z s
  | .vbfx d a b pg ew z => Sys2Proof.Machine.execVbfx d a b pg ew z s
  | .vbfxu d a b pg ew z => Sys2Proof.Machine.execVbfxu d a b pg ew z s
  | .vbfi d a b pg ew z => Sys2Proof.Machine.execVbfi d a b pg ew z s
  | .vfsl d a b pg ew z => Sys2Proof.Machine.execVfsl d a b pg ew z s
  | .vfsr d a b pg ew z => Sys2Proof.Machine.execVfsr d a b pg ew z s
  | .vaddi d a m pg ew z => Sys2Proof.Machine.execVaddi d a m pg ew z s
  | .vrsubi d a m pg ew z => Sys2Proof.Machine.execVrsubi d a m pg ew z s
  | .vandi d a m pg ew z => Sys2Proof.Machine.execVandi d a m pg ew z s
  | .vori d a m pg ew z => Sys2Proof.Machine.execVori d a m pg ew z s
  | .vxori d a m pg ew z => Sys2Proof.Machine.execVxori d a m pg ew z s
  | .vslli d a m pg ew z => Sys2Proof.Machine.execVslli d a m pg ew z s
  | .vsrli d a m pg ew z => Sys2Proof.Machine.execVsrli d a m pg ew z s
  | .vsrai d a m pg ew z => Sys2Proof.Machine.execVsrai d a m pg ew z s
  | .vsplati d m pg ew z => Sys2Proof.Machine.execVsplati d m pg ew z s
  | .vmini d a m pg ew z => Sys2Proof.Machine.execVmini d a m pg ew z s
  | .vmaxi d a m pg ew z => Sys2Proof.Machine.execVmaxi d a m pg ew z s
  | .vldUnit d a pg ew cv space => Sys2Proof.Machine.execVldUnit d a pg ew cv space s
  | .vldStrided d a b pg ew cv space => Sys2Proof.Machine.execVldStrided d a b pg ew cv space s
  | .vldIndexed d a b pg ew cv space => Sys2Proof.Machine.execVldIndexed d a b pg ew cv space s
  | .vldff d a pg ew cv => Sys2Proof.Machine.execVldff d a pg ew cv s
  | .vstUnit d a pg ew cv space => Sys2Proof.Machine.execVstUnit d a pg ew cv space s
  | .vstStrided d a b pg ew cv space => Sys2Proof.Machine.execVstStrided d a b pg ew cv space s
  | .vstIndexed d a b pg ew cv space => Sys2Proof.Machine.execVstIndexed d a b pg ew cv space s
  | .vldl d a b pg ew z => Sys2Proof.Machine.execVldl d a b pg ew z s
  | .vstl d a b pg ew => Sys2Proof.Machine.execVstl d a b pg ew s
  | .sfull a => Sys2Proof.Machine.execSfull a s
  | .sempty a => Sys2Proof.Machine.execSempty a s
  | .sprobe d a => Sys2Proof.Machine.execSprobe d a s
  | .vamoadd d a b pg dbl z => Sys2Proof.Machine.execVamoadd d a b pg dbl z s
  | .vamomin d a b pg dbl z => Sys2Proof.Machine.execVamomin d a b pg dbl z s
  | .vamomax d a b pg dbl z => Sys2Proof.Machine.execVamomax d a b pg dbl z s
  | .vamominu d a b pg dbl z => Sys2Proof.Machine.execVamominu d a b pg dbl z s
  | .vamomaxu d a b pg dbl z => Sys2Proof.Machine.execVamomaxu d a b pg dbl z s
  | .vamoand d a b pg dbl z => Sys2Proof.Machine.execVamoand d a b pg dbl z s
  | .vamoor d a b pg dbl z => Sys2Proof.Machine.execVamoor d a b pg dbl z s
  | .vamoxor d a b pg dbl z => Sys2Proof.Machine.execVamoxor d a b pg dbl z s
  | .vamoswap d a b pg dbl z => Sys2Proof.Machine.execVamoswap d a b pg dbl z s
  | .redst d a b pg ew => Sys2Proof.Machine.execRedst d a b pg ew s
  | .gather d a b pg dbl z => Sys2Proof.Machine.execGather d a b pg dbl z s
  | .mattach d a wt => Sys2Proof.Machine.execMattach d a wt s
  | .mdetach => Sys2Proof.Machine.execMdetach s
  | .mmode a => Sys2Proof.Machine.execMmode a s
  | .mexit => Sys2Proof.Machine.execMexit s
  | .mzero acc => Sys2Proof.Machine.execMzero acc s
  | .mrank acc a b prc pk fmt z => Sys2Proof.Machine.execMrank acc a b prc pk fmt z s
  | .mma acc a b prc pk fmt z => Sys2Proof.Machine.execMma acc a b prc pk fmt z s
  | .mmas acc a b prc pk fmt z => Sys2Proof.Machine.execMmas acc a b prc pk fmt z s
  | .mld acc a prc fmt => Sys2Proof.Machine.execMld acc a prc fmt s
  | .mst acc a prc fmt => Sys2Proof.Machine.execMst acc a prc fmt s
  | .mcvt acc dst src b rnd sat => Sys2Proof.Machine.execMcvt acc dst src b rnd sat s
  | .cpset d a b level => Sys2Proof.Machine.execCpset d a b level s
  | .cpgo acq rls sc cv ef d a b => Sys2Proof.Machine.execCpgo acq rls sc cv ef d a b s
  | .cpq d a => Sys2Proof.Machine.execCpq d a s
  | .swm d a => Sys2Proof.Machine.execSwm d a s
  | .swin d a => Sys2Proof.Machine.execSwin d a s
  | .semit a b => Sys2Proof.Machine.execSemit a b s
  | .sidle a b => Sys2Proof.Machine.execSidle a b s
  | .capq d => Sys2Proof.Machine.execCapq d s
  | .outboundDrain lvl unit gran => Sys2Proof.Machine.execOutboundDrain lvl unit gran s
  | .o3Writeback gran => Sys2Proof.Machine.execO3Writeback gran s
  | .multicastReserveForward out => Sys2Proof.Machine.execMulticastReserveForward out s
  | .copyCommand cluster => Sys2Proof.Machine.execCopyCommand cluster s
  | .engineFaultDelivery core => Sys2Proof.Machine.execEngineFaultDelivery core s
  | .interrupt core => Sys2Proof.Machine.execInterrupt core s
  | .barrierOpen handle team gang => Sys2Proof.Machine.execBarrierOpen handle team gang s
  | .tileGrantWaiter cluster => Sys2Proof.Machine.execTileGrantWaiter cluster s
  | .walkerEmit launchId => Sys2Proof.Machine.execWalkerEmit launchId s
  | .residencyGranted handle => Sys2Proof.Machine.execResidencyGranted handle s
  | .residencyFailed handle cause => Sys2Proof.Machine.execResidencyFailed handle cause s
  | .aging handle => Sys2Proof.Machine.execAging handle s
  | .stageRecord core => Sys2Proof.Machine.execStageRecord core s
  | .preloadLineLand slot => Sys2Proof.Machine.execPreloadLineLand slot s
  | .hartStart slot => Sys2Proof.Machine.execHartStart slot s
  | .budgetOverrun core => Sys2Proof.Machine.execBudgetOverrun core s
  | .machineFault core => Sys2Proof.Machine.execMachineFault core s
  | .correctedError pch => Sys2Proof.Machine.execCorrectedError pch s
  | .stepRetire handle => Sys2Proof.Machine.execStepRetire handle s
  | .completionRecordWrite => Sys2Proof.Machine.execCompletionRecordWrite s
  | .timerDeadline handle => Sys2Proof.Machine.execTimerDeadline handle s
  | .pageMoveIn launchId va image => Sys2Proof.Machine.execPageMoveIn launchId va image s
  | .pageMoveOut launchId va => Sys2Proof.Machine.execPageMoveOut launchId va s
  | .extend arg => Sys2Proof.Machine.execExtend arg s
  | .retry => Sys2Proof.Machine.execRetry s
  | .kill => Sys2Proof.Machine.execKill s
  | .preempt area => Sys2Proof.Machine.execPreempt area s
  | .timer => Sys2Proof.Machine.execTimer s
  | .bindRecordWrite core dws => Sys2Proof.Machine.execBindRecordWrite core dws s
  | .routeInstall v => Sys2Proof.Machine.execRouteInstall v s
  | .routeRemove v => Sys2Proof.Machine.execRouteRemove v s
  | .crngWrite n isC v => Sys2Proof.Machine.execCrngWrite n isC v s
  | .graphEnable g v => Sys2Proof.Machine.execGraphEnable g v s
  | .graphDisable g v => Sys2Proof.Machine.execGraphDisable g v s
  | .scdataWrite v => Sys2Proof.Machine.execScdataWrite v s
  | .lcmd v => Sys2Proof.Machine.execLcmd v s
  | .tlbInvalidation launchId va => Sys2Proof.Machine.execTlbInvalidation launchId va s
  | .registerWrite r v => Sys2Proof.Machine.execRegisterWrite r v s
  | .launch l h body => Sys2Proof.Machine.execLaunch l h body s
  | .querySelfTest m => Sys2Proof.Machine.execQuerySelfTest m s
  | .queryCapv m => Sys2Proof.Machine.execQueryCapv m s
  | .queryRetirementLog l p => Sys2Proof.Machine.execQueryRetirementLog l p s
  | .queryLiveLaunches m => Sys2Proof.Machine.execQueryLiveLaunches m s
  | .pageToDevice l h body image => Sys2Proof.Machine.execPageToDevice l h body image s
  | .pageToHost l h body => Sys2Proof.Machine.execPageToHost l h body s
  | .pageResponse l h body image => Sys2Proof.Machine.execPageResponse l h body image s
  | .streamBindSource l h body => Sys2Proof.Machine.execStreamBindSource l h body s
  | .streamBindOutput l h body => Sys2Proof.Machine.execStreamBindOutput l h body s
  | .window l h body => Sys2Proof.Machine.execWindow l h body s
  | .getVersion l p => Sys2Proof.Machine.execGetVersion l p s
  | .getCapabilities l p => Sys2Proof.Machine.execGetCapabilities l p s
  | .negotiateAlgorithms l p => Sys2Proof.Machine.execNegotiateAlgorithms l p s
  | .getDigests l p => Sys2Proof.Machine.execGetDigests l p s
  | .getCertificate l p => Sys2Proof.Machine.execGetCertificate l p s
  | .challenge l p => Sys2Proof.Machine.execChallenge l p s
  | .getMeasurements l p => Sys2Proof.Machine.execGetMeasurements l p s
  | .unsupportedRequest l p => Sys2Proof.Machine.execUnsupportedRequest l p s
  | .remoteWrite port launchId va data => Sys2Proof.Machine.execRemoteWrite port launchId va data s
  | .remoteRead port launchId va len => Sys2Proof.Machine.execRemoteRead port launchId va len s
  | .discardedPacket port => Sys2Proof.Machine.execDiscardedPacket port s
  | .streamRecord port ep h0 h1 payload => Sys2Proof.Machine.execStreamRecord port ep h0 h1 payload s
  | .watermarkRecord port ep h0 h1 => Sys2Proof.Machine.execWatermarkRecord port ep h0 h1 s
  | .idleTimeout g src => Sys2Proof.Machine.execIdleTimeout g src s
  | .amenddelayExpiry g win => Sys2Proof.Machine.execAmenddelayExpiry g win s
  | .outputWatermark launchId out => Sys2Proof.Machine.execOutputWatermark launchId out s
  | .slotReclaim g => Sys2Proof.Machine.execSlotReclaim g s
  | .stalledRecordDeposit g src => Sys2Proof.Machine.execStalledRecordDeposit g src s
  | .leaseInterval cls => Sys2Proof.Machine.execLeaseInterval cls s
  | .leasePatienceExpiry cls unit => Sys2Proof.Machine.execLeasePatienceExpiry cls unit s
  | .drainComplete cls unit => Sys2Proof.Machine.execDrainComplete cls unit s
  | .patternRunComplete cls unit pass patid => Sys2Proof.Machine.execPatternRunComplete cls unit pass patid s
  | .pseudoChannelRemap pch => Sys2Proof.Machine.execPseudoChannelRemap pch s
  | .scoreHalving => Sys2Proof.Machine.execScoreHalving s
  | .powerOn r => Sys2Proof.Machine.execPowerOn r s
  | .thermalStep chiplet temp => Sys2Proof.Machine.execThermalStep chiplet temp s
  | .energyInterval cluster => Sys2Proof.Machine.execEnergyInterval cluster s
  | .illegalWord word => Sys2Proof.Machine.execIllegalWord word s
  | .fetchFault => Sys2Proof.Machine.execFetchFault s
  | .managementCoreStore pa data => Sys2Proof.Machine.execManagementCoreStore pa data s
  | .ieee1588Sync ns => Sys2Proof.Machine.execIeee1588Sync ns s

end Sys2Proof.Machine
end

