-- ==== Sys2Proof/Machine/Issue.lean ====
section
/-! DEFINITION. How a core takes its turn: the boundary before an instruction (R349), the first instruction of a run (R85), the
instructions that an open frame skips (R226), and the issue of a fetched word. -/

namespace Sys2Proof.Machine

/-- The first instruction of a run of a step: TSTART is taken (R85). -/
def markBegan (s : State) : State :=
  if s.hart.began then s
  else
    let handle := s.hart.steph.toNat
    let first := (slotsOfStep s handle).all fun k => !(hartAt s k).began
    let s := { s with hart := { s.hart with began := true } }
    match findStep s handle with
    | some r =>
      if first then
        let (t, s) := readTime s
        setStep s { r with ran := true, tstart := t }
      else s
    | none => s

/-- Runs a fetched word as its frames number its registers (R227). -/
def issue (w : BitVec 32) (s : State) : Result :=
  match decodeWord w with
  | none => execIllegalWord w s
  | some i =>
    match fetchWord s with
    | (.ok _, s') => exec (staggered s'.hart i) s'
    | (.error _, _) => execFetchFault s

/-- The acting hart's next boundary. Harts that have stopped for a switch-out issue nothing (R362); a `wait` whose source has
come completes (R232); an instruction that an open frame does not allow is passed over (R226); then an engine fault awaiting
delivery, an interrupt, or the next instruction (R349). -/
def boundary (s : State) : Result :=
  if stopped s s.cur then .next (finishStop s s.hart.steph.toNat)
  else if s.hart.tdone.isSome then .next s
  else if s.hart.phase = 5 && pendingSources s s.cur != 0 then .next (advance s)
  else if !s.hart.frameAllows s.hart.pc then .next { s with hart := s.hart.skip }
  else if engineFaultDue s.hart then execEngineFaultDelivery (curCore s) s
  else if takenSources s s.cur != 0 then execInterrupt (curCore s) s
  else
    let s := markBegan s
    match fetchWord s with
    | (.ok w, _) => issue w s
    | (.error _, _) => execFetchFault s

/-- The RUNNING hart of a core takes its turn (R8). A stop inside an instruction comes after at least one of its units
(R349). -/
def runCore (core : Nat) (units : Option Nat) (s : State) : Result :=
  match runningSlot s core with
  | some k => boundary { switchTo s k with units := units.map (max 1) }
  | none => .next s

/-- The events that firmware makes: none of them happens while the management core runs only the boot ROM (R418). -/
def byFirmware (i : Instr) : Bool :=
  match i with
  | .residencyGranted _ => true
  | .residencyFailed _ _ => true
  | .pageMoveIn _ _ _ => true
  | .pageMoveOut _ _ => true
  | .extend _ => true
  | .retry => true
  | .kill => true
  | .preempt _ => true
  | .timer => true
  | .bindRecordWrite _ _ => true
  | .routeInstall _ => true
  | .routeRemove _ => true
  | .crngWrite _ _ _ => true
  | .graphEnable _ _ => true
  | .graphDisable _ _ => true
  | .scdataWrite _ => true
  | .lcmd _ => true
  | .tlbInvalidation _ _ => true
  | .registerWrite _ _ => true
  | .leaseInterval _ => true
  | .patternRunComplete _ _ _ _ => true
  | .thermalStep _ _ => true
  | .managementCoreStore _ _ => true
  | _ => false

/-- An event of the opcode table happens. A word is no event: it is run only by a hart that fetches it; an event that names a
unit the device does not have is no act of anything. (DESIGN CHOICE, log 1.) -/
def performEvent (i : Instr) (s : State) : Result :=
  if i.isWord || (wf? i).isNone || (s.ports.rom && byFirmware i) then .next s else exec i s

/-- The acting hart's translation of its pc's page, the code granule at its address, and the line it stands in, as
State.withFetchWord places them. (DESIGN CHOICE, log 3.) -/
def placeWord (s : State) (pc : Word) (v : Nat) : State :=
  let core := curCore s
  let n := curCluster s
  let pa := 65536 + (pc.extractLsb' 0 16).toNat
  let gran := pa / 64
  let pte : Word := 0x8F00000000010000 ||| if inLocalZone s pa then (1 : Word) <<< 60 else 0
  let e : TlbEntry := ⟨curLaunch s, pageOf pc, false, pte⟩
  let k := clusterAt s n
  let s := setCluster (freePage s (tableOf s (curLaunch s)) e.page 3) n { k with tlb := e :: k.tlb }
  let c := coreAt s core
  let s := setCore s core { c with tlb := e :: c.tlb, i1 := (lineOf gran).foldl tdel c.i1 }
  let other := inward (peekI2 s n (partner gran))
  let g := mkGranule (placeBytes (pa % 64) v) prodManagement 4 0
  let k := clusterAt s n
  setCluster s n { k with i2 := tput (tput k.i2 (partner gran) other) gran (homeCopy g 0) }

/-- The acting slot runs a hart that stands before its next instruction, with nothing to take first. -/
def placeHart (s : State) (pc : Word) : State :=
  let other := if s.cur % 2 = 0 then s.cur + 1 else s.cur - 1
  let s := { s with slots := tput (tdel s.slots other) s.cur { slotAt s s.cur with st := .running } }
  let s := match findStep s s.hart.steph.toNat with
    | some r => if r.stopping.isSome then setStep s { r with stopping := none } else s
    | none => s
  let h := { s.hart with pc := pc, tdone := none, began := true, engineFaults := [], phase := 0 }
  let h := if h.frameAllows pc then h else { h with frames := [] }
  let s := { s with hart := h }
  if takenSources s s.cur = 0 then s else { s with hart := { h with tstat := { h.tstat with ie := false } } }

end Sys2Proof.Machine
end

