-- ==== Sys2Proof/Machine/Step.lean ====
section
/-! DEFINITION. One step of the machine: the next act, and for an act of a core the issue of its next instruction. -/

namespace Sys2Proof.Machine

/-- Performs an act. (DESIGN CHOICE, log 1.) -/
def perform (a : Act) (s : State) : Result :=
  match a with
  | .run core units => runCore core units s
  | .event i => performEvent i s
  | .expire cls unit => execLeasePatienceExpiry cls unit s
  | .resume conn => .next (resumeConn conn s)

/-- One step: the next act of the agenda, or the environment's choice. (DESIGN CHOICE, log 1.) -/
def step (s : State) : Host.Outcome State Fault Refusal :=
  match s.agenda with
  | a :: rest => perform a { s with agenda := rest }
  | [] => perform (Config.environment s.tick) (nextTick s)

/-- Places an instruction where the next step fetches: the acting slot runs, its page is cached for fetch, its code granule
stands in the cluster's I2, and the agenda names the core. (DESIGN CHOICE, log 3.) -/
def State.withFetchWord (s : State) (nbits w : Nat) : State :=
  let pc := if s.hart.pc.extractLsb' 0 2 != 0 || s.hart.pc.extractLsb' 48 16 != 0 then 0 else s.hart.pc
  let v := if nbits ≥ 32 then w % 2 ^ 32 else w % 2 ^ nbits
  { placeHart (placeWord s pc v) pc with agenda := [.run (curCore s) none] }

end Sys2Proof.Machine
end

