-- ==== Sys2Proof/Safety.lean ====
section
/-! DEFINITION. What a safe run is, and the terms in which statements speak: frames, results, readable operands, bytes of
memory, traps, and the invariant that every step keeps. -/

namespace Sys2Proof.Machine

/-! ## Runs -/

/-- The invariant: HBM bytes in canonical form. -/
def State.Inv (s : State) : Prop := Memory.wf s.mem = true

/-- One step answers a next state. -/
def goesOn (s : State) : Prop := ∃ t, step s = .next t

/-! ## Frames of the hart -/

/-- Only the acting hart's context differs: every register of cores, clusters, dispatcher, meridian and service, and every
byte of memory at every level, is what it was. -/
def SameOutside (s t : State) : Prop := t = { s with hart := t.hart }

/-- The hart's instruction is complete: the pc and the frames are those of `frame_step` (R225), and no attempt is under way. -/
structure GoneOn (h g : Hart) : Prop where
  pc : g.pc = h.advance.pc
  frames : g.frames = h.advance.frames
  resume : g.resume = false
  mid : g.mid = false
  waits : g.waits = false
  phase : g.phase = 0

/-- Nothing of a hart differs but the fields that going on to another instruction changes. -/
def CtlFrame (h g : Hart) : Prop :=
  g = { h with pc := g.pc, frames := g.frames, resume := g.resume, mid := g.mid, waits := g.waits,
               phase := g.phase }

/-- Nothing of a hart differs but scalar registers and the fields of `CtlFrame`. -/
def XFrame (h g : Hart) : Prop :=
  g = { h with x := g.x, pc := g.pc, frames := g.frames, resume := g.resume, mid := g.mid, waits := g.waits,
               phase := g.phase }

/-- Nothing of a hart differs but vector registers, DIRTYMAP, VSTART and the fields of `CtlFrame`. -/
def VFrame (h g : Hart) : Prop :=
  g = { h with v := g.v, dirtymap := g.dirtymap, vstart := g.vstart, pc := g.pc, frames := g.frames, resume := g.resume,
               mid := g.mid, waits := g.waits, phase := g.phase }

/-- Nothing of a hart differs but predicate registers, VSTART and the fields of `CtlFrame`. -/
def PFrame (h g : Hart) : Prop :=
  g = { h with p := g.p, vstart := g.vstart, pc := g.pc, frames := g.frames, resume := g.resume, mid := g.mid,
               waits := g.waits, phase := g.phase }

/-- Every scalar register but `d` keeps its value, and `d` reads `v`; x0 reads zero whatever is written (R41). -/
def OnlyX (h g : Hart) (d : XIdx) (v : Word) : Prop := ∀ r, g.xreg r = if r = d ∧ r ≠ 0 then v else h.xreg r

/-- Every vector register but `d` keeps its value, and DIRTYMAP gains bit `d` alone (R361). -/
def OnlyV (h g : Hart) (d : VIdx) : Prop :=
  (∀ r, r ≠ d → g.vreg r = h.vreg r) ∧ ∀ i, i < 32 → g.dirtymap.getLsbD i = (h.dirtymap.getLsbD i || i == d.toNat)

/-- Every predicate register but `d` keeps its value, and `d` reads `v`; p0 reads all ones whatever is written (R247). -/
def OnlyP (h g : Hart) (d : PIdx) (v : PReg) : Prop := ∀ r, g.preg r = if r = d ∧ r ≠ 0 then v else h.preg r

/-- Control has passed to `t`: every open frame whose body does not hold it is closed, while frames act (R227). -/
structure Jumped (h g : Hart) (t : Word) : Prop where
  pc : g.pc = t
  frames : g.frames = if h.susp then h.frames else h.frames.filter fun f => f.holds t
  resume : g.resume = false
  mid : g.mid = false
  waits : g.waits = false
  phase : g.phase = 0

/-- A target lies in the body of the innermost open frame, while frames act (R224, R227). -/
def inInnermostBody (h : Hart) (t : Word) : Prop := h.susp = false ∧ ∃ f fs, h.frames = f :: fs ∧ f.holds t = true

/-! ## What an instruction gives -/

/-- The instruction completes and changes nothing but the pc and the frames. -/
def Falls (i : Instr) (s : State) : Prop :=
  ∃ t, exec i s = .next t ∧ SameOutside s t ∧ GoneOn s.hart t.hart ∧ CtlFrame s.hart t.hart

/-- The instruction passes control to `tgt` and changes nothing else. -/
def GoesTo (i : Instr) (s : State) (tgt : Word) : Prop :=
  ∃ t, exec i s = .next t ∧ SameOutside s t ∧ Jumped s.hart t.hart tgt ∧ CtlFrame s.hart t.hart

/-- The instruction passes control to `tgt`, leaves the address after it in xd, and changes nothing else. -/
def Links (i : Instr) (s : State) (d : XIdx) (tgt : Word) : Prop :=
  ∃ t, exec i s = .next t ∧ SameOutside s t ∧ Jumped s.hart t.hart tgt ∧ XFrame s.hart t.hart ∧
    OnlyX s.hart t.hart d (s.hart.pc + 4)

/-- The instruction is not over: it stands at its pc with nothing changed but the mark of its wait, and is issued again (R93,
R425). -/
def Waits (i : Instr) (s : State) : Prop := exec i s = .next (waiting s)

/-- The event finds nothing to do, or may not happen now: nothing changes. -/
def Stays (i : Instr) (s : State) : Prop := exec i s = .next s

/-- The instruction completes, writes `v` to xd, and changes nothing else but the pc and the frames. -/
def GivesX (i : Instr) (s : State) (d : XIdx) (v : Word) : Prop :=
  ∃ t, exec i s = .next t ∧ SameOutside s t ∧ GoneOn s.hart t.hart ∧ XFrame s.hart t.hart ∧ OnlyX s.hart t.hart d v

/-- The instruction completes, writes `v` to pd, clears VSTART, and changes nothing else but the pc and the frames. -/
def GivesP (i : Instr) (s : State) (d : PIdx) (v : PReg) : Prop :=
  ∃ t, exec i s = .next t ∧ SameOutside s t ∧ GoneOn s.hart t.hart ∧ PFrame s.hart t.hart ∧ OnlyP s.hart t.hart d v ∧
    t.hart.vstart = 0

/-- The instruction completes and changes vd alone, as `elem` says: element `i` of `w` bits. -/
def GivesV (i : Instr) (s : State) (d : VIdx) (w : Nat) (elem : Nat → Nat) : Prop :=
  ∃ t, exec i s = .next t ∧ SameOutside s t ∧ GoneOn s.hart t.hart ∧ VFrame s.hart t.hart ∧ OnlyV s.hart t.hart d ∧
    t.hart.vstart = 0 ∧ ∀ k, k < 1024 / w → elemN (vreg t d) w k = elem k

/-- Element `k` of a destination under R242: below VSTART and at or above VL the old value; an active element the result; an
inactive one the old value, or 0 where the instruction says so. -/
def underR242 (s : State) (d : VIdx) (pg : PIdx) (w : Nat) (z : Bool) (f : Nat → Nat) (k : Nat) : Nat :=
  if s.hart.vstart.toNat ≤ k ∧ k < s.hart.vl.toNat then
    if (preg s pg).getLsbD (k * w / 8) then f k % 2 ^ w else if z then 0 else elemN (vreg s d) w k
  else elemN (vreg s d) w k

/-- VL elements of a width fit a register (R242). -/
def fits (s : State) (ew : EW) : Prop := s.hart.vl.toNat * ew.bits ≤ 1024

/-- An element-wise instruction gives `f` in every active element (R242). -/
def Elementwise (i : Instr) (s : State) (d : VIdx) (pg : PIdx) (ew : EW) (z : Bool) (f : Nat → Nat) : Prop :=
  GivesV i s d ew.bits (underR242 s d pg ew.bits z f)

/-! ## Traps -/

/-- The acting hart takes a trap with a cause and EVAL: the handler's entry, the end of the step, or the rerun that `takeTrap`
decides (R79, R83, R344). -/
def Traps (i : Instr) (s : State) (cause : BitVec 6) (val : Word) : Prop :=
  exec i s = .next (takeTrap s (TrapInfo.plain cause val))

/-- The illegal-instruction trap: EVAL is the word (R206). -/
def Illegal (i : Instr) (s : State) : Prop := Traps i s 0x01 (s.ir.setWidth 64)

/-- The illegal-operand trap: EVAL is the word (Table 23.1). -/
def BadOperand (i : Instr) (s : State) : Prop := Traps i s 0x02 (s.ir.setWidth 64)

/-- No fault record is asked for, and a handler stands at TVEC: a trap enters it (R83, R344, R350). -/
def handled (s : State) : Prop := s.hart.frecbase = 0 ∧ s.hart.tvec ≠ 0

/-! ## Memory -/

/-- A byte of a granule. -/
def Granule.byte (g : Granule) (a : Nat) : Byte := g.data.extractLsb' (8 * (a % 64)) 8

/-- A granule as a core hands it on: from its own O1, its step's held granules, the O1s of its siblings, its cluster's O2, then
the home junction or the bound port's buffer (R95, R106). -/
def atHand (s : State) (core gran : Nat) (mine : Option Nat) : Option Granule :=
  let n := clusterOfCore core
  let k := clusterAt s n
  match tget (coreAt s core).o1 gran with
  | some e => some e.g
  | none =>
    match (if mine.isSome then k.o2held.find? fun x => x.1 == gran && x.2.held == mine else none) with
    | some x => some x.2.g
    | none =>
      match (coresOf n).find? fun c => c != core && (tget (coreAt s c).o1 gran).isSome with
      | some c => (tget (coreAt s c).o1 gran).map (·.g)
      | none =>
        match tget k.o2 gran with
        | some e => some e.g
        | none =>
          if windowOf gran = 0 then some (junctionGranule s gran).1 else (tget s.ports.buffer gran).map (·.g)

/-- One byte of memory as a core hands it on. -/
def memByte (s : State) (core : Nat) (mine : Option Nat) (a : Nat) : Option Byte :=
  (atHand s core (a / 64) mine).map fun g => g.byte a

/-- Every byte of memory reads as before, for every core. -/
def SameMemory (s t : State) : Prop := ∀ core mine a, memByte t core mine a = memByte s core mine a

/-- With no fault record asked for and a handler at TVEC, the trap enters the handler (R344): cause, value, pc and level are
saved, no general register and no byte of memory changes. -/
def EntersHandler (i : Instr) (s : State) (cause : BitVec 6) (val : Word) : Prop :=
  handled s → ∃ t, exec i s = .next t ∧ t.hart.pc = s.hart.tvec ∧ t.hart.epc = s.hart.pc ∧ t.hart.ecause = cause ∧
    t.hart.eval = val ∧ t.hart.tstat.lev = true ∧ t.hart.tstat.ie = false ∧ t.hart.tstat.plev = s.hart.tstat.lev ∧
    t.hart.tstat.pie = s.hart.tstat.ie ∧ t.hart.x = s.hart.x ∧ t.hart.v = s.hart.v ∧ t.hart.p = s.hart.p ∧ SameMemory s t

/-- Every byte of memory outside a granule reads as before. -/
def SameMemoryBut (s t : State) (gran : Nat) : Prop :=
  ∀ core mine a, a / 64 ≠ gran → memByte t core mine a = memByte s core mine a

/-- Only the acting hart's context and what reads leave behind differ: copies in inbound levels, the tile stash, cached
translations, and the model's counter. -/
structure ReadFrame (s t : State) : Prop where
  whole : t = { s with hart := t.hart, i3 := t.i3, cores := t.cores, clusters := t.clusters, tick := t.tick }
  cores : ∀ c, coreAt t c = { coreAt s c with i1 := (coreAt t c).i1, tlb := (coreAt t c).tlb }
  clusters : ∀ n, clusterAt t n =
    { clusterAt s n with i2 := (clusterAt t n).i2, tlb := (clusterAt t n).tlb, stash := (clusterAt t n).stash }
  memory : SameMemory s t

/-- Who the acting core's own reads are made by. -/
def me (s : State) : Reader := .core (curCore s)

/-- A granule that a reader of a cluster takes: visible to it, and passing its check (R103, R158). -/
def Takes (s : State) (r : Reader) (n : Nat) (g : Granule) : Prop :=
  visible s (some n) g (relation r g.prod) = true ∧ g.verifies = true

/-- A copy that a reader takes. -/
def TakesCopy (s : State) (r : Reader) (n : Nat) (c : Copy) : Prop := c.ph = false ∧ Takes s r n c.g

/-- The granule that a load of the acting core finds (R96, R116, R27). -/
def found (s : State) (gran : Nat) (self : Bool) : Granule :=
  match (if self then selfEntry s (curCore s) gran else none) with
  | some e => e.g
  | none =>
    if windowOf gran != 0 then
      match tget s.ports.buffer gran with
      | some e => e.g
      | none => mkGranule (Config.remoteData s.tick gran) (prodPort ((portOfWindow s (windowOf gran)).getD 0)) 4 0
    else (peekI1 s (curCore s) gran).c.g

/-- A read of the acting core finds a way to where its granule is (R14, R392). -/
def ReadWay (s : State) (gran : Nat) : Prop := noWay s (curCluster s) gran (peekI1 s (curCore s) gran).src false = none

/-- The acting core's own entries of a granule go home, and its access finds a way after them (R95, R124, R392). -/
def HomeWay (s : State) (gran : Nat) : Prop :=
  let v := drainOwn s (curCore s) gran
  ownWaits v (curCore s) gran = false ∧ legFrom v (some (curCluster s)) gran = none

/-- The same for an access that forms the granule there: the junction also finds a way to the I3 copy that it replaces (R95). -/
def FormWay (s : State) (gran : Nat) : Prop :=
  HomeWay s gran ∧ refreshLeg (drainOwn s (curCore s) gran) gran = none

/-- The other granule of a granule's line finds a way into a cluster, wherever a level has it: the cluster's I2 can hold a copy of
the granule, since it holds whole lines (R94, R392). -/
def LineWay (s : State) (n gran : Nat) : Prop := windowOf gran = 0 → ∀ src, noWay s n (partner gran) src false = none

/-- A notice of a unit outside the harts that sets out now comes to every cluster and is acknowledged: every branch that it takes has a
link in service (R107, R118, R392). -/
def NoticeComes (s : State) (src lo hi : Nat) : Prop := acked (noticeNow s src lo hi) src = true

/-- A load of the acting core finds a copy that it takes; data of a remote endpoint is taken as it comes (R27). -/
def Loadable (s : State) (gran : Nat) (self : Bool) : Prop :=
  match (if self then selfEntry s (curCore s) gran else none) with
  | some e => Takes s (me s) (curCluster s) e.g
  | none =>
    ReadWay s gran ∧
    if windowOf gran != 0 then
      match tget s.ports.buffer gran with
      | some e => Takes s (me s) (curCluster s) e.g
      | none => True
    else TakesCopy s (me s) (curCluster s) (peekI1 s (curCore s) gran).c

/-- The outbound levels and the I2 of the acting core's cluster have room for `m` more granules: nothing else moves on to make
room for them (R95, R154, Table 06.1). -/
def HasRoom (s : State) (m : Nat) : Prop :=
  (coreAt s (curCore s)).o1.length + m ≤ o1Room ∧ o2Bytes s (curCluster s) + 64 * m ≤ o2Size ∧
  lineCount (clusterAt s (curCluster s)).i2 + 2 * m ≤ i2Lines

/-- The O3 of a granule's junction slice has room for it (R18, R95). -/
def HomeRoom (s : State) (gran : Nat) : Prop :=
  (tget s.o3 gran).isSome = true ∨ (s.o3.filter fun x => junctionOf s x.1 == junctionOf s gran).length < o3Room

/-- An address translates for an access of the acting hart, to a physical address of a page (R25, R353). -/
def Maps (s : State) (va : Word) (a : Acc) (pa : Nat) (self : Bool) : Prop :=
  xlate s (hereTlb s) (curLaunch s) va a = .ok pa self

/-- A number from bytes, least significant first (R3). -/
def littleEndian (f : Nat → Byte) : Nat → Nat
  | 0 => 0
  | n + 1 => (f 0).toNat + 256 * littleEndian (fun i => f (i + 1)) n

/-- The granule at its home junction passes its check (R133, R138). -/
def JunctionGood (s : State) (gran : Nat) : Prop := (junctionGranule s gran).1.verifies = true

/-- One byte of memory at its home junction. -/
def homeByte (s : State) (a : Nat) : Byte := (junctionGranule s (a / 64)).1.byte a

/-- The acting core holds no outbound entry of a granule. -/
def notPending (s : State) (gran : Nat) : Prop :=
  tget (coreAt s (curCore s)).o1 gran = none ∧ tget (clusterAt s (curCluster s)).o2 gran = none

/-- One more held granule fits, or the step holds none (R80). -/
def holdFits (s : State) : Prop := heldBy s = none ∨ heldBytes s (curCluster s) + 64 ≤ 2097152

/-- The release of the acting hart's core at a level, up to the acknowledgements of the replicas; and whether its drains found
their ways, so that it has published (R132, R392). -/
def ownRelease (s : State) (l : Nat) : State × Bool := release s (curCluster s) (some (curCore s)) (curCore s) l

/-- The state in which a release of the acting hart at a level has run to its end (R132): its drains and publication, then,
once the replicas have acknowledged, RCNT + 1. A release that waits for them is issued again in phase 1. -/
def Released (s : State) (l : Nat) (u : State) : Prop :=
  (s.hart.phase = 1 ∧ acked s (curCore s) = true ∧ u = advanceRcnt s (curCore s)) ∨
  (s.hart.phase ≠ 1 ∧ copiesOf s s.cur = false ∧ (ownRelease s l).2 = true ∧
    acked (ownRelease s l).1 (curCore s) = true ∧ u = advanceRcnt (ownRelease s l).1 (curCore s))

/-- The state in which a release of the acting hart has run to its end and its silhouette has come to the junction of a flag
(R118, R133). One that waits for it is issued again in phase 4. -/
def Shipped (s : State) (l gran : Nat) (u : State) : Prop :=
  (s.hart.phase = 4 ∧ acked s (curCore s) = true ∧ u = s) ∨
  (s.hart.phase ≠ 4 ∧ ∃ v, Released s l v ∧ u = shipSilhouette v (curCore s) gran ∧ acked u (curCore s) = true)

/-- The state with NR set, if the acting hart's step was retryable (R142). -/
def withNr (s : State) : State :=
  match heldBy s with
  | some h => setNr s h
  | none => s

/-- Beside the acting hart's context and the model's counter, only the junction's copy of a granule, the attachments, and
inbound copies and cached translations differ. -/
structure JunctionFrame (s t : State) (gran : Nat) : Prop where
  whole : t = { s with
    hart := t.hart, i3 := t.i3, o3 := t.o3, cores := t.cores, clusters := t.clusters, attach := t.attach, lost := t.lost,
    disp := t.disp, tick := t.tick }
  cores : ∀ c, coreAt t c = { coreAt s c with i1 := (coreAt t c).i1, tlb := (coreAt t c).tlb }
  clusters : ∀ n, clusterAt t n =
    { clusterAt s n with i2 := (clusterAt t n).i2, tlb := (clusterAt t n).tlb, stash := (clusterAt t n).stash }
  disp : t.disp = { s.disp with seq := t.disp.seq }
  others : ∀ g, g ≠ gran → tget t.o3 g = tget s.o3 g

end Sys2Proof.Machine
end

