-- ==== Sys2Proof/Certificates/Slice0/Obligations.lean ====
section
/-! DEFINITION. The statements for the provers. They are about every state and every operand; what a statement needs of them
stands in its hypotheses. -/

open Sys2Proof Sys2Proof.Machine

/-! ## Register arithmetic -/

/-- Table 15.4 (R213): the result of every instruction of OP 0x01 in integers, for all operands, register numbers and states;
nothing else changes. -/
def Obligations.ScalarAlu : Prop := ∀ (s : State) (d a b : XIdx),
  let x := xreg s a
  let y := xreg s b
  let n := y.toNat % 64
  GivesX (.add d a b) s d (BitVec.ofNat 64 (x.toNat + y.toNat)) ∧
  GivesX (.sub d a b) s d (BitVec.ofInt 64 (x.toInt - y.toInt)) ∧
  GivesX (.addSat d a b) s d (BitVec.ofInt 64 (max (-2 ^ 63) (min (2 ^ 63 - 1) (x.toInt + y.toInt)))) ∧
  GivesX (.subSat d a b) s d (BitVec.ofInt 64 (max (-2 ^ 63) (min (2 ^ 63 - 1) (x.toInt - y.toInt)))) ∧
  GivesX (.and d a b) s d (BitVec.ofNat 64 (x.toNat &&& y.toNat)) ∧
  GivesX (.or d a b) s d (BitVec.ofNat 64 (x.toNat ||| y.toNat)) ∧
  GivesX (.xor d a b) s d (BitVec.ofNat 64 (x.toNat ^^^ y.toNat)) ∧
  GivesX (.sll d a b) s d (BitVec.ofNat 64 (x.toNat * 2 ^ n)) ∧
  GivesX (.srl d a b) s d (BitVec.ofNat 64 (x.toNat / 2 ^ n)) ∧
  GivesX (.sra d a b) s d (BitVec.ofInt 64 (x.toInt / 2 ^ n)) ∧
  GivesX (.slt d a b) s d (if x.toInt < y.toInt then 1 else 0) ∧
  GivesX (.sltu d a b) s d (if x.toNat < y.toNat then 1 else 0) ∧
  GivesX (.min d a b) s d (BitVec.ofInt 64 (min x.toInt y.toInt)) ∧
  GivesX (.max d a b) s d (BitVec.ofInt 64 (max x.toInt y.toInt)) ∧
  GivesX (.minu d a b) s d (BitVec.ofNat 64 (min x.toNat y.toNat)) ∧
  GivesX (.maxu d a b) s d (BitVec.ofNat 64 (max x.toNat y.toNat)) ∧
  (∃ k, k ≤ 64 ∧ GivesX (.clz d a) s d (BitVec.ofNat 64 k) ∧ x.toNat < 2 ^ (64 - k) ∧ (k < 64 → 2 ^ (63 - k) ≤ x.toNat)) ∧
  (∃ k, k ≤ 64 ∧ GivesX (.ctz d a) s d (BitVec.ofNat 64 k) ∧ x.toNat % 2 ^ k = 0 ∧ (k < 64 → x.toNat.testBit k = true)) ∧
  GivesX (.popc d a) s d (BitVec.ofNat 64 ((List.finRange 64).filter fun i => x.getLsbD i.val).length)

/-- R214 with R180: products and divisions of OP 0x03, division by zero and the overflow case with the values of R180. -/
def Obligations.MultiplyDivide : Prop := ∀ (s : State) (d a b : XIdx),
  let x := xreg s a
  let y := xreg s b
  GivesX (.mul d a b) s d (BitVec.ofNat 64 (x.toNat * y.toNat)) ∧
  GivesX (.mulh d a b) s d (BitVec.ofInt 64 (x.toInt * y.toInt / 2 ^ 64)) ∧
  GivesX (.mulhu d a b) s d (BitVec.ofNat 64 (x.toNat * y.toNat / 2 ^ 64)) ∧
  GivesX (.mulhsu d a b) s d (BitVec.ofInt 64 (x.toInt * (y.toNat : Int) / 2 ^ 64)) ∧
  GivesX (.div d a b) s d (if y = 0 then BitVec.allOnes 64
    else if x = BitVec.intMin 64 ∧ y = BitVec.allOnes 64 then BitVec.intMin 64
    else BitVec.ofInt 64 (x.toInt.tdiv y.toInt)) ∧
  GivesX (.divu d a b) s d (if y = 0 then BitVec.allOnes 64 else BitVec.ofNat 64 (x.toNat / y.toNat)) ∧
  GivesX (.rem d a b) s d (if y = 0 then x else BitVec.ofInt 64 (x.toInt - x.toInt.tdiv y.toInt * y.toInt)) ∧
  GivesX (.remu d a b) s d (if y = 0 then x else BitVec.ofNat 64 (x.toNat % y.toNat)) ∧
  GivesX (.divSat d a b) s d (if y = 0 then BitVec.allOnes 64
    else if x = BitVec.intMin 64 ∧ y = BitVec.allOnes 64 then BitVec.intMax 64
    else BitVec.ofInt 64 (x.toInt.tdiv y.toInt))

/-- R215, R216 and R217: fields, funnel shifts and immediate forms. A field that passes bit 63 is no word (R215). -/
def Obligations.FieldsAndImmediates : Prop := ∀ (s : State) (d a b : XIdx),
  let x := xreg s a
  let y := xreg s b
  (∀ pos lenM1 : BitVec 6, pos.toNat + lenM1.toNat + 1 ≤ 64 →
    let p := pos.toNat
    let n := lenM1.toNat + 1
    let f := x.toNat / 2 ^ p % 2 ^ n
    GivesX (.bfxu d a pos lenM1) s d (BitVec.ofNat 64 f) ∧
    GivesX (.bfx d a pos lenM1) s d (BitVec.ofInt 64 (if f < 2 ^ (n - 1) then (f : Int) else f - 2 ^ n)) ∧
    ∃ v, GivesX (.bfi d a pos lenM1) s d v ∧
      ∀ i, i < 64 → v.getLsbD i = if p ≤ i ∧ i < p + n then x.getLsbD (i - p) else (xreg s d).getLsbD i) ∧
  (∀ (pos lenM1 : BitVec 6) (w : BitVec 32), 64 < pos.toNat + lenM1.toNat + 1 →
    decodeWord w ≠ some (.bfx d a pos lenM1) ∧ decodeWord w ≠ some (.bfxu d a pos lenM1) ∧
    decodeWord w ≠ some (.bfi d a pos lenM1)) ∧
  (∀ sh : BitVec 6,
    GivesX (.fsl d a b sh) s d (BitVec.ofNat 64 ((x.toNat * 2 ^ 64 + y.toNat) * 2 ^ sh.toNat / 2 ^ 64)) ∧
    GivesX (.fsr d a b sh) s d (BitVec.ofNat 64 ((y.toNat * 2 ^ 64 + x.toNat) / 2 ^ sh.toNat)) ∧
    GivesX (.slli d a sh) s d (BitVec.ofNat 64 (x.toNat * 2 ^ sh.toNat)) ∧
    GivesX (.srli d a sh) s d (BitVec.ofNat 64 (x.toNat / 2 ^ sh.toNat)) ∧
    GivesX (.srai d a sh) s d (BitVec.ofInt 64 (x.toInt / 2 ^ sh.toNat)) ∧
    GivesX (.rori d a sh) s d (BitVec.ofNat 64 (x.toNat / 2 ^ sh.toNat + x.toNat * 2 ^ (64 - sh.toNat)))) ∧
  (∀ m : BitVec 16,
    GivesX (.addi d a m) s d (BitVec.ofInt 64 (x.toInt + m.toInt)) ∧
    GivesX (.andi d a m) s d (BitVec.ofNat 64 (x.toNat &&& m.toNat)) ∧
    GivesX (.ori d a m) s d (BitVec.ofNat 64 (x.toNat ||| m.toNat)) ∧
    GivesX (.xori d a m) s d (BitVec.ofNat 64 (x.toNat ^^^ m.toNat)) ∧
    GivesX (.slti d a m) s d (if x.toInt < m.toInt then 1 else 0) ∧
    GivesX (.sltiu d a m) s d (if x.toNat < (BitVec.ofInt 64 m.toInt).toNat then 1 else 0)) ∧
  ∀ m : BitVec 21,
    GivesX (.lui d m) s d (BitVec.ofInt 64 (m.toInt * 2 ^ 16)) ∧
    GivesX (.addpc d m) s d (BitVec.ofInt 64 (s.hart.pc.toInt + m.toInt * 2 ^ 12))

/-! ## Control flow -/

/-- R220, with R224 code 5 and R227: a conditional branch falls through, passes control, or raises loop-frame error 5.
R221, with R224 code 5 and R227: `jal` and `jalr`. A misaligned target of `jalr` traps with xd unchanged. -/
def Obligations.BranchesAndJumps : Prop :=
  (
  ∀ (s : State) (a b : XIdx) (off : BitVec 16),
  let x := xreg s a
  let y := xreg s b
  let t := s.hart.pc + BitVec.ofInt 64 (4 * off.toInt)
  let B := fun (i : Instr) (taken : Prop) =>
    (¬ taken → Falls i s) ∧ (taken → ¬ inInnermostBody s.hart t → GoesTo i s t) ∧
    (taken → inInnermostBody s.hart t → Traps i s 0x12 5)
  B (.beq a b off) (x = y) ∧ B (.bne a b off) (x ≠ y) ∧
  B (.blt a b off) (x.toInt < y.toInt) ∧ B (.bge a b off) (y.toInt ≤ x.toInt) ∧
  B (.bltu a b off) (x.toNat < y.toNat) ∧ B (.bgeu a b off) (y.toNat ≤ x.toNat)) ∧
  (
  ∀ (s : State) (d a : XIdx),
  (∀ off : BitVec 21,
    let t := s.hart.pc + BitVec.ofInt 64 (4 * off.toInt)
    (¬ inInnermostBody s.hart t → Links (.jal d off) s d t) ∧ (inInnermostBody s.hart t → Traps (.jal d off) s 0x12 5)) ∧
  ∀ off : BitVec 16,
    let t := BitVec.ofInt 64 ((xreg s a).toInt + off.toInt)
    (t.toNat % 4 ≠ 0 → Traps (.jalr d a off) s 0x03 t) ∧
    (t.toNat % 4 = 0 → ¬ inInnermostBody s.hart t → Links (.jalr d a off) s d t) ∧
    (t.toNat % 4 = 0 → inInnermostBody s.hart t → Traps (.jalr d a off) s 0x12 5))

/-- R225: the pc and the open frames after the instruction at the pc has completed. While frames are suspended the pc advances
by 4 (R230).
R222: `bstrip` and its no-progress monitor; the fourth entry is the least recently used one. The entry of a trap is removed when
the trap is taken; while its fault record cannot be written, it stays (log 18). -/
def Obligations.StripMineBranch : Prop :=
  (
  ∀ (h : Hart) (f : Frame) (fs : List Frame),
  (h.susp = true → h.advance.pc = h.pc + 4 ∧ h.advance.frames = h.frames) ∧
  (h.frames = [] → h.advance.pc = h.pc + 4 ∧ h.advance.frames = []) ∧
  (h.susp = false → h.frames = f :: fs → h.pc ≠ f.last → h.advance.pc = h.pc + 4 ∧ h.advance.frames = h.frames) ∧
  (h.susp = false → h.frames = f :: fs → h.pc = f.last → f.iter + 1 < f.count →
    h.advance.pc = f.start ∧ h.advance.frames = { f with iter := f.iter + 1 } :: fs) ∧
  (h.susp = false → h.frames = f :: fs → h.pc = f.last → f.count ≤ f.iter + 1 →
    h.advance.pc = ({ h with frames := fs } : Hart).advance.pc ∧
    h.advance.frames = ({ h with frames := fs } : Hart).advance.frames)) ∧
  (
  ∀ (s : State) (a : XIdx) (off : BitVec 16) (e : MonEntry),
  let v := xreg s a
  let pc := s.hart.pc
  let t := pc + BitVec.ofInt 64 (4 * off.toInt)
  let others := s.hart.mon.filter fun e => e.addr != pc
  let entry := s.hart.mon.find? fun e => e.addr == pc
  let Passes := fun (mon : List MonEntry) => ¬ inInnermostBody s.hart t →
    ∃ u, exec (.bstrip a off) s = .next u ∧ SameOutside s u ∧ Jumped s.hart u.hart t ∧
      u.hart = { s.hart with mon := mon, pc := u.hart.pc, frames := u.hart.frames, resume := u.hart.resume,
                             mid := u.hart.mid, waits := u.hart.waits, phase := u.hart.phase }
  (v = 0 → ∃ u, exec (.bstrip a off) s = .next u ∧ SameOutside s u ∧ GoneOn s.hart u.hart ∧
      u.hart = { s.hart with mon := others, pc := u.hart.pc, frames := u.hart.frames, resume := u.hart.resume,
                             mid := u.hart.mid, waits := u.hart.waits, phase := u.hart.phase }) ∧
  (v ≠ 0 → entry = none → Passes ((⟨pc, v, 0⟩ :: others).take 4)) ∧
  (v ≠ 0 → entry = some e → v.toNat < e.prev.toNat → Passes (⟨pc, v, 0⟩ :: others)) ∧
  (v ≠ 0 → entry = some e → e.prev.toNat ≤ v.toNat → e.miss ≠ 1 → Passes (⟨pc, v, e.miss + 1⟩ :: others)) ∧
  (v ≠ 0 → entry = some e → e.prev.toNat ≤ v.toNat → e.miss = 1 →
    let why := { TrapInfo.plain 0x09 (s.hart.vl.setWidth 64) with addr := pc, words := [s.hart.vl.setWidth 64] }
    (recordLeg s = none →
      exec (.bstrip a off) s = .next (takeTrap { s with hart := { s.hart with mon := others } } why)) ∧
    ∀ leg, recordLeg s = some leg → exec (.bstrip a off) s = .next (waiting (reportLeg s leg))) ∧
  (v ≠ 0 → entry = none → inInnermostBody s.hart t → Traps (.bstrip a off) s 0x12 5) ∧
  (v ≠ 0 → entry = some e → (v.toNat < e.prev.toNat ∨ e.miss ≠ 1) → inInnermostBody s.hart t →
    Traps (.bstrip a off) s 0x12 5))

/-- R223, R224, R225 and R228: `loop` opens a frame, continues after an empty one, or raises the lowest loop-frame error. -/
def Obligations.LoopFrame : Prop := ∀ (s : State) (a b : XIdx) (level : BitVec 3) (lenM1 : BitVec 4) (dinc ainc binc : BitVec 3),
  level.toNat < 6 →
  let i := Instr.loop a b level lenM1 dinc ainc binc
  let n := level.toNat
  let len := lenM1.toNat + 1
  let start := s.hart.pc + 4
  let stop := s.hart.pc + BitVec.ofNat 64 (4 * len)
  let count := if a = 0 then (s.hart.lc.toList.getD n 0).toNat else (xreg s a).toNat
  let deep := ∃ f ∈ s.hart.frames, n ≤ f.level
  let outside := ∃ f ∈ s.hart.frames, ¬ (f.holds start = true ∧ f.holds stop = true)
  let wide := 2 ^ (2 * len) ≤ (xreg s b).toNat
  (deep → Traps i s 0x12 1) ∧
  (¬ deep → outside → Traps i s 0x12 2) ∧
  (¬ deep → ¬ outside → wide → Traps i s 0x12 3) ∧
  (¬ deep → ¬ outside → ¬ wide → kernel s = true → Traps i s 0x12 4) ∧
  (¬ deep → ¬ outside → ¬ wide → kernel s = false → 0 < count →
    ∃ t, exec i s = .next t ∧ SameOutside s t ∧ CtlFrame s.hart t.hart ∧ t.hart.pc = start ∧
      t.hart.frames = ⟨n, start, len, count, 0, (xreg s b).toNat, dinc.toNat, ainc.toNat, binc.toNat⟩ :: s.hart.frames) ∧
  (¬ deep → ¬ outside → ¬ wide → kernel s = false → count = 0 →
    ∃ t, exec i s = .next t ∧ SameOutside s t ∧ CtlFrame s.hart t.hart ∧
      t.hart.pc = ({ s.hart with pc := stop } : Hart).advance.pc ∧
      t.hart.frames = ({ s.hart with pc := stop } : Hart).advance.frames)

/-! ## Exceptions -/

/-- Where a trap of the acting hart enters its handler: the registers of R344, with the level and the enable saved, frames
suspended, and nothing else of the hart changed; a signalled barrier arrival, a waiting tile request and a record of
`semit` that waits are withdrawn (R93). -/
def enters (s t : State) (cause : BitVec 6) (val : Word) : Prop :=
  t.hart = { s.hart with
    epc := s.hart.pc, ecause := cause, eval := val, pc := s.hart.tvec, susp := true
    resume := false, mid := false, waits := false, phase := 0
    tstat := { s.hart.tstat with plev := s.hart.tstat.lev, lev := true, pie := s.hart.tstat.ie, ie := false, rsm := false } } ∧
  t = { s with hart := t.hart, disp := t.disp, clusters := t.clusters, mer := t.mer } ∧
  t.mer = (withdrawRecord s s.cur).mer ∧
  (∃ bs, t.disp = { s.disp with barriers := bs }) ∧
  (∀ n, ∃ w, clusterAt t n = { clusterAt s n with mwait := w }) ∧ SameMemory s t

/-- The hart of a trap that has entered its handler (R344): the same, for any trap but an interrupt. -/
def entered (h : Hart) (t : TrapInfo) : Hart :=
  { h with
    epc := h.pc, ecause := t.cause, eval := t.val, pc := h.tvec, susp := true
    resume := false, mid := false, waits := false, phase := 0
    tstat := { h.tstat with
      plev := h.tstat.lev, lev := true, pie := h.tstat.ie, ie := false
      rsm := t.resume || (t.eng && !h.waits && (h.resume || h.mid)) } }

/-- Eight dwords are the fault record of a trap of the acting hart: the fields of Table 23.9, and the cause words of Table 23.10,
of which the first holds the instruction word and EVAL[31:0] for the causes that the table names. -/
def isRecord (s : State) (t : TrapInfo) (w : Nat → Word) : Prop :=
  let h := s.hart
  let named := t.cause ∈ [(0x01 : BitVec 6), 0x02, 0x03, 0x0B, 0x0C, 0x0D, 0x0E, 0x11, 0x12]
  let words := if named then (t.val.setWidth 32 ++ t.word.getD s.ir) :: t.words else t.words
  (w 0).extractLsb' 32 32 = h.steph ∧ (w 0).extractLsb' 24 8 = 0 ∧ (w 0).extractLsb' 16 8 = h.vstart ∧
  (w 0).extractLsb' 12 4 = BitVec.ofNat 4 t.npg ∧ (w 0).getLsbD 11 = t.more ∧ (w 0).getLsbD 10 = h.resume ∧
  (w 0).getLsbD 9 = h.tstat.lev ∧ (w 0).getLsbD 8 = t.eng ∧ (w 0).extractLsb' 6 2 = 0 ∧ (w 0).extractLsb' 0 6 = t.cause ∧
  w 1 = h.pc ∧ w 2 = t.addr ∧ ∀ k, k < 5 → w (3 + k) = words.getD k 0

/-- R232 with R344: `trap` and `break` save the pc and the status, take kernel level with interrupts off, and go to TVEC.
R344: every trap of Table 23.1 that is met at issue, but a check fault of a retryable step (R174), enters the handler at
TVEC when no fault record is asked for; with TVEC = 0 the hart's step ends at once with the cause (R83).
Some of its clauses rest on readings of the model's own (log 18).
R350 and R351 (with R83, R174 and R344): a trap whose FRECBASE is not 0 writes its 64-byte record there, formed by the core with
LEVEL 3 and RC 0 at its home junction, before the handler's first instruction; the lines of it leave the I1 and the I2, and no
other byte of memory changes. With TVEC = 0 the step ends with FREC, the record's address; where FRECBASE cannot be used it ends
with FREC 0. The report of a retryable step's check fault holds the record. While the record cannot be written the trap is not
taken (log 18); beside the record, a lease that a score starts can only raise notices (R400). -/
def Obligations.TrapEntry : Prop :=
  (
  ∀ (s : State) (code : BitVec 8), handled s →
  (∃ t, exec (.trap code) s = .next t ∧ enters s t 0x0D (code.setWidth 64)) ∧
  ∃ t, exec .brk s = .next t ∧ enters s t 0x0E 0) ∧
  (
  ∀ (s : State) (cause : BitVec 6) (val : Word),
  s.hart.frecbase = 0 → cause ≠ 0x10 → (cause = 0x08 → heldBy s = none) →
  (s.hart.tvec ≠ 0 → enters s (takeTrap s (TrapInfo.plain cause val)) cause val) ∧
  (s.hart.tvec = 0 → ∀ r, findStep s s.hart.steph.toNat = some r →
    ∃ q, findStep (takeTrap s (TrapInfo.plain cause val)) r.handle = some q ∧ q.place = .retiring ∧
      q.outcome = some (1, cause.toNat, 0))) ∧
  (
  ∀ (s : State) (t : TrapInfo) (pa : Nat) (self : Bool),
  let h := s.hart
  let core := curCore s
  let n := curCluster s
  let gran := pa / 64
  let u := takeTrap s t
  let word := fun (k : Nat) => BitVec.ofNat 64 (littleEndian (fun j => homeByte u (64 * gran + 8 * k + j)) 8)
  let usable := Maps s h.frecbase .write pa self ∧ windowOf gran = 0 ∧ rangeMeeting s (64 * gran) 64 = none
  let ends := fun (frec : Word) => ∀ r, findStep s h.steph.toNat = some r →
    ∃ q, findStep u r.handle = some q ∧ q.place = .retiring ∧ q.outcome = some (1, t.cause.toNat, frec)
  let plain := fun (c : Tbl Copy) => ∀ k ∈ lineOf gran, ∀ x, tget c k = some x → x.ordinary = true
  h.frecbase ≠ 0 → t.cause ≠ 0x10 → t.npg ≤ 8 →
  (∀ leg, recordLeg s = some leg → u = waiting (reportLeg s leg)) ∧
  (recordLeg s = none → (t.cause = 0x08 → heldBy s = none) →
    (usable → h.tvec ≠ 0 →
      u.hart = { entered h t with notices := u.hart.notices, lost := u.hart.lost } ∧ isRecord s t word ∧
      (junctionGranule u gran).1 = mkGranule (junctionGranule u gran).1.data core 3 0 ∧
      (t.score = none → notPending s gran → u.hart = entered h t ∧ SameMemoryBut s u gran ∧
        (plain (coreAt s core).i1 → plain (clusterAt s n).i2 → ∀ k ∈ lineOf gran,
          tget (coreAt u core).i1 k = none ∧ tget (clusterAt u n).i2 k = none))) ∧
    (usable → h.tvec = 0 → ends h.frecbase) ∧
    ((∃ c k w, xlate s (hereTlb s) (curLaunch s) h.frecbase .write = .page c k w) ∨
      (∃ w, xlate s (hereTlb s) (curLaunch s) h.frecbase .write = .host w) ∨
      (∃ why, xlate s (hereTlb s) (curLaunch s) h.frecbase .write = .walk why) ∨
      (Maps s h.frecbase .write pa self ∧ (windowOf gran ≠ 0 ∨ (rangeMeeting s (64 * gran) 64).isSome = true)) → ends 0)) ∧
  (t.cause = 0x08 → (heldBy s).isSome = true → usable → recordLeg s = none →
    ∃ ws ∈ u.disp.reports, ws.length = 8 ∧ isRecord s t fun k => ws.getD k 0))

/-- R232, R345 and R230: `eret` restores the level, the enable and RESUME and returns to EPC; at user level it is illegal. -/
def Obligations.ReturnFromException : Prop := ∀ (s : State) (f : Frame) (fs : List Frame),
  let h := s.hart
  (kernel s = false → Illegal .eret s) ∧
  (kernel s = true → ∃ t, exec .eret s = .next t ∧ SameOutside s t ∧
    t.hart = { h with
      pc := t.hart.pc, frames := t.hart.frames, susp := t.hart.susp, resume := h.tstat.rsm, mid := false, waits := false, phase := 0
      tstat := { h.tstat with lev := h.tstat.plev, ie := h.tstat.pie, rsm := false } } ∧
    (h.tstat.plev = true → t.hart.pc = h.epc ∧ t.hart.frames = h.frames ∧ t.hart.susp = h.susp) ∧
    (h.tstat.plev = false → t.hart.susp = false) ∧
    (h.tstat.plev = false → h.frames = [] → t.hart.pc = h.epc ∧ t.hart.frames = []) ∧
    (h.tstat.plev = false → h.frames = f :: fs → f.holds h.epc = true → t.hart.pc = h.epc ∧ t.hart.frames = h.frames) ∧
    (h.tstat.plev = false → h.frames = f :: fs → f.holds h.epc = false → h.epc = f.last + 4 →
      t.hart.pc = ({ h with pc := f.last, susp := false } : Hart).advance.pc ∧
      t.hart.frames = ({ h with pc := f.last, susp := false } : Hart).advance.frames) ∧
    (h.tstat.plev = false → h.frames = f :: fs → f.holds h.epc = false → h.epc ≠ f.last + 4 →
      t.hart.pc = h.epc ∧ t.hart.frames = h.frames.filter fun g => g.holds h.epc))

/-- R232: `wait` completes once an interrupt is pending, enabled or not; `halt` ends the hart's step with FAULT, cause 0x0D
and FREC 0; every hart that ran it is over, and its slot waits for the record (Table 04.4).
R345: an interrupt enters the handler with the sources that are pending and enabled in EVAL (R348); with TVEC = 0 the step
ends with cause 0x10 (R83). A `wait` whose source has come completes first, so that EPC names the instruction after it (R232).
None is taken while a release or a turn waits for its acknowledgements, nor before an engine fault that awaits delivery, nor at
a word that an open frame skips, which is passed over first: it does not count as issued (R226, R349). An
entry at a resume point sets RSM (R345); a hart inside an instruction that waits stands at none (R93, R425).
Some of its clauses rest on readings of the model's own (log 5 and 36). -/
def Obligations.WaitHaltAndInterrupts : Prop :=
  (
  ∀ (s : State) (r : StepRec),
  (pendingSources s s.cur ≠ 0 → Falls .wait s) ∧ 
  (pendingSources s s.cur = 0 →
    exec .wait s = .next { s with hart := { s.hart with waits := true, phase := 5 } }) ∧
  (findStep s s.hart.steph.toNat = some r → ∃ t, exec .halt s = .next t ∧
    (∃ q, findStep t r.handle = some q ∧ q.place = .retiring ∧ q.outcome = some (1, 0x0D, 0) ∧ q.recs = []) ∧
    (∃ w, t.disp.records = s.disp.records ++ [⟨r.handle, w, true⟩] ∧ (w.getD 0 0).extractLsb' 32 4 = 1 ∧
      (w.getD 0 0).extractLsb' 36 6 = 0x0D ∧ w.getD 5 0 = 0) ∧
    (∀ k ∈ slotsOfStep s r.handle, slotAt t k = slotAt s k ∧ (hartAt t k).tdone.isSome = true ∧ (hartAt t k).tiles = []))) ∧
  (
  ∀ (s : State) (core k : Nat), runningSlot s core = some k →
  let v := takenSources s k
  let h := if (hartAt s k).phase = 5 then (hartAt s k).advance else hartAt s k
  let due := v ≠ 0 ∧ engineFaultDue (hartAt s k) = false ∧ h.frameAllows h.pc = true
  (¬ due → Stays (.interrupt core) s) ∧
  (due → (hartAt s k).tvec ≠ 0 → ∃ t, exec (.interrupt core) s = .next t ∧ t.cur = k ∧
    t.hart = { h with
      epc := h.pc, ecause := 0x10, eval := v.setWidth 64, pc := h.tvec, susp := true
      resume := false, mid := false, waits := false, phase := 0
      tstat := { h.tstat with
        plev := h.tstat.lev, lev := true, pie := h.tstat.ie, ie := false, rsm := !h.waits && (h.resume || h.mid) } } ∧
    t.mem = s.mem) ∧
  (due → (hartAt s k).tvec = 0 → ∀ r, findStep s (hartAt s k).steph.toNat = some r →
    ∃ t q, exec (.interrupt core) s = .next t ∧ findStep t r.handle = some q ∧ q.place = .retiring ∧
      q.outcome = some (1, 0x10, 0)))

/-! ## Control registers -/

/-- R208, R233 and Table 14.4: what `crd` reads of each register, at either level, with its field map (R228, R229, R235, R238,
Tables 14.4 and 23.7); nothing else changes.
R235 with R23: CYCLE and DTIME never decrease, a read moves the clock to what it returns, and nothing but the clock, the
model's counter (log 4) and xd changes. PORTRTT reads 0 when no window is bound (R121); CAPV shows the generation and the
units in service (Table 28.6). -/
def Obligations.ControlRegisterReads : Prop :=
  (
  ∀ (s : State) (d : XIdx),
  let h := s.hart
  let R := fun (r : BitVec 12) (v : Word) => GivesX (.crd d r) s d v
  R 0x00 (h.vl.setWidth 64) ∧ R 0x01 (h.vstart.setWidth 64) ∧ R 0x02 h.mfc ∧ R 0x03 (h.scalebase.setWidth 64) ∧
  R 0x04 (h.dirtymap.setWidth 64) ∧ R 0x05 (if h.numst then 1 else 0) ∧ R 0x06 (h.mvl.setWidth 64) ∧
  R 0x07 (BitVec.ofNat 64 h.tiles.length) ∧ R 0x20 (h.turnpos.setWidth 64) ∧ R 0x21 h.turnst ∧
  R 0x30 h.tvec ∧ R 0x31 h.epc ∧ R 0x32 (h.ecause.setWidth 64) ∧ R 0x33 h.eval ∧ R 0x34 h.frecbase ∧
  R 0x40 (h.tileix[0].setWidth 64) ∧ R 0x41 (h.tileix[1].setWidth 64) ∧ R 0x42 (h.tileix[2].setWidth 64) ∧
  R 0x43 (h.tileix[3].setWidth 64) ∧ R 0x44 (h.tileix[4].setWidth 64) ∧ R 0x45 (h.tileix[5].setWidth 64) ∧
  R 0x46 (h.steph.setWidth 64) ∧ R 0x47 (coreAt s (curCore s)).bankrole ∧
  R 0x48 (BitVec.ofNat 64 (s.cur % 2 * 256 + s.cur / 2)) ∧
  R 0x50 (h.cprun.setWidth 64) ∧ R 0x51 (h.cpres.setWidth 64) ∧ R 0x52 (h.cpcvt.setWidth 64) ∧
  R 0x60 h.winid ∧ R 0x61 h.winstart ∧ R 0x62 h.winend ∧ R 0x63 h.arrlo ∧ R 0x64 h.arrhi ∧ R 0x65 h.revision ∧
  (∀ (n : Fin 6) (f : Frame), (h.frames.find? fun f => f.level == n.val) = some f →
    R (BitVec.ofNat 12 (0x10 + n)) (BitVec.ofNat 64 (f.count - f.iter))) ∧
  (∀ n : Fin 6, (h.frames.find? fun f => f.level == n.val) = none → R (BitVec.ofNat 12 (0x10 + n)) h.lc[n]) ∧
  (∃ v, R 0x16 v ∧ ∀ i, i < 64 → v.getLsbD i =
    if i < 6 then h.frames.any fun f => f.level == i
    else if i = 6 then h.susp
    else if 8 ≤ i ∧ i < 14 then h.frames.any fun f => f.level == i - 8 && f.iter == 0
    else if 16 ≤ i ∧ i < 22 then h.frames.any fun f => f.level == i - 16 && f.iter + 1 == f.count
    else false) ∧
  (∃ v, R 0x35 v ∧ ∀ i, i < 64 → v.getLsbD i =
    [h.tstat.plev, h.tstat.ie, h.tstat.pie, h.tstat.rsm, h.tstat.tie, h.tstat.qie, h.tstat.nie, h.tstat.lev, h.tstat.tip,
      qip s s.cur, nip h].getD i false)) ∧
  (
  ∀ (s : State) (d : XIdx),
  (∃ t v, exec (.crd d 0x49) s = .next t ∧ XFrame s.hart t.hart ∧ GoneOn s.hart t.hart ∧ OnlyX s.hart t.hart d v ∧
    (coreAt s (curCore s)).cycle.toNat ≤ v.toNat ∧ (coreAt t (curCore s)) = { coreAt s (curCore s) with cycle := v } ∧
    (∀ c, c ≠ curCore s → coreAt t c = coreAt s c) ∧ t = { s with hart := t.hart, cores := t.cores, tick := t.tick }) ∧
  (∃ t v, exec (.crd d 0x4A) s = .next t ∧ XFrame s.hart t.hart ∧ GoneOn s.hart t.hart ∧ OnlyX s.hart t.hart d v ∧
    s.dtime.toNat ≤ v.toNat ∧ t = { s with hart := t.hart, dtime := v, tick := t.tick }) ∧
  (∃ t v, exec (.crd d 0x22) s = .next t ∧ XFrame s.hart t.hart ∧ GoneOn s.hart t.hart ∧ OnlyX s.hart t.hart d v ∧
    v.toNat < 2 ^ 32 ∧ (s.ports.windows = [] → v = 0) ∧
    t = { s with hart := t.hart, portrtt := v.setWidth 32, tick := t.tick }) ∧
  (∃ v, GivesX (.crd d 0x70) s d v ∧ v.extractLsb' 48 16 = s.svc.gen ∧
    v.extractLsb' 38 10 = BitVec.ofNat 10 (serviceCount s 3) ∧ v.extractLsb' 30 8 = BitVec.ofNat 8 (serviceCount s 2) ∧
    v.extractLsb' 23 7 = BitVec.ofNat 7 (serviceCount s 1) ∧ v.extractLsb' 14 9 = BitVec.ofNat 9 (serviceCount s 0) ∧
    v.extractLsb' 0 14 = 0))

/-- A write of a control register held by the hart: the register takes its new value, xd the old one, and nothing else of the
hart or the device changes but the pc and the frames. -/
def writesCreg (i : Instr) (s : State) (d : XIdx) (old : Word) (new : Hart) : Prop :=
  ∃ t, exec i s = .next t ∧ SameOutside s t ∧ GoneOn new t.hart ∧ XFrame new t.hart ∧ OnlyX s.hart t.hart d old

/-- R208 and R233: `cwr`, `cset` and `ccl` of the registers that hold plain RW bits: the written bits that the register has.
The registers of a trap are written at kernel level only. MFC admits no RTYPE 11 and no SENC of 0xD-0xF (R239).
R208, R228, R229 and R233: the registers whose fields have rules of their own. NUMST.RNSOVF ignores a written 1; TSTAT.TIP
is cleared by a written 1 and never by `ccl`, LEV is read-only; LSTG.END closes every frame; LCn is written as a pending
count while its frame is open, and the live count is what the write returns. A read-only register traps.
R234: a write of BANKROLE at kernel level. It waits for copies and preloads that use a bank whose role changes; the lines of a
bank that leaves the I1 role are gone, once the entries that copies among them are held for have gone home; what a retryable
step's granules have placed there moves to the I2; a bank that changes role holds no scratchpad line; and a role pair 11 is an
illegal operand. Some of its clauses rest on readings of the model's own (log 6, 15 and 26). -/
def Obligations.ControlRegisterWrites : Prop :=
  (
  ∀ (s : State) (d a : XIdx),
  let h := s.hart
  let v := xreg s a
  let W := fun (r : BitVec 12) (mask old : Word) (set : Word → Hart) =>
    writesCreg (.cwr a r) s 0 old (set (v &&& mask)) ∧ writesCreg (.cset d a r) s d old (set ((old ||| v) &&& mask)) ∧
    writesCreg (.ccl d a r) s d old (set (old &&& ~~~v &&& mask))
  let K := fun (r : BitVec 12) (mask old : Word) (set : Word → Hart) =>
    (kernel s = true → W r mask old set) ∧
    (kernel s = false → Illegal (.cwr a r) s ∧ Illegal (.cset d a r) s ∧ Illegal (.ccl d a r) s)
  let goodMfc := fun (w : Word) => w.extractLsb' 10 2 ≠ 3 ∧ (w.extractLsb' 12 4).toNat < 13
  W 0x01 0xFF (h.vstart.setWidth 64) (fun w => { h with vstart := w.setWidth 8 }) ∧
  W 0x03 0xFFFFFFFFFFFF (h.scalebase.setWidth 64) (fun w => { h with scalebase := w.setWidth 48 }) ∧
  W 0x04 0xFFFFFFFF (h.dirtymap.setWidth 64) (fun w => { h with dirtymap := w.setWidth 32 }) ∧
  W 0x20 0x1FFFFFFFF (h.turnpos.setWidth 64) (fun w => { h with turnpos := w.setWidth 33 }) ∧
  W 0x21 0xE0FFFFFFFFFFFFFF h.turnst (fun w => { h with turnst := w }) ∧
  W 0x50 0x1FFF (h.cprun.setWidth 64) (fun w => { h with cprun := w.setWidth 13 }) ∧
  W 0x51 0xFFFFFFFFFFFF (h.cpres.setWidth 64) (fun w => { h with cpres := w.setWidth 48 }) ∧
  W 0x52 0xFFFFE (h.cpcvt.setWidth 64) (fun w => { h with cpcvt := w.setWidth 20 }) ∧
  (∀ n : Fin 6, (h.frames.find? fun f => f.level == n.val) = none →
    W (BitVec.ofNat 12 (0x10 + n)) (BitVec.allOnes 64) h.lc[n] (fun w => { h with lc := h.lc.set n w })) ∧
  K 0x30 0xFFFFFFFFFFFFFFFC h.tvec (fun w => { h with tvec := w }) ∧
  K 0x31 (BitVec.allOnes 64) h.epc (fun w => { h with epc := w }) ∧
  K 0x32 0x3F (h.ecause.setWidth 64) (fun w => { h with ecause := w.setWidth 6 }) ∧
  K 0x33 (BitVec.allOnes 64) h.eval (fun w => { h with eval := w }) ∧
  K 0x34 0xFFFFFFFFFFFFFFC0 h.frecbase (fun w => { h with frecbase := w }) ∧
  (goodMfc v → writesCreg (.cwr a 0x02) s 0 h.mfc { h with mfc := v &&& 0xFFC0 }) ∧
  (¬ goodMfc v → BadOperand (.cwr a 0x02) s) ∧
  (goodMfc (h.mfc ||| v) → writesCreg (.cset d a 0x02) s d h.mfc { h with mfc := (h.mfc ||| v) &&& 0xFFC0 }) ∧
  (¬ goodMfc (h.mfc ||| v) → BadOperand (.cset d a 0x02) s) ∧
  (goodMfc (h.mfc &&& ~~~v) → writesCreg (.ccl d a 0x02) s d h.mfc { h with mfc := h.mfc &&& ~~~v &&& 0xFFC0 }) ∧
  (¬ goodMfc (h.mfc &&& ~~~v) → BadOperand (.ccl d a 0x02) s)) ∧
  (
  ∀ (s : State) (d a : XIdx),
  let h := s.hart
  let v := xreg s a
  let T := h.tstat
  let old := (readCreg s 0x35).1
  writesCreg (.cwr a 0x05) s 0 (if h.numst then 1 else 0) { h with numst := h.numst && v.getLsbD 0 } ∧
  writesCreg (.cset d a 0x05) s d (if h.numst then 1 else 0) h ∧
  writesCreg (.ccl d a 0x05) s d (if h.numst then 1 else 0) { h with numst := h.numst && !v.getLsbD 0 } ∧
  (kernel s = true →
    writesCreg (.cwr a 0x35) s 0 old { h with tstat := { T with
      tip := T.tip && !v.getLsbD 8, nie := v.getLsbD 6, qie := v.getLsbD 5, tie := v.getLsbD 4, rsm := v.getLsbD 3,
      pie := v.getLsbD 2, ie := v.getLsbD 1, plev := v.getLsbD 0 } } ∧
    writesCreg (.cset d a 0x35) s d old { h with tstat := { T with
      tip := T.tip && !v.getLsbD 8, nie := T.nie || v.getLsbD 6, qie := T.qie || v.getLsbD 5, tie := T.tie || v.getLsbD 4,
      rsm := T.rsm || v.getLsbD 3, pie := T.pie || v.getLsbD 2, ie := T.ie || v.getLsbD 1,
      plev := T.plev || v.getLsbD 0 } } ∧
    writesCreg (.ccl d a 0x35) s d old { h with tstat := { T with
      nie := T.nie && !v.getLsbD 6, qie := T.qie && !v.getLsbD 5, tie := T.tie && !v.getLsbD 4,
      rsm := T.rsm && !v.getLsbD 3, pie := T.pie && !v.getLsbD 2, ie := T.ie && !v.getLsbD 1,
      plev := T.plev && !v.getLsbD 0 } }) ∧
  (kernel s = true →
    writesCreg (.cwr a 0x16) s 0 (readCreg s 0x16).1 { h with frames := if v.getLsbD 32 then [] else h.frames } ∧
    writesCreg (.cset d a 0x16) s d (readCreg s 0x16).1 { h with frames := if v.getLsbD 32 then [] else h.frames } ∧
    writesCreg (.ccl d a 0x16) s d (readCreg s 0x16).1 h) ∧
  (kernel s = false → ∀ r ∈ [(0x16 : BitVec 12), 0x35, 0x47],
    Illegal (.cwr a r) s ∧ Illegal (.cset d a r) s ∧ Illegal (.ccl d a r) s) ∧
  (∀ n : Fin 6, ∀ f, (h.frames.find? fun f => f.level == n.val) = some f →
    writesCreg (.cwr a (BitVec.ofNat 12 (0x10 + n))) s 0 (BitVec.ofNat 64 (f.count - f.iter))
      { h with lc := h.lc.set n v } ∧
    writesCreg (.cset d a (BitVec.ofNat 12 (0x10 + n))) s d (BitVec.ofNat 64 (f.count - f.iter))
      { h with lc := h.lc.set n (h.lc[n] ||| v) } ∧
    writesCreg (.ccl d a (BitVec.ofNat 12 (0x10 + n))) s d (BitVec.ofNat 64 (f.count - f.iter))
      { h with lc := h.lc.set n (h.lc[n] &&& ~~~v) }) ∧
  ∀ r ∈ [(0x00 : BitVec 12), 0x06, 0x07, 0x22, 0x40, 0x41, 0x42, 0x43, 0x44, 0x45, 0x46, 0x48, 0x49, 0x4A, 0x60, 0x61, 0x62,
      0x63, 0x64, 0x65, 0x70],
    Illegal (.cwr a r) s ∧ Illegal (.cset d a r) s ∧ Illegal (.ccl d a r) s) ∧
  (
  ∀ (s : State) (d a : XIdx), kernel s = true →
  let core := curCore s
  let c := coreAt s core
  let W := fun (i : Instr) (d : XIdx) (v : Word) =>
    ((∃ b, b < 32 ∧ v.extractLsb' (2 * b) 2 = 3) → BadOperand i s) ∧
    ((∀ b, b < 32 → v.extractLsb' (2 * b) 2 ≠ 3) → bankroleBusy s core v = true → Waits i s) ∧
    ((∀ b, b < 32 → v.extractLsb' (2 * b) 2 ≠ 3) → bankroleBusy s core v = false →
      let loses := ∃ b, b < 32 ∧ c.bankrole.extractLsb' (2 * b) 2 = 1 ∧ v.extractLsb' (2 * b) 2 ≠ 1
      let stays := ∃ b, b < 32 ∧ v.extractLsb' (2 * b) 2 = 1
      (loses → pinnedGrans (freePinned s core) core ≠ [] → exec i s = .next (waiting (freePinned s core))) ∧
      ∀ u, (loses → u = freePinned s core ∧ pinnedGrans u core = []) → (¬ loses → u = s) →
      let plain := ∀ x ∈ (coreAt u core).i1, x.2.pin = 0 ∨ x.2.ph = true
      ∃ t, exec i s = .next t ∧ GoneOn u.hart t.hart ∧ OnlyX u.hart t.hart d c.bankrole ∧ (coreAt t core).bankrole = v ∧
        (loses → ¬ stays → (coreAt t core).i1 = []) ∧ (¬ loses → (coreAt t core).i1 = c.i1) ∧
        (∀ k, tget (coreAt t core).sp k =
          if c.bankrole.extractLsb' (2 * (k / 64)) 2 = v.extractLsb' (2 * (k / 64)) 2 then tget c.sp k else none) ∧
        ((loses → plain) → XFrame u.hart t.hart ∧ t = { u with hart := t.hart, cores := t.cores, tick := u.tick + 1 } ∧
          (∀ n, n ≠ core → coreAt t n = coreAt u n) ∧ (∀ x ∈ (coreAt t core).i1, x ∈ (coreAt u core).i1) ∧
          coreAt t core = { coreAt u core with bankrole := v, i1 := (coreAt t core).i1, sp := (coreAt t core).sp }))
  W (.cwr a 0x47) 0 (xreg s a) ∧ W (.cset d a 0x47) d (c.bankrole ||| xreg s a) ∧
  W (.ccl d a 0x47) d (c.bankrole &&& ~~~xreg s a))

/-! ## Loads and stores -/

/-- The value of a load of a width from bytes (R218). -/
def loadedValue (wd : LWidth) (f : Nat → Byte) : Word :=
  let u := littleEndian f wd.bytes
  if wd.signed ∧ 2 ^ (8 * wd.bytes - 1) ≤ u then BitVec.ofInt 64 ((u : Int) - 2 ^ (8 * wd.bytes)) else BitVec.ofNat 64 u

/-- What work outside the hart may leave in it: words of its notice queue, and only where firmware has been told of
something meanwhile (R168, R170, R398, R404). `h` is the hart as it was. -/
def toldOnly (s t : State) (h : Hart) : Prop :=
  t.hart = { h with notices := t.hart.notices, lost := t.hart.lost } ∧ (t.disp.reports = s.disp.reports → t.hart = h)

/-- What an access to a page that the host owns does: it waits while the page moves in, asking the host for it once; when the
host has refused the page it traps with 0x06 (R149, R357, R413). -/
def meetsHostPage (i : Instr) (s : State) (va : Word) (wlev : Nat) : Prop :=
  let page := pageKey va wlev
  let table := tableOf s (curLaunch s)
  let stands := ∃ q ∈ s.ports.pageRequests, q.table = table ∧ q.page = page
  let refused := (table, page) ∈ s.ports.refusals
  (refused → EntersHandler i s 0x06 va) ∧
  (¬ refused → stands → Waits i s) ∧
  (¬ refused → ¬ stands →
    ∃ t m, exec i s = .next t ∧ t = { waiting s with ports := t.ports } ∧
      t.ports = { s.ports with
        pageRequests := s.ports.pageRequests ++ [⟨curLaunch s, page, s.ports.nextTag, table⟩]
        nextTag := s.ports.nextTag + 1, sent := s.ports.sent ++ [m] } ∧
      m.h0.extractLsb' 56 8 = 3 ∧ m.h0.getLsbD 55 = false ∧ m.h0.setWidth 32 = s.ports.nextTag)

/-- R218 with R96, R103 and R116: a load from an aligned address whose copy the core takes writes the bytes of that copy,
extended, to xd; registers but xd and every byte of memory are unchanged.
Data that a remote window gives are free, and its reads do not fail on the way: the model's own choice (log 8).
R283: the bypass load. A SELF page's own entries come first; otherwise the core's own entries of the granule drain and
the copy at the home junction is read, filling no inbound level. A granule of a remote window that no buffer holds gives free
data, as of the model's own choice (log 8). -/
def Obligations.Loads : Prop :=
  (
  ∀ (s : State) (wd : LWidth) (d a : XIdx) (off : BitVec 13) (pa : Nat) (self : Bool),
  let va := BitVec.ofInt 64 ((xreg s a).toInt + off.toInt)
  va.toNat % wd.bytes = 0 → Maps s va .read pa self → ovfRange s (pa / 64) = none → Loadable s (pa / 64) self →
  ∃ t, exec (.ld wd d a off) s = .next t ∧ ReadFrame s t ∧ GoneOn s.hart t.hart ∧ XFrame s.hart t.hart ∧
    OnlyX s.hart t.hart d (loadedValue wd fun i => (found s (pa / 64) self).byte (pa + i))) ∧
  (
  ∀ (s : State) (wd : LWidth) (d a : XIdx) (off : BitVec 5) (pa : Nat) (self : Bool),
  let va := BitVec.ofInt 64 ((xreg s a).toInt + off.toInt * wd.bytes)
  let gran := pa / 64
  let u := drainOwn s (curCore s) gran
  let G := fun (from_ : State) (g : Granule) => ∃ t, exec (.ldNc wd d a off) s = .next t ∧
    t = { from_ with hart := t.hart, cores := t.cores, clusters := t.clusters, tick := t.tick } ∧
    (∀ c, coreAt t c = { coreAt from_ c with tlb := (coreAt t c).tlb }) ∧
    (∀ n, clusterAt t n = { clusterAt from_ n with tlb := (clusterAt t n).tlb }) ∧
    GoneOn s.hart t.hart ∧ XFrame from_.hart t.hart ∧ OnlyX s.hart t.hart d (loadedValue wd fun i => g.byte (pa + i))
  let bypasses := self = false ∨ selfEntry s (curCore s) gran = none
  toldOnly s u s.hart ∧
  (va.toNat % wd.bytes = 0 → Maps s va .read pa self → ovfRange s gran = none →
  (∀ e, self = true → selfEntry s (curCore s) gran = some e → Takes s (me s) (curCluster s) e.g → G s e.g) ∧
  (bypasses → HomeWay s gran → windowOf gran = 0 →
    Takes u (me s) (curCluster s) (junctionGranule u gran).1 → G u (junctionGranule u gran).1) ∧
  (∀ e, bypasses → HomeWay s gran → windowOf gran ≠ 0 →
    tget u.ports.buffer gran = some e → Takes u (me s) (curCluster s) e.g → G u e.g) ∧
  (bypasses → HomeWay s gran → windowOf gran ≠ 0 → tget u.ports.buffer gran = none → ∃ k,
    G u (mkGranule (Config.remoteData k gran) (prodPort ((portOfWindow u (windowOf gran)).getD 0)) 4 0))))

/-- The granule that a store of the acting core merges into (R160, R165): its own entry in O1, or the copy it fetches. -/
def mergedInto (s : State) (gran : Nat) (self : Bool) : Granule :=
  match tget (coreAt s (curCore s)).o1 gran with
  | some e => e.g
  | none => found s gran self

/-- R219 with R98, R129, R154 and R165: a store forms one granule, by the core, in its O1, with the stored bytes replaced and
the others as they were; every other byte of memory reads as before, the granule enters the silhouette, and a placeholder
stands in the cluster's I2. Where a level is full, an entry formed earlier first moves on, and the store waits while none can
(R95, R392), or while the line of its placeholder finds no way into the I2 (R94).
A store that merges in its core's own entry does not check it, and data that a remote window gives are free: choices of the
model's own (log 8 and 22). -/
def Obligations.Stores : Prop := ∀ (s : State) (wd : EW) (src a : XIdx) (off : BitVec 13) (pa : Nat) (self : Bool),
  let va := BitVec.ofInt 64 ((xreg s a).toInt + off.toInt)
  let gran := pa / 64
  let core := curCore s
  va.toNat % wd.bytes = 0 → Maps s va .write pa self → rangeMeeting s pa wd.bytes = none →
  (tget (coreAt s core).o1 gran = none → Loadable s gran self) →
  ∃ t e, exec (.st wd src a off) s = .next t ∧
    (t.hart = { s.hart with
      notices := t.hart.notices, lost := t.hart.lost, sil := t.hart.sil, pc := t.hart.pc, frames := t.hart.frames
      resume := t.hart.resume, mid := t.hart.mid, waits := t.hart.waits, phase := t.hart.phase }) ∧
    (GoneOn s.hart t.hart ∧ t.hart.sil = silAdd s.hart.sil gran ∨
      t.hart.waits = true ∧ t.hart.sil = s.hart.sil ∧ t.hart.pc = s.hart.pc ∧ t.hart.frames = s.hart.frames) ∧
    (HasRoom s 1 →
    (self = false ∨ (∃ x, tget (coreAt s core).o1 gran = some x ∧ x.held ≠ heldBy s) → LineWay s (curCluster s) gran) →
    GoneOn s.hart t.hart ∧ t.hart.sil = silAdd s.hart.sil gran ∧ t.hart.notices = s.hart.notices ∧ t.hart.lost = s.hart.lost ∧ tget (coreAt t core).o1 gran = some e ∧
    e.g = mkGranule e.g.data core (if self then 1 else 0) (countsAt s core).rcnt ∧
    (∀ i, i < wd.bytes → e.g.byte (pa + i) = (xreg s src).extractLsb' (8 * i) 8) ∧
    (∀ a, a / 64 = gran → (a < pa ∨ pa + wd.bytes ≤ a) → e.g.byte a = (mergedInto s gran self).byte a) ∧
    (∀ mine a, a / 64 = gran → memByte t core mine a = some (e.g.byte a)) ∧
    (self = false → windowOf gran = 0 → ∃ c, tget (clusterAt t (curCluster s)).i2 gran = some c ∧ c.ph = true ∧ c.g = e.g) ∧
    (holdFits s → SameMemoryBut s t gran ∧ e.held = heldBy s ∧
      t = { s with hart := t.hart, i3 := t.i3, cores := t.cores, clusters := t.clusters, disp := t.disp, tick := t.tick } ∧
      t.disp = { s.disp with seq := s.disp.seq + 1 }))

/-- R218, R103, R147, R158 and R353: where a load traps, with the cause and EVAL of each trap in the order in which they are
met; xd and every byte of memory are unchanged. A check fault of a retryable step is not among them (R174).
R149, R357 and R413: a load or a store to a page that the host owns.
That there is one request a page, whose refusal the access that meets it takes, and that the TAGs of the device's own requests
count up, are readings of the model's own (log 30 and 32).
R219, R147 and R165: where a store traps; nothing is stored. A store of part of a granule that its core does not hold in O1
reads the granule first, and traps where that read does.
Some of its clauses rest on readings of the model's own (log 13). -/
def Obligations.AccessTraps : Prop :=
  (
  ∀ (s : State) (wd : LWidth) (d a : XIdx) (off : BitVec 13) (pa r : Nat),
  let i := Instr.ld wd d a off
  let va := BitVec.ofInt 64 ((xreg s a).toInt + off.toInt)
  let f := peekI1 s (curCore s) (pa / 64)
  let k := relation (me s) f.c.g.prod
  let met := Maps s va .read pa false ∧ ovfRange s (pa / 64) = none ∧ windowOf (pa / 64) = 0 ∧ ReadWay s (pa / 64)
  (va.toNat % wd.bytes ≠ 0 → Traps i s 0x03 va) ∧
  (va.toNat % wd.bytes = 0 →
    (∀ cause kind wlev, xlate s (hereTlb s) (curLaunch s) va .read = .page cause kind wlev → cause ≠ 0x08 → cause ≠ 0x10 →
      EntersHandler i s cause va) ∧
    (Maps s va .read pa false → ovfRange s (pa / 64) = some r → EntersHandler i s 0x11 va) ∧
    (met → (f.c.ph = true ∨ visible s (some (curCluster s)) f.c.g k = false) →
      EntersHandler i s 0x07 (va &&& ~~~0x3F)) ∧
    (met → f.c.ph = false → visible s (some (curCluster s)) f.c.g k = true → f.c.g.verifies = false → heldBy s = none →
      EntersHandler i s 0x08 (va &&& ~~~0x3F)))) ∧
  (
  ∀ (s : State) (wd : LWidth) (w : EW) (d a : XIdx) (off : BitVec 13) (wlev : Nat),
  let va := BitVec.ofInt 64 ((xreg s a).toInt + off.toInt)
  (va.toNat % wd.bytes = 0 → xlate s (hereTlb s) (curLaunch s) va .read = .host wlev →
    meetsHostPage (.ld wd d a off) s va wlev) ∧
  (va.toNat % w.bytes = 0 → xlate s (hereTlb s) (curLaunch s) va .write = .host wlev →
    meetsHostPage (.st w d a off) s va wlev)) ∧
  (
  ∀ (s : State) (wd : EW) (src a : XIdx) (off : BitVec 13) (pa r : Nat) (self : Bool),
  let i := Instr.st wd src a off
  let va := BitVec.ofInt 64 ((xreg s a).toInt + off.toInt)
  let gran := pa / 64
  let f := peekI1 s (curCore s) gran
  let k := relation (me s) f.c.g.prod
  let fetches := Maps s va .write pa self ∧ rangeMeeting s pa wd.bytes = none ∧ windowOf gran = 0 ∧
    tget (coreAt s (curCore s)).o1 gran = none ∧ (self = true → selfEntry s (curCore s) gran = none) ∧ ReadWay s gran
  (va.toNat % wd.bytes ≠ 0 → Traps i s 0x03 va) ∧
  (va.toNat % wd.bytes = 0 →
    (∀ cause kind wlev, xlate s (hereTlb s) (curLaunch s) va .write = .page cause kind wlev → cause ≠ 0x08 →
      cause ≠ 0x10 → EntersHandler i s cause va) ∧
    (Maps s va .write pa self → rangeMeeting s pa wd.bytes = some r → EntersHandler i s 0x11 va) ∧
    (fetches → (f.c.ph = true ∨ visible s (some (curCluster s)) f.c.g k = false) →
      EntersHandler i s 0x07 (va &&& ~~~0x3F)) ∧
    (fetches → f.c.ph = false → visible s (some (curCluster s)) f.c.g k = true → f.c.g.verifies = false →
      heldBy s = none → EntersHandler i s 0x08 (va &&& ~~~0x3F))))

/-! ## Atomics and the flag instructions -/

/-- A silhouette has joined a flag's attachment, unless its line is marked attachment lost (R133, R134). `v` is the state
before. -/
def attached (v t : State) (gran : Nat) (sil : Sil) : Prop :=
  (isLost v gran = false → tget v.attach gran = none → (sliceAttachments v (junctionOf v gran)).length < 64 →
    ∃ x, tget t.attach gran = some x ∧ x.sil = sil) ∧
  (∀ x, isLost v gran = false → tget v.attach gran = some x →
    ∃ y, tget t.attach gran = some y ∧ y.sil = x.sil ||| sil) ∧
  (isLost v gran = true → t.attach = v.attach)

/-- The acting hart has acted on a flag's attachment, its silhouette being `sil` before: none, one that is joined to the
silhouette and applied to I1 and I2, or a lost one, after which every bit is set and no ordinary copy is left (R135). -/
def acquired (t : State) (gran : Nat) (sil : Sil) : Prop :=
  let gone := fun (tbl : Tbl Copy) (p : Nat → Bool) => ∀ k c, tget tbl k = some c → p k = true →
    c.ordinary = false ∨ ∃ b, tget tbl (partner k) = some b ∧ b.ordinary = false
  let applied := fun (p : Nat → Bool) =>
    gone (coreAt t (curCore t)).i1 p ∧ gone (clusterAt t (curCluster t)).i2 p
  (isLost t gran = true → t.hart.sil = BitVec.allOnes 1024 ∧ applied fun _ => true) ∧
  (∀ x, isLost t gran = false → tget t.attach gran = some x → t.hart.sil = sil ||| x.sil ∧ applied (silMatches x.sil)) ∧
  (isLost t gran = false → tget t.attach gran = none → t.hart.sil = sil)

/-- An atomic of `n` bytes: the old bytes, extended by their sign, reach xd; the junction forms the granule with the new bytes
and keeps the others; nothing else in memory changes. -/
def atomicGives (i : Instr) (s u : State) (d : XIdx) (pa n : Nat) (acq rls : Bool) (new : Nat → Option Nat) : Prop :=
  let gran := pa / 64
  let v := drainOwn u (curCore s) gran
  let g := (junctionGranule v gran).1
  let old := littleEndian (fun i => g.byte (pa + i)) n
  FormWay u gran → JunctionGood v gran →
  let left := if rls then 0 else s.hart.sil
  toldOnly s v { s.hart with phase := v.hart.phase } ∧
  ∃ t, exec i s = .next t ∧ (HomeRoom v gran → JunctionFrame v t gran) ∧ GoneOn s.hart t.hart ∧
    t.hart = { v.hart with
      x := t.hart.x, sil := t.hart.sil, pc := t.hart.pc, frames := t.hart.frames, resume := t.hart.resume
      mid := t.hart.mid, waits := t.hart.waits, phase := t.hart.phase } ∧
    (acq = false → t.hart.sil = left) ∧
    (rls = false → t.attach = s.attach ∧ t.lost = s.lost) ∧
    (rls = true → attached v t gran s.hart.sil) ∧
    (acq = true → acquired t gran left) ∧
    OnlyX s.hart t.hart d (BitVec.ofInt 64 (if old < 2 ^ (8 * n - 1) then (old : Int) else old - 2 ^ (8 * n))) ∧
    (new old = none → (junctionGranule t gran).1 = g) ∧
    ∀ w, new old = some w →
      (junctionGranule t gran).1 = mkGranule (junctionGranule t gran).1.data (prodJunction (junctionOf s gran)) 3 0 ∧
      (∀ i, i < n → homeByte t (pa + i) = BitVec.ofNat 8 (w / 256 ^ i)) ∧
      ∀ a, a / 64 = gran → (a < pa ∨ pa + n ≤ a) → homeByte t a = g.byte a

/-- R284 with R138, R139 and Table 17.6: the ten atomics, with and without a release or an acquire, at both widths. A release
of the atomic's scope comes first, ships the silhouette and attaches it to the granule (R133); an acquiring one acts on the
granule's attachment as `ldacq` does (R135); one with neither leaves the attachments and the silhouette as they are. A full O3
first moves an older entry on (R95).
Some of its clauses rest on readings of the model's own (log 5, 13 and 16). -/
def Obligations.Atomics : Prop := ∀ (s u : State) (dbl acq rls : Bool) (sc : Scope) (d a b : XIdx) (pa : Nat) (self : Bool),
  let va := xreg s a
  let n := if dbl then 8 else 4
  let m := 2 ^ (8 * n)
  let y := (xreg s b).toNat % m
  let int := fun (x : Nat) => if x < m / 2 then (x : Int) else x - m
  va.toNat % n = 0 → Maps s va .rw pa self → windowOf (pa / 64) = 0 → rangeMeeting s pa n = none →
  (rls = false → u = withNr s) → (rls = true → Shipped (withNr s) sc.level (pa / 64) u) →
  let G := fun (i : Instr) (new : Nat → Option Nat) => atomicGives i s u d pa n acq rls new
  G (.amoadd dbl acq rls sc d a b) (fun x => some ((x + y) % m)) ∧
  G (.amomin dbl acq rls sc d a b) (fun x => some (if int x ≤ int y then x else y)) ∧
  G (.amomax dbl acq rls sc d a b) (fun x => some (if int x ≤ int y then y else x)) ∧
  G (.amominu dbl acq rls sc d a b) (fun x => some (min x y)) ∧
  G (.amomaxu dbl acq rls sc d a b) (fun x => some (max x y)) ∧
  G (.amoand dbl acq rls sc d a b) (fun x => some (x &&& y)) ∧
  G (.amoor dbl acq rls sc d a b) (fun x => some (x ||| y)) ∧
  G (.amoxor dbl acq rls sc d a b) (fun x => some (x ^^^ y)) ∧
  G (.amoswap dbl acq rls sc d a b) (fun _ => some y) ∧
  G (.amocas dbl acq rls sc d a b) (fun x => if x = (xreg s d).toNat % m then some y else none)

/-- R132 and R133: `rel` publishes what its core has formed. Every published count up to its level takes the release count,
which then advances; no other producer's counts change; the silhouette stays. At levels 3 and 4 nothing of the core that is
not held is left in O1 or O2.
R132: a release waits for the copies of its hart, for its drains to find their ways (R392), and for the replicas to
acknowledge: in phase 1 nothing but the acknowledgements is left to come.
Some of its clauses rest on readings of the model's own (log 5). -/
def Obligations.Releases : Prop :=
  (
  ∀ (s u : State) (sc : Scope), Released (withNr s) sc.level u →
  let core := curCore s
  let l := sc.level
  let c := countsAt s core
  toldOnly s u { s.hart with phase := u.hart.phase } ∧
  ∃ t, exec (.rel sc) s = .next t ∧ t = { u with hart := t.hart } ∧ GoneOn s.hart t.hart ∧ CtlFrame u.hart t.hart ∧
    (∀ p, p ≠ core → countsAt t p = countsAt s p) ∧
    (s.hart.phase = 1 → countsAt t core = { c with rcnt := c.rcnt + 1 }) ∧
    (s.hart.phase ≠ 1 → countsAt t core = {
      rcnt := c.rcnt + 1, p1 := c.rcnt
      p2 := if 2 ≤ l then c.rcnt else c.p2, p3 := if 3 ≤ l then c.rcnt else c.p3
      p4 := if 4 ≤ l then c.rcnt else c.p4 }) ∧
    (s.hart.phase ≠ 1 → 3 ≤ l →
      (∀ g e, tget (coreAt t core).o1 g = some e → e.held.isSome = true) ∧
      ∀ g e, tget (clusterAt t (curCluster s)).o2 g = some e → e.g.prod ≠ core)) ∧
  (
  ∀ (s : State) (sc : Scope), heldBy s = none →
  (s.hart.phase ≠ 1 → copiesOf s s.cur = true → Waits (.rel sc) s) ∧
  (s.hart.phase = 1 → acked s (curCore s) = false → Waits (.rel sc) s) ∧
  (s.hart.phase ≠ 1 → copiesOf s s.cur = false → (ownRelease s sc.level).2 = false →
    exec (.rel sc) s = .next (waiting (ownRelease s sc.level).1) ∧ (ownRelease s sc.level).1.counts = s.counts) ∧
  (s.hart.phase ≠ 1 → copiesOf s s.cur = false → (ownRelease s sc.level).2 = true →
    acked (ownRelease s sc.level).1 (curCore s) = false →
    ∃ t, exec (.rel sc) s = .next t ∧ t.hart.phase = 1 ∧ t.hart.pc = s.hart.pc ∧ t.hart.x = s.hart.x ∧
      (countsAt t (curCore s)).rcnt = (countsAt s (curCore s)).rcnt))

/-- R133 and R288: `strel` releases, stores 64 bits at the home junction, attaches the silhouette to the flag and clears it.
That the core's own entries of the flag granule drain before the junction acts, and how the instruction waits for its
silhouette's way, are readings of the model's own (log 5, 13 and 16).
R135 and R288: `ldacq` reads 64 bits at the home junction and acts on the flag's attachment: none, one that is applied and
joined to the silhouette, or a lost one, after which every bit of the silhouette is set. No byte of memory changes.
That the core's own entries of the flag granule drain first is a reading of the model's own (log 16). -/
def Obligations.FlagInstructions : Prop :=
  (
  ∀ (s u : State) (sc : Scope) (a b : XIdx) (off : BitVec 5) (pa : Nat) (self : Bool),
  let va := BitVec.ofInt 64 ((xreg s a).toInt + off.toInt * 8)
  let gran := pa / 64
  let v := drainOwn u (curCore s) gran
  va.toNat % 8 = 0 → Maps s va .rw pa self → windowOf gran = 0 → rangeMeeting s pa 8 = none →
  Shipped (withNr s) sc.level gran u → FormWay u gran → JunctionGood v gran →
  toldOnly s v { s.hart with phase := v.hart.phase } ∧
  ∃ t, exec (.strel sc a b off) s = .next t ∧ (HomeRoom v gran → JunctionFrame v t gran) ∧ GoneOn s.hart t.hart ∧
    t.hart = { v.hart with sil := 0, pc := t.hart.pc, frames := t.hart.frames, resume := t.hart.resume
                           mid := t.hart.mid, waits := t.hart.waits, phase := t.hart.phase } ∧
    (junctionGranule t gran).1 =
      mkGranule (junctionGranule t gran).1.data (prodJunction (junctionOf s gran)) (max 3 sc.level) 0 ∧
    (∀ i, i < 8 → homeByte t (pa + i) = (xreg s b).extractLsb' (8 * i) 8) ∧
    (∀ a, a / 64 = gran → (a < pa ∨ pa + 8 ≤ a) → homeByte t a = (junctionGranule v gran).1.byte a) ∧
    attached v t gran s.hart.sil) ∧
  (
  ∀ (s : State) (d a : XIdx) (off : BitVec 5) (pa : Nat) (self : Bool),
  let va := BitVec.ofInt 64 ((xreg s a).toInt + off.toInt * 8)
  let gran := pa / 64
  let v := drainOwn s (curCore s) gran
  va.toNat % 8 = 0 → Maps s va .read pa self → windowOf gran = 0 → ovfRange s gran = none → HomeWay s gran →
  JunctionGood v gran →
  toldOnly s v s.hart ∧
  ∃ t, exec (.ldacq d a off) s = .next t ∧ JunctionFrame v t gran ∧ t.o3 = v.o3 ∧ t.attach = s.attach ∧ GoneOn s.hart t.hart ∧
    t.hart = { v.hart with
      x := t.hart.x, sil := t.hart.sil, pc := t.hart.pc, frames := t.hart.frames, resume := t.hart.resume
      mid := t.hart.mid, waits := t.hart.waits, phase := t.hart.phase } ∧
    OnlyX s.hart t.hart d (BitVec.ofNat 64 (littleEndian (fun i => homeByte v (pa + i)) 8)) ∧
    t.lost = s.lost ∧ acquired t gran s.hart.sil)

/-- R127, R128 and R287: `fence` drains the hart's stores as far as its scope requires and publishes nothing; `drain` waits for
copy commands. At core scope nothing is left to do. A fence at device or system scope waits while a granule finds no way home
(R392), one at cluster scope while a granule finds no room in O2; a granule that fails its check at a port stays in its buffer, and the fence does not wait for it: the model's own choice
(log 8). -/
def Obligations.FencesAndDrain : Prop := ∀ (s : State) (sc : Scope),
  let core := curCore s
  let u := fenceDrain s sc
  let n := curCluster s
  let stuck := sc ≠ .core ∧ ((∃ x, x ∈ (coreAt u core).o1) ∨
    3 ≤ sc.level ∧ ((∃ x ∈ (clusterAt u n).o2, x.2.g.prod = core) ∨
      ∃ p ∈ (clusterAt u n).partials, p.core = core ∧ p.held = none))
  (stuck → exec (.fence sc) s = .next (waiting u) ∧ u.counts = s.counts) ∧
  (¬ stuck → ∃ t, exec (.fence sc) s = .next t ∧ GoneOn s.hart t.hart ∧ t.counts = s.counts ∧
    t.hart = { s.hart with
      notices := t.hart.notices, lost := t.hart.lost, pc := t.hart.pc, frames := t.hart.frames, resume := t.hart.resume
      mid := t.hart.mid, waits := t.hart.waits, phase := t.hart.phase } ∧
    (t.disp.reports = s.disp.reports → CtlFrame s.hart t.hart) ∧
    (sc = .core → SameOutside s t) ∧
    (sc ≠ .core → ∀ g, tget (coreAt t core).o1 g = none) ∧
    (sc = .device ∨ sc = .system → ∀ g e, tget (clusterAt t (curCluster s)).o2 g = some e → e.g.prod ≠ core) ∧
    (sc = .system → ∀ g e, tget t.ports.buffer g = some e → e.g.prod ≠ core ∨ e.g.verifies = false)) ∧
  (copiesOf s s.cur = true → Waits .drain s) ∧ (copiesOf s s.cur = false → Falls .drain s)

/-! ## Turns -/

/-- Every address of [va, va + n) has a translation in the core's I1 TLB that a read may use. -/
def cachedReads (s : State) (va : Word) (n : Nat) : Prop := ∀ i, i < n →
  (tlbFind (coreAt s (curCore s)).tlb (curLaunch s) (va + BitVec.ofNat 64 i)).isSome = true ∧
  ∃ pa self, Maps s (va + BitVec.ofNat 64 i) .read pa self

/-- No copy of a granule that a turn of the acting core could meet has metadata that R99 rejects. -/
def soundMetadata (s : State) (gran : Nat) : Prop :=
  (∀ c ∈ coresOf (curCluster s), ∀ e, tget (coreAt s c).o1 gran = some e → e.g.metaKind = none) ∧
  (∀ e, tget (clusterAt s (curCluster s)).o2 gran = some e → e.g.metaKind = none) ∧
  (∀ x ∈ (clusterAt s (curCluster s)).o2held, x.1 = gran → x.2.g.metaKind = none) ∧
  (junctionGranule s gran).1.metaKind = none ∧ ∀ e, tget s.ports.buffer gran = some e → e.g.metaKind = none

/-- A turn over [va, va + n) at level 1 or 2 meets neither a trap nor a boundary. -/
def turnPasses (s : State) (va : Word) (n : Nat) : Prop :=
  s.units = none ∧ cachedReads s va n ∧
  ∀ i, i < n → ∀ pa self, Maps s (va + BitVec.ofNat 64 i) .read pa self → soundMetadata s (pa / 64)

/-- The O2 and the I2 of the acting core's cluster have room for everything that waits in its outbound levels: nothing else moves
on to make room for what a turn moves (R95, R154, Table 06.1). -/
def turnRoom (s : State) : Prop :=
  let n := curCluster s
  let k := clusterAt s n
  let waiting := ((coresOf n).map fun c => (coreAt s c).o1.length).sum
  o2Bytes s n + 64 * waiting ≤ o2Size ∧ lineCount k.i2 + 2 * (waiting + k.o2.length) ≤ i2Lines

/-- It meets nothing that stops it: what it moves has room, and every way is there, to the homes, to their I3 slices and for the
other granules of the lines (R94, R95, R392). -/
def turnReady (s : State) (va : Word) (n : Nat) : Prop :=
  turnPasses s va n ∧ turnRoom s ∧
  ∀ i, i < n → ∀ pa self, Maps s (va + BitVec.ofNat 64 i) .read pa self →
    legFrom s (some (curCluster s)) (pa / 64) = none ∧ LineWay s (curCluster s) (pa / 64) ∧
    (windowOf (pa / 64) = 0 → routeUp s (homeRouter s (pa / 64)) (i3SliceOf (pa / 64)) = true)

/-- Granules that [a, a + n) meets. -/
def granulesMet (a n : Nat) : Nat := if n = 0 then 0 else (a + n - 1) / 64 - a / 64 + 1

/-- A granule of the acting core waits in its O1 or its cluster's O2 at LEVEL 0, not covered by PCNT1 (R290). -/
def pendingHandover (s : State) (g : Nat) : Prop :=
  ∃ e : OutEntry, ((g, e) ∈ (coreAt s (curCore s)).o1 ∨ (g, e) ∈ (clusterAt s (curCluster s)).o2 ∨
      (g, e) ∈ (clusterAt s (curCluster s)).o2held) ∧
    e.g.prod = curCore s ∧ e.g.level = 0 ∧ 32768 ≤ ((countsAt s (curCore s)).p1 - e.g.rc).toNat

/-- R106, R110 and R289: a turn whose translations are cached, which finds its ways and room, runs to its end at level 1 or 2:
TURNPOS returns to 0, TURNST holds the level and counts every granule of the region once, own or foreign, and no byte at a home
junction changes. Without a way or room it may wait at its pc instead (R95, R392). A turn that waits for the acknowledgements of its notices (R107) completes once they have come. xlen above 2^32, or below TURNPOS, is
an illegal operand.
R106, R107, R108, R115 and Table 06.5: what a turn does to one granule, which it finds in the form that was formed last. An
own granule in O1 takes the level; at level 1 it stays there with a copy in I1, at level 2 it goes to O2 with a copy in I2; a
foreign one, as one with a newer form in another cluster is, is skipped and counted. At levels 3 and 4 an own granule at its
home junction takes the level there. Data and check words are not touched (R97).
Some of its clauses rest on readings of the model's own (log 14).
R290: `turnq` over cached pages completes and changes nothing but xd; within one page it counts each granule that awaits
handover once. xlen above 2^26 is an illegal operand. -/
def Obligations.Turns : Prop :=
  (
  ∀ (s : State) (a b : XIdx) (lv : BitVec 2),
  let base := xreg s a
  let len := (xreg s b).toNat
  let i := Instr.turn a b lv
  (2 ^ 32 < len ∨ len < s.hart.turnpos.toNat → BadOperand i s) ∧
  (s.Inv → len ≤ 2 ^ 32 → s.hart.turnpos = 0 → lv.toNat < 2 → s.hart.phase ≠ 3 → turnReady s base len →
    ∃ t r f, exec i s = .next t ∧ GoneOn s.hart t.hart ∧ (∀ a, homeByte t a = homeByte s a) ∧
      t.hart = { s.hart with
        turnpos := 0, turnst := BitVec.ofNat 64 ((lv.toNat + 1) * 2 ^ 61 + f * 2 ^ 28 + r)
        pc := t.hart.pc, frames := t.hart.frames, resume := t.hart.resume, mid := t.hart.mid, waits := t.hart.waits, phase := t.hart.phase } ∧
      r + f = granulesMet base.toNat len) ∧
  (s.Inv → len ≤ 2 ^ 32 → s.hart.turnpos = 0 → lv.toNat < 2 → s.hart.phase ≠ 3 → turnPasses s base len →
    ∃ t, exec i s = .next t ∧ t.hart.x = s.hart.x ∧ t.hart.v = s.hart.v ∧
      (GoneOn s.hart t.hart ∨ t.hart.waits = true ∧ t.hart.pc = s.hart.pc ∧ t.hart.frames = s.hart.frames)) ∧
  (len ≤ 2 ^ 32 → s.hart.phase = 3 → acked s (curCore s) = false → s.hart.turnpos.toNat ≤ len → Waits i s) ∧
  (len ≤ 2 ^ 32 → s.hart.phase = 3 → acked s (curCore s) = true → s.hart.turnpos.toNat = len → 0 < len →
    ∃ t, exec i s = .next t ∧ SameOutside s t ∧ GoneOn s.hart t.hart ∧
      t.hart = { s.hart with
        turnpos := 0, pc := t.hart.pc, frames := t.hart.frames, resume := t.hart.resume, mid := t.hart.mid, waits := t.hart.waits
        phase := t.hart.phase })) ∧
  (
  ∀ (s : State) (a b : XIdx) (lv : BitVec 2) (pa : Nat) (self : Bool) (e : OutEntry),
  let base := xreg s a
  let len := (xreg s b).toNat
  let i := Instr.turn a b lv
  let l := lv.toNat + 1
  let gran := pa / 64
  let core := curCore s
  let n := curCluster s
  let own := fun (p : Nat) => p = core ∨ p = 256 + n ∨ p = 320 + n
  let up := fun (g : Granule) => g.raiseLevel l
  s.Inv → s.units = none → s.hart.turnpos = 0 → s.hart.phase ≠ 3 → 0 < len → base.toNat % 64 + len ≤ 64 →
  Maps s base .read pa self → windowOf gran = 0 → (clusterAt s n).partials = [] →
  let finds := fun (p : TurnPlace) (g : Granule) => turnFind s core gran = some (p, g)
  (tget (coreAt s core).o1 gran = some e → e.held = none → e.g.metaKind = none →
    (l = 1 → finds (.o1 core) e.g → own e.g.prod → i1Takes s core gran = true → LineWay s (curCluster s) gran → ∃ t c, exec i s = .next t ∧ GoneOn s.hart t.hart ∧
      t.hart.turnst = BitVec.ofNat 64 (2 ^ 61 + 1) ∧ tget (coreAt t core).o1 gran = some { e with g := up e.g } ∧
      tget (coreAt t core).i1 gran = some c ∧ c.g = up e.g ∧ c.ph = false) ∧
    (l = 2 → finds (.o1 core) e.g → own e.g.prod → HasRoom s 1 → LineWay s (curCluster s) gran → ∃ t c f, exec i s = .next t ∧ GoneOn s.hart t.hart ∧
      t.hart.turnst = BitVec.ofNat 64 (2 * 2 ^ 61 + 1) ∧ tget (coreAt t core).o1 gran = none ∧
      tget (clusterAt t n).o2 gran = some { e with g := up e.g, first := f } ∧
      tget (clusterAt t n).i2 gran = some c ∧ c.g = up e.g ∧ c.ph = false) ∧
    (l ≤ 2 → (finds (.o1 core) e.g ∧ ¬ own e.g.prod) ∨ (∃ g, finds .elsewhere g) → ∃ t, exec i s = .next t ∧ GoneOn s.hart t.hart ∧
      t.hart.turnst = BitVec.ofNat 64 (l * 2 ^ 61 + 2 ^ 28) ∧ tget (coreAt t core).o1 gran = some e)) ∧
  (let g := (junctionGranule s gran).1;
    finds .home g → writeLeg s (some n) gran = none → 3 ≤ l →
    g.metaKind = none → (own g.prod ∨ (l = 4 ∧ 384 ≤ g.prod ∧ g.prod < 448)) →
    ∃ t, exec i s = .next t ∧ (junctionGranule t gran).1 = up g ∧ (up g).data = g.data ∧ (up g).chk = g.chk ∧
      (up g).prod = g.prod ∧ (up g).rc = g.rc ∧ (up g).level = max g.level l ∧
      ∀ k, k ≠ gran → (junctionGranule t k).1 = (junctionGranule s k).1)) ∧
  (
  ∀ (s : State) (d a b : XIdx) (pa : Nat) (self : Bool),
  let base := xreg s a
  let len := (xreg s b).toNat
  (2 ^ 26 < len → BadOperand (.turnq d a b) s) ∧
  (len ≤ 2 ^ 26 → cachedReads s base len → ∃ v, GivesX (.turnq d a b) s d v) ∧
  (0 < len → base.toNat % 65536 + len ≤ 65536 → Maps s base .read pa self →
    (tlbFind (coreAt s (curCore s)).tlb (curLaunch s) base).isSome = true →
    ∃ gs : List Nat, gs.Nodup ∧ GivesX (.turnq d a b) s d (BitVec.ofNat 64 gs.length) ∧
      ∀ g, g ∈ gs ↔ pa / 64 ≤ g ∧ g ≤ (pa + len - 1) / 64 ∧ pendingHandover s g))

/-! ## Queues -/

/-- Words have been placed at the end of a hart's inbound queue by the acting hart, which goes on; no other hart and nothing
outside the harts has changed. -/
def delivered (s t : State) (r : Route) (ws : List Word) : Prop :=
  t = { s with hart := t.hart, rest := t.rest } ∧ GoneOn s.hart t.hart ∧
  (hartAt t r.slot).queue r.qin = (hartAt s r.slot).queue r.qin ++ ws ∧
  (∀ q, q ≠ r.qin → (hartAt t r.slot).queue q = (hartAt s r.slot).queue q) ∧
  (∀ k, k ≠ r.slot → k ≠ s.cur → hartAt t k = hartAt s k) ∧ (r.slot ≠ s.cur → CtlFrame s.hart t.hart) ∧
  t.hart.x = s.hart.x

/-- R291 and R292: the word instructions of the queues. A word moves only when the instruction completes.
Some of its clauses rest on readings of the model's own (log 19).
R293: `qpush` places xbase and xlen as two adjacent words once its turn, at the level of the pipe, is done and the queue
has two free slots; until then it waits.
That an illegal length is met before a queue trap is the model's own choice (log 13); some of its clauses rest on readings of the
model's own (log 5 and 19). -/
def Obligations.Queues : Prop :=
  (
  ∀ (s : State) (a d b : XIdx) (q : BitVec 2) (r : Route) (w : Word) (rest : List Word),
  let h := s.hart
  let handle := h.steph.toNat
  let got := h.queue q.toNat
  let Leaves := fun (t : State) => SameOutside s t ∧ GoneOn h t.hart ∧
    t.hart = { h with x := t.hart.x, qin := t.hart.qin, pc := t.hart.pc, frames := t.hart.frames, resume := t.hart.resume
                      mid := t.hart.mid, waits := t.hart.waits, phase := t.hart.phase } ∧
    ∀ k, k ≠ q.toNat → t.hart.queue k = h.queue k
  (outPipe s q = 0 ∨ routeOf s handle (outPipe s q) = none → Traps (.qsend a q) s 0x0C 1) ∧
  (outPipe s q ≠ 0 → routeOf s handle (outPipe s q) = some r →
    ((hartAt s r.slot).tdone.isSome = true → Traps (.qsend a q) s 0x0C 2) ∧
    ((hartAt s r.slot).tdone = none → 64 ≤ ((hartAt s r.slot).queue r.qin).length → Waits (.qsend a q) s) ∧
    ((hartAt s r.slot).tdone = none → ((hartAt s r.slot).queue r.qin).length < 64 → r.qin < 4 →
      ∃ t, exec (.qsend a q) s = .next t ∧ delivered s t r [xreg s a])) ∧
  (inPipe s q = 0 → Traps (.qrecv d q) s 0x0C 1 ∧ Traps (.qpoll d b q) s 0x0C 1) ∧
  (inPipe s q ≠ 0 → got = w :: rest →
    (∃ t, exec (.qrecv d q) s = .next t ∧ Leaves t ∧ OnlyX h t.hart d w ∧ t.hart.queue q.toNat = rest) ∧
    (∃ t, exec (.qpoll d b q) s = .next t ∧ Leaves t ∧ t.hart.queue q.toNat = rest ∧
      ∀ x, t.hart.xreg x = if x = 0 then 0 else if x = b then 1 else if x = d then w else h.xreg x)) ∧
  (inPipe s q ≠ 0 → got = [] → sendersGone s handle (inPipe s q) = true →
    Traps (.qrecv d q) s 0x0C 3 ∧ ∃ t, exec (.qpoll d b q) s = .next t ∧ Leaves t ∧ t.hart.qin = h.qin ∧
      ∀ x, t.hart.xreg x = if x = 0 then 0 else if x = b then 2 else if x = d then 0 else h.xreg x) ∧
  (inPipe s q ≠ 0 → got = [] → sendersGone s handle (inPipe s q) = false →
    Waits (.qrecv d q) s ∧ ∃ t, exec (.qpoll d b q) s = .next t ∧ Leaves t ∧ t.hart.qin = h.qin ∧
      ∀ x, t.hart.xreg x = if x = 0 then 0 else if x = b then 0 else if x = d then 0 else h.xreg x)) ∧
  (
  ∀ (s : State) (a b : XIdx) (q : BitVec 2) (r : Route),
  let len := (xreg s b).toNat
  let i := Instr.qpush a b q
  let pushed := (hartAt s r.slot).queue r.qin
  (2 ^ 32 < len ∨ len < s.hart.turnpos.toNat → BadOperand i s) ∧
  (len ≤ 2 ^ 32 → s.hart.turnpos.toNat ≤ len → outPipe s q ≠ 0 → routeOf s s.hart.steph.toNat (outPipe s q) = some r →
    (hartAt s r.slot).tdone = none →
    (s.hart.phase = 2 → 62 < pushed.length → Waits i s) ∧
    (s.hart.phase = 2 → pushed.length ≤ 62 → r.qin < 4 →
      ∃ t, exec i s = .next t ∧ delivered s t r [xreg s a, xreg s b]) ∧
    (s.hart.phase ≠ 2 → s.hart.phase ≠ 3 → s.hart.turnpos = 0 → r.level = 1 ∨ r.level = 2 → pushed.length ≤ 62 → r.qin < 4 →
      turnReady s (xreg s a) len →
      ∃ t, exec i s = .next t ∧ GoneOn s.hart t.hart ∧ t.hart.turnpos = 0 ∧
        t.hart.turnst.extractLsb' 61 3 = BitVec.ofNat 3 r.level ∧
        (hartAt t r.slot).queue r.qin = pushed ++ [xreg s a, xreg s b])))

/-! ## Steps from inside -/

/-- The eight dwords of a launch block as a granule holds them. -/
def blockOf (g : Granule) : List Word := (List.range 8).map fun i => BitVec.ofNat 64 (littleEndian (fun j => g.byte (8 * i + j)) 8)

/-- The dispatcher can read the words `ws` from an address of an address space: each lies in a page that it may read, in a
granule of HBM that is visible to it and passes its check (R90, R103, R424). -/
def dispReads (s : State) (table : Nat) (va : Word) (ws : List Word) : Prop := ∀ k, k < ws.length → ∃ pa self,
  let f := peekI3 s (pa / 64)
  xlateTable s .dispatcher table (va + BitVec.ofNat 64 (8 * k)) .read = .ok pa self ∧ windowOf (pa / 64) = 0 ∧
  f.c.ph = false ∧ visible s none f.c.g 3 = true ∧ f.c.g.verifies = true ∧
  ws.getD k 0 = BitVec.ofNat 64 (littleEndian (fun j => f.c.g.byte ((va.toNat + 8 * k) % 64 + j)) 8)

/-- R332 with R66, R67 and R90: `tspawn` reads a launch block at relation 3. A block that is malformed, standing, too large a
team or one launch too many gives 0, and so does a descriptor outside its rules; any other gives the handle of a new live
launch. In every case the instruction completes.
Some of its clauses rest on readings of the model's own (log 26).
R333: `tdep` adds one edge from the waiter to an open dependee. A step's edge is its own; a launch's is one edge that applies
to each of its steps, those that wait now and those still to come. It changes nothing where the dependee has completed, traps
with the lowest code that holds, and waits while the dispatcher holds 65,536 edges. Otherwise it completes.
Some of its clauses rest on readings of the model's own (log 26). -/
def Obligations.SpawnAndDependences : Prop :=
  (
  ∀ (s : State) (d a : XIdx) (pa : Nat) (self : Bool) (hd es pipes : List Word),
  let va := xreg s a
  let f := peekI3 s (pa / 64)
  let blk := blockOf f.c.g
  let id := freeId s 255 s.disp.lastId
  let i := Instr.tspawn d a
  (va.toNat % 64 ≠ 0 → Traps i s 0x03 va) ∧
  (va.toNat % 64 = 0 → Maps s va .read pa self → windowOf (pa / 64) = 0 → heldBy s = none →
    f.c.ph = false → visible s none f.c.g 3 = true → f.c.g.verifies = true →
    let refused := blkBad blk = true ∨ blkStanding blk = true ∨ 255 ≤ s.disp.launches.length ∨
      (0 < blkTgm1 blk ∧ teamFits s (blkGsize blk) (blkTgm1 blk) = false)
    (refused → ∃ t, exec i s = .next t ∧ ReadFrame s t ∧ GoneOn s.hart t.hart ∧ XFrame s.hart t.hart ∧
      OnlyX s.hart t.hart d 0) ∧
    let table := tableOf s (curLaunch s)
    let base := blkDesc blk
    let desc := hd ++ es
    (¬ refused → hd.length = 8 → dispReads s table base hd → descHeaderBad hd = true →
      ∃ t, exec i s = .next t ∧ ReadFrame s t ∧ GoneOn s.hart t.hart ∧ XFrame s.hart t.hart ∧ OnlyX s.hart t.hart d 0) ∧
    (¬ refused → hd.length = 8 → dispReads s table base hd → descHeaderBad hd = false →
      es.length = 8 * (descNin hd + descNout hd) → dispReads s table (base + 64) es → descEntriesBad desc = false →
      pipes.length = 2 * descNpipe hd → dispReads s table (descPipes hd) pipes →
      ∃ t l, exec i s = .next t ∧ GoneOn s.hart t.hart ∧ XFrame s.hart t.hart ∧
        OnlyX s.hart t.hart d (BitVec.ofNat 64 (id * 2 ^ 24 + 0xFFFFFF)) ∧
        t.disp.launches = s.disp.launches ++ [l] ∧ t.disp.lastId = id ∧ l.id = id ∧ l.blk = blk ∧ l.desc = desc ∧
        l.pipes = pipes ∧ l.emitted = 0 ∧ l.table = table ∧ t.disp.steps = s.disp.steps))) ∧
  (
  ∀ (s : State) (a b : XIdx) (r : StepRec),
  let w := (xreg s a).toNat
  let d := (xreg s b).toNat
  let i := Instr.tdep a b
  let cycle := dependeeOpen s d = true ∧ waiterDead s w = false ∧ closesCycle s w d = true
  let many := dependeeOpen s d = true ∧ depsFull s w = true
  let ws := waiters s w
  let full := dependeeOpen s d = true ∧ 65536 ≤ s.disp.edges.length + s.disp.launches.foldl (fun t l => t + l.deferred.length) 0
  let free := ¬ cycle ∧ waiterStarted s w = false ∧ waiterDead s w = false ∧ ¬ many ∧ ¬ full
  (cycle → Traps i s 0x02 1) ∧ (¬ cycle → waiterStarted s w = true → Traps i s 0x02 2) ∧
  (¬ cycle → waiterStarted s w = false → waiterDead s w = true → Traps i s 0x02 3) ∧
  (¬ cycle → waiterStarted s w = false → waiterDead s w = false → many → Traps i s 0x02 4) ∧
  (¬ cycle → waiterStarted s w = false → waiterDead s w = false → ¬ many → full → Waits i s) ∧
  (∀ r ∈ ws, 65535 ≤ r.deps → depsFull s w = true) ∧
  (∀ l, launchOfHandle s w = some l → (l.completed ≠ 0 → waiterStarted s w = true) ∧
    ∀ q ∈ s.disp.steps, q.launch = l.id → q.place = .running → waiterStarted s w = true) ∧
  (free → dependeeOpen s d = true → launchOfHandle s w = none →
    ∃ t, exec i s = .next t ∧ GoneOn s.hart t.hart ∧ CtlFrame s.hart t.hart ∧
      t.disp.edges = s.disp.edges ++ [(w, d)] ∧ t.disp.shared = s.disp.shared) ∧
  (∀ l, free → dependeeOpen s d = true → launchOfHandle s w = some l →
    ∃ t, exec i s = .next t ∧ GoneOn s.hart t.hart ∧ CtlFrame s.hart t.hart ∧ t.disp.edges = s.disp.edges ∧
      findLaunch t l.id = some { l with deferred := l.deferred ++ [d] } ∧
      t.disp.shared = s.disp.shared ++ ws.map fun r => (r.handle, d)) ∧
  (waiterStarted s w = false → waiterDead s w = false → dependeeOpen s d = false → heldBy s = none → Falls i s) ∧
  (free → dependeeOpen s d = true → heldBy s = none → ws = [r] → findStep s r.handle = some r →
    ∃ t, exec i s = .next t ∧ t = { s with hart := t.hart, disp := t.disp } ∧
      findStep t r.handle = some { r with deps := r.deps + 1 }))

/-- R335 with R118 and R122: a hart that arrives at a barrier ships its silhouette into the union and waits; once every hart of
the gang or team has started and has arrived or executed `tdone`, and the silhouettes have come, each waiting hart takes the union and goes
on. A team barrier outside a team is an illegal operand.
Where the union stands, and how a hart waits, are readings of the model's own (log 5 and 34).
R334: `tdone` records the outcome word, after which the hart does nothing; the first FAULT in time gives the step's
ECAUSE. A word outside its fields is an illegal operand.
R336: `tyield` goes on at once unless a non-retryable one-hart step of its slot gives way to a staged step of equal or
higher priority in the core's other slot; where no save area is free it goes on too (R362).
Some of its clauses rest on readings of the model's own (log 27). -/
def Obligations.BarriersDoneAndYield : Prop :=
  (
  ∀ (s u : State) (team : Bool) (b : Barrier),
  let i := Instr.gbar team
  let handle := s.hart.steph.toNat
  let met := fun (v : State) (b : Barrier) (gang : Nat) => (∀ k ∈ b.arrived, acked v (coreOfSlot k) = true) ∧
    (∀ r, findStep v handle = some r → stepMembers r ≤ (slotsOfStep v r.handle).length) ∧
    ∀ k ∈ barrierMembers v handle team gang, k ∈ b.arrived ∨ (hartAt v k).tdone.isSome = true
  let find := fun (v : State) (gang : Nat) => v.disp.barriers.find? fun b => b.is handle team gang
  let opens := fun (v : State) (b : Barrier) (gang : Nat) (sil : Sil) =>
    ∃ t, exec i s = .next t ∧ GoneOn s.hart t.hart ∧ t.hart.sil = sil ||| b.union ∧ t.hart.x = s.hart.x ∧
      t.mem = v.mem ∧ t.o3 = v.o3 ∧ find t gang = none ∧
      ∀ k ∈ b.arrived, k ≠ s.cur → hartAt t k = { hartAt v k with sil := (hartAt v k).sil ||| b.union }.advance
  let gang := if team then 0 else gangIndex u handle s.cur
  let here := if team then 0 else gangIndex s handle s.cur
  let old := (find u gang).getD ⟨handle, team, gang, 0, []⟩
  let now : Barrier := { old with union := old.union ||| s.hart.sil, arrived := old.arrived ++ [s.cur] }
  let v := (arriveAt u handle team gang).1
  (team = true → rcdTeam (slotAt s s.cur).rcd = 0 → Traps i s 0x02 1) ∧
  ((team = true → rcdTeam (slotAt s s.cur).rcd ≠ 0) →
    (s.hart.phase ≠ 2 → Released (withNr s) (if team then 3 else 2) u →
      v = shipTo { u with
        hart := { u.hart with sil := 0, phase := 2 }
        disp := { u.disp with barriers := now :: u.disp.barriers.filter fun b => !b.is handle team gang } } (curCore s)
        (unionRouter u handle team gang) ∧
      (met v now gang → opens v now gang 0) ∧
      (¬ met v now gang → ∃ t, exec i s = .next t ∧ t.hart.phase = 2 ∧ t.hart.sil = 0 ∧ t.hart.pc = s.hart.pc ∧
        find t gang = some now)) ∧
    (s.hart.phase = 2 → find s here = some b → b.arrived ≠ [] → s.cur ∈ b.arrived →
      (met s b here → opens s b here s.hart.sil) ∧ (¬ met s b here → Waits i s)))) ∧
  (
  ∀ (s : State) (a : XIdx) (r : StepRec),
  let v := xreg s a
  let i := Instr.tdone a
  let bad := v.extractLsb' 14 50 ≠ 0 ∨ v.extractLsb' 4 4 ≠ 0 ∨ 1 < (v.extractLsb' 0 4).toNat ∨
    (v.extractLsb' 0 4 = 0 ∧ v.extractLsb' 8 6 ≠ 0)
  let Done := fun (t : State) => GoneOn s.hart t.hart ∧
    t.hart = { s.hart with tdone := some v, pc := t.hart.pc, frames := t.hart.frames, resume := t.hart.resume
                           mid := t.hart.mid, waits := t.hart.waits, phase := t.hart.phase }
  (bad → BadOperand i s) ∧
  (¬ bad → v.extractLsb' 0 4 = 0 → ∃ t, exec i s = .next t ∧ SameOutside s t ∧ Done t) ∧
  (¬ bad → v.extractLsb' 0 4 = 1 → findStep s s.hart.steph.toNat = some r → r.outcome = none →
    ∃ t, exec i s = .next t ∧ Done t ∧ t = { s with hart := t.hart, disp := t.disp } ∧
      t.disp = { s.disp with steps := t.disp.steps } ∧
      findStep t r.handle = some { r with outcome := some (1, (v.extractLsb' 8 6).toNat, 0) }) ∧
  (¬ bad → v.extractLsb' 0 4 = 1 → (∀ q, findStep s s.hart.steph.toNat = some q → q.outcome.isSome = true) →
    ∃ t, exec i s = .next t ∧ SameOutside s t ∧ Done t)) ∧
  (
  ∀ (s : State) (r : StepRec),
  (findStep s s.hart.steph.toNat = none → Falls .tyield s) ∧
  (findStep s s.hart.steph.toNat = some r →
    (r.place ≠ .running ∨ r.retryable = true ∨ (slotsOfStep s r.handle).length ≠ 1 ∨ 1 < stepMembers r ∨
      waitingStep s s.cur r = false) →
    Falls .tyield s) ∧
  (findStep s s.hart.steph.toNat = some r → r.place = .running → r.retryable = false → slotsOfStep s r.handle = [s.cur] →
    stepMembers r ≤ 1 → waitingStep s s.cur r = true → ∃ t, exec .tyield s = .next t ∧
      (t = nextTick (advance s) ∨
        ∃ q, findStep t r.handle = some q ∧ (q.place = .queued ∨ q.stopping.isSome = true) ∧
          (q.place = .queued → memberCores r = [curCore s] → t.disp.reports = s.disp.reports → ∃ v, q.saved = [some v]))))

/-! ## Vector arithmetic -/

/-- The integer that the low `w` bits of an element hold, two's complement. -/
def sx (w a : Nat) : Int := if a % 2 ^ w < 2 ^ (w - 1) then (a % 2 ^ w : Nat) else (a % 2 ^ w : Nat) - 2 ^ w

/-- An integer as an element of `w` bits: wrapped, or clamped to the signed range where saturation is on (R180, R246). -/
def narrow (w : Nat) (sat : Bool) (x : Int) : Nat :=
  ((if sat then max (-2 ^ (w - 1)) (min (2 ^ (w - 1) - 1) x) else x) % 2 ^ w).toNat

/-- The signed quotient of R180: all ones for a divisor 0, and the one overflowing case. -/
def quotient (w : Nat) (sat : Bool) (x y : Int) : Int :=
  if y = 0 then -1 else if x = -2 ^ (w - 1) ∧ y = -1 then (if sat then 2 ^ (w - 1) - 1 else x) else x.tdiv y

/-- RTYPE selects integers (R240). -/
def integers (s : State) : Prop := s.hart.mfc.extractLsb' 10 2 = 0

/-- R243 and R236-R237: `vsetvl` sets VL to the smaller of xa and what a register holds, returns it, and clears VSTART; and
the one word that is each `vsetvl`. -/
def Obligations.SetVectorLength : Prop := ∀ (s : State) (ew : EW) (d a : XIdx),
  let n := min (xreg s a).toNat (1024 / ew.bits)
  (∀ word : BitVec 32, decodeWord word = some (.vsetvl ew d a) ↔
    word.toNat = 0x20 * 2 ^ 26 + d.toNat * 2 ^ 21 + a.toNat * 2 ^ 16 + (match ew with | .b => 0 | .h => 1 | .w => 2 | .d => 3)) ∧
  ∃ t, exec (.vsetvl ew d a) s = .next t ∧ SameOutside s t ∧ GoneOn s.hart t.hart ∧
    t.hart = { s.hart with
      x := t.hart.x, vl := BitVec.ofNat 8 n, vstart := 0, pc := t.hart.pc, frames := t.hart.frames
      resume := t.hart.resume, mid := t.hart.mid, waits := t.hart.waits, phase := t.hart.phase } ∧
    t.hart.vl.toNat = n ∧ OnlyX s.hart t.hart d (BitVec.ofNat 64 n)

/-- R250, R251, R253 with R180, R242 and R246: the integer element-wise instructions of vector sources. Wrapping or saturation
is the word's for `vadd` and `vsub` and MFC.SAT's otherwise; only active elements in [VSTART, VL) are written.
R252 with R180 and R242: the integer forms with a scalar source, truncated to the element width. -/
def Obligations.VectorIntegers : Prop :=
  (
  ∀ (s : State) (d a b : VIdx) (pg : PIdx) (ew : EW) (z : Bool),
  integers s → fits s ew →
  let w := ew.bits
  let sat := s.hart.mfc.getLsbD 7
  let A := fun k => elemN (vreg s a) w k
  let B := fun k => elemN (vreg s b) w k
  let x := fun k => sx w (A k)
  let y := fun k => sx w (B k)
  let o := fun k => sx w (elemN (vreg s d) w k)
  let E := fun (i : Instr) (f : Nat → Nat) => Elementwise i s d pg ew z f
  (∀ (t : Bool) (r : Rnd), E (.vadd d a b pg ew t r z) (fun k => narrow w t (x k + y k)) ∧
    E (.vsub d a b pg ew t r z) (fun k => narrow w t (x k - y k))) ∧
  E (.vmul d a b pg ew z) (fun k => narrow w sat (x k * y k)) ∧
  E (.vmulh d a b pg ew z) (fun k => narrow w false (x k * y k / 2 ^ w)) ∧
  E (.vmulhu d a b pg ew z) (fun k => A k * B k / 2 ^ w) ∧
  E (.vdiv d a b pg ew z) (fun k => narrow w false (quotient w sat (x k) (y k))) ∧
  E (.vdivu d a b pg ew z) (fun k => if B k = 0 then 2 ^ w - 1 else A k / B k) ∧
  E (.vrem d a b pg ew z) (fun k => narrow w false (if y k = 0 then x k else (x k).tmod (y k))) ∧
  E (.vremu d a b pg ew z) (fun k => if B k = 0 then A k else A k % B k) ∧
  E (.vmin d a b pg ew z) (fun k => narrow w false (min (x k) (y k))) ∧
  E (.vmax d a b pg ew z) (fun k => narrow w false (max (x k) (y k))) ∧
  E (.vminu d a b pg ew z) (fun k => min (A k) (B k)) ∧
  E (.vmaxu d a b pg ew z) (fun k => max (A k) (B k)) ∧
  E (.vavg d a b pg ew z) (fun k => narrow w false ((x k + y k) / 2)) ∧
  E (.vabsd d a b pg ew z) (fun k => (x k - y k).natAbs) ∧
  E (.vmacc d a b pg ew z) (fun k => narrow w sat (o k + x k * y k)) ∧
  E (.vmsac d a b pg ew z) (fun k => narrow w sat (o k - x k * y k)) ∧
  E (.vneg d a pg ew z) (fun k => narrow w sat (-x k)) ∧
  E (.vabs d a pg ew z) (fun k => narrow w sat |x k|)) ∧
  (
  ∀ (s : State) (d a : VIdx) (b : XIdx) (pg : PIdx) (ew : EW) (z : Bool),
  integers s → fits s ew →
  let w := ew.bits
  let sat := s.hart.mfc.getLsbD 7
  let A := fun k => elemN (vreg s a) w k
  let B := (xreg s b).toNat % 2 ^ w
  let x := fun k => sx w (A k)
  let y := sx w B
  let E := fun (i : Instr) (f : Nat → Nat) => Elementwise i s d pg ew z f
  E (.vaddx d a b pg ew z) (fun k => narrow w sat (x k + y)) ∧
  E (.vsubx d a b pg ew z) (fun k => narrow w sat (x k - y)) ∧
  E (.vrsubx d a b pg ew z) (fun k => narrow w sat (y - x k)) ∧
  E (.vmulx d a b pg ew z) (fun k => narrow w sat (x k * y)) ∧
  E (.vmulhx d a b pg ew z) (fun k => narrow w false (x k * y / 2 ^ w)) ∧
  E (.vdivx d a b pg ew z) (fun k => narrow w false (quotient w sat (x k) y)) ∧
  E (.vdivux d a b pg ew z) (fun k => if B = 0 then 2 ^ w - 1 else A k / B) ∧
  E (.vremx d a b pg ew z) (fun k => narrow w false (if y = 0 then x k else (x k).tmod y)) ∧
  E (.vremux d a b pg ew z) (fun k => if B = 0 then A k else A k % B) ∧
  E (.vminx d a b pg ew z) (fun k => narrow w false (min (x k) y)) ∧
  E (.vmaxx d a b pg ew z) (fun k => narrow w false (max (x k) y)) ∧
  E (.vminux d a b pg ew z) (fun k => min (A k) B) ∧
  E (.vmaxux d a b pg ew z) (fun k => max (A k) B))

/-- R251-R254 and R259: the bitwise and counting instructions, moves and splats, which act on bits at every element kind; and
the immediate forms, whose signed immediate is an integer of the element width.
R262 and R254: shifts, rotation, fields and funnel shifts of elements. Counts are taken modulo the width; a field that
passes the top of the element is cut there. -/
def Obligations.VectorBits : Prop :=
  (
  ∀ (s : State) (d a b : VIdx) (c : XIdx) (m : BitVec 5) (pg : PIdx) (ew : EW) (z : Bool),
  fits s ew →
  let w := ew.bits
  let sat := s.hart.mfc.getLsbD 7
  let A := fun k => elemN (vreg s a) w k
  let B := fun k => elemN (vreg s b) w k
  let C := (xreg s c).toNat % 2 ^ w
  let M := narrow w false m.toInt
  let E := fun (i : Instr) (f : Nat → Nat) => Elementwise i s d pg ew z f
  E (.vand d a b pg ew z) (fun k => A k &&& B k) ∧ E (.vor d a b pg ew z) (fun k => A k ||| B k) ∧
  E (.vxor d a b pg ew z) (fun k => A k ^^^ B k) ∧ E (.vandx d a c pg ew z) (fun k => A k &&& C) ∧
  E (.vorx d a c pg ew z) (fun k => A k ||| C) ∧ E (.vxorx d a c pg ew z) (fun k => A k ^^^ C) ∧
  E (.vandi d a m pg ew z) (fun k => A k &&& M) ∧ E (.vori d a m pg ew z) (fun k => A k ||| M) ∧
  E (.vxori d a m pg ew z) (fun k => A k ^^^ M) ∧ E (.vnot d a pg ew z) (fun k => 2 ^ w - 1 - A k) ∧
  E (.vclz d a pg ew z) (fun k => w - Nat.size (A k)) ∧
  E (.vctz d a pg ew z) (fun k => if A k = 0 then w else padicValNat 2 (A k)) ∧
  E (.vpopc d a pg ew z) (fun k => ((List.range w).filter fun i => (A k).testBit i).length) ∧
  E (.vmv d a pg ew z) A ∧ E (.vsplat d c pg ew z) (fun _ => C) ∧ E (.vsplati d m pg ew z) (fun _ => M) ∧
  (integers s → E (.vaddi d a m pg ew z) (fun k => narrow w sat (sx w (A k) + m.toInt)) ∧
    E (.vrsubi d a m pg ew z) (fun k => narrow w sat (m.toInt - sx w (A k))) ∧
    E (.vmini d a m pg ew z) (fun k => narrow w false (min (sx w (A k)) m.toInt)) ∧
    E (.vmaxi d a m pg ew z) (fun k => narrow w false (max (sx w (A k)) m.toInt)))) ∧
  (
  ∀ (s : State) (d a b : VIdx) (m : BitVec 5) (pg : PIdx) (ew : EW) (z : Bool),
  fits s ew →
  let w := ew.bits
  let O := fun k => elemN (vreg s d) w k
  let A := fun k => elemN (vreg s a) w k
  let n := fun k => elemN (vreg s b) w k % w
  let len := fun k => min (elemN (vreg s b) w k / w % w + 1) (w - n k)
  let E := fun (i : Instr) (f : Nat → Nat) => Elementwise i s d pg ew z f
  E (.vsll d a b pg ew z) (fun k => A k * 2 ^ n k) ∧ E (.vsrl d a b pg ew z) (fun k => A k / 2 ^ n k) ∧
  E (.vsra d a b pg ew z) (fun k => narrow w false (sx w (A k) / 2 ^ n k)) ∧
  E (.vrol d a b pg ew z) (fun k => A k * 2 ^ n k + A k / 2 ^ (w - n k)) ∧
  E (.vslli d a m pg ew z) (fun k => A k * 2 ^ (m.toNat % w)) ∧
  E (.vsrli d a m pg ew z) (fun k => A k / 2 ^ (m.toNat % w)) ∧
  E (.vsrai d a m pg ew z) (fun k => narrow w false (sx w (A k) / 2 ^ (m.toNat % w))) ∧
  E (.vbfxu d a b pg ew z) (fun k => A k / 2 ^ n k % 2 ^ len k) ∧
  E (.vbfx d a b pg ew z) (fun k => narrow w false (sx (len k) (A k / 2 ^ n k))) ∧
  E (.vbfi d a b pg ew z) (fun k => O k - O k / 2 ^ n k % 2 ^ len k * 2 ^ n k + A k % 2 ^ len k * 2 ^ n k) ∧
  E (.vfsl d a b pg ew z) (fun k => (O k * 2 ^ w + A k) * 2 ^ n k / 2 ^ w) ∧
  E (.vfsr d a b pg ew z) (fun k => (A k * 2 ^ w + O k) / 2 ^ n k))

/-- The floating minimum and maximum (R245): a NaN gives the canonical NaN, and −0 lies below +0. -/
def floatExtremes (f : Fmt) (w : Nat) (lo hi : Nat → Nat → Nat) : Prop :=
  let X := fun n => decodeExact f n
  let below := fun (m n : Nat) => (X m).lt (X n) = true ∨ ((X n).lt (X m) = false ∧ m.testBit (w - 1) = true)
  ∀ m n,
    ((X m).isNaN = true ∨ (X n).isNaN = true → lo m n = canonNaN f ∧ hi m n = canonNaN f) ∧
    ((X m).isNaN = false → (X n).isNaN = false → below m n → lo m n = m ∧ hi m n = n) ∧
    ((X m).isNaN = false → (X n).isNaN = false → ¬ below m n → lo m n = n ∧ hi m n = m)

/-- R245, R250-R253: the floating forms. Each operation is exact on the values of its operands and rounded once, in the word's
mode and saturation for `vadd` and `vsub`, else in MFC's. An infinite operand's result is not clamped.
Some of its clauses rest on readings of the model's own (log 20).
R245: the floating minimum and maximum. A NaN gives the canonical NaN, and −0 lies below +0. -/
def Obligations.VectorFloats : Prop :=
  (
  ∀ (s : State) (d a b : VIdx) (c : XIdx) (pg : PIdx) (ew : EW) (z : Bool) (f : Fmt),
  s.hart.kind ew = .flt f → fits s ew →
  let w := ew.bits
  let mode := mfcRound s.hart
  let msat := s.hart.mfc.getLsbD 7
  let V := fun (r : VIdx) (k : Nat) => decodeExact f (elemN (vreg s r) w k)
  let C := decodeExact f ((xreg s c).toNat % 2 ^ w)
  let R := fun (x : Exact) => roundFmt f x mode (msat && x.isFinite)
  let E := fun (i : Instr) (g : Nat → Nat) => Elementwise i s d pg ew z g
  (∀ (t : Bool) (r : Rnd), let Q := fun (x : Exact) => roundFmt f x r (t && x.isFinite)
    E (.vadd d a b pg ew t r z) (fun k => Q (Exact.add r (V a k) (V b k))) ∧
    E (.vsub d a b pg ew t r z) (fun k => Q (Exact.add r (V a k) (V b k).neg))) ∧
  E (.vmul d a b pg ew z) (fun k => R (Exact.mul (V a k) (V b k))) ∧
  E (.vdiv d a b pg ew z) (fun k => R (Exact.div (V a k) (V b k))) ∧
  E (.vmacc d a b pg ew z) (fun k => R (Exact.add mode (V d k) (Exact.mul (V a k) (V b k)))) ∧
  E (.vmsac d a b pg ew z) (fun k => R (Exact.add mode (V d k) (Exact.mul (V a k) (V b k)).neg)) ∧
  E (.vaddx d a c pg ew z) (fun k => R (Exact.add mode (V a k) C)) ∧
  E (.vsubx d a c pg ew z) (fun k => R (Exact.add mode (V a k) C.neg)) ∧
  E (.vrsubx d a c pg ew z) (fun k => R (Exact.add mode C (V a k).neg)) ∧
  E (.vmulx d a c pg ew z) (fun k => R (Exact.mul (V a k) C)) ∧
  E (.vdivx d a c pg ew z) (fun k => R (Exact.div (V a k) C)) ∧
  E (.vsqrt d a pg ew z) (fun k => R (V a k).sqrt) ∧
  E (.vneg d a pg ew z) (fun k =>
    if (V a k).isNaN then canonNaN f else elemN (vreg s a) w k ^^^ 2 ^ (w - 1)) ∧
  E (.vabs d a pg ew z) (fun k => if (V a k).isNaN then canonNaN f else elemN (vreg s a) w k % 2 ^ (w - 1))) ∧
  (
  ∀ (s : State) (d a b : VIdx) (c : XIdx) (pg : PIdx) (ew : EW) (z : Bool) (f : Fmt),
  s.hart.kind ew = .flt f → fits s ew →
  let w := ew.bits
  let A := fun k => elemN (vreg s a) w k
  ∀ lo hi, floatExtremes f w lo hi →
  let C := (xreg s c).toNat % 2 ^ w
  let E := fun (i : Instr) (g : Nat → Nat) => Elementwise i s d pg ew z g
  E (.vmin d a b pg ew z) (fun k => lo (A k) (elemN (vreg s b) w k)) ∧
  E (.vmax d a b pg ew z) (fun k => hi (A k) (elemN (vreg s b) w k)) ∧
  E (.vminx d a c pg ew z) (fun k => lo (A k) C) ∧ E (.vmaxx d a c pg ew z) (fun k => hi (A k) C))

/-- R240-R243 and Table 16.5: an element kind that an instruction's class does not admit is an illegal instruction; a whole
instruction with VSTART other than 0 is an illegal operand; and so are, with EVAL = VL, VL elements that no register holds. That this is met before a destination that is
its own source is the model's own choice (log 20).
Every instruction of each class is named. Compares are those of R255. Nothing is written. -/
def Obligations.VectorTraps : Prop := ∀ (s : State) (d a b : VIdx) (c x y : XIdx) (m : BitVec 5) (pd pa pb pg : PIdx) (ew : EW)
    (sat z : Bool) (rnd : Rnd),
  let bits : List Instr :=
    [.vand d a b pg ew z, .vor d a b pg ew z, .vxor d a b pg ew z, .vandx d a c pg ew z, .vorx d a c pg ew z,
     .vxorx d a c pg ew z, .vnot d a pg ew z, .vmv d a pg ew z, .vclz d a pg ew z, .vctz d a pg ew z, .vpopc d a pg ew z,
     .vsll d a b pg ew z, .vsrl d a b pg ew z, .vsra d a b pg ew z, .vrol d a b pg ew z, .vbfx d a b pg ew z,
     .vbfxu d a b pg ew z, .vbfi d a b pg ew z, .vfsl d a b pg ew z, .vfsr d a b pg ew z, .vandi d a m pg ew z,
     .vori d a m pg ew z, .vxori d a m pg ew z, .vslli d a m pg ew z, .vsrli d a m pg ew z, .vsrai d a m pg ew z,
     .vsplati d m pg ew z, .vsplat d c pg ew z]
  let wholeBits : List Instr :=
    [.pleadIncl pd pa pg ew, .pleadExcl pd pa pg ew, .ppopc x pa pg ew, .pfind x pa pg ew, .pset pd x ew,
     .vslideup d a c pg ew z, .vslidedn d a c pg ew z, .vrgather d a b pg ew z, .vcompress d a pg ew z, .viota d pg ew z,
     .vmvx x a c ew, .vins d c y ew, .vredand x a c pg ew, .vredor x a c pg ew, .vredxor x a c pg ew]
  let logic : List Instr := [.pand pd pa pb, .por pd pa pb, .pxor pd pa pb, .pandn pd pa pb, .pnot pd pa]
  let int : List Instr :=
    [.vmulh d a b pg ew z, .vmulhu d a b pg ew z, .vdivu d a b pg ew z, .vrem d a b pg ew z, .vremu d a b pg ew z,
     .vminu d a b pg ew z, .vmaxu d a b pg ew z, .vavg d a b pg ew z, .vabsd d a b pg ew z, .vmulhx d a c pg ew z,
     .vdivux d a c pg ew z, .vremx d a c pg ew z, .vremux d a c pg ew z, .vminux d a c pg ew z, .vmaxux d a c pg ew z,
     .vaddi d a m pg ew z, .vrsubi d a m pg ew z, .vmini d a m pg ew z, .vmaxi d a m pg ew z]
  let wholeInt : List Instr := [.vredminu x a c pg ew, .vredmaxu x a c pg ew]
  let either : List Instr :=
    [.vadd d a b pg ew sat rnd z, .vsub d a b pg ew sat rnd z, .vmul d a b pg ew z, .vdiv d a b pg ew z, .vmin d a b pg ew z,
     .vmax d a b pg ew z, .vaddx d a c pg ew z, .vsubx d a c pg ew z, .vrsubx d a c pg ew z, .vmulx d a c pg ew z,
     .vdivx d a c pg ew z, .vminx d a c pg ew z, .vmaxx d a c pg ew z, .vmacc d a b pg ew z, .vmsac d a b pg ew z,
     .vneg d a pg ew z, .vabs d a pg ew z]
  let wholeEither : List Instr :=
    [.vredsum x a c pg ew, .vredmin x a c pg ew, .vredmax x a c pg ew, .vscansum d a pg ew z, .vscanmin d a pg ew z,
     .vscanmax d a pg ew z]
  let floats : List Instr := [.vsqrt d a pg ew z]
  let kind := s.hart.kind ew
  let admits := fun (is : List Instr) (ok : Prop) => ∀ i ∈ is, ¬ ok → Illegal i s
  let starts := fun (is : List Instr) (ok : Prop) => ∀ i ∈ is, ok → s.hart.vstart ≠ 0 → BadOperand i s
  let holds := fun (is : List Instr) (ok : Prop) => ∀ i ∈ is, ok → ¬ fits s ew → Traps i s 0x02 (s.hart.vl.setWidth 64)
  let zero := s.hart.vstart = 0
  let float := ∃ f, kind = .flt f
  (integers s ↔ kind = .int) ∧
  admits (int ++ wholeInt) (kind = .int) ∧ admits (either ++ wholeEither) (kind = .int ∨ float) ∧ admits floats float ∧
  starts (logic ++ wholeBits) True ∧ starts wholeInt (kind = .int) ∧ starts wholeEither (kind = .int ∨ float) ∧
  holds bits True ∧ holds wholeBits zero ∧ holds int (kind = .int) ∧ holds wholeInt (kind = .int ∧ zero) ∧
  holds either (kind = .int ∨ float) ∧ holds wholeEither ((kind = .int ∨ float) ∧ zero) ∧ holds floats float

/-! ## Predicates, permutes, reductions and conversions -/

/-- The truth of a comparison of two elements (R255): of floating elements, any with a NaN is false but `ne`. -/
def comparison (c : Cond) (k : Kind) (w a b : Nat) : Prop :=
  match k, c with
  | .int, .eq => a = b
  | .int, .ne => a ≠ b
  | .int, .lt => sx w a < sx w b
  | .int, .le => sx w a ≤ sx w b
  | .int, .gt => sx w b < sx w a
  | .int, .ltu => a < b
  | .int, .leu => a ≤ b
  | .int, .gtu => b < a
  | .flt f, .eq => (decodeExact f a).eq (decodeExact f b) = true
  | .flt f, .ne => (decodeExact f a).eq (decodeExact f b) = false
  | .flt f, .lt => (decodeExact f a).lt (decodeExact f b) = true
  | .flt f, .le => (decodeExact f a).lt (decodeExact f b) = true ∨ (decodeExact f a).eq (decodeExact f b) = true
  | .flt f, .gt => (decodeExact f b).lt (decodeExact f a) = true
  | .flt _, .ltu => False
  | .flt _, .leu => False
  | .flt _, .gtu => False
  | .none, _ => False

/-- R255 with R242 and R247: a compare writes one predicate. Bits of an active element in [VSTART, VL) are the comparison;
an inactive one's are kept or cleared; bits at and above element VL are cleared, whatever VSTART is, as of the model's own
choice (log 20). Unsigned comparisons admit integers only.
R256-R258 with R243: predicate logic over all bits, leading runs, counts, the first set element and `pset`. They are whole
instructions: VSTART other than 0 is an illegal operand of every one. -/
def Obligations.ComparesAndPredicates : Prop :=
  (
  ∀ (s : State) (c : Cond) (d pg : PIdx) (a b : VIdx) (x : XIdx) (ew : EW) (z : Bool),
  let h := s.hart
  let w := ew.bits
  let k := h.kind ew
  let A := fun n => elemN (vreg s a) w n
  let Bits := fun (v : PReg) (B : Nat → Nat) => ∀ j, j < 128 →
    let n := j / (w / 8)
    (h.vl.toNat ≤ n → v.getLsbD j = false) ∧
    (n < h.vl.toNat → n < h.vstart.toNat → v.getLsbD j = (preg s d).getLsbD j) ∧
    (n < h.vl.toNat → h.vstart.toNat ≤ n → h.active pg w n = true → (v.getLsbD j = true ↔ comparison c k w (A n) (B n))) ∧
    (n < h.vl.toNat → h.vstart.toNat ≤ n → h.active pg w n = false → v.getLsbD j = (!z && (preg s d).getLsbD j))
  let admitted := k ≠ .none ∧ (c = .ltu ∨ c = .leu ∨ c = .gtu → k = .int)
  (¬ admitted → Illegal (.vcmpVv c d a b pg ew z) s ∧ Illegal (.vcmpVx c d a x pg ew z) s) ∧
  (admitted → ¬ fits s ew → Traps (.vcmpVv c d a b pg ew z) s 0x02 (h.vl.setWidth 64) ∧
    Traps (.vcmpVx c d a x pg ew z) s 0x02 (h.vl.setWidth 64)) ∧
  (admitted → fits s ew →
    (∃ v, GivesP (.vcmpVv c d a b pg ew z) s d v ∧ Bits v fun n => elemN (vreg s b) w n) ∧
    ∃ v, GivesP (.vcmpVx c d a x pg ew z) s d v ∧ Bits v fun _ => (xreg s x).toNat % 2 ^ w)) ∧
  (
  ∀ (s : State) (d a b pg : PIdx) (x : XIdx) (ew : EW),
  let h := s.hart
  let w := ew.bits
  let vl := h.vl.toNat
  let A := preg s a
  let B := preg s b
  let gov := fun n => h.active pg w n
  let set := fun n => gov n && A.getLsbD (n * w / 8)
  let L := (List.range vl).filter set
  (h.vstart ≠ 0 → ∀ i ∈ ([.pand d a b, .por d a b, .pxor d a b, .pandn d a b, .pnot d a, .pleadIncl d a pg ew,
    .pleadExcl d a pg ew, .ppopc x a pg ew, .pfind x a pg ew, .pset d x ew] : List Instr), BadOperand i s) ∧
  (h.vstart = 0 →
    GivesP (.pand d a b) s d (A &&& B) ∧ GivesP (.por d a b) s d (A ||| B) ∧ GivesP (.pxor d a b) s d (A ^^^ B) ∧
    GivesP (.pandn d a b) s d (A &&& ~~~B) ∧ GivesP (.pnot d a) s d (~~~A)) ∧
  (h.vstart = 0 → fits s ew →
    GivesX (.ppopc x a pg ew) s x (BitVec.ofNat 64 L.length) ∧
    (L = [] → GivesX (.pfind x a pg ew) s x (BitVec.allOnes 64)) ∧
    (∀ n rest, L = n :: rest → GivesX (.pfind x a pg ew) s x (BitVec.ofNat 64 n)) ∧
    (∃ v, GivesP (.pleadIncl d a pg ew) s d v ∧ ∀ j, j < 128 → let n := j / (w / 8)
      v.getLsbD j = (decide (n < vl) && gov n && decide (∀ m, m < n → set m = false))) ∧
    (∃ v, GivesP (.pleadExcl d a pg ew) s d v ∧ ∀ j, j < 128 → let n := j / (w / 8)
      v.getLsbD j = (decide (n < vl) && gov n && decide (∀ m, m < n + 1 → set m = false))) ∧
    ∃ v, GivesP (.pset d x ew) s d v ∧ ∀ j, j < 128 → let n := j / (w / 8)
      v.getLsbD j = (decide (n < vl) && decide (n < (xreg s x).toNat))))

/-- R259 with R243: slides, gathers, compression, `viota`, and moves of one element. A slide or gather onto its own source is
an illegal operand. -/
def Obligations.Permutes : Prop := ∀ (s : State) (d a b : VIdx) (x y : XIdx) (pg : PIdx) (ew : EW) (z : Bool),
  s.hart.vstart = 0 → fits s ew →
  let h := s.hart
  let w := ew.bits
  let vl := h.vl.toNat
  let n := (xreg s x).toNat
  let A := fun k => elemN (vreg s a) w k
  let O := fun k => elemN (vreg s d) w k
  let act := fun k => h.active pg w k
  let L := (List.range vl).filter act
  let E := fun (i : Instr) (f : Nat → Nat) => Elementwise i s d pg ew z f
  (d = a → BadOperand (.vslideup d a x pg ew z) s ∧ BadOperand (.vslidedn d a x pg ew z) s ∧
    BadOperand (.vrgather d a b pg ew z) s ∧ BadOperand (.vcompress d a pg ew z) s) ∧
  (d = b → BadOperand (.vrgather d a b pg ew z) s) ∧
  (d ≠ a → E (.vslideup d a x pg ew z) (fun k => if n ≤ k then A (k - n) else O k)) ∧
  (d ≠ a → E (.vslidedn d a x pg ew z) (fun k => if k + n < vl then A (k + n) else 0)) ∧
  (d ≠ a → d ≠ b → E (.vrgather d a b pg ew z) (fun k =>
    if elemN (vreg s b) w k < vl then A (elemN (vreg s b) w k) else 0)) ∧
  E (.viota d pg ew z) (fun k => ((List.range k).filter act).length) ∧
  (d ≠ a → GivesV (.vcompress d a pg ew z) s d w (fun k =>
    if k < vl then (if k < L.length then A (L.getD k 0) else if z then 0 else O k) else O k)) ∧
  GivesV (.vins d x y ew) s d w (fun k =>
    if k = (xreg s y).toNat ∧ k < vl then n % 2 ^ w else O k) ∧
  (vl ≤ n → GivesX (.vmvx y a x ew) s y 0) ∧
  (n < vl → integers s → GivesX (.vmvx y a x ew) s y (BitVec.ofInt 64 (sx w (A n)))) ∧
  (n < vl → ¬ integers s → GivesX (.vmvx y a x ew) s y (BitVec.ofNat 64 (A n)))

/-- The tree of R199 over 2^n places, by halves: an absent half passes the other one on. -/
def pairTree (op : Nat → Nat → Nat) : Nat → (Nat → Option Nat) → Option Nat
  | 0, f => f 0
  | n + 1, f =>
    match pairTree op n f, pairTree op n (fun i => f (i + 2 ^ n)) with
    | none, v => v
    | some u, none => some u
    | some u, some v => some (op u v)

/-- A running combination of the active elements below a place, from left to right (R261). -/
def runningTo (op : Nat → Nat → Nat) (f : Nat → Nat) (act : Nat → Bool) : Nat → Option Nat
  | 0 => none
  | k + 1 =>
    if act k then
      match runningTo op f act k with
      | none => some (f k)
      | some u => some (op u (f k))
    else runningTo op f act k

/-- R199 and R260: reductions combine the active elements in the tree, then with the initial value. Integer results are
extended by their sign, unsigned extremes by zeros. VSTART other than 0 is an illegal operand (R243).
R261: each active element of a scan takes the combination of the active elements up to it. VSTART other than 0 is an
illegal operand (R243). -/
def Obligations.ReductionsAndScans : Prop :=
  (
  ∀ (s : State) (d : XIdx) (a : VIdx) (b : XIdx) (pg : PIdx) (ew : EW),
  (s.hart.vstart ≠ 0 →
    BadOperand (.vredand d a b pg ew) s ∧ BadOperand (.vredor d a b pg ew) s ∧ BadOperand (.vredxor d a b pg ew) s ∧
    (integers s ∨ (∃ g, s.hart.kind ew = .flt g) →
      BadOperand (.vredsum d a b pg ew) s ∧ BadOperand (.vredmin d a b pg ew) s ∧ BadOperand (.vredmax d a b pg ew) s) ∧
    (integers s → BadOperand (.vredminu d a b pg ew) s ∧ BadOperand (.vredmaxu d a b pg ew) s)) ∧
  (s.hart.vstart = 0 → fits s ew →
  let h := s.hart
  let w := ew.bits
  let sat := h.mfc.getLsbD 7
  let init := (xreg s b).toNat % 2 ^ w
  let f := fun k => if k < h.vl.toNat ∧ h.active pg w k = true then some (elemN (vreg s a) w k) else none
  let total := fun (op : Nat → Nat → Nat) => match pairTree op 7 f with | none => init | some x => op init x
  let S := fun (i : Instr) (op : Nat → Nat → Nat) => GivesX i s d (BitVec.ofInt 64 (sx w (total op)))
  let U := fun (i : Instr) (op : Nat → Nat → Nat) => GivesX i s d (BitVec.ofNat 64 (total op))
  (integers s →
    S (.vredsum d a b pg ew) (fun x y => narrow w sat (sx w x + sx w y)) ∧
    S (.vredmin d a b pg ew) (fun x y => narrow w false (min (sx w x) (sx w y))) ∧
    S (.vredmax d a b pg ew) (fun x y => narrow w false (max (sx w x) (sx w y))) ∧
    U (.vredminu d a b pg ew) min ∧ U (.vredmaxu d a b pg ew) max ∧
    S (.vredand d a b pg ew) (· &&& ·) ∧ S (.vredor d a b pg ew) (· ||| ·) ∧ S (.vredxor d a b pg ew) (· ^^^ ·)) ∧
  (¬ integers s →
    U (.vredand d a b pg ew) (· &&& ·) ∧ U (.vredor d a b pg ew) (· ||| ·) ∧ U (.vredxor d a b pg ew) (· ^^^ ·)) ∧
  (∀ g, h.kind ew = .flt g → U (.vredsum d a b pg ew) (fun x y =>
    let e := Exact.add (mfcRound h) (decodeExact g x) (decodeExact g y)
    roundFmt g e (mfcRound h) (sat && e.isFinite)) ∧
    ∀ lo hi, floatExtremes g w lo hi → U (.vredmin d a b pg ew) lo ∧ U (.vredmax d a b pg ew) hi))) ∧
  (
  ∀ (s : State) (d a : VIdx) (pg : PIdx) (ew : EW) (z : Bool),
  (s.hart.vstart ≠ 0 → integers s ∨ (∃ g, s.hart.kind ew = .flt g) →
    BadOperand (.vscansum d a pg ew z) s ∧ BadOperand (.vscanmin d a pg ew z) s ∧ BadOperand (.vscanmax d a pg ew z) s) ∧
  (s.hart.vstart = 0 → fits s ew →
  let h := s.hart
  let w := ew.bits
  let sat := h.mfc.getLsbD 7
  let E := fun (i : Instr) (op : Nat → Nat → Nat) => Elementwise i s d pg ew z fun k =>
    (runningTo op (elemN (vreg s a) w) (h.active pg w) (k + 1)).getD 0
  (integers s →
    E (.vscansum d a pg ew z) (fun x y => narrow w sat (sx w x + sx w y)) ∧
    E (.vscanmin d a pg ew z) (fun x y => narrow w false (min (sx w x) (sx w y))) ∧
    E (.vscanmax d a pg ew z) (fun x y => narrow w false (max (sx w x) (sx w y)))) ∧
  ∀ g, h.kind ew = .flt g → E (.vscansum d a pg ew z) (fun x y =>
    let e := Exact.add (mfcRound h) (decodeExact g x) (decodeExact g y)
    roundFmt g e (mfcRound h) (sat && e.isFinite)) ∧
    ∀ lo hi, floatExtremes g w lo hi → E (.vscanmin d a pg ew z) lo ∧ E (.vscanmax d a pg ew z) hi))

/-- Registers of a group of VL elements of `w` bits (R265). -/
def groupOf (s : State) (w : Nat) : Nat := max 1 ((s.hart.vl.toNat * w + 1023) / 1024)

/-- A conversion writes elements lo … VL−1 of a destination group of `w`-bit elements and nothing else of the vector
registers. -/
def convertsTo (i : Instr) (s : State) (d : VIdx) (w lo : Nat) (dirty : Prop) (x : XIdx) (xv : Word) (f : Nat → Nat) :
    Prop :=
  ∃ t, exec i s = .next t ∧ SameOutside s t ∧ GoneOn s.hart t.hart ∧ t.hart.vstart = 0 ∧
    t.hart = { s.hart with
      x := t.hart.x, v := t.hart.v, dirtymap := t.hart.dirtymap, vstart := 0, pc := t.hart.pc, frames := t.hart.frames
      resume := t.hart.resume, mid := t.hart.mid, waits := t.hart.waits, phase := t.hart.phase } ∧
    OnlyX s.hart t.hart x xv ∧
    (∀ j, j < 32 → (t.hart.dirtymap.getLsbD j = true ↔
      s.hart.dirtymap.getLsbD j = true ∨ (dirty ∧ d.toNat ≤ j ∧ j < d.toNat + groupOf s w))) ∧
    (∀ r : VIdx, r.toNat < d.toNat ∨ d.toNat + groupOf s w ≤ r.toNat → vreg t r = vreg s r) ∧
    ∀ k, k < groupOf s w * (1024 / w) → groupElem t.hart d w k =
      if lo ≤ k ∧ k < s.hart.vl.toNat then f k % 2 ^ w else groupElem s.hart d w k

/-- Exponent bits, mantissa bits and bias of the floating-point formats (Table 12.2). -/
def floatFields : Fmt → Option (Nat × Nat × Int)
  | .f32 => some (8, 23, 127) | .bf16 => some (8, 7, 127) | .f16 => some (5, 10, 15) | .e4m3 => some (4, 3, 7)
  | .e5m2 => some (5, 2, 15) | .e2m1 => some (2, 1, 1)
  | .i8 => none | .ui8 => none | .i4 => none | .rns3 => none | .i16 => none | .i32 => none | .e8m0 => none

/-- The largest finite magnitude of a floating-point format, the encodings of that magnitude and of an overflow to infinity
(Table 12.6), and half the step at the top (Table 12.2). -/
noncomputable def floatTop : Fmt → Option (ℝ × Nat × Nat × ℝ)
  | .f32 => some ((2 - 2 ^ (-23 : ℤ)) * 2 ^ 127, 0x7F7FFFFF, 0x7F800000, 2 ^ 103)
  | .bf16 => some ((2 - 2 ^ (-7 : ℤ)) * 2 ^ 127, 0x7F7F, 0x7F80, 2 ^ 119)
  | .f16 => some (65504, 0x7BFF, 0x7C00, 16)
  | .e4m3 => some (448, 0x7E, 0x7F, 16)
  | .e5m2 => some (57344, 0x7B, 0x7C, 4096)
  | .e2m1 => some (6, 0x7, 0x7, 1)
  | .i8 => none | .ui8 => none | .i4 => none | .rns3 => none | .i16 => none | .i32 => none | .e8m0 => none

/-- Encoding `b` is a finite number of the format, with that sign and magnitude `v`. -/
def encodes (f : Fmt) (b : Nat) (neg : Bool) (v : ℝ) : Prop :=
  b < 2 ^ f.bits ∧ ∃ m e, decodeExact f b = .fin neg m e ∧ v = m * (2 : ℝ) ^ e

/-- The encoding `b` with the sign of a result; E4M3's canonical NaN has none (Table 12.6). -/
def withSign (f : Fmt) (b : Nat) (neg : Bool) : Nat := if neg ∧ ¬ (f = .e4m3 ∧ b = 0x7F) then b + 2 ^ (f.bits - 1) else b

/-- R187 and R188: `R` is a number of that sign and magnitude `V` rounded to a floating-point format: to nearest with ties to
even, or to the neighbour that a directed mode names, on a grid that keeps the subnormals; beyond the largest finite
magnitude, what the mode gives, mapped by Table 12.6. -/
def RoundsTo (f : Fmt) (r : Rnd) (sat neg : Bool) (V : ℝ) (R : Nat) : Prop :=
  let inward := r = .rtz ∨ (r = .rdn ∧ neg = false) ∨ (r = .rup ∧ neg = true)
  let outward := (r = .rdn ∧ neg = true) ∨ (r = .rup ∧ neg = false)
  ∀ top big inf half, floatTop f = some (top, big, inf, half) →
    (V ≤ top → ∃ v, encodes f R neg v ∧
      (r = .rne → ∀ b u, encodes f b neg u → |v - V| ≤ |u - V| ∧ (u ≠ v → |v - V| = |u - V| → R % 2 = 0)) ∧
      (inward → v ≤ V ∧ ∀ b u, encodes f b neg u → u ≤ V → u ≤ v) ∧
      (outward → V ≤ v ∧ ∀ b u, encodes f b neg u → V ≤ u → v ≤ u)) ∧
    (top < V →
      let fallsBack := r = .rne ∧ (V < top + half ∨ (V = top + half ∧ f = .e4m3))
      R = if sat = true ∨ inward ∨ fallsBack then withSign f big neg else withSign f inf neg)

/-- R177, R187-R190: the values of encodings; `round_fmt` gives the neighbour its mode names, the overflow of the mode, the
saturated value, and for integers the rounded value clamped to the range; NaNs and infinities become what Table 12.6 gives.
R187: sums and products of finite numbers are exact, with the sign of an exact zero that the rule gives; a quotient and a
square root round as the exact quotient and root do. Infinities and NaNs are those of IEEE 754. -/
def Obligations.RoundingAndExactness : Prop :=
  (
  ∀ (f : Fmt) (r : Rnd) (sat neg : Bool),
  (∀ eb mb B M E, floatFields f = some (eb, mb, B) → M < 2 ^ mb → E < 2 ^ eb →
    let x := decodeExact f ((if neg then 2 ^ (eb + mb) else 0) + E * 2 ^ mb + M)
    (E = 0 → x = .fin neg M (1 - B - mb)) ∧
    (0 < E → E + 1 < 2 ^ eb ∨ f = .e2m1 ∨ (f = .e4m3 ∧ M ≠ 7) → x = .fin neg (2 ^ mb + M) (E - B - mb)) ∧
    (E + 1 = 2 ^ eb → f ≠ .e2m1 → f ≠ .e4m3 → x = if M = 0 then .inf neg else .nan) ∧
    (E + 1 = 2 ^ eb → f = .e4m3 → M = 7 → x = .nan)) ∧
  (∀ (m : Nat) (e : ℤ), RoundsTo f r sat neg (m * (2 : ℝ) ^ e) (roundFmt f (.fin neg m e) r sat)) ∧
  (∀ top big inf half, floatTop f = some (top, big, inf, half) →
    roundFmt f .nan r sat = canonNaN f ∧ roundFmt f (.inf neg) r sat = withSign f (if sat then big else inf) neg) ∧
  (∀ lo hi : ℤ, (f = .i8 ∧ lo = -128 ∧ hi = 127) ∨ (f = .ui8 ∧ lo = 0 ∧ hi = 255) ∨ (f = .i4 ∧ lo = -8 ∧ hi = 7) ∨
      (f = .i16 ∧ lo = -32768 ∧ hi = 32767) ∨ (f = .i32 ∧ lo = -2147483648 ∧ hi = 2147483647) →
    decodeInt f (roundFmt f .nan r sat) = 0 ∧ decodeInt f (roundFmt f (.inf neg) r sat) = (if neg then lo else hi) ∧
    ∀ (m : Nat) (e : ℤ), let V : ℝ := (if neg then -1 else 1) * (m * (2 : ℝ) ^ e)
      ∃ n : ℤ, decodeInt f (roundFmt f (.fin neg m e) r sat) = max lo (min hi n) ∧
        (r = .rdn → n = ⌊V⌋) ∧ (r = .rup → n = ⌈V⌉) ∧ (r = .rtz → n = if neg then ⌈V⌉ else ⌊V⌋) ∧
        (r = .rne → |(n : ℝ) - V| ≤ 1 / 2 ∧ (|(n : ℝ) - V| = 1 / 2 → n % 2 = 0)))) ∧
  (
  ∀ (r : Rnd) (a b : Bool) (m n : Nat) (e f : ℤ),
  let V := fun (s : Bool) (k : Nat) (x : ℤ) => (if s then -1 else 1) * ((k : ℝ) * (2 : ℝ) ^ x)
  let x := Exact.fin a m e
  let y := Exact.fin b n f
  (∃ c k g, Exact.add r x y = .fin c k g ∧ V c k g = V a m e + V b n f ∧
    (k = 0 → c = if a = b ∧ m = 0 ∧ n = 0 then a else decide (r = .rdn))) ∧
  (∃ k g, Exact.mul x y = .fin (a != b) k g ∧ V (a != b) k g = V a m e * V b n f) ∧
  (∀ d sat, isFloat d = true → n ≠ 0 → ∃ k g, Exact.div x y = .fin (a != b) k g ∧
    RoundsTo d r sat (a != b) (m * (2 : ℝ) ^ e / (n * (2 : ℝ) ^ f)) (roundFmt d (Exact.div x y) r sat)) ∧
  (∀ d sat, isFloat d = true → a = false ∨ m = 0 → ∃ k g, Exact.sqrt x = .fin a k g ∧
    RoundsTo d r sat a (Real.sqrt (m * (2 : ℝ) ^ e)) (roundFmt d (Exact.sqrt x) r sat)) ∧
  (n = 0 → Exact.div x y = if m = 0 then .nan else .inf (a != b)) ∧
  (a = true → m ≠ 0 → Exact.sqrt x = .nan) ∧
  Exact.add r (.inf a) (.inf b) = (if a = b then .inf a else .nan) ∧ Exact.add r (.inf a) y = .inf a ∧
  Exact.add r x (.inf b) = .inf b ∧ Exact.mul (.inf a) (.inf b) = .inf (a != b) ∧
  Exact.mul (.inf a) y = (if n = 0 then .nan else .inf (a != b)) ∧
  Exact.mul x (.inf b) = (if m = 0 then .nan else .inf (a != b)) ∧ Exact.div (.inf a) (.inf b) = .nan ∧
  Exact.div (.inf a) y = .inf (a != b) ∧ (∃ g, Exact.div x (.inf b) = .fin (a != b) 0 g) ∧
  Exact.sqrt (.inf a) = (if a then .nan else .inf false) ∧
  ∀ z, Exact.add r .nan z = .nan ∧ Exact.add r z .nan = .nan ∧ Exact.mul .nan z = .nan ∧ Exact.mul z .nan = .nan ∧
    Exact.div .nan z = .nan ∧ Exact.div z .nan = .nan ∧ Exact.sqrt .nan = .nan)

/-- The value of a finite encoding as a rational number's magnitude. -/
def magnitude : Exact → ℚ
  | .fin _ m e => m * (2 : ℚ) ^ e
  | .nan => 0
  | .inf _ => 0

/-- R187: a value that a floating format holds is not changed by rounding to that format, in any mode: rounding the exact
value of an encoding gives the encoding again.
R183: reconstruction of a container gives the one value in the signed range that is congruent to its residues.
R263-R265: `vcvt` converts elements VSTART to VL−1 between formats, over register groups; groups that pass v31 or overlap
unequally, and VSTART at or above VL, are illegal operands.
Some of its clauses rest on readings of the model's own (log 20). -/
def Obligations.Conversions : Prop :=
  (
  ∀ (f : Fmt) (a : Nat) (r : Rnd) (sat neg : Bool) (m : Nat) (e : Int),
  (floatSpec f).isSome = true → a < 2 ^ f.bits → decodeExact f a = .fin neg m e → roundFmt f (decodeExact f a) r sat = a) ∧
  (
  ∀ x : Int, -8257920 ≤ x → x < 8257920 →
  rnsValue ((x % 256).toNat + 256 * (x % 255).toNat + 65536 * (x % 253).toNat) = x) ∧
  (
  ∀ (s : State) (dst src : Fmt) (d a : VIdx) (rnd : Rnd) (sat : Bool),
  let i := Instr.vcvt dst src d a rnd sat
  let vl := s.hart.vl.toNat
  let lo := s.hart.vstart.toNat
  let ns := groupOf s src.bits
  let nd := groupOf s dst.bits
  let S := fun k => groupElem s.hart a src.bits k
  let meet := a.toNat < d.toNat + nd ∧ d.toNat < a.toNat + ns ∧ ¬ (d = a ∧ nd = ns)
  let bad := 32 < a.toNat + ns ∨ 32 < d.toNat + nd ∨ meet ∨ (0 < vl ∧ vl ≤ lo)
  let C := fun (f : Nat → Nat) => convertsTo i s d dst.bits lo True 0 0 f
  cvtAdmits src dst = true →
  (bad → BadOperand i s) ∧
  (¬ bad → src = .rns3 → C fun k => (rnsValue (S k) % 2 ^ 32).toNat) ∧
  (¬ bad → dst = .rns3 → C fun k =>
    let x := decodeInt src (S k)
    (x % 256).toNat + 256 * (x % 255).toNat + 65536 * (x % 253).toNat) ∧
  (¬ bad → src = dst → C fun k => if isFloat src = true ∧ (decodeExact src (S k)).isNaN = true then canonNaN src else S k) ∧
  (¬ bad → src ≠ dst → src ≠ .rns3 → dst ≠ .rns3 → isFloat src = true ∨ isFloat dst = true →
    C fun k => roundFmt dst (decodeExact src (S k)) rnd sat) ∧
  (¬ bad → src ≠ dst → src ≠ .rns3 → dst ≠ .rns3 → isFloat src = false → isFloat dst = false → sat = false →
    C fun k => (decodeInt src (S k) % 2 ^ dst.bits).toNat) ∧
  (¬ bad → src ≠ dst → src ≠ .rns3 → dst ≠ .rns3 → isFloat src = false → isFloat dst = false → sat = true →
    (dst = .ui8 → C fun k => (max 0 (min 255 (decodeInt src (S k)))).toNat) ∧
    (dst ≠ .ui8 → C fun k => narrow dst.bits true (decodeInt src (S k)))))

/-- R191, R266 and R267: `vquant` scales each block of 32 elements by the smallest power of two that brings its largest
magnitude within the element format, and `vdquant` restores the values. VSTART other than 0, and groups that pass v31 or
overlap, are illegal operands. At VL = 0 DIRTYMAP and the source xb stay, as of the model's own choice (log 20). -/
def Obligations.Quantisation : Prop := ∀ (s : State) (dst src : Fmt) (d a : VIdx) (x : XIdx),
  mxWide src = true → mxFormat dst = true →
  let h := s.hart
  let vl := h.vl.toNat
  let fmax : ℚ := if dst = .e4m3 then 448 else if dst = .e5m2 then 57344 else if dst = .e2m1 then 6 else 127 / 64
  let bias : Int := if dst = .i8 then 6 else 0
  let bad := fun (p q : Fmt) => h.vstart ≠ 0 ∨ 32 < a.toNat + groupOf s p.bits ∨ 32 < d.toNat + groupOf s q.bits ∨
    (a.toNat < d.toNat + groupOf s q.bits ∧ d.toNat < a.toNat + groupOf s p.bits)
  let X := fun k => decodeExact src (groupElem h a src.bits k)
  (bad src dst → BadOperand (.vquant dst src d a x) s) ∧ (bad dst src → BadOperand (.vdquant src dst d a x) s) ∧
  (¬ bad src dst → ∃ w : Word,
    let scale := fun b => (w.extractLsb' (8 * b) 8).toNat
    convertsTo (.vquant dst src d a x) s d dst.bits 0 (0 < vl) x w (fun k =>
      if scale (k / 32) = 0xFF then 0
      else roundFmt dst ((X k).scale (127 - scale (k / 32) + bias)) .rne true) ∧
    (∀ j, 8 * ((vl + 31) / 32) ≤ j → w.getLsbD j = false) ∧
    ∀ b, b < (vl + 31) / 32 →
      let In := fun k => k / 32 = b ∧ k < vl
      ((∃ k, In k ∧ (X k).isFinite = false) → scale b = 0xFF) ∧
      ((∀ k, In k → (X k).isFinite = true ∧ magnitude (X k) = 0) → scale b = 0x7F) ∧
      ∀ t : Int, (∀ k, In k → (X k).isFinite = true ∧ magnitude (X k) ≤ fmax * 2 ^ t) →
        (∃ k, In k ∧ fmax * 2 ^ (t - 1) < magnitude (X k)) → (scale b : Int) = max (-127) (min 127 t) + 127) ∧
  (¬ bad dst src → convertsTo (.vdquant src dst d a x) s d src.bits 0 (0 < vl) 0 0 (fun k =>
    let e := ((xreg s x).extractLsb' (8 * (k / 32)) 8).toNat
    roundFmt src (if e = 0xFF then .nan else (decodeExact dst (groupElem h a dst.bits k)).scale (e - 127 - bias)) .rne false))

/-! ## Vector loads and stores -/

/-- A read of cluster `n` finds a way to a granule wherever it is (R14, R392). -/
def Ways (s : State) (n gran : Nat) : Prop := ∀ src, noWay s n gran src false = none

/-- Wherever a read of the acting core finds a granule, it finds a way there and takes it, with data `D`: the newest of its own
entries for a SELF page; otherwise every inbound copy and the home junction, or the buffer of a remote window's port. -/
def Settled (s : State) (gran : Nat) (self : Bool) (D : GData) : Prop :=
  let held := if self then selfEntry s (curCore s) gran else none
  (∀ e, held = some e → Takes s (me s) (curCluster s) e.g ∧ e.g.data = D) ∧
  (held = none → Ways s (curCluster s) gran) ∧
  (held = none → windowOf gran = 0 → Takes s (me s) (curCluster s) (junctionGranule s gran).1 ∧
    (junctionGranule s gran).1.data = D ∧
    ∀ c, (tget (coreAt s (curCore s)).i1 gran = some c ∨ tget (clusterAt s (curCluster s)).i2 gran = some c ∨
      tget s.i3 gran = some c) → TakesCopy s (me s) (curCluster s) c ∧ c.g.data = D) ∧
  (held = none → windowOf gran ≠ 0 → ∃ e, tget s.ports.buffer gran = some e ∧ Takes s (me s) (curCluster s) e.g ∧ e.g.data = D)

/-- The lane-store granule of an element (R281). -/
def laneKey (o : VMemOp) (h : Hart) (i : Nat) : Nat := 64 * (i * o.ew.bits / 64) + (o.va h i).toNat / 64

/-- The scratchpad granule of an offset, and the lane-store granule of a key, as the acting core holds them. -/
def spHeld (s : State) (off : Nat) : Granule := (spGranule (curCore s) (coreAt s (curCore s)) off).1
def laneHeld (s : State) (key : Nat) : Granule := (laneGranule (curCore s) (coreAt s (curCore s)) key).1

/-- A vector load or store passes the tests that come before translation. -/
def passesTests (s : State) (o : VMemOp) (store : Bool) : Prop :=
  let h := s.hart
  o.illegal h = false ∧ o.badOperand h store = false ∧ s.units = none ∧
  (∀ i ∈ o.elems h, (o.va h i).toNat % elemBytes (o.wm h) = 0) ∧
  (o.space = .sp → ∀ i ∈ o.elems h, (o.va h i).toNat < spSize (coreAt s (curCore s))) ∧
  (o.space = .ls → (h.xreg o.a).toNat % 8 = 0 ∧ (h.xreg o.a).toNat ≤ 4088)

/-- Every granule that a vector load reads can be read: `pa` and `self` are what its addresses translate to, `mem` the data of
the granules of memory. -/
def loadReady (s : State) (o : VMemOp) (pa : Word → Nat) (self : Nat → Bool) (mem : Nat → GData) : Prop :=
  let h := s.hart
  passesTests s o false ∧
  (∀ i ∈ o.elems h, ∀ t ∈ o.touch h i, Maps s t.va .read (pa t.va) (self (pa t.va / 64)) ∧
    ovfRange s (pa t.va / 64) = none ∧ Settled s (pa t.va / 64) (self (pa t.va / 64)) (mem (pa t.va / 64))) ∧
  (o.space = .sp → ∀ i ∈ o.elems h, (spLine (coreAt s (curCore s)) (o.va h i).toNat).full = true ∧
    (spHeld s (o.va h i).toNat).verifies = true) ∧
  (o.space = .ls → ∀ i ∈ o.elems h, (laneHeld s (laneKey o h i)).verifies = true)

/-- The value that a vector load gives element `i`: the bits at its address in its space, converted when CV asks for it, with
the scale byte of its block (R271-R273). -/
def loadedElem (s : State) (o : VMemOp) (pa : Word → Nat) (mem : Nat → GData) (i : Nat) : Nat :=
  let h := s.hart
  let va := o.va h i
  let data := match o.space with
    | .mem => mem (pa va / 64)
    | .sp => (spHeld s va.toNat).data
    | .ls => (laneHeld s (laneKey o h i)).data
  let b := o.field h i va.toNat
  let bits := (data.extractLsb' b.1 b.2).toNat
  let sv := scaleVa h (i / 32)
  match o.fmt h with
  | some f => cvLoad h o.ew f (if o.blocks h then some (granuleBytes (mem (pa sv / 64)) (sv.toNat % 64) 1) else none) bits
  | none => bits

/-- From `u`, a vector load gives its active elements their values; inactive elements, every other register and every byte of
memory are unchanged (R242, R274, R361). -/
def LoadsInto (i : Instr) (s u : State) (o : VMemOp) (value : Nat → Nat) : Prop :=
  ∃ t, exec i s = .next t ∧ ReadFrame u t ∧ GoneOn u.hart t.hart ∧ VFrame u.hart t.hart ∧ t.hart.vstart = 0 ∧
    (∀ r, r ≠ o.reg → t.hart.vreg r = u.hart.vreg r) ∧
    t.hart.dirtymap = (if o.elems u.hart = [] then u.hart.dirtymap else u.hart.dirtymap ||| (1 : BitVec 32) <<< o.reg.toNat) ∧
    ∀ k, k < 1024 / o.ew.bits → elemN (vreg t o.reg) o.ew.bits k = underR242 u o.reg o.pg o.ew.bits false value k

/-- A first attempt whose touches all translate or meet a page fault commits nothing: it traps for the first page that
faults, and no register and no byte of memory changes (R355, R356). `loc`: remote windows are not admitted (R27). -/
def ProbeFaults (i : Instr) (s : State) (a : Acc) (loc : Bool) (ts : List Touch) : Prop :=
  ∀ before t after cause kind wlev, ts = before ++ t :: after → s.hart.resume = false → s.hart.mid = false →
    (∀ u ∈ before, ∃ pa self, Maps s u.va a pa self ∧ (loc = true → windowOf (pa / 64) = 0)) →
    xlate s (hereTlb s) (curLaunch s) t.va a = .page cause kind wlev →
    (∀ u ∈ after, (∃ pa self, Maps s u.va a pa self) ∨ ∃ c k w, xlate s (hereTlb s) (curLaunch s) u.va a = .page c k w) →
    EntersHandler i s cause t.va

/-- R269-R274 and R276: vector loads from memory, the scratchpad and the lane store, in the three address forms, with and
without conversion and block scales.
R277: the fault-first load. Where no active element would fault it is the unit load; where the first would not and
element `e` is the first that would, VL becomes `e` and the elements below it are loaded; a misaligned first element traps.
Its word has ADDR = 11, so that a 4-bit format, and a block scale, are illegal operands (R270). -/
def Obligations.VectorLoads : Prop :=
  (
  ∀ (s : State) (d : VIdx) (a b : XIdx) (c : VIdx) (pg : PIdx) (ew : EW) (cv : Bool)
    (space : Space) (pa : Word → Nat) (self : Nat → Bool) (mem : Nat → GData),
  let G := fun (i : Instr) (m : Addr) =>
    let o : VMemOp := ⟨d, a, m, pg, ew, cv, space⟩
    let h := s.hart
    (loadReady s o pa self mem → LoadsInto i s s o (loadedElem s o pa mem)) ∧
    (o.illegal h = true → Illegal i s) ∧ (o.illegal h = false → o.badOperand h false = true → BadOperand i s) ∧
    (passesTests s o false → ProbeFaults i s .read false ((o.elems h).flatMap (o.touch h)))
  G (.vldUnit d a pg ew cv space) .unit ∧ G (.vldStrided d a b pg ew cv space) (.strided b) ∧
  G (.vldIndexed d a c pg ew cv space) (.indexed c)) ∧
  (
  ∀ (s : State) (d : VIdx) (a : XIdx) (pg : PIdx) (ew : EW) (cv : Bool)
    (pa : Word → Nat) (self : Nat → Bool) (mem : Nat → GData),
  let i := Instr.vldff d a pg ew cv
  let o : VMemOp := ⟨d, a, .first, pg, ew, cv, .mem⟩
  let h := s.hart
  (loadReady s o pa self mem → LoadsInto i s s o (loadedElem s o pa mem)) ∧
  (∀ e, e ∈ o.elems h → o.bad s e = true → (∃ j ∈ o.elems h, j < e) → (∀ j ∈ o.elems h, j < e → o.bad s j = false) →
    o.badOperand h false = false →
    let u := { s with hart := { s.hart with vl := BitVec.ofNat 8 e } }
    loadReady u o pa self mem → LoadsInto i s u o (loadedElem u o pa mem)) ∧
  (∀ f, (o.elems h).head? = some f → o.illegal h = false → o.badOperand h false = false →
    (o.va h f).toNat % elemBytes (o.wm h) ≠ 0 → Traps i s 0x03 (o.va h f)) ∧
  (o.illegal h = true → Illegal i s) ∧ (o.illegal h = false → o.badOperand h false = true → BadOperand i s) ∧
  (o.illegal h = false → cv = true → (o.wm h = 4 ∨ mfcBse h = true) → BadOperand i s))

/-- The last piece of a store that covers a bit of a granule (R275). -/
def lastCovering (ps : List Piece) (space : Space) (key b : Nat) : Option Piece :=
  (ps.filter fun q => q.space == space && q.key == key && decide (q.bit ≤ b ∧ b < q.bit + q.width)).getLast?

/-- A granule after a store: each bit is that of the last piece that covers it, and what it was where none does. -/
def Overlays (ps : List Piece) (space : Space) (key : Nat) (old new : GData) : Prop :=
  ∀ b, b < 512 → new.getLsbD b = match lastCovering ps space key b with
    | some q => q.val.testBit (b - q.bit)
    | none => old.getLsbD b

/-- A store covers every bit of a granule. -/
def coversWhole (ps : List Piece) (space : Space) (key : Nat) : Prop :=
  ∀ b, b < 512 → (lastCovering ps space key b).isSome = true

/-- What the pieces `ps` of a store leave in the acting core's local spaces: the granules they meet, and no others. -/
def LocalStored (s t : State) (ps : List Piece) : Prop :=
  (∀ p ∈ ps, p.space = .sp → (spLine (coreAt t (curCore s)) (64 * p.key)).full = true ∧
    (spHeld t (64 * p.key)) = mkGranule (spHeld t (64 * p.key)).data (curCore s) 1 (countsAt s (curCore s)).rcnt ∧
    Overlays ps .sp p.key (spHeld s (64 * p.key)).data (spHeld t (64 * p.key)).data) ∧
  (∀ off, off < spSize (coreAt s (curCore s)) → (∀ p ∈ ps, p.space = .sp → p.key ≠ off / 64) → spHeld t off = spHeld s off) ∧
  (∀ p ∈ ps, p.space = .ls → laneHeld t p.key = mkGranule (laneHeld t p.key).data (curCore s) 1 (countsAt s (curCore s)).rcnt ∧
    Overlays ps .ls p.key (laneHeld s p.key).data (laneHeld t p.key).data) ∧
  ∀ key, (∀ p ∈ ps, p.space = .ls → p.key ≠ key) → laneHeld t key = laneHeld s key

/-- Everything that a vector store needs, so that it runs to its end: it passes the tests; `pr` is what its addresses translate to;
no granule is of a commutative range; each is covered whole, is the core's own, or can be read, with data `mem`; there is room
in the outbound levels; and the line of a placeholder finds its way (R94). -/
def storeReady (s : State) (o : VMemOp) (pr : Probe) (mem : Nat → GData) : Prop :=
  let h := s.hart
  let core := curCore s
  let ps := o.pieces h pr
  let grans := (ps.filter fun p => p.space == .mem).map (·.key)
  passesTests s o true ∧ heldBy s = none ∧ (grans ≠ [] → HasRoom s grans.dedup.length) ∧
  (∀ x ∈ o.storeTouches h, ∃ pa self, pr.at x.va = some (pa, self) ∧ Maps s x.va .write pa self) ∧
  (o.space = .mem → ∀ i ∈ o.elems h, ∀ x, pr.at (o.va h i) = some x → rangeMeeting s x.1 (elemBytes (o.wm h)) = none) ∧
  (o.blocks h = true → ∀ k ∈ storeBlocks h, ∀ x, pr.at (scaleVa h k) = some x → rangeMeeting s x.1 1 = none) ∧
  (∀ p ∈ ps, ∀ q ∈ ps, p.meets q = true → p.self = q.self) ∧
  (∀ p ∈ ps, p.space = .mem → (∃ e, tget (coreAt s core).o1 p.key = some e) ∨ coversWhole ps .mem p.key ∨
    Settled s p.key p.self (mem p.key)) ∧
  (∀ p ∈ ps, p.space = .mem → p.self = false ∨ (∃ e, tget (coreAt s core).o1 p.key = some e ∧ e.held.isSome = true) →
    LineWay s (curCluster s) p.key) ∧
  (∀ p ∈ ps, p.space = .sp → (spLine (coreAt s core) (64 * p.key)).full = true ∧ (spHeld s (64 * p.key)).verifies = true) ∧
  ∀ p ∈ ps, p.space = .ls → (laneHeld s p.key).verifies = true

/-- R269-R273 and R275: vector stores to memory, the scratchpad and the lane store, in the three address forms. `pr` is
what the addresses translate to. Where two elements meet, the later one lasts; the other bits of each granule are as they
were; a granule of memory is formed by the core in its O1, where there is room for it, and enters the silhouette; every other
byte reads as before.
The LEVEL and RC of a granule of the lane store are the model's choice; some of its clauses rest on readings of the model's own
(log 22). -/
def Obligations.VectorStores : Prop := ∀ (s : State) (d : VIdx) (a b : XIdx) (c : VIdx) (pg : PIdx) (ew : EW) (cv : Bool)
    (space : Space) (pr : Probe) (mem : Nat → GData),
  let G := fun (i : Instr) (m : Addr) =>
    let o : VMemOp := ⟨d, a, m, pg, ew, cv, space⟩
    let h := s.hart
    let core := curCore s
    let ps := o.pieces h pr
    let rc := (countsAt s core).rcnt
    let grans := (ps.filter fun p => p.space == .mem).map (·.key)
    (storeReady s o pr mem →
      ∃ t, exec i s = .next t ∧ GoneOn s.hart t.hart ∧ LocalStored s t ps ∧
        t.hart = { s.hart with
          sil := grans.foldl silAdd s.hart.sil
          vstart := 0, pc := t.hart.pc, frames := t.hart.frames, resume := t.hart.resume, mid := t.hart.mid, waits := t.hart.waits
          phase := t.hart.phase } ∧
        t = { s with hart := t.hart, i3 := t.i3, cores := t.cores, clusters := t.clusters, disp := t.disp, tick := t.tick } ∧
        t.disp = { s.disp with seq := t.disp.seq } ∧
        (∀ p ∈ ps, p.space = .mem → ∃ e, tget (coreAt t core).o1 p.key = some e ∧ e.held = none ∧
          e.g = mkGranule e.g.data core (if p.self then 1 else 0) rc ∧
          Overlays ps .mem p.key (mergedInto s p.key p.self).data e.g.data) ∧
        ∀ n mine x, (∀ p ∈ ps, p.space = .mem → x / 64 ≠ p.key) → memByte t n mine x = memByte s n mine x) ∧
    (o.illegal h = true → Illegal i s) ∧ (o.illegal h = false → o.badOperand h true = true → BadOperand i s) ∧
    (passesTests s o true → ProbeFaults i s .write false (o.storeTouches h))
  G (.vstUnit d a pg ew cv space) .unit ∧ G (.vstStrided d a b pg ew cv space) (.strided b) ∧
  G (.vstIndexed d a c pg ew cv space) (.indexed c)

/-- R282 and R279: the lane store by index, and the full bits. Every active element's offset is tested before any acts.
The LEVEL and RC of a granule of the lane store are the model's choice (log 22). -/
def Obligations.LocalSpaces : Prop := ∀ (s : State) (d : VIdx) (a x : XIdx) (b : VIdx) (pg : PIdx) (ew : EW) (z : Bool),
  let h := s.hart
  let core := curCore s
  let els := h.actives pg ew.bits h.vstart.toNat h.vl.toNat
  let off := fun k => (laneVa h a b ew.bits k).toNat
  let key := fun k => 64 * (k * ew.bits / 64) + off k / 64
  let ps := els.map fun k => (⟨k, .ls, key k, 8 * (off k % 64), ew.bits, elemN (h.vreg d) ew.bits k, laneVa h a b ew.bits k,
    false⟩ : Piece)
  let L := Instr.vldl d a b pg ew z
  let S := Instr.vstl d a b pg ew
  let writes := fun (i : Instr) (full : Bool) => ∃ t, exec i s = .next t ∧ GoneOn s.hart t.hart ∧ CtlFrame s.hart t.hart ∧
    t = { s with hart := t.hart, cores := t.cores } ∧ (∀ c, coreAt t c = { coreAt s c with sp := (coreAt t c).sp }) ∧
    (∀ c, c ≠ core → (coreAt t c).sp = (coreAt s c).sp) ∧
    (spLine (coreAt t core) (xreg s x).toNat).full = full ∧ (∀ o, spHeld t o = spHeld s o) ∧
    ∀ o, spKey (coreAt s core) o ≠ spKey (coreAt s core) (xreg s x).toNat →
      (spLine (coreAt t core) o).full = (spLine (coreAt s core) o).full
  (s.units = none → fits s ew → (∀ k ∈ els, off k % ew.bytes = 0 ∧ off k + ew.bytes ≤ 4096) →
    (∀ k ∈ els, (laneHeld s (key k)).verifies = true) →
    (∃ t, exec L s = .next t ∧ SameOutside s t ∧ GoneOn s.hart t.hart ∧ VFrame s.hart t.hart ∧ t.hart.vstart = 0 ∧
      (∀ r, r ≠ d → t.hart.vreg r = s.hart.vreg r ∧ t.hart.dirtymap.getLsbD r.toNat = s.hart.dirtymap.getLsbD r.toNat) ∧
      ∀ k, k < 1024 / ew.bits → elemN (vreg t d) ew.bits k =
        underR242 s d pg ew.bits z (fun k => granuleBytes (laneHeld s (key k)).data (off k % 64) ew.bytes) k) ∧
    ∃ t, exec S s = .next t ∧ GoneOn s.hart t.hart ∧ LocalStored s t ps ∧ t = { s with hart := t.hart, cores := t.cores } ∧
      (∀ c, coreAt t c = { coreAt s c with ls := (coreAt t c).ls }) ∧
      t.hart = { s.hart with
        vstart := 0, pc := t.hart.pc, frames := t.hart.frames, resume := t.hart.resume, mid := t.hart.mid, waits := t.hart.waits
        phase := t.hart.phase }) ∧
  (¬ fits s ew → Traps L s 0x02 (h.vl.setWidth 64) ∧ Traps S s 0x02 (h.vl.setWidth 64)) ∧
  (∀ k, fits s ew → els.find? (fun k => off k % ew.bytes != 0) = some k →
    Traps L s 0x03 (laneVa h a b ew.bits k) ∧ Traps S s 0x03 (laneVa h a b ew.bits k)) ∧
  (∀ k, fits s ew → (∀ k ∈ els, off k % ew.bytes = 0) → els.find? (fun k => decide (off k + ew.bytes > 4096)) = some k →
    Traps L s 0x05 (laneVa h a b ew.bits k) ∧ Traps S s 0x05 (laneVa h a b ew.bits k)) ∧
  ((xreg s x).toNat < spSize (coreAt s core) → writes (.sfull x) true ∧ writes (.sempty x) false ∧
    GivesX (.sprobe a x) s a (if (spLine (coreAt s core) (xreg s x).toNat).full then 1 else 0)) ∧
  ((xreg s x).toNat ≥ spSize (coreAt s core) →
    Traps (.sfull x) s 0x05 (xreg s x) ∧ Traps (.sempty x) s 0x05 (xreg s x) ∧ Traps (.sprobe a x) s 0x05 (xreg s x))

/-! ## Operations of OP 0x2F -/

/-- The bytes of memory after the elements `els` of a vector atomic, one after another (R285). -/
def atomicBytes (n : Nat) (new : Nat → Nat → Nat) (pa y : Nat → Nat) : List Nat → (Nat → Byte) → Nat → Byte
  | [], m => m
  | k :: ks, m =>
    let v := new (littleEndian (fun i => m (pa k + i)) n) (y k)
    atomicBytes n new pa y ks fun a => if pa k ≤ a ∧ a < pa k + n then BitVec.ofNat 8 (v / 256 ^ (a - pa k)) else m a

/-- Every active element of a vector atomic of `n` bytes can act at its junction, and the junction slices have room. -/
def vamoReady (s : State) (n : Nat) (els : List Nat) (va : Nat → Word) (at_ : Nat → Nat) (self : Word → Bool) : Prop :=
  (∀ k ∈ els, (va k).toNat % n = 0 ∧ Maps s (va k) .rw (at_ k) (self (va k)) ∧ windowOf (at_ k / 64) = 0 ∧
    rangeMeeting s (at_ k) n = none ∧ notPending (withNr s) (at_ k / 64) ∧ FormWay (withNr s) (at_ k / 64) ∧ JunctionGood s (at_ k / 64)) ∧
  ∀ j, (s.o3.filter fun x => junctionOf s x.1 == j).length + els.length ≤ o3Room

/-- R285 with R138 and Table 17.6: a vector atomic acts on its active elements in ascending order, each at the junction of its
address; an element's old value, or zero or the old register value for an inactive one, reaches vd; every granule it does
not meet is as it was.
Some of its clauses rest on readings of the model's own (log 13). -/
def Obligations.VectorAtomics : Prop := ∀ (s : State) (d : VIdx) (a : XIdx) (b : VIdx) (pg : PIdx) (dbl z : Bool)
    (pa : Word → Nat) (self : Word → Bool),
  let h := s.hart
  let w := if dbl then 64 else 32
  let n := w / 8
  let m := 2 ^ w
  let els := h.actives pg w h.vstart.toNat h.vl.toNat
  let va := fun k => indexVa h a b w k
  let at_ := fun k => pa (va k)
  let y := fun k => elemN (h.vreg d) w k
  let u := withNr s
  let int := fun (x : Nat) => if x < m / 2 then (x : Int) else x - m
  let G := fun (i : Instr) (new : Nat → Nat → Nat) =>
    (h.vl.toNat * w > 1024 → BadOperand i s) ∧
    (h.vl.toNat * w ≤ 1024 →
      (∀ k, els.find? (fun k => (va k).toNat % n != 0) = some k → Traps i s 0x03 (va k)) ∧
      (s.units = none → vamoReady s n els va at_ self →
        ∃ t, exec i s = .next t ∧ GoneOn s.hart t.hart ∧ VFrame u.hart t.hart ∧ t.hart.vstart = 0 ∧
          t = { u with hart := t.hart, i3 := t.i3, o3 := t.o3, cores := t.cores, clusters := t.clusters, tick := t.tick } ∧
          (∀ c, clusterAt t c = { clusterAt u c with tlb := (clusterAt t c).tlb }) ∧
          (∀ c, coreAt t c = { coreAt u c with tlb := (coreAt t c).tlb }) ∧
          (∀ r, r ≠ d → t.hart.vreg r = s.hart.vreg r ∧ t.hart.dirtymap.getLsbD r.toNat = s.hart.dirtymap.getLsbD r.toNat) ∧
          (∀ k, k < 1024 / w → elemN (vreg t d) w k = underR242 s d pg w z (fun k =>
            littleEndian (fun i => atomicBytes n new at_ y (els.filter (· < k)) (homeByte s) (at_ k + i)) n) k) ∧
          (∀ k ∈ els, ∀ x, x / 64 = at_ k / 64 → homeByte t x = atomicBytes n new at_ y els (homeByte s) x) ∧
          (∀ k ∈ els, (junctionGranule t (at_ k / 64)).1 = mkGranule (junctionGranule t (at_ k / 64)).1.data
            (prodJunction (junctionOf s (at_ k / 64))) 3 0) ∧
          ∀ g, (∀ k ∈ els, at_ k / 64 ≠ g) → tget t.o3 g = tget s.o3 g))
  G (.vamoadd d a b pg dbl z) (fun x y => (x + y) % m) ∧ G (.vamomin d a b pg dbl z) (fun x y => if int x ≤ int y then x else y) ∧
  G (.vamomax d a b pg dbl z) (fun x y => if int x ≤ int y then y else x) ∧ G (.vamominu d a b pg dbl z) min ∧
  G (.vamomaxu d a b pg dbl z) max ∧ G (.vamoand d a b pg dbl z) (· &&& ·) ∧ G (.vamoor d a b pg dbl z) (· ||| ·) ∧
  G (.vamoxor d a b pg dbl z) (· ^^^ ·) ∧ G (.vamoswap d a b pg dbl z) (fun _ y => y)

/-- The contribution that an element makes to a range: an integer, or an FP32 value in units of 2^E (R145). -/
def contributes (c : Word) (w x : Nat) (v : Int) : Prop :=
  if crngFmt c = 2 then
    (decodeExact .f32 x).isFinite = true ∧ v = ((decodeExact .f32 x).scale (-(crngExp c))).toInt .rne ∧ -(2 : Int) ^ 63 ≤ v ∧
      v < 2 ^ 63
  else v = sx w x

/-- A contribution lies in a range: `r`, whose elements have the EW and lie at multiples of their size (R144, R286). -/
def inRange (s : State) (ew : EW) (pa r : Nat) : Prop :=
  let c := crngcOf s r
  rangeOf s pa = some r ∧ crngFmt c ≠ 3 ∧ ew.bits = (if crngFmt c = 0 ∨ crngFmt c = 2 then 32 else 64) ∧ pa % crngElem c = 0

/-- O2 has room for `m` contributions of the acting hart, held ones among them (R80, R146, Table 06.1). -/
def partialsFit (s : State) (m : Nat) : Prop :=
  o2Bytes s (curCluster s) + 8 * m ≤ o2Size ∧ (heldBy s = none ∨ heldBytes s (curCluster s) + 8 * m ≤ 2097152)

/-- R145, R146 and R286: `redst` enters one partial for each active element, in ascending order, and the granules in the
silhouette; nothing else in memory changes. What one partial does: it waits in the cluster, or joins the one of the same core,
step and element by the range's operation, a sum saturating at the width of the range's element. Outside every range and for an
EW that is not the range's it traps with 0x11, and for an address that is no multiple of the access or of the element's size
with 0x03.
Some of its clauses rest on readings of the model's own (log 13, 21 and 22). -/
def Obligations.Contributions : Prop := ∀ (s : State) (d : VIdx) (a : XIdx) (b : VIdx) (pg : PIdx) (ew : EW) (pa : Word → Nat)
    (self : Word → Bool) (r : Nat → Nat) (v : Nat → Int) (q : Partial) (x : Nat) (y : Int) (k : Nat),
  let h := s.hart
  let core := curCore s
  let i := Instr.redst d a b pg ew
  let els := h.actives pg ew.bits h.vstart.toNat h.vl.toNat
  let va := fun k => indexVa h a b ew.bits k
  let at_ := fun k => pa (va k)
  let c := fun k => crngcOf s (r k)
  let mapped := fits s ew ∧ ∀ k ∈ els, (va k).toNat % ew.bytes = 0 ∧ Maps s (va k) .rw (at_ k) (self (va k)) ∧
    windowOf (at_ k / 64) = 0
  let of := fun k => crngcOf s ((rangeOf s (at_ k)).getD 15)
  let outside := fun k => rangeOf s (at_ k) = none ∨ ew.bits ≠
    (if crngFmt (of k) = 0 ∨ crngFmt (of k) = 2 then 32 else if crngFmt (of k) = 1 then 64 else 0)
  let odd := fun k => at_ k % crngElem (of k) ≠ 0
  (s.units = none → mapped → partialsFit s els.length →
    (∀ k ∈ els, inRange s ew (at_ k) (r k) ∧ contributes (c k) ew.bits (elemN (h.vreg d) ew.bits k) (v k)) →
    ∃ t w, exec i s = .next t ∧ GoneOn s.hart t.hart ∧
      w = els.foldl (fun s k => enterPartial s core (at_ k) (r k) (v k)) s ∧
      t = { w with hart := t.hart, cores := t.cores, clusters := t.clusters } ∧
      (∀ c, clusterAt t c = { clusterAt w c with tlb := (clusterAt t c).tlb }) ∧
      (∀ c, coreAt t c = { coreAt w c with tlb := (coreAt t c).tlb }) ∧
      t.hart = { w.hart with
        sil := (els.map fun k => at_ k / 64).foldl silAdd s.hart.sil, vstart := 0, pc := t.hart.pc, frames := t.hart.frames
        resume := t.hart.resume, mid := t.hart.mid, waits := t.hart.waits, phase := t.hart.phase }) ∧
  (¬ fits s ew → BadOperand i s) ∧
  (∀ e, fits s ew → els.find? (fun e => (va e).toNat % ew.bytes != 0) = some e → Traps i s 0x03 (va e)) ∧
  (∀ e, mapped → els.find? (fun e => decide (outside e ∨ odd e)) = some e →
    (outside e → EntersHandler i s 0x11 (va e)) ∧ (¬ outside e → EntersHandler i s 0x03 (va e))) ∧
  (heldBy s = none →
    ((clusterAt s (clusterOfCore core)).partials.find? (fun p => p.pa == x && p.core == core && p.held == none) = none →
      enterPartial s core x k y = setCluster s (clusterOfCore core) { clusterAt s (clusterOfCore core) with
        partials := (clusterAt s (clusterOfCore core)).partials ++ [⟨x, k, y, core, none⟩] }) ∧
    ((clusterAt s (clusterOfCore core)).partials = [q] → q.pa = x → q.core = core → q.held = none →
      let lim := (2 : Int) ^ (8 * crngElem (crngcOf s k) - 1)
      let sum := q.val + y
      (clusterAt (enterPartial s core x k y) (clusterOfCore core)).partials = [{ q with
        val := if crngOp (crngcOf s k) = 1 then min q.val y else if crngOp (crngcOf s k) = 2 then max q.val y
          else if sum < -lim then -lim else if sum ≥ lim then lim - 1 else sum }] ∧
      (k < 16 → crngOp (crngcOf s k) ≠ 1 → crngOp (crngcOf s k) ≠ 2 → (sum < -lim ∨ sum ≥ lim) →
        crngOvf (crngcOf (enterPartial s core x k y) k) = true)))

/-- R329-R331 and R425: `gather` reads its active elements through the levels that its engine looks in; inactive elements below VL
are zeroed where it says so; p15 marks the active elements whose address an earlier one has; no byte of memory changes.
Some of its clauses rest on readings of the model's own (log 13 and 17). -/
def Obligations.Gathers : Prop := ∀ (s : State) (d : VIdx) (a : XIdx) (b : VIdx) (pg : PIdx) (dbl z : Bool) (pa : Word → Nat)
    (self : Word → Bool) (mem : Nat → GData),
  let h := s.hart
  let i := Instr.gather d a b pg dbl z
  let w := if dbl then 64 else 32
  let n := curCluster s
  let els := h.actives pg w h.vstart.toNat h.vl.toNat
  let va := fun k => indexVa h a b w k
  let takes := fun (g : Granule) (k : Nat) => Takes s (.cluster n) n g ∧ g.data = mem k
  (h.vl.toNat * w > 1024 → BadOperand i s) ∧
  (h.vl.toNat * w ≤ 1024 →
    (∀ k, els.find? (fun k => (va k).toNat % (w / 8) != 0) = some k → Traps i s 0x03 (va k)) ∧
    ((∀ k ∈ els, (va k).toNat % (w / 8) = 0) → ProbeFaults i s .read true (els.map fun k => ⟨k, va k⟩)) ∧
    ((∀ k ∈ els, let g := pa (va k) / 64
        (va k).toNat % (w / 8) = 0 ∧ Maps s (va k) .read (pa (va k)) (self (va k)) ∧ windowOf g = 0 ∧ ovfRange s g = none ∧
        Ways s n g ∧ takes (junctionGranule s g).1 g ∧
        ∀ c, (tget (clusterAt s n).i2 g = some c ∨ tget (clusterAt s (i3SliceOf g)).i2 g = some c ∨ tget s.i3 g = some c) →
          c.ph = false ∧ takes c.g g) →
      ∃ t, exec i s = .next t ∧ ReadFrame s t ∧ GoneOn s.hart t.hart ∧
        t.hart = { s.hart with
          v := t.hart.v, dirtymap := t.hart.dirtymap, p := t.hart.p, vstart := 0, pc := t.hart.pc, frames := t.hart.frames
          resume := t.hart.resume, mid := t.hart.mid, waits := t.hart.waits, phase := t.hart.phase } ∧
        (∀ r, r ≠ d → t.hart.vreg r = s.hart.vreg r ∧ t.hart.dirtymap.getLsbD r.toNat = s.hart.dirtymap.getLsbD r.toNat) ∧
        (∀ k, k < 1024 / w → elemN (vreg t d) w k =
          if k ∈ els then granuleBytes (mem (pa (va k) / 64)) (pa (va k) % 64) (w / 8)
          else if z = true ∧ k < h.vl.toNat ∧ h.active pg w k = false then 0 else elemN (h.vreg d) w k) ∧
        OnlyP s.hart t.hart 15 (t.hart.preg 15) ∧
        ∀ k, k < 1024 / w → pbit (t.hart.preg 15) k w = decide (k < h.vl.toNat ∧ h.active pg w k = true ∧
          ∃ j, j < k ∧ h.active pg w j = true ∧ va j = va k)))

/-! ## Instructions that stop inside (R276, R358-R360, R425) -/

/-- The state in which the same instruction has nothing to do from unit `u` on. -/
def shortened (s : State) (u : Nat) : State := { s with units := none, hart := { s.hart with vl := BitVec.ofNat 8 u } }

/-- The instruction stops at unit `u`: what it has done is what it would have done with `u` for VL; VSTART names the unit, and the
hart stands at the instruction (R360). With `waits` it waits there, which is no resume point; without, it is one (R425). -/
def StopsAt (i : Instr) (s : State) (u : Nat) (waits : Bool) : Prop :=
  ∀ w, exec i (shortened s u) = .next w → ∃ t, exec i s = .next t ∧
    t = { w with units := s.units, hart := t.hart, cores := t.cores, clusters := t.clusters } ∧
    (∀ c, coreAt t c = { coreAt w c with tlb := (coreAt t c).tlb }) ∧
    (∀ n, clusterAt t n = { clusterAt w n with tlb := (clusterAt t n).tlb }) ∧
    t.hart = { w.hart with
      vl := s.hart.vl, vstart := BitVec.ofNat 8 u, pc := s.hart.pc, frames := s.hart.frames, resume := s.hart.resume, mid := true
      waits := waits, phase := s.hart.phase } ∧
    t.hart.atResume = !waits

/-- The instruction traps at unit `u`: what is below is done as it would be with `u` for VL, VSTART names the unit, and the
entry is a resume point: RSM is 1 (R358, R360, R425). -/
def FaultsAt (i : Instr) (s : State) (u : Nat) (cause : BitVec 6) (val : Word) : Prop :=
  handled s → ∀ w, exec i (shortened s u) = .next w → ∃ t, exec i s = .next t ∧
    t.hart.pc = s.hart.tvec ∧ t.hart.epc = s.hart.pc ∧ t.hart.ecause = cause ∧ t.hart.eval = val ∧
    t.hart.tstat.lev = true ∧ t.hart.tstat.rsm = true ∧ t.hart.vstart = BitVec.ofNat 8 u ∧ t.hart.vl = s.hart.vl ∧
    t.hart.x = w.hart.x ∧ t.hart.v = w.hart.v ∧ t.hart.p = w.hart.p ∧ t.hart.dirtymap = w.hart.dirtymap ∧
    t.hart.sil = w.hart.sil ∧ SameMemory w t ∧
    (∀ c, (coreAt t c).sp = (coreAt w c).sp ∧ (coreAt t c).ls = (coreAt w c).ls) ∧
    ∀ n, (clusterAt t n).partials = (clusterAt w n).partials

/-- No commutative range is valid. -/
def rangesFree (s : State) : Prop := ∀ pa n, rangeMeeting s pa n = none

/-- The first of a list of touches that meets a page fault is `t`; the others translate or meet one too. -/
def firstFaulting (s : State) (a : Acc) (ts : List Touch) (t : Touch) (cause : BitVec 6) : Prop :=
  (∃ before after, ts = before ++ t :: after ∧ ∀ x ∈ before, ∃ pa self, Maps s x.va a pa self) ∧
  (∃ k w, xlate s (hereTlb s) (curLaunch s) t.va a = .page cause k w) ∧
  ∀ x ∈ ts, (∃ pa self, Maps s x.va a pa self) ∨ ∃ c k w, xlate s (hereTlb s) (curLaunch s) x.va a = .page c k w

/-- R276, R282, R285, R286 and R358-R360 with R425: where the divisible instructions stop inside. At an element boundary, or at
that of a block, the units below are done and none from there on; a resumed attempt goes on past faulting pages up to the first
unit that touches one; a load from an empty scratchpad line waits at its element; a contribution that has no value in its range
traps there. A first attempt that faults in its probe leaves VSTART and is a resume point, unless it is misaligned.
That a wait leaves the instruction past its probe is a reading of the model's own (log 22). -/
def Obligations.DividedAccesses : Prop := ∀ (s : State) (d : VIdx) (a b : XIdx) (c : VIdx) (pg : PIdx) (ew : EW) (cv dbl z : Bool)
    (space : Space) (pa : Word → Nat) (self : Nat → Bool) (sf : Word → Bool) (mem : Nat → GData) (pr : Probe) (k u : Nat) (t : Touch)
    (cause : BitVec 6) (r : Nat → Nat) (v : Nat → Int),
  let h := s.hart
  let whole := { s with units := none }
  let again := h.resume = true ∨ h.mid = true
  let first := fun (i : Instr) (rsm : Bool) => handled s → ∃ t, exec i s = .next t ∧ t.hart.pc = h.tvec ∧
    t.hart.vstart = h.vstart ∧ t.hart.tstat.rsm = rsm
  let loads := fun (i : Instr) (m : Addr) =>
    let o : VMemOp := ⟨d, a, m, pg, ew, cv, if m = .first then .mem else space⟩
    let ts := (o.elems h).flatMap (o.touch h)
    (s.units = some k → (o.elems h)[k]? = some u → loadReady whole o pa self mem → StopsAt i s u false) ∧
    (passesTests s o false → m ≠ .first → firstFaulting s .read ts t cause →
      (again → loadReady (shortened s t.unit) o pa self mem → FaultsAt i s t.unit cause t.va) ∧ (¬ again → first i true)) ∧
    (passesTests s o false → o.space = .sp → u ∈ o.elems h → (spLine (coreAt s (curCore s)) (o.va h u).toNat).full = false →
      (∀ x ∈ ts, ∃ pa self, Maps s x.va .read pa self) → loadReady (shortened s u) o pa self mem → StopsAt i s u true) ∧
    (m ≠ .first → o.space = .mem → o.illegal h = false → o.badOperand h false = false →
      (∃ e ∈ o.elems h, (o.va h e).toNat % elemBytes (o.wm h) ≠ 0) → first i false)
  let stores := fun (i : Instr) (m : Addr) =>
    let o : VMemOp := ⟨d, a, m, pg, ew, cv, space⟩
    let units := if o.blocks h then (storeBlocks h).map (32 * ·) else o.elems h
    (s.units = some k → units[k]? = some u → storeReady whole o pr mem → StopsAt i s u false) ∧
    (passesTests s o true → firstFaulting s .write (o.storeTouches h) t cause → rangesFree s →
      let e := if o.blocks h then t.unit / 32 * 32 else t.unit
      (again → storeReady (shortened s e) o pr mem → FaultsAt i s e cause t.va) ∧ (¬ again → first i true))
  let w := if dbl then 64 else 32
  let els := h.actives pg w h.vstart.toNat h.vl.toNat
  let atomic := fun (i : Instr) => s.units = some k → h.vl.toNat * w ≤ 1024 → u = h.vstart.toNat + k → u < h.vl.toNat →
    vamoReady s (w / 8) els (indexVa h a c w) (fun e => pa (indexVa h a c w e)) sf → StopsAt i s u false
  let lanes := h.actives pg ew.bits h.vstart.toNat h.vl.toNat
  let off := fun e => (laneVa h a c ew.bits e).toNat
  let lanesReady := fits s ew ∧ (∀ e ∈ lanes, off e % ew.bytes = 0 ∧ off e + ew.bytes ≤ 4096) ∧
    ∀ e ∈ lanes, (laneHeld s (64 * (e * ew.bits / 64) + off e / 64)).verifies = true
  let va := indexVa h a c ew.bits
  let given := fun e => inRange s ew (pa (va e)) (r e) ∧ contributes (crngcOf s (r e)) ew.bits (elemN (h.vreg d) ew.bits e) (v e)
  let mapped := fits s ew ∧ ∀ e ∈ lanes, (va e).toNat % ew.bytes = 0 ∧ Maps s (va e) .rw (pa (va e)) (sf (va e)) ∧
    windowOf (pa (va e) / 64) = 0 ∧ inRange s ew (pa (va e)) (r e)
  loads (.vldUnit d a pg ew cv space) .unit ∧ loads (.vldStrided d a b pg ew cv space) (.strided b) ∧
  loads (.vldIndexed d a c pg ew cv space) (.indexed c) ∧ loads (.vldff d a pg ew cv) .first ∧
  stores (.vstUnit d a pg ew cv space) .unit ∧ stores (.vstStrided d a b pg ew cv space) (.strided b) ∧
  stores (.vstIndexed d a c pg ew cv space) (.indexed c) ∧
  (s.units = some k → lanesReady →
    (u = h.vstart.toNat + k → u < h.vl.toNat → StopsAt (.vldl d a c pg ew z) s u false) ∧
    (lanes[k]? = some u → StopsAt (.vstl d a c pg ew) s u false)) ∧
  atomic (.vamoadd d a c pg dbl z) ∧ atomic (.vamomin d a c pg dbl z) ∧ atomic (.vamomax d a c pg dbl z) ∧
  atomic (.vamominu d a c pg dbl z) ∧ atomic (.vamomaxu d a c pg dbl z) ∧ atomic (.vamoand d a c pg dbl z) ∧
  atomic (.vamoor d a c pg dbl z) ∧ atomic (.vamoxor d a c pg dbl z) ∧ atomic (.vamoswap d a c pg dbl z) ∧
  (mapped → partialsFit s lanes.length →
    (s.units = some k → lanes[k]? = some u → (∀ e ∈ lanes, given e) → StopsAt (.redst d a c pg ew) s u false) ∧
    (s.units = none → u ∈ lanes → (∀ e ∈ lanes, e < u → given e) →
      contribution (crngcOf s (r u)) ew.bits (elemN (h.vreg d) ew.bits u) = none →
      FaultsAt (.redst d a c pg ew) s u 0x11 (va u)))

/-! ## The matrix unit -/

/-- R295, R296, R298, R299 and R391: tiles are granted as zeros, as many as asked for or as are free, none ahead of a request
that waits; a request that waits joins at the end, in order of arrival, and is granted when tiles are free; a unit out of
service grants none, and answers those that wait with 0. MVL is 16, 32, or 0 outside matrix mode.
Some of its clauses rest on readings of the model's own (log 24). -/
def Obligations.MatrixGrants : Prop := ∀ (s : State) (d a : XIdx) (wt : Bool) (slot want n : Nat) (rest : List (Nat × Nat × XIdx)),
  let m := (xreg s a).toNat
  let c := curCluster s
  let k := clusterAt s c
  let free := freeTiles s c
  let asked := 1 ≤ m ∧ m ≤ 8 ∧ s.hart.tiles = []
  let i := Instr.mattach d a wt
  let granted := fun (g : Nat) => ∃ t, exec i s = .next t ∧ t = { s with hart := t.hart, clusters := t.clusters } ∧
    (∀ n, clusterAt t n = { clusterAt s n with mwait := (clusterAt t n).mwait }) ∧ GoneOn s.hart t.hart ∧
    t.hart = { s.hart with x := t.hart.x, tiles := List.replicate g Tile.zero, pc := t.hart.pc, frames := t.hart.frames
                           resume := t.hart.resume, mid := t.hart.mid, waits := t.hart.waits, phase := t.hart.phase } ∧
    OnlyX s.hart t.hart d (BitVec.ofNat 64 g)
  let sets := fun (i : Instr) (tiles : List Tile) (v : BitVec 6) => ∃ t, exec i s = .next t ∧ SameOutside s t ∧
    GoneOn s.hart t.hart ∧ t.hart = { s.hart with tiles := tiles, mvl := v, pc := t.hart.pc, frames := t.hart.frames
                                                  resume := t.hart.resume, mid := t.hart.mid, waits := t.hart.waits, phase := t.hart.phase }
  (¬ asked → BadOperand i s) ∧
  (asked → inService s 1 c = true → wt = false → granted (if (clusterAt s c).mwait = [] then min m free else 0)) ∧
  (asked → inService s 1 c = true → wt = true → (clusterAt s c).mwait = [] → free ≠ 0 → granted (min m free)) ∧
  (asked → inService s 1 c = true → wt = true → (∀ w ∈ k.mwait, w.1 ≠ s.cur) → free = 0 ∨ k.mwait ≠ [] →
    exec i s = .next (waiting (setCluster s c { k with mwait := k.mwait ++ [(s.cur, m, d)] }))) ∧
  (asked → inService s 1 c = true → wt = true → (∃ w ∈ k.mwait, w.1 = s.cur) →
    (free = 0 ∨ (∀ w, k.mwait.head? = some w → w.1 ≠ s.cur) → Waits i s) ∧
    (free ≠ 0 → (∀ w, k.mwait.head? = some w → w.1 = s.cur) → granted (min m free))) ∧
  (asked → inService s 1 c = false → granted 0) ∧
  ((clusterAt s n).mwait = [] → Stays (.tileGrantWaiter n) s) ∧
  ((clusterAt s n).mwait = (slot, want, d) :: rest →
    let g := if inService s 1 n then min want (freeTiles s n) else 0
    (inService s 1 n = true → freeTiles s n = 0 → Stays (.tileGrantWaiter n) s) ∧
    (inService s 1 n = false ∨ freeTiles s n ≠ 0 → ∃ t, exec (.tileGrantWaiter n) s = .next t ∧ (clusterAt t n).mwait = rest ∧
      (hartAt t slot).tiles = List.replicate g Tile.zero ∧
      OnlyX (hartAt s slot) (hartAt t slot) d (BitVec.ofNat 64 g) ∧
      GoneOn (hartAt s slot) (hartAt t slot) ∧ ∀ k, k ≠ slot → hartAt t k = hartAt s k)) ∧
  sets .mdetach [] s.hart.mvl ∧ sets .mexit s.hart.tiles 0 ∧
  (m = 16 ∨ m = 32 → sets (.mmode a) s.hart.tiles (BitVec.ofNat 6 m)) ∧ (m ≠ 16 → m ≠ 32 → BadOperand (.mmode a) s)

/-- An instruction of the matrix unit completes and replaces one tile: element (i, j) of it reads `val` of the old tile. -/
def GivesTile (i : Instr) (s : State) (acc : BitVec 3) (frame : State → Prop) (ovf : Tile → Bool) (val : Tile → Nat → Nat → Nat) :
    Prop :=
  ∀ x, s.hart.tiles[acc.toNat]? = some x → ∃ t y, exec i s = .next t ∧ frame t ∧ GoneOn s.hart t.hart ∧
    t.hart = { s.hart with tiles := s.hart.tiles.set acc.toNat y, numst := s.hart.numst || ovf x, pc := t.hart.pc
                           frames := t.hart.frames, resume := t.hart.resume, mid := t.hart.mid, waits := t.hart.waits, phase := t.hart.phase } ∧
    ∀ i j, i < 32 → j < 32 → y.get i j = val x i j

/-- The traps of an instruction on a tile that the hart does not hold, or that VSTART stops (R207, R300). -/
def TileTraps (i : Instr) (s : State) (acc : BitVec 3) (legal operand : Bool) : Prop :=
  (legal = false → Illegal i s) ∧ (legal = true → operand = false → BadOperand i s) ∧
  (legal = true → operand = true → s.hart.tiles[acc.toNat]? = none → Traps i s 0x0B (acc.setWidth 64))

/-- A container after a product: the old container (none of it under Z) plus the products of the enabled pairs: an
exact sum rounded once to FP32; a sum modulo 2^32; or the residues modulo 256, 255 and 253 (R193-R197, R182). -/
def accumulated (f : Fmt) (z : Bool) (old : Nat) (pairs : List (Nat × Nat)) : Nat :=
  let ints := fun (g : Fmt) => (pairs.map fun ab => decodeInt g ab.1 * decodeInt g ab.2).foldl (· + ·) 0
  if pairs.isEmpty then (if z then 0 else old)
  else if f = .rns3 then
    let r := rnsResidues (if z then 0 else old)
    (((r.1 : Int) + ints .i8) % 256).toNat + 256 * (((r.2.1 : Int) + ints .i8) % 255).toNat +
      65536 * (((r.2.2 : Int) + ints .i8) % 253).toNat
  else if isFloat f then
    let terms := pairs.map fun ab => Exact.mul (decodeExact f ab.1) (decodeExact f ab.2)
    roundFmt .f32 (match (if z then terms else decodeExact .f32 old :: terms) with
      | t :: ts => ts.foldl (Exact.add .rne) t
      | [] => .fin false 0 0) .rne false
  else ofInt 32 ((if z then 0 else sx 32 old) + ints f)

/-- The container of (i, j) after a product of rows `ra` and `rb` of `n` bytes: enabled by PRC, and in 16 mode of one half. -/
def productOf (s : State) (f : Fmt) (z : Bool) (prc pk : PIdx) (n : Nat) (ra rb : Nat → Nat) (x : Tile) (i j : Nat) : Nat :=
  let p := preg s prc
  let k := preg s pk
  let w := if f = .rns3 then 8 else f.bits
  let pairs := ((List.range (8 * n / w)).filter fun t => k.getLsbD (t * w / 8)).map fun t =>
    (ra i / 2 ^ (w * t) % 2 ^ w, rb j / 2 ^ (w * t) % 2 ^ w)
  if p.getLsbD i && p.getLsbD (32 + j) && !(s.hart.mvl == 16 && i / 16 != j / 16) then accumulated f z (x.get i j) pairs
  else x.get i j

/-- The tile fetch unit of the acting cluster takes a granule wherever it finds it, with data `D` (R304, R305). -/
def TileSettled (s : State) (gran : Nat) (D : GData) : Prop :=
  let n := curCluster s
  let takes := fun (g : Granule) => Takes s (.cluster n) n g ∧ g.data = D
  windowOf gran = 0 ∧ ovfRange s gran = none ∧ Ways s n gran ∧ takes (junctionGranule s gran).1 ∧
  ∀ c, ((∃ e ∈ (clusterAt s n).stash, tget e.grans gran = some c) ∨ tget (clusterAt s n).i2 gran = some c ∨ tget s.i3 gran = some c) →
    c.ph = false ∧ takes c.g

/-- Byte `b` of row `r` of a descriptor: in the scratchpad window or in memory (R302). -/
def rowByte (s : State) (pa : Word → Nat) (mem : Nat → GData) (d : Word) (r b : Nat) : Byte :=
  if inWindow d then (spHeld s (windowOffset d r + b)).byte (windowOffset d r + b)
  else let x := pa (rowAddr d r + BitVec.ofNat 64 b); (mem (x / 64)).extractLsb' (8 * (x % 64)) 8

/-- The first `len` bytes of the enabled rows of a descriptor can be read. -/
def rowsReady (s : State) (pa : Word → Nat) (self : Word → Bool) (mem : Nat → GData) (d : Word) (len : Nat) (on : Nat → Bool) : Prop :=
  ∀ r b, r < 32 → on r = true → b < len →
    let o := windowOffset d r + b
    let va := rowAddr d r + BitVec.ofNat 64 b
    (inWindow d = true → o < spSize (coreAt s (curCore s)) ∧ (spLine (coreAt s (curCore s)) o).full = true ∧
      (spHeld s o).verifies = true) ∧
    (inWindow d = false → Maps s va .read (pa va) (self va) ∧ TileSettled s (pa va / 64) (mem (pa va / 64)))

/-- R302-R308, R311 and R193-R197: `mzero`, and the products from registers and from memory, in every format; `mmas`
spreads the bytes of a row of A to the positions that pK enables. A product uses one slot of the array for its core, which the
array's energy is charged by (R86, R315).
Some of its clauses rest on readings of the model's own (log 24). -/
def Obligations.MatrixProducts : Prop := ∀ (s : State) (acc : BitVec 3) (va vb : VIdx) (a b : XIdx) (prc pk : PIdx) (f : Fmt)
    (z : Bool) (pa : Word → Nat) (self : Word → Bool) (mem : Nat → GData),
  let h := s.hart
  let p := preg s prc
  let k := preg s pk
  let da := xreg s a
  let db := xreg s b
  let none_ := fun (_ : Tile) => false
  let rankFmt := f = .f32 ∨ matFormat f = true
  let mode := h.mvl ≠ 0
  let set := ((List.range 96).filter fun t => k.getLsbD t).length
  let rowOf := fun (d : Word) (r : Nat) => littleEndian (rowByte s pa mem d r) 96
  let spread := fun (r : Nat) => littleEndian (fun t =>
    if k.getLsbD t then rowByte s pa mem da r ((List.range t).filter fun u => k.getLsbD u).length else 0) 96
  let M := fun (i : Instr) (len : Nat) (ra : Nat → Nat) =>
    (matFormat f = true → mode → h.vstart = 0 → badPk f 96 k = false → (descBase da).toNat % 32 = 0 →
      (descBase db).toNat % 32 = 0 → rowsReady s pa self mem da len (fun r => p.getLsbD r) →
      rowsReady s pa self mem db 96 (fun r => p.getLsbD (32 + r)) →
      GivesTile i s acc (ReadFrame (useArray s)) none_ (productOf s f z prc pk 96 ra (rowOf db))) ∧
    TileTraps i s acc (h.mvl != 0 && matFormat f) (h.vstart == 0 && !badPk f 96 k) ∧
    (∀ x, matFormat f = true → mode → h.vstart = 0 → badPk f 96 k = false → h.tiles[acc.toNat]? = some x →
      ((descBase da).toNat % 32 ≠ 0 → Traps i s 0x03 (descBase da)) ∧
      ((descBase da).toNat % 32 = 0 → (descBase db).toNat % 32 ≠ 0 → Traps i s 0x03 (descBase db)))
  (h.vstart = 0 → GivesTile (.mzero acc) s acc (SameOutside s) none_ fun _ _ _ => 0) ∧
  TileTraps (.mzero acc) s acc true (h.vstart == 0) ∧
  (rankFmt → mode → h.vstart = 0 → badPk f 4 k = false →
    GivesTile (.mrank acc va vb prc pk f z) s acc (SameOutside (useArray s)) none_
      (productOf s f z prc pk 4 (elemN (vreg s va) 32) (elemN (vreg s vb) 32))) ∧
  TileTraps (.mrank acc va vb prc pk f z) s acc (h.mvl != 0 && (matFormat f || f == .f32)) (h.vstart == 0 && !badPk f 4 k) ∧
  M (.mma acc a b prc pk f z) 96 (rowOf da) ∧ M (.mmas acc a b prc pk f z) set spread

/-- What an engine of cluster `n` with producer id `prod` merges into, with data `D`: its own granule from O2 or
the home junction, or one that it takes from the inbound levels; and the line of the placeholder finds its way (R94, R165, R310). -/
def engineMerges (s : State) (n prod gran : Nat) (D : GData) : Prop :=
  windowOf gran = 0 ∧ Ways s n gran ∧ noWay s n gran 3 true = none ∧ LineWay s n gran ∧
  (∀ c, tget s.i3 gran = some c → c.ph = false ∧ c.pin = 0) ∧
  (presentProd s n gran none = prod →
    match tget (clusterAt s n).o2 gran with
    | some e => e.g.verifies = true ∧ e.g.data = D
    | none => JunctionGood s gran ∧ (junctionGranule s gran).1.data = D) ∧
  (presentProd s n gran none ≠ prod →
    (Takes s (.cluster n) n (junctionGranule s gran).1 ∧ (junctionGranule s gran).1.data = D) ∧
    ∀ c, (tget (clusterAt s n).i2 gran = some c ∨ tget s.i3 gran = some c) → c.ph = false ∧ Takes s (.cluster n) n c.g ∧ c.g.data = D)

/-- R309, R310 and R312: `mld` reads the enabled containers, an RNS3 container in canonical form; `mst` writes them from
VSTART's row on, each granule formed by the matrix unit in O2 with its other bytes kept, after every row that holds an enabled
element has been translated, and stops at a boundary of rows with the rows below written (R425); `mcvt` converts the whole tile, a
narrower result packed into the low containers of its row.
Some of its clauses rest on readings of the model's own (log 25). -/
def Obligations.MatrixMoves : Prop := ∀ (s : State) (acc : BitVec 3) (a : XIdx) (prc : PIdx) (f dst : Fmt) (rnd : Rnd) (sat : Bool)
    (pr : Probe) (pa : Word → Nat) (self : Word → Bool) (mem : Nat → GData) (x : Tile) (k u : Nat),
  let h := s.hart
  let p := preg s prc
  let d := xreg s a
  let n := curCluster s
  let canon := fun (c : Nat) => if f = .rns3 then c % 256 % 256 + 256 * (c / 256 % 256 % 255) + 65536 * (c / 65536 % 256 % 253)
    else c
  let on := fun i j => p.getLsbD i && p.getLsbD (32 + j)
  let moves := f = .f32 ∨ f = .i32 ∨ f = .rns3
  let cols := (List.range 32).filter fun j => p.getLsbD (32 + j)
  let all := (List.range 32).filter fun i => p.getLsbD i && !cols.isEmpty
  let rows := all.filter fun i => decide (h.vstart.toNat ≤ i)
  let at_ := fun i j => (pr.at (rowAddr d i + BitVec.ofNat 64 (4 * j))).getD (0, false)
  let psOf := fun (rows : List Nat) => rows.flatMap fun i => cols.map fun j => (⟨i, .mem, (at_ i j).1 / 64, 8 * ((at_ i j).1 % 64),
    32, canon (x.get i j), rowAddr d i + BitVec.ofNat 64 (4 * j), false⟩ : Piece)
  let ps := psOf rows
  let formed := fun (t : State) (ps : List Piece) =>
    t = { s with hart := t.hart, i3 := t.i3, cores := t.cores, clusters := t.clusters, disp := t.disp, tick := t.tick } ∧
    t.disp = { s.disp with seq := t.disp.seq } ∧
    t.hart = { s.hart with
      sil := (ps.map (·.key)).foldl silAdd s.hart.sil, vstart := t.hart.vstart, pc := t.hart.pc, frames := t.hart.frames
      resume := t.hart.resume, mid := t.hart.mid, waits := t.hart.waits, phase := t.hart.phase } ∧
    (∀ q ∈ ps, ∃ g, tget (clusterAt t n).o2 q.key = some g ∧ g.held = none ∧
      g.g = mkGranule g.g.data (prodMatrix n) 0 (countsAt s (prodMatrix n)).rcnt ∧ Overlays ps .mem q.key (mem q.key) g.g.data) ∧
    ∀ m mine b, (∀ q ∈ ps, b / 64 ≠ q.key) → memByte t m mine b = memByte s m mine b
  let e := (xreg s a).toInt
  let c := Instr.mcvt acc dst f a rnd sat
  let conv := fun (v : Nat) =>
    if f = .rns3 then ofInt 32 (((Exact.ofInt (rnsValue v)).scale e).toInt rnd)
    else if f = .i32 then roundFmt .f32 ((Exact.ofInt (sx 32 v)).scale e) rnd sat
    else roundFmt dst ((decodeExact .f32 v).scale e) rnd sat
  let ok := h.vstart = 0 ∧ (if f = .rns3 then -31 ≤ e ∧ e ≤ 8 else -128 ≤ e ∧ e ≤ 127)
  (moves → h.vstart = 0 → (descBase d).toNat % 32 = 0 →
    (∀ i j, i < 32 → j < 32 → on i j = true → let va := rowAddr d i + BitVec.ofNat 64 (4 * j)
      Maps s va .read (pa va) (self va) ∧ TileSettled s (pa va / 64) (mem (pa va / 64))) →
    GivesTile (.mld acc a prc f) s acc (ReadFrame s) (fun _ => false) fun x i j =>
      let b := pa (rowAddr d i + BitVec.ofNat 64 (4 * j))
      if on i j then canon (granuleBytes (mem (b / 64)) (b % 64) 4) else x.get i j) ∧
  TileTraps (.mld acc a prc f) s acc (moveFormat f) (h.vstart == 0) ∧
  (moves → h.vstart.toNat ≤ 31 → h.tiles[acc.toNat]? = some x → (descBase d).toNat % 32 = 0 → heldBy s = none →
    (∀ y ∈ (clusterAt s n).o2held, y.2.held.isSome = true) →
    (∀ i ∈ all, ∀ b, b < 128 → let va := rowAddr d i + BitVec.ofNat 64 b
      ∃ q self, pr.at va = some (q, self) ∧ Maps s va .write q self ∧ windowOf (q / 64) = 0) →
    (∀ q ∈ ps, rangeMeeting s (64 * q.key + q.bit / 8) 4 = none) →
    (∀ q ∈ ps, engineMerges s n (prodMatrix n) q.key (mem q.key)) → HasRoom s (ps.map (·.key)).dedup.length →
    (s.units = none → ∃ t, exec (.mst acc a prc f) s = .next t ∧ GoneOn s.hart t.hart ∧ t.hart.vstart = 0 ∧ formed t ps) ∧
    (s.units = some k → rows[k]? = some u → ∃ t, exec (.mst acc a prc f) s = .next t ∧ formed t (psOf (rows.take k)) ∧
      t.hart.vstart = BitVec.ofNat 8 u ∧ t.hart.pc = s.hart.pc ∧ t.hart.frames = s.hart.frames ∧ t.hart.mid = true ∧
      t.hart.waits = false ∧ t.hart.resume = s.hart.resume ∧ t.hart.phase = s.hart.phase ∧ t.hart.atResume = true)) ∧
  TileTraps (.mst acc a prc f) s acc (moveFormat f) (decide (h.vstart.toNat ≤ 31)) ∧
  ((f = .rns3 ∧ dst = .i32) ∨ (f = .i32 ∧ dst = .f32) → ok →
    GivesTile c s acc (SameOutside s) (fun x => f == .rns3 && tileIndices.any fun ij =>
      rnsGuard (rnsValue (x.get ij.1 ij.2)) != x.getGuard ij.1 ij.2) fun x i j => conv (x.get i j)) ∧
  (f = .f32 → (dst = .bf16 ∨ dst = .f16 ∨ dst = .e4m3 ∨ dst = .e5m2) → ok →
    GivesTile c s acc (SameOutside s) (fun _ => false) fun x i j =>
      let per := 32 / dst.bits
      ((List.range per).map fun m => if j * per + m < 32 then conv (x.get i (j * per + m)) * 2 ^ (dst.bits * m) else 0).foldl (· + ·) 0) ∧
  TileTraps c s acc (mcvtAdmits f dst) (h.vstart == 0 && mcvtRange f e)

/-! ## The copy sequencer -/

/-- R317, R319, R325 and R328: `cpset` writes one level of the nest; `cpgo` traps with the lowest code of Table 21.6 whose condition holds,
waits while 16 commands stand, and otherwise enqueues the command under the next q and answers its handle; `cpq` reads a
command's status.
Which of several codes EVAL holds is a reading of the model's own (log 25). -/
def Obligations.CopyInstructions : Prop := ∀ (s : State) (d a b : XIdx) (level : BitVec 4) (acq rls : Bool) (sc : Scope)
    (cv ef : Bool) (code : Nat),
  let h := s.hart
  let n := curCluster s
  let k := clusterAt s n
  let u := if rls then withNr s else s
  let q := if k.copyn = 2 ^ 32 - 1 then 1 else k.copyn + 1
  let c : CopyCmd := ⟨q, s.cur, h.steph.toNat, h.nest, h.cprun, h.cpres, h.cpcvt, xreg s a, xreg s b, acq, rls, sc, cv, ef, 0,
    false, 0, s.ir⟩
  let go := Instr.cpgo acq rls sc cv ef d a b
  let field := fun (lo n : Nat) => h.cpcvt.toNat / 2 ^ lo % 2 ^ n
  let space := fun (lo : Nat) => field lo 2
  let sfmt := Fmt.ofCode (BitVec.ofNat 4 (field 8 4))
  let dfmt := Fmt.ofCode (BitVec.ofNat 4 (field 12 4))
  let rfmt := Fmt.ofCode (BitVec.ofNat 4 (field 4 4))
  let width := fun (f : Option Fmt) => (f.map Fmt.bits).getD 8
  let ws := if cv then width sfmt else 8
  let wd := if cv then width dfmt else 8
  let wr := width rfmt
  let run := h.cprun.toNat
  let bd := run * 8 / ws * wd / 8
  let live := h.nest.toList.filter fun l => decide (2 ≤ l.n)
  let off := fun (base : Word) (strides : List Word) (m : Nat) => base.toNat % m ≠ 0 ∨ ∃ x ∈ strides, x.toNat % m ≠ 0
  let offS := off (xreg s a) (live.map (·.s))
  let offD := off (xreg s b) (live.map (·.d))
  let plain := [some Fmt.f32, some .bf16, some .f16, some .e4m3, some .e5m2, some .e2m1, some .i8, some .ui8, some .i4, some .i16,
    some .i32]
  let bad : Nat → Prop := fun code =>
    (code = 1 ∧ (run = 0 ∨ run > 4096)) ∨
    (code = 2 ∧ (space 16 = 3 ∨ space 18 = 3)) ∨
    (code = 3 ∧ ef = true ∧ (cv = false ∨ space 18 ≠ 0)) ∨
    (code = 4 ∧ ((cv = true ∧ ¬ (sfmt ∈ plain ∧ dfmt ∈ plain)) ∨
      (ef = true ∧ ¬ (sfmt ∈ [some .f32, some .bf16, some .f16] ∧ dfmt ∈ [some .bf16, some .f16, some .e4m3, some .e5m2, some .e2m1] ∧
        rfmt ∈ [some .f32, some .bf16, some .f16, some .e4m3, some .e5m2])))) ∨
    (code = 5 ∧ (run * 8 % ws ≠ 0 ∨ run * 8 / ws * wd % 8 ≠ 0 ∨ offS (max 1 (ws / 8)) ∨ offD (max 1 (wd / 8)))) ∨
    (code = 6 ∧ space 18 = 1 ∧ (offD 128 ∨ bd % 128 ≠ 0)) ∨
    (code = 7 ∧ ((space 16 = 2 ∧ (offS 8 ∨ run % 8 ≠ 0)) ∨ (space 18 = 2 ∧ (offD 8 ∨ bd % 8 ≠ 0)))) ∨
    (code = 8 ∧ ef = true ∧ (h.cpres.toNat % max 1 (wr / 8) ≠ 0 ∨ ∃ l ∈ live, l.d.toInt * wr % wd ≠ 0)) ∨
    (code = 9 ∧ h.nest.toList.foldl (fun t l => t * l.n) 1 > 2 ^ 48)
  let set := Instr.cpset d a b level
  let w := xreg s a
  let none_ : Word := 0x8000FFFFFFFFFFFF
  (level.toNat < 12 → (xreg s d).toNat < 2 ^ 32 → ∃ t, exec set s = .next t ∧ SameOutside s t ∧ GoneOn s.hart t.hart ∧
    t.hart = { s.hart with nest := t.hart.nest, pc := t.hart.pc, frames := t.hart.frames, resume := t.hart.resume
                           mid := t.hart.mid, waits := t.hart.waits, phase := t.hart.phase } ∧
    ∀ j, j < 12 → t.hart.nest.toList[j]? =
      if j = level.toNat then some ⟨(xreg s d).toNat, xreg s a, xreg s b⟩ else s.hart.nest.toList[j]?) ∧
  (level.toNat < 12 → 2 ^ 32 ≤ (xreg s d).toNat → BadOperand set s) ∧ (12 ≤ level.toNat → Illegal set s) ∧
  (bad code → (∀ m, m < code → ¬ bad m) → Traps go s 0x02 (BitVec.ofNat 64 code)) ∧
  ((∀ m, ¬ bad m) → 16 ≤ k.copyq.length → Waits go s) ∧
  ((∀ m, ¬ bad m) → k.copyq.length < 16 → ∃ t, exec go s = .next t ∧ t = { u with hart := t.hart, clusters := t.clusters } ∧
    (∀ m, m ≠ n → clusterAt t m = clusterAt u m) ∧
    clusterAt t n = { clusterAt u n with copyq := k.copyq ++ [c], copyn := q, copyst := (clusterAt t n).copyst } ∧
    tget (clusterAt t n).copyst q = some ⟨0, 0, 0⟩ ∧ GoneOn s.hart t.hart ∧ XFrame s.hart t.hart ∧
    OnlyX s.hart t.hart d (BitVec.ofNat 64 (n * 2 ^ 32 + q))) ∧
  (w = 0 → GivesX (.cpq d a) s d none_) ∧
  (w ≠ 0 → w.toNat / 2 ^ 32 ≠ n → Traps (.cpq d a) s 0x02 w) ∧
  (w ≠ 0 → w.toNat / 2 ^ 32 = n →
    GivesX (.cpq d a) s d (match tget k.copyst (w.toNat % 2 ^ 32) with
      | some st => BitVec.ofNat 64 (st.state.toNat * 2 ^ 62 + st.ecause.toNat * 2 ^ 48 + st.runs.toNat)
      | none => none_))

/-- Every part of a range of memory has a cached translation for an access of a launch, to `pa`, in HBM. -/
def cachedParts (s : State) (n launch : Nat) (a : Acc) (va : Word) (len : Nat) (pa : Word → Nat) : Prop :=
  ∀ x ∈ partsOf va len, (tlbFind (clusterAt s n).tlb launch x.1).isSome = true ∧
    (∃ self, xlate s (clusterTlb n) launch x.1 a = .ok (pa x.1) self) ∧ windowOf (pa x.1 / 64) = 0

/-- The granule that the sequencer finds at a source address (R321), and whether it takes it: visible, and its check passed,
or only its metadata tested where the copy relabels (R162). -/
def copyFound (s : State) (n : Nat) (c : CopyCmd) (pa : Word → Nat) (va : Word) : Granule :=
  match c.sspace with
  | some .sp => (spGranule (coreOfSlot c.slot) (coreAt s (coreOfSlot c.slot)) va.toNat).1
  | some .ls => (laneGranule (coreOfSlot c.slot) (coreAt s (coreOfSlot c.slot)) (va.toNat / 64)).1
  | some .mem => (peekI2 s n (pa va / 64)).c.g
  | none => (peekI2 s n (pa va / 64)).c.g

def copySourceReady (s : State) (n : Nat) (c : CopyCmd) (j : Nat) (pa : Word → Nat) : Prop :=
  let core := coreOfSlot c.slot
  ∀ x ∈ partsOf (c.srcAt j) c.run,
    (if c.relabels j then (copyFound s n c pa x.1).metaKind = none else (copyFound s n c pa x.1).verifies = true) ∧
    match c.sspace with
    | some .sp => x.1.toNat < spSize (coreAt s core) ∧ (spLine (coreAt s core) x.1.toNat).full = true
    | some .ls => x.1.toNat < 65536
    | _ => cachedParts s n (launchOf (BitVec.ofNat 32 c.step)) .read (c.srcAt j) c.run pa ∧ ovfRange s (pa x.1 / 64) = none ∧
        noWay s n (pa x.1 / 64) (peekI2 s n (pa x.1 / 64)).src false = none ∧ (peekI2 s n (pa x.1 / 64)).c.ph = false ∧
        visible s (some n) (copyFound s n c pa x.1) (relation (.cluster n) (copyFound s n c pa x.1).prod) = true

/-- The bytes of a run's source, in order. -/
def copyBytes (s : State) (n : Nat) (c : CopyCmd) (j : Nat) (pa : Word → Nat) : Nat :=
  (partsOf (c.srcAt j) c.run).foldl (fun v x =>
    v + granuleBytes (copyFound s n c pa x.1).data (x.1.toNat % 64) x.2.2 * 256 ^ x.2.1) 0

/-- The outbound levels and the I2 of a cluster have room for `m` more granules of its engines (Table 06.1). -/
def ClusterRoom (s : State) (n m : Nat) : Prop :=
  o2Bytes s n + 64 * m ≤ o2Size ∧ lineCount (clusterAt s n).i2 + 2 * m ≤ i2Lines

/-- R320, R322-R326: what one act of the sequencer does to the command at the head of its queue: the destination pass, the next
run, or the end. A run lands in memory, formed by the sequencer with its residues where error feedback is on, or relabelled
granule by granule (R162); in the scratchpad, whose lines it sets full; or in the lane store, where a part of a granule keeps the
other bytes. In a local space the granules are the source's own, when the copy relabels, or formed by the sequencer. An engine
fault is delivered at an instruction boundary at user level, before the next instruction to issue (R226).
Some of its clauses rest on readings of the model's own (log 18, which engine fault comes first, and 25). -/
def Obligations.CopyCommands : Prop := ∀ (s : State) (n core slot : Nat) (c : CopyCmd) (rest : List CopyCmd) (f : TrapInfo)
    (fs : List TrapInfo) (pa : Word → Nat) (mem : Nat → GData),
  let i := Instr.copyCommand n
  let k := clusterAt s n
  let own := coreOfSlot c.slot
  let l := launchOf (BitVec.ofNat 32 c.step)
  let prod := prodCopy n
  let j := c.runs
  let Y := c.convert (copyBytes s n c j pa)
  let rc := (countsAt s prod).rcnt
  let pieces := fun (va : Word) (len bytes : Nat) => (partsOf va len).map fun x =>
    (⟨0, .mem, pa x.1 / 64, 8 * (pa x.1 % 64), 8 * x.2.2, partVal bytes x.2.1 x.2.2, x.1, false⟩ : Piece)
  let ps := pieces (c.dstAt j) c.bd Y.1 ++ if c.ef then pieces (c.resAt j) c.br Y.2 else []
  let ls := (partsOf (c.dstAt j) c.bd).map fun x => (⟨0, .ls, x.1.toNat / 64, 8 * (x.1.toNat % 64), 8 * x.2.2,
    partVal Y.1 x.2.1 x.2.2, x.1, false⟩ : Piece)
  let lane := fun (t : State) (key : Nat) => (laneGranule own (coreAt t own) key).1
  let line := fun (t : State) (off : Nat) => (spLine (coreAt t own) off).full = true
  let spg := fun (t : State) (off : Nat) => (spGranule own (coreAt t own) off).1
  let ways := cachedParts s n l .write (c.dstAt j) c.bd pa ∧ (c.ef = true → cachedParts s n l .write (c.resAt j) c.br pa)
  let now := fun (t : State) (q : List CopyCmd) (st : BitVec 2) (cause : BitVec 6) (runs : Nat) =>
    (clusterAt t n).copyq = q ∧ tget (clusterAt t n).copyst c.q = some ⟨st, cause, BitVec.ofNat 48 runs⟩
  let ran := fun (t : State) => now t ({ c with runs := j + 1 } :: rest) 1 0 (j + 1)
  let harts := fun (t : State) (sil : List Nat) => (hartAt t c.slot) = { hartAt s c.slot with sil := sil.foldl silAdd (hartAt s c.slot).sil } ∧
    ∀ m, m ≠ c.slot → hartAt t m = hartAt s m
  let pass := fun (r : Nat) => match c.dspace with
    | some .sp => (c.dstAt r).toNat + c.bd ≤ spSize (coreAt s own)
    | some .ls => (c.dstAt r).toNat + c.bd ≤ 65536 ∧ (c.dstAt r).toNat / 4096 = ((c.dstAt r).toNat + c.bd - 1) / 4096
    | _ => cachedParts s n l .write (c.dstAt r) c.bd pa ∧
        ∀ x ∈ partsOf (c.dstAt r) c.bd, rangeMeeting s (pa x.1) x.2.2 = none
  let residues := fun (r : Nat) => c.ef = true → cachedParts s n l .write (c.resAt r) c.br pa ∧
    ∀ x ∈ partsOf (c.resAt r) c.br, rangeMeeting s (pa x.1) x.2.2 = none
  (k.copyq = [] → Stays i s) ∧
  (k.copyq = c :: rest → copiesSince k.copyn c.q < 64 →
    (c.passed = false → (∀ r, r < c.total → pass r ∧ residues r) →
      ∃ t, exec i s = .next t ∧ t = { s with clusters := t.clusters } ∧ now t ({ c with passed := true } :: rest) 1 0 c.runs) ∧
    (c.passed = false → c.ef = false → c.dspace = some .sp → 0 < c.total →
      spSize (coreAt s own) < (c.dstAt 0).toNat + c.bd →
      ∃ t, exec i s = .next t ∧ now t rest 3 0x05 c.runs ∧ (∀ m, m ≠ c.slot → hartAt t m = hartAt s m) ∧
        hartAt t c.slot = { hartAt s c.slot with engineFaults := (hartAt s c.slot).engineFaults ++
          [{ TrapInfo.plain 0x05 (c.dstAt 0) with val := BitVec.ofNat 64 (n * 2 ^ 32 + c.q), eng := true, word := some c.word }] }) ∧
    (c.passed = true → j < c.total → copySourceReady s n c j pa → holder s c.step = none →
      (∀ y ∈ k.o2held, y.2.held.isSome = true) →
      (c.dspace = some .mem → clusterOfSlot c.slot = n → ways → c.relabels j = false →
        (∀ q ∈ ps, engineMerges s n prod q.key (mem q.key)) → ClusterRoom s n (ps.map (·.key)).dedup.length →
        ∃ t, exec i s = .next t ∧ ran t ∧ harts t (ps.map (·.key)) ∧
          (∀ q ∈ ps, ∃ g, tget (clusterAt t n).o2 q.key = some g ∧ g.held = none ∧
            g.g = mkGranule g.g.data prod 0 rc ∧ Overlays ps .mem q.key (mem q.key) g.g.data) ∧
          ∀ m mine x, (∀ q ∈ ps, x / 64 ≠ q.key) → memByte t m mine x = memByte s m mine x) ∧
      (c.dspace = some .mem → clusterOfSlot c.slot = n → ways → c.relabels j = true → c.ef = false →
        (ps.map (·.key)).Nodup → (∀ q ∈ ps, LineWay s n q.key) → ClusterRoom s n ps.length →
        ∃ t, exec i s = .next t ∧ ran t ∧ harts t (ps.map (·.key)) ∧
          (∀ x ∈ (partsOf (c.dstAt j) c.bd).zip (partsOf (c.srcAt j) c.run), ∃ g, tget (clusterAt t n).o2 (pa x.1.1 / 64) = some g ∧
            g.g = (copyFound s n c pa x.2.1).relabel rc 0 prod) ∧
          ∀ m mine x, (∀ q ∈ ps, x / 64 ≠ q.key) → memByte t m mine x = memByte s m mine x) ∧
      (c.dspace = some .sp → (c.dstAt j).toNat % 128 = 0 → (c.dstAt j).toNat + c.run ≤ spSize (coreAt s own) → c.relabels j = true →
        ∃ t, exec i s = .next t ∧ ran t ∧ SameMemory s t ∧ (∀ m, hartAt t m = hartAt s m) ∧
          ∀ x ∈ partsOf (c.srcAt j) c.run, line t ((c.dstAt j).toNat + x.2.1) ∧
            spg t ((c.dstAt j).toNat + x.2.1) = copyFound s n c pa x.1) ∧
      (c.dspace = some .sp → (c.dstAt j).toNat % 128 = 0 → c.bd % 128 = 0 → (c.dstAt j).toNat + c.bd ≤ spSize (coreAt s own) →
        c.relabels j = false →
        ∃ t, exec i s = .next t ∧ ran t ∧ SameMemory s t ∧ (∀ m, hartAt t m = hartAt s m) ∧
          ∀ m, m < c.bd / 64 → line t ((c.dstAt j).toNat + 64 * m) ∧
            spg t ((c.dstAt j).toNat + 64 * m) = mkGranule (BitVec.ofNat 512 (Y.1 / 256 ^ (64 * m) % 256 ^ 64)) prod 0 rc) ∧
      (c.dspace = some .ls → c.relabels j = true →
        ∃ t, exec i s = .next t ∧ ran t ∧ SameMemory s t ∧ (∀ m, hartAt t m = hartAt s m) ∧
          (∀ x ∈ partsOf (c.srcAt j) c.run, lane t ((c.dstAt j).toNat / 64 + x.2.1 / 64) = copyFound s n c pa x.1) ∧
          ∀ key, (key < (c.dstAt j).toNat / 64 ∨ (c.dstAt j).toNat / 64 + c.run / 64 ≤ key) → lane t key = lane s key) ∧
      (c.dspace = some .ls → c.relabels j = false → (c.dstAt j).toNat + c.bd ≤ 65536 →
        (∀ q ∈ ls, q.width ≠ 512 → (lane s q.key).verifies = true) →
        ∃ t, exec i s = .next t ∧ ran t ∧ SameMemory s t ∧ (∀ m, hartAt t m = hartAt s m) ∧
          (∀ q ∈ ls, lane t q.key = mkGranule (lane t q.key).data prod 0 rc ∧
            Overlays ls .ls q.key (lane s q.key).data (lane t q.key).data) ∧
          ∀ key, (∀ q ∈ ls, q.key ≠ key) → lane t key = lane s key)) ∧
    (c.passed = true → c.total ≤ j →
      (c.rel = false → ∃ t, exec i s = .next t ∧ t = { s with clusters := t.clusters } ∧ now t rest 2 0 j) ∧
      (c.rel = true → c.phase = 1 → acked s prod = true →
        ∃ t, exec i s = .next t ∧ now t rest 2 0 j ∧ countsAt t prod = { countsAt s prod with rcnt := (countsAt s prod).rcnt + 1 }) ∧
      (c.rel = true → c.phase = 1 → acked s prod = false → ∃ t, exec i s = .next t ∧ now t (c :: rest) 1 0 j))) ∧
  (runningSlot s core = some slot → (hartAt s slot).engineFaults = f :: fs →
    let u := switchTo s slot
    let due := engineFaultDue (hartAt s slot) = true ∧ stopped s slot = false ∧ (hartAt s slot).frameAllows (hartAt s slot).pc = true
    (¬ due → Stays (.engineFaultDelivery core) s) ∧
    (due →
      (∀ leg, recordLeg u = some leg → exec (.engineFaultDelivery core) s = .next (reportLeg u leg)) ∧
      (recordLeg u = none →
        exec (.engineFaultDelivery core) s = .next (takeTrap { u with hart := { u.hart with engineFaults := fs } } f)) ∧
      (f.cause ≠ 0x08 → f.cause ≠ 0x10 → f.score = none → (hartAt s slot).frecbase = 0 → (hartAt s slot).tvec ≠ 0 →
        ∃ t, exec (.engineFaultDelivery core) s = .next t ∧ (hartAt t slot).pc = (hartAt s slot).tvec ∧
          (hartAt t slot).epc = (hartAt s slot).pc ∧ (hartAt t slot).ecause = f.cause ∧ (hartAt t slot).eval = f.val ∧
          (hartAt t slot).tstat.lev = true ∧ (hartAt t slot).engineFaults = fs ∧ (hartAt t slot).x = (hartAt s slot).x)))

/-! ## Record streams: the instructions -/

/-- The address translates for reads from its cached entry, and its granule is settled. -/
def settledByte (s : State) (va : Word) (pa : Nat) (self : Bool) (D : GData) : Prop :=
  (tlbFind (clusterAt s (curCluster s)).tlb (curLaunch s) va).isSome = true ∧ Maps s va .read pa self ∧ ovfRange s (pa / 64) = none ∧
    Settled s (pa / 64) self D

/-- R337-R341, R386 and R387: `swm`, `swin` and `capq`; `sidle` makes a source that the launch feeds idle, or rejoining and,
once its watermark has reached WM, active; `semit` sends the record at an address on a bound output, with the output's source
and next sequence number, or waits where a graph it feeds is disabled.
Some of its clauses rest on readings of the model's own (log 13 and 31). -/
def Obligations.StreamInstructions : Prop := ∀ (s : State) (d a b : XIdx) (w : Win) (word : Word) (ws : List Word) (o : Output)
    (l : LaunchRec) (pa : Word → Nat) (self : Nat → Bool) (mem : Nat → GData),
  let v := xreg s a
  let x := xreg s b
  let launch := curLaunch s
  let win := (kernelGraph s launch).bind fun g => g.2.win v.toNat
  let gi := v.toNat / 65536 % 64
  let src := v.toNat % 1024
  let g := graphAt s gi
  let y := g.source src
  let idleOk := v.toNat < 2 ^ 22 ∧ v.toNat / 1024 % 64 = 0 ∧ x.toNat ≤ 1 ∧
    ∃ ep o, tget s.mer.binds (1024 * gi + src) = some ep ∧ o ∈ s.mer.outputs ∧ o.launch = launch ∧ o.endpoint = ep
  let byte := fun (at_ : Word) => (mem (pa at_ / 64)).extractLsb' (8 * (pa at_ % 64)) 8
  let word_ := fun (k : Nat) => BitVec.ofNat 64 (littleEndian (fun i => byte (v + BitVec.ofNat 64 (8 * k + i))) 8)
  let len := (word_ 1).toNat / 65536 % 65536
  let sent := word_ 0
  (v.toNat ≤ 63 → (graphAt s v.toNat).sgcfg.toNat % 256 = launch → GivesX (.swm d a) s d (graphAt s v.toNat).wm) ∧
  (v.toNat > 63 ∨ (graphAt s v.toNat).sgcfg.toNat % 256 ≠ launch → Traps (.swm d a) s 0x02 v) ∧
  (win = none → GivesX (.swin d a) s d (BitVec.ofNat 64 (3 * 2 ^ 62))) ∧
  (win = some w → w.state < 4 → w.rev.getD 0 < 65536 →
    GivesX (.swin d a) s d (BitVec.ofNat 64 (w.state * 2 ^ 62 + w.rev.getD 0 * 2 ^ 32 + min 65535 w.late.length * 2 ^ 16))) ∧
  (s.hart.notices = [] → GivesX (.capq d) s d 0) ∧
  (s.hart.notices = word :: ws → ∃ t, exec (.capq d) s = .next t ∧ SameOutside s t ∧ GoneOn s.hart t.hart ∧
    OnlyX s.hart t.hart d word ∧
    t.hart = { s.hart with x := t.hart.x, notices := ws, pc := t.hart.pc, frames := t.hart.frames, resume := t.hart.resume
                           mid := t.hart.mid, waits := t.hart.waits, phase := t.hart.phase }) ∧
  (¬ idleOk → BadOperand (.sidle a b) s) ∧
  (idleOk → ∃ t, exec (.sidle a b) s = .next t ∧ GoneOn s.hart t.hart ∧ CtlFrame s.hart t.hart ∧
    ((graphAt t gi).source src).st =
      (if x = 1 then .idle else if y.st = .active then .active else if g.wm.toNat ≤ y.wm.toNat then .active else .rejoining) ∧
    ((graphAt t gi).source src).wm = y.wm ∧ g.wm.toNat ≤ (graphAt t gi).wm.toNat ∧
    ∀ i, i ≠ src → (graphAt t gi).source i = g.source i) ∧
  (v.toNat % 16 ≠ 0 → Traps (.semit a b) s 0x03 v) ∧
  (v.toNat % 16 = 0 → outputOf s launch x.toNat = none → Traps (.semit a b) s 0x0C 1) ∧
  (v.toNat % 16 = 0 → outputOf s launch x.toNat = some o → o.src < 65536 → findLaunch s launch = some l →
    (∀ i, i < (if len = 65535 ∨ len > 4080 then 16 else 16 + len) → let at_ := v + BitVec.ofNat 64 i
      settledByte s at_ (pa at_) (self (pa at_ / 64)) (mem (pa at_ / 64))) →
    (len ≠ 65535 → len > 4080 → ∃ t, exec (.semit a b) s = .next (takeTrap t (operandTrap t)) ∧ ReadFrame s t ∧ t.hart = s.hart) ∧
    (len ≤ 4080 → boundSources s o.endpoint = [] → ∃ t, exec (.semit a b) s = .next t ∧ GoneOn s.hart t.hart ∧
      CtlFrame s.hart t.hart ∧ t.mer.graphs = s.mer.graphs ∧
      t.mer.sent = s.mer.sent ++ [⟨o.endpoint, sent, BitVec.ofNat 64 (o.seq.toNat * 2 ^ 32 + len * 65536 + o.src),
        (List.range len).map fun i => byte (v + BitVec.ofNat 64 (16 + i))⟩] ∧
      outputOf t launch x.toNat = some { o with seq := o.seq + 1 }) ∧
    (len = 65535 → boundSources s o.endpoint = [] → let top := min sent.toNat (outputWm s l)
      (top ≤ o.sentWm.toNat → ∃ t, exec (.semit a b) s = .next t ∧ GoneOn s.hart t.hart ∧ t.mer = s.mer) ∧
      (o.sentWm.toNat < top → ∃ t, exec (.semit a b) s = .next t ∧ GoneOn s.hart t.hart ∧
        outputOf t launch x.toNat = some { o with seq := o.seq + 1, sentWm := BitVec.ofNat 64 top } ∧
        t.mer.sent = s.mer.sent ++ [⟨o.endpoint, BitVec.ofNat 64 top,
          BitVec.ofNat 64 (o.seq.toNat * 2 ^ 32 + len * 65536 + o.src), []⟩])) ∧
    (∀ q p, len ≤ 4080 → (q, p) ∈ boundSources s o.endpoint → (graphAt s q).en = false →
      ∃ t, exec (.semit a b) s = .next t ∧ t.hart = (waiting s).hart ∧ t.mer.sent = s.mer.sent ∧ graphAt t q = graphAt s q ∧
        (boundSources s o.endpoint = [(q, p)] → t.mer = s.mer)))

/-! ## Events of the hierarchy and of pages -/

/-- A granule of 64 bytes is formed at its home junction with `n` bytes from `pa` replaced by `new`, and nothing else at any
junction changes. -/
def FormedAtHome (s t : State) (pa n prod : Nat) (new : Nat → Byte) : Prop :=
  (junctionGranule t (pa / 64)).1 = mkGranule (junctionGranule t (pa / 64)).1.data prod 4 0 ∧
  (∀ i, i < n → homeByte t (pa + i) = new i) ∧
  (∀ a, a / 64 = pa / 64 → (a < pa ∨ pa + n ≤ a) → homeByte t a = homeByte s a) ∧
  ∀ g, g ≠ pa / 64 → tget t.o3 g = tget s.o3 g

/-- R27, R95, R118, R119, R131, R150, R354, R411 and R412: what the hierarchy does in its own time. An O1 entry moves to O2, an O2
entry to its home junction, a buffered granule to its endpoint, an O3 entry into HBM, where it reads as it did; the flit of a
reserve entry goes on and is applied; a translation leaves every TLB; a page moves in and out with its bytes and its ownership
bit, once its homes can be reached and every cluster acknowledges its notice, and accesses to it wait from where its move out
begins; what the device has asked of the host for a page that has moved in is forgotten (R413); a port engine or the management
core writes at the home junction, where it finds a way there and on to the I3 copy; a port engine reads by its own replica of
PCNT4; the time base never steps back, nor past a moment that awaits its event.
Some of its clauses rest on readings of the model's own (log 4, 6, 8, 12, 15, 30 and 34). -/
def Obligations.MemoryEvents : Prop := ∀ (s : State) (core n gran launch pa lpa len : Nat) (va pte w : Word) (e : OutEntry)
    (src lo hi p level input origin out : Nat) (v : BitVec 16) (why : TrapInfo) (leg : Leg) (image : List (Nat × GData)) (port : BitVec 3) (data : List Byte) (r : BitVec 4) (ns : Nat),
  let drain := fun (lvl unit : Nat) => Instr.outboundDrain lvl unit gran
  let inPage := fun (g : Nat) => pteBase pte / 64 ≤ g ∧ g < pteBase pte / 64 + 1024
  let table := JunctionGood s (lpa / 64) ∧ lpa % 8 = 0 ∧ lpa + 8 ≤ hbmBytes
  let leaf := (lpa, pte, 3)
  let mapped := pageLeaf s launch va = .ok leaf
  let path := moveLeg s leaf = none
  let near := 0 < data.length ∧ data.length ≤ 64 - pa % 64 ∧ JunctionGood s (pa / 64) ∧ HomeRoom s (pa / 64)
  let reach := fun (r : Nat) => writeLeg s (some r) (pa / 64) = none
  let told := NoticeComes s prodMigration (pteBase pte / 64) (pteBase pte / 64 + 1023)
  let sameTable := holdsTranslation s fun l => tableOf s l == tableOf s launch
  let quiet := (∀ x ∈ s.cores, x.2.o1 = []) ∧ ∀ x ∈ s.clusters, x.2.o2 = [] ∧ x.2.o2held = [] ∧ x.2.partials = []
  let held := (s.ports.hostPages.find? fun x => x.base == pteBase pte).map (·.data)
  let listed := fun (l : List (Nat × GData)) (i : Nat) => (l.find? fun x => x.1 == i).map (·.2)
  let waits := fun (f : Flit) => s.mesh = [⟨f, n, origin, input, some out⟩]
  let i := r.toNat
  let c := s.crngc.toList.getD i 0
  let new := (w &&& 0x800FFF003FFFFFFF) ||| (c &&& ~~~w &&& ((1 : Word) <<< 62))
  (tget (coreAt s core).o1 gran = some e → e.held = none → olderWaits s (clusterOfCore core) e = false →
    ClusterRoom s (clusterOfCore core) 1 → (e.self = true → LineWay s (clusterOfCore core) gran) → ∃ t, exec (drain 1 core) s = .next t ∧ tget (coreAt t core).o1 gran = none ∧
      (∃ x, tget (clusterAt t (clusterOfCore core)).o2 gran = some x ∧ x.g = e.g ∧ x.held = none) ∧ SameMemoryBut s t gran) ∧
  (tget (clusterAt s n).o2 gran = some e → olderWaits s n e = false → windowOf gran = 0 → (clusterAt s n).partials = [] →
    writeLeg s (some n) gran = none → HomeRoom s gran →
    ∃ t, exec (drain 2 n) s = .next t ∧ tget (clusterAt t n).o2 gran = none ∧ (junctionGranule t gran).1 = e.g ∧
      SameMemoryBut s t gran) ∧
  (tget s.ports.buffer gran = some e → e.g.verifies = true →
    ∃ t, exec (drain 3 n) s = .next t ∧ t = { s with ports := t.ports } ∧ tget t.ports.buffer gran = none ∧
      t.ports.delivered = s.ports.delivered ++ [(gran, e.g.data)]) ∧
  (s.Inv → tget s.o3 gran = some e → ∃ t, exec (.o3Writeback gran) s = .next t ∧ t.Inv ∧ tget t.o3 gran = none ∧
    hbmGranule t gran = e.g ∧ ∀ g, (junctionGranule t g).1 = (junctionGranule s g).1) ∧
  (waits (.notice src lo hi) → out = 0 → ∃ t, exec (.multicastReserveForward ⟨n, out⟩) s = .next t ∧ t.mesh = [] ∧
    (∀ m, m ≠ n → clusterAt t m = clusterAt s m) ∧
    ∀ k, lo / 2 ≤ k / 2 → k / 2 ≤ hi / 2 →
      (∀ x, tget (clusterAt t n).i2 k = some x → x.ordinary = false ∨
        ∃ y, tget (clusterAt t n).i2 (partner k) = some y ∧ y.ordinary = false) ∧
      ∀ m ∈ coresOf n, ∀ x, tget (coreAt t m).i1 k = some x → x.ordinary = false ∨
        ∃ y, tget (coreAt t m).i1 (partner k) = some y ∧ y.ordinary = false) ∧
  (waits (.count src p level v) → out = 0 → n < 64 → ∃ t, exec (.multicastReserveForward ⟨n, out⟩) s = .next t ∧ t.mesh = [] ∧
    pcnt t (some n) p 3 = v ∧ (4 ≤ level → pcnt t (some n) p 4 = v ∧
      ∀ q, q < 8 → portRouter q = n → pcnt t (some (portReplica q)) p 4 = v)) ∧
  (waits (.notice src lo hi) → branchUp s n out = false →
    ∃ t, exec (.multicastReserveForward ⟨n, out⟩) s = .next t ∧ t = { s with tick := t.tick }) ∧
  (holdsTranslation s (fun l => l == launch) = true → Stays (.tlbInvalidation launch va) s) ∧
  (mapped → sameTable = true → moving s (tableOf s launch) va 3 = false → Stays (.pageMoveOut launch va) s) ∧
  (holdsTranslation s (fun l => l == launch) = false → ∃ t, exec (.tlbInvalidation launch va) s = .next t ∧
    t = { s with cores := t.cores, clusters := t.clusters } ∧ (∀ c, tlbFind (coreAt t c).tlb launch va = none) ∧
    ∀ m, tlbFind (clusterAt t m).tlb launch va = none ∧ (clusterAt t m).stash = []) ∧
  (mapped → pteHost pte = false → Stays (.pageMoveIn launch va image) s) ∧
  (mapped → pteHost pte = true → Stays (.pageMoveOut launch va) s) ∧
  (mapped → pteHost pte = true → pteBase pte < hbmBytes → ¬ path →
    exec (.pageMoveIn launch va image) s = .next (reportLeg s (moveLeg s leaf))) ∧
  (mapped → path → pteHost pte = true → pteBase pte < hbmBytes → ¬ told → Stays (.pageMoveIn launch va image) s) ∧
  (mapped → path → told → table → s.Inv → pteHost pte = true → pteBase pte + 65536 ≤ hbmBytes → ¬ inPage (lpa / 64) →
    ∃ t, exec (.pageMoveIn launch va image) s = .next t ∧ t.Inv ∧
      (tableOf s launch, pageKey va 3) ∉ t.ports.refusals ∧
      (∀ q ∈ t.ports.pageRequests, ¬ (q.table = tableOf s launch ∧ q.page = pageKey va 3)) ∧
      (∀ g, inPage g → let i := g - pteBase pte / 64
        (junctionGranule t g).1 = mkGranule (((listed image i).orElse fun _ => listed (held.getD []) i).getD 0) prodMigration 4 0) ∧
      littleEndian (fun i => homeByte t (lpa + i)) 8 = (pte &&& ~~~((1 : Word) <<< 62)).toNat) ∧
  (mapped → pteHost pte = false → pteBase pte < hbmBytes → sameTable = false → quiet → ¬ path →
    let u := holdPage s (tableOf s launch) (pageKey va 3) 3
    exec (.pageMoveOut launch va) s = .next (reportLeg u (moveLeg s leaf)) ∧ moving u (tableOf s launch) va 3 = true) ∧
  (mapped → pteHost pte = false → pteBase pte < hbmBytes → sameTable = false → quiet → path → ¬ told →
    exec (.pageMoveOut launch va) s = .next (holdPage s (tableOf s launch) (pageKey va 3) 3)) ∧
  (mapped → path → told → table → s.Inv → pteHost pte = false → pteBase pte + 65536 ≤ hbmBytes → sameTable = false → quiet →
    (∀ g, inPage g → JunctionGood s g) →
    ∃ t, exec (.pageMoveOut launch va) s = .next t ∧ t.Inv ∧
      littleEndian (fun i => homeByte t (lpa + i)) 8 = (pte ||| (1 : Word) <<< 62).toNat ∧
      (∃ x ∈ t.ports.hostPages, x.base = pteBase pte ∧ ∀ g, inPage g →
        (listed x.data (g - pteBase pte / 64)).getD 0 = (junctionGranule s g).1.data) ∧
      (∀ c, tlbFind (coreAt t c).tlb launch va = none) ∧ (∀ m, tlbFind (clusterAt t m).tlb launch va = none) ∧
      (∀ a, (a < lpa ∨ lpa + 8 ≤ a) → homeByte t a = homeByte s a) ∧
      ∀ g k, inPage g → tget s.attach g = some k → tget t.attach g = none) ∧
  (near → reach managementRouter → pa + data.length ≤ hbmBytes → ∃ t, exec (.managementCoreStore pa data) s = .next t ∧
    FormedAtHome s t pa data.length prodManagement fun i => data.getD i 0) ∧
  (hbmBytes < pa + data.length → Stays (.managementCoreStore pa data) s) ∧
  (portRuns s port = false → Stays (.remoteWrite port launch va data) s ∧ Stays (.remoteRead port launch va len) s ∧
    Stays (.discardedPacket port) s) ∧
  (portRuns s port = true → portAccess s port.toNat launch .write va data.length = .ok [(0, pa, data.length)] → near →
    reach (portRouter port.toNat) →
    let comes := NoticeComes s (prodPort port.toNat) (pa / 64) ((pa + data.length - 1) / 64)
    (¬ comes → Stays (.remoteWrite port launch va data) s) ∧
    (comes → ∃ t, exec (.remoteWrite port launch va data) s = .next t ∧ t.ports.acks = s.ports.acks ++ [(port.toNat, true)] ∧
      FormedAtHome s t pa data.length (prodPort port.toNat) fun i => data.getD i 0)) ∧
  (portRuns s port = true → portAccess s port.toNat launch .write va data.length = .error .refused → exec (.remoteWrite port launch va data) s =
    .next { s with ports := { s.ports with acks := s.ports.acks ++ [(port.toNat, false)] } }) ∧
  (portRuns s port = true → portAccess s port.toNat launch .write va data.length = .error (.entry why) →
    ∃ t, exec (.remoteWrite port launch va data) s = .next t ∧ t.ports.acks = s.ports.acks ++ [(port.toNat, false)] ∧
      t.o3 = s.o3 ∧ t.mem = s.mem) ∧
  (portRuns s port = true → portAccess s port.toNat launch .write va data.length = .error (.wait leg) →
    exec (.remoteWrite port launch va data) s = .next (reportLeg s leg)) ∧
  (portRuns s port = true → portAccess s port.toNat launch .read va len = .error (.wait leg) →
    exec (.remoteRead port launch va len) s = .next (reportLeg s leg)) ∧
  (portRuns s port = true → portAccess s port.toNat launch .read va len = .error (.entry why) →
    ∃ t, exec (.remoteRead port launch va len) s = .next t ∧ t.ports.reads = s.ports.reads ++ [(port.toNat, none)]) ∧
  (portRuns s port = true → portAccess s port.toNat launch .read va len = .ok [(0, pa, len)] → 0 < len → len ≤ 64 - pa % 64 →
    legFrom s (some (portRouter port.toNat)) (pa / 64) = none →
    let g := (junctionGranule s (pa / 64)).1
    visible s (some (portReplica port.toNat)) g 4 = true → g.verifies = true → exec (.remoteRead port launch va len) s =
      .next { s with ports := { s.ports with
        reads := s.ports.reads ++ [(port.toNat, some ((List.range len).map fun i => g.byte (pa + i)))] } }) ∧
  (portRuns s port = true → portAccess s port.toNat launch .read va len = .error .refused → exec (.remoteRead port launch va len) s =
    .next { s with ports := { s.ports with reads := s.ports.reads ++ [(port.toNat, none)] } }) ∧
  (portRuns s port = true → ∃ t, exec (.discardedPacket port) s = .next t ∧ t = { s with ports := t.ports } ∧
    tgetD t.ports.discarded port.toNat 0 = tgetD s.ports.discarded port.toNat 0 + 1) ∧
  (crngBad s i (s.crngb.toList.getD i 0) new = false → ∃ t, exec (.crngWrite r true w) s = .next t ∧
    t = { s with crngc := t.crngc } ∧ ∀ j, j < 16 → t.crngc.toList.getD j 0 = if j = i then new else s.crngc.toList.getD j 0) ∧
  (crngBad s i (s.crngb.toList.getD i 0) new = true → Stays (.crngWrite r true w) s) ∧
  (crngBad s i (w &&& 0x3FFFFFFF000) c = false → ∃ t, exec (.crngWrite r false w) s = .next t ∧
    t = { s with crngb := t.crngb } ∧
    ∀ j, j < 16 → t.crngb.toList.getD j 0 = if j = i then w &&& 0x3FFFFFFF000 else s.crngb.toList.getD j 0) ∧
  ∃ t, exec (.ieee1588Sync ns) s = .next t ∧ t = { s with dtime := t.dtime } ∧
    t.dtime.toNat = max s.dtime.toNat (min ns (timeLimit s)) ∧ ∀ m ∈ moments s, s.dtime.toNat < m → t.dtime.toNat < m

/-! ## Events of the dispatcher -/

/-- The dispatcher's record of a step. -/
def stepIs (t : State) (r : StepRec) : Prop := findStep t r.handle = some r

/-- R63, R67, R69-R73, R76, R77 and R294: how steps come to run. The walker emits the next ordinal of a launch with its tile
indices, level 0 fastest; residency makes a step ready or ends it; aging raises its own priority; a bind record is accepted or
reported, and so may one of a further member of a running gang be; a ready record is staged in the first EMPTY slot, those of a
team all or none; the first preload line whose bank is free lands whole, and one that faults is recorded; a table entry that
fails its check is reported; a STAGED hart whose core's other slot is EMPTY starts on a core that takes steps, in the visible
state, with TVEC and FRECBASE from the parameter block that PARAM names and x10 = PARAM, or as it was saved (R363); the harts of a
team start together, and no core of it ahead of another (R65, R72); a block that cannot be read ends the step.
Some of its clauses rest on readings of the model's own (log 11, the layout of a refused record's report, and 26). -/
def Obligations.DispatchEvents : Prop := ∀ (s : State) (id core slot pa : Nat) (cause : Nat) (l : LaunchRec) (r : StepRec) (x : BindRec)
    (p : PreLine) (ps qs : List PreLine) (A B : GData) (fc : BitVec 6) (kind wlev : Nat) (bad : TrapInfo),
  let walk := Instr.walkerEmit id
  let h := r.handle
  let known := findStep s h = some r ∧ findLaunch s r.launch = some l
  let waits := r.place = .queued ∨ r.place = .bound
  let radix := fun (k : Nat) => if k < blkLevels l.blk then blkNm1 l.blk k + 1 else 1
  let bind := Instr.bindRecordWrite core x
  let runs := r.place = .running
  let opens := (coreAt s core).bindq.length < 16 ∧ coreBinds s core = true ∧ (waits ∨ startsLater r = true) ∧
    tget r.recs core = none ∧ rcdBad s core r (blkGsize l.blk) x = false
  let into := fun (c : Nat) => if (slotAt s (2 * c)).st = .empty then 2 * c else 2 * c + 1
  let free := fun (c : Nat) => coreTakes s c = true ∧ ((slotAt s (2 * c)).st = .empty ∨ (slotAt s (2 * c + 1)).st = .empty) ∧
    (∀ j, j = 2 * c ∨ j = 2 * c + 1 → (slotAt s j).st = .empty ∨ (slotAt s j).st = .running) ∧
    ∃ q, headOf s c = some q ∧ q.handle = h
  let with_ := stagesWith r core
  let stages := (ofTeam r = true → stepComplete r = true) ∧ ∀ z ∈ with_, free z.1
  let y := slotAt s slot
  let ks := startsWith s r slot
  let may := (ofTeam r = true → ks.length = r.recs.length) ∧ r.stopping = none ∧
    ∀ k ∈ ks, (slotAt s (otherSlot k)).st = .empty ∧ coreTakes s (coreOfSlot k) = true
  let before := slotsOfStep s h
  let all := stepMembers r ≤ before.length + ks.length
  let own := coreOfSlot slot
  let n := clusterOfSlot slot
  let read := fun (g : Nat) (D : GData) =>
    (visible s (some n) (junctionGranule s g).1 3 = true ∧ (junctionGranule s g).1.data = D) ∧
    ∀ c, (tget (clusterAt s n).i2 g = some c ∨ tget s.i3 g = some c) → c.ph = false ∧ visible s (some n) c.g 3 = true ∧ c.g.data = D
  (findLaunch s id = some l → l.id = id → l.standing = false → l.emitted < l.total → unboundSteps s < 4096 →
    ∃ t q, exec walk s = .next t ∧ (residencyFault s l q.tileix = none → t = { s with disp := t.disp }) ∧
      t.disp.steps = s.disp.steps ++ [q] ∧
      q.handle = id * 2 ^ 24 + l.emitted ∧ q.launch = id ∧ q.place = .queued ∧ q.resident = residentPages s l q.tileix ∧
      q.tileix.length = 6 ∧
      (∀ k, k < 6 → q.tileix.getD k 0 = l.emitted / ((List.range k).map radix).foldl (· * ·) 1 % radix k) ∧
      findLaunch t id = some { l with emitted := l.emitted + 1 }) ∧
  (findLaunch s id = some l → (l.standing = true ∨ l.total ≤ l.emitted ∨ 4096 ≤ unboundSteps s) → Stays walk s) ∧
  (known → waits → r.resident = false → residentPages s l r.tileix = true →
    ∃ t, exec (.residencyGranted h) s = .next t ∧ t = { s with disp := t.disp } ∧ stepIs t { r with resident := true, asked := false }) ∧
  (known → residentPages s l r.tileix = false →
    (residencyFault s l r.tileix = none → Stays (.residencyGranted h) s) ∧
    (residencyFault s l r.tileix = some bad →
      exec (.residencyGranted h) s = .next (reportFault s none bad.addr.toNat bad))) ∧
  (known → r.place = .queued → r.asked = true → r.win = none → (cause = 4 ∨ cause = 5 ∨ cause = 6) →
    ∃ t w, exec (.residencyFailed h cause) s = .next t ∧ t = { s with disp := t.disp } ∧
      stepIs t { r with place := .retiring, outcome := some (1, cause, 0), recs := [] } ∧
      t.disp.records = s.disp.records ++ [w] ∧ w.handle = h) ∧
  (known → r.asked = false → Stays (.residencyFailed h cause) s) ∧
  (known → s.disp.ageperiod ≠ 0 → ready r = true → waits → (∀ z ∈ s.slots, z.2.st = .empty ∨ slotHandle z.2 ≠ h) → r.ownPrio < 7 →
    ∃ t, exec (.aging h) s = .next t ∧ t = { s with disp := t.disp } ∧ stepIs t { r with ownPrio := r.ownPrio + 1 }) ∧
  (known → (s.disp.ageperiod = 0 ∨ 7 ≤ r.ownPrio) → Stays (.aging h) s) ∧
  ((wordAt x 0).getLsbD 47 = false → Stays bind s) ∧
  ((wordAt x 0).getLsbD 47 = true → rcdHandle x = h → known → opens →
    ∃ t q, exec bind s = .next t ∧ (coreAt t core).bindq = (coreAt s core).bindq ++ [h] ∧ stepIs t q ∧
      (¬ runs → q.place = .bound ∧ q.retries = rcdRetry x) ∧ (runs → q.place = .running ∧ q.retries = r.retries) ∧
      tget q.recs core = some x ∧ q.ownPrio = max r.ownPrio (rcdOprio x)) ∧
  ((wordAt x 0).getLsbD 47 = true → rcdHandle x = h → known → ¬ opens → exec bind s =
    .next { s with disp := { s.disp with reports := s.disp.reports ++ [[0x70, BitVec.ofNat 64 core, wordAt x 0]] } }) ∧
  (headOf s core = some r → findLaunch s r.launch = some l → stages → (with_.map (·.1)).Nodup →
    ∃ t, exec (.stageRecord core) s = .next t ∧ (∀ z ∈ with_, (slotAt t (into z.1)).rcd = z.2 ∧
      (slotAt t (into z.1)).st = (if savedFor r z.1 = none ∧ preLines l r z.2 ≠ [] then .staging else .staged) ∧
      (slotAt t (into z.1)).pre = (if savedFor r z.1 = none then preLines l r z.2 else []) ∧
      (coreAt t z.1).bindq = (coreAt s z.1).bindq.filter (· != h)) ∧
      ∀ j, (∀ z ∈ with_, j ≠ into z.1) → slotAt t j = slotAt s j) ∧
  (headOf s core = none ∨ (headOf s core = some r ∧ ¬ stages) → Stays (.stageRecord core) s) ∧
  (y.st = .staging → (∀ q ∈ y.pre, bankHeld s own (q.spline / 64) = true) → Stays (.preloadLineLand slot) s) ∧
  (y.st = .staging → y.pre = qs ++ p :: ps → y.pre.Nodup → (∀ q ∈ qs, bankHeld s own (q.spline / 64) = true) →
    bankHeld s own (p.spline / 64) = false → findLaunch s (slotHandle y / 2 ^ 24) = some l → p.spline < 2048 →
    let rest := fun (t : State) => (slotAt t slot).pre = qs ++ ps ∧ (slotAt t slot).st = (if qs ++ ps = [] then .staged else .staging)
    ((∃ self, xlateTable s .dispatcher l.table p.va .read = .ok pa self) → windowOf (pa / 64) = 0 → pa / 64 % 2 = 0 →
      noWay s n (pa / 64) (peekI2 s n (pa / 64)).src false = none → read (pa / 64) A → read (pa / 64 + 1) B →
      ∃ t a b, exec (.preloadLineLand slot) s = .next t ∧ rest t ∧
        tget (slotAt t slot).landed p.spline = some ⟨true, some a, some b⟩ ∧ a.1.data = A ∧ b.1.data = B) ∧
    (xlateTable s .dispatcher l.table p.va .read = .page fc kind wlev → y.preFault = none → ∃ t e, exec (.preloadLineLand slot) s = .next t ∧
      rest t ∧ (slotAt t slot).landed = y.landed ∧ (slotAt t slot).preFault = some (p.ord, e) ∧ e.cause = fc ∧ e.addr = p.va)) ∧
  (y.st ≠ .staged → Stays (.hartStart slot) s) ∧
  (y.st = .staged → findStep s (slotHandle y) = some r → ¬ may → Stays (.hartStart slot) s) ∧
  (y.st = .staged → findStep s (slotHandle y) = some r → slotHandle y = h → may → ks.Nodup → findLaunch s r.launch = some l →
    (∀ k ∈ ks, changesI1 s (coreOfSlot k) (rcdBankrole (slotAt s k).rcd) = false ∨ pinnedGrans s (coreOfSlot k) = []) →
    tilesFree s (resumed r ks) = true →
    (∀ block : Nat → List Word, (∀ k ∈ ks, savedFor r (coreOfSlot k) = none → let q := rcdParam (slotAt s k).rcd
        (q = 0 → block k = [0, 0]) ∧ (q ≠ 0 → (block k).length = 2 ∧ dispReads s l.table q (block k))) →
      ∃ t, exec (.hartStart slot) s = .next t ∧
        stepIs t { r with place := .running, cores := (before ++ ks).map coreOfSlot, tip := r.tip && !decide all,
                          saved := if all then [] else r.saved } ∧
        ∀ k ∈ ks, let z := slotAt s k; let g := hartAt t k; let c := coreAt t (coreOfSlot k)
          (slotAt t k).st = .running ∧ (slotAt t k).pre = [] ∧
          (savedFor r (coreOfSlot k) = none →
            c.bankrole = rcdBankrole z.rcd ∧ c.sp = z.landed ∧ c.ls = [] ∧ g.pc = rcdEntry z.rcd ∧
            g.x = (Vector.replicate 32 0).set 10 (rcdParam z.rcd) ∧ g.v = Vector.replicate 32 0 ∧ g.p = Vector.replicate 16 0 ∧
            g.vl = 0 ∧ g.tvec = (block k).getD 0 0 &&& ~~~3 ∧ g.frecbase = (block k).getD 1 0 &&& ~~~63 ∧
            g.steph = BitVec.ofNat 32 h ∧ g.tiles = [] ∧ g.frames = [] ∧ g.sil = 0 ∧ g.tstat.lev = false ∧ g.tstat.tip = r.tip ∧
            g.engineFaults = (z.preFault.map (·.2)).toList ∧ ∀ j, j < 6 → g.tileix.toList[j]? = some (rcdTile z.rcd j)) ∧
          ∀ v, savedFor r (coreOfSlot k) = some v →
            c.bankrole = v.bankrole ∧ c.sp = v.sp ∧ c.ls = v.ls ∧
            g = { v.hart with tileix := g.tileix, steph := BitVec.ofNat 32 h, resume := v.atResume
                              tstat := { v.hart.tstat with tip := v.hart.tstat.tip || r.tip } } ∧
            ∀ j, j < 6 → g.tileix.toList[j]? = some (rcdTile z.rcd j)) ∧
    (ks = [slot] → savedFor r own = none → rcdParam y.rcd ≠ 0 → r.place = .bound →
      xlateTable s .dispatcher l.table (rcdParam y.rcd) .read = .page fc kind wlev →
      ∃ t q, exec (.hartStart slot) s = .next t ∧ stepIs t q ∧ q.handle = h ∧ q.place = .retiring ∧
        q.outcome = some (1, fc.toNat, 0) ∧ (slotAt t slot).st ≠ .running))

/-- Every way through the mesh is open (R392). -/
def allUp (s : State) : Prop := ∀ a b, routeUp s a b = true

/-- A running step whose harts, in the slots `ks`, have all started and executed `tdone`, with nothing of theirs outstanding
(R84). -/
def retiring (s : State) (r : StepRec) (l : LaunchRec) (ks : List Nat) : Prop :=
  findStep s r.handle = some r ∧ findLaunch s r.launch = some l ∧ r.place = .running ∧ r.stopping = none ∧ ks ≠ [] ∧
  slotsOfStep s r.handle = ks ∧ (∀ k ∈ ks, (hartAt s k).tdone.isSome = true ∧ (hartAt s k).engineFaults = []) ∧
  stepCopies s r.handle = false ∧ stepMembers r ≤ ks.length

/-- R81, R84, R85 and R174: a step retires over all its slots, which stay occupied until its record is written (R72). A retryable one
publishes: nothing of it is held any longer, and each of its granules is switched at least to PUB and to the level a turn had
asked of it, at home at levels 3 and 4. One that is not turns its declared `out` regions: the newest own granules take PUB's
level, at levels 3 and 4 at home, with their data kept.
A held granule whose metadata is bad aborts the step, using a retry, with the record at FRECBASE and a report that holds it; with
FRECBASE = 0 the report alone holds what it would hold: the model's own reading (log 18). With no retry left, or where FRECBASE
cannot be used, the step completes with FAULT, cause 0x08. A bad granule of an `out` region is not switched, the others are, and
the step completes with FAULT, cause 0x08 and the record's address.
Some of its clauses rest on readings of the model's own (log 14, 16 and 28). -/
def Obligations.Retirement : Prop := ∀ (s : State) (r : StepRec) (l : LaunchRec) (ks : List Nat) (low gran kind : Nat) (e : OutEntry),
  retiring s r l ks → ks.head? = some low →
  let h := r.handle
  let pub := rcdPub (slotAt s low).rcd
  let regions := outRegions l r
  let grans := fun (e : Word × Nat) => (List.range (e.2 / 64)).map fun i : Nat => e.1 + BitVec.ofNat 64 (64 * i)
  let held := heldGranules s h
  let u := switchTo s low
  let base := u.hart.frecbase
  let kept := fun (t : State) => ∀ k ∈ ks, (slotAt t k).st = .running
  let ends := fun (t : State) (o : Nat × Nat × Word) => kept t ∧ (∃ w, w.handle = h ∧ w.final = true ∧ w ∈ t.disp.records) ∧
    ∃ q, findStep t h = some q ∧ q.place = .retiring ∧ q.outcome = some o
  let ended := fun (t : State) => ends t (r.outcome.getD (0, 0, 0))
  let atHome := fun (t : State) (g lvl : Nat) (d : GData) =>
    lvl ≤ (junctionGranule t g).1.level ∧ (junctionGranule t g).1.data = d
  let raised := fun (t : State) (core g lvl : Nat) (d : GData) => if 3 ≤ lvl then atHome t g lvl d
    else ∃ p x, turnFind t core g = some (p, x) ∧ lvl ≤ x.level ∧ x.data = d
  let usable := fun (q : Nat) => (∃ self, Maps u base .write q self) ∧ windowOf (q / 64) = 0 ∧ rangeMeeting u (64 * (q / 64)) 64 = none
  (r.retryable = false → regions = [] → ∃ t, exec (.stepRetire h) s = .next t ∧ ended t ∧ SameMemory s t) ∧
  (r.retryable = false → s.Inv → allUp s → s.mesh = [] → 1 ≤ pub → pub ≤ 4 → (∀ x ∈ s.clusters, x.2.partials = []) →
    (∀ n, ClusterRoom s n ((regions.map fun e => e.2 / 64 + 1).foldl (· + ·) 0)) →
    (∀ e ∈ regions, e.1.toNat % 128 = 0 ∧ e.2 % 128 = 0 ∧ e.1.toNat + e.2 < 2 ^ 48) →
    ∀ pa : Word → Nat,
    -- in every state that the turn may leave the walks of the regions' pages find the same leaves
    let steady := fun (v : State) => (∀ g, (∀ f ∈ regions, ∀ w ∈ grans f, pa w / 64 ≠ g) →
      (junctionGranule v g).1 = (junctionGranule s g).1) ∧ v.counts = s.counts ∧ v.ports = s.ports ∧ allUp v
    (∀ e ∈ regions, ∀ va ∈ grans e, ∃ pte lev, (∀ v, steady v → walk v .dispatcher va 3 1 l.table = .leaf pte lev) ∧ pteHost pte = false ∧
        moving s l.table va lev = false ∧
        pa va = pteBase pte + (if lev = 2 then va.toNat % 2 ^ 29 else va.toNat % 65536) ∧ windowOf (pa va / 64) = 0) →
    (∀ e ∈ regions, ∀ f ∈ regions, ∀ u ∈ grans e, ∀ v ∈ grans f, pa u = pa v → u = v) →
    let sound := fun (va : Word) => ∀ k ∈ ks, ∀ p g, turnFind s (coreOfSlot k) (pa va / 64) = some (p, g) → p ≠ .elsewhere → g.metaKind = none
    let all := ∀ e ∈ regions, ∀ va ∈ grans e, sound va
    (all ∨ base = 0 ∨ ∃ q, usable q ∧ (tlbFind (coreAt s (coreOfSlot low)).tlb (curLaunch u) base).isSome = true) →
    ∃ t, exec (.stepRetire h) s = .next t ∧ (all → ended t) ∧ (¬ all → ends t (1, 0x08, base)) ∧
      (∀ q, ¬ all → base ≠ 0 → usable q → (homeByte t (64 * (q / 64))).toNat % 64 = 0x08 ∧
        littleEndian (fun i => homeByte t (64 * (q / 64) + 4 + i)) 4 = u.hart.steph.toNat) ∧
      ∀ e ∈ regions, ∀ va ∈ grans e, sound va → (∀ q, ¬ all → base ≠ 0 → usable q → q / 64 ≠ pa va / 64) →
        ∀ k ∈ ks, ∀ p g, turnFind s (coreOfSlot k) (pa va / 64) = some (p, g) →
        p ≠ .elsewhere → (∀ q, p ≠ .held q) → ownOf (coreOfSlot k) pub g.prod = true →
        raised t (coreOfSlot k) (pa va / 64) pub g.data) ∧
  (r.retryable = true → s.Inv → allUp s → s.mesh = [] → (∀ x ∈ s.clusters, x.2.partials = []) → (∀ x ∈ held, x.2.2.g.metaKind = none) →
    (∀ x ∈ held, ∀ p g, turnFind (unhold s h) x.2.1 x.1 = some (p, g) → g.metaKind = none) →
    (∀ x ∈ held, windowOf x.1 = 0 ∨ (pub ≤ 3 ∧ x.2.2.want ≤ 3 ∧ s.ports.buffer.length + held.length ≤ bufferRoom)) →
    ∃ t, exec (.stepRetire h) s = .next t ∧ ended t ∧ heldGranules t h = [] ∧
      (1 ≤ pub → pub ≤ 4 → (∀ n, ClusterRoom s n held.length) → (held.map (·.1)).Nodup → ∀ x ∈ held, x.2.2.want ≤ 4 →
        windowOf x.1 = 0 → ownOf x.2.1 pub x.2.2.g.prod = true →
        (∃ p, turnFind (unhold s h) x.2.1 x.1 = some (p, x.2.2.g) ∧ p ≠ .elsewhere) →
        raised t x.2.1 x.1 (max pub x.2.2.want) x.2.2.g.data)) ∧
  (r.retryable = true → badHeld s h = some (gran, e, kind) →
    let why := checkTrap (BitVec.ofNat 64 (64 * gran)) e.g (pathWord 7 0 kind)
    (∀ leg, recordLegAt s low = some leg → exec (.stepRetire h) s = .next (reportLeg s leg)) ∧
    (recordLegAt s low = none → base = 0 ∨ (∃ q, usable q) →
      ∃ t, exec (.stepRetire h) s = .next t ∧ heldGranules t h = [] ∧
        (∃ ws ∈ t.disp.reports, ws.length = 8 ∧ isRecord u why fun k => ws.getD k 0) ∧
        (∀ q, base ≠ 0 → usable q →
          isRecord u why fun k => BitVec.ofNat 64 (littleEndian (fun j => homeByte t (64 * (q / 64) + 8 * k + j)) 8)) ∧
        (r.used < r.retries → (∀ k ∈ ks, (slotAt t k).st = .empty) ∧
          ∃ q, findStep t h = some q ∧ q.place = .queued ∧ q.used = r.used + 1 ∧ q.chkx = r.chkx) ∧
        (r.retries ≤ r.used → ends t (1, 0x08, base))) ∧
    (recordLegAt s low = none → base ≠ 0 → (∀ q, ¬ usable q) → ∃ t, exec (.stepRetire h) s = .next t ∧ ends t (1, 0x08, 0)))

/-- R78, R79, R82, R84, R85, R88, R91, R335, R347 and R362: how steps end and what firmware commands of them. A step does not retire
before its harts have all executed `tdone`; the oldest completion record goes to the ring, which must have room, and its step
leaves with its slots, its last word of energy that charged until then (R86); a machine fault reruns a retryable step with a retry used, or ends it, its slots held until its record is written; a budget, counted from the first
instruction, that is overrun suspends a retryable one with OVR and stops any other; a full barrier lets its harts go on; the commands of DCMD act on the step DHANDLE
names and answer in DSTAT.
Some of its clauses rest on readings of the model's own (log 4, 27, 28 and 29). -/
def Obligations.EndingEvents : Prop := ∀ (s : State) (r : StepRec) (slot : Nat) (w : PendingRecord)
    (ws : List PendingRecord) (b : Barrier) (arg : BitVec 32) (area team : Bool) (gang : Nat) (v : Word),
  let h := r.handle
  let own := coreOfSlot slot
  let runs := findStep s h = some r ∧ r.place = .running ∧ slotsOfStep s h = [slot] ∧ (slotAt s slot).st = .running ∧
    slotHandle (slotAt s slot) = h
  let gone := fun (t : State) => (slotAt t slot).st = .empty
  let ended := fun (t : State) (o c : Nat) (f : Word) => (slotAt t slot).st = .running ∧ (hartAt t slot).tdone.isSome = true ∧ ∃ q, stepIs t q ∧ q.handle = h ∧ q.place = .retiring ∧ q.outcome = some (o, c, f)
  let named := s.disp.dhandle.toNat = h ∧ findStep s h = some r
  let stat := fun (t : State) (n : BitVec 2) => t.disp.dstat = n
  let answers := fun (i : Instr) (n : BitVec 2) => exec i s = .next { s with disp := { s.disp with dstat := n } }
  let level := v.toNat / 2 ^ 12 % 4
  let others := s.disp.routes.filter fun x => !(x.handle == (s.disp.prkey.toNat / 2 ^ 32) && x.index == s.disp.prkey.toNat % 16)
  let gran := (s.disp.cqbase.toNat / 64 + s.disp.cqtail.toNat) % 2 ^ 36
  (runs → (hartAt s slot).tdone = none → Stays (.stepRetire h) s) ∧
  (s.disp.records = w :: ws → ringRoom s.disp = false → Stays .completionRecordWrite s) ∧
  (s.disp.records = w :: ws → ringRoom s.disp = true → ∀ leg, refreshLeg s gran = some leg →
    exec .completionRecordWrite s = .next (reportRoute s leg.1 leg.2)) ∧
  (s.disp.records = w :: ws → ringRoom s.disp = true → windowOf gran = 0 → refreshLeg s gran = none →
    let charged := if w.final then findStep s w.handle else none
    ∃ t, exec .completionRecordWrite s = .next t ∧ s.dtime.toNat ≤ t.dtime.toNat ∧
      t.disp.cqtail.toNat = (s.disp.cqtail.toNat + 1) % s.disp.cqsize.toNat ∧ ws <+: t.disp.records ∧
      (∀ q, charged = some q → (junctionGranule t gran).1 =
        mkGranule (granuleOfWords ((w.words.set 2 (BitVec.ofNat 64 q.energy)).set 4 t.dtime)) prodManagement 4 0) ∧
      (charged = none → (junctionGranule t gran).1 = mkGranule (granuleOfWords (w.words.set 4 t.dtime)) prodManagement 4 0) ∧
      (w.final = false → findStep t w.handle = findStep s w.handle) ∧
      (w.final = true → w.handle % 2 ^ 24 = 0xFFFFFF → findLaunch t (w.handle / 2 ^ 24) = none) ∧
      (w.final = true → w.handle % 2 ^ 24 ≠ 0xFFFFFF → (findStep s w.handle).isSome = true →
        findStep t w.handle = none ∧ (∀ k ∈ slotsOfStep s w.handle, (slotAt t k).st = .empty) ∧ (∀ e ∈ allEdges t, e.2 ≠ w.handle) ∧ ∀ x ∈ t.disp.routes, x.handle ≠ w.handle)) ∧
  (runs → runningSlot s own = some slot → (r.retryable = true → r.used < r.retries →
      ∃ t q, exec (.machineFault own) s = .next t ∧ gone t ∧ stepIs t q ∧ q.handle = h ∧ q.place = .queued ∧ q.used = r.used + 1) ∧
    ((r.retryable = false ∨ r.retries ≤ r.used) → ∃ t, exec (.machineFault own) s = .next t ∧ ended t 1 0x0F 0) ∧
    (r.budget = 0 ∨ (hartAt s slot).began = false → Stays (.budgetOverrun own) s) ∧
    (r.budget ≠ 0 → (hartAt s slot).began = true → r.retryable = true → ∃ t q w, exec (.budgetOverrun own) s = .next t ∧ gone t ∧ stepIs t q ∧ q.handle = h ∧
      q.place = .queued ∧ q.ovr = true ∧ q.used = r.used ∧ t.disp.records = s.disp.records ++ [w] ∧ w.handle = h ∧ w.final = false) ∧
    (r.budget ≠ 0 → (hartAt s slot).began = true → r.retryable = false → r.stopping = none → stepCopies s h = true →
      ∃ t q, exec (.budgetOverrun own) s = .next t ∧
      stepIs t q ∧ q.handle = h ∧ q.place = .running ∧ q.stopping = some .overrun)) ∧
  (s.disp.barriers.find? (fun x => x.is h team gang) = some b → b.handle = h → b.team = team → b.cluster = gang →
    (barrierFull s b = false → Stays (.barrierOpen h team gang) s) ∧
    (barrierFull s b = true → b.arrived = [slot] → ∃ t, exec (.barrierOpen h team gang) s = .next t ∧
      (∀ x ∈ t.disp.barriers, x.is h team gang = false) ∧ GoneOn (hartAt s slot) (hartAt t slot) ∧
      (hartAt t slot).sil = (hartAt s slot).sil ||| b.union ∧ (hartAt t slot).x = (hartAt s slot).x ∧
      ∀ k, k ≠ slot → hartAt t k = hartAt s k)) ∧
  (findStep s h = some r → r.place = .queued → r.timer ≠ 0 → momentComes s r.timer.toNat = true → ∃ t, exec (.timerDeadline h) s = .next t ∧
    t.dtime.toNat = max s.dtime.toNat r.timer.toNat ∧ stepIs t { r with timer := 0, tip := true }) ∧
  (findStep s h = some r → (r.timer = 0 ∨ momentComes s r.timer.toNat = false) → Stays (.timerDeadline h) s) ∧
  (runs → r.timer ≠ 0 → momentComes s r.timer.toNat = true → ∃ t, exec (.timerDeadline h) s = .next t ∧ (hartAt t slot).tstat = { (hartAt s slot).tstat with tip := true }) ∧
  (named → r.place ≠ .retiring →
    (r.ovr = false → answers (.extend arg) 2 ∧ answers .retry 2) ∧
    (r.ovr = true → ∃ t, exec (.extend arg) s = .next t ∧ stat t 0 ∧
      stepIs t { r with ovr := false, budget := min (2 ^ 32 - 1) (r.budget + arg.toNat) }) ∧
    (r.ovr = true → r.retryable = true → r.used < r.retries → ∃ t, exec .retry s = .next t ∧ stat t 0 ∧
      stepIs t { r with ovr := false, used := r.used + 1 }) ∧
    (r.retryable = false → answers .retry 2) ∧
    (launchOfHandle s h = none → r.place = .queued → r.win = none → ∃ t, exec .kill s = .next t ∧ stat t 0 ∧
      ∃ q, stepIs t q ∧ q.handle = h ∧ q.place = .retiring ∧ q.outcome = some (3, 0, 0)) ∧
    (launchOfHandle s h = none → runs → r.win = none → ∃ t, exec .kill s = .next t ∧ stat t 0 ∧ ended t 3 0 0) ∧
    (r.place = .queued → answers (.preempt area) 0) ∧
    (runs → r.retryable = true → ∃ t q, exec (.preempt area) s = .next t ∧ stat t 0 ∧ gone t ∧ stepIs t q ∧ q.handle = h ∧
      q.place = .queued ∧ q.used = r.used) ∧
    (runs → r.retryable = false → r.stopping ≠ none → answers (.preempt area) 3) ∧
    (runs → r.retryable = false → r.stopping = none → answers (.preempt false) 2) ∧
    (runs → r.retryable = false → r.stopping = none → stepCopies s h = true → ∃ t q, exec (.preempt true) s = .next t ∧ stat t 3 ∧
      stepIs t q ∧ q.handle = h ∧ q.place = .running ∧ q.stopping = some .preempt ∧ stopped t slot = true) ∧
    (runs → r.retryable = false → r.stopping = none → stepCopies s h = false → memberCores r = [own] → allUp s → s.mesh = [] →
      (clusterAt s (clusterOfSlot slot)).partials = [] →
      (∀ x ∈ (coreAt s own).o1 ++ (clusterAt s (clusterOfSlot slot)).o2, windowOf x.1 = 0) →
      ∃ t q x, exec (.preempt true) s = .next t ∧
        stat t 0 ∧ gone t ∧ stepIs t q ∧ q.handle = h ∧ q.place = .queued ∧ q.saved = [some x]) ∧
    (s.disp.dtimer = 0 ∨ s.dtime.toNat < s.disp.dtimer.toNat → ∃ t, exec .timer s = .next t ∧ stat t 0 ∧
      stepIs t { r with timer := s.disp.dtimer })) ∧
  (named → r.place = .retiring → launchOfHandle s h = none →
    answers (.extend arg) 2 ∧ answers .retry 2 ∧ answers .kill 2 ∧ answers (.preempt area) 2 ∧ answers .timer 2) ∧
  (findStep s s.disp.dhandle.toNat = none → launchOfHandle s s.disp.dhandle.toNat = none → stepGone s s.disp.dhandle.toNat = false →
    answers (.extend arg) 1 ∧ answers .retry 1 ∧ answers .kill 1 ∧ answers (.preempt area) 1 ∧ answers .timer 1) ∧
  (findStep s s.disp.dhandle.toNat = none → launchOfHandle s s.disp.dhandle.toNat = none → stepGone s s.disp.dhandle.toNat = true →
    answers (.extend arg) 2 ∧ answers .retry 2 ∧ answers .kill 2 ∧ answers (.preempt area) 2 ∧ answers .timer 2) ∧
  (1 ≤ level → level ≤ 3 → s.disp.routes.length < 4096 →
    exec (.routeInstall v) s = .next { s with disp := { s.disp with routes := others ++
      [⟨s.disp.prkey.toNat / 2 ^ 32, s.disp.prkey.toNat % 16, v.toNat % 512, v.toNat / 512 % 4, level⟩] } } ∧
    exec (.routeRemove v) s = .next { s with disp := { s.disp with routes := others } }) ∧
  (level = 0 ∨ 4096 ≤ s.disp.routes.length → answers (.routeInstall v) 2 ∧ answers (.routeRemove v) 2)

/-! ## Events of record streams -/

/-- WM after its recomputation: the greater of WM and the least watermark of an active source (R373). -/
def streamWm (g : Graph) : Nat :=
  max g.wm.toNat (((((List.range (g.nsrcm1 + 1)).filter fun i => (g.source i).st == .active).map fun i =>
    (g.source i).wm.toNat).min?).getD g.wm.toNat)

/-- A record is dropped for a reason: its counter in SGDROP rises unless it is at its end, and LASTDROP and SGSAMP hold
the reason and the header (R371). -/
def Dropped (v t : State) (gi : Nat) (place code : Nat) (h0 h1 : Word) : Prop :=
  let g := graphAt v gi
  t = setGraph v gi { g with
    sgdrop := if g.sgdrop.toNat / 2 ^ place % 65536 < 65535 then g.sgdrop + (1 : Word) <<< place else g.sgdrop
    lastdrop := BitVec.ofNat 3 code, samp := h1 ++ h0 }

/-- A record waits at its graph: STALL is set, and nothing else changes (R383). -/
def Held (v t : State) (gi : Nat) (r : Stalled) : Prop :=
  t = setGraph v gi { graphAt v gi with stalled := (graphAt v gi).stalled ++ [r] } ∧ (graphAt t gi).stat.getLsbD 63 = true

/-- The header and payload that a record leaves in its slot (R369). -/
def recordByte (h0 h1 : Word) (payload : List Byte) (j : Nat) : Byte :=
  if j < 16 then (h1 ++ h0).extractLsb' (8 * j) 8 else payload.getD (j - 16) 0

/-- R367-R369, R371-R375, R382, R383, R386 and R415: a record enters the graph and source that its endpoint is bound to. A data
record of an enabled graph is deposited in the slot of its arrival index, or dropped for the first reason that holds, or waits,
for a slot, for a window (R383) or behind another of its source; a watermark raises its source's; anything from an idle source
makes it rejoining, and silence makes one idle; WM follows the active sources and never falls; a rise of the output watermark
gives each bound output a record to send; slots are reclaimed once every cluster has acknowledged the notices over them; a graph is
enabled afresh, and one that is disabled loses its windows and waiting records and reclaims its slots with the same notices.
Where firmware is told of something on the way, what it makes of that is not stated.
Some of its clauses rest on readings of the model's own (log 4, the moments that await their events, and 31). -/
def Obligations.StreamEvents : Prop := ∀ (s : State) (gb : BitVec 6) (port : BitVec 3) (ep : BitVec 128) (h0 h1 v : Word)
    (payload : List Byte) (gi src id k : Nat) (l : LaunchRec) (o : Output) (out : BitVec 3) (r : Stalled) (u : State)
    (rises : List Word),
  let g := graphAt s gi
  let i := Instr.streamRecord port ep h0 h1 payload
  let m := Instr.watermarkRecord port ep h0 h1
  let len := h1.toNat / 65536 % 65536
  let data := len ≠ 65535
  let enters := boundSources s ep = [(gi, src)] ∧ g.en = true ∧ portRuns s port = true
  let foreign := g.nsrcm1 < h1.toNat % 65536
  let alone := g.waitingOf src = none
  let q := touchSource s gi src
  let gq := graphAt q gi
  let x := g.source src
  let y := gq.source src
  let wins := gq.windowsOf h0.toNat
  let r0 : Stalled := ⟨port.toNat, src, h0, h1, payload, none⟩
  let size := 16 + len ≤ gq.slotBytes ∧ len ≤ 4080
  let fresh := wins.any (fun k => !gq.tooLate k) = true
  let opening := (wins.filter fun k => (gq.win k).isNone && !gq.tooLate k).length
  let pa := gq.base + gq.next % gq.slots * gq.slotBytes
  let gr := graphAt s gb.toNat
  let at' := gr.idleAt (gr.source src)
  let new := { gr with sgcfg := v &&& sgcfgMask }
  let off := Instr.graphDisable gb v
  let on := Instr.graphEnable gb v
  let send := Instr.outputWatermark id out
  (data → Stays m s) ∧ (¬ data → Stays i s) ∧
  ((portRuns s port = false ∨ ∀ b ∈ boundSources s ep, (graphAt s b.1).en = false) → Stays i s ∧ Stays m s) ∧
  (enters → alone → g.nsrcm1 < src → (data → ∃ t, exec i s = .next t ∧ Dropped s t gi 32 2 h0 h1) ∧
    (¬ data → ∃ t, exec m s = .next t ∧ Dropped s t gi 32 2 h0 h1)) ∧
  (enters → src ≤ g.nsrcm1 →
    (y.st = if x.st = .active ∨ g.wm.toNat ≤ x.wm.toNat then .active else .rejoining) ∧ y.wm = x.wm ∧ (q.disp.reports = s.disp.reports → y.last = q.dtime) ∧
    gq.stalled = g.stalled ∧ gq.next = g.next ∧ g.wm.toNat ≤ gq.wm.toNat ∧ s.dtime.toNat ≤ q.dtime.toNat ∧
    (¬ alone → (data → ∃ t, exec i s = .next t ∧ Held q t gi r0) ∧
      (¬ data → ∃ t, exec m s = .next t ∧ Held q t gi { r0 with payload := [] })) ∧
    (alone → foreign → (data → ∃ t, exec i s = .next t ∧ Dropped q t gi 32 2 h0 h1) ∧
      (¬ data → ∃ t, exec m s = .next t ∧ Dropped q t gi 32 2 h0 h1)) ∧
    (alone → ¬ foreign → data →
      (¬ size → ∃ t, exec i s = .next t ∧ Dropped q t gi 16 3 h0 h1) ∧
      (size → ¬ fresh → ∃ t, exec i s = .next t ∧ Dropped q t gi 48 1 h0 h1) ∧
      (size → fresh → gq.slots ≤ gq.next - gq.rcl →
        (gq.dropfull = true → ∃ t, exec i s = .next t ∧ Dropped q t gi 0 4 h0 h1) ∧
        (gq.dropfull = false → ∃ t, exec i s = .next t ∧ Held q t gi r0)) ∧
      (size → fresh → gq.next - gq.rcl < gq.slots →
        (256 < gq.wins.length + opening → ∃ t, exec i s = .next t ∧ Held q t gi r0) ∧
        (gq.wins.length + opening ≤ 256 → allUp s → s.Inv → gq.base % 64 = 0 → gq.slotBytes % 64 = 0 →
          ∃ t, exec i s = .next t ∧ (graphAt t gi).next = gq.next + 1 ∧ (t.disp.reports = s.disp.reports → t.hart = s.hart) ∧
            (∀ j, j < 16 + len → (junctionGranule t ((pa + j) / 64)).1.prod = prodPort port.toNat ∧
              (junctionGranule t ((pa + j) / 64)).1.level = 4 ∧ homeByte t (pa + j) = recordByte h0 h1 payload j) ∧
            ∀ a, (a < pa ∨ pa + gq.slotBytes ≤ a) → homeByte t a = homeByte s a))) ∧
    (alone → ¬ foreign → ¬ data → ∃ t, exec m s = .next t ∧ ((graphAt t gi).source src).wm.toNat = max x.wm.toNat h0.toNat ∧
      ((graphAt t gi).source src).st = (if y.st = .active ∨ gq.wm.toNat ≤ max x.wm.toNat h0.toNat then .active else .rejoining) ∧
      (graphAt t gi).wm.toNat = streamWm { graphAt t gi with wm := gq.wm } ∧ gq.wm.toNat ≤ (graphAt t gi).wm.toNat ∧
      (outputOf q id out.toNat = some o → findLaunch t id = some l → outputOf t id out.toNat = some
        (if (kernelGraph t id).isSome ∧ outputWm q l < outputWm t l ∧ o.highest < outputWm t l then
          { o with rises := o.rises ++ [BitVec.ofNat 64 (outputWm t l)] } else o)))) ∧
  (gr.en = true → gr.idle ≠ 0 → src ≤ gr.nsrcm1 → (gr.source src).st = .active → momentComes s at' = true → at' < 2 ^ 64 →
    ∃ t, exec (.idleTimeout gb src) s = .next t ∧ (t.disp.reports = s.disp.reports → t.dtime.toNat = max s.dtime.toNat at') ∧
      ((graphAt t gb.toNat).source src).st = .idle ∧
      (graphAt t gb.toNat).wm.toNat = streamWm { graphAt t gb.toNat with wm := gr.wm }) ∧
  (gr.en = false ∨ gr.idle = 0 ∨ (gr.source src).st ≠ .active ∨ momentComes s at' = false → Stays (.idleTimeout gb src) s) ∧
  (outputOf s id out.toNat = some o → (o.rises = [] → Stays send s) ∧
    (o.rises = v :: rises → v.toNat ≤ o.sentWm.toNat → ∃ t, exec send s = .next t ∧
      outputOf t id out.toNat = some { o with rises := rises } ∧ t.mer.sent = s.mer.sent) ∧
    (o.rises = v :: rises → o.sentWm.toNat < v.toNat → kernelGraph s id = none → Stays send s) ∧
    (o.rises = v :: rises → o.sentWm.toNat < v.toNat → (kernelGraph s id).isSome = true → boundSources s o.endpoint = [] →
      o.src < 65536 → ∃ t, exec send s = .next t ∧
        outputOf t id out.toNat = some { o with seq := o.seq + 1, sentWm := v, rises := rises } ∧
        t.mer.sent = s.mer.sent ++ [⟨o.endpoint, v, BitVec.ofNat 64 (o.seq.toNat * 2 ^ 32 + 65535 * 65536 + o.src), []⟩])) ∧
  (gr.newRcl ≤ gr.rcl → Stays (.slotReclaim gb) s) ∧
  (gr.rcl < gr.newRcl → (noticeSlots s gr gr.newRcl = none → Stays (.slotReclaim gb) s) ∧
    (noticeSlots s gr gr.newRcl = some u → ∃ t, exec (.slotReclaim gb) s = .next t ∧ acked t prodManagement = true ∧
      (graphAt t gb.toNat) = { gr with rcl := gr.newRcl } ∧
      (∀ x ∈ gr.wins, x.retained = true → gr.newRcl ≤ x.lowest) ∧ gr.newRcl ≤ gr.next)) ∧
  (gr.waitingOf k = none → Stays (.stalledRecordDeposit gb k) s) ∧
  (gr.waitingOf k = some r → (r.slot.isSome = true ∨ takeRecord s gb.toNat r = none → Stays (.stalledRecordDeposit gb k) s) ∧
    (r.slot = none → takeRecord s gb.toNat r = some u → ∃ t, exec (.stalledRecordDeposit gb k) s = .next t ∧
      t = setGraph u gb.toNat { graphAt u gb.toNat with stalled := (graphAt u gb.toNat).stalled.erase r })) ∧
  (v.getLsbD 63 = true → gr.en = false → enableOk s gb.toNat new = true → ∃ t ss, exec on s = .next t ∧
    t = { setGraph s gb.toNat { new with wm := 0, next := 0, rcl := 0, lastdrop := 0, sources := ss, wins := [], stalled := [] } with
      dtime := t.dtime, tick := t.tick } ∧
    (∀ j, j ≤ new.nsrcm1 → (graphAt t gb.toNat).source j = ⟨.active, 0, t.dtime⟩) ∧ (graphAt t gb.toNat).en = true ∧
    (graphAt t gb.toNat).stat = 0) ∧
  (v.getLsbD 63 = true → (gr.en = true ∨ enableOk s gb.toNat new = false) → Stays on s) ∧
  (v.getLsbD 63 = false → gr.en = true → noticeSlots s gr gr.next = none → Stays off s) ∧
  (v.getLsbD 63 = false → gr.en = true → noticeSlots s gr gr.next = some u → ∃ t, exec off s = .next t ∧
    (graphAt t gb.toNat).en = false ∧ (graphAt t gb.toNat).rcl = gr.next ∧ (gr.rcl < gr.next → acked t prodManagement = true) ∧
    (graphAt t gb.toNat).wins = [] ∧ (graphAt t gb.toNat).stalled = [] ∧ ∀ j, j ≠ gb.toNat → graphAt t j = graphAt s j) ∧
  (v.getLsbD 63 = false → gr.en = false → ∃ t, exec off s = .next t ∧ t = setGraph s gb.toNat new) ∧
  (v.getLsbD 63 = true → Stays off s) ∧ (v.getLsbD 63 = false → Stays on s)

/-- A firing has been queued: a step of the launch with a window context, every TILEIX zero, the launch's PRIO and BUDGET, and a
dependence on the window's previous firing, if that is not yet complete, and on nothing else (R378, R381). -/
def Fired (s t : State) (l : LaunchRec) (n : Nat) (ctx : WinCtx) (after : Option Nat) : Prop :=
  let handle := l.id * 2 ^ 24 + n % (2 ^ 24 - 1)
  ∃ r, findStep t handle = some r ∧ r.launch = l.id ∧ r.place = .queued ∧ r.tileix = [0, 0, 0, 0, 0, 0] ∧ r.win = some ctx ∧
    r.ownPrio = blkPrio l.blk ∧ r.budget = blkBudget l.blk ∧
    ((∀ e ∈ allEdges s, e.1 / 2 ^ 24 ≠ l.id) → r.deps = if after.isSome then 1 else 0) ∧
    ∀ h, after = some h → (handle, h) ∈ t.disp.edges

/-- The context of a firing of window `k` (Table 26.5). -/
def firingContext (g : Graph) (gi k lo hi nlate rev : Nat) : WinCtx :=
  ⟨gi, k, BitVec.ofNat 64 (k * g.slide), BitVec.ofNat 64 (min (2 ^ 64 - 1) ((k + g.mm1 + 1) * g.slide)), BitVec.ofNat 64 lo,
    BitVec.ofNat 64 hi, BitVec.ofNat 64 (nlate * 65536 + rev)⟩

/-- The graph and launch of a firing: no step of the launch stands in the queues, and the live windows stand in
ascending order, at most 256 of them. -/
def firesClean (s : State) (gi : Nat) (l : LaunchRec) : Prop :=
  (graphAt s gi).en = true ∧ findLaunch s (graphAt s gi).kl = some l ∧ (∀ r ∈ s.disp.steps, r.handle / 2 ^ 24 ≠ l.id) ∧
  ((graphAt s gi).wins.map Win.id).Pairwise (· < ·) ∧ (graphAt s gi).wins.length ≤ 256

/-- R376-R378, R380 and R381: a deposited record opens every window of its event time that is not live, on time or,
past its end, directly in state 2, joins the late list of one that has transited, and leaves one that is too late; the eighth record of
a late list queues its amendment. When WM reaches the ends of open windows they transit in ascending order, each with a step
whose context runs from its first record to NEXT; when it reaches their limits they expire, a pending amendment first.
AMENDDELAY after a late list began, its amendment is queued.
Some of its clauses rest on readings of the model's own (log 4, the moment of an amendment, and 31). -/
def Obligations.StreamWindows : Prop := ∀ (s t : State) (gb : BitVec 6) (port : BitVec 3) (ep : BitVec 128) (h0 h1 : Word)
    (payload : List Byte) (gi src k a : Nat) (w : Win) (l : LaunchRec) (rest : List Nat),
  let q := touchSource s gi src
  let g := graphAt q gi
  let len := h1.toNat / 65536 % 65536
  let enters := boundSources s ep = [(gi, src)] ∧ (graphAt s gi).en = true ∧ portRuns s port = true ∧ src ≤ (graphAt s gi).nsrcm1 ∧
    (graphAt s gi).waitingOf src = none
  let stop' := fun (k : Nat) => min (2 ^ 64 - 1) ((k + g.mm1 + 1) * g.slide)
  let limit := fun (k : Nat) => min (2 ^ 64 - 1) (stop' k + g.lateness)
  let wm := g.wm.toNat
  let holds := k * g.slide ≤ h0.toNat ∧ h0.toNat < (k + g.mm1 + 1) * g.slide
  let after := (graphAt t gi).win k
  let W := (graphAt t gi).wm.toNat
  let going := g.wins.filter fun w => w.state == 0 && decide (stop' w.id ≤ W)
  let gr := graphAt s gb.toNat
  let next := match w.rev with | some n => n + 1 | none => 0
  let amended := fun (t : State) (gi state : Nat) => ∃ x, (graphAt t gi).win k = some x ∧ x.state = state ∧ x.late = [] ∧
    x.rev = some next ∧ x.firings.length = w.firings.length + 1 ∧ w.firings <+: x.firings ∧ x.last = x.firings.getLast?
  let joined := fun (now : Word) => t.disp.reports = q.disp.reports → now = t.dtime
  (enters → len ≠ 65535 → exec (.streamRecord port ep h0 h1 payload) s = .next t → (graphAt t gi).next = g.next + 1 → 1 ≤ g.slide →
    (∀ k, k ∈ g.windowsOf h0.toNat ↔ k * g.slide ≤ h0.toNat ∧ h0.toNat < (k + g.mm1 + 1) * g.slide) ∧
    (¬ holds → after = g.win k) ∧
    (holds → g.win k = none →
      (wm < stop' k → after = some ⟨k, 0, some g.next, g.next, [], 0, none, [], none⟩) ∧
      (stop' k ≤ wm → wm < limit k → ∃ now, joined now ∧ after = some ⟨k, 2, none, g.next, [g.next], now, none, [], none⟩) ∧
      (limit k ≤ wm → after = none)) ∧
    (holds → g.win k = some w →
      (w.state = 0 ∨ w.state = 3 ∨ w.rev = some 65535 → after = some w) ∧
      (w.state = 1 ∨ w.state = 2 → w.rev ≠ some 65535 →
        (w.late.length < 7 → ∃ now, joined now ∧ after = some { w with
          state := 2, late := w.late ++ [g.next], lateAt := if w.late = [] then now else w.lateAt }) ∧
        (7 ≤ w.late.length → (findLaunch q g.kl).isSome = true → amended t gi 1)))) ∧
  (enters → len = 65535 → h1.toNat % 65536 ≤ g.nsrcm1 → exec (.watermarkRecord port ep h0 h1) s = .next t → firesClean q gi l →
    (∀ n, going[n]? = some w → W < limit w.id → ∃ x, (graphAt t gi).win w.id = some x ∧ x.state = 1 ∧ x.rev = some 0 ∧
      x.firings = w.firings ++ [l.id * 2 ^ 24 + (l.firings + n) % (2 ^ 24 - 1)] ∧ x.last = x.firings.getLast? ∧
      Fired q t l (l.firings + n) (firingContext g gi w.id (w.first.getD 0) g.next 0 0) none) ∧
    (g.win k = some w → w.state = 0 → W < stop' k → after = some w) ∧
    (g.win k = some w → (w.state = 1 ∧ w.late = [] ∨ w.state = 3) → W < limit k → w.retained = true → after = some w) ∧
    (g.win k = some w → w.state = 1 → w.late = [] → limit k ≤ W →
      after = if w.firings = [] then none else some { w with state := 3 }) ∧
    (g.win k = some w → w.state = 2 → w.late = a :: rest → limit k ≤ W → amended t gi 3)) ∧
  (gr.win k = none → Stays (.amenddelayExpiry gb k) s) ∧
  (gr.win k = some w → (gr.en = false ∨ w.state ≠ 2 ∨ momentComes s (gr.amendAt w) = false) → Stays (.amenddelayExpiry gb k) s) ∧
  (gr.win k = some w → gr.en = true → w.state = 2 → momentComes s (gr.amendAt w) = true → w.late = a :: rest →
    firesClean s gb.toNat l → ∃ u, exec (.amenddelayExpiry gb k) s = .next u ∧ amended u gb.toNat 1 ∧
      Fired s u l l.firings (firingContext gr gb.toNat k a ((a :: rest).getLast (by simp) + 1) (rest.length + 1) next)
        (w.last.filter fun h => w.firings.contains h) ∧
      findLaunch u l.id = some { l with firings := l.firings + 1 })

/-! ## Messages -/

/-- The bytes of words, least significant first. -/
def bytesOf (ws : List Word) : List Byte := ws.flatMap fun w => (List.range 8).map fun k => w.extractLsb' (8 * k) 8

/-- A request of the host on port 0 with a well-formed header (Table 30.1): TYPE, RESP, reserved bits and STATUS 0, and LEN,
of at most 65,536. -/
def Asks (m : HostMsg) (type : Nat) : Prop :=
  m.port = 0 ∧ m.h0.toNat / 2 ^ 32 = type * 2 ^ 24 ∧ m.h1.toNat = m.body.length ∧ m.body.length ≤ 65536

/-- The response to a message: the same TYPE, TAG and connection, RESP, STATUS, and LEN with its body (R407). -/
def answerTo (m : HostMsg) (status : Nat) (body : List Byte) : Msg :=
  ⟨m.port.toNat, m.conn, BitVec.ofNat 64 (m.h0.toNat / 2 ^ 56 * 2 ^ 56 + 2 ^ 55 + status * 2 ^ 32 + m.h0.toNat % 2 ^ 32),
    BitVec.ofNat 64 body.length, body⟩

/-- The device answers a message: one response, and what else changes is `f`. -/
def Answers (i : Instr) (s : State) (f : State) (m : HostMsg) (status : Nat) (body : List Byte) : Prop :=
  exec i s = .next { f with ports := { f.ports with sent := f.ports.sent ++ [answerTo m status body] } }

/-- The message waits at the end of the queue of messages, and what else changes is `f` (R410). -/
def Queued (i : Instr) (s : State) (f : State) (m : HostMsg) (image : List (Nat × GData)) : Prop :=
  exec i s = .next { f with ports := { f.ports with waiting := f.ports.waiting ++ [⟨m, image⟩] } }

/-- The rows of the table that a message of the host is an instance of. -/
def MessageRow (m : HostMsg) (image : List (Nat × GData)) (i : Instr) : Prop :=
  let l := m.toMsgLink
  let h := m.toMsgHead
  let p := m.toMsgPacket
  i = .launch l h m.body ∨ i = .querySelfTest m ∨ i = .queryCapv m ∨ i = .queryRetirementLog l p ∨ i = .queryLiveLaunches m ∨
  i = .pageToDevice l h m.body image ∨ i = .pageToHost l h m.body ∨ i = .streamBindSource l h m.body ∨
  i = .streamBindOutput l h m.body ∨ i = .window l h m.body ∨ i = .getVersion l p ∨ i = .getCapabilities l p ∨
  i = .negotiateAlgorithms l p ∨ i = .getDigests l p ∨ i = .getCertificate l p ∨ i = .challenge l p ∨ i = .getMeasurements l p ∨
  i = .unsupportedRequest l p

/-- R66, R407-R410, R413-R415, R417-R419 and R421: what firmware answers. A header that is malformed is answered with STATUS 4,
and so are a QUERY and a PAGE with a reserved bit; before the device is open all but QUERY items 0 and 2 and SPDM are answered
with STATUS 3, and by the boot ROM item 2 too; a LAUNCH is tested in the order of R410; pages move in and out, wait for the
instructions that hold a translation, and are refused; endpoints and windows are bound; a message behind one of its connection
that waits is not answered before it; the host's answer to the device's own PAGE request is matched to it by TAG; a move whose
homes cannot be reached, or whose notice a cluster cannot acknowledge, waits.
Some of its clauses rest on readings of the model's own (log 8, a buffered granule that fails its check, 30, 32 and 35). -/
def Obligations.Messages : Prop := ∀ (s u : State) (m : HostMsg) (blk : List Word) (table sel va w r lo hi : Word) (n id l k : Nat)
    (image : List (Nat × GData)) (leaf : Nat × Word × Nat) (entry : List Word × Vector Byte 96) (q : PageRequest) (a : Waiting)
    (why : TrapInfo) (leg : Nat × Nat) (rest : List Act) (ms : List (List Byte)) (d : List Byte),
  let rows := MessageRow m image
  let first := (s.ports.waiting.all fun w => w.msg.conn != m.conn) = true
  let asks := fun (type : Nat) (ws : List Word) => Asks m type ∧ first ∧ m.body = bytesOf ws
  let good := fun (type : Nat) (ws : List Word) => asks type ws ∧ opened s = true
  let ep := hi ++ lo
  let link := m.toMsgLink
  let head := m.toMsgHead
  let packet := m.toMsgPacket
  let toDev := Instr.pageToDevice link head m.body image
  let toHost := Instr.pageToHost link head m.body
  let launch := Instr.launch link head m.body
  let window := Instr.window link head m.body
  let bindSource := Instr.streamBindSource link head m.body
  let bindOutput := Instr.streamBindOutput link head m.body
  let page := fun (dir : Nat) => good 3 [w, va, 0] ∧ w.toNat = l * 256 + dir ∧ l < 256 ∧ va.toNat < 2 ^ 48
  let path := moveLeg s leaf = none
  let mapped := pageLeaf s l va = .ok leaf ∧ va.toNat % (if leaf.2.2 = 2 then 2 ^ 29 else 65536) = 0
  let inHbm := pteBase leaf.2.1 < hbmBytes
  let t := tableOf s l
  let live := (findLaunch s l).isSome = true
  let blocked := moveBlocked s t va leaf.2.2
  let i := Instr.pageResponse link head m.body image
  let response := m.port = 0 ∧ m.h0.toNat / 2 ^ 48 = 3 * 256 + 128 ∧ m.h1.toNat = m.body.length ∧ m.body.length ≤ 65536
  let asked := s.ports.pageRequests.find? (fun q => q.tag == m.h0.setWidth 32) = some q
  let found := leafAt s (BitVec.ofNat 64 (q.page * 65536)) 3 1 q.table
  let askedIn := moveIn s q.table (BitVec.ofNat 64 (q.page * 65536)) leaf image
  let told := NoticeComes s prodMigration (pteBase leaf.2.1 / 64) (pteBase leaf.2.1 / 64 + pageBytes leaf.2.2 / 64 - 1)
  let match' := asked ∧ found = .ok leaf
  let closed := opened s = false
  let code := (m.body.getD 1 0).toNat
  let spdm := Asks m 6 ∧ first
  let replies := fun (i : Instr) (body : List Byte) => Answers i s { s with tick := s.tick + 1 } m 0 body
  let mine := fun (x : Nat × OutEntry) => windowOf x.1 == n
  let s0 := { s with agenda := rest }
  -- the header, the port and the connection
  (m.port = 0 → m.h0.getLsbD 55 = false → first →
    (m.h0.toNat / 2 ^ 48 % 128 ≠ 0 ∨ m.h0.toNat / 2 ^ 32 % 65536 ≠ 0 ∨ m.h1.toNat ≠ m.body.length ∨ 65536 < m.h1.toNat ∨ m.h0.toNat / 2 ^ 56 = 0 ∨
      6 < m.h0.toNat / 2 ^ 56) → ∀ i, rows i → Answers i s s m 4 []) ∧
  ((m.port ≠ 0 ∨ m.h0.getLsbD 55 = true) → ∀ i, rows i → Stays i s) ∧
  (Asks m 2 → m.body = bytesOf [1] → ¬ first → Queued (.queryCapv m) s s m []) ∧
  (Asks m 1 → m.body = bytesOf (blk ++ [table]) → blk.length = 8 → ¬ first → Queued launch s s m []) ∧
  (Asks m 1 → Stays (.queryCapv m) s ∨ m.body.length ≠ 72) ∧
  (s.agenda = .resume k :: rest → s.ports.waiting.find? (fun x => x.msg.conn == k) = some a →
    (answer a.msg a.image s0 = (u, true) → step s = .next { u with ports := { u.ports with waiting := u.ports.waiting.erase a } }) ∧
    (answer a.msg a.image s0 = (u, false) → step s = .next u)) ∧
  -- LAUNCH
  (good 1 (blk ++ [table]) → blk.length = 8 →
    ((blkBad blk = true ∨ table.toNat % 512 ≠ 0) → Answers launch s s m 1 []) ∧
    (blkBad blk = false → table.toNat % 512 = 0 → (255 ≤ s.disp.launches.length → Answers launch s s m 2 []) ∧
      (acceptLaunch blk table.toNat false (some m) s = (.ok (.id id), u) →
        Answers launch s u m 0 (bytesOf [BitVec.ofNat 64 (id * 2 ^ 24 + 0xFFFFFF)])) ∧
      (acceptLaunch blk table.toNat false (some m) s = (.ok .refused, u) → Answers launch s u m 1 []) ∧
      (acceptLaunch blk table.toNat false (some m) s = (.error .hold, u) → Queued launch s u m []))) ∧
  -- QUERY
  (asks 2 [w] → (3 < w.toNat % 256 ∨ w.toNat / 2 ^ 8 % 2 ^ 24 ≠ 0 ∨ w.toNat / 2 ^ 48 ≠ 0 ∨
    (w.toNat % 256 ≠ 2 ∧ w.toNat / 2 ^ 32 % 65536 ≠ 0)) → ∀ i, rows i → Answers i s s m 4 []) ∧
  (asks 2 [0] → Answers (.querySelfTest m) s s m 0 (bytesOf s.ports.selfTest)) ∧
  (good 2 [1] → Answers (.queryCapv m) s s m 0 (bytesOf [capv s])) ∧
  (asks 2 [w] → w.toNat = n * 2 ^ 32 + 2 → n < 65536 → (closed → s.ports.rom = false) →
    (s.svc.log[n]? = some entry → Answers (.queryRetirementLog link packet) s s m 0 (bytesOf entry.1 ++ entry.2.toList)) ∧
    (s.svc.log[n]? = none → Answers (.queryRetirementLog link packet) s s m 1 [])) ∧
  (good 2 [3] → ∃ ls : List LaunchRec, Answers (.queryLiveLaunches m) s s m 0
      (bytesOf (BitVec.ofNat 64 ls.length :: ls.flatMap launchDwords)) ∧
    (∀ l ∈ ls, l ∈ s.disp.launches) ∧ ∀ l, l.id < 256 → findLaunch s l.id = some l → l ∈ ls) ∧
  -- PAGE
  (asks 3 [w, va, r] → (w.toNat / 2 ^ 16 ≠ 0 ∨ w.toNat / 2 % 128 ≠ 0 ∨ 2 ^ 48 ≤ va.toNat ∨ r ≠ 0) → ∀ i, rows i → Answers i s s m 4 []) ∧
  (page 0 → (findLaunch s l = none → Answers toDev s s m 1 []) ∧
    (live → pageLeaf s l va = .error .absent → Answers toDev s (dropMove s t va) m 1 []) ∧
    (live → pageLeaf s l va = .error (.fault why) → Answers toDev s (reportWalk (dropMove s t va) (some why)) m 1 []) ∧
    (pageLeaf s l va = .error (.noWay leg) → Queued toDev s (reportLeg s (some leg)) m image) ∧
    (pageLeaf s l va = .ok leaf → va.toNat % (if leaf.2.2 = 2 then 2 ^ 29 else 65536) ≠ 0 → Answers toDev s s m 4 []) ∧
    (mapped → pteHost leaf.2.1 = false → Answers toDev s s m 0 []) ∧
    (mapped → pteHost leaf.2.1 = true → inHbm → path → told →
      Answers toDev s (moveIn s t va leaf image) m 0 []) ∧
    (mapped → pteHost leaf.2.1 = true → inHbm → path → ¬ told → Queued toDev s s m image) ∧
    (mapped → pteHost leaf.2.1 = true → inHbm → ¬ path → Queued toDev s (reportLeg s (moveLeg s leaf)) m image) ∧
    (mapped → pteHost leaf.2.1 = true → ¬ inHbm → Answers toDev s s m 1 [])) ∧
  (page 1 → (findLaunch s l = none → Answers toHost s s m 1 []) ∧
    (live → pageLeaf s l va = .error .absent → Answers toHost s (dropMove s t va) m 1 []) ∧
    (live → pageLeaf s l va = .error (.fault why) → Answers toHost s (reportWalk (dropMove s t va) (some why)) m 1 []) ∧
    (pageLeaf s l va = .error (.noWay leg) → Queued toHost s (reportLeg s (some leg)) m []) ∧
    (pageLeaf s l va = .ok leaf → va.toNat % (if leaf.2.2 = 2 then 2 ^ 29 else 65536) ≠ 0 → Answers toHost s s m 4 []) ∧
    (mapped → pteHost leaf.2.1 = true → Answers toHost s s m 0 []) ∧
    (mapped → pteHost leaf.2.1 = false → inHbm → (blocked = true → Queued toHost s s m []) ∧
      (blocked = false → (moveOut s leaf t va = (u, .left) → Answers toHost s u m 0 []) ∧
        (moveOut s leaf t va = (u, .failed) → Answers toHost s u m 1 []) ∧
        (moveOut s leaf t va = (u, .waits) → Queued toHost s u m [])))) ∧
  (response → (s.ports.pageRequests.find? (fun q => q.tag == m.h0.setWidth 32) = none → Stays i s) ∧
    (asked → found = .error (.noWay leg) → exec i s = .next (reportLeg s (some leg))) ∧
    (match' → pteHost leaf.2.1 = true → m.h0.toNat / 2 ^ 32 % 65536 = 0 → inHbm →
      (path → told → exec i s = .next askedIn) ∧ (path → ¬ told → Stays i s) ∧
      (¬ path → exec i s = .next (reportLeg s (moveLeg s leaf)))) ∧
    (match' → pteHost leaf.2.1 = true → m.h0.toNat / 2 ^ 32 % 65536 = 1 → ∃ t, exec i s = .next t ∧ t = { s with ports := t.ports } ∧
      t.ports.refusals = s.ports.refusals ++ [(q.table, q.page)] ∧
      t.ports.pageRequests = s.ports.pageRequests.filter fun x => !(x.table == q.table && x.page == q.page)) ∧
    (match' → pteHost leaf.2.1 = false → ∃ t, exec i s = .next t ∧ t = { s with ports := t.ports } ∧
      t.ports.refusals = s.ports.refusals ∧ ∀ x ∈ t.ports.pageRequests, x.table ≠ q.table ∨ x.page ≠ q.page)) ∧
  -- STREAM-BIND and WINDOW
  (good 4 [lo, hi, sel] → sel.getLsbD 63 = false → ∃ t, Answers bindSource s { s with mer := t } m 0 [] ∧
    t = { s.mer with binds := t.binds } ∧
    ∀ g x, g < 64 → x < 1024 → tget t.binds (1024 * g + x) =
      if g = sel.toNat / 2 ^ 32 % 64 ∧ x = sel.toNat % 1024 then some ep else tget s.mer.binds (1024 * g + x)) ∧
  (good 4 [lo, hi, sel] → sel.getLsbD 63 = true →
    (findLaunch s (sel.toNat / 2 ^ 32 % 256) = none → Answers bindOutput s s m 1 []) ∧
    ((findLaunch s (sel.toNat / 2 ^ 32 % 256)).isSome = true → ∃ t, Answers bindOutput s { s with mer := t } m 0 [] ∧
      t = { s.mer with outputs := t.outputs } ∧ outputOf { s with mer := t } (sel.toNat / 2 ^ 32 % 256) (sel.toNat / 65536 % 8) =
        some ⟨sel.toNat / 2 ^ 32 % 256, sel.toNat / 65536 % 8, ep, sel.toNat % 65536, 0, 0, []⟩)) ∧
  (good 5 [lo, hi, sel] → n = sel.toNat / 2 ^ 32 % 8 →
    (n = 0 → Answers window s s m 1 []) ∧
    (n ≠ 0 → (∀ x ∈ s.ports.buffer, mine x = false) → Answers window s
      { s with ports := { s.ports with windows := tput s.ports.windows n (sel.toNat % 8, ep) } } m 0 []) ∧
    (n ≠ 0 → s.ports.buffer.Pairwise (fun x y => x.1 < y.1) → (∀ x ∈ s.ports.buffer, mine x = true → x.2.g.verifies = true) →
      ∃ t, exec window s = .next t ∧ tget t.ports.windows n = some (sel.toNat % 8, ep) ∧
        t.ports.buffer = s.ports.buffer.filter (fun x => !mine x) ∧
        t.ports.delivered = s.ports.delivered ++ (s.ports.buffer.filter mine).map fun x => (x.1, x.2.g.data)) ∧
    (n ≠ 0 → s.ports.buffer.Pairwise (fun x y => x.1 < y.1) → (∃ x ∈ s.ports.buffer, mine x = true ∧ x.2.g.verifies = false) →
      ∃ t, exec window s = .next t ∧ t.ports.windows = s.ports.windows ∧ t.ports.waiting = s.ports.waiting ++ [⟨m, []⟩])) ∧
  -- SPDM
  (spdm → code = 0x84 → replies (.getVersion link packet) [0x10, 4, 0, 0, 0, 1, 0, 0x12]) ∧
  (spdm → code = 0xE1 → ∃ b, replies (.getCapabilities link packet) b) ∧ (spdm → code = 0xE3 → ∃ b, replies (.negotiateAlgorithms link packet) b) ∧
  (spdm → code = 0x81 → ∃ b, replies (.getDigests link packet) b) ∧ (spdm → code = 0x82 → ∃ b, replies (.getCertificate link packet) b) ∧
  (spdm → code = 0x83 → ∃ b, replies (.challenge link packet) b) ∧ (spdm → code = 0xE0 → ∃ b, replies (.getMeasurements link packet) b) ∧
  (spdm → code = 0xE0 → s.ports.measured = some ms → ms[(m.body.getD 3 0).toNat - 1]? = some d → 0 < (m.body.getD 3 0).toNat →
    (m.body.getD 3 0).toNat < 255 → ∃ pre post, replies (.getMeasurements link packet) (pre ++ d ++ post)) ∧
  (spdm → code ∉ [0x84, 0xE1, 0xE3, 0x81, 0x82, 0x83, 0xE0] →
    replies (.unsupportedRequest link packet) [0x12, 0x7F, 0x07, m.body.getD 1 0]) ∧
  -- before the device is open
  (closed → (asks 1 (blk ++ [table]) → blk.length = 8 → Answers launch s s m 3 []) ∧
    (asks 2 [1] → Answers (.queryCapv m) s s m 3 []) ∧ (asks 2 [3] → Answers (.queryLiveLaunches m) s s m 3 []) ∧
    (asks 2 [2] → s.ports.rom = true → Answers (.queryRetirementLog link packet) s s m 3 []) ∧
    (asks 3 [0, va, 0] → va.toNat < 2 ^ 48 → Answers toDev s s m 3 []) ∧ (asks 3 [1, va, 0] → va.toNat < 2 ^ 48 → Answers toHost s s m 3 []) ∧
    (asks 4 [lo, hi, sel] → sel.getLsbD 63 = false → Answers bindSource s s m 3 []) ∧
    (asks 4 [lo, hi, sel] → sel.getLsbD 63 = true → Answers bindOutput s s m 3 []) ∧
    (asks 5 [lo, hi, sel] → Answers window s s m 3 []))

/-- R19, R87, R367, R397, R403 and R423: what firmware writes into the registers of the management core. Reserved bits are dropped;
MEMZONE is read-only once locked; a graph's registers, SGCFG and SGDROP apart, are read-only while it is enabled; PWRCTL takes
TLIMIT alone. That a CQBASE which is no multiple of 64 is kept as it was written is the model's own choice (log 28), and so is that
a PRKEY with INDEX 0 is (log 29). -/
def Obligations.ManagementRegisters : Prop := ∀ (s : State) (v : Word) (cls : BitVec 2) (gb : BitVec 6),
  let writes := fun (r : MReg) (f : State) => exec (.registerWrite r v) s = .next f
  let d := s.disp
  let g := graphAt s gb.toNat
  writes .ageperiod { s with disp := { d with ageperiod := v.setWidth 32 } } ∧
  writes .dhandle { s with disp := { d with dhandle := v.setWidth 32 } } ∧
  writes .dtimer { s with disp := { d with dtimer := v } } ∧
  writes .cqbase { s with disp := { d with cqbase := v.setWidth 48 } } ∧
  writes .cqsize { s with disp := { d with cqsize := v.setWidth 16 } } ∧
  writes .cqhead { s with disp := { d with cqhead := v.setWidth 16 } } ∧
  writes .prkey { s with disp := { d with prkey := v &&& 0xFFFFFFFF0000000F } } ∧
  (s.memzone.getLsbD 63 = true → writes .memzone s) ∧
  (s.memzone.getLsbD 63 = false → writes .memzone { s with memzone := v &&& 0x800000000000003F }) ∧
  writes .leasepatience { s with svc := { s.svc with patience := v.setWidth 32 } } ∧
  (∃ t, writes (.lperiod cls) { s with svc := { s.svc with lperiod := t } } ∧
    ∀ c, c < 4 → t.toList.getD c 0 = if c = cls.toNat then v.setWidth 32 else s.svc.lperiod.toList.getD c 0) ∧
  writes .scix { s with svc := { s.svc with scix := v.setWidth 11 } } ∧
  writes .pwrctl { s with ports := { s.ports with tlimit := v.extractLsb' 8 8 } } ∧
  writes (.sgcfg gb) (writeSgcfg s gb.toNat v) ∧ writes (.sgdrop gb) (setGraph s gb.toNat { g with sgdrop := v }) ∧
  (g.en = true → writes (.sgbase gb) s ∧ writes (.sgwin gb) s ∧ writes (.sglate gb) s ∧ writes (.sgtime gb) s) ∧
  (g.en = false → writes (.sgbase gb) (setGraph s gb.toNat { g with sgbase := v &&& 0x3FFFFFFFFFF }) ∧
    writes (.sgwin gb) (setGraph s gb.toNat { g with sgwin := v &&& 0xFC00FFFFFFFFFFFF }) ∧
    writes (.sglate gb) (setGraph s gb.toNat { g with sglate := v &&& 0xFFFFFFFFFFFF }) ∧
    writes (.sgtime gb) (setGraph s gb.toNat { g with sgtime := v }))

/-! ## Service, start-up, and what a fetch meets -/

/-- The counts of running slots' notices apart, a lease event changes only the service registers, the dispatcher, slots and
bind queues, the test stripes, the time base and the model's own fields. -/
def leaseOnly (s t : State) : Prop :=
  t = { s with
    hart := t.hart, rest := t.rest, slots := t.slots, cores := t.cores, dtime := t.dtime, disp := t.disp, svc := t.svc
    stripes := t.stripes, agenda := t.agenda, tick := t.tick } ∧
  t.hart = { s.hart with notices := t.hart.notices, lost := t.hart.lost }

/-- R17, R86, R172, R315, R388-R404, R416-R418, R420 and R423: leases come due, wait out their drains, pass or fail their pattern runs
and retire; a team hears of a lease by KIND 4 before KIND 1, both of one instant; cores of one quarantined cluster are leased
one after another; scores rise, halve as DTIME passes its multiple and are written; a remapped pseudo-channel is retired;
power-on runs its stages or stops at the first that fails, the log's chain and signatures among them, copies the almanac and
fixes the measurements; in the safe talkative state nothing is leased or tested; firmware steps a chiplet's clock; the
array's energy is charged by the slots that each core's products took (R315), that of HBM and the mesh by what each core asked for,
and the rest equally over the RUNNING slots, also those of a step whose record is still to come. A word that names no instruction and a fetch that faults trap.
Some of its clauses rest on readings of the model's own (log 4, which moment comes next, 9, 10, what a signature is, 18, 32, 33, 35,
the digest, and 40). -/
def Obligations.ServiceEvents : Prop := ∀ (s : State) (cls : BitVec 2) (unit pch temp n : Nat) (patid word : BitVec 32) (v : Word)
    (r : PowerOn) (chiplet : BitVec 3) (st : StepRec) (slot other : Nat) (t0 : TrapInfo) (u : State),
  let c := cls.toNat
  let lease := leaseOf s c unit
  let next := s.svc.nextUnit.toList.getD c 0
  let due := Instr.leaseInterval cls
  let run := fun (pass : Bool) => Instr.patternRunComplete cls unit pass patid
  let becomes := fun (t : State) (l : Lease) => leaseOf t c unit = l
  let score := fun (t : State) (ix : Nat) => tgetD t.svc.scores ix 0
  let ix := s.svc.scix.toNat
  let stops := fun (t : State) (stage : Nat) (rom : Bool) => t.ports.stage = stage ∧ t.ports.talkative = true ∧ t.ports.rom = rom ∧
    opened t = false ∧ t.mem = [] ∧ t.svc.log = s.svc.log
  let on := Instr.powerOn r
  let lim := s.ports.tlimit.toNat
  let chained := logVerifies [0, 0, 0, 0] 0 s.svc.log
  let k := chiplet.toNat
  let talks := s.ports.talkative = true
  let down := s.ports.steps.toList.getD k 0
  let ks := (runningSlots s).filter fun j => clusterOfSlot j == n
  let sum := fun (f : Nat → Nat) => (ks.map f).sum
  let slots := fun (j : Nat) => (coreAt s (coreOfSlot j)).products
  let asked := fun (j : Nat) => Config.work s.tick (coreOfSlot j)
  let charge := fun (j : Nat) => share (Config.energy s.tick n 0) (slots j) (sum slots) +
    share (Config.energy s.tick n 1) (asked j) (sum asked) + share (Config.energy s.tick n 2) 1 ks.length
  (opened s = false → Stays due s) ∧
  (opened s = true → earlyOf s c = [] → s.svc.lperiod.toList.getD c 0 = 0 → Stays due s) ∧
  (opened s = true → earlyOf s c = [] → s.svc.lperiod.toList.getD c 0 ≠ 0 → next < unitsOf c →
    let after := fun (t : State) => t.svc.nextUnit.toList.getD c 0 = if next + 1 < unitsOf c then next + 1 else 0
    (leaseOf s c next ≠ .inService → ∃ t, exec due s = .next t ∧ t = { s with svc := t.svc } ∧ after t) ∧
    (leaseOf s c next = .inService → limitsAllow s c next = true →
      ∃ t, exec due s = .next t ∧ leaseOnly s t ∧ leaseOf t c next = .drain ∧ after t ∧ t.svc.gen = s.svc.gen + 1) ∧
    (c = 0 → leaseOf s 0 next = .inService → limitsAllow s 0 next = true → runningSlot s next = some slot → (runningSlots s).Nodup →
      slot ∈ runningSlots s → rcdTeam (slotAt s slot).rcd ≠ 0 → (hartAt s slot).tdone = none → (hartAt s slot).lost = false →
      (hartAt s slot).notices = [] → ∃ t a b, exec due s = .next t ∧ (hartAt t slot).notices = [a, b] ∧ a.toNat / 2 ^ 60 = 4 ∧
        b.toNat / 2 ^ 60 = 1 ∧ a.toNat % 2 ^ 38 = b.toNat % 2 ^ 38) ∧
    (leaseOf s c next = .inService → limitsAllow s c next = false → Stays due s)) ∧
  (lease ≠ .drain → Stays (.leasePatienceExpiry cls unit) s ∧ Stays (.drainComplete cls unit) s) ∧
  (cls = 0 → lease = .drain → runningSlot s unit = some slot → findStep s (slotHandle (slotAt s slot)) = some st →
    st.handle = slotHandle (slotAt s slot) → st.place = .running → st.retryable = true → rcdTeam (slotAt s slot).rcd = 0 →
    st.used < st.retries → ∃ t q, exec (.leasePatienceExpiry cls unit) s = .next t ∧ (slotAt t slot).st = .empty ∧
      findStep t st.handle = some q ∧ q.place = .queued ∧ q.used = st.used + 1) ∧
  (cls = 0 → lease = .drain → runningSlot s unit = some slot → findStep s (slotHandle (slotAt s slot)) = some st →
    st.handle = slotHandle (slotAt s slot) → st.place = .running → st.retryable = false → st.stopping = none →
    stepCopies s st.handle = true → ∃ t q, exec (.leasePatienceExpiry cls unit) s = .next t ∧
      findStep t st.handle = some q ∧ q.place = .running ∧ q.stopping = some .lease) ∧
  (cls = 2 ∨ cls = 3 → Stays (.leasePatienceExpiry cls unit) s) ∧
  (talks → Stays (.drainComplete cls unit) s ∧ Stays (run true) s ∧ Stays (run false) s ∧ Stays (.lcmd v) s) ∧
  (lease = .drain → unitIdle s c unit = true → ¬ talks → ∃ t, exec (.drainComplete cls unit) s = .next t ∧ leaseOnly s t ∧
    becomes t .leased ∧ t.svc.gen = s.svc.gen) ∧
  (lease = .drain → unitIdle s c unit = false → Stays (.drainComplete cls unit) s) ∧
  (lease ≠ .leased → Stays (run true) s ∧ Stays (run false) s) ∧
  (lease = .leased → ¬ talks → (c = 3 → tget s.svc.retiring unit = none) →
    (c ≠ 0 ∨ s.svc.quarantined = [] → ∃ t, exec (run true) s = .next t ∧ leaseOnly s t ∧ becomes t .inService ∧
      t.svc.gen = s.svc.gen + 1 ∧ (c = 3 → ∀ i, (stripeGranule t unit i).prod = 511 ∧ (stripeGranule t unit i).level = 4)) ∧
    (c = 0 → s.svc.quarantined = [other] → other / 4 = unit / 4 → other < 256 → other ≠ unit → leaseOf s 0 other = .inService →
      (∀ m ∈ coresOf (unit / 4), m ≠ unit → busyLease s 0 m = false) →
      ∃ t, exec (run true) s = .next t ∧ becomes t .inService ∧ leaseOf t 0 other = .drain ∧ t.svc.quarantined = []) ∧
    (tgetD s.svc.fails (unitKey c unit) 0 = 0 → ∃ t, exec (run false) s = .next t ∧ becomes t .leased ∧
      tgetD t.svc.fails (unitKey c unit) 0 = 1 ∧
      (unit < unitsOf c → score t (scoreOfUnit c unit) = min 65535 (score s (scoreOfUnit c unit) + 256))) ∧
    (0 < tgetD s.svc.fails (unitKey c unit) 0 → c ≠ 3 → s.svc.log.length < 4096 → unit < unitsOf c →
      ∃ t e, exec (run false) s = .next t ∧ becomes t .retired ∧ t.svc.log = s.svc.log ++ [e] ∧
        (wordAt e.1 3).toNat / 2 ^ 32 = patid.toNat ∧ (wordAt e.1 0).toNat / 2 ^ 20 % 2 ^ 10 = unit ∧
        (wordAt e.1 0).toNat / 2 ^ 30 % 4 = c)) ∧
  (tget s.svc.retiring pch = none → Stays (.pseudoChannelRemap pch) s) ∧
  (tget s.svc.retiring pch = some patid → ∃ t, exec (.pseudoChannelRemap pch) s = .next t ∧ leaseOf t 3 pch = .retired ∧
    t.svc.remapped = s.svc.remapped ++ [pch] ∧ tget t.svc.retiring pch = none) ∧
  ((∃ m ∈ moments s, s.dtime.toNat < m ∧ m < nextHalving s.dtime) → Stays .scoreHalving s) ∧
  ((∀ m ∈ moments s, s.dtime.toNat < m → nextHalving s.dtime ≤ m) → ∃ t, exec .scoreHalving s = .next t ∧
    (tsorted s.svc.scores = true → (∀ x ∈ s.svc.scores, x.2 < 256) → ∀ i, score t i = score s i / 2) ∧
    ((∀ x ∈ s.svc.scores, x.2 < 2048) → nextHalving s.dtime < 2 ^ 64 → t.dtime.toNat = nextHalving s.dtime)) ∧
  (nextHalving s.dtime % (2 ^ 20 * 1000000) = 0 ∧ s.dtime.toNat < nextHalving s.dtime ∧
    nextHalving s.dtime ≤ s.dtime.toNat + 2 ^ 20 * 1000000) ∧
  (pch < 512 → score s (864 + pch) + 4 < 256 → ∃ t, exec (.correctedError pch) s = .next t ∧ t = { s with svc := t.svc } ∧
    score t (864 + pch) = score s (864 + pch) + 4 ∧ ∀ i, i ≠ 864 + pch → score t i = score s i) ∧
  (scoreIndexOk ix = true → v.toNat % 65536 < 256 → ∃ t, exec (.scdataWrite v) s = .next t ∧ t = { s with svc := t.svc } ∧
    score t ix = v.toNat % 65536 ∧ ∀ i, i ≠ ix → score t i = score s i) ∧
  (scoreIndexOk ix = false → Stays (.scdataWrite v) s) ∧
  (v.toNat % 8192 = n → n < 256 → leaseOf s 0 n = .inService → ¬ talks →
    (limitsAllow s 0 n = true → ∃ t, exec (.lcmd v) s = .next t ∧ leaseOf t 0 n = .drain) ∧
    (limitsAllow s 0 n = false → (0, n) ∉ s.svc.early → exec (.lcmd v) s =
      .next { s with svc := { s.svc with early := s.svc.early ++ [(0, n)] } })) ∧
  (v.toNat % 8192 ≥ 1376 → Stays (.lcmd v) s) ∧
  (r.image ≠ 0 → ∃ t, exec on s = .next t ∧ stops t 0 true ∧
    t.ports.measured = some [sha384 Config.bootRom, sha384 r.celior.image]) ∧
  (r.image = 0 → r.mountOk = false → ∃ t, exec on s = .next t ∧ stops t 1 false) ∧
  (r.image = 0 → r.mountOk = true → r.hbmOk = false → ∃ t, exec on s = .next t ∧ stops t 2 false) ∧
  (r.image = 0 → r.mountOk = true → r.hbmOk = true → (r.scanOk = false ∨ chained = false) → ∃ t, exec on s = .next t ∧ stops t 3 false) ∧
  (r.image = 0 → r.mountOk = true → r.hbmOk = true → r.scanOk = true → chained = true → r.almanacFails = [] → ∃ t, exec on s = .next t ∧
    opened t = true ∧ wordAt t.ports.selfTest 3 = t.dtime ∧ t.mem = [] ∧ t.slots = [] ∧ t.disp.launches = [] ∧ t.svc.log = s.svc.log ∧
    t.memzone = (1 : Word) <<< 63 ||| r.lzlog.setWidth 64 ∧ t.ports.celior = r.celior ∧
    t.ports.measured = some [sha384 Config.bootRom, sha384 r.celior.image, sha384 r.almanac,
      sha384 (s.svc.log.flatMap fun e => bytesOf e.1 ++ e.2.toList) ++ [if s.svc.logFull then 1 else 0],
      bytesOf [(1 : Word) <<< 63 ||| r.lzlog.setWidth 64, 60000, 60000, 10000, 120000]] ∧
    (s.svc.log = [] → ∀ j, 64 * j < r.almanac.length → j < 64 * 65536 → let g := systemGranule t (j / 65536) (j % 65536)
      g.prod = prodManagement ∧ g.level = 4 ∧ ∀ i, i < 64 → g.byte i = r.almanac.getD (64 * j + i) 0)) ∧
  (∃ t, exec (.thermalStep chiplet temp) s = .next t ∧
    (temp ≤ lim + 10 ∨ down ≠ 8 → t = { s with ports := t.ports }) ∧
    (lim < temp → t.ports.steps.toList.getD k 0 = min 8 (down + 1)) ∧
    (temp + 5 ≤ lim → t.ports.steps.toList.getD k 0 = down - 1) ∧
    (down = 8 → lim + 10 < temp → t.ports.hot.toList.getD k false = true) ∧
    (temp < lim → t.ports.hot.toList.getD k false = false)) ∧
  (∃ t, exec (.energyInterval n) s = .next t ∧
    t = { s with clusters := t.clusters, cores := t.cores, disp := t.disp, tick := s.tick + 1 } ∧
    (∀ m, coreAt t m = { coreAt s m with products := if m / 4 = n then 0 else (coreAt s m).products }) ∧
    (∀ m, m ≠ n → clusterAt t m = clusterAt s m) ∧ clusterAt t n = { clusterAt s n with energy := (clusterAt t n).energy } ∧
    (clusterAt s n).energy ≤ (clusterAt t n).energy ∧
    ∀ h, ((∀ j ∈ ks, slotHandle (slotAt s j) ≠ h) → findStep t h = findStep s h) ∧
      (∀ x pre post, ks = pre ++ slot :: post → slotHandle (slotAt s slot) = h → (∀ j ∈ pre ++ post, slotHandle (slotAt s j) ≠ h) →
        findStep s h = some x → findStep t h = some { x with energy := (x.energy + charge slot) % 2 ^ 64 }) ∧
      ∀ x y, findStep s h = some x → findStep t h = some y → y = { x with energy := y.energy }) ∧
  (issues s = false → Stays .fetchFault s ∧ Stays (.illegalWord word) s) ∧
  (issues s = true → fetchWord s = (.error (.trap t0), u) →
    exec .fetchFault s = .next (takeTrap u { t0 with resume := t0.resume || s.hart.atResume })) ∧
  (issues s = true → fetchWord s = (.error .hold, u) → exec .fetchFault s = .next u) ∧
  (issues s = true → s.hart.pc.toNat % 4 ≠ 0 → exec .fetchFault s =
    .next (takeTrap { s with ir := 0 } { TrapInfo.plain 0x03 s.hart.pc with resume := s.hart.atResume })) ∧
  (issues s = true → fetchWord s = (.ok word, u) → decodeWord word = none →
    exec (.illegalWord word) s = .next (takeTrap u (TrapInfo.plain 0x01 (word.setWidth 64)))) ∧
  (fetchWord s = (.ok word, u) → (decodeWord word).isSome = true → Stays (.illegalWord word) s ∧ Stays .fetchFault s)

/-! ## Encoding -/

/-- R205 and Table 14.3: the decoder and the encoder agree on every well-formed instruction with every operand at every value
that the encoding admits, and a word that decodes is the word of what it decodes to: no two words are one instruction, and no
bit of a word is dropped. -/
def Obligations.EncodingRoundTrip : Prop :=
  (∀ (i : Instr) (w : BitVec 32), WellFormed i → encode i = some w → decodeWord w = some i) ∧
  ∀ (i : Instr) (w : BitVec 32), decodeWord w = some i → encode i = some w ∧ WellFormed i

/-- Table 14.3 and R206: words written out field by field decode to the instructions they stand for, and a word of a reserved
opcode, of a nonzero unused field, of a field past its limit and of p0.z decodes to none. -/
def Obligations.KnownWordsDecode : Prop :=
  decodeWord 0b000001_00011_00001_00010_00000000001#32 = some (.sub 3 1 2) ∧
  decodeWord 0b000100_00101_00110_1111111111111000#32 = some (.addi 5 6 0xFFF8) ∧
  decodeWord 0b001101_00111_01000_110_0000000010000#32 = some (.ld .wu 7 8 16) ∧
  decodeWord 0b001110_00111_01000_0_10_0000000010000#32 = some (.st .w 7 8 16) ∧
  decodeWord 0b010000_00001_00010_1111111111111111#32 = some (.beq 1 2 0xFFFF) ∧
  decodeWord 0b100001_00001_00010_00011_0100_10_0_1_10_0#32 = some (.vadd 1 2 3 4 .w true .rdn false) ∧
  decodeWord 0b111001_00000_00101_00110_01000000000#32 = some (.semit 5 6) ∧
  decodeWord 0#32 = none ∧ decodeWord 0xFFFFFFFF#32 = none ∧
  decodeWord 0b011011_00001_00000_0000000000000001#32 = none ∧
  decodeWord 0b000010_00001_00010_000001_111111_0000#32 = none ∧
  decodeWord 0b100001_00001_00010_00011_0000_10_0_1_10_1#32 = none

/-! ## The machine as a whole -/

/-- A step of a core whose next instruction is fetched runs the instruction that the fetched word decodes to, on the state
the fetch leaves, with the register numbers that the open frames give it (R226, R227); an instruction that a frame's flags
skip is not fetched and has no effect but the pc's advance. The start of a run records TSTART before its first instruction
(R85). A hart that has stopped for a switch-out issues nothing (R362): its core's turn only lets the switch-out go on, and while
commands of its step are outstanding, or no area is free, nothing but the model's counter changes. The agenda that names the core is the model's own
(log 1). -/
def Obligations.StepRunsDecoded : Prop := ∀ (s : State) (core k : Nat) (units : Option Nat) (rest : List Act) (i : Instr)
    (w : BitVec 32) (u : State),
  let s0 := { s with agenda := rest }
  let s1 := { switchTo s0 k with units := units.map (max 1) }
  let h := s1.hart.steph.toNat
  s.agenda = .run core units :: rest → runningSlot s0 core = some k →
  (stopped s1 s1.cur = true → step s = .next (finishStop s1 h) ∧ ∀ r why, findStep s1 h = some r → r.stopping = some why →
    (stepCopies s1 h = true ∨ why.area s1.tick = false) → step s = .next (nextTick s1)) ∧
  (stopped s1 s1.cur = false → s1.hart.tdone = none → ¬ (s1.hart.phase = 5 ∧ pendingSources s1 s1.cur ≠ 0) →
  (s1.hart.frameAllows s1.hart.pc = true → engineFaultDue s1.hart = false → takenSources s1 s1.cur = 0 →
    fetchWord (markBegan s1) = (.ok w, u) → decodeWord w = some i → step s = exec (staggered u.hart i) u) ∧
  (s1.hart.frameAllows s1.hart.pc = false → ∃ t, step s = .next t ∧ SameOutside s1 t ∧
    t.hart = { s1.hart with frames := s1.hart.advance.frames, pc := s1.hart.advance.pc }))

/-- Every step keeps the canonical form of HBM's bytes: addresses strictly rising, none listed with what an unlisted byte
reads as. -/
def Obligations.StepKeepsMemoryForm : Prop := ∀ s t : State, s.Inv → step s = .next t → t.Inv

/-- What the spec gives a value at reset: HBM's contents and the empty levels (R100), the producers' counts (R102), the empty
slots (R72), the status at a hart's start (Table 23.7), and the registers of Tables 04.7 and 28.8; and HBM's bytes in
canonical form, which is the model's invariant. Registers whose value at reset the spec leaves open (log 2) are not among
these. -/
def Obligations.ResetLeaves : Prop :=
  let s := State.reset
  s.Inv ∧
  (∀ gran, (hbmGranule s gran).data = 0 ∧ (hbmGranule s gran).prod = 465 ∧ (hbmGranule s gran).level = 4 ∧
    (hbmGranule s gran).rc = 0 ∧ (hbmGranule s gran).verifies = true) ∧
  s.i3 = [] ∧ s.o3 = [] ∧
  (∀ c, (coreAt s c).i1 = [] ∧ (coreAt s c).o1 = []) ∧ (∀ n, (clusterAt s n).i2 = [] ∧ (clusterAt s n).o2 = []) ∧
  (∀ p, countsAt s p = ⟨1, 0, 0, 0, 0⟩) ∧
  (∀ k, (slotAt s k).st = .empty) ∧
  s.hart.tstat.ie = true ∧ s.hart.tstat.tie = true ∧ kernel s = false ∧ s.hart.tstat.nie = false ∧
  s.hart.tstat.qie = false ∧ s.hart.tstat.tip = false ∧
  s.disp.ageperiod = 0x00100000 ∧ s.svc.patience = 1600000 ∧ s.svc.lperiod = ⟨#[60000, 60000, 10000, 120000], rfl⟩
end

