-- ==== Sys2Proof/Laws/Memory.lean ====
section
/-! SUPPORT. Tables and HBM bytes: what a read after a write gives, and that every write keeps the canonical form. -/

namespace Sys2Proof.Machine

/-! ## Tables -/

theorem tget_tput {α : Type} (t : Tbl α) (n m : Nat) (a : α) :
    tget (tput t n a) m = if m = n then some a else tget t m := by
  induction t with
  | nil =>
    by_cases h : m = n
    · simp [tput, tget, h]
    · simp [tput, tget, h, Ne.symm h]
  | cons x t ih =>
    obtain ⟨k, b⟩ := x
    simp only [tput]
    split
    · by_cases h : m = n
      · simp [tget, h]
      · simp [tget, h, Ne.symm h]
    · split
      · rename_i h; subst h
        by_cases h : m = k
        · simp [tget, h]
        · simp [tget, h, Ne.symm h]
      · by_cases h : k = m
        · subst h; simp [tget, *]
        · simp [tget, h, ih]

theorem tget_tdel {α : Type} (t : Tbl α) (n m : Nat) : tget (tdel t n) m = if m = n then none else tget t m := by
  induction t with
  | nil => simp [tdel, tget]
  | cons x t ih =>
    obtain ⟨k, b⟩ := x
    by_cases h : k = n
    · subst h
      by_cases h' : m = k
      · subst h'; rw [tdel, if_pos rfl, ih]
        simp
      · simp [tdel, tget, ih, h', Ne.symm h']
    · by_cases h' : k = m
      · subst h'; simp [tdel, tget, h]
      · simp [tdel, tget, h, h', ih]

theorem tget_none {α : Type} (t : Tbl α) (n : Nat) (h : ∀ x ∈ t, x.1 ≠ n) : tget t n = none := by
  induction t with
  | nil => rfl
  | cons x t ih => rw [tget, if_neg (h x (by simp)), ih fun y hy => h y (by simp [hy])]

/-! ## Bytes -/

theorem Memory.wfFrom_mono {lo lo' : Nat} (h : lo' ≤ lo) : ∀ m, Memory.wfFrom lo m = true → Memory.wfFrom lo' m = true
  | [] => fun _ => rfl
  | (k, b) :: m => by simp only [Memory.wfFrom, Bool.and_eq_true, decide_eq_true_eq]; exact fun ⟨⟨h1, h2⟩, h3⟩ => ⟨⟨by omega, h2⟩, h3⟩

theorem Memory.wfFrom_write {lo a : Nat} (b : Byte) (h : lo ≤ a) :
    ∀ m, Memory.wfFrom lo m = true → Memory.wfFrom lo (Memory.write m a b) = true
  | [] => fun _ => by by_cases e : b = memDefault <;> simp [Memory.write, Memory.wfFrom, e, h]
  | (k, c) :: m => by
    intro hm
    simp only [Memory.wfFrom, Bool.and_eq_true, decide_eq_true_eq] at hm
    obtain ⟨⟨h1, h2⟩, h3⟩ := hm
    simp only [Memory.write]
    split
    · split
      · simp [Memory.wfFrom, h1, h2, h3]
      · rename_i hk hb
        simp [Memory.wfFrom, h, hb, h2, h3, Nat.succ_le_of_lt hk]
    · split
      · rename_i e; subst e
        split
        · exact Memory.wfFrom_mono (by omega) m h3
        · rename_i hb; simp [Memory.wfFrom, h, hb, h3]
      · rename_i hk ha
        have h4 := Memory.wfFrom_write b (show k + 1 ≤ a by omega) m h3
        simp [Memory.wfFrom, h1, h2, h4]

/-- A write keeps the canonical form. -/
theorem Memory.wf_write {m : Memory} (h : Memory.wf m = true) (a : Nat) (b : Byte) : Memory.wf (Memory.write m a b) = true :=
  Memory.wfFrom_write b (Nat.zero_le a) m h

theorem Memory.read_below {lo a : Nat} (h : a < lo) : ∀ m, Memory.wfFrom lo m = true → Memory.read m a = memDefault
  | [] => fun _ => rfl
  | (k, b) :: m => by
    intro hm
    simp only [Memory.wfFrom, Bool.and_eq_true, decide_eq_true_eq] at hm
    have h3 := Memory.read_below (show a < k + 1 by omega) m hm.2
    simp [Memory.read, show ¬ k = a by omega, h3]

theorem Memory.read_write_from {lo : Nat} (a c : Nat) (b : Byte) :
    ∀ m, Memory.wfFrom lo m = true → Memory.read (Memory.write m a b) c = if c = a then b else Memory.read m c
  | [] => fun _ => by
    by_cases e : b = memDefault
    · by_cases h : c = a <;> simp [Memory.write, Memory.read, e, h]
    · by_cases h : c = a
      · simp [Memory.write, Memory.read, e, h]
      · simp [Memory.write, Memory.read, e, h, Ne.symm h]
  | (k, d) :: m => by
    intro hm
    simp only [Memory.wfFrom, Bool.and_eq_true, decide_eq_true_eq] at hm
    obtain ⟨⟨h1, h2⟩, h3⟩ := hm
    simp only [Memory.write]
    split
    · rename_i hk
      split
      · rename_i hb
        by_cases h : c = a
        · subst h
          have := Memory.read_below (show c < k + 1 by omega) m h3
          simp [Memory.read, hb, show ¬ k = c by omega, this]
        · simp [h]
      · by_cases h : c = a
        · simp [Memory.read, h]
        · rw [Memory.read, if_neg (Ne.symm h), if_neg h]
    · split
      · rename_i e; subst e
        split
        · rename_i hb
          by_cases h : c = k
          · have := Memory.read_below (show c < k + 1 by omega) m h3
            simp [h, hb, h ▸ this]
          · simp [Memory.read, h, Ne.symm h]
        · by_cases h : c = k
          · simp [Memory.read, h]
          · simp [Memory.read, h, Ne.symm h]
      · have ih := Memory.read_write_from a c b m h3
        by_cases h : k = c
        · subst h; simp [Memory.read, *]
        · simp [Memory.read, h, ih]

/-- A read after a write. -/
theorem Memory.read_write {m : Memory} (h : Memory.wf m = true) (a c : Nat) (b : Byte) :
    Memory.read (Memory.write m a b) c = if c = a then b else Memory.read m c := Memory.read_write_from a c b m h

/-- Memories in canonical form that read alike are the same data. -/
theorem Memory.ext_from {lo : Nat} : ∀ m n : Memory, Memory.wfFrom lo m = true → Memory.wfFrom lo n = true →
    (∀ a, Memory.read m a = Memory.read n a) → m = n
  | [], [] => fun _ _ _ => rfl
  | [], (k, b) :: n => by
    intro _ hn h
    simp only [Memory.wfFrom, Bool.and_eq_true, decide_eq_true_eq] at hn
    exact absurd (by simpa [Memory.read] using (h k).symm) hn.1.2
  | (k, b) :: m, [] => by
    intro hm _ h
    simp only [Memory.wfFrom, Bool.and_eq_true, decide_eq_true_eq] at hm
    exact absurd (by simpa [Memory.read] using h k) hm.1.2
  | (k, b) :: m, (j, c) :: n => by
    intro hm hn h
    simp only [Memory.wfFrom, Bool.and_eq_true, decide_eq_true_eq] at hm hn
    obtain ⟨⟨-, m2⟩, m3⟩ := hm
    obtain ⟨⟨-, n2⟩, n3⟩ := hn
    have hk := h k
    have hj := h j
    simp only [Memory.read, if_true] at hk hj
    have e : k = j := by
      rcases Nat.lt_trichotomy k j with l | l | l
      · rw [if_neg (by omega), Memory.read_below (show k < j + 1 by omega) n n3] at hk
        exact absurd hk m2
      · exact l
      · rw [if_neg (by omega), Memory.read_below (show j < k + 1 by omega) m m3] at hj
        exact absurd hj.symm n2
    subst e
    simp only [if_true] at hk
    have t : m = n := Memory.ext_from m n m3 n3 fun a => by
      by_cases ha : k = a
      · subst ha
        rw [Memory.read_below (show k < k + 1 by omega) m m3, Memory.read_below (show k < k + 1 by omega) n n3]
      · simpa [Memory.read, ha] using h a
    rw [hk, t]

theorem Memory.ext {m n : Memory} (hm : Memory.wf m = true) (hn : Memory.wf n = true) (h : ∀ a, Memory.read m a = Memory.read n a) :
    m = n := Memory.ext_from m n hm hn h

/-! ## Runs of bytes -/

theorem Memory.wf_writeN (n : Nat) : ∀ (m : Memory) (a v : Nat), Memory.wf m = true → Memory.wf (Memory.writeN m a v n) = true := by
  induction n with
  | zero => exact fun m a v h => h
  | succ n ih => exact fun m a v h => ih _ _ _ (Memory.wf_write h a _)

theorem Memory.read_writeN (n : Nat) : ∀ (m : Memory) (a v c : Nat), Memory.wf m = true →
    Memory.read (Memory.writeN m a v n) c = if a ≤ c ∧ c < a + n then BitVec.ofNat 8 (v / 256 ^ (c - a)) else Memory.read m c := by
  induction n with
  | zero => intro m a v c h; simp [Memory.writeN]
  | succ n ih =>
    intro m a v c h
    rw [Memory.writeN, ih _ _ _ _ (Memory.wf_write h a _), Memory.read_write h]
    by_cases h1 : c = a
    · subst h1
      simp
    · by_cases h2 : a + 1 ≤ c ∧ c < a + 1 + n
      · obtain ⟨k, rfl⟩ : ∃ k, c = a + 1 + k := ⟨c - (a + 1), by omega⟩
        rw [if_pos h2, if_pos (by omega), show a + 1 + k - a = k + 1 by omega, show a + 1 + k - (a + 1) = k by omega,
          Nat.div_div_eq_div_mul, Nat.pow_succ, Nat.mul_comm 256]
      · rw [if_neg h2, if_neg h1, if_neg (by omega)]

theorem Memory.readN_congr (n : Nat) : ∀ (m k : Memory) (a : Nat), (∀ i, i < n → Memory.read m (a + i) = Memory.read k (a + i)) →
    Memory.readN m a n = Memory.readN k a n := by
  induction n with
  | zero => exact fun m k a h => rfl
  | succ n ih =>
    intro m k a h
    rw [Memory.readN, Memory.readN, ih m k (a + 1) fun i hi => by have := h (i + 1) (by omega); rwa [Nat.add_assoc, Nat.add_comm 1 i]]
    have := h 0 (by omega)
    rw [Nat.add_zero] at this
    rw [this]

theorem Memory.readN_value (n : Nat) : ∀ (m : Memory) (a v : Nat),
    (∀ i, i < n → Memory.read m (a + i) = BitVec.ofNat 8 (v / 256 ^ i)) → Memory.readN m a n = v % 256 ^ n := by
  induction n with
  | zero => intro m a v h; simp [Memory.readN, Nat.mod_one]
  | succ n ih =>
    intro m a v h
    have h0 := h 0 (by omega)
    rw [Nat.add_zero, Nat.pow_zero, Nat.div_one] at h0
    rw [Memory.readN, h0, ih m (a + 1) (v / 256) fun i hi => by
      have := h (i + 1) (by omega)
      rw [Nat.add_assoc, Nat.add_comm 1 i, this, Nat.pow_succ, Nat.mul_comm, Nat.div_div_eq_div_mul]]
    rw [BitVec.toNat_ofNat, Nat.pow_succ 256, Nat.mul_comm (256 ^ n), Nat.mod_mul]

/-- What a run of bytes reads as after it was written. -/
theorem Memory.readN_writeN {m : Memory} (h : Memory.wf m = true) (a v n : Nat) :
    Memory.readN (Memory.writeN m a v n) a n = v % 256 ^ n :=
  Memory.readN_value n _ a v fun i hi => by
    rw [Memory.read_writeN n m a v _ h, if_pos (by omega), Nat.add_sub_cancel_left]

/-- A run of bytes elsewhere reads as before. -/
theorem Memory.readN_writeN_other {m : Memory} (h : Memory.wf m = true) (a v n b k : Nat) (d : b + k ≤ a ∨ a + n ≤ b) :
    Memory.readN (Memory.writeN m a v n) b k = Memory.readN m b k :=
  Memory.readN_congr k _ _ b fun i hi => by rw [Memory.read_writeN n m a v _ h, if_neg (by omega)]

/-- Bytes that no entry lists read as the default. -/
theorem Memory.readN_unlisted (m : Memory) (a : Nat) (n : Nat) (h : ∀ c ∈ m, c.1 < a ∨ a + n ≤ c.1) : Memory.readN m a n = 0 := by
  have r : ∀ b, a ≤ b → b < a + n → Memory.read m b = memDefault := by
    intro b h1 h2
    induction m with
    | nil => rfl
    | cons x m ih =>
      obtain ⟨k, d⟩ := x
      have hk := h (k, d) (by simp)
      rw [Memory.read, if_neg (by simp only at hk; omega)]
      exact ih fun c hc => h c (by simp [hc])
  have : Memory.readN m a n = 0 % 256 ^ n := Memory.readN_value n m a 0 fun i hi => by
    rw [r (a + i) (by omega) (by omega), Nat.zero_div]; rfl
  rw [this, Nat.zero_mod]

/-! ## Granules of HBM -/

theorem setHbm_mem (s : State) (gran : Nat) (g : Granule) :
    (setHbm s gran g).mem = Memory.writeN s.mem (64 * gran) g.data.toNat 64 := by simp only [setHbm]

theorem setHbm_memMeta (s : State) (gran : Nat) (g : Granule) : (setHbm s gran g).memMeta =
    if g.md = resetMeta then tdel s.memMeta gran else tput s.memMeta gran g.md := by simp only [setHbm]

/-- Writing a granule to HBM keeps the invariant. -/
theorem setHbm_inv {s : State} (h : s.Inv) (gran : Nat) (g : Granule) : (setHbm s gran g).Inv := by
  unfold State.Inv
  rw [setHbm_mem]
  exact Memory.wf_writeN _ s.mem _ _ h

set_option exponentiation.threshold 600 in
/-- What HBM holds of a granule after a granule is written. -/
theorem hbmGranule_setHbm {s : State} (h : s.Inv) (gran k : Nat) (g : Granule) :
    hbmGranule (setHbm s gran g) k = if k = gran then g else hbmGranule s k := by
  unfold hbmGranule tgetD
  rw [setHbm_mem, setHbm_memMeta]
  by_cases hk : k = gran
  · subst hk
    have e : (256 : Nat) ^ 64 = 2 ^ 512 := by rw [show (256 : Nat) = 2 ^ 8 from rfl, ← Nat.pow_mul]
    rw [Memory.readN_writeN h, e, Nat.mod_eq_of_lt g.data.isLt, BitVec.ofNat_toNat, BitVec.setWidth_eq, if_pos rfl]
    by_cases hm : g.md = resetMeta
    · rw [if_pos hm, tget_tdel, if_pos rfl, Option.getD_none, ← hm]
    · rw [if_neg hm, tget_tput, if_pos rfl, Option.getD_some]
  · rw [Memory.readN_writeN_other h _ _ _ _ _ (by omega), if_neg hk]
    by_cases hm : g.md = resetMeta
    · rw [if_pos hm, tget_tdel, if_neg hk]
    · rw [if_neg hm, tget_tput, if_neg hk]

end Sys2Proof.Machine
end

