-- ==== Sys2Proof/Laws/State.lean ====
section
/-! SUPPORT. Field by field: what each update of the state and of a hart leaves. -/

namespace Sys2Proof.Machine

@[simp] theorem setSlot_hart (s : State) (k : Nat) (x : Slot) : (setSlot s k x).hart = s.hart := rfl
@[simp] theorem setSlot_rest (s : State) (k : Nat) (x : Slot) : (setSlot s k x).rest = s.rest := rfl
@[simp] theorem setSlot_cores (s : State) (k : Nat) (x : Slot) : (setSlot s k x).cores = s.cores := rfl
@[simp] theorem setSlot_clusters (s : State) (k : Nat) (x : Slot) : (setSlot s k x).clusters = s.clusters := rfl
@[simp] theorem setSlot_counts (s : State) (k : Nat) (x : Slot) : (setSlot s k x).counts = s.counts := rfl
@[simp] theorem setSlot_mem (s : State) (k : Nat) (x : Slot) : (setSlot s k x).mem = s.mem := rfl
@[simp] theorem setSlot_memMeta (s : State) (k : Nat) (x : Slot) : (setSlot s k x).memMeta = s.memMeta := rfl
@[simp] theorem setSlot_i3 (s : State) (k : Nat) (x : Slot) : (setSlot s k x).i3 = s.i3 := rfl
@[simp] theorem setSlot_o3 (s : State) (k : Nat) (x : Slot) : (setSlot s k x).o3 = s.o3 := rfl
@[simp] theorem setSlot_attach (s : State) (k : Nat) (x : Slot) : (setSlot s k x).attach = s.attach := rfl
@[simp] theorem setSlot_lost (s : State) (k : Nat) (x : Slot) : (setSlot s k x).lost = s.lost := rfl
@[simp] theorem setSlot_crngb (s : State) (k : Nat) (x : Slot) : (setSlot s k x).crngb = s.crngb := rfl
@[simp] theorem setSlot_crngc (s : State) (k : Nat) (x : Slot) : (setSlot s k x).crngc = s.crngc := rfl
@[simp] theorem setSlot_memzone (s : State) (k : Nat) (x : Slot) : (setSlot s k x).memzone = s.memzone := rfl
@[simp] theorem setSlot_dtime (s : State) (k : Nat) (x : Slot) : (setSlot s k x).dtime = s.dtime := rfl
@[simp] theorem setSlot_portrtt (s : State) (k : Nat) (x : Slot) : (setSlot s k x).portrtt = s.portrtt := rfl
@[simp] theorem setSlot_disp (s : State) (k : Nat) (x : Slot) : (setSlot s k x).disp = s.disp := rfl
@[simp] theorem setSlot_mer (s : State) (k : Nat) (x : Slot) : (setSlot s k x).mer = s.mer := rfl
@[simp] theorem setSlot_svc (s : State) (k : Nat) (x : Slot) : (setSlot s k x).svc = s.svc := rfl
@[simp] theorem setSlot_ports (s : State) (k : Nat) (x : Slot) : (setSlot s k x).ports = s.ports := rfl
@[simp] theorem setSlot_cur (s : State) (k : Nat) (x : Slot) : (setSlot s k x).cur = s.cur := rfl
@[simp] theorem setSlot_tick (s : State) (k : Nat) (x : Slot) : (setSlot s k x).tick = s.tick := rfl
@[simp] theorem setSlot_agenda (s : State) (k : Nat) (x : Slot) : (setSlot s k x).agenda = s.agenda := rfl
@[simp] theorem setSlot_ir (s : State) (k : Nat) (x : Slot) : (setSlot s k x).ir = s.ir := rfl
@[simp] theorem setSlot_units (s : State) (k : Nat) (x : Slot) : (setSlot s k x).units = s.units := rfl
@[simp] theorem setSlot_hbmSeq (s : State) (k : Nat) (x : Slot) : (setSlot s k x).hbmSeq = s.hbmSeq := rfl
@[simp] theorem setSlot_stripes (s : State) (k : Nat) (x : Slot) : (setSlot s k x).stripes = s.stripes := rfl
@[simp] theorem setSlot_system (s : State) (k : Nat) (x : Slot) : (setSlot s k x).system = s.system := rfl
@[simp] theorem setSlot_mesh (s : State) (k : Nat) (x : Slot) : (setSlot s k x).mesh = s.mesh := rfl

@[simp] theorem setCore_hart (s : State) (c : Nat) (x : CoreSt) : (setCore s c x).hart = s.hart := rfl
@[simp] theorem setCore_rest (s : State) (c : Nat) (x : CoreSt) : (setCore s c x).rest = s.rest := rfl
@[simp] theorem setCore_slots (s : State) (c : Nat) (x : CoreSt) : (setCore s c x).slots = s.slots := rfl
@[simp] theorem setCore_clusters (s : State) (c : Nat) (x : CoreSt) : (setCore s c x).clusters = s.clusters := rfl
@[simp] theorem setCore_counts (s : State) (c : Nat) (x : CoreSt) : (setCore s c x).counts = s.counts := rfl
@[simp] theorem setCore_mem (s : State) (c : Nat) (x : CoreSt) : (setCore s c x).mem = s.mem := rfl
@[simp] theorem setCore_memMeta (s : State) (c : Nat) (x : CoreSt) : (setCore s c x).memMeta = s.memMeta := rfl
@[simp] theorem setCore_i3 (s : State) (c : Nat) (x : CoreSt) : (setCore s c x).i3 = s.i3 := rfl
@[simp] theorem setCore_o3 (s : State) (c : Nat) (x : CoreSt) : (setCore s c x).o3 = s.o3 := rfl
@[simp] theorem setCore_attach (s : State) (c : Nat) (x : CoreSt) : (setCore s c x).attach = s.attach := rfl
@[simp] theorem setCore_lost (s : State) (c : Nat) (x : CoreSt) : (setCore s c x).lost = s.lost := rfl
@[simp] theorem setCore_crngb (s : State) (c : Nat) (x : CoreSt) : (setCore s c x).crngb = s.crngb := rfl
@[simp] theorem setCore_crngc (s : State) (c : Nat) (x : CoreSt) : (setCore s c x).crngc = s.crngc := rfl
@[simp] theorem setCore_memzone (s : State) (c : Nat) (x : CoreSt) : (setCore s c x).memzone = s.memzone := rfl
@[simp] theorem setCore_dtime (s : State) (c : Nat) (x : CoreSt) : (setCore s c x).dtime = s.dtime := rfl
@[simp] theorem setCore_portrtt (s : State) (c : Nat) (x : CoreSt) : (setCore s c x).portrtt = s.portrtt := rfl
@[simp] theorem setCore_disp (s : State) (c : Nat) (x : CoreSt) : (setCore s c x).disp = s.disp := rfl
@[simp] theorem setCore_mer (s : State) (c : Nat) (x : CoreSt) : (setCore s c x).mer = s.mer := rfl
@[simp] theorem setCore_svc (s : State) (c : Nat) (x : CoreSt) : (setCore s c x).svc = s.svc := rfl
@[simp] theorem setCore_ports (s : State) (c : Nat) (x : CoreSt) : (setCore s c x).ports = s.ports := rfl
@[simp] theorem setCore_cur (s : State) (c : Nat) (x : CoreSt) : (setCore s c x).cur = s.cur := rfl
@[simp] theorem setCore_tick (s : State) (c : Nat) (x : CoreSt) : (setCore s c x).tick = s.tick := rfl
@[simp] theorem setCore_agenda (s : State) (c : Nat) (x : CoreSt) : (setCore s c x).agenda = s.agenda := rfl
@[simp] theorem setCore_ir (s : State) (c : Nat) (x : CoreSt) : (setCore s c x).ir = s.ir := rfl
@[simp] theorem setCore_units (s : State) (c : Nat) (x : CoreSt) : (setCore s c x).units = s.units := rfl
@[simp] theorem setCore_hbmSeq (s : State) (c : Nat) (x : CoreSt) : (setCore s c x).hbmSeq = s.hbmSeq := rfl
@[simp] theorem setCore_stripes (s : State) (c : Nat) (x : CoreSt) : (setCore s c x).stripes = s.stripes := rfl
@[simp] theorem setCore_system (s : State) (c : Nat) (x : CoreSt) : (setCore s c x).system = s.system := rfl
@[simp] theorem setCore_mesh (s : State) (c : Nat) (x : CoreSt) : (setCore s c x).mesh = s.mesh := rfl

@[simp] theorem setCluster_hart (s : State) (n : Nat) (x : ClusterSt) : (setCluster s n x).hart = s.hart := rfl
@[simp] theorem setCluster_rest (s : State) (n : Nat) (x : ClusterSt) : (setCluster s n x).rest = s.rest := rfl
@[simp] theorem setCluster_slots (s : State) (n : Nat) (x : ClusterSt) : (setCluster s n x).slots = s.slots := rfl
@[simp] theorem setCluster_cores (s : State) (n : Nat) (x : ClusterSt) : (setCluster s n x).cores = s.cores := rfl
@[simp] theorem setCluster_counts (s : State) (n : Nat) (x : ClusterSt) : (setCluster s n x).counts = s.counts := rfl
@[simp] theorem setCluster_mem (s : State) (n : Nat) (x : ClusterSt) : (setCluster s n x).mem = s.mem := rfl
@[simp] theorem setCluster_memMeta (s : State) (n : Nat) (x : ClusterSt) : (setCluster s n x).memMeta = s.memMeta := rfl
@[simp] theorem setCluster_i3 (s : State) (n : Nat) (x : ClusterSt) : (setCluster s n x).i3 = s.i3 := rfl
@[simp] theorem setCluster_o3 (s : State) (n : Nat) (x : ClusterSt) : (setCluster s n x).o3 = s.o3 := rfl
@[simp] theorem setCluster_attach (s : State) (n : Nat) (x : ClusterSt) : (setCluster s n x).attach = s.attach := rfl
@[simp] theorem setCluster_lost (s : State) (n : Nat) (x : ClusterSt) : (setCluster s n x).lost = s.lost := rfl
@[simp] theorem setCluster_crngb (s : State) (n : Nat) (x : ClusterSt) : (setCluster s n x).crngb = s.crngb := rfl
@[simp] theorem setCluster_crngc (s : State) (n : Nat) (x : ClusterSt) : (setCluster s n x).crngc = s.crngc := rfl
@[simp] theorem setCluster_memzone (s : State) (n : Nat) (x : ClusterSt) : (setCluster s n x).memzone = s.memzone := rfl
@[simp] theorem setCluster_dtime (s : State) (n : Nat) (x : ClusterSt) : (setCluster s n x).dtime = s.dtime := rfl
@[simp] theorem setCluster_portrtt (s : State) (n : Nat) (x : ClusterSt) : (setCluster s n x).portrtt = s.portrtt := rfl
@[simp] theorem setCluster_disp (s : State) (n : Nat) (x : ClusterSt) : (setCluster s n x).disp = s.disp := rfl
@[simp] theorem setCluster_mer (s : State) (n : Nat) (x : ClusterSt) : (setCluster s n x).mer = s.mer := rfl
@[simp] theorem setCluster_svc (s : State) (n : Nat) (x : ClusterSt) : (setCluster s n x).svc = s.svc := rfl
@[simp] theorem setCluster_ports (s : State) (n : Nat) (x : ClusterSt) : (setCluster s n x).ports = s.ports := rfl
@[simp] theorem setCluster_cur (s : State) (n : Nat) (x : ClusterSt) : (setCluster s n x).cur = s.cur := rfl
@[simp] theorem setCluster_tick (s : State) (n : Nat) (x : ClusterSt) : (setCluster s n x).tick = s.tick := rfl
@[simp] theorem setCluster_agenda (s : State) (n : Nat) (x : ClusterSt) : (setCluster s n x).agenda = s.agenda := rfl
@[simp] theorem setCluster_ir (s : State) (n : Nat) (x : ClusterSt) : (setCluster s n x).ir = s.ir := rfl
@[simp] theorem setCluster_units (s : State) (n : Nat) (x : ClusterSt) : (setCluster s n x).units = s.units := rfl
@[simp] theorem setCluster_hbmSeq (s : State) (n : Nat) (x : ClusterSt) : (setCluster s n x).hbmSeq = s.hbmSeq := rfl
@[simp] theorem setCluster_stripes (s : State) (n : Nat) (x : ClusterSt) : (setCluster s n x).stripes = s.stripes := rfl
@[simp] theorem setCluster_system (s : State) (n : Nat) (x : ClusterSt) : (setCluster s n x).system = s.system := rfl
@[simp] theorem setCluster_mesh (s : State) (n : Nat) (x : ClusterSt) : (setCluster s n x).mesh = s.mesh := rfl

@[simp] theorem setCounts_hart (s : State) (p : Nat) (c : Counts) : (setCounts s p c).hart = s.hart := rfl
@[simp] theorem setCounts_rest (s : State) (p : Nat) (c : Counts) : (setCounts s p c).rest = s.rest := rfl
@[simp] theorem setCounts_slots (s : State) (p : Nat) (c : Counts) : (setCounts s p c).slots = s.slots := rfl
@[simp] theorem setCounts_cores (s : State) (p : Nat) (c : Counts) : (setCounts s p c).cores = s.cores := rfl
@[simp] theorem setCounts_clusters (s : State) (p : Nat) (c : Counts) : (setCounts s p c).clusters = s.clusters := rfl
@[simp] theorem setCounts_mem (s : State) (p : Nat) (c : Counts) : (setCounts s p c).mem = s.mem := rfl
@[simp] theorem setCounts_memMeta (s : State) (p : Nat) (c : Counts) : (setCounts s p c).memMeta = s.memMeta := rfl
@[simp] theorem setCounts_i3 (s : State) (p : Nat) (c : Counts) : (setCounts s p c).i3 = s.i3 := rfl
@[simp] theorem setCounts_o3 (s : State) (p : Nat) (c : Counts) : (setCounts s p c).o3 = s.o3 := rfl
@[simp] theorem setCounts_attach (s : State) (p : Nat) (c : Counts) : (setCounts s p c).attach = s.attach := rfl
@[simp] theorem setCounts_lost (s : State) (p : Nat) (c : Counts) : (setCounts s p c).lost = s.lost := rfl
@[simp] theorem setCounts_crngb (s : State) (p : Nat) (c : Counts) : (setCounts s p c).crngb = s.crngb := rfl
@[simp] theorem setCounts_crngc (s : State) (p : Nat) (c : Counts) : (setCounts s p c).crngc = s.crngc := rfl
@[simp] theorem setCounts_memzone (s : State) (p : Nat) (c : Counts) : (setCounts s p c).memzone = s.memzone := rfl
@[simp] theorem setCounts_dtime (s : State) (p : Nat) (c : Counts) : (setCounts s p c).dtime = s.dtime := rfl
@[simp] theorem setCounts_portrtt (s : State) (p : Nat) (c : Counts) : (setCounts s p c).portrtt = s.portrtt := rfl
@[simp] theorem setCounts_disp (s : State) (p : Nat) (c : Counts) : (setCounts s p c).disp = s.disp := rfl
@[simp] theorem setCounts_mer (s : State) (p : Nat) (c : Counts) : (setCounts s p c).mer = s.mer := rfl
@[simp] theorem setCounts_svc (s : State) (p : Nat) (c : Counts) : (setCounts s p c).svc = s.svc := rfl
@[simp] theorem setCounts_ports (s : State) (p : Nat) (c : Counts) : (setCounts s p c).ports = s.ports := rfl
@[simp] theorem setCounts_cur (s : State) (p : Nat) (c : Counts) : (setCounts s p c).cur = s.cur := rfl
@[simp] theorem setCounts_tick (s : State) (p : Nat) (c : Counts) : (setCounts s p c).tick = s.tick := rfl
@[simp] theorem setCounts_agenda (s : State) (p : Nat) (c : Counts) : (setCounts s p c).agenda = s.agenda := rfl
@[simp] theorem setCounts_ir (s : State) (p : Nat) (c : Counts) : (setCounts s p c).ir = s.ir := rfl
@[simp] theorem setCounts_units (s : State) (p : Nat) (c : Counts) : (setCounts s p c).units = s.units := rfl
@[simp] theorem setCounts_hbmSeq (s : State) (p : Nat) (c : Counts) : (setCounts s p c).hbmSeq = s.hbmSeq := rfl
@[simp] theorem setCounts_stripes (s : State) (p : Nat) (c : Counts) : (setCounts s p c).stripes = s.stripes := rfl
@[simp] theorem setCounts_system (s : State) (p : Nat) (c : Counts) : (setCounts s p c).system = s.system := rfl
@[simp] theorem setCounts_mesh (s : State) (p : Nat) (c : Counts) : (setCounts s p c).mesh = s.mesh := rfl

@[simp] theorem nextTick_hart (s : State) : (nextTick s).hart = s.hart := rfl
@[simp] theorem nextTick_rest (s : State) : (nextTick s).rest = s.rest := rfl
@[simp] theorem nextTick_slots (s : State) : (nextTick s).slots = s.slots := rfl
@[simp] theorem nextTick_cores (s : State) : (nextTick s).cores = s.cores := rfl
@[simp] theorem nextTick_clusters (s : State) : (nextTick s).clusters = s.clusters := rfl
@[simp] theorem nextTick_counts (s : State) : (nextTick s).counts = s.counts := rfl
@[simp] theorem nextTick_mem (s : State) : (nextTick s).mem = s.mem := rfl
@[simp] theorem nextTick_memMeta (s : State) : (nextTick s).memMeta = s.memMeta := rfl
@[simp] theorem nextTick_i3 (s : State) : (nextTick s).i3 = s.i3 := rfl
@[simp] theorem nextTick_o3 (s : State) : (nextTick s).o3 = s.o3 := rfl
@[simp] theorem nextTick_attach (s : State) : (nextTick s).attach = s.attach := rfl
@[simp] theorem nextTick_lost (s : State) : (nextTick s).lost = s.lost := rfl
@[simp] theorem nextTick_crngb (s : State) : (nextTick s).crngb = s.crngb := rfl
@[simp] theorem nextTick_crngc (s : State) : (nextTick s).crngc = s.crngc := rfl
@[simp] theorem nextTick_memzone (s : State) : (nextTick s).memzone = s.memzone := rfl
@[simp] theorem nextTick_dtime (s : State) : (nextTick s).dtime = s.dtime := rfl
@[simp] theorem nextTick_portrtt (s : State) : (nextTick s).portrtt = s.portrtt := rfl
@[simp] theorem nextTick_disp (s : State) : (nextTick s).disp = s.disp := rfl
@[simp] theorem nextTick_mer (s : State) : (nextTick s).mer = s.mer := rfl
@[simp] theorem nextTick_svc (s : State) : (nextTick s).svc = s.svc := rfl
@[simp] theorem nextTick_ports (s : State) : (nextTick s).ports = s.ports := rfl
@[simp] theorem nextTick_cur (s : State) : (nextTick s).cur = s.cur := rfl
@[simp] theorem nextTick_agenda (s : State) : (nextTick s).agenda = s.agenda := rfl
@[simp] theorem nextTick_ir (s : State) : (nextTick s).ir = s.ir := rfl
@[simp] theorem nextTick_units (s : State) : (nextTick s).units = s.units := rfl
@[simp] theorem nextTick_hbmSeq (s : State) : (nextTick s).hbmSeq = s.hbmSeq := rfl
@[simp] theorem nextTick_stripes (s : State) : (nextTick s).stripes = s.stripes := rfl
@[simp] theorem nextTick_system (s : State) : (nextTick s).system = s.system := rfl
@[simp] theorem nextTick_mesh (s : State) : (nextTick s).mesh = s.mesh := rfl

@[simp] theorem setStep_hart (s : State) (r : StepRec) : (setStep s r).hart = s.hart := rfl
@[simp] theorem setStep_rest (s : State) (r : StepRec) : (setStep s r).rest = s.rest := rfl
@[simp] theorem setStep_slots (s : State) (r : StepRec) : (setStep s r).slots = s.slots := rfl
@[simp] theorem setStep_cores (s : State) (r : StepRec) : (setStep s r).cores = s.cores := rfl
@[simp] theorem setStep_clusters (s : State) (r : StepRec) : (setStep s r).clusters = s.clusters := rfl
@[simp] theorem setStep_counts (s : State) (r : StepRec) : (setStep s r).counts = s.counts := rfl
@[simp] theorem setStep_mem (s : State) (r : StepRec) : (setStep s r).mem = s.mem := rfl
@[simp] theorem setStep_memMeta (s : State) (r : StepRec) : (setStep s r).memMeta = s.memMeta := rfl
@[simp] theorem setStep_i3 (s : State) (r : StepRec) : (setStep s r).i3 = s.i3 := rfl
@[simp] theorem setStep_o3 (s : State) (r : StepRec) : (setStep s r).o3 = s.o3 := rfl
@[simp] theorem setStep_attach (s : State) (r : StepRec) : (setStep s r).attach = s.attach := rfl
@[simp] theorem setStep_lost (s : State) (r : StepRec) : (setStep s r).lost = s.lost := rfl
@[simp] theorem setStep_crngb (s : State) (r : StepRec) : (setStep s r).crngb = s.crngb := rfl
@[simp] theorem setStep_crngc (s : State) (r : StepRec) : (setStep s r).crngc = s.crngc := rfl
@[simp] theorem setStep_memzone (s : State) (r : StepRec) : (setStep s r).memzone = s.memzone := rfl
@[simp] theorem setStep_dtime (s : State) (r : StepRec) : (setStep s r).dtime = s.dtime := rfl
@[simp] theorem setStep_portrtt (s : State) (r : StepRec) : (setStep s r).portrtt = s.portrtt := rfl
@[simp] theorem setStep_mer (s : State) (r : StepRec) : (setStep s r).mer = s.mer := rfl
@[simp] theorem setStep_svc (s : State) (r : StepRec) : (setStep s r).svc = s.svc := rfl
@[simp] theorem setStep_ports (s : State) (r : StepRec) : (setStep s r).ports = s.ports := rfl
@[simp] theorem setStep_cur (s : State) (r : StepRec) : (setStep s r).cur = s.cur := rfl
@[simp] theorem setStep_tick (s : State) (r : StepRec) : (setStep s r).tick = s.tick := rfl
@[simp] theorem setStep_agenda (s : State) (r : StepRec) : (setStep s r).agenda = s.agenda := rfl
@[simp] theorem setStep_ir (s : State) (r : StepRec) : (setStep s r).ir = s.ir := rfl
@[simp] theorem setStep_units (s : State) (r : StepRec) : (setStep s r).units = s.units := rfl
@[simp] theorem setStep_hbmSeq (s : State) (r : StepRec) : (setStep s r).hbmSeq = s.hbmSeq := rfl
@[simp] theorem setStep_stripes (s : State) (r : StepRec) : (setStep s r).stripes = s.stripes := rfl
@[simp] theorem setStep_system (s : State) (r : StepRec) : (setStep s r).system = s.system := rfl
@[simp] theorem setStep_mesh (s : State) (r : StepRec) : (setStep s r).mesh = s.mesh := rfl

@[simp] theorem setLaunch_hart (s : State) (l : LaunchRec) : (setLaunch s l).hart = s.hart := rfl
@[simp] theorem setLaunch_rest (s : State) (l : LaunchRec) : (setLaunch s l).rest = s.rest := rfl
@[simp] theorem setLaunch_slots (s : State) (l : LaunchRec) : (setLaunch s l).slots = s.slots := rfl
@[simp] theorem setLaunch_cores (s : State) (l : LaunchRec) : (setLaunch s l).cores = s.cores := rfl
@[simp] theorem setLaunch_clusters (s : State) (l : LaunchRec) : (setLaunch s l).clusters = s.clusters := rfl
@[simp] theorem setLaunch_counts (s : State) (l : LaunchRec) : (setLaunch s l).counts = s.counts := rfl
@[simp] theorem setLaunch_mem (s : State) (l : LaunchRec) : (setLaunch s l).mem = s.mem := rfl
@[simp] theorem setLaunch_memMeta (s : State) (l : LaunchRec) : (setLaunch s l).memMeta = s.memMeta := rfl
@[simp] theorem setLaunch_i3 (s : State) (l : LaunchRec) : (setLaunch s l).i3 = s.i3 := rfl
@[simp] theorem setLaunch_o3 (s : State) (l : LaunchRec) : (setLaunch s l).o3 = s.o3 := rfl
@[simp] theorem setLaunch_attach (s : State) (l : LaunchRec) : (setLaunch s l).attach = s.attach := rfl
@[simp] theorem setLaunch_lost (s : State) (l : LaunchRec) : (setLaunch s l).lost = s.lost := rfl
@[simp] theorem setLaunch_crngb (s : State) (l : LaunchRec) : (setLaunch s l).crngb = s.crngb := rfl
@[simp] theorem setLaunch_crngc (s : State) (l : LaunchRec) : (setLaunch s l).crngc = s.crngc := rfl
@[simp] theorem setLaunch_memzone (s : State) (l : LaunchRec) : (setLaunch s l).memzone = s.memzone := rfl
@[simp] theorem setLaunch_dtime (s : State) (l : LaunchRec) : (setLaunch s l).dtime = s.dtime := rfl
@[simp] theorem setLaunch_portrtt (s : State) (l : LaunchRec) : (setLaunch s l).portrtt = s.portrtt := rfl
@[simp] theorem setLaunch_mer (s : State) (l : LaunchRec) : (setLaunch s l).mer = s.mer := rfl
@[simp] theorem setLaunch_svc (s : State) (l : LaunchRec) : (setLaunch s l).svc = s.svc := rfl
@[simp] theorem setLaunch_ports (s : State) (l : LaunchRec) : (setLaunch s l).ports = s.ports := rfl
@[simp] theorem setLaunch_cur (s : State) (l : LaunchRec) : (setLaunch s l).cur = s.cur := rfl
@[simp] theorem setLaunch_tick (s : State) (l : LaunchRec) : (setLaunch s l).tick = s.tick := rfl
@[simp] theorem setLaunch_agenda (s : State) (l : LaunchRec) : (setLaunch s l).agenda = s.agenda := rfl
@[simp] theorem setLaunch_ir (s : State) (l : LaunchRec) : (setLaunch s l).ir = s.ir := rfl
@[simp] theorem setLaunch_units (s : State) (l : LaunchRec) : (setLaunch s l).units = s.units := rfl
@[simp] theorem setLaunch_hbmSeq (s : State) (l : LaunchRec) : (setLaunch s l).hbmSeq = s.hbmSeq := rfl
@[simp] theorem setLaunch_stripes (s : State) (l : LaunchRec) : (setLaunch s l).stripes = s.stripes := rfl
@[simp] theorem setLaunch_system (s : State) (l : LaunchRec) : (setLaunch s l).system = s.system := rfl
@[simp] theorem setLaunch_mesh (s : State) (l : LaunchRec) : (setLaunch s l).mesh = s.mesh := rfl

@[simp] theorem report_hart (s : State) (ws : List Word) : (report s ws).hart = s.hart := rfl
@[simp] theorem report_rest (s : State) (ws : List Word) : (report s ws).rest = s.rest := rfl
@[simp] theorem report_slots (s : State) (ws : List Word) : (report s ws).slots = s.slots := rfl
@[simp] theorem report_cores (s : State) (ws : List Word) : (report s ws).cores = s.cores := rfl
@[simp] theorem report_clusters (s : State) (ws : List Word) : (report s ws).clusters = s.clusters := rfl
@[simp] theorem report_counts (s : State) (ws : List Word) : (report s ws).counts = s.counts := rfl
@[simp] theorem report_mem (s : State) (ws : List Word) : (report s ws).mem = s.mem := rfl
@[simp] theorem report_memMeta (s : State) (ws : List Word) : (report s ws).memMeta = s.memMeta := rfl
@[simp] theorem report_i3 (s : State) (ws : List Word) : (report s ws).i3 = s.i3 := rfl
@[simp] theorem report_o3 (s : State) (ws : List Word) : (report s ws).o3 = s.o3 := rfl
@[simp] theorem report_attach (s : State) (ws : List Word) : (report s ws).attach = s.attach := rfl
@[simp] theorem report_lost (s : State) (ws : List Word) : (report s ws).lost = s.lost := rfl
@[simp] theorem report_crngb (s : State) (ws : List Word) : (report s ws).crngb = s.crngb := rfl
@[simp] theorem report_crngc (s : State) (ws : List Word) : (report s ws).crngc = s.crngc := rfl
@[simp] theorem report_memzone (s : State) (ws : List Word) : (report s ws).memzone = s.memzone := rfl
@[simp] theorem report_dtime (s : State) (ws : List Word) : (report s ws).dtime = s.dtime := rfl
@[simp] theorem report_portrtt (s : State) (ws : List Word) : (report s ws).portrtt = s.portrtt := rfl
@[simp] theorem report_mer (s : State) (ws : List Word) : (report s ws).mer = s.mer := rfl
@[simp] theorem report_svc (s : State) (ws : List Word) : (report s ws).svc = s.svc := rfl
@[simp] theorem report_ports (s : State) (ws : List Word) : (report s ws).ports = s.ports := rfl
@[simp] theorem report_cur (s : State) (ws : List Word) : (report s ws).cur = s.cur := rfl
@[simp] theorem report_tick (s : State) (ws : List Word) : (report s ws).tick = s.tick := rfl
@[simp] theorem report_agenda (s : State) (ws : List Word) : (report s ws).agenda = s.agenda := rfl
@[simp] theorem report_ir (s : State) (ws : List Word) : (report s ws).ir = s.ir := rfl
@[simp] theorem report_units (s : State) (ws : List Word) : (report s ws).units = s.units := rfl
@[simp] theorem report_hbmSeq (s : State) (ws : List Word) : (report s ws).hbmSeq = s.hbmSeq := rfl
@[simp] theorem report_stripes (s : State) (ws : List Word) : (report s ws).stripes = s.stripes := rfl
@[simp] theorem report_system (s : State) (ws : List Word) : (report s ws).system = s.system := rfl
@[simp] theorem report_mesh (s : State) (ws : List Word) : (report s ws).mesh = s.mesh := rfl

@[simp] theorem setGraph_hart (s : State) (g : Nat) (x : Graph) : (setGraph s g x).hart = s.hart := rfl
@[simp] theorem setGraph_rest (s : State) (g : Nat) (x : Graph) : (setGraph s g x).rest = s.rest := rfl
@[simp] theorem setGraph_slots (s : State) (g : Nat) (x : Graph) : (setGraph s g x).slots = s.slots := rfl
@[simp] theorem setGraph_cores (s : State) (g : Nat) (x : Graph) : (setGraph s g x).cores = s.cores := rfl
@[simp] theorem setGraph_clusters (s : State) (g : Nat) (x : Graph) : (setGraph s g x).clusters = s.clusters := rfl
@[simp] theorem setGraph_counts (s : State) (g : Nat) (x : Graph) : (setGraph s g x).counts = s.counts := rfl
@[simp] theorem setGraph_mem (s : State) (g : Nat) (x : Graph) : (setGraph s g x).mem = s.mem := rfl
@[simp] theorem setGraph_memMeta (s : State) (g : Nat) (x : Graph) : (setGraph s g x).memMeta = s.memMeta := rfl
@[simp] theorem setGraph_i3 (s : State) (g : Nat) (x : Graph) : (setGraph s g x).i3 = s.i3 := rfl
@[simp] theorem setGraph_o3 (s : State) (g : Nat) (x : Graph) : (setGraph s g x).o3 = s.o3 := rfl
@[simp] theorem setGraph_attach (s : State) (g : Nat) (x : Graph) : (setGraph s g x).attach = s.attach := rfl
@[simp] theorem setGraph_lost (s : State) (g : Nat) (x : Graph) : (setGraph s g x).lost = s.lost := rfl
@[simp] theorem setGraph_crngb (s : State) (g : Nat) (x : Graph) : (setGraph s g x).crngb = s.crngb := rfl
@[simp] theorem setGraph_crngc (s : State) (g : Nat) (x : Graph) : (setGraph s g x).crngc = s.crngc := rfl
@[simp] theorem setGraph_memzone (s : State) (g : Nat) (x : Graph) : (setGraph s g x).memzone = s.memzone := rfl
@[simp] theorem setGraph_dtime (s : State) (g : Nat) (x : Graph) : (setGraph s g x).dtime = s.dtime := rfl
@[simp] theorem setGraph_portrtt (s : State) (g : Nat) (x : Graph) : (setGraph s g x).portrtt = s.portrtt := rfl
@[simp] theorem setGraph_disp (s : State) (g : Nat) (x : Graph) : (setGraph s g x).disp = s.disp := rfl
@[simp] theorem setGraph_svc (s : State) (g : Nat) (x : Graph) : (setGraph s g x).svc = s.svc := rfl
@[simp] theorem setGraph_ports (s : State) (g : Nat) (x : Graph) : (setGraph s g x).ports = s.ports := rfl
@[simp] theorem setGraph_cur (s : State) (g : Nat) (x : Graph) : (setGraph s g x).cur = s.cur := rfl
@[simp] theorem setGraph_tick (s : State) (g : Nat) (x : Graph) : (setGraph s g x).tick = s.tick := rfl
@[simp] theorem setGraph_agenda (s : State) (g : Nat) (x : Graph) : (setGraph s g x).agenda = s.agenda := rfl
@[simp] theorem setGraph_ir (s : State) (g : Nat) (x : Graph) : (setGraph s g x).ir = s.ir := rfl
@[simp] theorem setGraph_units (s : State) (g : Nat) (x : Graph) : (setGraph s g x).units = s.units := rfl
@[simp] theorem setGraph_hbmSeq (s : State) (g : Nat) (x : Graph) : (setGraph s g x).hbmSeq = s.hbmSeq := rfl
@[simp] theorem setGraph_stripes (s : State) (g : Nat) (x : Graph) : (setGraph s g x).stripes = s.stripes := rfl
@[simp] theorem setGraph_system (s : State) (g : Nat) (x : Graph) : (setGraph s g x).system = s.system := rfl
@[simp] theorem setGraph_mesh (s : State) (g : Nat) (x : Graph) : (setGraph s g x).mesh = s.mesh := rfl

@[simp] theorem setX_rest (s : State) (d : XIdx) (v : Word) : (setX s d v).rest = s.rest := rfl
@[simp] theorem setX_slots (s : State) (d : XIdx) (v : Word) : (setX s d v).slots = s.slots := rfl
@[simp] theorem setX_cores (s : State) (d : XIdx) (v : Word) : (setX s d v).cores = s.cores := rfl
@[simp] theorem setX_clusters (s : State) (d : XIdx) (v : Word) : (setX s d v).clusters = s.clusters := rfl
@[simp] theorem setX_counts (s : State) (d : XIdx) (v : Word) : (setX s d v).counts = s.counts := rfl
@[simp] theorem setX_mem (s : State) (d : XIdx) (v : Word) : (setX s d v).mem = s.mem := rfl
@[simp] theorem setX_memMeta (s : State) (d : XIdx) (v : Word) : (setX s d v).memMeta = s.memMeta := rfl
@[simp] theorem setX_i3 (s : State) (d : XIdx) (v : Word) : (setX s d v).i3 = s.i3 := rfl
@[simp] theorem setX_o3 (s : State) (d : XIdx) (v : Word) : (setX s d v).o3 = s.o3 := rfl
@[simp] theorem setX_attach (s : State) (d : XIdx) (v : Word) : (setX s d v).attach = s.attach := rfl
@[simp] theorem setX_lost (s : State) (d : XIdx) (v : Word) : (setX s d v).lost = s.lost := rfl
@[simp] theorem setX_crngb (s : State) (d : XIdx) (v : Word) : (setX s d v).crngb = s.crngb := rfl
@[simp] theorem setX_crngc (s : State) (d : XIdx) (v : Word) : (setX s d v).crngc = s.crngc := rfl
@[simp] theorem setX_memzone (s : State) (d : XIdx) (v : Word) : (setX s d v).memzone = s.memzone := rfl
@[simp] theorem setX_dtime (s : State) (d : XIdx) (v : Word) : (setX s d v).dtime = s.dtime := rfl
@[simp] theorem setX_portrtt (s : State) (d : XIdx) (v : Word) : (setX s d v).portrtt = s.portrtt := rfl
@[simp] theorem setX_disp (s : State) (d : XIdx) (v : Word) : (setX s d v).disp = s.disp := rfl
@[simp] theorem setX_mer (s : State) (d : XIdx) (v : Word) : (setX s d v).mer = s.mer := rfl
@[simp] theorem setX_svc (s : State) (d : XIdx) (v : Word) : (setX s d v).svc = s.svc := rfl
@[simp] theorem setX_ports (s : State) (d : XIdx) (v : Word) : (setX s d v).ports = s.ports := rfl
@[simp] theorem setX_cur (s : State) (d : XIdx) (v : Word) : (setX s d v).cur = s.cur := rfl
@[simp] theorem setX_tick (s : State) (d : XIdx) (v : Word) : (setX s d v).tick = s.tick := rfl
@[simp] theorem setX_agenda (s : State) (d : XIdx) (v : Word) : (setX s d v).agenda = s.agenda := rfl
@[simp] theorem setX_ir (s : State) (d : XIdx) (v : Word) : (setX s d v).ir = s.ir := rfl
@[simp] theorem setX_units (s : State) (d : XIdx) (v : Word) : (setX s d v).units = s.units := rfl
@[simp] theorem setX_hbmSeq (s : State) (d : XIdx) (v : Word) : (setX s d v).hbmSeq = s.hbmSeq := rfl
@[simp] theorem setX_stripes (s : State) (d : XIdx) (v : Word) : (setX s d v).stripes = s.stripes := rfl
@[simp] theorem setX_system (s : State) (d : XIdx) (v : Word) : (setX s d v).system = s.system := rfl
@[simp] theorem setX_mesh (s : State) (d : XIdx) (v : Word) : (setX s d v).mesh = s.mesh := rfl

@[simp] theorem setV_rest (s : State) (d : VIdx) (v : VReg) : (setV s d v).rest = s.rest := rfl
@[simp] theorem setV_slots (s : State) (d : VIdx) (v : VReg) : (setV s d v).slots = s.slots := rfl
@[simp] theorem setV_cores (s : State) (d : VIdx) (v : VReg) : (setV s d v).cores = s.cores := rfl
@[simp] theorem setV_clusters (s : State) (d : VIdx) (v : VReg) : (setV s d v).clusters = s.clusters := rfl
@[simp] theorem setV_counts (s : State) (d : VIdx) (v : VReg) : (setV s d v).counts = s.counts := rfl
@[simp] theorem setV_mem (s : State) (d : VIdx) (v : VReg) : (setV s d v).mem = s.mem := rfl
@[simp] theorem setV_memMeta (s : State) (d : VIdx) (v : VReg) : (setV s d v).memMeta = s.memMeta := rfl
@[simp] theorem setV_i3 (s : State) (d : VIdx) (v : VReg) : (setV s d v).i3 = s.i3 := rfl
@[simp] theorem setV_o3 (s : State) (d : VIdx) (v : VReg) : (setV s d v).o3 = s.o3 := rfl
@[simp] theorem setV_attach (s : State) (d : VIdx) (v : VReg) : (setV s d v).attach = s.attach := rfl
@[simp] theorem setV_lost (s : State) (d : VIdx) (v : VReg) : (setV s d v).lost = s.lost := rfl
@[simp] theorem setV_crngb (s : State) (d : VIdx) (v : VReg) : (setV s d v).crngb = s.crngb := rfl
@[simp] theorem setV_crngc (s : State) (d : VIdx) (v : VReg) : (setV s d v).crngc = s.crngc := rfl
@[simp] theorem setV_memzone (s : State) (d : VIdx) (v : VReg) : (setV s d v).memzone = s.memzone := rfl
@[simp] theorem setV_dtime (s : State) (d : VIdx) (v : VReg) : (setV s d v).dtime = s.dtime := rfl
@[simp] theorem setV_portrtt (s : State) (d : VIdx) (v : VReg) : (setV s d v).portrtt = s.portrtt := rfl
@[simp] theorem setV_disp (s : State) (d : VIdx) (v : VReg) : (setV s d v).disp = s.disp := rfl
@[simp] theorem setV_mer (s : State) (d : VIdx) (v : VReg) : (setV s d v).mer = s.mer := rfl
@[simp] theorem setV_svc (s : State) (d : VIdx) (v : VReg) : (setV s d v).svc = s.svc := rfl
@[simp] theorem setV_ports (s : State) (d : VIdx) (v : VReg) : (setV s d v).ports = s.ports := rfl
@[simp] theorem setV_cur (s : State) (d : VIdx) (v : VReg) : (setV s d v).cur = s.cur := rfl
@[simp] theorem setV_tick (s : State) (d : VIdx) (v : VReg) : (setV s d v).tick = s.tick := rfl
@[simp] theorem setV_agenda (s : State) (d : VIdx) (v : VReg) : (setV s d v).agenda = s.agenda := rfl
@[simp] theorem setV_ir (s : State) (d : VIdx) (v : VReg) : (setV s d v).ir = s.ir := rfl
@[simp] theorem setV_units (s : State) (d : VIdx) (v : VReg) : (setV s d v).units = s.units := rfl
@[simp] theorem setV_hbmSeq (s : State) (d : VIdx) (v : VReg) : (setV s d v).hbmSeq = s.hbmSeq := rfl
@[simp] theorem setV_stripes (s : State) (d : VIdx) (v : VReg) : (setV s d v).stripes = s.stripes := rfl
@[simp] theorem setV_system (s : State) (d : VIdx) (v : VReg) : (setV s d v).system = s.system := rfl
@[simp] theorem setV_mesh (s : State) (d : VIdx) (v : VReg) : (setV s d v).mesh = s.mesh := rfl

@[simp] theorem setP_rest (s : State) (d : PIdx) (v : PReg) : (setP s d v).rest = s.rest := rfl
@[simp] theorem setP_slots (s : State) (d : PIdx) (v : PReg) : (setP s d v).slots = s.slots := rfl
@[simp] theorem setP_cores (s : State) (d : PIdx) (v : PReg) : (setP s d v).cores = s.cores := rfl
@[simp] theorem setP_clusters (s : State) (d : PIdx) (v : PReg) : (setP s d v).clusters = s.clusters := rfl
@[simp] theorem setP_counts (s : State) (d : PIdx) (v : PReg) : (setP s d v).counts = s.counts := rfl
@[simp] theorem setP_mem (s : State) (d : PIdx) (v : PReg) : (setP s d v).mem = s.mem := rfl
@[simp] theorem setP_memMeta (s : State) (d : PIdx) (v : PReg) : (setP s d v).memMeta = s.memMeta := rfl
@[simp] theorem setP_i3 (s : State) (d : PIdx) (v : PReg) : (setP s d v).i3 = s.i3 := rfl
@[simp] theorem setP_o3 (s : State) (d : PIdx) (v : PReg) : (setP s d v).o3 = s.o3 := rfl
@[simp] theorem setP_attach (s : State) (d : PIdx) (v : PReg) : (setP s d v).attach = s.attach := rfl
@[simp] theorem setP_lost (s : State) (d : PIdx) (v : PReg) : (setP s d v).lost = s.lost := rfl
@[simp] theorem setP_crngb (s : State) (d : PIdx) (v : PReg) : (setP s d v).crngb = s.crngb := rfl
@[simp] theorem setP_crngc (s : State) (d : PIdx) (v : PReg) : (setP s d v).crngc = s.crngc := rfl
@[simp] theorem setP_memzone (s : State) (d : PIdx) (v : PReg) : (setP s d v).memzone = s.memzone := rfl
@[simp] theorem setP_dtime (s : State) (d : PIdx) (v : PReg) : (setP s d v).dtime = s.dtime := rfl
@[simp] theorem setP_portrtt (s : State) (d : PIdx) (v : PReg) : (setP s d v).portrtt = s.portrtt := rfl
@[simp] theorem setP_disp (s : State) (d : PIdx) (v : PReg) : (setP s d v).disp = s.disp := rfl
@[simp] theorem setP_mer (s : State) (d : PIdx) (v : PReg) : (setP s d v).mer = s.mer := rfl
@[simp] theorem setP_svc (s : State) (d : PIdx) (v : PReg) : (setP s d v).svc = s.svc := rfl
@[simp] theorem setP_ports (s : State) (d : PIdx) (v : PReg) : (setP s d v).ports = s.ports := rfl
@[simp] theorem setP_cur (s : State) (d : PIdx) (v : PReg) : (setP s d v).cur = s.cur := rfl
@[simp] theorem setP_tick (s : State) (d : PIdx) (v : PReg) : (setP s d v).tick = s.tick := rfl
@[simp] theorem setP_agenda (s : State) (d : PIdx) (v : PReg) : (setP s d v).agenda = s.agenda := rfl
@[simp] theorem setP_ir (s : State) (d : PIdx) (v : PReg) : (setP s d v).ir = s.ir := rfl
@[simp] theorem setP_units (s : State) (d : PIdx) (v : PReg) : (setP s d v).units = s.units := rfl
@[simp] theorem setP_hbmSeq (s : State) (d : PIdx) (v : PReg) : (setP s d v).hbmSeq = s.hbmSeq := rfl
@[simp] theorem setP_stripes (s : State) (d : PIdx) (v : PReg) : (setP s d v).stripes = s.stripes := rfl
@[simp] theorem setP_system (s : State) (d : PIdx) (v : PReg) : (setP s d v).system = s.system := rfl
@[simp] theorem setP_mesh (s : State) (d : PIdx) (v : PReg) : (setP s d v).mesh = s.mesh := rfl

@[simp] theorem advance_rest (s : State) : (advance s).rest = s.rest := rfl
@[simp] theorem advance_slots (s : State) : (advance s).slots = s.slots := rfl
@[simp] theorem advance_cores (s : State) : (advance s).cores = s.cores := rfl
@[simp] theorem advance_clusters (s : State) : (advance s).clusters = s.clusters := rfl
@[simp] theorem advance_counts (s : State) : (advance s).counts = s.counts := rfl
@[simp] theorem advance_mem (s : State) : (advance s).mem = s.mem := rfl
@[simp] theorem advance_memMeta (s : State) : (advance s).memMeta = s.memMeta := rfl
@[simp] theorem advance_i3 (s : State) : (advance s).i3 = s.i3 := rfl
@[simp] theorem advance_o3 (s : State) : (advance s).o3 = s.o3 := rfl
@[simp] theorem advance_attach (s : State) : (advance s).attach = s.attach := rfl
@[simp] theorem advance_lost (s : State) : (advance s).lost = s.lost := rfl
@[simp] theorem advance_crngb (s : State) : (advance s).crngb = s.crngb := rfl
@[simp] theorem advance_crngc (s : State) : (advance s).crngc = s.crngc := rfl
@[simp] theorem advance_memzone (s : State) : (advance s).memzone = s.memzone := rfl
@[simp] theorem advance_dtime (s : State) : (advance s).dtime = s.dtime := rfl
@[simp] theorem advance_portrtt (s : State) : (advance s).portrtt = s.portrtt := rfl
@[simp] theorem advance_disp (s : State) : (advance s).disp = s.disp := rfl
@[simp] theorem advance_mer (s : State) : (advance s).mer = s.mer := rfl
@[simp] theorem advance_svc (s : State) : (advance s).svc = s.svc := rfl
@[simp] theorem advance_ports (s : State) : (advance s).ports = s.ports := rfl
@[simp] theorem advance_cur (s : State) : (advance s).cur = s.cur := rfl
@[simp] theorem advance_tick (s : State) : (advance s).tick = s.tick := rfl
@[simp] theorem advance_agenda (s : State) : (advance s).agenda = s.agenda := rfl
@[simp] theorem advance_ir (s : State) : (advance s).ir = s.ir := rfl
@[simp] theorem advance_units (s : State) : (advance s).units = s.units := rfl
@[simp] theorem advance_hbmSeq (s : State) : (advance s).hbmSeq = s.hbmSeq := rfl
@[simp] theorem advance_stripes (s : State) : (advance s).stripes = s.stripes := rfl
@[simp] theorem advance_system (s : State) : (advance s).system = s.system := rfl
@[simp] theorem advance_mesh (s : State) : (advance s).mesh = s.mesh := rfl

@[simp] theorem setHbm_hart (s : State) (g : Nat) (x : Granule) : (setHbm s g x).hart = s.hart := by unfold setHbm; rfl
@[simp] theorem setHbm_rest (s : State) (g : Nat) (x : Granule) : (setHbm s g x).rest = s.rest := by unfold setHbm; rfl
@[simp] theorem setHbm_slots (s : State) (g : Nat) (x : Granule) : (setHbm s g x).slots = s.slots := by unfold setHbm; rfl
@[simp] theorem setHbm_cores (s : State) (g : Nat) (x : Granule) : (setHbm s g x).cores = s.cores := by unfold setHbm; rfl
@[simp] theorem setHbm_clusters (s : State) (g : Nat) (x : Granule) : (setHbm s g x).clusters = s.clusters := by unfold setHbm; rfl
@[simp] theorem setHbm_counts (s : State) (g : Nat) (x : Granule) : (setHbm s g x).counts = s.counts := by unfold setHbm; rfl
@[simp] theorem setHbm_i3 (s : State) (g : Nat) (x : Granule) : (setHbm s g x).i3 = s.i3 := by unfold setHbm; rfl
@[simp] theorem setHbm_o3 (s : State) (g : Nat) (x : Granule) : (setHbm s g x).o3 = s.o3 := by unfold setHbm; rfl
@[simp] theorem setHbm_attach (s : State) (g : Nat) (x : Granule) : (setHbm s g x).attach = s.attach := by unfold setHbm; rfl
@[simp] theorem setHbm_lost (s : State) (g : Nat) (x : Granule) : (setHbm s g x).lost = s.lost := by unfold setHbm; rfl
@[simp] theorem setHbm_crngb (s : State) (g : Nat) (x : Granule) : (setHbm s g x).crngb = s.crngb := by unfold setHbm; rfl
@[simp] theorem setHbm_crngc (s : State) (g : Nat) (x : Granule) : (setHbm s g x).crngc = s.crngc := by unfold setHbm; rfl
@[simp] theorem setHbm_memzone (s : State) (g : Nat) (x : Granule) : (setHbm s g x).memzone = s.memzone := by unfold setHbm; rfl
@[simp] theorem setHbm_dtime (s : State) (g : Nat) (x : Granule) : (setHbm s g x).dtime = s.dtime := by unfold setHbm; rfl
@[simp] theorem setHbm_portrtt (s : State) (g : Nat) (x : Granule) : (setHbm s g x).portrtt = s.portrtt := by unfold setHbm; rfl
@[simp] theorem setHbm_disp (s : State) (g : Nat) (x : Granule) : (setHbm s g x).disp = s.disp := by unfold setHbm; rfl
@[simp] theorem setHbm_mer (s : State) (g : Nat) (x : Granule) : (setHbm s g x).mer = s.mer := by unfold setHbm; rfl
@[simp] theorem setHbm_svc (s : State) (g : Nat) (x : Granule) : (setHbm s g x).svc = s.svc := by unfold setHbm; rfl
@[simp] theorem setHbm_ports (s : State) (g : Nat) (x : Granule) : (setHbm s g x).ports = s.ports := by unfold setHbm; rfl
@[simp] theorem setHbm_cur (s : State) (g : Nat) (x : Granule) : (setHbm s g x).cur = s.cur := by unfold setHbm; rfl
@[simp] theorem setHbm_tick (s : State) (g : Nat) (x : Granule) : (setHbm s g x).tick = s.tick := by unfold setHbm; rfl
@[simp] theorem setHbm_agenda (s : State) (g : Nat) (x : Granule) : (setHbm s g x).agenda = s.agenda := by unfold setHbm; rfl
@[simp] theorem setHbm_ir (s : State) (g : Nat) (x : Granule) : (setHbm s g x).ir = s.ir := by unfold setHbm; rfl
@[simp] theorem setHbm_units (s : State) (g : Nat) (x : Granule) : (setHbm s g x).units = s.units := by unfold setHbm; rfl

@[simp] theorem setX_hart (s : State) (d : XIdx) (v : Word) : (setX s d v).hart = s.hart.setX d v := rfl
@[simp] theorem setV_hart (s : State) (d : VIdx) (v : VReg) : (setV s d v).hart = s.hart.setV d v := rfl
@[simp] theorem setP_hart (s : State) (d : PIdx) (v : PReg) : (setP s d v).hart = s.hart.setP d v := rfl
@[simp] theorem advance_hart (s : State) : (advance s).hart = s.hart.advance := rfl

@[simp] theorem Hart.setX_v (h : Hart) (d : XIdx) (v : Word) : (h.setX d v).v = h.v := by unfold Hart.setX; split <;> rfl
@[simp] theorem Hart.setX_p (h : Hart) (d : XIdx) (v : Word) : (h.setX d v).p = h.p := by unfold Hart.setX; split <;> rfl
@[simp] theorem Hart.setX_pc (h : Hart) (d : XIdx) (v : Word) : (h.setX d v).pc = h.pc := by unfold Hart.setX; split <;> rfl
@[simp] theorem Hart.setX_vstart (h : Hart) (d : XIdx) (v : Word) : (h.setX d v).vstart = h.vstart := by unfold Hart.setX; split <;> rfl
@[simp] theorem Hart.setX_vl (h : Hart) (d : XIdx) (v : Word) : (h.setX d v).vl = h.vl := by unfold Hart.setX; split <;> rfl
@[simp] theorem Hart.setX_mfc (h : Hart) (d : XIdx) (v : Word) : (h.setX d v).mfc = h.mfc := by unfold Hart.setX; split <;> rfl
@[simp] theorem Hart.setX_scalebase (h : Hart) (d : XIdx) (v : Word) : (h.setX d v).scalebase = h.scalebase := by unfold Hart.setX; split <;> rfl
@[simp] theorem Hart.setX_dirtymap (h : Hart) (d : XIdx) (v : Word) : (h.setX d v).dirtymap = h.dirtymap := by unfold Hart.setX; split <;> rfl
@[simp] theorem Hart.setX_numst (h : Hart) (d : XIdx) (v : Word) : (h.setX d v).numst = h.numst := by unfold Hart.setX; split <;> rfl
@[simp] theorem Hart.setX_mvl (h : Hart) (d : XIdx) (v : Word) : (h.setX d v).mvl = h.mvl := by unfold Hart.setX; split <;> rfl
@[simp] theorem Hart.setX_tiles (h : Hart) (d : XIdx) (v : Word) : (h.setX d v).tiles = h.tiles := by unfold Hart.setX; split <;> rfl
@[simp] theorem Hart.setX_lc (h : Hart) (d : XIdx) (v : Word) : (h.setX d v).lc = h.lc := by unfold Hart.setX; split <;> rfl
@[simp] theorem Hart.setX_frames (h : Hart) (d : XIdx) (v : Word) : (h.setX d v).frames = h.frames := by unfold Hart.setX; split <;> rfl
@[simp] theorem Hart.setX_susp (h : Hart) (d : XIdx) (v : Word) : (h.setX d v).susp = h.susp := by unfold Hart.setX; split <;> rfl
@[simp] theorem Hart.setX_turnpos (h : Hart) (d : XIdx) (v : Word) : (h.setX d v).turnpos = h.turnpos := by unfold Hart.setX; split <;> rfl
@[simp] theorem Hart.setX_turnst (h : Hart) (d : XIdx) (v : Word) : (h.setX d v).turnst = h.turnst := by unfold Hart.setX; split <;> rfl
@[simp] theorem Hart.setX_tvec (h : Hart) (d : XIdx) (v : Word) : (h.setX d v).tvec = h.tvec := by unfold Hart.setX; split <;> rfl
@[simp] theorem Hart.setX_epc (h : Hart) (d : XIdx) (v : Word) : (h.setX d v).epc = h.epc := by unfold Hart.setX; split <;> rfl
@[simp] theorem Hart.setX_ecause (h : Hart) (d : XIdx) (v : Word) : (h.setX d v).ecause = h.ecause := by unfold Hart.setX; split <;> rfl
@[simp] theorem Hart.setX_eval (h : Hart) (d : XIdx) (v : Word) : (h.setX d v).eval = h.eval := by unfold Hart.setX; split <;> rfl
@[simp] theorem Hart.setX_frecbase (h : Hart) (d : XIdx) (v : Word) : (h.setX d v).frecbase = h.frecbase := by unfold Hart.setX; split <;> rfl
@[simp] theorem Hart.setX_tstat (h : Hart) (d : XIdx) (v : Word) : (h.setX d v).tstat = h.tstat := by unfold Hart.setX; split <;> rfl
@[simp] theorem Hart.setX_resume (h : Hart) (d : XIdx) (v : Word) : (h.setX d v).resume = h.resume := by unfold Hart.setX; split <;> rfl
@[simp] theorem Hart.setX_tileix (h : Hart) (d : XIdx) (v : Word) : (h.setX d v).tileix = h.tileix := by unfold Hart.setX; split <;> rfl
@[simp] theorem Hart.setX_steph (h : Hart) (d : XIdx) (v : Word) : (h.setX d v).steph = h.steph := by unfold Hart.setX; split <;> rfl
@[simp] theorem Hart.setX_winid (h : Hart) (d : XIdx) (v : Word) : (h.setX d v).winid = h.winid := by unfold Hart.setX; split <;> rfl
@[simp] theorem Hart.setX_winstart (h : Hart) (d : XIdx) (v : Word) : (h.setX d v).winstart = h.winstart := by unfold Hart.setX; split <;> rfl
@[simp] theorem Hart.setX_winend (h : Hart) (d : XIdx) (v : Word) : (h.setX d v).winend = h.winend := by unfold Hart.setX; split <;> rfl
@[simp] theorem Hart.setX_arrlo (h : Hart) (d : XIdx) (v : Word) : (h.setX d v).arrlo = h.arrlo := by unfold Hart.setX; split <;> rfl
@[simp] theorem Hart.setX_arrhi (h : Hart) (d : XIdx) (v : Word) : (h.setX d v).arrhi = h.arrhi := by unfold Hart.setX; split <;> rfl
@[simp] theorem Hart.setX_revision (h : Hart) (d : XIdx) (v : Word) : (h.setX d v).revision = h.revision := by unfold Hart.setX; split <;> rfl
@[simp] theorem Hart.setX_nest (h : Hart) (d : XIdx) (v : Word) : (h.setX d v).nest = h.nest := by unfold Hart.setX; split <;> rfl
@[simp] theorem Hart.setX_cprun (h : Hart) (d : XIdx) (v : Word) : (h.setX d v).cprun = h.cprun := by unfold Hart.setX; split <;> rfl
@[simp] theorem Hart.setX_cpres (h : Hart) (d : XIdx) (v : Word) : (h.setX d v).cpres = h.cpres := by unfold Hart.setX; split <;> rfl
@[simp] theorem Hart.setX_cpcvt (h : Hart) (d : XIdx) (v : Word) : (h.setX d v).cpcvt = h.cpcvt := by unfold Hart.setX; split <;> rfl
@[simp] theorem Hart.setX_sil (h : Hart) (d : XIdx) (v : Word) : (h.setX d v).sil = h.sil := by unfold Hart.setX; split <;> rfl
@[simp] theorem Hart.setX_notices (h : Hart) (d : XIdx) (v : Word) : (h.setX d v).notices = h.notices := by unfold Hart.setX; split <;> rfl
@[simp] theorem Hart.setX_lost (h : Hart) (d : XIdx) (v : Word) : (h.setX d v).lost = h.lost := by unfold Hart.setX; split <;> rfl
@[simp] theorem Hart.setX_qin (h : Hart) (d : XIdx) (v : Word) : (h.setX d v).qin = h.qin := by unfold Hart.setX; split <;> rfl
@[simp] theorem Hart.setX_mon (h : Hart) (d : XIdx) (v : Word) : (h.setX d v).mon = h.mon := by unfold Hart.setX; split <;> rfl
@[simp] theorem Hart.setX_mid (h : Hart) (d : XIdx) (v : Word) : (h.setX d v).mid = h.mid := by unfold Hart.setX; split <;> rfl
@[simp] theorem Hart.setX_waits (h : Hart) (d : XIdx) (v : Word) : (h.setX d v).waits = h.waits := by unfold Hart.setX; split <;> rfl
@[simp] theorem Hart.setX_phase (h : Hart) (d : XIdx) (v : Word) : (h.setX d v).phase = h.phase := by unfold Hart.setX; split <;> rfl
@[simp] theorem Hart.setX_engineFaults (h : Hart) (d : XIdx) (v : Word) : (h.setX d v).engineFaults = h.engineFaults := by unfold Hart.setX; split <;> rfl
@[simp] theorem Hart.setX_tdone (h : Hart) (d : XIdx) (v : Word) : (h.setX d v).tdone = h.tdone := by unfold Hart.setX; split <;> rfl
@[simp] theorem Hart.setX_began (h : Hart) (d : XIdx) (v : Word) : (h.setX d v).began = h.began := by unfold Hart.setX; split <;> rfl
@[simp] theorem Hart.setV_x (h : Hart) (d : VIdx) (v : VReg) : (h.setV d v).x = h.x := rfl
@[simp] theorem Hart.setV_p (h : Hart) (d : VIdx) (v : VReg) : (h.setV d v).p = h.p := rfl
@[simp] theorem Hart.setV_pc (h : Hart) (d : VIdx) (v : VReg) : (h.setV d v).pc = h.pc := rfl
@[simp] theorem Hart.setV_vstart (h : Hart) (d : VIdx) (v : VReg) : (h.setV d v).vstart = h.vstart := rfl
@[simp] theorem Hart.setV_vl (h : Hart) (d : VIdx) (v : VReg) : (h.setV d v).vl = h.vl := rfl
@[simp] theorem Hart.setV_mfc (h : Hart) (d : VIdx) (v : VReg) : (h.setV d v).mfc = h.mfc := rfl
@[simp] theorem Hart.setV_scalebase (h : Hart) (d : VIdx) (v : VReg) : (h.setV d v).scalebase = h.scalebase := rfl
@[simp] theorem Hart.setV_numst (h : Hart) (d : VIdx) (v : VReg) : (h.setV d v).numst = h.numst := rfl
@[simp] theorem Hart.setV_mvl (h : Hart) (d : VIdx) (v : VReg) : (h.setV d v).mvl = h.mvl := rfl
@[simp] theorem Hart.setV_tiles (h : Hart) (d : VIdx) (v : VReg) : (h.setV d v).tiles = h.tiles := rfl
@[simp] theorem Hart.setV_lc (h : Hart) (d : VIdx) (v : VReg) : (h.setV d v).lc = h.lc := rfl
@[simp] theorem Hart.setV_frames (h : Hart) (d : VIdx) (v : VReg) : (h.setV d v).frames = h.frames := rfl
@[simp] theorem Hart.setV_susp (h : Hart) (d : VIdx) (v : VReg) : (h.setV d v).susp = h.susp := rfl
@[simp] theorem Hart.setV_turnpos (h : Hart) (d : VIdx) (v : VReg) : (h.setV d v).turnpos = h.turnpos := rfl
@[simp] theorem Hart.setV_turnst (h : Hart) (d : VIdx) (v : VReg) : (h.setV d v).turnst = h.turnst := rfl
@[simp] theorem Hart.setV_tvec (h : Hart) (d : VIdx) (v : VReg) : (h.setV d v).tvec = h.tvec := rfl
@[simp] theorem Hart.setV_epc (h : Hart) (d : VIdx) (v : VReg) : (h.setV d v).epc = h.epc := rfl
@[simp] theorem Hart.setV_ecause (h : Hart) (d : VIdx) (v : VReg) : (h.setV d v).ecause = h.ecause := rfl
@[simp] theorem Hart.setV_eval (h : Hart) (d : VIdx) (v : VReg) : (h.setV d v).eval = h.eval := rfl
@[simp] theorem Hart.setV_frecbase (h : Hart) (d : VIdx) (v : VReg) : (h.setV d v).frecbase = h.frecbase := rfl
@[simp] theorem Hart.setV_tstat (h : Hart) (d : VIdx) (v : VReg) : (h.setV d v).tstat = h.tstat := rfl
@[simp] theorem Hart.setV_resume (h : Hart) (d : VIdx) (v : VReg) : (h.setV d v).resume = h.resume := rfl
@[simp] theorem Hart.setV_tileix (h : Hart) (d : VIdx) (v : VReg) : (h.setV d v).tileix = h.tileix := rfl
@[simp] theorem Hart.setV_steph (h : Hart) (d : VIdx) (v : VReg) : (h.setV d v).steph = h.steph := rfl
@[simp] theorem Hart.setV_winid (h : Hart) (d : VIdx) (v : VReg) : (h.setV d v).winid = h.winid := rfl
@[simp] theorem Hart.setV_winstart (h : Hart) (d : VIdx) (v : VReg) : (h.setV d v).winstart = h.winstart := rfl
@[simp] theorem Hart.setV_winend (h : Hart) (d : VIdx) (v : VReg) : (h.setV d v).winend = h.winend := rfl
@[simp] theorem Hart.setV_arrlo (h : Hart) (d : VIdx) (v : VReg) : (h.setV d v).arrlo = h.arrlo := rfl
@[simp] theorem Hart.setV_arrhi (h : Hart) (d : VIdx) (v : VReg) : (h.setV d v).arrhi = h.arrhi := rfl
@[simp] theorem Hart.setV_revision (h : Hart) (d : VIdx) (v : VReg) : (h.setV d v).revision = h.revision := rfl
@[simp] theorem Hart.setV_nest (h : Hart) (d : VIdx) (v : VReg) : (h.setV d v).nest = h.nest := rfl
@[simp] theorem Hart.setV_cprun (h : Hart) (d : VIdx) (v : VReg) : (h.setV d v).cprun = h.cprun := rfl
@[simp] theorem Hart.setV_cpres (h : Hart) (d : VIdx) (v : VReg) : (h.setV d v).cpres = h.cpres := rfl
@[simp] theorem Hart.setV_cpcvt (h : Hart) (d : VIdx) (v : VReg) : (h.setV d v).cpcvt = h.cpcvt := rfl
@[simp] theorem Hart.setV_sil (h : Hart) (d : VIdx) (v : VReg) : (h.setV d v).sil = h.sil := rfl
@[simp] theorem Hart.setV_notices (h : Hart) (d : VIdx) (v : VReg) : (h.setV d v).notices = h.notices := rfl
@[simp] theorem Hart.setV_lost (h : Hart) (d : VIdx) (v : VReg) : (h.setV d v).lost = h.lost := rfl
@[simp] theorem Hart.setV_qin (h : Hart) (d : VIdx) (v : VReg) : (h.setV d v).qin = h.qin := rfl
@[simp] theorem Hart.setV_mon (h : Hart) (d : VIdx) (v : VReg) : (h.setV d v).mon = h.mon := rfl
@[simp] theorem Hart.setV_mid (h : Hart) (d : VIdx) (v : VReg) : (h.setV d v).mid = h.mid := rfl
@[simp] theorem Hart.setV_waits (h : Hart) (d : VIdx) (v : VReg) : (h.setV d v).waits = h.waits := rfl
@[simp] theorem Hart.setV_phase (h : Hart) (d : VIdx) (v : VReg) : (h.setV d v).phase = h.phase := rfl
@[simp] theorem Hart.setV_engineFaults (h : Hart) (d : VIdx) (v : VReg) : (h.setV d v).engineFaults = h.engineFaults := rfl
@[simp] theorem Hart.setV_tdone (h : Hart) (d : VIdx) (v : VReg) : (h.setV d v).tdone = h.tdone := rfl
@[simp] theorem Hart.setV_began (h : Hart) (d : VIdx) (v : VReg) : (h.setV d v).began = h.began := rfl
@[simp] theorem Hart.setP_x (h : Hart) (d : PIdx) (v : PReg) : (h.setP d v).x = h.x := by unfold Hart.setP; split <;> rfl
@[simp] theorem Hart.setP_v (h : Hart) (d : PIdx) (v : PReg) : (h.setP d v).v = h.v := by unfold Hart.setP; split <;> rfl
@[simp] theorem Hart.setP_pc (h : Hart) (d : PIdx) (v : PReg) : (h.setP d v).pc = h.pc := by unfold Hart.setP; split <;> rfl
@[simp] theorem Hart.setP_vstart (h : Hart) (d : PIdx) (v : PReg) : (h.setP d v).vstart = h.vstart := by unfold Hart.setP; split <;> rfl
@[simp] theorem Hart.setP_vl (h : Hart) (d : PIdx) (v : PReg) : (h.setP d v).vl = h.vl := by unfold Hart.setP; split <;> rfl
@[simp] theorem Hart.setP_mfc (h : Hart) (d : PIdx) (v : PReg) : (h.setP d v).mfc = h.mfc := by unfold Hart.setP; split <;> rfl
@[simp] theorem Hart.setP_scalebase (h : Hart) (d : PIdx) (v : PReg) : (h.setP d v).scalebase = h.scalebase := by unfold Hart.setP; split <;> rfl
@[simp] theorem Hart.setP_dirtymap (h : Hart) (d : PIdx) (v : PReg) : (h.setP d v).dirtymap = h.dirtymap := by unfold Hart.setP; split <;> rfl
@[simp] theorem Hart.setP_numst (h : Hart) (d : PIdx) (v : PReg) : (h.setP d v).numst = h.numst := by unfold Hart.setP; split <;> rfl
@[simp] theorem Hart.setP_mvl (h : Hart) (d : PIdx) (v : PReg) : (h.setP d v).mvl = h.mvl := by unfold Hart.setP; split <;> rfl
@[simp] theorem Hart.setP_tiles (h : Hart) (d : PIdx) (v : PReg) : (h.setP d v).tiles = h.tiles := by unfold Hart.setP; split <;> rfl
@[simp] theorem Hart.setP_lc (h : Hart) (d : PIdx) (v : PReg) : (h.setP d v).lc = h.lc := by unfold Hart.setP; split <;> rfl
@[simp] theorem Hart.setP_frames (h : Hart) (d : PIdx) (v : PReg) : (h.setP d v).frames = h.frames := by unfold Hart.setP; split <;> rfl
@[simp] theorem Hart.setP_susp (h : Hart) (d : PIdx) (v : PReg) : (h.setP d v).susp = h.susp := by unfold Hart.setP; split <;> rfl
@[simp] theorem Hart.setP_turnpos (h : Hart) (d : PIdx) (v : PReg) : (h.setP d v).turnpos = h.turnpos := by unfold Hart.setP; split <;> rfl
@[simp] theorem Hart.setP_turnst (h : Hart) (d : PIdx) (v : PReg) : (h.setP d v).turnst = h.turnst := by unfold Hart.setP; split <;> rfl
@[simp] theorem Hart.setP_tvec (h : Hart) (d : PIdx) (v : PReg) : (h.setP d v).tvec = h.tvec := by unfold Hart.setP; split <;> rfl
@[simp] theorem Hart.setP_epc (h : Hart) (d : PIdx) (v : PReg) : (h.setP d v).epc = h.epc := by unfold Hart.setP; split <;> rfl
@[simp] theorem Hart.setP_ecause (h : Hart) (d : PIdx) (v : PReg) : (h.setP d v).ecause = h.ecause := by unfold Hart.setP; split <;> rfl
@[simp] theorem Hart.setP_eval (h : Hart) (d : PIdx) (v : PReg) : (h.setP d v).eval = h.eval := by unfold Hart.setP; split <;> rfl
@[simp] theorem Hart.setP_frecbase (h : Hart) (d : PIdx) (v : PReg) : (h.setP d v).frecbase = h.frecbase := by unfold Hart.setP; split <;> rfl
@[simp] theorem Hart.setP_tstat (h : Hart) (d : PIdx) (v : PReg) : (h.setP d v).tstat = h.tstat := by unfold Hart.setP; split <;> rfl
@[simp] theorem Hart.setP_resume (h : Hart) (d : PIdx) (v : PReg) : (h.setP d v).resume = h.resume := by unfold Hart.setP; split <;> rfl
@[simp] theorem Hart.setP_tileix (h : Hart) (d : PIdx) (v : PReg) : (h.setP d v).tileix = h.tileix := by unfold Hart.setP; split <;> rfl
@[simp] theorem Hart.setP_steph (h : Hart) (d : PIdx) (v : PReg) : (h.setP d v).steph = h.steph := by unfold Hart.setP; split <;> rfl
@[simp] theorem Hart.setP_winid (h : Hart) (d : PIdx) (v : PReg) : (h.setP d v).winid = h.winid := by unfold Hart.setP; split <;> rfl
@[simp] theorem Hart.setP_winstart (h : Hart) (d : PIdx) (v : PReg) : (h.setP d v).winstart = h.winstart := by unfold Hart.setP; split <;> rfl
@[simp] theorem Hart.setP_winend (h : Hart) (d : PIdx) (v : PReg) : (h.setP d v).winend = h.winend := by unfold Hart.setP; split <;> rfl
@[simp] theorem Hart.setP_arrlo (h : Hart) (d : PIdx) (v : PReg) : (h.setP d v).arrlo = h.arrlo := by unfold Hart.setP; split <;> rfl
@[simp] theorem Hart.setP_arrhi (h : Hart) (d : PIdx) (v : PReg) : (h.setP d v).arrhi = h.arrhi := by unfold Hart.setP; split <;> rfl
@[simp] theorem Hart.setP_revision (h : Hart) (d : PIdx) (v : PReg) : (h.setP d v).revision = h.revision := by unfold Hart.setP; split <;> rfl
@[simp] theorem Hart.setP_nest (h : Hart) (d : PIdx) (v : PReg) : (h.setP d v).nest = h.nest := by unfold Hart.setP; split <;> rfl
@[simp] theorem Hart.setP_cprun (h : Hart) (d : PIdx) (v : PReg) : (h.setP d v).cprun = h.cprun := by unfold Hart.setP; split <;> rfl
@[simp] theorem Hart.setP_cpres (h : Hart) (d : PIdx) (v : PReg) : (h.setP d v).cpres = h.cpres := by unfold Hart.setP; split <;> rfl
@[simp] theorem Hart.setP_cpcvt (h : Hart) (d : PIdx) (v : PReg) : (h.setP d v).cpcvt = h.cpcvt := by unfold Hart.setP; split <;> rfl
@[simp] theorem Hart.setP_sil (h : Hart) (d : PIdx) (v : PReg) : (h.setP d v).sil = h.sil := by unfold Hart.setP; split <;> rfl
@[simp] theorem Hart.setP_notices (h : Hart) (d : PIdx) (v : PReg) : (h.setP d v).notices = h.notices := by unfold Hart.setP; split <;> rfl
@[simp] theorem Hart.setP_lost (h : Hart) (d : PIdx) (v : PReg) : (h.setP d v).lost = h.lost := by unfold Hart.setP; split <;> rfl
@[simp] theorem Hart.setP_qin (h : Hart) (d : PIdx) (v : PReg) : (h.setP d v).qin = h.qin := by unfold Hart.setP; split <;> rfl
@[simp] theorem Hart.setP_mon (h : Hart) (d : PIdx) (v : PReg) : (h.setP d v).mon = h.mon := by unfold Hart.setP; split <;> rfl
@[simp] theorem Hart.setP_mid (h : Hart) (d : PIdx) (v : PReg) : (h.setP d v).mid = h.mid := by unfold Hart.setP; split <;> rfl
@[simp] theorem Hart.setP_waits (h : Hart) (d : PIdx) (v : PReg) : (h.setP d v).waits = h.waits := by unfold Hart.setP; split <;> rfl
@[simp] theorem Hart.setP_phase (h : Hart) (d : PIdx) (v : PReg) : (h.setP d v).phase = h.phase := by unfold Hart.setP; split <;> rfl
@[simp] theorem Hart.setP_engineFaults (h : Hart) (d : PIdx) (v : PReg) : (h.setP d v).engineFaults = h.engineFaults := by unfold Hart.setP; split <;> rfl
@[simp] theorem Hart.setP_tdone (h : Hart) (d : PIdx) (v : PReg) : (h.setP d v).tdone = h.tdone := by unfold Hart.setP; split <;> rfl
@[simp] theorem Hart.setP_began (h : Hart) (d : PIdx) (v : PReg) : (h.setP d v).began = h.began := by unfold Hart.setP; split <;> rfl
@[simp] theorem Hart.advance_x (h : Hart) : h.advance.x = h.x := rfl
@[simp] theorem Hart.advance_v (h : Hart) : h.advance.v = h.v := rfl
@[simp] theorem Hart.advance_p (h : Hart) : h.advance.p = h.p := rfl
@[simp] theorem Hart.advance_vstart (h : Hart) : h.advance.vstart = h.vstart := rfl
@[simp] theorem Hart.advance_vl (h : Hart) : h.advance.vl = h.vl := rfl
@[simp] theorem Hart.advance_mfc (h : Hart) : h.advance.mfc = h.mfc := rfl
@[simp] theorem Hart.advance_scalebase (h : Hart) : h.advance.scalebase = h.scalebase := rfl
@[simp] theorem Hart.advance_dirtymap (h : Hart) : h.advance.dirtymap = h.dirtymap := rfl
@[simp] theorem Hart.advance_numst (h : Hart) : h.advance.numst = h.numst := rfl
@[simp] theorem Hart.advance_mvl (h : Hart) : h.advance.mvl = h.mvl := rfl
@[simp] theorem Hart.advance_tiles (h : Hart) : h.advance.tiles = h.tiles := rfl
@[simp] theorem Hart.advance_lc (h : Hart) : h.advance.lc = h.lc := rfl
@[simp] theorem Hart.advance_susp (h : Hart) : h.advance.susp = h.susp := rfl
@[simp] theorem Hart.advance_turnpos (h : Hart) : h.advance.turnpos = h.turnpos := rfl
@[simp] theorem Hart.advance_turnst (h : Hart) : h.advance.turnst = h.turnst := rfl
@[simp] theorem Hart.advance_tvec (h : Hart) : h.advance.tvec = h.tvec := rfl
@[simp] theorem Hart.advance_epc (h : Hart) : h.advance.epc = h.epc := rfl
@[simp] theorem Hart.advance_ecause (h : Hart) : h.advance.ecause = h.ecause := rfl
@[simp] theorem Hart.advance_eval (h : Hart) : h.advance.eval = h.eval := rfl
@[simp] theorem Hart.advance_frecbase (h : Hart) : h.advance.frecbase = h.frecbase := rfl
@[simp] theorem Hart.advance_tstat (h : Hart) : h.advance.tstat = h.tstat := rfl
@[simp] theorem Hart.advance_tileix (h : Hart) : h.advance.tileix = h.tileix := rfl
@[simp] theorem Hart.advance_steph (h : Hart) : h.advance.steph = h.steph := rfl
@[simp] theorem Hart.advance_winid (h : Hart) : h.advance.winid = h.winid := rfl
@[simp] theorem Hart.advance_winstart (h : Hart) : h.advance.winstart = h.winstart := rfl
@[simp] theorem Hart.advance_winend (h : Hart) : h.advance.winend = h.winend := rfl
@[simp] theorem Hart.advance_arrlo (h : Hart) : h.advance.arrlo = h.arrlo := rfl
@[simp] theorem Hart.advance_arrhi (h : Hart) : h.advance.arrhi = h.arrhi := rfl
@[simp] theorem Hart.advance_revision (h : Hart) : h.advance.revision = h.revision := rfl
@[simp] theorem Hart.advance_nest (h : Hart) : h.advance.nest = h.nest := rfl
@[simp] theorem Hart.advance_cprun (h : Hart) : h.advance.cprun = h.cprun := rfl
@[simp] theorem Hart.advance_cpres (h : Hart) : h.advance.cpres = h.cpres := rfl
@[simp] theorem Hart.advance_cpcvt (h : Hart) : h.advance.cpcvt = h.cpcvt := rfl
@[simp] theorem Hart.advance_sil (h : Hart) : h.advance.sil = h.sil := rfl
@[simp] theorem Hart.advance_notices (h : Hart) : h.advance.notices = h.notices := rfl
@[simp] theorem Hart.advance_lost (h : Hart) : h.advance.lost = h.lost := rfl
@[simp] theorem Hart.advance_qin (h : Hart) : h.advance.qin = h.qin := rfl
@[simp] theorem Hart.advance_mon (h : Hart) : h.advance.mon = h.mon := rfl
@[simp] theorem Hart.advance_engineFaults (h : Hart) : h.advance.engineFaults = h.engineFaults := rfl
@[simp] theorem Hart.advance_tdone (h : Hart) : h.advance.tdone = h.tdone := rfl
@[simp] theorem Hart.advance_began (h : Hart) : h.advance.began = h.began := rfl

@[simp] theorem setI1_hart (s : State) (c : Nat) (t : Tbl Copy) : (setI1 s c t).hart = s.hart := rfl
@[simp] theorem setI1_rest (s : State) (c : Nat) (t : Tbl Copy) : (setI1 s c t).rest = s.rest := rfl
@[simp] theorem setI1_slots (s : State) (c : Nat) (t : Tbl Copy) : (setI1 s c t).slots = s.slots := rfl
@[simp] theorem setI1_clusters (s : State) (c : Nat) (t : Tbl Copy) : (setI1 s c t).clusters = s.clusters := rfl
@[simp] theorem setI1_counts (s : State) (c : Nat) (t : Tbl Copy) : (setI1 s c t).counts = s.counts := rfl
@[simp] theorem setI1_mem (s : State) (c : Nat) (t : Tbl Copy) : (setI1 s c t).mem = s.mem := rfl
@[simp] theorem setI1_memMeta (s : State) (c : Nat) (t : Tbl Copy) : (setI1 s c t).memMeta = s.memMeta := rfl
@[simp] theorem setI1_i3 (s : State) (c : Nat) (t : Tbl Copy) : (setI1 s c t).i3 = s.i3 := rfl
@[simp] theorem setI1_o3 (s : State) (c : Nat) (t : Tbl Copy) : (setI1 s c t).o3 = s.o3 := rfl
@[simp] theorem setI1_hbmSeq (s : State) (c : Nat) (t : Tbl Copy) : (setI1 s c t).hbmSeq = s.hbmSeq := rfl
@[simp] theorem setI1_stripes (s : State) (c : Nat) (t : Tbl Copy) : (setI1 s c t).stripes = s.stripes := rfl
@[simp] theorem setI1_system (s : State) (c : Nat) (t : Tbl Copy) : (setI1 s c t).system = s.system := rfl
@[simp] theorem setI1_mesh (s : State) (c : Nat) (t : Tbl Copy) : (setI1 s c t).mesh = s.mesh := rfl
@[simp] theorem setI1_attach (s : State) (c : Nat) (t : Tbl Copy) : (setI1 s c t).attach = s.attach := rfl
@[simp] theorem setI1_lost (s : State) (c : Nat) (t : Tbl Copy) : (setI1 s c t).lost = s.lost := rfl
@[simp] theorem setI1_crngb (s : State) (c : Nat) (t : Tbl Copy) : (setI1 s c t).crngb = s.crngb := rfl
@[simp] theorem setI1_crngc (s : State) (c : Nat) (t : Tbl Copy) : (setI1 s c t).crngc = s.crngc := rfl
@[simp] theorem setI1_memzone (s : State) (c : Nat) (t : Tbl Copy) : (setI1 s c t).memzone = s.memzone := rfl
@[simp] theorem setI1_dtime (s : State) (c : Nat) (t : Tbl Copy) : (setI1 s c t).dtime = s.dtime := rfl
@[simp] theorem setI1_portrtt (s : State) (c : Nat) (t : Tbl Copy) : (setI1 s c t).portrtt = s.portrtt := rfl
@[simp] theorem setI1_disp (s : State) (c : Nat) (t : Tbl Copy) : (setI1 s c t).disp = s.disp := rfl
@[simp] theorem setI1_mer (s : State) (c : Nat) (t : Tbl Copy) : (setI1 s c t).mer = s.mer := rfl
@[simp] theorem setI1_svc (s : State) (c : Nat) (t : Tbl Copy) : (setI1 s c t).svc = s.svc := rfl
@[simp] theorem setI1_ports (s : State) (c : Nat) (t : Tbl Copy) : (setI1 s c t).ports = s.ports := rfl
@[simp] theorem setI1_cur (s : State) (c : Nat) (t : Tbl Copy) : (setI1 s c t).cur = s.cur := rfl
@[simp] theorem setI1_tick (s : State) (c : Nat) (t : Tbl Copy) : (setI1 s c t).tick = s.tick := rfl
@[simp] theorem setI1_agenda (s : State) (c : Nat) (t : Tbl Copy) : (setI1 s c t).agenda = s.agenda := rfl
@[simp] theorem setI1_ir (s : State) (c : Nat) (t : Tbl Copy) : (setI1 s c t).ir = s.ir := rfl
@[simp] theorem setI1_units (s : State) (c : Nat) (t : Tbl Copy) : (setI1 s c t).units = s.units := rfl

@[simp] theorem setI2_hart (s : State) (n : Nat) (t : Tbl Copy) : (setI2 s n t).hart = s.hart := rfl
@[simp] theorem setI2_rest (s : State) (n : Nat) (t : Tbl Copy) : (setI2 s n t).rest = s.rest := rfl
@[simp] theorem setI2_slots (s : State) (n : Nat) (t : Tbl Copy) : (setI2 s n t).slots = s.slots := rfl
@[simp] theorem setI2_cores (s : State) (n : Nat) (t : Tbl Copy) : (setI2 s n t).cores = s.cores := rfl
@[simp] theorem setI2_counts (s : State) (n : Nat) (t : Tbl Copy) : (setI2 s n t).counts = s.counts := rfl
@[simp] theorem setI2_mem (s : State) (n : Nat) (t : Tbl Copy) : (setI2 s n t).mem = s.mem := rfl
@[simp] theorem setI2_memMeta (s : State) (n : Nat) (t : Tbl Copy) : (setI2 s n t).memMeta = s.memMeta := rfl
@[simp] theorem setI2_i3 (s : State) (n : Nat) (t : Tbl Copy) : (setI2 s n t).i3 = s.i3 := rfl
@[simp] theorem setI2_o3 (s : State) (n : Nat) (t : Tbl Copy) : (setI2 s n t).o3 = s.o3 := rfl
@[simp] theorem setI2_hbmSeq (s : State) (n : Nat) (t : Tbl Copy) : (setI2 s n t).hbmSeq = s.hbmSeq := rfl
@[simp] theorem setI2_stripes (s : State) (n : Nat) (t : Tbl Copy) : (setI2 s n t).stripes = s.stripes := rfl
@[simp] theorem setI2_system (s : State) (n : Nat) (t : Tbl Copy) : (setI2 s n t).system = s.system := rfl
@[simp] theorem setI2_mesh (s : State) (n : Nat) (t : Tbl Copy) : (setI2 s n t).mesh = s.mesh := rfl
@[simp] theorem setI2_attach (s : State) (n : Nat) (t : Tbl Copy) : (setI2 s n t).attach = s.attach := rfl
@[simp] theorem setI2_lost (s : State) (n : Nat) (t : Tbl Copy) : (setI2 s n t).lost = s.lost := rfl
@[simp] theorem setI2_crngb (s : State) (n : Nat) (t : Tbl Copy) : (setI2 s n t).crngb = s.crngb := rfl
@[simp] theorem setI2_crngc (s : State) (n : Nat) (t : Tbl Copy) : (setI2 s n t).crngc = s.crngc := rfl
@[simp] theorem setI2_memzone (s : State) (n : Nat) (t : Tbl Copy) : (setI2 s n t).memzone = s.memzone := rfl
@[simp] theorem setI2_dtime (s : State) (n : Nat) (t : Tbl Copy) : (setI2 s n t).dtime = s.dtime := rfl
@[simp] theorem setI2_portrtt (s : State) (n : Nat) (t : Tbl Copy) : (setI2 s n t).portrtt = s.portrtt := rfl
@[simp] theorem setI2_disp (s : State) (n : Nat) (t : Tbl Copy) : (setI2 s n t).disp = s.disp := rfl
@[simp] theorem setI2_mer (s : State) (n : Nat) (t : Tbl Copy) : (setI2 s n t).mer = s.mer := rfl
@[simp] theorem setI2_svc (s : State) (n : Nat) (t : Tbl Copy) : (setI2 s n t).svc = s.svc := rfl
@[simp] theorem setI2_ports (s : State) (n : Nat) (t : Tbl Copy) : (setI2 s n t).ports = s.ports := rfl
@[simp] theorem setI2_cur (s : State) (n : Nat) (t : Tbl Copy) : (setI2 s n t).cur = s.cur := rfl
@[simp] theorem setI2_tick (s : State) (n : Nat) (t : Tbl Copy) : (setI2 s n t).tick = s.tick := rfl
@[simp] theorem setI2_agenda (s : State) (n : Nat) (t : Tbl Copy) : (setI2 s n t).agenda = s.agenda := rfl
@[simp] theorem setI2_ir (s : State) (n : Nat) (t : Tbl Copy) : (setI2 s n t).ir = s.ir := rfl
@[simp] theorem setI2_units (s : State) (n : Nat) (t : Tbl Copy) : (setI2 s n t).units = s.units := rfl

@[simp] theorem inject_hart (s : State) (r : Nat) (f : Flit) : (inject s r f).hart = s.hart := rfl
@[simp] theorem inject_rest (s : State) (r : Nat) (f : Flit) : (inject s r f).rest = s.rest := rfl
@[simp] theorem inject_slots (s : State) (r : Nat) (f : Flit) : (inject s r f).slots = s.slots := rfl
@[simp] theorem inject_cores (s : State) (r : Nat) (f : Flit) : (inject s r f).cores = s.cores := rfl
@[simp] theorem inject_clusters (s : State) (r : Nat) (f : Flit) : (inject s r f).clusters = s.clusters := rfl
@[simp] theorem inject_counts (s : State) (r : Nat) (f : Flit) : (inject s r f).counts = s.counts := rfl
@[simp] theorem inject_mem (s : State) (r : Nat) (f : Flit) : (inject s r f).mem = s.mem := rfl
@[simp] theorem inject_memMeta (s : State) (r : Nat) (f : Flit) : (inject s r f).memMeta = s.memMeta := rfl
@[simp] theorem inject_i3 (s : State) (r : Nat) (f : Flit) : (inject s r f).i3 = s.i3 := rfl
@[simp] theorem inject_o3 (s : State) (r : Nat) (f : Flit) : (inject s r f).o3 = s.o3 := rfl
@[simp] theorem inject_hbmSeq (s : State) (r : Nat) (f : Flit) : (inject s r f).hbmSeq = s.hbmSeq := rfl
@[simp] theorem inject_stripes (s : State) (r : Nat) (f : Flit) : (inject s r f).stripes = s.stripes := rfl
@[simp] theorem inject_system (s : State) (r : Nat) (f : Flit) : (inject s r f).system = s.system := rfl
@[simp] theorem inject_attach (s : State) (r : Nat) (f : Flit) : (inject s r f).attach = s.attach := rfl
@[simp] theorem inject_lost (s : State) (r : Nat) (f : Flit) : (inject s r f).lost = s.lost := rfl
@[simp] theorem inject_crngb (s : State) (r : Nat) (f : Flit) : (inject s r f).crngb = s.crngb := rfl
@[simp] theorem inject_crngc (s : State) (r : Nat) (f : Flit) : (inject s r f).crngc = s.crngc := rfl
@[simp] theorem inject_memzone (s : State) (r : Nat) (f : Flit) : (inject s r f).memzone = s.memzone := rfl
@[simp] theorem inject_dtime (s : State) (r : Nat) (f : Flit) : (inject s r f).dtime = s.dtime := rfl
@[simp] theorem inject_portrtt (s : State) (r : Nat) (f : Flit) : (inject s r f).portrtt = s.portrtt := rfl
@[simp] theorem inject_disp (s : State) (r : Nat) (f : Flit) : (inject s r f).disp = s.disp := rfl
@[simp] theorem inject_mer (s : State) (r : Nat) (f : Flit) : (inject s r f).mer = s.mer := rfl
@[simp] theorem inject_svc (s : State) (r : Nat) (f : Flit) : (inject s r f).svc = s.svc := rfl
@[simp] theorem inject_ports (s : State) (r : Nat) (f : Flit) : (inject s r f).ports = s.ports := rfl
@[simp] theorem inject_cur (s : State) (r : Nat) (f : Flit) : (inject s r f).cur = s.cur := rfl
@[simp] theorem inject_tick (s : State) (r : Nat) (f : Flit) : (inject s r f).tick = s.tick := rfl
@[simp] theorem inject_agenda (s : State) (r : Nat) (f : Flit) : (inject s r f).agenda = s.agenda := rfl
@[simp] theorem inject_ir (s : State) (r : Nat) (f : Flit) : (inject s r f).ir = s.ir := rfl
@[simp] theorem inject_units (s : State) (r : Nat) (f : Flit) : (inject s r f).units = s.units := rfl

@[simp] theorem Hart.skip_x (h : Hart) : (Hart.skip h).x = h.x := rfl
@[simp] theorem Hart.skip_v (h : Hart) : (Hart.skip h).v = h.v := rfl
@[simp] theorem Hart.skip_p (h : Hart) : (Hart.skip h).p = h.p := rfl
@[simp] theorem Hart.skip_vstart (h : Hart) : (Hart.skip h).vstart = h.vstart := rfl
@[simp] theorem Hart.skip_vl (h : Hart) : (Hart.skip h).vl = h.vl := rfl
@[simp] theorem Hart.skip_mfc (h : Hart) : (Hart.skip h).mfc = h.mfc := rfl
@[simp] theorem Hart.skip_scalebase (h : Hart) : (Hart.skip h).scalebase = h.scalebase := rfl
@[simp] theorem Hart.skip_dirtymap (h : Hart) : (Hart.skip h).dirtymap = h.dirtymap := rfl
@[simp] theorem Hart.skip_numst (h : Hart) : (Hart.skip h).numst = h.numst := rfl
@[simp] theorem Hart.skip_mvl (h : Hart) : (Hart.skip h).mvl = h.mvl := rfl
@[simp] theorem Hart.skip_tiles (h : Hart) : (Hart.skip h).tiles = h.tiles := rfl
@[simp] theorem Hart.skip_lc (h : Hart) : (Hart.skip h).lc = h.lc := rfl
@[simp] theorem Hart.skip_susp (h : Hart) : (Hart.skip h).susp = h.susp := rfl
@[simp] theorem Hart.skip_turnpos (h : Hart) : (Hart.skip h).turnpos = h.turnpos := rfl
@[simp] theorem Hart.skip_turnst (h : Hart) : (Hart.skip h).turnst = h.turnst := rfl
@[simp] theorem Hart.skip_tvec (h : Hart) : (Hart.skip h).tvec = h.tvec := rfl
@[simp] theorem Hart.skip_epc (h : Hart) : (Hart.skip h).epc = h.epc := rfl
@[simp] theorem Hart.skip_ecause (h : Hart) : (Hart.skip h).ecause = h.ecause := rfl
@[simp] theorem Hart.skip_eval (h : Hart) : (Hart.skip h).eval = h.eval := rfl
@[simp] theorem Hart.skip_frecbase (h : Hart) : (Hart.skip h).frecbase = h.frecbase := rfl
@[simp] theorem Hart.skip_tstat (h : Hart) : (Hart.skip h).tstat = h.tstat := rfl
@[simp] theorem Hart.skip_resume (h : Hart) : (Hart.skip h).resume = h.resume := rfl
@[simp] theorem Hart.skip_tileix (h : Hart) : (Hart.skip h).tileix = h.tileix := rfl
@[simp] theorem Hart.skip_steph (h : Hart) : (Hart.skip h).steph = h.steph := rfl
@[simp] theorem Hart.skip_winid (h : Hart) : (Hart.skip h).winid = h.winid := rfl
@[simp] theorem Hart.skip_winstart (h : Hart) : (Hart.skip h).winstart = h.winstart := rfl
@[simp] theorem Hart.skip_winend (h : Hart) : (Hart.skip h).winend = h.winend := rfl
@[simp] theorem Hart.skip_arrlo (h : Hart) : (Hart.skip h).arrlo = h.arrlo := rfl
@[simp] theorem Hart.skip_arrhi (h : Hart) : (Hart.skip h).arrhi = h.arrhi := rfl
@[simp] theorem Hart.skip_revision (h : Hart) : (Hart.skip h).revision = h.revision := rfl
@[simp] theorem Hart.skip_nest (h : Hart) : (Hart.skip h).nest = h.nest := rfl
@[simp] theorem Hart.skip_cprun (h : Hart) : (Hart.skip h).cprun = h.cprun := rfl
@[simp] theorem Hart.skip_cpres (h : Hart) : (Hart.skip h).cpres = h.cpres := rfl
@[simp] theorem Hart.skip_cpcvt (h : Hart) : (Hart.skip h).cpcvt = h.cpcvt := rfl
@[simp] theorem Hart.skip_sil (h : Hart) : (Hart.skip h).sil = h.sil := rfl
@[simp] theorem Hart.skip_notices (h : Hart) : (Hart.skip h).notices = h.notices := rfl
@[simp] theorem Hart.skip_lost (h : Hart) : (Hart.skip h).lost = h.lost := rfl
@[simp] theorem Hart.skip_qin (h : Hart) : (Hart.skip h).qin = h.qin := rfl
@[simp] theorem Hart.skip_mon (h : Hart) : (Hart.skip h).mon = h.mon := rfl
@[simp] theorem Hart.skip_mid (h : Hart) : (Hart.skip h).mid = h.mid := rfl
@[simp] theorem Hart.skip_waits (h : Hart) : (Hart.skip h).waits = h.waits := rfl
@[simp] theorem Hart.skip_phase (h : Hart) : (Hart.skip h).phase = h.phase := rfl
@[simp] theorem Hart.skip_engineFaults (h : Hart) : (Hart.skip h).engineFaults = h.engineFaults := rfl
@[simp] theorem Hart.skip_tdone (h : Hart) : (Hart.skip h).tdone = h.tdone := rfl
@[simp] theorem Hart.skip_began (h : Hart) : (Hart.skip h).began = h.began := rfl

end Sys2Proof.Machine
end

