-- ==== Sys2Proof/Laws/Shared.lean ====
section
/-! SUPPORT. What the shared operations can do: the bind of computations, what running one answers, and the fields that fills,
reads, translations, drains and releases may change. -/

namespace Sys2Proof.Machine

/-! ## Computations -/

/-- A sequence runs its first part, and its second from where that leaves off. -/
theorem bind_run {α β : Type} (m : M α) (f : α → M β) (s : State) : (m >>= f) s =
    match m s with
    | (.ok a, u) => f a u
    | (.error e, u) => (.error e, u) := by
  cases h : m s with
  | mk r u => cases r <;> simp [bind, ExceptT.bind, ExceptT.mk, ExceptT.bindCont, StateT.bind, pure, StateT.pure, h]

/-- A sequence that completes completes both parts. -/
theorem bind_ok {α β : Type} {m : M α} {f : α → M β} {s t : State} {b : β} (h : (m >>= f) s = (.ok b, t)) :
    ∃ a u, m s = (.ok a, u) ∧ f a u = (.ok b, t) := by
  rw [bind_run] at h
  split at h
  · exact ⟨_, _, ‹_›, h⟩
  · cases h

/-- A sequence that stops stops in one of its parts. -/
theorem bind_error {α β : Type} {m : M α} {f : α → M β} {s t : State} {e : Stop} (h : (m >>= f) s = (.error e, t)) :
    m s = (.error e, t) ∨ ∃ a u, m s = (.ok a, u) ∧ f a u = (.error e, t) := by
  rw [bind_run] at h
  split at h
  · exact .inr ⟨_, _, ‹_›, h⟩
  · cases h; exact .inl ‹_›

@[simp] theorem modS_run (f : State → State) (s : State) : modS f s = (.ok (), f s) := rfl
@[simp] theorem getS_run (s : State) : getS s = (.ok s, s) := rfl
@[simp] theorem stopM_run {α : Type} (st : Stop) (s : State) : (stopM st : M α) s = (.error st, s) := rfl
theorem guardM_run (ok : Bool) (st : Stop) (s : State) : guardM ok st s = if ok then (.ok (), s) else (.error st, s) := rfl
@[simp] theorem done_run (s : State) : done s = (.ok (), advance s) := rfl
@[simp] theorem finishX_run (d : XIdx) (v : Word) (s : State) : finishX d v s = (.ok (), advance (setX s d v)) := rfl

/-- A computation always answers a next state: where it completes or waits the state it leaves, where it traps the state
after the trap is taken. -/
theorem runM_next (m : M Unit) (s : State) : ∃ t, runM m s = .next t ∧
    ((∃ u, m s = (.ok u, t)) ∨ m s = (.error .hold, t) ∨ ∃ x u, m s = (.error (.trap x), u) ∧ t = takeTrap u x) := by
  unfold runM
  split
  · exact ⟨_, rfl, .inl ⟨_, ‹_›⟩⟩
  · exact ⟨_, rfl, .inr (.inl ‹_›)⟩
  · exact ⟨_, rfl, .inr (.inr ⟨_, _, ‹_›, rfl⟩)⟩

/-! ## Fills and reads change inbound copies alone -/

theorem foldl_frame {β : Type} {P : State → Prop} (f : State → β → State) (h : ∀ s b, P s → P (f s b)) :
    ∀ (l : List β) (s : State), P s → P (l.foldl f s)
  | [], _, hs => hs
  | b :: l, s, hs => foldl_frame f h l (f s b) (h s b hs)

theorem forUp_frame {P : State → Prop} (f : Nat → State → State) (h : ∀ i s, P s → P (f i s)) :
    ∀ (n lo : Nat) (s : State), P s → P (forUp n lo f s)
  | 0, _, _, hs => hs
  | n + 1, lo, s, hs => forUp_frame f h n (lo + 1) (f lo s) (h lo s hs)

/-- Only inbound copies and the model's counter differ. -/
def Inbound (s t : State) : Prop := t = { s with i3 := t.i3, cores := t.cores, clusters := t.clusters, tick := t.tick }

theorem Inbound.rfl (s : State) : Inbound s s := Eq.refl s

theorem Inbound.trans {s t u : State} (h : Inbound s t) (k : Inbound t u) : Inbound s u := by
  unfold Inbound at *
  rw [k, h]

theorem fillI3_inbound (s : State) (g : Nat) : Inbound s (fillI3 s g) := by
  unfold fillI3 Inbound; split <;> rfl

theorem setI1_inbound (s : State) (c : Nat) (t : Tbl Copy) : Inbound s (setI1 s c t) := by unfold Inbound; rfl
theorem setI2_inbound (s : State) (n : Nat) (t : Tbl Copy) : Inbound s (setI2 s n t) := by unfold Inbound; rfl
theorem setCluster_inbound (s : State) (n : Nat) (k : ClusterSt) : Inbound s (setCluster s n k) := by unfold Inbound; rfl
theorem nextTick_inbound {s t : State} (h : Inbound s t) : Inbound s (nextTick t) := h.trans (by unfold Inbound; rfl)

theorem foldl_inbound {β : Type} (f : State → β → State) (h : ∀ s b, Inbound s (f s b)) (l : List β) (s : State) :
    Inbound s (l.foldl f s) := foldl_frame (P := Inbound s) f (fun t b ht => ht.trans (h t b)) l s (.rfl s)

theorem fillI2_inbound (s : State) (n g : Nat) : Inbound s (fillI2 s n g) := by
  unfold fillI2
  split
  · exact .rfl s
  · exact (fillI3_inbound s g).trans (nextTick_inbound (setI2_inbound ..))

theorem fillI1_inbound (s : State) (c g : Nat) : Inbound s (fillI1 s c g) := by
  unfold fillI1
  split
  · exact .rfl s
  · dsimp only
    split
    · exact (fillI2_inbound s _ g).trans (nextTick_inbound (setI1_inbound ..))
    · exact fillI2_inbound s _ g

theorem dropFailed_inbound (s : State) (core cluster : Option Nat) (src g : Nat) : Inbound s (dropFailed s core cluster src g) := by
  unfold dropFailed Inbound
  rcases core with _ | c <;> rcases cluster with _ | n <;> dsimp only <;> split <;> (try split) <;> rfl

theorem consumeM_inbound (r : Reader) (core cluster : Option Nat) (va : Word) (g : Nat) (f : Found) (s : State) :
    Inbound s (consumeM r core cluster va g f s).2 := by
  unfold consumeM
  split
  · exact .rfl s
  · dsimp only
    split
    · exact dropFailed_inbound ..
    · exact .rfl s

theorem readRemote_inbound (r : Reader) (cluster : Option Nat) (va : Word) (g : Nat) (s : State) :
    Inbound s (readRemote r cluster va g s).2 := by
  unfold readRemote Inbound
  split
  · split <;> rfl
  · rfl

theorem consumeOwn_inbound (va : Word) (e : OutEntry) (s : State) : Inbound s (consumeOwn va e s).2 := by
  unfold consumeOwn Inbound; split <;> rfl

/-- An access that finds a way runs; one that finds none waits, and the failure is reported (R392). -/
theorem wayM_spec {α : Type} (n g src : Nat) (direct : Bool) (m : M α) (s : State) :
    (noWay s n g src direct = none ∧ wayM n g src direct m s = m s) ∨
    ∃ l, noWay s n g src direct = some l ∧ wayM n g src direct m s = (.error .hold, waiting (reportRoute s l.1 l.2)) := by
  unfold wayM
  split
  · exact .inr ⟨_, ‹_›, rfl⟩
  · exact .inl ⟨‹_›, rfl⟩

/-- A read of a granule changes no register, no outbound entry and no byte at a home junction; where it finds no way it waits. -/
theorem readGranule_inbound (va : Word) (g : Nat) (self : Bool) (s : State) :
    Inbound s (readGranule va g self s).2 ∨
    ∃ l : Nat × Nat, readGranule va g self s = (.error .hold, waiting (reportRoute s l.1 l.2)) := by
  unfold readGranule
  dsimp only
  split
  · exact .inl (consumeOwn_inbound ..)
  · rcases wayM_spec (curCluster s) g (peekI1 s (curCore s) g).src false (fun s' =>
        if windowOf g != 0 then readRemote (.core (curCore s)) (some (curCluster s)) va g s'
        else consumeM (.core (curCore s)) (some (curCore s)) (some (curCluster s)) va g (peekI1 s (curCore s) g)
          (fillI1 s' (curCore s) g)) s with ⟨_, e⟩ | ⟨l, _, e⟩
    · refine .inl ?_
      rw [e]
      split
      · exact readRemote_inbound ..
      · exact (fillI1_inbound s _ g).trans (consumeM_inbound ..)
    · exact .inr ⟨l, e⟩

/-- Setting an I1 leaves the outbound entries alone. -/
theorem setI1_o1 (s : State) (c m : Nat) (t : Tbl Copy) : (coreAt (setI1 s c t) m).o1 = (coreAt s m).o1 := by
  unfold setI1 setCore
  by_cases e : m = c
  · subst e; simp only [coreAt, tgetD, tget_tput, if_true, Option.getD_some]
  · simp only [coreAt, tgetD, tget_tput, e, if_false]

/-- The fills leave the outbound entries alone. -/
theorem fillI1_o1 (s : State) (c g m : Nat) : (coreAt (fillI1 s c g) m).o1 = (coreAt s m).o1 := by
  have h : ∀ n, (fillI2 s n g).cores = s.cores := by
    intro n
    unfold fillI2 fillI3
    split
    · rfl
    · dsimp only; split <;> rfl
  have k : (coreAt (fillI2 s (clusterOfCore c) g) m).o1 = (coreAt s m).o1 := by simp only [coreAt, h]
  unfold fillI1
  split
  · rfl
  · dsimp only
    split
    · exact (setI1_o1 ..).trans k
    · exact k

/-! ## Translation -/

/-- What a translation answers, and what it may change: the TLBs, and the pages asked of the host. -/
theorem translateFor_spec (x : Tlbs) (l : Nat) (va : Word) (a : Acc) (s : State) :
    (translateFor x l va a s).2 = { s with
      cores := (translateFor x l va a s).2.cores, clusters := (translateFor x l va a s).2.clusters
      disp := { s.disp with reports := (translateFor x l va a s).2.disp.reports }
      ports := (translateFor x l va a s).2.ports } ∧
    (∀ pa self, (translateFor x l va a s).1 = .ok (pa, self) ↔ xlate s x l va a = .ok pa self) := by
  unfold translateFor
  split
  · rename_i pa self h
    refine ⟨?_, fun p q => ⟨fun e => by cases e; exact h, fun e => by rw [h] at e; cases e; rfl⟩⟩
    unfold xlateFill
    split
    · rfl
    · split
      · unfold tlbFill
        dsimp only
        split
        · rfl
        · split <;> rfl
      · rfl
  · rename_i h
    exact ⟨rfl, fun p q => ⟨fun e => (nomatch e), fun e => by rw [h] at e; cases e⟩⟩
  · rename_i h
    exact ⟨rfl, fun p q => ⟨fun e => (nomatch e), fun e => by rw [h] at e; cases e⟩⟩
  · rename_i h
    split
    · exact ⟨rfl, fun p q => ⟨fun e => (nomatch e), fun e => by rw [h] at e; cases e⟩⟩
    · refine ⟨?_, fun p q => ⟨fun e => (nomatch e), fun e => by rw [h] at e; cases e⟩⟩
      unfold requestPage requestPageAt
      dsimp only
      split <;> rfl
  · rename_i h
    refine ⟨?_, fun p q => ⟨fun e => (nomatch e), fun e => by rw [h] at e; cases e⟩⟩
    unfold reportLeg reportRoute
    split
    · split <;> rfl
    · rfl

/-- A computation of an instruction that has issued answers as it does alone; where it waits, the hart has the mark of that. -/
theorem waitingM_spec {α : Type} (m : M α) (s : State) :
    (waitingM m s).1 = (m s).1 ∧ ((waitingM m s).2 = (m s).2 ∨ (waitingM m s).2 = waiting (m s).2) := by
  unfold waitingM
  split
  · rename_i h; rw [h]; exact ⟨rfl, .inr rfl⟩
  · exact ⟨rfl, .inl rfl⟩

theorem translateM_spec (va : Word) (a : Acc) (s : State) :
    (translateM va a s).2 = { s with
      hart := { s.hart with waits := (translateM va a s).2.hart.waits }
      cores := (translateM va a s).2.cores, clusters := (translateM va a s).2.clusters
      disp := { s.disp with reports := (translateM va a s).2.disp.reports }, ports := (translateM va a s).2.ports } ∧
    (∀ pa self, (translateM va a s).1 = .ok (pa, self) ↔ xlate s (hereTlb s) (curLaunch s) va a = .ok pa self) := by
  have h := translateFor_spec (hereTlb s) (curLaunch s) va a s
  unfold translateM
  rcases waitingM_spec (fun s => translateFor (hereTlb s) (curLaunch s) va a s) s with ⟨e, w | w⟩ <;>
    refine ⟨?_, by rw [e]; exact h.2⟩ <;> rw [w] <;> simp only [waiting] <;> rw [h.1]

theorem ovfTest_state (va : Word) (g : Nat) (s : State) : (ovfTest va g s).2 = s := by unfold ovfTest; split <;> rfl
theorem noRangeM_state (va : Word) (pa n : Nat) (s : State) : (noRangeM va pa n s).2 = s := by unfold noRangeM; split <;> rfl
theorem guardM_state (ok : Bool) (st : Stop) (s : State) : (guardM ok st s).2 = s := by unfold guardM; split <;> rfl

/-! ## HBM's bytes keep their canonical form -/

/-- HBM's bytes and the flits in the mesh are what they were. -/
def SameMem (s t : State) : Prop := (t.mem, t.mesh) = (s.mem, s.mesh)

/-- If HBM's bytes were in canonical form, they are; and the flits in the mesh are what they were. -/
structure Keeps (s t : State) : Prop where
  inv : s.Inv → t.Inv
  mesh : t.mesh = s.mesh

theorem SameMem.rfl (s : State) : SameMem s s := Eq.refl (s.mem, s.mesh)
theorem SameMem.trans {s t u : State} (h : SameMem s t) (k : SameMem t u) : SameMem s u := Eq.trans k h
theorem SameMem.mem {s t : State} (h : SameMem s t) : t.mem = s.mem := congrArg Prod.fst h
theorem SameMem.mesh {s t : State} (h : SameMem s t) : t.mesh = s.mesh := congrArg Prod.snd h
theorem SameMem.keeps {s t : State} (h : SameMem s t) : Keeps s t := ⟨fun hs => by unfold State.Inv; rw [h.mem]; exact hs, h.mesh⟩
theorem Keeps.rfl (s : State) : Keeps s s := ⟨id, Eq.refl _⟩
theorem Keeps.trans {s t u : State} (h : Keeps s t) (k : Keeps t u) : Keeps s u :=
  ⟨fun hs => k.inv (h.inv hs), k.mesh.trans h.mesh⟩

theorem Inbound.sameMem {s t : State} (h : Inbound s t) : SameMem s t := by unfold SameMem; rw [h]
theorem Inbound.keeps {s t : State} (h : Inbound s t) : Keeps s t := h.sameMem.keeps

theorem foldl_sameMem {β : Type} (f : State → β → State) (h : ∀ s b, SameMem s (f s b)) (l : List β) (s : State) :
    SameMem s (l.foldl f s) := foldl_frame (P := SameMem s) f (fun t b ht => ht.trans (h t b)) l s (.rfl s)

theorem foldl_keeps {β : Type} (f : State → β → State) (h : ∀ s b, Keeps s (f s b)) (l : List β) (s : State) :
    Keeps s (l.foldl f s) := foldl_frame (P := Keeps s) f (fun t b ht => ht.trans (h t b)) l s (.rfl s)

theorem forUp_sameMem (f : Nat → State → State) (h : ∀ i s, SameMem s (f i s)) (n lo : Nat) (s : State) : SameMem s (forUp n lo f s) :=
  forUp_frame (P := SameMem s) f (fun i t ht => ht.trans (h i t)) n lo s (.rfl s)

/-! ### Reports, notices, leases and scores -/

theorem reportRoute_sameMem (s : State) (a b : Nat) : SameMem s (reportRoute s a b) := by
  unfold reportRoute SameMem; split <;> rfl
theorem reportLeg_sameMem (s : State) (l : Option (Nat × Nat)) : SameMem s (reportLeg s l) := by
  unfold reportLeg
  split
  · exact reportRoute_sameMem ..
  · exact .rfl s
theorem readTime_sameMem (s : State) : SameMem s (readTime s).2 := Eq.refl _
theorem setHart_sameMem (s : State) (k : Nat) (h : Hart) : SameMem s (setHart s k h) := by unfold setHart SameMem; split <;> rfl
theorem noticeAll_sameMem (s : State) (kind cls unit : Nat) (t : Word) : SameMem s (noticeAll s kind cls unit t) := by
  unfold noticeAll
  refine foldl_sameMem _ (fun s k => ?_) _ _
  dsimp only
  split
  · exact .rfl s
  · exact setHart_sameMem ..
theorem setLeaseAt_sameMem (s : State) (cls unit : Nat) (l : Lease) (now : Word) : SameMem s (setLeaseAt s cls unit l now) := by
  unfold setLeaseAt
  dsimp only
  split
  · exact SameMem.trans (t := { s with svc := _ }) (Eq.refl _) (noticeAll_sameMem ..)
  · split
    · exact SameMem.trans (t := { s with svc := _ }) (Eq.refl _) (noticeAll_sameMem ..)
    · split
      · exact SameMem.trans (t := { s with svc := _ }) (Eq.refl _) (noticeAll_sameMem ..)
      · exact Eq.refl _
theorem noticeTeam_sameMem (s : State) (c : Nat) (t : Word) : SameMem s (noticeTeam s c t) := by
  unfold noticeTeam
  split
  · dsimp only
    split
    · exact .rfl s
    · exact foldl_sameMem _ (fun s j => setHart_sameMem ..) _ _
  · exact .rfl s
theorem unbindStep_sameMem (s : State) (h : Nat) : SameMem s (unbindStep s h) := by
  unfold unbindStep
  split
  · split
    · exact Eq.refl _
    · exact .rfl s
  · exact .rfl s
theorem unbindAt_sameMem (c : Nat) (s : State) (h : Nat) : SameMem s (unbindAt c s h) := by
  unfold unbindAt
  split
  · split
    · exact Eq.refl _
    · exact unbindStep_sameMem ..
  · exact .rfl s
theorem unbindTeams_sameMem (s : State) : SameMem s (unbindTeams s) := by
  unfold unbindTeams
  refine foldl_sameMem _ (fun s r => ?_) _ _
  split
  · exact unbindStep_sameMem ..
  · exact .rfl s
theorem unbindCore_sameMem (s : State) (c : Nat) : SameMem s (unbindCore s c) := foldl_sameMem _ (unbindAt_sameMem c) _ _

/-- What a lease changes when it starts is not HBM's bytes. -/
theorem startLease_sameMem (s : State) (cls unit : Nat) (now : Bool) : SameMem s (startLease s cls unit now) := by
  unfold startLease
  split
  · exact .rfl s
  · generalize hr : readTime s = r
    rcases r with ⟨t, u⟩
    have h0 : SameMem s u := by have := readTime_sameMem s; rw [hr] at this; exact this
    dsimp only
    have h1 : SameMem s (if cls = 0 then noticeTeam u unit t else u) := by
      split
      · exact h0.trans (noticeTeam_sameMem ..)
      · exact h0
    generalize (if cls = 0 then noticeTeam u unit t else u) = v at h1 ⊢
    have h2 := h1.trans (setLeaseAt_sameMem v cls unit .drain t)
    generalize setLeaseAt v cls unit .drain t = w at h2 ⊢
    have h3 : SameMem s (if cls = 0 then unbindTeams (unbindCore w unit) else w) := by
      split
      · exact (h2.trans (unbindCore_sameMem ..)).trans (unbindTeams_sameMem _)
      · exact h2
    generalize (if cls = 0 then unbindTeams (unbindCore w unit) else w) = z at h3 ⊢
    split
    · exact h3
    · exact h3
theorem addEarly_sameMem (s : State) (cls unit : Nat) : SameMem s (addEarly s cls unit) := by
  unfold addEarly SameMem; split <;> rfl
theorem nextQuarantine_sameMem (s : State) (cls unit : Nat) : SameMem s (nextQuarantine s cls unit) := by
  unfold nextQuarantine
  split
  · exact .rfl s
  · split
    · unfold SameMem
      rw [startLease_sameMem]
    · exact .rfl s
theorem applyThresholds_sameMem (s : State) (ix old new : Nat) : SameMem s (applyThresholds s ix old new) := by
  unfold applyThresholds
  dsimp only
  generalize hv : (if (old < 256 && 256 ≤ new) || (old < 1024 && 1024 ≤ new) then
      report s [BitVec.ofNat 64 ix, BitVec.ofNat 64 new] else s) = v
  have h : SameMem s v := by subst hv; split <;> exact Eq.refl _
  split
  · split
    · exact h.trans (SameMem.trans (t := { v with svc := _ }) (Eq.refl _) (nextQuarantine_sameMem ..))
    · exact h.trans (foldl_sameMem _ (fun s u => startLease_sameMem ..) _ _)
  · split
    · exact h.trans (foldl_sameMem _ (fun s u => addEarly_sameMem ..) _ _)
    · exact h
theorem addScore_sameMem (s : State) (ix n : Nat) : SameMem s (addScore s ix n) := by
  unfold addScore setScore
  split
  · exact .rfl s
  · exact SameMem.trans (t := { s with svc := _ }) (Eq.refl _) (applyThresholds_sameMem ..)
theorem scoreCheck_sameMem (s : State) (core : Option Nat) (prod : Nat) (path : Word) : SameMem s (scoreCheck s core prod path) :=
  foldl_sameMem _ (fun _ _ => addScore_sameMem ..) _ _
theorem reportCheck_sameMem (s : State) (core : Option Nat) (g : Nat) (x : Granule) (path : Word) :
    SameMem s (reportCheck s core g x path) := SameMem.trans (t := report s _) (Eq.refl _) (scoreCheck_sameMem ..)

/-! ### Inbound levels -/

theorem invI1_inbound (s : State) (c : Nat) (p : Nat → Bool) : Inbound s (invI1 s c p) := setI1_inbound ..
theorem invI2_inbound (s : State) (n : Nat) (p : Nat → Bool) : Inbound s (invI2 s n p) :=
  (setI2_inbound ..).trans (setCluster_inbound ..)
theorem invCluster_inbound (s : State) (n : Nat) (p : Nat → Bool) : Inbound s (invCluster s n p) :=
  (invI2_inbound s n p).trans (foldl_inbound _ (fun s c => invI1_inbound s c p) _ _)
theorem dropI1s_inbound (s : State) (n g : Nat) : Inbound s (dropI1s s n g) := foldl_inbound _ (fun _ _ => setI1_inbound ..) _ _
theorem settle_inbound (s : State) (n g : Nat) (e : OutEntry) : Inbound s (settle s n g e) :=
  (setI2_inbound ..).trans (foldl_inbound _ (fun _ _ => setI1_inbound ..) _ _)
theorem refreshI3_sameMem (s : State) (g : Nat) : SameMem s (refreshI3 s g) := by unfold refreshI3 SameMem; split <;> rfl

/-! ### The home junction -/

theorem setHbm_keeps (s : State) (g : Nat) (x : Granule) : Keeps s (setHbm s g x) :=
  ⟨fun hs => setHbm_inv hs g x, by unfold setHbm; rfl⟩
/-- An entry that moves on into HBM keeps the canonical form. -/
theorem writeBack_keeps (s : State) (g : Nat) : Keeps s (writeBack s g) := by
  unfold writeBack
  split
  · rename_i e _
    exact Keeps.trans (t := { s with o3 := tdel s.o3 g, hbmSeq := tput s.hbmSeq g e.seq }) (SameMem.keeps (Eq.refl _)) (setHbm_keeps ..)
  · exact .rfl s
theorem roomO3_keeps (s : State) (g : Nat) : Keeps s (roomO3 s g) := by
  unfold roomO3
  dsimp only
  split
  · exact .rfl s
  · split
    · exact writeBack_keeps ..
    · exact .rfl s
theorem putO3At_keeps (s : State) (g : Nat) (x : Granule) (seq : Nat) : Keeps s (putO3At s g x seq) := by
  refine (roomO3_keeps s g).trans ?_
  unfold putO3At
  exact (SameMem.trans (s := roomO3 s g)
    (t := { roomO3 s g with o3 := tput (roomO3 s g).o3 g ⟨x, none, seq, false, false, 0, seq⟩ }) (Eq.refl _)
    (refreshI3_sameMem ..)).keeps
theorem putO3_keeps (s : State) (g : Nat) (x : Granule) : Keeps s (putO3 s g x) := putO3At_keeps ..
/-- Switching a granule at its home keeps the canonical form. -/
theorem raiseAtJunction_keeps (s : State) (g l : Nat) : Keeps s (raiseAtJunction s g l) := by
  unfold raiseAtJunction
  split
  · rename_i e _
    exact (SameMem.trans (s := s) (t := { s with o3 := tput s.o3 g { e with g := e.g.raiseLevel l } }) (Eq.refl _)
      (refreshI3_sameMem ..)).keeps
  · exact (setHbm_keeps ..).trans (refreshI3_sameMem ..).keeps
theorem deliverRemote_sameMem (s : State) (g : Nat) : SameMem s (deliverRemote s g) := by
  unfold deliverRemote
  split
  · split
    · exact Eq.refl _
    · exact reportCheck_sameMem ..
  · exact .rfl s
theorem roomBuffer_sameMem (s : State) (g : Nat) : SameMem s (roomBuffer s g) := by
  unfold roomBuffer
  split
  · exact .rfl s
  · split
    · exact deliverRemote_sameMem ..
    · exact .rfl s

/-! ### Drains and copies of outbound entries -/

theorem arriveHome_keeps (s : State) (n g : Nat) (e : OutEntry) : Keeps s (arriveHome s n g e) := by
  unfold arriveHome
  split
  · exact (putO3At_keeps s g e.g e.seq).trans (settle_inbound ..).keeps
  · refine SameMem.keeps ?_
    exact roomBuffer_sameMem s g
theorem drainO2_keeps (s : State) (n g : Nat) : Keeps s (drainO2 s n g) := by
  unfold drainO2
  dsimp only
  split
  · split
    · exact Keeps.trans (t := setCluster s n _) (setCluster_inbound ..).keeps (arriveHome_keeps ..)
    · exact (reportLeg_sameMem ..).keeps
  · exact .rfl s
theorem setCluster_keeps (s : State) (n : Nat) (k : ClusterSt) : Keeps s (setCluster s n k) := (setCluster_inbound ..).keeps
theorem setCore_keeps (s : State) (c : Nat) (k : CoreSt) : Keeps s (setCore s c k) := (show SameMem s (setCore s c k) from Eq.refl _).keeps
theorem combineAtJunction_keeps (s : State) (p : Partial) : Keeps s (combineAtJunction s p) := by
  unfold combineAtJunction
  dsimp only
  split
  · exact (reportCheck_sameMem ..).keeps
  · refine Keeps.trans (SameMem.keeps ?_) (putO3_keeps ..)
    unfold SameMem setOvf
    split <;> rfl
theorem sendPartial_keeps (n : Nat) (s : State) (p : Partial) : Keeps s (sendPartial n s p) := by
  unfold sendPartial
  dsimp only
  split
  · exact (setCluster_keeps ..).trans (combineAtJunction_keeps ..)
  · exact (reportLeg_sameMem ..).keeps
theorem combinePartials_keeps (s : State) (n : Nat) (p : Partial → Bool) : Keeps s (combinePartials s n p) :=
  foldl_keeps _ (sendPartial_keeps n) _ _
theorem roomO2_keeps (s : State) (n b : Nat) : Keeps s (roomO2 s n b) := by
  unfold roomO2
  split
  · exact .rfl s
  · split
    · exact drainO2_keeps ..
    · exact combinePartials_keeps ..
theorem readyO2_keeps (s : State) (n g : Nat) (h : Option Nat) : Keeps s (readyO2 s n g h) := by
  unfold readyO2
  split
  · exact .rfl s
  · exact roomO2_keeps ..
theorem enterO2_keeps (s : State) (n g : Nat) (e : OutEntry) : Keeps s (enterO2 s n g e) := by
  unfold enterO2
  dsimp only
  split <;> exact setCluster_keeps ..
theorem passO2_keeps (s : State) (n g : Nat) : Keeps s (passO2 s n g) := by
  unfold passO2
  split
  · exact drainO2_keeps ..
  · exact .rfl s
theorem leaveO1_keeps (s : State) (c g : Nat) (e : OutEntry) : Keeps s (leaveO1 s c g e) :=
  ((setCore_keeps ..).trans (enterO2_keeps ..)).trans (passO2_keeps ..)
theorem moveO1_keeps (s : State) (c g : Nat) : Keeps s (moveO1 s c g) := by
  unfold moveO1
  dsimp only
  split
  · split
    · exact (readyO2_keeps ..).trans (leaveO1_keeps ..)
    · exact (readyO2_keeps ..).trans (reportLeg_sameMem ..).keeps
  · exact .rfl s
theorem drainCluster_keeps (s : State) (n : Nat) : Keeps s (drainCluster s n) :=
  (foldl_keeps _ (fun _ c => foldl_keeps _ (fun s g => moveO1_keeps s c g) _ _) _ _).trans
    (foldl_keeps _ (fun _ _ => drainO2_keeps ..) _ _)
theorem roomI2_keeps (s : State) (n g : Nat) : Keeps s (roomI2 s n g) := by
  unfold roomI2
  split
  · exact .rfl s
  · dsimp only
    split
    · exact (nextTick_inbound (setI2_inbound ..)).keeps
    · exact (drainCluster_keeps s n).trans (nextTick_inbound (setI2_inbound ..)).keeps
theorem roomI1_inbound (s : State) (c g : Nat) : Inbound s (roomI1 s c g) := by
  unfold roomI1
  split
  · exact .rfl s
  · exact nextTick_inbound (setI1_inbound ..)
theorem putI2_keeps (s : State) (n g : Nat) (x : Copy) : Keeps s (putI2 s n g x) := by
  unfold putI2
  dsimp only
  refine (roomI2_keeps s n g).trans ?_
  split
  · exact .rfl _
  · split
    · exact .rfl _
    · exact (((fillI3_inbound _ g).trans (setI2_inbound ..)).trans (setCluster_inbound ..)).keeps
theorem putI1_inbound (s : State) (c g : Nat) (x : Copy) : Inbound s (putI1 s c g x) :=
  ((roomI1_inbound s c g).trans (fillI2_inbound ..)).trans (setI1_inbound ..)
theorem drainSelf_keeps (s : State) (c g : Nat) (e : OutEntry) : Keeps s (drainSelf s c g e) := by
  have h : Keeps s (readyO2 (if i1Takes s c g then s else roomI2 s (clusterOfCore c) g) (clusterOfCore c) g e.held) := by
    split
    · exact readyO2_keeps ..
    · exact (roomI2_keeps ..).trans (readyO2_keeps ..)
  unfold drainSelf
  dsimp only
  generalize readyO2 _ (clusterOfCore c) g e.held = v at h ⊢
  refine h.trans ?_
  split
  · exact (reportLeg_sameMem ..).keeps
  · split
    · exact (reportRoute_sameMem ..).keeps
    · split
      · exact (putI1_inbound ..).keeps.trans (leaveO1_keeps ..)
      · split
        · exact (putI2_keeps ..).trans (leaveO1_keeps ..)
        · split
          · exact (leaveO1_keeps ..).trans (drainO2_keeps ..)
          · exact (reportLeg_sameMem ..).keeps
theorem drainO1_keeps (s : State) (c g : Nat) : Keeps s (drainO1 s c g) := by
  unfold drainO1
  split
  · split
    · exact drainSelf_keeps ..
    · exact moveO1_keeps ..
  · exact .rfl s
theorem drainOwn_keeps (s : State) (c g : Nat) : Keeps s (drainOwn s c g) := by
  unfold drainOwn
  have h : Keeps s (match tget (coreAt s c).o1 g with | some e => if e.held.isNone then drainO1 s c g else s | none => s) := by
    split
    · split
      · exact drainO1_keeps s c g
      · exact .rfl s
    · exact .rfl s
  dsimp only
  split
  · split
    · exact h.trans (drainO2_keeps ..)
    · exact h
  · exact h
theorem placeLevel1_keeps (s : State) (c g : Nat) (x : Granule) (seq : Nat) : Keeps s (placeLevel1 s c g x seq) := by
  unfold placeLevel1
  dsimp only
  split
  · exact .rfl s
  · split
    · exact (reportLeg_sameMem ..).keeps
    · split
      · exact (putI1_inbound ..).keeps
      · exact (putI2_keeps ..).trans (dropI1s_inbound ..).keeps
theorem placeLevel2_keeps (s : State) (n g : Nat) (x : Granule) (seq : Nat) : Keeps s (placeLevel2 s n g x seq) := by
  unfold placeLevel2
  split
  · exact .rfl s
  · split
    · exact (reportLeg_sameMem ..).keeps
    · exact (putI2_keeps ..).trans (dropI1s_inbound ..).keeps

/-! ### The mesh -/

/-- Beside inbound copies, a flit changes the replicas alone. -/
theorem applyFlit_frame (s : State) (n : Nat) (f : Flit) : applyFlit s n f = { s with
    i3 := (applyFlit s n f).i3, cores := (applyFlit s n f).cores, clusters := (applyFlit s n f).clusters
    tick := (applyFlit s n f).tick, ports := { s.ports with stale := (applyFlit s n f).ports.stale } } := by
  cases f with
  | notice src lo hi =>
    have h := invCluster_inbound s n fun k => lo / 2 ≤ k / 2 && k / 2 ≤ hi / 2
    have e : applyFlit s n (.notice src lo hi) = invCluster s n fun k => lo / 2 ≤ k / 2 && k / 2 ≤ hi / 2 := rfl
    rw [e]
    generalize (invCluster s n fun k => lo / 2 ≤ k / 2 && k / 2 ≤ hi / 2) = u at h ⊢
    unfold Inbound at h
    have hp : u.ports = s.ports := (congrArg State.ports h :)
    rw [hp]
    exact h
  | count src p level v =>
    unfold applyFlit portCounts
    dsimp only
    split <;> rfl
  | sil src at' => rfl

/-- What moves flits and applies them changes nothing but the mesh and what applying a flit changes. -/
theorem meshRun_frame {P : State → Prop} (apply : State → Nat → Flit → State) (blocked : Nat → Nat → Bool)
    (h : ∀ s n f, P s → P (apply s n f)) (hm : ∀ s m, P s → P { s with mesh := m }) :
    ∀ (n : Nat) (s : State), P s → P (meshRun apply blocked n s)
  | 0, _, hs => hs
  | n + 1, s, hs => by
    have leave : ∀ f s p, P s → P (leavePort apply f s p) := by
      intro f s p hs
      unfold leavePort
      split
      · exact h _ _ _ hs
      · exact hm _ _ hs
    unfold meshRun
    split
    · rename_i u hu
      refine meshRun_frame apply blocked h hm n u ?_
      unfold meshMove at hu
      split at hu
      · cases hu
      · cases hu
        split
        · exact leave _ _ _ (hm _ _ hs)
        · refine foldl_frame _ (fun s p hp => ?_) _ _ (hm _ _ hs)
          split
          · exact hm _ _ hp
          · exact leave _ _ _ hp
    · exact hs

theorem keepCounts_sameMem (s : State) (f : Flit) (old : Counts) : SameMem s (keepCounts s f old) := by
  cases f with
  | notice src lo hi => exact .rfl s
  | count src p level v =>
    unfold keepCounts
    dsimp only
    generalize hu : forUp 64 0 _ s = u
    have h : SameMem s u := hu ▸ forUp_sameMem _ (fun n s => (setCluster_inbound ..).sameMem) 64 0 s
    split
    · exact h
    · exact h
  | sil src at' => exact .rfl s

/-! ### What a move of flits leaves of HBM's bytes -/

theorem meshRun_mem (blocked : Nat → Nat → Bool) (n : Nat) (s : State) : (meshRun applyFlit blocked n s).mem = s.mem :=
  meshRun_frame (P := fun t => t.mem = s.mem) _ _ (fun _ _ _ h => by rw [applyFlit_frame]; exact h) (fun _ _ h => h) n s rfl
theorem flow_mem (s : State) : (flow s).mem = s.mem := meshRun_mem ..
theorem flush_mem (s : State) : (flush s).mem = s.mem := meshRun_mem ..
theorem multicast_mem (s : State) (f : Flit) (old : Counts) : (multicast s f old).mem = s.mem :=
  (flow_mem _).trans (keepCounts_sameMem s f old).mem
theorem noticeNow_mem (s : State) (src lo hi : Nat) : (noticeNow s src lo hi).mem = s.mem := flush_mem _
theorem shipTo_mem (s : State) (c r : Nat) : (shipTo s c r).mem = s.mem := flow_mem _
theorem shipSilhouette_mem (s : State) (c g : Nat) : (shipSilhouette s c g).mem = s.mem := shipTo_mem ..

/-! ## Array slots and accesses at the home junction -/

/-- A product uses an array slot of its core and changes nothing else. -/
theorem useArray_frame (s : State) : useArray s = { s with cores := (useArray s).cores } := rfl
@[simp] theorem useArray_hart (s : State) : (useArray s).hart = s.hart := rfl
@[simp] theorem useArray_clusters (s : State) : (useArray s).clusters = s.clusters := rfl
@[simp] theorem useArray_mem (s : State) : (useArray s).mem = s.mem := rfl
@[simp] theorem useArray_o3 (s : State) : (useArray s).o3 = s.o3 := rfl

/-- An access that the home junction performs goes on once the core's own entries have gone and its way stands, and waits else. -/
theorem homewardM_spec (g : Nat) (forms : Bool) (s : State) :
    let u := drainOwn s (curCore s) g
    let leg := if forms then writeLeg u (some (curCluster s)) g else legFrom u (some (curCluster s)) g
    (ownWaits u (curCore u) g = false ∧ leg = none ∧ homewardM g forms s = (.ok (), u)) ∨
    ((ownWaits u (curCore u) g = true ∨ leg.isSome = true) ∧ (homewardM g forms s).1 = .error .hold) := by
  unfold homewardM
  dsimp only
  generalize (if forms then writeLeg (drainOwn s (curCore s) g) (some (curCluster s)) g
    else legFrom (drainOwn s (curCore s) g) (some (curCluster s)) g) = leg
  by_cases h : ownWaits (drainOwn s (curCore s) g) (curCore (drainOwn s (curCore s) g)) g = true
  · exact .inr ⟨.inl h, by rw [if_pos h]; rfl⟩
  · rw [if_neg h]
    cases leg with
    | some l => exact .inr ⟨.inr rfl, rfl⟩
    | none => exact .inl ⟨by simpa using h, rfl, rfl⟩

end Sys2Proof.Machine
end

