-- ==== Sys2Proof/Laws/Mesh.lean ====
section
/-! SUPPORT. The mesh by itself: how its flits move whatever they do where they leave it, and that with every link in service the
flits of any unit run out (R118, R119, R392). -/

namespace Sys2Proof.Machine

/-! ### The flits alone -/

/-- What a copy of a flit that leaves by a port adds to the mesh. -/
def portFlits (f : MeshFlit) (port : Nat) : List MeshFlit :=
  if port = 0 then [] else [{ f with router := (neighbour f.router port).1, input := (neighbour f.router port).2, branch := none }]

/-- What one port's copy of an accepted flit adds: itself, or its entry of the reserve. -/
def branchFlits (blocked : Nat → Nat → Bool) (f : MeshFlit) (port : Nat) : List MeshFlit :=
  if blocked f.router port then [{ f with branch := some port }] else portFlits f port

/-- One move, seen in the mesh alone. -/
def flitsMove (blocked : Nat → Nat → Bool) (m : List MeshFlit) : Option (List MeshFlit) :=
  match meshNext blocked [] m with
  | none => none
  | some (ahead, f, t) => some (ahead ++ t ++ match f.branch with
    | some port => portFlits f port
    | none => (meshBranches f).flatMap (branchFlits blocked f))

/-- Moves until none is left, or `n` are made. -/
def flitsRun (blocked : Nat → Nat → Bool) : Nat → List MeshFlit → List MeshFlit
  | 0, m => m
  | n + 1, m => match flitsMove blocked m with
    | some m => flitsRun blocked n m
    | none => m

theorem leavePort_mesh (apply : State → Nat → Flit → State) (h : ∀ s n f, (apply s n f).mesh = s.mesh) (f : MeshFlit) (s : State)
    (port : Nat) : (leavePort apply f s port).mesh = s.mesh ++ portFlits f port := by
  unfold leavePort portFlits
  split
  · rw [h]; simp
  · rfl

theorem meshMove_mesh (apply : State → Nat → Flit → State) (blocked : Nat → Nat → Bool) (h : ∀ s n f, (apply s n f).mesh = s.mesh)
    (s : State) : (meshMove apply blocked s).map State.mesh = flitsMove blocked s.mesh := by
  unfold meshMove flitsMove
  cases meshNext blocked [] s.mesh with
  | none => rfl
  | some x =>
    obtain ⟨ahead, f, t⟩ := x
    simp only [Option.map_some]
    congr 1
    cases hb : f.branch with
    | some port => exact leavePort_mesh apply h f _ port
    | none =>
      have go : ∀ (ps : List Nat) (u : State), (ps.foldl (fun s port =>
          if blocked f.router port then { s with mesh := s.mesh ++ [{ f with branch := some port }] }
          else leavePort apply f s port) u).mesh = u.mesh ++ ps.flatMap (branchFlits blocked f) := by
        intro ps
        induction ps with
        | nil => intro u; simp
        | cons p ps ih =>
          intro u
          rw [List.foldl_cons, ih, List.flatMap_cons]
          unfold branchFlits
          split
          · simp
          · rw [leavePort_mesh apply h]; simp
      exact go _ _

theorem meshRun_mesh (apply : State → Nat → Flit → State) (blocked : Nat → Nat → Bool) (h : ∀ s n f, (apply s n f).mesh = s.mesh) :
    ∀ (n : Nat) (s : State), (meshRun apply blocked n s).mesh = flitsRun blocked n s.mesh
  | 0, _ => rfl
  | n + 1, s => by
    have e := meshMove_mesh apply blocked h s
    unfold meshRun flitsRun
    cases hm : meshMove apply blocked s with
    | none => rw [hm] at e; rw [← e]; rfl
    | some u => rw [hm] at e; rw [← e]; exact meshRun_mesh apply blocked h n u

theorem applyFlit_mesh (s : State) (n : Nat) (f : Flit) : (applyFlit s n f).mesh = s.mesh := by rw [applyFlit_frame]

/-- What the mesh holds after all that can move has moved depends on the mesh and the links alone. -/
theorem flush_mesh (s : State) : (flush s).mesh = flitsRun (fun r port => !branchUp s r port) (400 * s.mesh.length) s.mesh :=
  meshRun_mesh _ _ applyFlit_mesh _ _

theorem flow_mesh (s : State) : (flow s).mesh = flitsRun (branchBlocked s) (400 * s.mesh.length + 400) s.mesh :=
  meshRun_mesh _ _ applyFlit_mesh _ _

/-! ### Every link in service -/

/-- With every route up every branch of every router has a link in service. -/
theorem branchUp_of_routes (s : State) (h : ∀ a b, routeUp s a b = true) (r port : Nat) : branchUp s r port = true := by
  have row : ∀ x y, x < 7 → pairUp s (linkEast x y) = true := by
    intro x y hx
    have e := h (8 * y + x) (8 * y + (x + 1))
    unfold routeUp rowUp columnUp at e
    have e1 : (8 * y + x) / 8 = y := by omega
    have e2 : (8 * y + (x + 1)) / 8 = y := by omega
    have e3 : (8 * y + x) % 8 = x := by omega
    have e4 : (8 * y + (x + 1)) % 8 = x + 1 := by omega
    rw [e1, e2, e3, e4] at e
    simpa [show max x (x + 1) - min x (x + 1) = 1 by omega, show min x (x + 1) = x by omega, List.range_succ] using e
  have col : ∀ x y, x < 8 → pairUp s (linkNorth x y) = true := by
    intro x y hx
    have e := h (8 * y + x) (8 * (y + 1) + x)
    unfold routeUp rowUp columnUp at e
    have e1 : (8 * y + x) / 8 = y := by omega
    have e2 : (8 * (y + 1) + x) / 8 = y + 1 := by omega
    have e3 : (8 * y + x) % 8 = x := by omega
    have e4 : (8 * (y + 1) + x) % 8 = x := by omega
    rw [e1, e2, e3, e4] at e
    simpa [show max y (y + 1) - min y (y + 1) = 1 by omega, show min y (y + 1) = y by omega, List.range_succ] using e
  have east : ∀ x y, x < 8 → pairUp s (linkEast x y) = true := by
    intro x y hx
    by_cases h7 : x < 7
    · exact row x y h7
    · have e : linkEast x y = linkEast 0 (y + 1) := by unfold linkEast; omega
      rw [e]; exact row 0 (y + 1) (by omega)
  unfold branchUp
  dsimp only
  have hx : r % 8 < 8 := Nat.mod_lt _ (by omega)
  split
  · exact east _ _ hx
  · split
    · exact east _ _ (by omega)
    · split
      · exact col _ _ hx
      · split
        · exact col _ _ hx
        · rfl

/-! ### Every flit comes to its end -/

/-- The ports of a flit at any router, were it there: its origin and what it carries go with it. -/
def portsAlong (f : MeshFlit) (r : Nat) : List Nat := meshBranches { f with router := r }

def apart (a b : Nat) : Nat := (a - b) + (b - a)

/-- The moves that are left to a flit once it stands in an input buffer of a router: one there and one for each port, on all that
it still reaches. -/
def movesFrom (f : MeshFlit) (r : Nat) : Nat :=
  let x := r % 8
  let y := r / 8
  match f.flit with
  | .sil _ d => 2 * (apart x (d % 8) + apart y (d / 8)) + 2
  | _ =>
    if y < f.origin / 8 then 3 * y + 2 else if f.origin / 8 < y then 23 - 3 * y
    else if x < f.origin % 8 then 24 * x + 23 else if f.origin % 8 < x then 191 - 24 * x else 191

/-- The moves that are left to the copy that goes out of a port, which may wait in the reserve. -/
def movesPast (f : MeshFlit) (r p : Nat) : Nat := 1 + if p = 0 then 0 else movesFrom f (neighbour r p).1

/-- The moves that are left to a flit where it stands. -/
def movesLeft (f : MeshFlit) : Nat :=
  match f.branch with
  | some p => movesPast f f.router p
  | none => movesFrom f f.router

def movesAll (m : List MeshFlit) : Nat := (m.map movesLeft).sum

/-- A flit of the mesh's own: routers 0-63, and a reserve entry for a port that it takes. -/
def Travels (f : MeshFlit) : Prop :=
  f.router < 64 ∧ f.origin < 64 ∧ (∀ src d, f.flit = .sil src d → d < 64) ∧ ∀ p, f.branch = some p → p ∈ portsAlong f f.router

/-- Accepting a flit uses a move, its copies have no more left than that, and they stay on the mesh. -/
def alongOk (f : MeshFlit) (r : Nat) : Bool :=
  Nat.ble (1 + ((portsAlong f r).map (movesPast f r)).sum) (movesFrom f r) && Nat.ble (movesFrom f r) 399 &&
    (portsAlong f r).all fun p => Nat.beq p 0 || Nat.ble (neighbour r p).1 63

theorem along_tree : ((List.range 64).all fun o => (List.range 64).all (alongOk ⟨.notice 0 0 0, o, 0, 0, none⟩)) = true := by
  decide +kernel

theorem along_route : ((List.range 64).all fun d => (List.range 64).all (alongOk ⟨.sil 0 d, 0, 0, 0, none⟩)) = true := by
  decide +kernel

theorem along (f : MeshFlit) (r : Nat) (ho : f.origin < 64) (hd : ∀ src d, f.flit = .sil src d → d < 64) (hr : r < 64) :
    1 + ((portsAlong f r).map (movesPast f r)).sum ≤ movesFrom f r ∧ movesFrom f r ≤ 399 ∧
      ∀ p ∈ portsAlong f r, p = 0 ∨ (neighbour r p).1 < 64 := by
  have ok : alongOk f r = true := by
    obtain ⟨fl, o, ro, i, b⟩ := f
    cases fl with
    | notice a b c => exact (List.all_eq_true.mp (List.all_eq_true.mp along_tree o (List.mem_range.mpr ho)) r (List.mem_range.mpr hr))
    | count a b c d => exact (List.all_eq_true.mp (List.all_eq_true.mp along_tree o (List.mem_range.mpr ho)) r (List.mem_range.mpr hr))
    | sil a d => exact (List.all_eq_true.mp (List.all_eq_true.mp along_route d (List.mem_range.mpr (hd a d rfl))) r (List.mem_range.mpr hr))
  unfold alongOk at ok
  simp only [Bool.and_eq_true, List.all_eq_true, Bool.or_eq_true] at ok
  obtain ⟨⟨h1, h2⟩, h3⟩ := ok
  refine ⟨Nat.le_of_ble_eq_true h1, Nat.le_of_ble_eq_true h2, fun p hp => ?_⟩
  rcases h3 p hp with h | h
  · exact .inl (Nat.eq_of_beq_eq_true h)
  · exact .inr (Nat.lt_succ_of_le (Nat.le_of_ble_eq_true h))

theorem movesAll_append (a b : List MeshFlit) : movesAll (a ++ b) = movesAll a + movesAll b := by unfold movesAll; simp

theorem portFlits_moves (f : MeshFlit) (p : Nat) : movesAll (portFlits f p) < movesPast f f.router p := by
  unfold portFlits movesPast
  split
  · simp [movesAll]
  · have e : ∀ r i, movesLeft { f with router := r, input := i, branch := none } = movesFrom f r := fun r i => rfl
    simp [movesAll, e]

theorem branchFlits_moves (blocked : Nat → Nat → Bool) (f : MeshFlit) (p : Nat) :
    movesAll (branchFlits blocked f p) ≤ movesPast f f.router p := by
  unfold branchFlits
  split
  · exact Nat.le_of_eq (by simp [movesAll, movesLeft]; rfl)
  · exact Nat.le_of_lt (portFlits_moves f p)

/-- What `meshNext` finds is a place in the mesh. -/
theorem meshNext_split (blocked : Nat → Nat → Bool) : ∀ (m a : List MeshFlit) {ahead f t}, meshNext blocked a m = some (ahead, f, t) →
    a ++ m = ahead ++ f :: t
  | [], a, _, _, _, h => by cases h
  | g :: m, a, ahead, f, t, h => by
    unfold meshNext at h
    cases hb : g.branch <;> rw [hb] at h <;> dsimp only at h <;> split at h
    all_goals first
      | (cases h; rfl)
      | (rw [← meshNext_split blocked m (a ++ [g]) h]; simp)

theorem portFlits_travels (f : MeshFlit) (p : Nat) (h : Travels f) (hp : p ∈ portsAlong f f.router) : ∀ g ∈ portFlits f p, Travels g := by
  intro g hg
  unfold portFlits at hg
  split at hg
  · cases hg
  · rename_i h0
    rw [List.mem_singleton.mp hg]
    rcases (along f f.router h.2.1 h.2.2.1 h.1).2.2 p hp with e | e
    · exact absurd e h0
    · exact ⟨e, h.2.1, h.2.2.1, fun q hq => nomatch hq⟩

/-- A move keeps the flits on the mesh, and the moves that are left to them fall. -/
theorem flitsMove_spec (blocked : Nat → Nat → Bool) {m m' : List MeshFlit} (h : flitsMove blocked m = some m')
    (hm : ∀ f ∈ m, Travels f) : (∀ f ∈ m', Travels f) ∧ movesAll m' < movesAll m := by
  unfold flitsMove at h
  cases hn : meshNext blocked [] m with
  | none => rw [hn] at h; cases h
  | some x =>
    obtain ⟨ahead, f, t⟩ := x
    have e : m = ahead ++ f :: t := meshNext_split blocked m [] hn
    rw [hn] at h
    cases h
    subst e
    have hf : Travels f := hm f (by simp)
    have rest : movesAll (ahead ++ f :: t) = movesAll (ahead ++ t) + movesLeft f := by
      rw [movesAll_append, movesAll_append]; simp [movesAll]; omega
    have keep : ∀ add : List MeshFlit, (∀ g ∈ add, Travels g) → movesAll add < movesLeft f →
        (∀ g ∈ ahead ++ t ++ add, Travels g) ∧ movesAll (ahead ++ t ++ add) < movesAll (ahead ++ f :: t) := by
      intro add h1 h2
      refine ⟨fun g hg => ?_, by rw [movesAll_append, rest]; omega⟩
      rcases List.mem_append.mp hg with hg | hg
      · exact hm g (by rcases List.mem_append.mp hg with hg | hg <;> simp [hg])
      · exact h1 g hg
    cases hb : f.branch with
    | some p =>
      refine keep _ (portFlits_travels f p hf (hf.2.2.2 p hb)) ?_
      rw [show movesLeft f = movesPast f f.router p by unfold movesLeft; rw [hb]]
      exact portFlits_moves f p
    | none =>
      refine keep _ (fun g hg => ?_) ?_
      · obtain ⟨p, hp, hg⟩ := List.mem_flatMap.mp hg
        unfold branchFlits at hg
        split at hg
        · rw [List.mem_singleton.mp hg]
          exact ⟨hf.1, hf.2.1, hf.2.2.1, fun q hq => by cases hq; exact hp⟩
        · exact portFlits_travels f p hf hp g hg
      · have a := (along f f.router hf.2.1 hf.2.2.1 hf.1).1
        have le : ∀ ps : List Nat, movesAll (ps.flatMap (branchFlits blocked f)) ≤ (ps.map (movesPast f f.router)).sum := by
          intro ps
          induction ps with
          | nil => simp [movesAll]
          | cons p ps ih =>
            rw [List.flatMap_cons, movesAll_append, List.map_cons, List.sum_cons]
            exact Nat.add_le_add (branchFlits_moves blocked f p) ih
        have b := le (meshBranches f)
        rw [show movesLeft f = movesFrom f f.router by unfold movesLeft; rw [hb]]
        exact Nat.lt_of_le_of_lt b (Nat.lt_of_lt_of_le (Nat.lt_add_of_pos_left Nat.one_pos) a)

theorem flitsRun_travels (blocked : Nat → Nat → Bool) : ∀ (n : Nat) (m : List MeshFlit), (∀ f ∈ m, Travels f) →
    ∀ f ∈ flitsRun blocked n m, Travels f
  | 0, _, hm => hm
  | n + 1, m, hm => by
    unfold flitsRun
    cases h : flitsMove blocked m with
    | none => exact hm
    | some u => exact flitsRun_travels blocked n u (flitsMove_spec blocked h hm).1

/-- Where no branch is blocked, something of a mesh that is not empty moves. -/
theorem meshNext_moves (blocked : Nat → Nat → Bool) (h : ∀ r p, blocked r p = false) : ∀ (m a : List MeshFlit),
    (∃ g ∈ m, g.branch.isSome = true) → (meshNext blocked a m).isSome = true
  | [], _, ⟨g, hg, _⟩ => nomatch hg
  | f :: m, a, ⟨g, hg, hb⟩ => by
    unfold meshNext
    cases hf : f.branch with
    | some p => simp [h]
    | none =>
      dsimp only
      split
      · rfl
      · rcases List.mem_cons.mp hg with rfl | hg
        · rw [hf] at hb; cases hb
        · exact meshNext_moves blocked h m _ ⟨g, hg, hb⟩

theorem flitsMove_none (blocked : Nat → Nat → Bool) (h : ∀ r p, blocked r p = false) {m : List MeshFlit} (hm : flitsMove blocked m = none) :
    m = [] := by
  cases m with
  | nil => rfl
  | cons f t =>
    refine absurd hm ?_
    suffices s : (meshNext blocked [] (f :: t)).isSome = true by
      obtain ⟨x, hx⟩ := Option.isSome_iff_exists.mp s
      unfold flitsMove; rw [hx]; simp
    by_cases hb : ∃ g ∈ f :: t, g.branch.isSome = true
    · exact meshNext_moves blocked h _ _ hb
    · have none_ : ∀ g ∈ f :: t, g.branch = none := fun g hg => by
        cases hg' : g.branch with
        | none => rfl
        | some p => exact absurd ⟨g, hg, by rw [hg']; rfl⟩ hb
      have free : ∀ r p, reserveHeld (f :: t) r p = false := by
        intro r p
        unfold reserveHeld
        rw [List.any_eq_false]
        intro g hg
        rw [none_ g hg]; simp
      unfold meshNext
      dsimp only
      rw [none_ f (List.mem_cons_self ..)]
      have e : (meshBranches f).all (fun port => !reserveHeld ([] ++ f :: t) f.router port) = true := by
        rw [List.all_eq_true]; intro p _; rw [List.nil_append, free]; rfl
      simp only [waitsBehind, List.any_nil, Bool.not_false, Bool.true_and, e, if_true, Option.isSome_some]

theorem flitsRun_empties (blocked : Nat → Nat → Bool) (h : ∀ r p, blocked r p = false) : ∀ (n : Nat) (m : List MeshFlit),
    (∀ f ∈ m, Travels f) → movesAll m ≤ n → flitsRun blocked n m = []
  | 0, m, hm, hn => by
    unfold flitsRun
    cases m with
    | nil => rfl
    | cons f t =>
      have pos : 0 < movesLeft f := by
        have hf := hm f (List.mem_cons_self ..)
        have a := (along f f.router hf.2.1 hf.2.2.1 hf.1).1
        unfold movesLeft movesPast
        split <;> omega
      have e : movesAll (f :: t) = movesLeft f + movesAll t := by unfold movesAll; simp
      omega
  | n + 1, m, hm, hn => by
    unfold flitsRun
    cases hs : flitsMove blocked m with
    | none => exact flitsMove_none blocked h hs
    | some u =>
      have s := flitsMove_spec blocked hs hm
      exact flitsRun_empties blocked h n u s.1 (by omega)

theorem movesAll_le (m : List MeshFlit) (hm : ∀ f ∈ m, Travels f) : movesAll m ≤ 400 * m.length := by
  induction m with
  | nil => simp [movesAll]
  | cons f t ih =>
    have hf := hm f (List.mem_cons_self ..)
    have i := ih fun g hg => hm g (List.mem_cons_of_mem _ hg)
    have e : movesAll (f :: t) = movesLeft f + movesAll t := by unfold movesAll; simp
    have b : movesLeft f ≤ 400 := by
      unfold movesLeft
      cases hb : f.branch with
      | none => have a := (along f f.router hf.2.1 hf.2.2.1 hf.1).2.1; dsimp only; omega
      | some p =>
        dsimp only
        unfold movesPast
        split
        · omega
        · rename_i h0
          rcases (along f f.router hf.2.1 hf.2.2.1 hf.1).2.2 p (hf.2.2.2 p hb) with e | e
          · exact absurd e h0
          · have a := (along f (neighbour f.router p).1 hf.2.1 hf.2.2.1 e).2.1; omega
    rw [e, List.length_cons]; omega

/-! ### What a unit that waits for its acknowledgements sees -/

/-- With every route up the flits of the mesh come to their ends (R118, R392). -/
theorem flush_empties (s : State) (up : ∀ a b, routeUp s a b = true) (hm : ∀ f ∈ s.mesh, Travels f) : (flush s).mesh = [] := by
  rw [flush_mesh]
  refine flitsRun_empties _ (fun r p => ?_) _ _ hm (movesAll_le _ hm)
  rw [branchUp_of_routes s up]; rfl

/-- A flit that sets out. -/
theorem inject_travels (s : State) (router : Nat) (f : Flit) (hr : router < 64) (hd : ∀ src d, f = .sil src d → d < 64)
    (hm : ∀ g ∈ s.mesh, Travels g) : ∀ g ∈ (inject s router f).mesh, Travels g := by
  intro g hg
  rcases List.mem_append.mp hg with hg | hg
  · exact hm g hg
  · obtain rfl := List.mem_singleton.mp hg
    exact ⟨hr, hr, hd, fun p hp => (nomatch hp)⟩

theorem flow_travels (s : State) (hm : ∀ f ∈ s.mesh, Travels f) : ∀ f ∈ (flow s).mesh, Travels f := by
  rw [flow_mesh]
  generalize 400 * s.mesh.length + 400 = n
  exact flitsRun_travels (branchBlocked s) n s.mesh hm

theorem flush_travels (s : State) (hm : ∀ f ∈ s.mesh, Travels f) : ∀ f ∈ (flush s).mesh, Travels f := by
  rw [flush_mesh]
  generalize 400 * s.mesh.length = n
  exact flitsRun_travels _ n s.mesh hm

theorem routerOfProd_lt (p : Nat) : routerOfProd p < 64 := by
  unfold routerOfProd junctionRouter portRouter managementRouter
  dsimp only
  repeat' split
  all_goals omega

theorem multicast_travels (s : State) (f : Flit) (old : Counts) (hd : ∀ src d, f = .sil src d → d < 64)
    (hm : ∀ g ∈ s.mesh, Travels g) : ∀ g ∈ (multicast s f old).mesh, Travels g := by
  unfold multicast
  exact flow_travels _ (inject_travels _ _ _ (routerOfProd_lt _) hd (by rw [(keepCounts_sameMem s f old).mesh]; exact hm))

/-- A notice of a unit outside the harts comes to every cluster, and none of its flits is left (R107, R150). -/
theorem noticeNow_empties (s : State) (src lo hi : Nat) (up : ∀ a b, routeUp s a b = true) (hm : ∀ f ∈ s.mesh, Travels f) :
    (noticeNow s src lo hi).mesh = [] :=
  flush_empties _ up (inject_travels _ _ _ (routerOfProd_lt _) (fun _ _ h => nomatch h) hm)

theorem acked_of_empty (s : State) (src : Nat) (h : s.mesh = []) : acked s src = true := by unfold acked; rw [h]; rfl

end Sys2Proof.Machine
end

