-- ==== Sys2Proof/Laws/Home.lean ====
section
/-! SUPPORT. What a notice of a unit outside the harts, and a page that moves in, leave in the mesh (R107, R150). -/

namespace Sys2Proof.Machine

/-- What a notice leaves in the mesh is what its flit leaves there, with the links as they are. -/
theorem noticeNow_mesh (s : State) (src lo hi : Nat) : (noticeNow s src lo hi).mesh =
    flitsRun (fun r port => !branchUp s r port) (400 * (s.mesh.length + 1))
      (s.mesh ++ [⟨.notice src lo hi, routerOfProd src, routerOfProd src, 0, none⟩]) := by
  unfold noticeNow
  rw [flush_mesh]
  have e : (inject s (routerOfProd src) (.notice src lo hi)).mesh =
    s.mesh ++ [⟨.notice src lo hi, routerOfProd src, routerOfProd src, 0, none⟩] := rfl
  rw [e, List.length_append]
  rfl

/-- What a notice leaves in the mesh depends on the mesh and on the links alone. -/
theorem noticeNow_congr (s t : State) (src lo hi : Nat) (hm : t.mesh = s.mesh) (hs : t.svc = s.svc) :
    (noticeNow t src lo hi).mesh = (noticeNow s src lo hi).mesh := by
  rw [noticeNow_mesh, noticeNow_mesh, hm]
  have e : (fun r port => !branchUp t r port) = fun r port => !branchUp s r port := by
    funext r port
    unfold branchUp pairUp inService leaseOf
    rw [hs]
  rw [e]

theorem formParts_keeps (s : State) (prod val : Nat) (ps : List (Nat × Nat × Nat × Nat)) : Keeps s (formParts s prod val ps) :=
  foldl_keeps _ (fun _ _ => putO3_keeps ..) _ _

theorem managementStore_keeps (s : State) (pa : Nat) (data : List Byte) : Keeps s (managementStore s pa data) := by
  unfold managementStore
  dsimp only
  split
  · exact (reportCheck_sameMem ..).keeps
  · exact formParts_keeps ..

/-- A granule of a page that moves in changes no flit and no lease. -/
theorem moveGranule_svc (s : State) (g seq : Nat) (x : Granule) :
    (setHbm { s with o3 := tdel s.o3 g, hbmSeq := tput s.hbmSeq g seq } g x).mesh = s.mesh ∧
    (setHbm { s with o3 := tdel s.o3 g, hbmSeq := tput s.hbmSeq g seq } g x).svc = s.svc := by
  unfold setHbm
  exact ⟨rfl, rfl⟩

/-- A page that moves in leaves in the mesh what its one notice does (R107, R150). -/
theorem moveIn_mesh (s : State) (table : Nat) (va : Word) (leaf : Nat × Word × Nat) (image : List (Nat × GData)) :
    (moveIn s table va leaf image).mesh =
      (noticeNow s prodMigration (pteBase leaf.2.1 / 64) (pteBase leaf.2.1 / 64 + pageBytes leaf.2.2 / 64 - 1)).mesh := by
  unfold moveIn
  dsimp only
  generalize hu : forUp _ 0 _ s = u
  have h : u.mesh = s.mesh ∧ u.svc = s.svc := hu ▸ forUp_frame (P := fun t => t.mesh = s.mesh ∧ t.svc = s.svc) _
    (fun i t ht => ⟨(moveGranule_svc t _ _ _).1.trans ht.1, (moveGranule_svc t _ _ _).2.trans ht.2⟩) _ 0 s ⟨rfl, rfl⟩
  generalize hv : ({ u with ports := { u.ports with
    hostPages := u.ports.hostPages.filter fun p => p.base != pteBase leaf.2.1 } } : State) = v
  have vm : v.mesh = s.mesh := by rw [← hv]; exact h.1
  have vs : v.svc = s.svc := by rw [← hv]; exact h.2
  rw [← noticeNow_congr s v prodMigration _ _ vm vs]
  unfold grantPage dropRequest writePte
  exact (managementStore_keeps ..).mesh

/-- With every route up and every flit in the mesh on its way, the notice of a page that moves in is acknowledged. -/
theorem moveIn_acked (s : State) (table : Nat) (va : Word) (leaf : Nat × Word × Nat) (image : List (Nat × GData)) (src : Nat)
    (up : ∀ a b, routeUp s a b = true) (hm : ∀ f ∈ s.mesh, Travels f) : acked (moveIn s table va leaf image) src = true :=
  acked_of_empty _ _ ((moveIn_mesh ..).trans (noticeNow_empties s _ _ _ up hm))

end Sys2Proof.Machine
end

