-- ==== Sys2Proof/Laws/PerInstr.lean ====
section
/-! SUPPORT. Per-instruction lemmas of the family WellFormedEncoding: the word of an instruction carries an opcode that Table
14.2 assigns (R205). -/

namespace Sys2Proof.Laws.WellFormedEncoding

/-- A major opcode that Table 14.2 assigns: 0x00, 0x1A, 0x36, 0x37 and 0x3B up are not. -/
def assigned (op : Nat) : Bool := 1 ≤ op && op ≤ 0x3A && op != 0x1A && op != 0x36 && op != 0x37

/-- The bits of a word from bit `lo` up are the opcode `k`. -/
def Top {n : Nat} (w : BitVec n) (lo : Nat) (k : BitVec 6) : Prop := w.toNat / 2 ^ lo = k.toNat

theorem Top.base (k : BitVec 6) : Top k 0 k := by simp [Top]

theorem Top.lit {n lo : Nat} {w : BitVec n} {k : BitVec 6} (h : w.toNat / 2 ^ lo = k.toNat) : Top w lo k := h

theorem Top.snoc {n m lo : Nat} {x : BitVec n} {k : BitVec 6} (y : BitVec m) (h : Top x lo k) : Top (x ++ y) (lo + m) k := by
  unfold Top at *
  rw [BitVec.toNat_append, Nat.add_comm lo m, Nat.pow_add, ← Nat.div_div_eq_div_mul, Nat.shiftLeft_eq, ← h]
  congr 1
  rw [Nat.or_comm, ← Nat.shiftLeft_eq, Nat.or_comm, ← Nat.shiftLeft_add_eq_or_of_lt y.isLt, Nat.shiftLeft_eq, Nat.mul_comm,
    Nat.mul_add_div (Nat.two_pow_pos m), Nat.div_eq_of_lt y.isLt, Nat.add_zero]

/-- The opcode field of an instruction's word is assigned; an event has no word. -/
def Statement (i : Instr) : Prop := ∀ w, encode i = some w → assigned (fld w 26 6).toNat = true

theorem of_word {i : Instr} {w : BitVec 32} (k : BitVec 6) (h : encode i = some w) (e : Top w 26 k) (hk : assigned k.toNat = true) :
    Statement i := by
  intro v hv
  rw [h] at hv
  cases hv
  have : (fld w 26 6).toNat = k.toNat := by
    unfold Top at e
    rw [fld, BitVec.extractLsb'_toNat, Nat.shiftRight_eq_div_pow, e, Nat.mod_eq_of_lt k.isLt]
  rwa [this]

theorem of_event {i : Instr} (h : encode i = none) : Statement i := fun w hw => by rw [h] at hw; cases hw

theorem add (a0 a1 a2) : Statement (.add a0 a1 a2) := of_word 1 rfl (.snoc _ (.snoc _ (.snoc _ (.snoc _ (.base _))))) rfl
theorem sub (a0 a1 a2) : Statement (.sub a0 a1 a2) := of_word 1 rfl (.snoc _ (.snoc _ (.snoc _ (.snoc _ (.base _))))) rfl
theorem and (a0 a1 a2) : Statement (.and a0 a1 a2) := of_word 1 rfl (.snoc _ (.snoc _ (.snoc _ (.snoc _ (.base _))))) rfl
theorem or (a0 a1 a2) : Statement (.or a0 a1 a2) := of_word 1 rfl (.snoc _ (.snoc _ (.snoc _ (.snoc _ (.base _))))) rfl
theorem xor (a0 a1 a2) : Statement (.xor a0 a1 a2) := of_word 1 rfl (.snoc _ (.snoc _ (.snoc _ (.snoc _ (.base _))))) rfl
theorem sll (a0 a1 a2) : Statement (.sll a0 a1 a2) := of_word 1 rfl (.snoc _ (.snoc _ (.snoc _ (.snoc _ (.base _))))) rfl
theorem srl (a0 a1 a2) : Statement (.srl a0 a1 a2) := of_word 1 rfl (.snoc _ (.snoc _ (.snoc _ (.snoc _ (.base _))))) rfl
theorem sra (a0 a1 a2) : Statement (.sra a0 a1 a2) := of_word 1 rfl (.snoc _ (.snoc _ (.snoc _ (.snoc _ (.base _))))) rfl
theorem slt (a0 a1 a2) : Statement (.slt a0 a1 a2) := of_word 1 rfl (.snoc _ (.snoc _ (.snoc _ (.snoc _ (.base _))))) rfl
theorem sltu (a0 a1 a2) : Statement (.sltu a0 a1 a2) := of_word 1 rfl (.snoc _ (.snoc _ (.snoc _ (.snoc _ (.base _))))) rfl
theorem min (a0 a1 a2) : Statement (.min a0 a1 a2) := of_word 1 rfl (.snoc _ (.snoc _ (.snoc _ (.snoc _ (.base _))))) rfl
theorem max (a0 a1 a2) : Statement (.max a0 a1 a2) := of_word 1 rfl (.snoc _ (.snoc _ (.snoc _ (.snoc _ (.base _))))) rfl
theorem minu (a0 a1 a2) : Statement (.minu a0 a1 a2) := of_word 1 rfl (.snoc _ (.snoc _ (.snoc _ (.snoc _ (.base _))))) rfl
theorem maxu (a0 a1 a2) : Statement (.maxu a0 a1 a2) := of_word 1 rfl (.snoc _ (.snoc _ (.snoc _ (.snoc _ (.base _))))) rfl
theorem clz (a0 a1) : Statement (.clz a0 a1) := of_word 1 rfl (.snoc _ (.snoc _ (.snoc _ (.base _)))) rfl
theorem ctz (a0 a1) : Statement (.ctz a0 a1) := of_word 1 rfl (.snoc _ (.snoc _ (.snoc _ (.base _)))) rfl
theorem popc (a0 a1) : Statement (.popc a0 a1) := of_word 1 rfl (.snoc _ (.snoc _ (.snoc _ (.base _)))) rfl
theorem addSat (a0 a1 a2) : Statement (.addSat a0 a1 a2) := of_word 1 rfl (.snoc _ (.snoc _ (.snoc _ (.snoc _ (.base _))))) rfl
theorem subSat (a0 a1 a2) : Statement (.subSat a0 a1 a2) := of_word 1 rfl (.snoc _ (.snoc _ (.snoc _ (.snoc _ (.base _))))) rfl
theorem bfx (a0 a1 a2 a3) : Statement (.bfx a0 a1 a2 a3) := of_word 2 rfl (.snoc _ (.snoc _ (.snoc _ (.snoc _ (.snoc _ (.base _)))))) rfl
theorem bfxu (a0 a1 a2 a3) : Statement (.bfxu a0 a1 a2 a3) := of_word 2 rfl (.snoc _ (.snoc _ (.snoc _ (.snoc _ (.snoc _ (.base _)))))) rfl
theorem bfi (a0 a1 a2 a3) : Statement (.bfi a0 a1 a2 a3) := of_word 2 rfl (.snoc _ (.snoc _ (.snoc _ (.snoc _ (.snoc _ (.base _)))))) rfl
theorem fsl (a0 a1 a2 a3) : Statement (.fsl a0 a1 a2 a3) := of_word 2 rfl (.snoc _ (.snoc _ (.snoc _ (.snoc _ (.snoc _ (.base _)))))) rfl
theorem fsr (a0 a1 a2 a3) : Statement (.fsr a0 a1 a2 a3) := of_word 2 rfl (.snoc _ (.snoc _ (.snoc _ (.snoc _ (.snoc _ (.base _)))))) rfl
theorem mul (a0 a1 a2) : Statement (.mul a0 a1 a2) := of_word 3 rfl (.snoc _ (.snoc _ (.snoc _ (.snoc _ (.base _))))) rfl
theorem mulh (a0 a1 a2) : Statement (.mulh a0 a1 a2) := of_word 3 rfl (.snoc _ (.snoc _ (.snoc _ (.snoc _ (.base _))))) rfl
theorem mulhu (a0 a1 a2) : Statement (.mulhu a0 a1 a2) := of_word 3 rfl (.snoc _ (.snoc _ (.snoc _ (.snoc _ (.base _))))) rfl
theorem mulhsu (a0 a1 a2) : Statement (.mulhsu a0 a1 a2) := of_word 3 rfl (.snoc _ (.snoc _ (.snoc _ (.snoc _ (.base _))))) rfl
theorem div (a0 a1 a2) : Statement (.div a0 a1 a2) := of_word 3 rfl (.snoc _ (.snoc _ (.snoc _ (.snoc _ (.base _))))) rfl
theorem divu (a0 a1 a2) : Statement (.divu a0 a1 a2) := of_word 3 rfl (.snoc _ (.snoc _ (.snoc _ (.snoc _ (.base _))))) rfl
theorem rem (a0 a1 a2) : Statement (.rem a0 a1 a2) := of_word 3 rfl (.snoc _ (.snoc _ (.snoc _ (.snoc _ (.base _))))) rfl
theorem remu (a0 a1 a2) : Statement (.remu a0 a1 a2) := of_word 3 rfl (.snoc _ (.snoc _ (.snoc _ (.snoc _ (.base _))))) rfl
theorem divSat (a0 a1 a2) : Statement (.divSat a0 a1 a2) := of_word 3 rfl (.snoc _ (.snoc _ (.snoc _ (.snoc _ (.base _))))) rfl
theorem addi (a0 a1 a2) : Statement (.addi a0 a1 a2) := of_word 4 rfl (.snoc _ (.snoc _ (.snoc _ (.base _)))) rfl
theorem andi (a0 a1 a2) : Statement (.andi a0 a1 a2) := of_word 5 rfl (.snoc _ (.snoc _ (.snoc _ (.base _)))) rfl
theorem ori (a0 a1 a2) : Statement (.ori a0 a1 a2) := of_word 6 rfl (.snoc _ (.snoc _ (.snoc _ (.base _)))) rfl
theorem xori (a0 a1 a2) : Statement (.xori a0 a1 a2) := of_word 7 rfl (.snoc _ (.snoc _ (.snoc _ (.base _)))) rfl
theorem slti (a0 a1 a2) : Statement (.slti a0 a1 a2) := of_word 8 rfl (.snoc _ (.snoc _ (.snoc _ (.base _)))) rfl
theorem sltiu (a0 a1 a2) : Statement (.sltiu a0 a1 a2) := of_word 9 rfl (.snoc _ (.snoc _ (.snoc _ (.base _)))) rfl
theorem slli (a0 a1 a2) : Statement (.slli a0 a1 a2) := of_word 10 rfl (.snoc _ (.snoc _ (.snoc _ (.snoc _ (.base _))))) rfl
theorem srli (a0 a1 a2) : Statement (.srli a0 a1 a2) := of_word 10 rfl (.snoc _ (.snoc _ (.snoc _ (.snoc _ (.base _))))) rfl
theorem srai (a0 a1 a2) : Statement (.srai a0 a1 a2) := of_word 10 rfl (.snoc _ (.snoc _ (.snoc _ (.snoc _ (.base _))))) rfl
theorem rori (a0 a1 a2) : Statement (.rori a0 a1 a2) := of_word 10 rfl (.snoc _ (.snoc _ (.snoc _ (.snoc _ (.base _))))) rfl
theorem lui (a0 a1) : Statement (.lui a0 a1) := of_word 11 rfl (.snoc _ (.snoc _ (.base _))) rfl
theorem addpc (a0 a1) : Statement (.addpc a0 a1) := of_word 12 rfl (.snoc _ (.snoc _ (.base _))) rfl
theorem ld (a0 a1 a2 a3) : Statement (.ld a0 a1 a2 a3) := of_word 13 rfl (.snoc _ (.snoc _ (.snoc _ (.snoc _ (.base _))))) rfl
theorem st (a0 a1 a2 a3) : Statement (.st a0 a1 a2 a3) := of_word 14 rfl (.snoc _ (.snoc _ (.snoc _ (.snoc _ (.snoc _ (.base _)))))) rfl
theorem amoadd (a0 a1 a2 a3 a4 a5 a6) : Statement (.amoadd a0 a1 a2 a3 a4 a5 a6) := of_word 15 rfl (.snoc _ (.snoc _ (.snoc _ (.snoc _ (.snoc _ (.snoc _ (.snoc _ (.snoc _ (.snoc _ (.base _)))))))))) rfl
theorem amomin (a0 a1 a2 a3 a4 a5 a6) : Statement (.amomin a0 a1 a2 a3 a4 a5 a6) := of_word 15 rfl (.snoc _ (.snoc _ (.snoc _ (.snoc _ (.snoc _ (.snoc _ (.snoc _ (.snoc _ (.snoc _ (.base _)))))))))) rfl
theorem amomax (a0 a1 a2 a3 a4 a5 a6) : Statement (.amomax a0 a1 a2 a3 a4 a5 a6) := of_word 15 rfl (.snoc _ (.snoc _ (.snoc _ (.snoc _ (.snoc _ (.snoc _ (.snoc _ (.snoc _ (.snoc _ (.base _)))))))))) rfl
theorem amominu (a0 a1 a2 a3 a4 a5 a6) : Statement (.amominu a0 a1 a2 a3 a4 a5 a6) := of_word 15 rfl (.snoc _ (.snoc _ (.snoc _ (.snoc _ (.snoc _ (.snoc _ (.snoc _ (.snoc _ (.snoc _ (.base _)))))))))) rfl
theorem amomaxu (a0 a1 a2 a3 a4 a5 a6) : Statement (.amomaxu a0 a1 a2 a3 a4 a5 a6) := of_word 15 rfl (.snoc _ (.snoc _ (.snoc _ (.snoc _ (.snoc _ (.snoc _ (.snoc _ (.snoc _ (.snoc _ (.base _)))))))))) rfl
theorem amoand (a0 a1 a2 a3 a4 a5 a6) : Statement (.amoand a0 a1 a2 a3 a4 a5 a6) := of_word 15 rfl (.snoc _ (.snoc _ (.snoc _ (.snoc _ (.snoc _ (.snoc _ (.snoc _ (.snoc _ (.snoc _ (.base _)))))))))) rfl
theorem amoor (a0 a1 a2 a3 a4 a5 a6) : Statement (.amoor a0 a1 a2 a3 a4 a5 a6) := of_word 15 rfl (.snoc _ (.snoc _ (.snoc _ (.snoc _ (.snoc _ (.snoc _ (.snoc _ (.snoc _ (.snoc _ (.base _)))))))))) rfl
theorem amoxor (a0 a1 a2 a3 a4 a5 a6) : Statement (.amoxor a0 a1 a2 a3 a4 a5 a6) := of_word 15 rfl (.snoc _ (.snoc _ (.snoc _ (.snoc _ (.snoc _ (.snoc _ (.snoc _ (.snoc _ (.snoc _ (.base _)))))))))) rfl
theorem amoswap (a0 a1 a2 a3 a4 a5 a6) : Statement (.amoswap a0 a1 a2 a3 a4 a5 a6) := of_word 15 rfl (.snoc _ (.snoc _ (.snoc _ (.snoc _ (.snoc _ (.snoc _ (.snoc _ (.snoc _ (.snoc _ (.base _)))))))))) rfl
theorem amocas (a0 a1 a2 a3 a4 a5 a6) : Statement (.amocas a0 a1 a2 a3 a4 a5 a6) := of_word 15 rfl (.snoc _ (.snoc _ (.snoc _ (.snoc _ (.snoc _ (.snoc _ (.snoc _ (.snoc _ (.snoc _ (.base _)))))))))) rfl
theorem ldNc (a0 a1 a2 a3) : Statement (.ldNc a0 a1 a2 a3) := of_word 15 rfl (.snoc _ (.snoc _ (.snoc _ (.snoc _ (.snoc _ (.snoc _ (.base _))))))) rfl
theorem beq (a0 a1 a2) : Statement (.beq a0 a1 a2) := of_word 16 rfl (.snoc _ (.snoc _ (.snoc _ (.base _)))) rfl
theorem bne (a0 a1 a2) : Statement (.bne a0 a1 a2) := of_word 17 rfl (.snoc _ (.snoc _ (.snoc _ (.base _)))) rfl
theorem blt (a0 a1 a2) : Statement (.blt a0 a1 a2) := of_word 18 rfl (.snoc _ (.snoc _ (.snoc _ (.base _)))) rfl
theorem bge (a0 a1 a2) : Statement (.bge a0 a1 a2) := of_word 19 rfl (.snoc _ (.snoc _ (.snoc _ (.base _)))) rfl
theorem bltu (a0 a1 a2) : Statement (.bltu a0 a1 a2) := of_word 20 rfl (.snoc _ (.snoc _ (.snoc _ (.base _)))) rfl
theorem bgeu (a0 a1 a2) : Statement (.bgeu a0 a1 a2) := of_word 21 rfl (.snoc _ (.snoc _ (.snoc _ (.base _)))) rfl
theorem jal (a0 a1) : Statement (.jal a0 a1) := of_word 22 rfl (.snoc _ (.snoc _ (.base _))) rfl
theorem jalr (a0 a1 a2) : Statement (.jalr a0 a1 a2) := of_word 23 rfl (.snoc _ (.snoc _ (.snoc _ (.base _)))) rfl
theorem bstrip (a0 a1) : Statement (.bstrip a0 a1) := of_word 24 rfl (.snoc _ (.snoc _ (.snoc _ (.base _)))) rfl
theorem loop (a0 a1 a2 a3 a4 a5 a6) : Statement (.loop a0 a1 a2 a3 a4 a5 a6) := of_word 25 rfl (.snoc _ (.snoc _ (.snoc _ (.snoc _ (.snoc _ (.snoc _ (.snoc _ (.base _)))))))) rfl
theorem eret : Statement (.eret) := of_word 27 rfl (.lit rfl) rfl
theorem halt : Statement (.halt) := of_word 27 rfl (.lit rfl) rfl
theorem wait : Statement (.wait) := of_word 27 rfl (.lit rfl) rfl
theorem brk : Statement (.brk) := of_word 27 rfl (.lit rfl) rfl
theorem trap (a0) : Statement (.trap a0) := of_word 27 rfl (.snoc _ (.lit rfl)) rfl
theorem crd (a0 a1) : Statement (.crd a0 a1) := of_word 28 rfl (.snoc _ (.snoc _ (.snoc _ (.base _)))) rfl
theorem cwr (a0 a1) : Statement (.cwr a0 a1) := of_word 28 rfl (.snoc _ (.snoc _ (.snoc _ (.lit rfl)))) rfl
theorem cset (a0 a1 a2) : Statement (.cset a0 a1 a2) := of_word 28 rfl (.snoc _ (.snoc _ (.snoc _ (.snoc _ (.base _))))) rfl
theorem ccl (a0 a1 a2) : Statement (.ccl a0 a1 a2) := of_word 28 rfl (.snoc _ (.snoc _ (.snoc _ (.snoc _ (.base _))))) rfl
theorem fence (a0) : Statement (.fence a0) := of_word 29 rfl (.snoc _ (.snoc _ (.lit rfl))) rfl
theorem rel (a0) : Statement (.rel a0) := of_word 29 rfl (.snoc _ (.snoc _ (.lit rfl))) rfl
theorem strel (a0 a1 a2 a3) : Statement (.strel a0 a1 a2 a3) := of_word 29 rfl (.snoc _ (.snoc _ (.snoc _ (.snoc _ (.snoc _ (.lit rfl)))))) rfl
theorem ldacq (a0 a1 a2) : Statement (.ldacq a0 a1 a2) := of_word 29 rfl (.snoc _ (.snoc _ (.snoc _ (.snoc _ (.base _))))) rfl
theorem drain : Statement (.drain) := of_word 29 rfl (.lit rfl) rfl
theorem turn (a0 a1 a2) : Statement (.turn a0 a1 a2) := of_word 29 rfl (.snoc _ (.snoc _ (.snoc _ (.snoc _ (.snoc _ (.lit rfl)))))) rfl
theorem turnq (a0 a1 a2) : Statement (.turnq a0 a1 a2) := of_word 29 rfl (.snoc _ (.snoc _ (.snoc _ (.snoc _ (.base _))))) rfl
theorem qsend (a0 a1) : Statement (.qsend a0 a1) := of_word 30 rfl (.snoc _ (.snoc _ (.snoc _ (.snoc _ (.lit rfl))))) rfl
theorem qrecv (a0 a1) : Statement (.qrecv a0 a1) := of_word 30 rfl (.snoc _ (.snoc _ (.snoc _ (.snoc _ (.base _))))) rfl
theorem qpoll (a0 a1 a2) : Statement (.qpoll a0 a1 a2) := of_word 30 rfl (.snoc _ (.snoc _ (.snoc _ (.snoc _ (.snoc _ (.snoc _ (.base _))))))) rfl
theorem qpush (a0 a1 a2) : Statement (.qpush a0 a1 a2) := of_word 30 rfl (.snoc _ (.snoc _ (.snoc _ (.snoc _ (.snoc _ (.lit rfl)))))) rfl
theorem tspawn (a0 a1) : Statement (.tspawn a0 a1) := of_word 31 rfl (.snoc _ (.snoc _ (.snoc _ (.base _)))) rfl
theorem tdep (a0 a1) : Statement (.tdep a0 a1) := of_word 31 rfl (.snoc _ (.snoc _ (.snoc _ (.lit rfl)))) rfl
theorem tdone (a0) : Statement (.tdone a0) := of_word 31 rfl (.snoc _ (.snoc _ (.lit rfl))) rfl
theorem gbar (a0) : Statement (.gbar a0) := of_word 31 rfl (.snoc _ (.snoc _ (.lit rfl))) rfl
theorem tyield : Statement (.tyield) := of_word 31 rfl (.lit rfl) rfl
theorem vsetvl (a0 a1 a2) : Statement (.vsetvl a0 a1 a2) := of_word 32 rfl (.snoc _ (.snoc _ (.snoc _ (.snoc _ (.base _))))) rfl
theorem vadd (a0 a1 a2 a3 a4 a5 a6 a7) : Statement (.vadd a0 a1 a2 a3 a4 a5 a6 a7) := of_word 33 rfl (.snoc _ (.snoc _ (.snoc _ (.snoc _ (.snoc _ (.snoc _ (.snoc _ (.snoc _ (.snoc _ (.base _)))))))))) rfl
theorem vsub (a0 a1 a2 a3 a4 a5 a6 a7) : Statement (.vsub a0 a1 a2 a3 a4 a5 a6 a7) := of_word 33 rfl (.snoc _ (.snoc _ (.snoc _ (.snoc _ (.snoc _ (.snoc _ (.snoc _ (.snoc _ (.snoc _ (.base _)))))))))) rfl
theorem vmul (a0 a1 a2 a3 a4 a5) : Statement (.vmul a0 a1 a2 a3 a4 a5) := of_word 34 rfl (.snoc _ (.snoc _ (.snoc _ (.snoc _ (.snoc _ (.snoc _ (.snoc _ (.base _)))))))) rfl
theorem vmulh (a0 a1 a2 a3 a4 a5) : Statement (.vmulh a0 a1 a2 a3 a4 a5) := of_word 34 rfl (.snoc _ (.snoc _ (.snoc _ (.snoc _ (.snoc _ (.snoc _ (.snoc _ (.base _)))))))) rfl
theorem vmulhu (a0 a1 a2 a3 a4 a5) : Statement (.vmulhu a0 a1 a2 a3 a4 a5) := of_word 34 rfl (.snoc _ (.snoc _ (.snoc _ (.snoc _ (.snoc _ (.snoc _ (.snoc _ (.base _)))))))) rfl
theorem vdiv (a0 a1 a2 a3 a4 a5) : Statement (.vdiv a0 a1 a2 a3 a4 a5) := of_word 34 rfl (.snoc _ (.snoc _ (.snoc _ (.snoc _ (.snoc _ (.snoc _ (.snoc _ (.base _)))))))) rfl
theorem vdivu (a0 a1 a2 a3 a4 a5) : Statement (.vdivu a0 a1 a2 a3 a4 a5) := of_word 34 rfl (.snoc _ (.snoc _ (.snoc _ (.snoc _ (.snoc _ (.snoc _ (.snoc _ (.base _)))))))) rfl
theorem vrem (a0 a1 a2 a3 a4 a5) : Statement (.vrem a0 a1 a2 a3 a4 a5) := of_word 34 rfl (.snoc _ (.snoc _ (.snoc _ (.snoc _ (.snoc _ (.snoc _ (.snoc _ (.base _)))))))) rfl
theorem vremu (a0 a1 a2 a3 a4 a5) : Statement (.vremu a0 a1 a2 a3 a4 a5) := of_word 34 rfl (.snoc _ (.snoc _ (.snoc _ (.snoc _ (.snoc _ (.snoc _ (.snoc _ (.base _)))))))) rfl
theorem vmin (a0 a1 a2 a3 a4 a5) : Statement (.vmin a0 a1 a2 a3 a4 a5) := of_word 34 rfl (.snoc _ (.snoc _ (.snoc _ (.snoc _ (.snoc _ (.snoc _ (.snoc _ (.base _)))))))) rfl
theorem vmax (a0 a1 a2 a3 a4 a5) : Statement (.vmax a0 a1 a2 a3 a4 a5) := of_word 34 rfl (.snoc _ (.snoc _ (.snoc _ (.snoc _ (.snoc _ (.snoc _ (.snoc _ (.base _)))))))) rfl
theorem vminu (a0 a1 a2 a3 a4 a5) : Statement (.vminu a0 a1 a2 a3 a4 a5) := of_word 34 rfl (.snoc _ (.snoc _ (.snoc _ (.snoc _ (.snoc _ (.snoc _ (.snoc _ (.base _)))))))) rfl
theorem vmaxu (a0 a1 a2 a3 a4 a5) : Statement (.vmaxu a0 a1 a2 a3 a4 a5) := of_word 34 rfl (.snoc _ (.snoc _ (.snoc _ (.snoc _ (.snoc _ (.snoc _ (.snoc _ (.base _)))))))) rfl
theorem vand (a0 a1 a2 a3 a4 a5) : Statement (.vand a0 a1 a2 a3 a4 a5) := of_word 34 rfl (.snoc _ (.snoc _ (.snoc _ (.snoc _ (.snoc _ (.snoc _ (.snoc _ (.base _)))))))) rfl
theorem vor (a0 a1 a2 a3 a4 a5) : Statement (.vor a0 a1 a2 a3 a4 a5) := of_word 34 rfl (.snoc _ (.snoc _ (.snoc _ (.snoc _ (.snoc _ (.snoc _ (.snoc _ (.base _)))))))) rfl
theorem vxor (a0 a1 a2 a3 a4 a5) : Statement (.vxor a0 a1 a2 a3 a4 a5) := of_word 34 rfl (.snoc _ (.snoc _ (.snoc _ (.snoc _ (.snoc _ (.snoc _ (.snoc _ (.base _)))))))) rfl
theorem vavg (a0 a1 a2 a3 a4 a5) : Statement (.vavg a0 a1 a2 a3 a4 a5) := of_word 34 rfl (.snoc _ (.snoc _ (.snoc _ (.snoc _ (.snoc _ (.snoc _ (.snoc _ (.base _)))))))) rfl
theorem vabsd (a0 a1 a2 a3 a4 a5) : Statement (.vabsd a0 a1 a2 a3 a4 a5) := of_word 34 rfl (.snoc _ (.snoc _ (.snoc _ (.snoc _ (.snoc _ (.snoc _ (.snoc _ (.base _)))))))) rfl
theorem vaddx (a0 a1 a2 a3 a4 a5) : Statement (.vaddx a0 a1 a2 a3 a4 a5) := of_word 35 rfl (.snoc _ (.snoc _ (.snoc _ (.snoc _ (.snoc _ (.snoc _ (.snoc _ (.base _)))))))) rfl
theorem vsubx (a0 a1 a2 a3 a4 a5) : Statement (.vsubx a0 a1 a2 a3 a4 a5) := of_word 35 rfl (.snoc _ (.snoc _ (.snoc _ (.snoc _ (.snoc _ (.snoc _ (.snoc _ (.base _)))))))) rfl
theorem vrsubx (a0 a1 a2 a3 a4 a5) : Statement (.vrsubx a0 a1 a2 a3 a4 a5) := of_word 35 rfl (.snoc _ (.snoc _ (.snoc _ (.snoc _ (.snoc _ (.snoc _ (.snoc _ (.base _)))))))) rfl
theorem vmulx (a0 a1 a2 a3 a4 a5) : Statement (.vmulx a0 a1 a2 a3 a4 a5) := of_word 35 rfl (.snoc _ (.snoc _ (.snoc _ (.snoc _ (.snoc _ (.snoc _ (.snoc _ (.base _)))))))) rfl
theorem vmulhx (a0 a1 a2 a3 a4 a5) : Statement (.vmulhx a0 a1 a2 a3 a4 a5) := of_word 35 rfl (.snoc _ (.snoc _ (.snoc _ (.snoc _ (.snoc _ (.snoc _ (.snoc _ (.base _)))))))) rfl
theorem vdivx (a0 a1 a2 a3 a4 a5) : Statement (.vdivx a0 a1 a2 a3 a4 a5) := of_word 35 rfl (.snoc _ (.snoc _ (.snoc _ (.snoc _ (.snoc _ (.snoc _ (.snoc _ (.base _)))))))) rfl
theorem vdivux (a0 a1 a2 a3 a4 a5) : Statement (.vdivux a0 a1 a2 a3 a4 a5) := of_word 35 rfl (.snoc _ (.snoc _ (.snoc _ (.snoc _ (.snoc _ (.snoc _ (.snoc _ (.base _)))))))) rfl
theorem vremx (a0 a1 a2 a3 a4 a5) : Statement (.vremx a0 a1 a2 a3 a4 a5) := of_word 35 rfl (.snoc _ (.snoc _ (.snoc _ (.snoc _ (.snoc _ (.snoc _ (.snoc _ (.base _)))))))) rfl
theorem vremux (a0 a1 a2 a3 a4 a5) : Statement (.vremux a0 a1 a2 a3 a4 a5) := of_word 35 rfl (.snoc _ (.snoc _ (.snoc _ (.snoc _ (.snoc _ (.snoc _ (.snoc _ (.base _)))))))) rfl
theorem vminx (a0 a1 a2 a3 a4 a5) : Statement (.vminx a0 a1 a2 a3 a4 a5) := of_word 35 rfl (.snoc _ (.snoc _ (.snoc _ (.snoc _ (.snoc _ (.snoc _ (.snoc _ (.base _)))))))) rfl
theorem vmaxx (a0 a1 a2 a3 a4 a5) : Statement (.vmaxx a0 a1 a2 a3 a4 a5) := of_word 35 rfl (.snoc _ (.snoc _ (.snoc _ (.snoc _ (.snoc _ (.snoc _ (.snoc _ (.base _)))))))) rfl
theorem vminux (a0 a1 a2 a3 a4 a5) : Statement (.vminux a0 a1 a2 a3 a4 a5) := of_word 35 rfl (.snoc _ (.snoc _ (.snoc _ (.snoc _ (.snoc _ (.snoc _ (.snoc _ (.base _)))))))) rfl
theorem vmaxux (a0 a1 a2 a3 a4 a5) : Statement (.vmaxux a0 a1 a2 a3 a4 a5) := of_word 35 rfl (.snoc _ (.snoc _ (.snoc _ (.snoc _ (.snoc _ (.snoc _ (.snoc _ (.base _)))))))) rfl
theorem vandx (a0 a1 a2 a3 a4 a5) : Statement (.vandx a0 a1 a2 a3 a4 a5) := of_word 35 rfl (.snoc _ (.snoc _ (.snoc _ (.snoc _ (.snoc _ (.snoc _ (.snoc _ (.base _)))))))) rfl
theorem vorx (a0 a1 a2 a3 a4 a5) : Statement (.vorx a0 a1 a2 a3 a4 a5) := of_word 35 rfl (.snoc _ (.snoc _ (.snoc _ (.snoc _ (.snoc _ (.snoc _ (.snoc _ (.base _)))))))) rfl
theorem vxorx (a0 a1 a2 a3 a4 a5) : Statement (.vxorx a0 a1 a2 a3 a4 a5) := of_word 35 rfl (.snoc _ (.snoc _ (.snoc _ (.snoc _ (.snoc _ (.snoc _ (.snoc _ (.base _)))))))) rfl
theorem vmacc (a0 a1 a2 a3 a4 a5) : Statement (.vmacc a0 a1 a2 a3 a4 a5) := of_word 36 rfl (.snoc _ (.snoc _ (.snoc _ (.snoc _ (.snoc _ (.snoc _ (.snoc _ (.base _)))))))) rfl
theorem vmsac (a0 a1 a2 a3 a4 a5) : Statement (.vmsac a0 a1 a2 a3 a4 a5) := of_word 36 rfl (.snoc _ (.snoc _ (.snoc _ (.snoc _ (.snoc _ (.snoc _ (.snoc _ (.base _)))))))) rfl
theorem vneg (a0 a1 a2 a3 a4) : Statement (.vneg a0 a1 a2 a3 a4) := of_word 36 rfl (.snoc _ (.snoc _ (.snoc _ (.snoc _ (.snoc _ (.snoc _ (.snoc _ (.base _)))))))) rfl
theorem vabs (a0 a1 a2 a3 a4) : Statement (.vabs a0 a1 a2 a3 a4) := of_word 36 rfl (.snoc _ (.snoc _ (.snoc _ (.snoc _ (.snoc _ (.snoc _ (.snoc _ (.base _)))))))) rfl
theorem vnot (a0 a1 a2 a3 a4) : Statement (.vnot a0 a1 a2 a3 a4) := of_word 36 rfl (.snoc _ (.snoc _ (.snoc _ (.snoc _ (.snoc _ (.snoc _ (.snoc _ (.base _)))))))) rfl
theorem vsqrt (a0 a1 a2 a3 a4) : Statement (.vsqrt a0 a1 a2 a3 a4) := of_word 36 rfl (.snoc _ (.snoc _ (.snoc _ (.snoc _ (.snoc _ (.snoc _ (.snoc _ (.base _)))))))) rfl
theorem vclz (a0 a1 a2 a3 a4) : Statement (.vclz a0 a1 a2 a3 a4) := of_word 36 rfl (.snoc _ (.snoc _ (.snoc _ (.snoc _ (.snoc _ (.snoc _ (.snoc _ (.base _)))))))) rfl
theorem vctz (a0 a1 a2 a3 a4) : Statement (.vctz a0 a1 a2 a3 a4) := of_word 36 rfl (.snoc _ (.snoc _ (.snoc _ (.snoc _ (.snoc _ (.snoc _ (.snoc _ (.base _)))))))) rfl
theorem vpopc (a0 a1 a2 a3 a4) : Statement (.vpopc a0 a1 a2 a3 a4) := of_word 36 rfl (.snoc _ (.snoc _ (.snoc _ (.snoc _ (.snoc _ (.snoc _ (.snoc _ (.base _)))))))) rfl
theorem vmv (a0 a1 a2 a3 a4) : Statement (.vmv a0 a1 a2 a3 a4) := of_word 36 rfl (.snoc _ (.snoc _ (.snoc _ (.snoc _ (.snoc _ (.snoc _ (.snoc _ (.base _)))))))) rfl
theorem vcmpVv (a0 a1 a2 a3 a4 a5 a6) : Statement (.vcmpVv a0 a1 a2 a3 a4 a5 a6) := of_word 37 rfl (.snoc _ (.snoc _ (.snoc _ (.snoc _ (.snoc _ (.snoc _ (.snoc _ (.snoc _ (.lit rfl))))))))) rfl
theorem vcmpVx (a0 a1 a2 a3 a4 a5 a6) : Statement (.vcmpVx a0 a1 a2 a3 a4 a5 a6) := of_word 37 rfl (.snoc _ (.snoc _ (.snoc _ (.snoc _ (.snoc _ (.snoc _ (.snoc _ (.snoc _ (.lit rfl))))))))) rfl
theorem pand (a0 a1 a2) : Statement (.pand a0 a1 a2) := of_word 38 rfl (.snoc _ (.snoc _ (.snoc _ (.snoc _ (.snoc _ (.snoc _ (.lit rfl))))))) rfl
theorem por (a0 a1 a2) : Statement (.por a0 a1 a2) := of_word 38 rfl (.snoc _ (.snoc _ (.snoc _ (.snoc _ (.snoc _ (.snoc _ (.lit rfl))))))) rfl
theorem pxor (a0 a1 a2) : Statement (.pxor a0 a1 a2) := of_word 38 rfl (.snoc _ (.snoc _ (.snoc _ (.snoc _ (.snoc _ (.snoc _ (.lit rfl))))))) rfl
theorem pandn (a0 a1 a2) : Statement (.pandn a0 a1 a2) := of_word 38 rfl (.snoc _ (.snoc _ (.snoc _ (.snoc _ (.snoc _ (.snoc _ (.lit rfl))))))) rfl
theorem pnot (a0 a1) : Statement (.pnot a0 a1) := of_word 38 rfl (.snoc _ (.snoc _ (.snoc _ (.snoc _ (.lit rfl))))) rfl
theorem pleadIncl (a0 a1 a2 a3) : Statement (.pleadIncl a0 a1 a2 a3) := of_word 38 rfl (.snoc _ (.snoc _ (.snoc _ (.snoc _ (.snoc _ (.snoc _ (.snoc _ (.lit rfl)))))))) rfl
theorem pleadExcl (a0 a1 a2 a3) : Statement (.pleadExcl a0 a1 a2 a3) := of_word 38 rfl (.snoc _ (.snoc _ (.snoc _ (.snoc _ (.snoc _ (.snoc _ (.snoc _ (.lit rfl)))))))) rfl
theorem ppopc (a0 a1 a2 a3) : Statement (.ppopc a0 a1 a2 a3) := of_word 38 rfl (.snoc _ (.snoc _ (.snoc _ (.snoc _ (.snoc _ (.snoc _ (.snoc _ (.base _)))))))) rfl
theorem pfind (a0 a1 a2 a3) : Statement (.pfind a0 a1 a2 a3) := of_word 38 rfl (.snoc _ (.snoc _ (.snoc _ (.snoc _ (.snoc _ (.snoc _ (.snoc _ (.base _)))))))) rfl
theorem pset (a0 a1 a2) : Statement (.pset a0 a1 a2) := of_word 38 rfl (.snoc _ (.snoc _ (.snoc _ (.snoc _ (.snoc _ (.lit rfl)))))) rfl
theorem vslideup (a0 a1 a2 a3 a4 a5) : Statement (.vslideup a0 a1 a2 a3 a4 a5) := of_word 39 rfl (.snoc _ (.snoc _ (.snoc _ (.snoc _ (.snoc _ (.snoc _ (.snoc _ (.base _)))))))) rfl
theorem vslidedn (a0 a1 a2 a3 a4 a5) : Statement (.vslidedn a0 a1 a2 a3 a4 a5) := of_word 39 rfl (.snoc _ (.snoc _ (.snoc _ (.snoc _ (.snoc _ (.snoc _ (.snoc _ (.base _)))))))) rfl
theorem vrgather (a0 a1 a2 a3 a4 a5) : Statement (.vrgather a0 a1 a2 a3 a4 a5) := of_word 39 rfl (.snoc _ (.snoc _ (.snoc _ (.snoc _ (.snoc _ (.snoc _ (.snoc _ (.base _)))))))) rfl
theorem vcompress (a0 a1 a2 a3 a4) : Statement (.vcompress a0 a1 a2 a3 a4) := of_word 39 rfl (.snoc _ (.snoc _ (.snoc _ (.snoc _ (.snoc _ (.snoc _ (.snoc _ (.base _)))))))) rfl
theorem viota (a0 a1 a2 a3) : Statement (.viota a0 a1 a2 a3) := of_word 39 rfl (.snoc _ (.snoc _ (.snoc _ (.snoc _ (.snoc _ (.snoc _ (.base _))))))) rfl
theorem vsplat (a0 a1 a2 a3 a4) : Statement (.vsplat a0 a1 a2 a3 a4) := of_word 39 rfl (.snoc _ (.snoc _ (.snoc _ (.snoc _ (.snoc _ (.snoc _ (.snoc _ (.base _)))))))) rfl
theorem vmvx (a0 a1 a2 a3) : Statement (.vmvx a0 a1 a2 a3) := of_word 39 rfl (.snoc _ (.snoc _ (.snoc _ (.snoc _ (.snoc _ (.snoc _ (.base _))))))) rfl
theorem vins (a0 a1 a2 a3) : Statement (.vins a0 a1 a2 a3) := of_word 39 rfl (.snoc _ (.snoc _ (.snoc _ (.snoc _ (.snoc _ (.snoc _ (.base _))))))) rfl
theorem vredsum (a0 a1 a2 a3 a4) : Statement (.vredsum a0 a1 a2 a3 a4) := of_word 40 rfl (.snoc _ (.snoc _ (.snoc _ (.snoc _ (.snoc _ (.snoc _ (.base _))))))) rfl
theorem vredmin (a0 a1 a2 a3 a4) : Statement (.vredmin a0 a1 a2 a3 a4) := of_word 40 rfl (.snoc _ (.snoc _ (.snoc _ (.snoc _ (.snoc _ (.snoc _ (.base _))))))) rfl
theorem vredmax (a0 a1 a2 a3 a4) : Statement (.vredmax a0 a1 a2 a3 a4) := of_word 40 rfl (.snoc _ (.snoc _ (.snoc _ (.snoc _ (.snoc _ (.snoc _ (.base _))))))) rfl
theorem vredminu (a0 a1 a2 a3 a4) : Statement (.vredminu a0 a1 a2 a3 a4) := of_word 40 rfl (.snoc _ (.snoc _ (.snoc _ (.snoc _ (.snoc _ (.snoc _ (.base _))))))) rfl
theorem vredmaxu (a0 a1 a2 a3 a4) : Statement (.vredmaxu a0 a1 a2 a3 a4) := of_word 40 rfl (.snoc _ (.snoc _ (.snoc _ (.snoc _ (.snoc _ (.snoc _ (.base _))))))) rfl
theorem vredand (a0 a1 a2 a3 a4) : Statement (.vredand a0 a1 a2 a3 a4) := of_word 40 rfl (.snoc _ (.snoc _ (.snoc _ (.snoc _ (.snoc _ (.snoc _ (.base _))))))) rfl
theorem vredor (a0 a1 a2 a3 a4) : Statement (.vredor a0 a1 a2 a3 a4) := of_word 40 rfl (.snoc _ (.snoc _ (.snoc _ (.snoc _ (.snoc _ (.snoc _ (.base _))))))) rfl
theorem vredxor (a0 a1 a2 a3 a4) : Statement (.vredxor a0 a1 a2 a3 a4) := of_word 40 rfl (.snoc _ (.snoc _ (.snoc _ (.snoc _ (.snoc _ (.snoc _ (.base _))))))) rfl
theorem vscansum (a0 a1 a2 a3 a4) : Statement (.vscansum a0 a1 a2 a3 a4) := of_word 40 rfl (.snoc _ (.snoc _ (.snoc _ (.snoc _ (.snoc _ (.snoc _ (.snoc _ (.base _)))))))) rfl
theorem vscanmax (a0 a1 a2 a3 a4) : Statement (.vscanmax a0 a1 a2 a3 a4) := of_word 40 rfl (.snoc _ (.snoc _ (.snoc _ (.snoc _ (.snoc _ (.snoc _ (.snoc _ (.base _)))))))) rfl
theorem vscanmin (a0 a1 a2 a3 a4) : Statement (.vscanmin a0 a1 a2 a3 a4) := of_word 40 rfl (.snoc _ (.snoc _ (.snoc _ (.snoc _ (.snoc _ (.snoc _ (.snoc _ (.base _)))))))) rfl
theorem vcvt (a0 a1 a2 a3 a4 a5) : Statement (.vcvt a0 a1 a2 a3 a4 a5) := of_word 41 rfl (.snoc _ (.snoc _ (.snoc _ (.snoc _ (.snoc _ (.snoc _ (.snoc _ (.base _)))))))) rfl
theorem vquant (a0 a1 a2 a3 a4) : Statement (.vquant a0 a1 a2 a3 a4) := of_word 41 rfl (.snoc _ (.snoc _ (.snoc _ (.snoc _ (.snoc _ (.snoc _ (.base _))))))) rfl
theorem vdquant (a0 a1 a2 a3 a4) : Statement (.vdquant a0 a1 a2 a3 a4) := of_word 41 rfl (.snoc _ (.snoc _ (.snoc _ (.snoc _ (.snoc _ (.snoc _ (.base _))))))) rfl
theorem vsll (a0 a1 a2 a3 a4 a5) : Statement (.vsll a0 a1 a2 a3 a4 a5) := of_word 42 rfl (.snoc _ (.snoc _ (.snoc _ (.snoc _ (.snoc _ (.snoc _ (.snoc _ (.base _)))))))) rfl
theorem vsrl (a0 a1 a2 a3 a4 a5) : Statement (.vsrl a0 a1 a2 a3 a4 a5) := of_word 42 rfl (.snoc _ (.snoc _ (.snoc _ (.snoc _ (.snoc _ (.snoc _ (.snoc _ (.base _)))))))) rfl
theorem vsra (a0 a1 a2 a3 a4 a5) : Statement (.vsra a0 a1 a2 a3 a4 a5) := of_word 42 rfl (.snoc _ (.snoc _ (.snoc _ (.snoc _ (.snoc _ (.snoc _ (.snoc _ (.base _)))))))) rfl
theorem vrol (a0 a1 a2 a3 a4 a5) : Statement (.vrol a0 a1 a2 a3 a4 a5) := of_word 42 rfl (.snoc _ (.snoc _ (.snoc _ (.snoc _ (.snoc _ (.snoc _ (.snoc _ (.base _)))))))) rfl
theorem vbfx (a0 a1 a2 a3 a4 a5) : Statement (.vbfx a0 a1 a2 a3 a4 a5) := of_word 42 rfl (.snoc _ (.snoc _ (.snoc _ (.snoc _ (.snoc _ (.snoc _ (.snoc _ (.base _)))))))) rfl
theorem vbfxu (a0 a1 a2 a3 a4 a5) : Statement (.vbfxu a0 a1 a2 a3 a4 a5) := of_word 42 rfl (.snoc _ (.snoc _ (.snoc _ (.snoc _ (.snoc _ (.snoc _ (.snoc _ (.base _)))))))) rfl
theorem vbfi (a0 a1 a2 a3 a4 a5) : Statement (.vbfi a0 a1 a2 a3 a4 a5) := of_word 42 rfl (.snoc _ (.snoc _ (.snoc _ (.snoc _ (.snoc _ (.snoc _ (.snoc _ (.base _)))))))) rfl
theorem vfsl (a0 a1 a2 a3 a4 a5) : Statement (.vfsl a0 a1 a2 a3 a4 a5) := of_word 42 rfl (.snoc _ (.snoc _ (.snoc _ (.snoc _ (.snoc _ (.snoc _ (.snoc _ (.base _)))))))) rfl
theorem vfsr (a0 a1 a2 a3 a4 a5) : Statement (.vfsr a0 a1 a2 a3 a4 a5) := of_word 42 rfl (.snoc _ (.snoc _ (.snoc _ (.snoc _ (.snoc _ (.snoc _ (.snoc _ (.base _)))))))) rfl
theorem vaddi (a0 a1 a2 a3 a4 a5) : Statement (.vaddi a0 a1 a2 a3 a4 a5) := of_word 43 rfl (.snoc _ (.snoc _ (.snoc _ (.snoc _ (.snoc _ (.snoc _ (.snoc _ (.base _)))))))) rfl
theorem vrsubi (a0 a1 a2 a3 a4 a5) : Statement (.vrsubi a0 a1 a2 a3 a4 a5) := of_word 43 rfl (.snoc _ (.snoc _ (.snoc _ (.snoc _ (.snoc _ (.snoc _ (.snoc _ (.base _)))))))) rfl
theorem vandi (a0 a1 a2 a3 a4 a5) : Statement (.vandi a0 a1 a2 a3 a4 a5) := of_word 43 rfl (.snoc _ (.snoc _ (.snoc _ (.snoc _ (.snoc _ (.snoc _ (.snoc _ (.base _)))))))) rfl
theorem vori (a0 a1 a2 a3 a4 a5) : Statement (.vori a0 a1 a2 a3 a4 a5) := of_word 43 rfl (.snoc _ (.snoc _ (.snoc _ (.snoc _ (.snoc _ (.snoc _ (.snoc _ (.base _)))))))) rfl
theorem vxori (a0 a1 a2 a3 a4 a5) : Statement (.vxori a0 a1 a2 a3 a4 a5) := of_word 43 rfl (.snoc _ (.snoc _ (.snoc _ (.snoc _ (.snoc _ (.snoc _ (.snoc _ (.base _)))))))) rfl
theorem vslli (a0 a1 a2 a3 a4 a5) : Statement (.vslli a0 a1 a2 a3 a4 a5) := of_word 43 rfl (.snoc _ (.snoc _ (.snoc _ (.snoc _ (.snoc _ (.snoc _ (.snoc _ (.base _)))))))) rfl
theorem vsrli (a0 a1 a2 a3 a4 a5) : Statement (.vsrli a0 a1 a2 a3 a4 a5) := of_word 43 rfl (.snoc _ (.snoc _ (.snoc _ (.snoc _ (.snoc _ (.snoc _ (.snoc _ (.base _)))))))) rfl
theorem vsrai (a0 a1 a2 a3 a4 a5) : Statement (.vsrai a0 a1 a2 a3 a4 a5) := of_word 43 rfl (.snoc _ (.snoc _ (.snoc _ (.snoc _ (.snoc _ (.snoc _ (.snoc _ (.base _)))))))) rfl
theorem vsplati (a0 a1 a2 a3 a4) : Statement (.vsplati a0 a1 a2 a3 a4) := of_word 43 rfl (.snoc _ (.snoc _ (.snoc _ (.snoc _ (.snoc _ (.snoc _ (.snoc _ (.base _)))))))) rfl
theorem vmini (a0 a1 a2 a3 a4 a5) : Statement (.vmini a0 a1 a2 a3 a4 a5) := of_word 43 rfl (.snoc _ (.snoc _ (.snoc _ (.snoc _ (.snoc _ (.snoc _ (.snoc _ (.base _)))))))) rfl
theorem vmaxi (a0 a1 a2 a3 a4 a5) : Statement (.vmaxi a0 a1 a2 a3 a4 a5) := of_word 43 rfl (.snoc _ (.snoc _ (.snoc _ (.snoc _ (.snoc _ (.snoc _ (.snoc _ (.base _)))))))) rfl
theorem vldUnit (a0 a1 a2 a3 a4 a5) : Statement (.vldUnit a0 a1 a2 a3 a4 a5) := of_word 44 rfl (.snoc _ (.snoc _ (.snoc _ (.snoc _ (.snoc _ (.snoc _ (.snoc _ (.snoc _ (.base _))))))))) rfl
theorem vldStrided (a0 a1 a2 a3 a4 a5 a6) : Statement (.vldStrided a0 a1 a2 a3 a4 a5 a6) := of_word 44 rfl (.snoc _ (.snoc _ (.snoc _ (.snoc _ (.snoc _ (.snoc _ (.snoc _ (.snoc _ (.base _))))))))) rfl
theorem vldIndexed (a0 a1 a2 a3 a4 a5 a6) : Statement (.vldIndexed a0 a1 a2 a3 a4 a5 a6) := of_word 44 rfl (.snoc _ (.snoc _ (.snoc _ (.snoc _ (.snoc _ (.snoc _ (.snoc _ (.snoc _ (.base _))))))))) rfl
theorem vldff (a0 a1 a2 a3 a4) : Statement (.vldff a0 a1 a2 a3 a4) := of_word 44 rfl (.snoc _ (.snoc _ (.snoc _ (.snoc _ (.snoc _ (.snoc _ (.snoc _ (.base _)))))))) rfl
theorem vstUnit (a0 a1 a2 a3 a4 a5) : Statement (.vstUnit a0 a1 a2 a3 a4 a5) := of_word 45 rfl (.snoc _ (.snoc _ (.snoc _ (.snoc _ (.snoc _ (.snoc _ (.snoc _ (.snoc _ (.base _))))))))) rfl
theorem vstStrided (a0 a1 a2 a3 a4 a5 a6) : Statement (.vstStrided a0 a1 a2 a3 a4 a5 a6) := of_word 45 rfl (.snoc _ (.snoc _ (.snoc _ (.snoc _ (.snoc _ (.snoc _ (.snoc _ (.snoc _ (.base _))))))))) rfl
theorem vstIndexed (a0 a1 a2 a3 a4 a5 a6) : Statement (.vstIndexed a0 a1 a2 a3 a4 a5 a6) := of_word 45 rfl (.snoc _ (.snoc _ (.snoc _ (.snoc _ (.snoc _ (.snoc _ (.snoc _ (.snoc _ (.base _))))))))) rfl
theorem vldl (a0 a1 a2 a3 a4 a5) : Statement (.vldl a0 a1 a2 a3 a4 a5) := of_word 46 rfl (.snoc _ (.snoc _ (.snoc _ (.snoc _ (.snoc _ (.snoc _ (.snoc _ (.snoc _ (.base _))))))))) rfl
theorem vstl (a0 a1 a2 a3 a4) : Statement (.vstl a0 a1 a2 a3 a4) := of_word 46 rfl (.snoc _ (.snoc _ (.snoc _ (.snoc _ (.snoc _ (.snoc _ (.snoc _ (.base _)))))))) rfl
theorem sfull (a0) : Statement (.sfull a0) := of_word 46 rfl (.snoc _ (.snoc _ (.lit rfl))) rfl
theorem sempty (a0) : Statement (.sempty a0) := of_word 46 rfl (.snoc _ (.snoc _ (.lit rfl))) rfl
theorem sprobe (a0 a1) : Statement (.sprobe a0 a1) := of_word 46 rfl (.snoc _ (.snoc _ (.snoc _ (.base _)))) rfl
theorem vamoadd (a0 a1 a2 a3 a4 a5) : Statement (.vamoadd a0 a1 a2 a3 a4 a5) := of_word 47 rfl (.snoc _ (.snoc _ (.snoc _ (.snoc _ (.snoc _ (.snoc _ (.snoc _ (.snoc _ (.base _))))))))) rfl
theorem vamomin (a0 a1 a2 a3 a4 a5) : Statement (.vamomin a0 a1 a2 a3 a4 a5) := of_word 47 rfl (.snoc _ (.snoc _ (.snoc _ (.snoc _ (.snoc _ (.snoc _ (.snoc _ (.snoc _ (.base _))))))))) rfl
theorem vamomax (a0 a1 a2 a3 a4 a5) : Statement (.vamomax a0 a1 a2 a3 a4 a5) := of_word 47 rfl (.snoc _ (.snoc _ (.snoc _ (.snoc _ (.snoc _ (.snoc _ (.snoc _ (.snoc _ (.base _))))))))) rfl
theorem vamominu (a0 a1 a2 a3 a4 a5) : Statement (.vamominu a0 a1 a2 a3 a4 a5) := of_word 47 rfl (.snoc _ (.snoc _ (.snoc _ (.snoc _ (.snoc _ (.snoc _ (.snoc _ (.snoc _ (.base _))))))))) rfl
theorem vamomaxu (a0 a1 a2 a3 a4 a5) : Statement (.vamomaxu a0 a1 a2 a3 a4 a5) := of_word 47 rfl (.snoc _ (.snoc _ (.snoc _ (.snoc _ (.snoc _ (.snoc _ (.snoc _ (.snoc _ (.base _))))))))) rfl
theorem vamoand (a0 a1 a2 a3 a4 a5) : Statement (.vamoand a0 a1 a2 a3 a4 a5) := of_word 47 rfl (.snoc _ (.snoc _ (.snoc _ (.snoc _ (.snoc _ (.snoc _ (.snoc _ (.snoc _ (.base _))))))))) rfl
theorem vamoor (a0 a1 a2 a3 a4 a5) : Statement (.vamoor a0 a1 a2 a3 a4 a5) := of_word 47 rfl (.snoc _ (.snoc _ (.snoc _ (.snoc _ (.snoc _ (.snoc _ (.snoc _ (.snoc _ (.base _))))))))) rfl
theorem vamoxor (a0 a1 a2 a3 a4 a5) : Statement (.vamoxor a0 a1 a2 a3 a4 a5) := of_word 47 rfl (.snoc _ (.snoc _ (.snoc _ (.snoc _ (.snoc _ (.snoc _ (.snoc _ (.snoc _ (.base _))))))))) rfl
theorem vamoswap (a0 a1 a2 a3 a4 a5) : Statement (.vamoswap a0 a1 a2 a3 a4 a5) := of_word 47 rfl (.snoc _ (.snoc _ (.snoc _ (.snoc _ (.snoc _ (.snoc _ (.snoc _ (.snoc _ (.base _))))))))) rfl
theorem redst (a0 a1 a2 a3 a4) : Statement (.redst a0 a1 a2 a3 a4) := of_word 47 rfl (.snoc _ (.snoc _ (.snoc _ (.snoc _ (.snoc _ (.snoc _ (.base _))))))) rfl
theorem gather (a0 a1 a2 a3 a4 a5) : Statement (.gather a0 a1 a2 a3 a4 a5) := of_word 47 rfl (.snoc _ (.snoc _ (.snoc _ (.snoc _ (.snoc _ (.snoc _ (.snoc _ (.snoc _ (.base _))))))))) rfl
theorem mattach (a0 a1 a2) : Statement (.mattach a0 a1 a2) := of_word 48 rfl (.snoc _ (.snoc _ (.snoc _ (.snoc _ (.snoc _ (.base _)))))) rfl
theorem mdetach : Statement (.mdetach) := of_word 48 rfl (.lit rfl) rfl
theorem mmode (a0) : Statement (.mmode a0) := of_word 48 rfl (.snoc _ (.snoc _ (.lit rfl))) rfl
theorem mexit : Statement (.mexit) := of_word 48 rfl (.lit rfl) rfl
theorem mzero (a0) : Statement (.mzero a0) := of_word 48 rfl (.snoc _ (.lit rfl)) rfl
theorem mrank (a0 a1 a2 a3 a4 a5 a6) : Statement (.mrank a0 a1 a2 a3 a4 a5 a6) := of_word 49 rfl (.snoc _ (.snoc _ (.snoc _ (.snoc _ (.snoc _ (.snoc _ (.snoc _ (.base _)))))))) rfl
theorem mma (a0 a1 a2 a3 a4 a5 a6) : Statement (.mma a0 a1 a2 a3 a4 a5 a6) := of_word 50 rfl (.snoc _ (.snoc _ (.snoc _ (.snoc _ (.snoc _ (.snoc _ (.snoc _ (.base _)))))))) rfl
theorem mmas (a0 a1 a2 a3 a4 a5 a6) : Statement (.mmas a0 a1 a2 a3 a4 a5 a6) := of_word 51 rfl (.snoc _ (.snoc _ (.snoc _ (.snoc _ (.snoc _ (.snoc _ (.snoc _ (.base _)))))))) rfl
theorem mld (a0 a1 a2 a3) : Statement (.mld a0 a1 a2 a3) := of_word 52 rfl (.snoc _ (.snoc _ (.snoc _ (.snoc _ (.snoc _ (.snoc _ (.snoc _ (.base _)))))))) rfl
theorem mst (a0 a1 a2 a3) : Statement (.mst a0 a1 a2 a3) := of_word 52 rfl (.snoc _ (.snoc _ (.snoc _ (.snoc _ (.snoc _ (.snoc _ (.snoc _ (.base _)))))))) rfl
theorem mcvt (a0 a1 a2 a3 a4 a5) : Statement (.mcvt a0 a1 a2 a3 a4 a5) := of_word 53 rfl (.snoc _ (.snoc _ (.snoc _ (.snoc _ (.snoc _ (.snoc _ (.snoc _ (.snoc _ (.snoc _ (.base _)))))))))) rfl
theorem cpset (a0 a1 a2 a3) : Statement (.cpset a0 a1 a2 a3) := of_word 56 rfl (.snoc _ (.snoc _ (.snoc _ (.snoc _ (.snoc _ (.snoc _ (.base _))))))) rfl
theorem cpgo (a0 a1 a2 a3 a4 a5 a6 a7) : Statement (.cpgo a0 a1 a2 a3 a4 a5 a6 a7) := of_word 56 rfl (.snoc _ (.snoc _ (.snoc _ (.snoc _ (.snoc _ (.snoc _ (.snoc _ (.snoc _ (.snoc _ (.snoc _ (.base _))))))))))) rfl
theorem cpq (a0 a1) : Statement (.cpq a0 a1) := of_word 56 rfl (.snoc _ (.snoc _ (.snoc _ (.base _)))) rfl
theorem swm (a0 a1) : Statement (.swm a0 a1) := of_word 57 rfl (.snoc _ (.snoc _ (.snoc _ (.base _)))) rfl
theorem swin (a0 a1) : Statement (.swin a0 a1) := of_word 57 rfl (.snoc _ (.snoc _ (.snoc _ (.base _)))) rfl
theorem semit (a0 a1) : Statement (.semit a0 a1) := of_word 57 rfl (.snoc _ (.snoc _ (.snoc _ (.lit rfl)))) rfl
theorem sidle (a0 a1) : Statement (.sidle a0 a1) := of_word 57 rfl (.snoc _ (.snoc _ (.snoc _ (.lit rfl)))) rfl
theorem capq (a0) : Statement (.capq a0) := of_word 58 rfl (.snoc _ (.snoc _ (.base _))) rfl
theorem outboundDrain (a0 a1 a2) : Statement (.outboundDrain a0 a1 a2) := of_event rfl
theorem o3Writeback (a0) : Statement (.o3Writeback a0) := of_event rfl
theorem multicastReserveForward (a0) : Statement (.multicastReserveForward a0) := of_event rfl
theorem copyCommand (a0) : Statement (.copyCommand a0) := of_event rfl
theorem engineFaultDelivery (a0) : Statement (.engineFaultDelivery a0) := of_event rfl
theorem interrupt (a0) : Statement (.interrupt a0) := of_event rfl
theorem barrierOpen (a0 a1 a2) : Statement (.barrierOpen a0 a1 a2) := of_event rfl
theorem tileGrantWaiter (a0) : Statement (.tileGrantWaiter a0) := of_event rfl
theorem walkerEmit (a0) : Statement (.walkerEmit a0) := of_event rfl
theorem residencyGranted (a0) : Statement (.residencyGranted a0) := of_event rfl
theorem residencyFailed (a0 a1) : Statement (.residencyFailed a0 a1) := of_event rfl
theorem aging (a0) : Statement (.aging a0) := of_event rfl
theorem stageRecord (a0) : Statement (.stageRecord a0) := of_event rfl
theorem preloadLineLand (a0) : Statement (.preloadLineLand a0) := of_event rfl
theorem hartStart (a0) : Statement (.hartStart a0) := of_event rfl
theorem budgetOverrun (a0) : Statement (.budgetOverrun a0) := of_event rfl
theorem machineFault (a0) : Statement (.machineFault a0) := of_event rfl
theorem correctedError (a0) : Statement (.correctedError a0) := of_event rfl
theorem stepRetire (a0) : Statement (.stepRetire a0) := of_event rfl
theorem completionRecordWrite : Statement (.completionRecordWrite) := of_event rfl
theorem timerDeadline (a0) : Statement (.timerDeadline a0) := of_event rfl
theorem pageMoveIn (a0 a1 a2) : Statement (.pageMoveIn a0 a1 a2) := of_event rfl
theorem pageMoveOut (a0 a1) : Statement (.pageMoveOut a0 a1) := of_event rfl
theorem extend (a0) : Statement (.extend a0) := of_event rfl
theorem retry : Statement (.retry) := of_event rfl
theorem kill : Statement (.kill) := of_event rfl
theorem preempt (a0) : Statement (.preempt a0) := of_event rfl
theorem timer : Statement (.timer) := of_event rfl
theorem bindRecordWrite (a0 a1) : Statement (.bindRecordWrite a0 a1) := of_event rfl
theorem routeInstall (a0) : Statement (.routeInstall a0) := of_event rfl
theorem routeRemove (a0) : Statement (.routeRemove a0) := of_event rfl
theorem crngWrite (a0 a1 a2) : Statement (.crngWrite a0 a1 a2) := of_event rfl
theorem graphEnable (a0 a1) : Statement (.graphEnable a0 a1) := of_event rfl
theorem graphDisable (a0 a1) : Statement (.graphDisable a0 a1) := of_event rfl
theorem scdataWrite (a0) : Statement (.scdataWrite a0) := of_event rfl
theorem lcmd (a0) : Statement (.lcmd a0) := of_event rfl
theorem tlbInvalidation (a0 a1) : Statement (.tlbInvalidation a0 a1) := of_event rfl
theorem registerWrite (a0 a1) : Statement (.registerWrite a0 a1) := of_event rfl
theorem launch (a0 a1 a2) : Statement (.launch a0 a1 a2) := of_event rfl
theorem querySelfTest (a0) : Statement (.querySelfTest a0) := of_event rfl
theorem queryCapv (a0) : Statement (.queryCapv a0) := of_event rfl
theorem queryRetirementLog (a0 a1) : Statement (.queryRetirementLog a0 a1) := of_event rfl
theorem queryLiveLaunches (a0) : Statement (.queryLiveLaunches a0) := of_event rfl
theorem pageToDevice (a0 a1 a2 a3) : Statement (.pageToDevice a0 a1 a2 a3) := of_event rfl
theorem pageToHost (a0 a1 a2) : Statement (.pageToHost a0 a1 a2) := of_event rfl
theorem pageResponse (a0 a1 a2 a3) : Statement (.pageResponse a0 a1 a2 a3) := of_event rfl
theorem streamBindSource (a0 a1 a2) : Statement (.streamBindSource a0 a1 a2) := of_event rfl
theorem streamBindOutput (a0 a1 a2) : Statement (.streamBindOutput a0 a1 a2) := of_event rfl
theorem window (a0 a1 a2) : Statement (.window a0 a1 a2) := of_event rfl
theorem getVersion (a0 a1) : Statement (.getVersion a0 a1) := of_event rfl
theorem getCapabilities (a0 a1) : Statement (.getCapabilities a0 a1) := of_event rfl
theorem negotiateAlgorithms (a0 a1) : Statement (.negotiateAlgorithms a0 a1) := of_event rfl
theorem getDigests (a0 a1) : Statement (.getDigests a0 a1) := of_event rfl
theorem getCertificate (a0 a1) : Statement (.getCertificate a0 a1) := of_event rfl
theorem challenge (a0 a1) : Statement (.challenge a0 a1) := of_event rfl
theorem getMeasurements (a0 a1) : Statement (.getMeasurements a0 a1) := of_event rfl
theorem unsupportedRequest (a0 a1) : Statement (.unsupportedRequest a0 a1) := of_event rfl
theorem remoteWrite (a0 a1 a2 a3) : Statement (.remoteWrite a0 a1 a2 a3) := of_event rfl
theorem remoteRead (a0 a1 a2 a3) : Statement (.remoteRead a0 a1 a2 a3) := of_event rfl
theorem discardedPacket (a0) : Statement (.discardedPacket a0) := of_event rfl
theorem streamRecord (a0 a1 a2 a3 a4) : Statement (.streamRecord a0 a1 a2 a3 a4) := of_event rfl
theorem watermarkRecord (a0 a1 a2 a3) : Statement (.watermarkRecord a0 a1 a2 a3) := of_event rfl
theorem idleTimeout (a0 a1) : Statement (.idleTimeout a0 a1) := of_event rfl
theorem amenddelayExpiry (a0 a1) : Statement (.amenddelayExpiry a0 a1) := of_event rfl
theorem outputWatermark (a0 a1) : Statement (.outputWatermark a0 a1) := of_event rfl
theorem slotReclaim (a0) : Statement (.slotReclaim a0) := of_event rfl
theorem stalledRecordDeposit (a0 a1) : Statement (.stalledRecordDeposit a0 a1) := of_event rfl
theorem leaseInterval (a0) : Statement (.leaseInterval a0) := of_event rfl
theorem leasePatienceExpiry (a0 a1) : Statement (.leasePatienceExpiry a0 a1) := of_event rfl
theorem drainComplete (a0 a1) : Statement (.drainComplete a0 a1) := of_event rfl
theorem patternRunComplete (a0 a1 a2 a3) : Statement (.patternRunComplete a0 a1 a2 a3) := of_event rfl
theorem pseudoChannelRemap (a0) : Statement (.pseudoChannelRemap a0) := of_event rfl
theorem scoreHalving : Statement (.scoreHalving) := of_event rfl
theorem powerOn (a0) : Statement (.powerOn a0) := of_event rfl
theorem thermalStep (a0 a1) : Statement (.thermalStep a0 a1) := of_event rfl
theorem energyInterval (a0) : Statement (.energyInterval a0) := of_event rfl
theorem illegalWord (a0) : Statement (.illegalWord a0) := of_event rfl
theorem fetchFault : Statement (.fetchFault) := of_event rfl
theorem managementCoreStore (a0 a1) : Statement (.managementCoreStore a0 a1) := of_event rfl
theorem ieee1588Sync (a0) : Statement (.ieee1588Sync a0) := of_event rfl

end Sys2Proof.Laws.WellFormedEncoding
end

