-- ==== Sys2Proof/Laws/Registers.lean ====
section
/-! SUPPORT. Registers read after a write, and everything that a completed instruction on registers leaves. -/

namespace Sys2Proof.Machine

theorem Hart.xreg_setX (h : Hart) (d r : XIdx) (v : Word) :
    (h.setX d v).xreg r = if r = d ∧ r ≠ 0 then v else h.xreg r := by
  by_cases hr : r = 0
  · simp [Hart.xreg, hr]
  · by_cases hd : d = 0
    · subst hd; simp [Hart.setX]
    · by_cases e : r = d
      · subst e
        have hr' : ¬ r = 0#5 := hr
        simp [Hart.xreg, Hart.setX, hr']
      · have hne : d.toNat ≠ r.toNat := fun c => e (BitVec.eq_of_toNat_eq c.symm)
        simp only [Hart.xreg, Hart.setX, hr, hd, e, if_false, false_and]
        exact Vector.getElem_set_ne (hi := d.isLt) (hj := r.isLt) hne

theorem Hart.vreg_setV (h : Hart) (d r : VIdx) (v : VReg) :
    (h.setV d v).vreg r = if r = d then v else h.vreg r := by
  by_cases e : r = d
  · subst e; simp [Hart.vreg, Hart.setV]
  · have hne : d.toNat ≠ r.toNat := fun c => e (BitVec.eq_of_toNat_eq c.symm)
    simp only [Hart.vreg, Hart.setV, e, if_false]
    exact Vector.getElem_set_ne (hi := d.isLt) (hj := r.isLt) hne

theorem Hart.preg_setP (h : Hart) (d r : PIdx) (v : PReg) :
    (h.setP d v).preg r = if r = d ∧ r ≠ 0 then v else h.preg r := by
  by_cases hr : r = 0
  · simp [Hart.preg, hr]
  · by_cases hd : d = 0
    · subst hd; simp [Hart.setP]
    · by_cases e : r = d
      · subst e
        have hr' : ¬ r = 0#4 := hr
        simp [Hart.preg, Hart.setP, hr']
      · have hne : d.toNat ≠ r.toNat := fun c => e (BitVec.eq_of_toNat_eq c.symm)
        simp only [Hart.preg, Hart.setP, hr, hd, e, if_false, false_and]
        exact Vector.getElem_set_ne (hi := d.isLt) (hj := r.isLt) hne

@[simp] theorem Hart.xreg_advance (h : Hart) (r : XIdx) : h.advance.xreg r = h.xreg r := rfl
@[simp] theorem Hart.vreg_advance (h : Hart) (r : VIdx) : h.advance.vreg r = h.vreg r := rfl
@[simp] theorem Hart.preg_advance (h : Hart) (r : PIdx) : h.advance.preg r = h.preg r := rfl

/-- Completing an instruction depends on the pc, the frames and SUSP alone. -/
theorem Hart.goneOn_of_ctl {h g : Hart} (hp : g.pc = h.pc) (hf : g.frames = h.frames) (hs : g.susp = h.susp) :
    GoneOn h g.advance := by
  constructor <;> simp [Hart.advance, Hart.goOn, Hart.framesAct, hp, hf, hs]

theorem Hart.advance_frame (h : Hart) : CtlFrame h h.advance := rfl

/-- Everything that a register-only instruction with a scalar result leaves. -/
theorem gives_of_nextX {i : Instr} {s : State} {d : XIdx} {v : Word} (h : exec i s = nextX s d v) : GivesX i s d v := by
  refine ⟨_, h, rfl, Hart.goneOn_of_ctl ?_ ?_ ?_, ?_, fun r => ?_⟩
  · exact Hart.setX_pc ..
  · exact Hart.setX_frames ..
  · exact Hart.setX_susp ..
  · by_cases hd : d = 0
    · subst hd; rfl
    · have hd' : ¬ d = 0#5 := hd
      simp [XFrame, advance, setX, Hart.setX, hd', Hart.advance, Hart.goOn]
  · exact Hart.xreg_setX ..

end Sys2Proof.Machine
end

