-- ==== Sys2Proof/Tests/Slice0.lean ====
section
/-! SUPPORT. Tests: ill-formed terms, words written out field by field from the encoding tables, one step on small states with
results taken from the spec's text, and concrete states that meet the hypotheses of the statements. -/

set_option maxRecDepth 1000000
set_option exponentiation.threshold 40000

namespace Sys2Proof.Tests

open Sys2Proof Sys2Proof.Machine

/-! ## Small states -/

/-- A register file with the listed registers. -/
def regs (l : List (Nat × Word)) : Vector Word 32 := l.foldl (fun v p => v.set! p.1 p.2) (Vector.replicate 32 0)

/-- A machine whose slot 0 runs with a hart made from the reset hart, with virtual page 1 of launch 0 cached as 0x10000. -/
def base (f : Hart → Hart) : State :=
  { State.reset with
    hart := f Hart.reset
    slots := [(0, { Slot.reset with st := .running })]
    clusters := [(0, { ClusterSt.reset with tlb := [⟨0, 1, false, 0x8F00000000010000⟩] })] }

/-- `base` with scalar registers. -/
def withX (l : List (Nat × Word)) : State := base fun h => { h with x := regs l }

/-- The state an instruction leaves. -/
def after (i : Instr) (s : State) : State :=
  match exec i s with
  | .next t => t
  | _ => s

/-- A scalar register after an instruction. -/
def xAfter (i : Instr) (s : State) (r : XIdx) : Word := (after i s).hart.xreg r

/-- An innermost frame whose body is the two instructions at 8 and 12. -/
def frame2 : Frame := ⟨1, 8, 2, 3, 0, 0, 0, 0, 0⟩

/-! ## Well-formedness -/

theorem test_illFormed_fields :
    ¬ WellFormed (.bfx 1 2 1 63) ∧ ¬ WellFormed (.bfxu 1 2 60 4) ∧ ¬ WellFormed (.bfi 1 2 63 1) ∧
    ¬ WellFormed (.loop 1 2 6 0 0 0 0) ∧ ¬ WellFormed (.crd 1 8) ∧ ¬ WellFormed (.cwr 1 0x17) ∧
    ¬ WellFormed (.cset 1 2 0x36) ∧ ¬ WellFormed (.ccl 1 2 0x71) ∧ ¬ WellFormed (.cpset 1 2 3 12) := by
  simp only [WellFormed]; decide

theorem test_illFormed_predicate :
    ¬ WellFormed (.vadd 1 2 3 0 .w false .rne true) ∧ ¬ WellFormed (.vand 1 2 3 0 .b true) ∧
    ¬ WellFormed (.vaddx 1 2 3 0 .b true) ∧ ¬ WellFormed (.vmv 1 2 0 .b true) ∧ ¬ WellFormed (.vcmpVv .eq 1 2 3 0 .w true) ∧
    ¬ WellFormed (.viota 1 0 .h true) ∧ ¬ WellFormed (.vscansum 1 2 0 .h true) ∧ ¬ WellFormed (.vsll 1 2 3 0 .h true) ∧
    ¬ WellFormed (.vaddi 1 2 3 0 .h true) ∧ ¬ WellFormed (.vldl 1 2 3 0 .h true) ∧
    ¬ WellFormed (.vamoadd 1 2 3 0 true true) ∧ ¬ WellFormed (.gather 1 2 3 0 true true) := by
  simp only [WellFormed]; decide

theorem test_illFormed_formats :
    ¬ WellFormed (.vcvt .e8m0 .f32 1 2 .rne false) ∧ ¬ WellFormed (.vcvt .f32 .rns3 1 2 .rne false) ∧
    ¬ WellFormed (.vquant .i16 .f32 1 2 3) ∧ ¬ WellFormed (.vdquant .i32 .e4m3 1 2 3) ∧
    ¬ WellFormed (.mcvt 1 .i8 .f32 2 .rne false) ∧ ¬ WellFormed (.mma 1 2 3 0 0 .f32 false) ∧
    ¬ WellFormed (.mmas 1 2 3 0 0 .i32 false) ∧ ¬ WellFormed (.mrank 1 2 3 0 0 .e8m0 false) ∧
    ¬ WellFormed (.mld 1 2 0 .bf16) ∧ ¬ WellFormed (.mst 1 2 0 .i8) := by
  simp only [WellFormed]; decide

theorem test_illFormed_spaces :
    ¬ WellFormed (.vldUnit 1 2 1 .w true .ls) ∧ ¬ WellFormed (.vstUnit 1 2 1 .w true .ls) ∧
    ¬ WellFormed (.vldStrided 1 2 3 1 .w false .ls) ∧ ¬ WellFormed (.vldIndexed 1 2 3 1 .w false .ls) ∧
    ¬ WellFormed (.vstStrided 1 2 3 1 .w false .ls) ∧ ¬ WellFormed (.vstIndexed 1 2 3 1 .w false .ls) := by
  simp only [WellFormed]; decide

theorem test_illFormed_events :
    ¬ WellFormed (.outboundDrain 0 0 0) ∧ ¬ WellFormed (.outboundDrain 4 0 0) ∧ ¬ WellFormed (.multicastReserveForward ⟨64, 0⟩) ∧ ¬ WellFormed (.multicastReserveForward ⟨0, 5⟩) ∧
    ¬ WellFormed (.interrupt 256) ∧ ¬ WellFormed (.barrierOpen 1 false 64) ∧ ¬ WellFormed (.walkerEmit 256) ∧
    ¬ WellFormed (.hartStart 512) ∧ ¬ WellFormed (.correctedError 512) ∧ ¬ WellFormed (.bindRecordWrite 0 []) ∧
    ¬ WellFormed (.remoteWrite 0 256 0 []) ∧ ¬ WellFormed (.remoteRead 0 256 0 4) ∧
    ¬ WellFormed (.streamRecord 0 0 0 0x10000 []) ∧ ¬ WellFormed (.drainComplete 1 64) ∧
    ¬ WellFormed (.patternRunComplete 2 224 true 0) ∧ ¬ WellFormed (.leasePatienceExpiry 3 512) ∧
    ¬ WellFormed (.pseudoChannelRemap 512) ∧ ¬ WellFormed (.energyInterval 64) := by
  simp only [WellFormed]; decide

/-! ## Words that name no instruction (R206) -/

theorem test_illegal_words :
    decodeWord 0#32 = none ∧ decodeWord 0xFFFFFFFF#32 = none ∧
    decodeWord 0b011010_00000000000000000000000000#32 = none ∧ decodeWord 0b110110_00000000000000000000000000#32 = none ∧
    decodeWord 0b000001_00011_00001_00010_00000010011#32 = none ∧
    decodeWord 0b000001_00011_00001_00010_00000001110#32 = none ∧
    decodeWord 0b001101_00011_00001_111_0000000000000#32 = none ∧
    decodeWord 0b001110_00011_00001_100_0000000000000#32 = none ∧
    decodeWord 0b011001_00011_00001_110_0000_000_000_000#32 = none ∧
    decodeWord 0b100110_10000_00001_00010_00000000000#32 = none ∧
    decodeWord 0b101001_00001_00010_1101_0000_00_0_00000#32 = none ∧
    decodeWord 0b101101_00001_00010_00000_0001_10_0_00_11#32 = none ∧
    decodeWord 0b011100_00001_00000_0000_000000001000#32 = none := by
  decide

theorem test_decodeTableWord : decodeTableWord 32 0x04000000 = some (.add 0 0 0) ∧ decodeTableWord 0 0 = none ∧
    decodeTableWord 32 0 = none := by
  decide

/-! ## Words written out from the encoding tables, field by field -/

theorem test_decode_op01_a :
    decodeWord 0b000001_10011_00110_11001_00000000000#32 = some (.add 19 6 25) ∧
    decodeWord 0b000001_10011_00110_11001_00000000001#32 = some (.sub 19 6 25) ∧
    decodeWord 0b000001_10011_00110_11001_00000000010#32 = some (.and 19 6 25) ∧
    decodeWord 0b000001_10011_00110_11001_00000000011#32 = some (.or 19 6 25) ∧
    decodeWord 0b000001_10011_00110_11001_00000000100#32 = some (.xor 19 6 25) ∧
    decodeWord 0b000001_10011_00110_11001_00000000101#32 = some (.sll 19 6 25) ∧
    decodeWord 0b000001_10011_00110_11001_00000000110#32 = some (.srl 19 6 25) ∧
    decodeWord 0b000001_10011_00110_11001_00000000111#32 = some (.sra 19 6 25) ∧
    decodeWord 0b000001_10011_00110_11001_00000001000#32 = some (.slt 19 6 25) ∧
    decodeWord 0b000001_10011_00110_11001_00000001001#32 = some (.sltu 19 6 25) := by
  decide

theorem test_decode_op01_b :
    decodeWord 0b000001_10011_00110_11001_00000001010#32 = some (.min 19 6 25) ∧
    decodeWord 0b000001_10011_00110_11001_00000001011#32 = some (.max 19 6 25) ∧
    decodeWord 0b000001_10011_00110_11001_00000001100#32 = some (.minu 19 6 25) ∧
    decodeWord 0b000001_10011_00110_11001_00000001101#32 = some (.maxu 19 6 25) ∧
    decodeWord 0b000001_10011_00110_00000_00000001110#32 = some (.clz 19 6) ∧
    decodeWord 0b000001_10011_00110_00000_00000001111#32 = some (.ctz 19 6) ∧
    decodeWord 0b000001_10011_00110_00000_00000010000#32 = some (.popc 19 6) ∧
    decodeWord 0b000001_10011_00110_11001_00000010001#32 = some (.addSat 19 6 25) ∧
    decodeWord 0b000001_10011_00110_11001_00000010010#32 = some (.subSat 19 6 25) := by
  decide

theorem test_decode_op02 :
    decodeWord 0b000010_10011_00110_101000_010111_0000#32 = some (.bfx 19 6 40 23) ∧
    decodeWord 0b000010_10011_00110_101000_010111_0001#32 = some (.bfxu 19 6 40 23) ∧
    decodeWord 0b000010_10011_00110_101000_010111_0010#32 = some (.bfi 19 6 40 23) ∧
    decodeWord 0b000010_10011_00110_11001_101100_0_0011#32 = some (.fsl 19 6 25 44) ∧
    decodeWord 0b000010_10011_00110_11001_101100_0_0100#32 = some (.fsr 19 6 25 44) := by
  decide

theorem test_decode_op03 :
    decodeWord 0b000011_10011_00110_11001_00000000000#32 = some (.mul 19 6 25) ∧
    decodeWord 0b000011_10011_00110_11001_00000000001#32 = some (.mulh 19 6 25) ∧
    decodeWord 0b000011_10011_00110_11001_00000000010#32 = some (.mulhu 19 6 25) ∧
    decodeWord 0b000011_10011_00110_11001_00000000011#32 = some (.mulhsu 19 6 25) ∧
    decodeWord 0b000011_10011_00110_11001_00000000100#32 = some (.div 19 6 25) ∧
    decodeWord 0b000011_10011_00110_11001_00000000101#32 = some (.divu 19 6 25) ∧
    decodeWord 0b000011_10011_00110_11001_00000000110#32 = some (.rem 19 6 25) ∧
    decodeWord 0b000011_10011_00110_11001_00000000111#32 = some (.remu 19 6 25) ∧
    decodeWord 0b000011_10011_00110_11001_00000001000#32 = some (.divSat 19 6 25) := by
  decide

theorem test_decode_op04 :
    decodeWord 0b000100_10011_00110_1010010111000011#32 = some (.addi 19 6 0xA5C3) := by
  decide

theorem test_decode_op05 :
    decodeWord 0b000101_10011_00110_1010010111000011#32 = some (.andi 19 6 0xA5C3) := by
  decide

theorem test_decode_op06 :
    decodeWord 0b000110_10011_00110_1010010111000011#32 = some (.ori 19 6 0xA5C3) := by
  decide

theorem test_decode_op07 :
    decodeWord 0b000111_10011_00110_1010010111000011#32 = some (.xori 19 6 0xA5C3) := by
  decide

theorem test_decode_op08 :
    decodeWord 0b001000_10011_00110_1010010111000011#32 = some (.slti 19 6 0xA5C3) := by
  decide

theorem test_decode_op09 :
    decodeWord 0b001001_10011_00110_1010010111000011#32 = some (.sltiu 19 6 0xA5C3) := by
  decide

theorem test_decode_op0a :
    decodeWord 0b001010_10011_00110_00000000_00_110101#32 = some (.slli 19 6 53) ∧
    decodeWord 0b001010_10011_00110_00000000_01_110101#32 = some (.srli 19 6 53) ∧
    decodeWord 0b001010_10011_00110_00000000_10_110101#32 = some (.srai 19 6 53) ∧
    decodeWord 0b001010_10011_00110_00000000_11_110101#32 = some (.rori 19 6 53) := by
  decide

theorem test_decode_op0b :
    decodeWord 0b001011_10011_101011010010111000011#32 = some (.lui 19 0x15A5C3) := by
  decide

theorem test_decode_op0c :
    decodeWord 0b001100_10011_101011010010111000011#32 = some (.addpc 19 0x15A5C3) := by
  decide

theorem test_decode_op0d :
    decodeWord 0b001101_10011_00110_000_1010111000011#32 = some (.ld .b 19 6 0x15C3) ∧
    decodeWord 0b001101_10011_00110_001_1010111000011#32 = some (.ld .h 19 6 0x15C3) ∧
    decodeWord 0b001101_10011_00110_010_1010111000011#32 = some (.ld .w 19 6 0x15C3) ∧
    decodeWord 0b001101_10011_00110_011_1010111000011#32 = some (.ld .d 19 6 0x15C3) ∧
    decodeWord 0b001101_10011_00110_100_1010111000011#32 = some (.ld .bu 19 6 0x15C3) ∧
    decodeWord 0b001101_10011_00110_101_1010111000011#32 = some (.ld .hu 19 6 0x15C3) ∧
    decodeWord 0b001101_10011_00110_110_1010111000011#32 = some (.ld .wu 19 6 0x15C3) := by
  decide

theorem test_decode_op0e :
    decodeWord 0b001110_10011_00110_000_1010111000011#32 = some (.st .b 19 6 0x15C3) ∧
    decodeWord 0b001110_10011_00110_001_1010111000011#32 = some (.st .h 19 6 0x15C3) ∧
    decodeWord 0b001110_10011_00110_010_1010111000011#32 = some (.st .w 19 6 0x15C3) ∧
    decodeWord 0b001110_10011_00110_011_1010111000011#32 = some (.st .d 19 6 0x15C3) := by
  decide

theorem test_decode_op0f_a :
    decodeWord 0b001111_10011_00110_11001_0000_0_0_0_00_00#32 = some (.amoadd false false false .core 19 6 25) ∧
    decodeWord 0b001111_10011_00110_11001_0001_1_0_0_01_00#32 = some (.amomin true false false .cluster 19 6 25) ∧
    decodeWord 0b001111_10011_00110_11001_0010_0_1_0_10_00#32 = some (.amomax false true false .device 19 6 25) ∧
    decodeWord 0b001111_10011_00110_11001_0011_1_1_0_11_00#32 = some (.amominu true true false .system 19 6 25) ∧
    decodeWord 0b001111_10011_00110_11001_0100_0_0_1_00_00#32 = some (.amomaxu false false true .core 19 6 25) ∧
    decodeWord 0b001111_10011_00110_11001_0101_1_0_1_01_00#32 = some (.amoand true false true .cluster 19 6 25) ∧
    decodeWord 0b001111_10011_00110_11001_0110_0_1_1_10_00#32 = some (.amoor false true true .device 19 6 25) ∧
    decodeWord 0b001111_10011_00110_11001_0111_1_1_1_11_00#32 = some (.amoxor true true true .system 19 6 25) ∧
    decodeWord 0b001111_10011_00110_11001_1000_0_0_0_00_00#32 = some (.amoswap false false false .core 19 6 25) ∧
    decodeWord 0b001111_10011_00110_11001_1001_1_0_0_01_00#32 = some (.amocas true false false .cluster 19 6 25) := by
  decide

theorem test_decode_op0f_b :
    decodeWord 0b001111_10011_00110_11011_1010_101_0000#32 = some (.ldNc .hu 19 6 0x1B) := by
  decide

theorem test_decode_op10 :
    decodeWord 0b010000_10011_00110_1010010111000011#32 = some (.beq 19 6 0xA5C3) := by
  decide

theorem test_decode_op11 :
    decodeWord 0b010001_10011_00110_1010010111000011#32 = some (.bne 19 6 0xA5C3) := by
  decide

theorem test_decode_op12 :
    decodeWord 0b010010_10011_00110_1010010111000011#32 = some (.blt 19 6 0xA5C3) := by
  decide

theorem test_decode_op13 :
    decodeWord 0b010011_10011_00110_1010010111000011#32 = some (.bge 19 6 0xA5C3) := by
  decide

theorem test_decode_op14 :
    decodeWord 0b010100_10011_00110_1010010111000011#32 = some (.bltu 19 6 0xA5C3) := by
  decide

theorem test_decode_op15 :
    decodeWord 0b010101_10011_00110_1010010111000011#32 = some (.bgeu 19 6 0xA5C3) := by
  decide

theorem test_decode_op16 :
    decodeWord 0b010110_10011_101011010010111000011#32 = some (.jal 19 0x15A5C3) := by
  decide

theorem test_decode_op17 :
    decodeWord 0b010111_10011_00110_1010010111000011#32 = some (.jalr 19 6 0xA5C3) := by
  decide

theorem test_decode_op18 :
    decodeWord 0b011000_10011_00000_1010010111000011#32 = some (.bstrip 19 0xA5C3) := by
  decide

theorem test_decode_op19 :
    decodeWord 0b011001_10011_00110_101_1101_110_011_001#32 = some (.loop 19 6 5 13 6 3 1) := by
  decide

theorem test_decode_op1b :
    decodeWord 0b011011_000000000000000_00000000001#32 = some (.eret) ∧
    decodeWord 0b011011_000000000000000_00000000010#32 = some (.halt) ∧
    decodeWord 0b011011_000000000000000_00000000011#32 = some (.wait) ∧
    decodeWord 0b011011_000000000000000_00000000100#32 = some (.brk) ∧
    decodeWord 0b011011_000000000000000_00111000011#32 = some (.trap 0xC3) := by
  decide

theorem test_decode_op1c :
    decodeWord 0b011100_10011_00000_0000_000000110101#32 = some (.crd 19 0x35) ∧
    decodeWord 0b011100_00000_00110_0001_000001000111#32 = some (.cwr 6 0x47) ∧
    decodeWord 0b011100_10011_00110_0010_000000010110#32 = some (.cset 19 6 0x16) ∧
    decodeWord 0b011100_10011_00110_0011_000000100001#32 = some (.ccl 19 6 0x21) := by
  decide

theorem test_decode_op1d :
    decodeWord 0b011101_000000000000000_0000_10_00000#32 = some (.fence .device) ∧
    decodeWord 0b011101_000000000000000_0001_01_00000#32 = some (.rel .cluster) ∧
    decodeWord 0b011101_00000_00110_11001_0010_11_10011#32 = some (.strel .system 6 25 0x13) ∧
    decodeWord 0b011101_10011_00110_00000_0011_00_10011#32 = some (.ldacq 19 6 0x13) ∧
    decodeWord 0b011101_000000000000000_0100_0000000#32 = some (.drain) ∧
    decodeWord 0b011101_00000_00110_11001_0101_10_00000#32 = some (.turn 6 25 2) ∧
    decodeWord 0b011101_10011_00110_11001_0110_0000000#32 = some (.turnq 19 6 25) := by
  decide

theorem test_decode_op1e :
    decodeWord 0b011110_00000_00110_00000_000_10_000000#32 = some (.qsend 6 2) ∧
    decodeWord 0b011110_10011_00000_00000_001_11_000000#32 = some (.qrecv 19 3) ∧
    decodeWord 0b011110_10011_00000_11001_010_01_000000#32 = some (.qpoll 19 25 1) ∧
    decodeWord 0b011110_00000_00110_11001_011_10_000000#32 = some (.qpush 6 25 2) := by
  decide

theorem test_decode_op1f :
    decodeWord 0b011111_10011_00110_00000_000_00000000#32 = some (.tspawn 19 6) ∧
    decodeWord 0b011111_00000_00110_11001_001_00000000#32 = some (.tdep 6 25) ∧
    decodeWord 0b011111_00000_00110_00000_010_00000000#32 = some (.tdone 6) ∧
    decodeWord 0b011111_000000000000000_011_1_0000000#32 = some (.gbar true) ∧
    decodeWord 0b011111_000000000000000_100_00000000#32 = some (.tyield) := by
  decide

theorem test_decode_op20 :
    decodeWord 0b100000_10011_00110_00000_000000000_10#32 = some (.vsetvl .w 19 6) := by
  decide

theorem test_decode_op21 :
    decodeWord 0b100001_10011_00110_11001_1011_10_0_1_10_1#32 = some (.vadd 19 6 25 11 .w true .rdn true) ∧
    decodeWord 0b100001_10011_00110_11001_1011_10_1_0_11_0#32 = some (.vsub 19 6 25 11 .w false .rup false) := by
  decide

theorem test_decode_op22_a :
    decodeWord 0b100010_10011_00110_11001_1011_00_0000_1#32 = some (.vmul 19 6 25 11 .b true) ∧
    decodeWord 0b100010_10011_00110_11001_1011_01_0001_0#32 = some (.vmulh 19 6 25 11 .h false) ∧
    decodeWord 0b100010_10011_00110_11001_1011_10_0010_1#32 = some (.vmulhu 19 6 25 11 .w true) ∧
    decodeWord 0b100010_10011_00110_11001_1011_11_0011_0#32 = some (.vdiv 19 6 25 11 .d false) ∧
    decodeWord 0b100010_10011_00110_11001_1011_00_0100_1#32 = some (.vdivu 19 6 25 11 .b true) ∧
    decodeWord 0b100010_10011_00110_11001_1011_01_0101_0#32 = some (.vrem 19 6 25 11 .h false) ∧
    decodeWord 0b100010_10011_00110_11001_1011_10_0110_1#32 = some (.vremu 19 6 25 11 .w true) ∧
    decodeWord 0b100010_10011_00110_11001_1011_11_0111_0#32 = some (.vmin 19 6 25 11 .d false) ∧
    decodeWord 0b100010_10011_00110_11001_1011_00_1000_1#32 = some (.vmax 19 6 25 11 .b true) ∧
    decodeWord 0b100010_10011_00110_11001_1011_01_1001_0#32 = some (.vminu 19 6 25 11 .h false) := by
  decide

theorem test_decode_op22_b :
    decodeWord 0b100010_10011_00110_11001_1011_10_1010_1#32 = some (.vmaxu 19 6 25 11 .w true) ∧
    decodeWord 0b100010_10011_00110_11001_1011_11_1011_0#32 = some (.vand 19 6 25 11 .d false) ∧
    decodeWord 0b100010_10011_00110_11001_1011_00_1100_1#32 = some (.vor 19 6 25 11 .b true) ∧
    decodeWord 0b100010_10011_00110_11001_1011_01_1101_0#32 = some (.vxor 19 6 25 11 .h false) ∧
    decodeWord 0b100010_10011_00110_11001_1011_10_1110_1#32 = some (.vavg 19 6 25 11 .w true) ∧
    decodeWord 0b100010_10011_00110_11001_1011_11_1111_0#32 = some (.vabsd 19 6 25 11 .d false) := by
  decide

theorem test_decode_op23_a :
    decodeWord 0b100011_10011_00110_11001_1011_00_0000_1#32 = some (.vaddx 19 6 25 11 .b true) ∧
    decodeWord 0b100011_10011_00110_11001_1011_01_0001_0#32 = some (.vsubx 19 6 25 11 .h false) ∧
    decodeWord 0b100011_10011_00110_11001_1011_10_0010_1#32 = some (.vrsubx 19 6 25 11 .w true) ∧
    decodeWord 0b100011_10011_00110_11001_1011_11_0011_0#32 = some (.vmulx 19 6 25 11 .d false) ∧
    decodeWord 0b100011_10011_00110_11001_1011_00_0100_1#32 = some (.vmulhx 19 6 25 11 .b true) ∧
    decodeWord 0b100011_10011_00110_11001_1011_01_0101_0#32 = some (.vdivx 19 6 25 11 .h false) ∧
    decodeWord 0b100011_10011_00110_11001_1011_10_0110_1#32 = some (.vdivux 19 6 25 11 .w true) ∧
    decodeWord 0b100011_10011_00110_11001_1011_11_0111_0#32 = some (.vremx 19 6 25 11 .d false) ∧
    decodeWord 0b100011_10011_00110_11001_1011_00_1000_1#32 = some (.vremux 19 6 25 11 .b true) ∧
    decodeWord 0b100011_10011_00110_11001_1011_01_1001_0#32 = some (.vminx 19 6 25 11 .h false) := by
  decide

theorem test_decode_op23_b :
    decodeWord 0b100011_10011_00110_11001_1011_10_1010_1#32 = some (.vmaxx 19 6 25 11 .w true) ∧
    decodeWord 0b100011_10011_00110_11001_1011_11_1011_0#32 = some (.vminux 19 6 25 11 .d false) ∧
    decodeWord 0b100011_10011_00110_11001_1011_00_1100_1#32 = some (.vmaxux 19 6 25 11 .b true) ∧
    decodeWord 0b100011_10011_00110_11001_1011_01_1101_0#32 = some (.vandx 19 6 25 11 .h false) ∧
    decodeWord 0b100011_10011_00110_11001_1011_10_1110_1#32 = some (.vorx 19 6 25 11 .w true) ∧
    decodeWord 0b100011_10011_00110_11001_1011_11_1111_0#32 = some (.vxorx 19 6 25 11 .d false) := by
  decide

theorem test_decode_op24 :
    decodeWord 0b100100_10011_00110_11001_1011_00_0000_1#32 = some (.vmacc 19 6 25 11 .b true) ∧
    decodeWord 0b100100_10011_00110_11001_1011_01_0001_0#32 = some (.vmsac 19 6 25 11 .h false) ∧
    decodeWord 0b100100_10011_00110_00000_1011_10_0010_1#32 = some (.vneg 19 6 11 .w true) ∧
    decodeWord 0b100100_10011_00110_00000_1011_11_0011_0#32 = some (.vabs 19 6 11 .d false) ∧
    decodeWord 0b100100_10011_00110_00000_1011_00_0100_1#32 = some (.vnot 19 6 11 .b true) ∧
    decodeWord 0b100100_10011_00110_00000_1011_01_0101_0#32 = some (.vsqrt 19 6 11 .h false) ∧
    decodeWord 0b100100_10011_00110_00000_1011_10_0110_1#32 = some (.vclz 19 6 11 .w true) ∧
    decodeWord 0b100100_10011_00110_00000_1011_11_0111_0#32 = some (.vctz 19 6 11 .d false) ∧
    decodeWord 0b100100_10011_00110_00000_1011_00_1000_1#32 = some (.vpopc 19 6 11 .b true) ∧
    decodeWord 0b100100_10011_00110_00000_1011_01_1001_0#32 = some (.vmv 19 6 11 .h false) := by
  decide

theorem test_decode_op25 :
    decodeWord 0b100101_01101_00110_11001_1011_10_000_0_0#32 = some (.vcmpVv .eq 13 6 25 11 .w false) ∧
    decodeWord 0b100101_01101_00110_11001_1011_10_001_1_0#32 = some (.vcmpVx .ne 13 6 25 11 .w false) ∧
    decodeWord 0b100101_01101_00110_11001_1011_10_010_0_0#32 = some (.vcmpVv .lt 13 6 25 11 .w false) ∧
    decodeWord 0b100101_01101_00110_11001_1011_10_011_1_0#32 = some (.vcmpVx .le 13 6 25 11 .w false) ∧
    decodeWord 0b100101_01101_00110_11001_1011_10_100_0_0#32 = some (.vcmpVv .ltu 13 6 25 11 .w false) ∧
    decodeWord 0b100101_01101_00110_11001_1011_10_101_1_0#32 = some (.vcmpVx .leu 13 6 25 11 .w false) ∧
    decodeWord 0b100101_01101_00110_11001_1011_10_110_0_0#32 = some (.vcmpVv .gt 13 6 25 11 .w false) ∧
    decodeWord 0b100101_01101_00110_11001_1011_10_111_1_0#32 = some (.vcmpVx .gtu 13 6 25 11 .w false) := by
  decide

theorem test_decode_op26 :
    decodeWord 0b100110_01101_00110_01001_000000_00000#32 = some (.pand 13 6 9) ∧
    decodeWord 0b100110_01101_00110_01001_000000_00001#32 = some (.por 13 6 9) ∧
    decodeWord 0b100110_01101_00110_01001_000000_00010#32 = some (.pxor 13 6 9) ∧
    decodeWord 0b100110_01101_00110_01001_000000_00011#32 = some (.pandn 13 6 9) ∧
    decodeWord 0b100110_01101_00110_00000_000000_00100#32 = some (.pnot 13 6) ∧
    decodeWord 0b100110_01101_00110_00000_1011_10_00101#32 = some (.pleadIncl 13 6 11 .w) ∧
    decodeWord 0b100110_01101_00110_00000_1011_10_00110#32 = some (.pleadExcl 13 6 11 .w) ∧
    decodeWord 0b100110_10011_00110_00000_1011_10_00111#32 = some (.ppopc 19 6 11 .w) ∧
    decodeWord 0b100110_10011_00110_00000_1011_10_01000#32 = some (.pfind 19 6 11 .w) ∧
    decodeWord 0b100110_01101_00110_00000_0000_10_01001#32 = some (.pset 13 6 .w) := by
  decide

theorem test_decode_op27 :
    decodeWord 0b100111_10011_00110_11001_1011_00_0000_1#32 = some (.vslideup 19 6 25 11 .b true) ∧
    decodeWord 0b100111_10011_00110_11001_1011_01_0001_0#32 = some (.vslidedn 19 6 25 11 .h false) ∧
    decodeWord 0b100111_10011_00110_11001_1011_10_0010_1#32 = some (.vrgather 19 6 25 11 .w true) ∧
    decodeWord 0b100111_10011_00110_00000_1011_11_0011_0#32 = some (.vcompress 19 6 11 .d false) ∧
    decodeWord 0b100111_10011_00000_00000_1011_00_0100_1#32 = some (.viota 19 11 .b true) ∧
    decodeWord 0b100111_10011_00110_00000_1011_01_0101_0#32 = some (.vsplat 19 6 11 .h false) ∧
    decodeWord 0b100111_10011_00110_11001_0000_10_0110_0#32 = some (.vmvx 19 6 25 .w) ∧
    decodeWord 0b100111_10011_00110_11001_0000_10_0111_0#32 = some (.vins 19 6 25 .w) := by
  decide

theorem test_decode_op28_a :
    decodeWord 0b101000_10011_00110_11001_1011_00_0000_0#32 = some (.vredsum 19 6 25 11 .b) ∧
    decodeWord 0b101000_10011_00110_11001_1011_01_0001_0#32 = some (.vredmin 19 6 25 11 .h) ∧
    decodeWord 0b101000_10011_00110_11001_1011_10_0010_0#32 = some (.vredmax 19 6 25 11 .w) ∧
    decodeWord 0b101000_10011_00110_11001_1011_11_0011_0#32 = some (.vredminu 19 6 25 11 .d) ∧
    decodeWord 0b101000_10011_00110_11001_1011_00_0100_0#32 = some (.vredmaxu 19 6 25 11 .b) ∧
    decodeWord 0b101000_10011_00110_11001_1011_01_0101_0#32 = some (.vredand 19 6 25 11 .h) ∧
    decodeWord 0b101000_10011_00110_11001_1011_10_0110_0#32 = some (.vredor 19 6 25 11 .w) ∧
    decodeWord 0b101000_10011_00110_11001_1011_11_0111_0#32 = some (.vredxor 19 6 25 11 .d) ∧
    decodeWord 0b101000_10011_00110_00000_1011_00_1000_1#32 = some (.vscansum 19 6 11 .b true) ∧
    decodeWord 0b101000_10011_00110_00000_1011_01_1001_0#32 = some (.vscanmax 19 6 11 .h false) := by
  decide

theorem test_decode_op28_b :
    decodeWord 0b101000_10011_00110_00000_1011_10_1010_1#32 = some (.vscanmin 19 6 11 .w true) := by
  decide

theorem test_decode_op29 :
    decodeWord 0b101001_10011_00110_0011_0000_10_1_00000#32 = some (.vcvt .e4m3 .f32 19 6 .rdn true) ∧
    decodeWord 0b101001_10011_00110_1011_1001_00_0_00000#32 = some (.vcvt .i32 .rns3 19 6 .rne false) ∧
    decodeWord 0b101001_10011_00110_0101_0001_11001_0_01#32 = some (.vquant .e2m1 .bf16 19 6 25) ∧
    decodeWord 0b101001_10011_00110_0010_0100_11001_0_10#32 = some (.vdquant .f16 .e5m2 19 6 25) := by
  decide

theorem test_decode_op2a :
    decodeWord 0b101010_10011_00110_11001_1011_00_0000_1#32 = some (.vsll 19 6 25 11 .b true) ∧
    decodeWord 0b101010_10011_00110_11001_1011_01_0001_0#32 = some (.vsrl 19 6 25 11 .h false) ∧
    decodeWord 0b101010_10011_00110_11001_1011_10_0010_1#32 = some (.vsra 19 6 25 11 .w true) ∧
    decodeWord 0b101010_10011_00110_11001_1011_11_0011_0#32 = some (.vrol 19 6 25 11 .d false) ∧
    decodeWord 0b101010_10011_00110_11001_1011_00_0100_1#32 = some (.vbfx 19 6 25 11 .b true) ∧
    decodeWord 0b101010_10011_00110_11001_1011_01_0101_0#32 = some (.vbfxu 19 6 25 11 .h false) ∧
    decodeWord 0b101010_10011_00110_11001_1011_10_0110_1#32 = some (.vbfi 19 6 25 11 .w true) ∧
    decodeWord 0b101010_10011_00110_11001_1011_11_0111_0#32 = some (.vfsl 19 6 25 11 .d false) ∧
    decodeWord 0b101010_10011_00110_11001_1011_00_1000_1#32 = some (.vfsr 19 6 25 11 .b true) := by
  decide

theorem test_decode_op2b_a :
    decodeWord 0b101011_10011_00110_11001_1011_00_0000_1#32 = some (.vaddi 19 6 25 11 .b true) ∧
    decodeWord 0b101011_10011_00110_11001_1011_01_0001_0#32 = some (.vrsubi 19 6 25 11 .h false) ∧
    decodeWord 0b101011_10011_00110_11001_1011_10_0010_1#32 = some (.vandi 19 6 25 11 .w true) ∧
    decodeWord 0b101011_10011_00110_11001_1011_11_0011_0#32 = some (.vori 19 6 25 11 .d false) ∧
    decodeWord 0b101011_10011_00110_11001_1011_00_0100_1#32 = some (.vxori 19 6 25 11 .b true) ∧
    decodeWord 0b101011_10011_00110_11001_1011_01_0101_0#32 = some (.vslli 19 6 25 11 .h false) ∧
    decodeWord 0b101011_10011_00110_11001_1011_10_0110_1#32 = some (.vsrli 19 6 25 11 .w true) ∧
    decodeWord 0b101011_10011_00110_11001_1011_11_0111_0#32 = some (.vsrai 19 6 25 11 .d false) ∧
    decodeWord 0b101011_10011_00000_11001_1011_00_1000_1#32 = some (.vsplati 19 25 11 .b true) ∧
    decodeWord 0b101011_10011_00110_11001_1011_01_1001_0#32 = some (.vmini 19 6 25 11 .h false) := by
  decide

theorem test_decode_op2b_b :
    decodeWord 0b101011_10011_00110_11001_1011_10_1010_1#32 = some (.vmaxi 19 6 25 11 .w true) := by
  decide

theorem test_decode_op2c :
    decodeWord 0b101100_10011_00110_00000_1011_10_0_10_00#32 = some (.vldUnit 19 6 11 .w false .ls) ∧
    decodeWord 0b101100_10011_00110_11001_1011_10_1_01_01#32 = some (.vldStrided 19 6 25 11 .w true .sp) ∧
    decodeWord 0b101100_10011_00110_11001_1011_10_0_00_10#32 = some (.vldIndexed 19 6 25 11 .w false .mem) ∧
    decodeWord 0b101100_10011_00110_00000_1011_10_1_00_11#32 = some (.vldff 19 6 11 .w true) := by
  decide

theorem test_decode_op2d :
    decodeWord 0b101101_10011_00110_00000_1011_10_0_10_00#32 = some (.vstUnit 19 6 11 .w false .ls) ∧
    decodeWord 0b101101_10011_00110_11001_1011_10_1_01_01#32 = some (.vstStrided 19 6 25 11 .w true .sp) ∧
    decodeWord 0b101101_10011_00110_11001_1011_10_0_00_10#32 = some (.vstIndexed 19 6 25 11 .w false .mem) := by
  decide

theorem test_decode_op2e :
    decodeWord 0b101110_10011_00110_11001_000_1011_1_0_10#32 = some (.vldl 19 6 25 11 .w true) ∧
    decodeWord 0b101110_10011_00110_11001_001_1011_0_0_10#32 = some (.vstl 19 6 25 11 .w) ∧
    decodeWord 0b101110_00000_00110_00000_010_00000000#32 = some (.sfull 6) ∧
    decodeWord 0b101110_00000_00110_00000_011_00000000#32 = some (.sempty 6) ∧
    decodeWord 0b101110_10011_00110_00000_100_00000000#32 = some (.sprobe 19 6) := by
  decide

theorem test_decode_op2f_a :
    decodeWord 0b101111_10011_00110_11001_1011_10_0000_1#32 = some (.vamoadd 19 6 25 11 false true) ∧
    decodeWord 0b101111_10011_00110_11001_1011_11_0001_0#32 = some (.vamomin 19 6 25 11 true false) ∧
    decodeWord 0b101111_10011_00110_11001_1011_10_0010_1#32 = some (.vamomax 19 6 25 11 false true) ∧
    decodeWord 0b101111_10011_00110_11001_1011_11_0011_0#32 = some (.vamominu 19 6 25 11 true false) ∧
    decodeWord 0b101111_10011_00110_11001_1011_10_0100_1#32 = some (.vamomaxu 19 6 25 11 false true) ∧
    decodeWord 0b101111_10011_00110_11001_1011_11_0101_0#32 = some (.vamoand 19 6 25 11 true false) ∧
    decodeWord 0b101111_10011_00110_11001_1011_10_0110_1#32 = some (.vamoor 19 6 25 11 false true) ∧
    decodeWord 0b101111_10011_00110_11001_1011_11_0111_0#32 = some (.vamoxor 19 6 25 11 true false) ∧
    decodeWord 0b101111_10011_00110_11001_1011_10_1000_1#32 = some (.vamoswap 19 6 25 11 false true) ∧
    decodeWord 0b101111_10011_00110_11001_1011_10_1001_0#32 = some (.redst 19 6 25 11 .w) := by
  decide

theorem test_decode_op2f_b :
    decodeWord 0b101111_10011_00110_11001_1011_11_1010_1#32 = some (.gather 19 6 25 11 true true) := by
  decide

theorem test_decode_op30 :
    decodeWord 0b110000_10011_00110_00000_000_1_0000000#32 = some (.mattach 19 6 true) ∧
    decodeWord 0b110000_000000000000000_001_00000000#32 = some (.mdetach) ∧
    decodeWord 0b110000_00000_00110_00000_010_00000000#32 = some (.mmode 6) ∧
    decodeWord 0b110000_000000000000000_011_00000000#32 = some (.mexit) ∧
    decodeWord 0b110000_000000000000000_100_00000_101#32 = some (.mzero 5) := by
  decide

theorem test_decode_op31 :
    decodeWord 0b110001_101_10011_00110_1101_0110_0000_0#32 = some (.mrank 5 19 6 13 6 .f32 false) := by
  decide

theorem test_decode_op32 :
    decodeWord 0b110010_101_10011_00110_1101_0110_1001_1#32 = some (.mma 5 19 6 13 6 .rns3 true) := by
  decide

theorem test_decode_op33 :
    decodeWord 0b110011_101_10011_00110_1101_0110_1000_0#32 = some (.mmas 5 19 6 13 6 .i4 false) := by
  decide

theorem test_decode_op34 :
    decodeWord 0b110100_101_00110_00000_1101_0000_1011_0#32 = some (.mld 5 6 13 .i32) ∧
    decodeWord 0b110100_101_00110_00000_1101_1000_1001_0#32 = some (.mst 5 6 13 .rns3) := by
  decide

theorem test_decode_op35 :
    decodeWord 0b110101_101_0_0100_11001_10_1_0_0000_0000_0#32 = some (.mcvt 5 .e5m2 .f32 25 .rdn true) := by
  decide

theorem test_decode_op38 :
    decodeWord 0b111000_10011_00110_11001_000_1011_0000#32 = some (.cpset 19 6 25 11) ∧
    decodeWord 0b111000_10011_00110_11001_001_1_0_10_1_0_00#32 = some (.cpgo true false .device true false 19 6 25) ∧
    decodeWord 0b111000_10011_00110_00000_010_00000000#32 = some (.cpq 19 6) := by
  decide

theorem test_decode_op39 :
    decodeWord 0b111001_10011_00110_00000_000_00000000#32 = some (.swm 19 6) ∧
    decodeWord 0b111001_10011_00110_00000_001_00000000#32 = some (.swin 19 6) ∧
    decodeWord 0b111001_00000_00110_11001_010_00000000#32 = some (.semit 6 25) ∧
    decodeWord 0b111001_00000_00110_11001_011_00000000#32 = some (.sidle 6 25) := by
  decide

theorem test_decode_op3a :
    decodeWord 0b111010_10011_00000_00000_00000000000#32 = some (.capq 19) := by
  decide

/-! ## Scalar instructions -/

theorem test_add_wraps : xAfter (.add 3 1 2) (withX [(1, 0xFFFFFFFFFFFFFFFF), (2, 2)]) 3 = 1 := by decide
theorem test_x0_discards : xAfter (.add 0 1 2) (withX [(1, 7), (2, 2)]) 0 = 0 := by decide
theorem test_addSat : xAfter (.addSat 3 1 2) (withX [(1, 0x7FFFFFFFFFFFFFFF), (2, 1)]) 3 = 0x7FFFFFFFFFFFFFFF := by decide
theorem test_subSat : xAfter (.subSat 3 1 2) (withX [(1, 0x8000000000000000), (2, 1)]) 3 = 0x8000000000000000 := by decide
theorem test_sra_source_is_destination : xAfter (.sra 1 1 2) (withX [(1, 0x8000000000000000), (2, 67)]) 1 = 0xF000000000000000 := by
  decide
theorem test_slt_sign : xAfter (.slt 3 1 2) (withX [(1, 0xFFFFFFFFFFFFFFFF), (2, 1)]) 3 = 1 := by decide
theorem test_sltu_sign : xAfter (.sltu 3 1 2) (withX [(1, 0xFFFFFFFFFFFFFFFF), (2, 1)]) 3 = 0 := by decide
theorem test_clz : xAfter (.clz 3 1) (withX [(1, 0)]) 3 = 64 ∧ xAfter (.clz 3 1) (withX [(1, 0x100000000)]) 3 = 31 := by decide
theorem test_ctz : xAfter (.ctz 3 1) (withX [(1, 0)]) 3 = 64 ∧ xAfter (.ctz 3 1) (withX [(1, 8)]) 3 = 3 := by decide
theorem test_popc : xAfter (.popc 3 1) (withX [(1, 0xF0F)]) 3 = 8 := by decide
theorem test_mulhsu : xAfter (.mulhsu 3 1 2) (withX [(1, 0xFFFFFFFFFFFFFFFF), (2, 0xFFFFFFFFFFFFFFFF)]) 3 = 0xFFFFFFFFFFFFFFFF := by
  decide
theorem test_div_zero : xAfter (.div 3 1 2) (withX [(1, 7)]) 3 = 0xFFFFFFFFFFFFFFFF ∧ xAfter (.rem 3 1 2) (withX [(1, 7)]) 3 = 7 := by
  decide
theorem test_div_overflow :
    xAfter (.div 3 1 2) (withX [(1, 0x8000000000000000), (2, 0xFFFFFFFFFFFFFFFF)]) 3 = 0x8000000000000000 ∧
    xAfter (.rem 3 1 2) (withX [(1, 0x8000000000000000), (2, 0xFFFFFFFFFFFFFFFF)]) 3 = 0 ∧
    xAfter (.divSat 3 1 2) (withX [(1, 0x8000000000000000), (2, 0xFFFFFFFFFFFFFFFF)]) 3 = 0x7FFFFFFFFFFFFFFF := by
  decide
theorem test_div_truncates : xAfter (.div 3 1 2) (withX [(1, 0xFFFFFFFFFFFFFFF9), (2, 2)]) 3 = 0xFFFFFFFFFFFFFFFD ∧
    xAfter (.rem 3 1 2) (withX [(1, 0xFFFFFFFFFFFFFFF9), (2, 2)]) 3 = 0xFFFFFFFFFFFFFFFF := by decide
theorem test_bfx_signed : xAfter (.bfx 3 1 4 3) (withX [(1, 0x80)]) 3 = 0xFFFFFFFFFFFFFFF8 ∧
    xAfter (.bfxu 3 1 4 3) (withX [(1, 0x80)]) 3 = 8 := by decide
theorem test_bfi : xAfter (.bfi 3 1 8 7) (withX [(1, 0x1AB), (3, 0xFFFFFF)]) 3 = 0xFFABFF := by decide
theorem test_fsl : xAfter (.fsl 3 1 2 4) (withX [(1, 1), (2, 0xF000000000000000)]) 3 = 0x1F := by decide
theorem test_fsr : xAfter (.fsr 3 1 2 4) (withX [(1, 0x10), (2, 0xF)]) 3 = 0xF000000000000001 := by decide
theorem test_andi_unsigned : xAfter (.andi 3 1 0x8000) (withX [(1, 0xFFFFFFFFFFFFFFFF)]) 3 = 0x8000 := by decide
theorem test_addi_signed : xAfter (.addi 3 1 0x8000) (withX [(1, 0)]) 3 = 0xFFFFFFFFFFFF8000 := by decide
theorem test_sltiu_signExtends : xAfter (.sltiu 3 1 0xFFFF) (withX [(1, 5)]) 3 = 1 := by decide
theorem test_rori : xAfter (.rori 3 1 4) (withX [(1, 0x1F)]) 3 = 0xF000000000000001 := by decide
theorem test_lui : xAfter (.lui 3 0x100000) (withX []) 3 = 0xFFFFFFF000000000 := by decide
theorem test_addpc : xAfter (.addpc 3 0x1FFFFF) (base fun h => { h with pc := 0x2004 }) 3 = 0x1004 := by decide

/-! ## Control flow -/

theorem test_beq_backward : (after (.beq 0 0 0xFFFF) (base fun h => { h with pc := 8 })).hart.pc = 4 := by decide
theorem test_bge_equal : (after (.bge 1 1 4) (base fun h => { h with pc := 8 })).hart.pc = 24 := by decide
theorem test_jal_links : xAfter (.jal 1 2) (base fun h => { h with pc := 8 }) 1 = 12 ∧
    (after (.jal 1 2) (base fun h => { h with pc := 8 })).hart.pc = 16 := by decide
theorem test_jalr_same_register : (after (.jalr 1 1 4) (withX [(1, 0x100)])).hart.pc = 0x104 ∧
    xAfter (.jalr 1 1 4) (withX [(1, 0x100)]) 1 = 4 := by decide
theorem test_branch_into_body : (after (.beq 0 0 0) (base fun h => { h with pc := 8, frames := [frame2], tvec := 0x40 })).hart.ecause =
    0x12 := by decide
theorem test_loop_opens : (after (.loop 1 2 3 7 1 2 3) (withX [(1, 5), (2, 0x8001)])).hart.frames =
    [⟨3, 4, 8, 5, 0, 0x8001, 1, 2, 3⟩] := by decide
theorem test_loop_empty : (after (.loop 1 2 3 7 1 2 3) (withX [(1, 0)])).hart.pc = 36 := by decide
theorem test_frame_repeats : (Hart.reset).advance.pc = 4 ∧
    ({ Hart.reset with pc := 12, frames := [frame2] } : Hart).advance.pc = 8 ∧
    ({ Hart.reset with pc := 12, frames := [{ frame2 with iter := 2 }] } : Hart).advance.pc = 16 := by decide
theorem test_bstrip_falls : (after (.bstrip 1 4) (withX [])).hart.pc = 4 := by decide
theorem test_bstrip_no_progress :
    (after (.bstrip 1 4) (base fun h => { h with x := regs [(1, 9)], mon := [⟨0, 9, 1⟩], tvec := 0x40 })).hart.ecause = 0x09 := by
  decide
theorem test_trap_enters : let h := (after (.trap 0xC3) (base fun h => { h with pc := 8, tvec := 0x40 })).hart
    h.pc = 0x40 ∧ h.epc = 8 ∧ h.ecause = 0x0D ∧ h.eval = 0xC3 ∧ h.tstat.lev = true ∧ h.tstat.ie = false ∧ h.tstat.pie = true ∧
      h.tstat.plev = false := by decide
theorem test_eret_returns :
    let h := (after .eret (base fun h => { h with pc := 0x40, epc := 8, susp := true, tstat := { h.tstat with lev := true, ie := false, pie := true } })).hart
    h.pc = 8 ∧ h.tstat.lev = false ∧ h.tstat.ie = true ∧ h.susp = false := by decide
theorem test_eret_at_user_level : (after .eret (base fun h => { h with tvec := 0x40 })).hart.ecause = 0x01 := by decide
theorem test_wait_waits : (after .wait (base id)).hart.pc = 0 := by decide
theorem test_wait_goes_on : (after .wait (base fun h => { h with notices := [5] })).hart.pc = 4 := by decide
theorem test_cwr_tvec_at_user_level : (after (.cwr 1 0x30) (base fun h => { h with tvec := 0x40 })).hart.ecause = 0x01 := by decide
theorem test_cwr_tvec_low_bits : (after (.cwr 1 0x30) (base fun h => { h with x := regs [(1, 0x47)], tstat := { h.tstat with lev := true } })).hart.tvec =
    0x44 := by decide
theorem test_cset_vstart : (after (.cset 3 1 0x01) (base fun h => { h with x := regs [(1, 0xF0F)], vstart := 0x10 })).hart.vstart = 0x1F := by
  decide
theorem test_tip_write_one_clears :
    (after (.cwr 1 0x35) (base fun h => { h with x := regs [(1, 0x100)], tstat := { h.tstat with lev := true, tip := true } })).hart.tstat.tip =
      false := by decide
theorem test_crd_tstat : xAfter (.crd 3 0x35) (base fun h => { h with notices := [5] }) 3 = 0x412 := by decide
theorem test_write_of_read_only : (after (.cwr 1 0x00) (base fun h => { h with tvec := 0x40 })).hart.ecause = 0x01 := by decide

/-! ## What the statements assume: registers and control flow

A theorem test_meets_X shows concrete states and operands that meet the hypotheses of the clauses of Obligations.X. -/

theorem test_meets_FieldsAndImmediates : (63#6).toNat + (0#6).toNat + 1 ≤ 64 ∧ (0#6).toNat + (63#6).toNat + 1 ≤ 64 ∧
    64 < (1#6).toNat + (63#6).toNat + 1 := by decide

theorem test_meets_StripMineBranch_frames :
    let h : Hart := { Hart.reset with pc := 12, frames := [frame2] }
    (h.frames = frame2 :: [] ∧ h.susp = false ∧ h.pc = frame2.last ∧ frame2.iter + 1 < frame2.count) ∧
    ({ h with susp := true } : Hart).susp = true ∧ Hart.reset.frames = [] ∧
    ({ h with pc := 8 } : Hart).pc ≠ frame2.last ∧ frame2.count ≤ ({ frame2 with iter := 2 } : Frame).iter + 1 := by decide

/-- A state at 8 in the body of `frame2`, with x1 = 5, x2 = 8, and a state with no frame. -/
def inBody : State := base fun h => { h with pc := 8, frames := [frame2], x := regs [(1, 5), (2, 8)] }

theorem test_meets_BranchesAndJumps :
    (xreg inBody 1 ≠ xreg inBody 2 ∧ inInnermostBody inBody.hart (inBody.hart.pc + BitVec.ofInt 64 (4 * (1#16).toInt))) ∧
    ¬ inInnermostBody (withX []).hart 0 ∧ ¬ inInnermostBody inBody.hart 16 ∧
    (BitVec.ofInt 64 ((xreg inBody 1).toInt + (0#16).toInt)).toNat % 4 ≠ 0 ∧
    (BitVec.ofInt 64 ((xreg inBody 2).toInt + (0#16).toInt)).toNat % 4 = 0 ∧ inInnermostBody inBody.hart 8 := by
  refine ⟨⟨by decide, rfl, _, _, rfl, by decide⟩, ?_, ?_, by decide, by decide, rfl, _, _, rfl, by decide⟩
  · rintro ⟨-, f, fs, h, -⟩
    have h' : ([] : List Frame) = f :: fs := h
    cases h'
  · rintro ⟨-, f, fs, h, h'⟩
    have e : [frame2] = f :: fs := h
    cases e
    exact absurd h' (by decide)

theorem test_meets_StripMineBranch :
    let e : MonEntry := ⟨0, 9, 1⟩
    let f : MonEntry := ⟨0, 10, 0⟩
    let s := fun (mon : List MonEntry) => base fun h => { h with x := regs [(1, 9)], mon := mon }
    let entry := fun (s : State) => s.hart.mon.find? fun e => e.addr == s.hart.pc
    xreg (s []) 1 ≠ 0 ∧ xreg (s []) 2 = 0 ∧ entry (s []) = none ∧ entry (s [e]) = some e ∧ entry (s [f]) = some f ∧
    (xreg (s [f]) 1).toNat < f.prev.toNat ∧ e.prev.toNat ≤ (xreg (s [e]) 1).toNat ∧ e.miss = 1 ∧
    ({ e with miss := 0 } : MonEntry).miss ≠ 1 := by decide

theorem test_meets_LoopFrame :
    let s := fun (fs : List Frame) (b : Word) (lev : Bool) => base fun h => { h with frames := fs, x := regs [(1, 5), (2, b)], tstat := { h.tstat with lev := lev } }
    (∃ f ∈ (s [frame2] 0 false).hart.frames, (1#3).toNat ≤ f.level) ∧
    ((¬ ∃ f ∈ (s [frame2] 0 false).hart.frames, (2#3).toNat ≤ f.level) ∧
      ∃ f ∈ (s [frame2] 0 false).hart.frames, ¬ (f.holds 4 = true ∧ f.holds 8 = true)) ∧
    2 ^ (2 * 2) ≤ (xreg (s [] 0x10 false) 2).toNat ∧ ¬ 2 ^ (2 * 2) ≤ (xreg (s [] 0xF false) 2).toNat ∧
    kernel (s [] 0 true) = true ∧ kernel (s [] 0 false) = false ∧ 0 < (xreg (s [] 0 false) 1).toNat ∧
    ((s [] 0 false).hart.lc.toList.getD 5 0).toNat = 0 := by
  refine ⟨⟨frame2, by decide, by decide⟩, ⟨?_, frame2, by decide, by decide⟩, by decide⟩
  rintro ⟨f, hf, hl⟩
  have e : f ∈ [frame2] := hf
  rw [List.mem_singleton.mp e] at hl
  exact absurd hl (by decide)

/-- A step that runs on slot 0, with handle 1 of launch 0. -/
def step1 : StepRec :=
  { handle := 1, launch := 0, tileix := [0, 0, 0, 0, 0, 0], deps := 0, resident := true, asked := false, ownPrio := 0, age := 0
    bseq := 0, place := .running, recs := [(0, [0x0000800000000001, 0, 0, 0, 0, 0, 0, 0])], retries := 0, used := 0, nr := false
    ovr := false, chkx := 0, budget := 0, timer := 0, tip := false, win := none, saved := [], cores := [0], cycles := 0
    energy := 0, tstart := 0, ran := true, outcome := none, stopping := none }

/-- `base` with `step1` on its slot. -/
def withStep (r : StepRec) (f : Hart → Hart) : State :=
  let s := base fun h => f { h with steph := 1 }
  { s with
    slots := [(0, { Slot.reset with st := .running, rcd := [0x0000800000000001, 0, 0, 0, 0, 0, 0, 0] })]
    disp := { s.disp with steps := [r] } }

theorem test_meets_TrapEntry :
    handled (base fun h => { h with tvec := 0x40 }) ∧ (base id).hart.frecbase = 0 ∧ (0x0D#6) ≠ 0x10 ∧ heldBy (base id) = none ∧
    (base id).hart.tvec = 0 ∧ findStep (withStep step1 id) (withStep step1 id).hart.steph.toNat = some step1 := by
  refine ⟨⟨rfl, by decide⟩, rfl, by decide, by decide, rfl, by decide⟩

theorem test_meets_ReturnFromException :
    let s := fun (plev : Bool) (epc : Word) (fs : List Frame) => base fun h => { h with
      epc := epc, frames := fs, susp := true, tstat := { h.tstat with lev := true, plev := plev } }
    kernel (base id) = false ∧ kernel (s false 8 []) = true ∧ (s true 8 []).hart.tstat.plev = true ∧
    (s false 8 [frame2]).hart.frames = frame2 :: [] ∧ frame2.holds (s false 8 [frame2]).hart.epc = true ∧
    (frame2.holds (s false 16 [frame2]).hart.epc = false ∧ (s false 16 [frame2]).hart.epc = frame2.last + 4) ∧
    frame2.holds (s false 20 [frame2]).hart.epc = false ∧ (s false 20 [frame2]).hart.epc ≠ frame2.last + 4 := by decide

theorem test_meets_WaitHaltAndInterrupts :
    let s := fun (tvec : Word) => base fun h => { h with tvec := tvec, tstat := { h.tstat with tip := true } }
    pendingSources (s 0) (s 0).cur ≠ 0 ∧ pendingSources (base id) (base id).cur = 0 ∧
    findStep (withStep step1 id) (withStep step1 id).hart.steph.toNat = some step1 ∧ runningSlot (s 0x40) 0 = some 0 ∧
    takenSources (base id) 0 = 0 ∧ takenSources (s 0x40) 0 ≠ 0 ∧ (hartAt (s 0x40) 0).tvec ≠ 0 ∧ (hartAt (s 0) 0).tvec = 0 ∧
    (let u := withStep step1 fun h => { h with tstat := { h.tstat with tip := true } }
     takenSources u 0 ≠ 0 ∧ findStep u (hartAt u 0).steph.toNat = some step1) := by decide

theorem test_meets_ControlRegisterReads : State.reset.ports.windows = [] := rfl

theorem test_meets_ControlRegisterWrites :
    let s := base fun h => { h with frames := [frame2], x := regs [(1, 0xFFC0)], tstat := { h.tstat with lev := true } }
    (s.hart.frames.find? fun f => f.level == (1 : Fin 6).val) = some frame2 ∧
    (s.hart.frames.find? fun f => f.level == (5 : Fin 6).val) = none ∧ kernel s = true ∧ kernel (base id) = false ∧
    ¬ ((xreg s 1).extractLsb' 10 2 ≠ 3 ∧ ((xreg s 1).extractLsb' 12 4).toNat < 13) ∧
    ((xreg s 2).extractLsb' 10 2 ≠ 3 ∧ ((xreg s 2).extractLsb' 12 4).toNat < 13) ∧ s.ports.windows = [] := by decide

/-- `base` at kernel level with a BANKROLE of core 0 and x1. -/
def roleS (v : Word) (old : Word) : State :=
  let t := base fun h => { h with x := regs [(1, v)], tstat := { h.tstat with lev := true } }
  { t with cores := [(0, { CoreSt.reset with bankrole := old })] }

theorem test_meets_ControlRegisterWrites_bankRoles :
    (∃ b, b < 32 ∧ (xreg (roleS 0xC000000000000000 0) 1).extractLsb' (2 * b) 2 = 3) ∧
    (∀ b, b < 32 → (xreg (roleS 0x6 0) 1).extractLsb' (2 * b) 2 ≠ 3) ∧ bankroleBusy (roleS 0x6 0) 0 0x6 = false ∧
    (∃ b, b < 32 ∧ (coreAt (roleS 0x6 0x1) 0).bankrole.extractLsb' (2 * b) 2 = 1 ∧ (0x6 : Word).extractLsb' (2 * b) 2 ≠ 1) ∧
    pinnedGrans (freePinned (roleS 0x6 0x1) 0) 0 = [] ∧
    bankroleBusy { roleS 0x2 0x1 with slots := [(1, { Slot.reset with st := .staging, pre := [⟨0x10000, 0, 0⟩] })] } 0 0x2 = true := by
  refine ⟨⟨31, by decide, by decide⟩, by decide, by decide, ⟨0, by decide, by decide, by decide⟩, by decide, by decide⟩

/-- The links of router 0 are out of service. -/
def cutOff (s : State) : State :=
  { s with svc := { s.svc with lease := [(2048, .leased), (2049, .leased), (2160, .leased), (2161, .leased)] } }

/-- The entry that a copy in I1 is held for finds no route home, so the copy cannot leave with its bank. -/
theorem test_meets_ControlRegisterWrites_pinned :
    let g := mkGranule 7 0 1 1
    let s := roleS 0 0x1
    let s := cutOff (setCore s 0 { coreAt s 0 with i1 := [(0x400, ⟨g, false, 2, 0, 1⟩)], o1 := [(0x400, ⟨g, none, 1, false, false, 0, 1⟩)] })
    bankroleBusy s 0 0 = false ∧ pinnedGrans (freePinned s 0) 0 ≠ [] := by decide
/-! ## What the statements assume: memory -/

/-- x1 = 0x10008 in the mapped page, x2 = 0x55, x3 = 0x20008 in a page that nothing maps. -/
def memS : State := withX [(1, 0x10008), (2, 0x55), (3, 0x20008), (4, 0x1000C)]

theorem memS_loadable : Loadable memS 0x400 false := by
  show ReadWay _ _ ∧ TakesCopy _ _ _ _
  refine ⟨?_, ?_, ?_, ?_⟩ <;> (try unfold ReadWay) <;> decide

/-- With every link in service every route is up (R14). -/
theorem routes_up (s : State) (h : s.svc.lease = []) (a b : Nat) : routeUp s a b = true := by
  have e : ∀ c u, inService s c u = true := by intro c u; unfold inService leaseOf; rw [h]; rfl
  simp [routeUp, rowUp, columnUp, pairUp, e]

theorem noWay_up (s : State) (h : s.svc.lease = []) (n gran src : Nat) (direct : Bool) : noWay s n gran src direct = none := by
  unfold noWay
  rw [List.find?_eq_none]
  intro l _
  rw [routes_up s h]
  decide

theorem line_up (s : State) (h : s.svc.lease = []) (n gran : Nat) : LineWay s n gran := fun _ src => noWay_up s h n _ src false

theorem leg_up (s : State) (h : s.svc.lease = []) (r : Option Nat) (gran : Nat) : legFrom s r gran = none := by
  cases r with
  | none => rfl
  | some r => unfold legFrom; dsimp only; rw [routes_up s h]; rfl

theorem write_up (s : State) (h : s.svc.lease = []) (r : Option Nat) (gran : Nat) : writeLeg s r gran = none := by
  unfold writeLeg refreshLeg
  rw [leg_up s h, routes_up s h]
  simp

theorem memS_maps (a : Acc) : Maps memS 0x10008 a 0x10008 false := by
  cases a <;> (unfold Maps; decide)

theorem memS_home : HomeWay memS 0x400 := by unfold HomeWay; decide

/-- A granule of window 1, at 0x4000000000, in the buffer of the bound port. -/
def winG : Granule := mkGranule 7 450 4 0

theorem test_meets_Loads :
    (xreg memS 1 = 0x10008 ∧ (0x10008 : Word).toNat % LWidth.d.bytes = 0 ∧ Maps memS 0x10008 .read 0x10008 false ∧
      ovfRange memS (0x10008 / 64) = none ∧ Loadable memS (0x10008 / 64) false) ∧
    (windowOf (0x10008 / 64) = 0 ∧ HomeWay memS 0x400 ∧ JunctionGood (drainOwn memS (curCore memS) 0x400) 0x400 ∧
      visible (drainOwn memS 0 0x400) (some 0) (junctionGranule (drainOwn memS 0 0x400) 0x400).1
        (relation (me memS) (junctionGranule (drainOwn memS 0 0x400) 0x400).1.prod) = true) := by
  refine ⟨⟨by decide, by decide, memS_maps .read, by decide, memS_loadable⟩, by decide, memS_home, ?_, by decide⟩
  unfold JunctionGood; decide

/-- A SELF page whose granule the core holds itself. -/
theorem test_meets_Loads_self :
    let e : OutEntry := ⟨mkGranule 7 0 1 1, none, 0, false, true, 0, 0⟩
    let s := { memS with
      clusters := [(0, { ClusterSt.reset with tlb := [⟨0, 1, false, 0xAF00000000010000⟩] })]
      cores := [(0, { CoreSt.reset with o1 := [(0x400, e)] })] }
    Maps s 0x10008 .read 0x10008 true ∧ ovfRange s 0x400 = none ∧ selfEntry s (curCore s) 0x400 = some e ∧
    Takes s (me s) (curCluster s) e.g := by
  refine ⟨by unfold Maps; decide, by decide, by decide, by decide, by decide⟩

/-- A granule of window 1 that stands in the buffer of its port. -/
theorem test_meets_Loads_window :
    let e : OutEntry := ⟨winG, none, 0, false, false, 0, 0⟩
    let g := 2 ^ 33
    let s := { memS with
      clusters := [(0, { ClusterSt.reset with tlb := [⟨0, 1, false, 0x8F00008000000000⟩] })]
      ports := { memS.ports with buffer := [(g, e)], windows := [(1, (2, 9))] } }
    Maps s 0x10000 .read (64 * g) false ∧ windowOf g ≠ 0 ∧ HomeWay s g ∧ tget (drainOwn s 0 g).ports.buffer g = some e ∧
    Takes (drainOwn s 0 g) (me s) (curCluster s) e.g := by
  refine ⟨by unfold Maps; decide, by decide, by unfold HomeWay; decide, by decide, by decide, by decide⟩

/-- `memS` with the first page's range 0 in overflow. -/
def ovfS : State := { memS with
  crngb := memS.crngb.set 0 0x10000
  crngc := memS.crngc.set 0 0xC000000000000001 }

/-- `memS` with the granule of 0x10008 formed by core 40 at level 0 in HBM. -/
def foreignS : State := setHbm memS 0x400 (mkGranule 7 40 0 5)

/-- `memS` with that granule's check word spoilt. -/
def brokenS : State := setHbm memS 0x400 ⟨7, (mkGranule 6 384 4 0).md⟩

/-- `memS` with the page owned by the host. -/
def hostS : State := { memS with clusters := [(0, { ClusterSt.reset with tlb := [⟨0, 1, false, 0xCF00000000010000⟩] })] }

theorem test_meets_AccessTraps :
    (0x1000C : Word).toNat % LWidth.d.bytes ≠ 0 ∧
    xlate memS (hereTlb memS) 0 0x20008 .read = .page 0x04 0 1 ∧ xlate memS (hereTlb memS) 0 0x20008 .write = .page 0x04 0 1 ∧
    (xlate ovfS (hereTlb ovfS) 0 0x10008 .read = .ok 0x10008 false ∧ ovfRange ovfS 0x400 = some 0 ∧
      rangeMeeting ovfS 0x10008 8 = some 0) ∧
    handled (base fun h => { h with tvec := 0x40 }) := by
  refine ⟨by decide, by decide, by decide, by decide, rfl, by decide⟩

/-- A read that a load makes, or a store of part of a granule. -/
theorem test_meets_AccessTraps_reads (a : Acc) :
    (Maps foreignS 0x10008 a 0x10008 false ∧ ovfRange foreignS 0x400 = none ∧ rangeMeeting foreignS 0x10008 8 = none ∧
      tget (coreAt foreignS (curCore foreignS)).o1 0x400 = none ∧ windowOf 0x400 = 0 ∧ ReadWay foreignS 0x400 ∧
      visible foreignS (some 0) (peekI1 foreignS 0 0x400).c.g (relation (me foreignS) (peekI1 foreignS 0 0x400).c.g.prod) = false) ∧
    (Maps brokenS 0x10008 a 0x10008 false ∧ ovfRange brokenS 0x400 = none ∧ rangeMeeting brokenS 0x10008 8 = none ∧
      tget (coreAt brokenS (curCore brokenS)).o1 0x400 = none ∧ ReadWay brokenS 0x400 ∧
      (peekI1 brokenS 0 0x400).c.ph = false ∧ (peekI1 brokenS 0 0x400).c.g.verifies = false ∧
      visible brokenS (some 0) (peekI1 brokenS 0 0x400).c.g (relation (me brokenS) (peekI1 brokenS 0 0x400).c.g.prod) = true ∧
      heldBy brokenS = none) := by
  have m1 : Maps foreignS 0x10008 a 0x10008 false := by cases a <;> (unfold Maps; decide)
  have m2 : Maps brokenS 0x10008 a 0x10008 false := by cases a <;> (unfold Maps; decide)
  exact ⟨⟨m1, by decide, by decide, by decide, by decide, by unfold ReadWay; decide, by decide⟩,
    m2, by decide, by decide, by decide, by unfold ReadWay; decide, by decide, by decide, by decide, by decide⟩

theorem test_meets_AccessTraps_hostPages :
    let page := pageKey 0x10008 3
    let asked : State := { hostS with ports := { hostS.ports with pageRequests := [⟨0, page, 0, tableOf hostS 0⟩] } }
    let refused : State := { hostS with ports := { hostS.ports with refusals := [(tableOf hostS 0, page)] } }
    xlate hostS (hereTlb hostS) (curLaunch hostS) 0x10008 .read = .host 3 ∧
    xlate hostS (hereTlb hostS) (curLaunch hostS) 0x10008 .write = .host 3 ∧
    ((tableOf hostS (curLaunch hostS), page) ∉ hostS.ports.refusals ∧
      ¬ ∃ q ∈ hostS.ports.pageRequests, q.table = tableOf hostS (curLaunch hostS) ∧ q.page = page) ∧
    (xlate asked (hereTlb asked) (curLaunch asked) 0x10008 .read = .host 3 ∧
      (tableOf asked (curLaunch asked), page) ∉ asked.ports.refusals ∧
      ∃ q ∈ asked.ports.pageRequests, q.table = tableOf asked (curLaunch asked) ∧ q.page = page) ∧
    (xlate refused (hereTlb refused) (curLaunch refused) 0x10008 .write = .host 3 ∧
      (tableOf refused (curLaunch refused), page) ∈ refused.ports.refusals) := by decide

theorem test_meets_Stores :
    (0x10008 : Word).toNat % EW.d.bytes = 0 ∧ Maps memS 0x10008 .write 0x10008 false ∧ rangeMeeting memS 0x10008 EW.d.bytes = none ∧
    (tget (coreAt memS (curCore memS)).o1 (0x10008 / 64) = none → Loadable memS (0x10008 / 64) false) ∧ holdFits memS ∧
    HasRoom memS 1 := by
  refine ⟨by decide, memS_maps .write, by decide, fun _ => memS_loadable, Or.inl (by decide), ?_⟩
  unfold HasRoom; decide

/-- A hart that waits in the second phase of a release, and one that waits for its silhouette. -/
def phaseS (p : Nat) : State := { memS with hart := { memS.hart with phase := p } }

theorem phase1_released (l : Nat) : Released (withNr (phaseS 1)) l (advanceRcnt (withNr (phaseS 1)) (curCore (withNr (phaseS 1)))) :=
  .inl ⟨by decide, by decide, rfl⟩

theorem phase4_shipped (l gran : Nat) : Shipped (withNr (phaseS 4)) l gran (withNr (phaseS 4)) := .inl ⟨by decide, by decide, rfl⟩

theorem test_meets_Atomics :
    (xreg (phaseS 4) 1).toNat % 8 = 0 ∧ Maps (phaseS 4) (xreg (phaseS 4) 1) .rw 0x10008 false ∧ windowOf (0x10008 / 64) = 0 ∧
    rangeMeeting (phaseS 4) 0x10008 8 = none ∧ (∃ u, Shipped (withNr (phaseS 4)) Scope.cluster.level 0x400 u) ∧
    HomeWay (withNr (phaseS 4)) 0x400 ∧ JunctionGood (drainOwn (withNr (phaseS 4)) 0 0x400) 0x400 ∧ HomeRoom (phaseS 4) 0x400 := by
  refine ⟨by decide, by unfold Maps; decide, by decide, by decide, ⟨_, phase4_shipped _ _⟩, by unfold HomeWay; decide, ?_, ?_⟩
  · unfold JunctionGood; decide
  · unfold HomeRoom; decide

/-- `phaseS` with a count of core 0 still on its way, in the input buffer of router 0. -/
def unackedS (p : Nat) : State := { phaseS p with mesh := [⟨.count 0 0 3 1, 0, 0, 0, none⟩] }

/-- A copy command of slot 0. -/
def cmd0 : CopyCmd :=
  { q := 1, slot := 0, step := 0, nest := Vector.replicate 12 ⟨1, 0, 0⟩, cprun := 64, cpres := 0, cpcvt := 0, src := 0x10000
    dst := 0x10040, acq := false, rel := false, scope := .core, cv := false, ef := false, runs := 0, passed := false, phase := 0
    word := 0 }

/-- `memS` with a copy command of the hart still under way. -/
def copyingS : State := { memS with clusters := [(0, { clusterAt memS 0 with copyq := [cmd0], copyn := 1 })] }

/-- `memS` with links out of service around router 0, and a granule in O1 whose home lies beyond them. -/
def cutS : State := cutOff { memS with
  cores := [(0, { CoreSt.reset with o1 := [(0x400, ⟨mkGranule 0x55 0 0 1, none, 0, false, false, 0, 0⟩)] })] }

theorem test_meets_Releases :
    (∃ u, Released (withNr (phaseS 1)) Scope.core.level u) ∧ (clusterAt (phaseS 1) (curCluster (phaseS 1))).partials = [] ∧
    ((phaseS 1).hart.phase = 1 ∧ acked (phaseS 1) (curCore (phaseS 1)) = true) ∧
    (copyingS.hart.phase ≠ 1 ∧ copiesOf copyingS copyingS.cur = true ∧ heldBy copyingS = none) ∧
    ((unackedS 1).hart.phase = 1 ∧ acked (unackedS 1) (curCore (unackedS 1)) = false ∧ heldBy (unackedS 1) = none) ∧
    (cutS.hart.phase ≠ 1 ∧ copiesOf cutS cutS.cur = false ∧ (ownRelease cutS 3).2 = false ∧ heldBy cutS = none) ∧
    (let s := unackedS 0
     s.hart.phase ≠ 1 ∧ copiesOf s s.cur = false ∧ (ownRelease s 1).2 = true ∧ acked (ownRelease s 1).1 (curCore s) = false) := by
  refine ⟨⟨_, phase1_released _⟩, by decide, by decide, by decide, by decide, by decide, by decide⟩

theorem test_meets_FlagInstructions :
    let a : Attachment := ⟨3, 0⟩
    let s := phaseS 4
    BitVec.ofInt 64 ((xreg s 1).toInt + (0#5).toInt * 8) = 0x10008 ∧ Maps s 0x10008 .rw 0x10008 false ∧
    Maps s 0x10008 .read 0x10008 false ∧ rangeMeeting s 0x10008 8 = none ∧ ovfRange s 0x400 = none ∧
    (∃ u, Shipped (withNr s) Scope.cluster.level 0x400 u) ∧ HomeWay (withNr s) 0x400 ∧ JunctionGood (drainOwn s 0 0x400) 0x400 ∧
    isLost s 0x400 = false ∧ tget s.attach 0x400 = none ∧ (sliceAttachments s (junctionOf s 0x400)).length < 64 ∧
    tget ({ s with attach := [(0x400, a)] } : State).attach 0x400 = some a ∧ isLost { s with lost := [0x200] } 0x400 = true := by
  refine ⟨by decide, by unfold Maps; decide, by unfold Maps; decide, by decide, by decide, ⟨_, phase4_shipped _ _⟩, by unfold HomeWay; decide,
    ?_, by decide, by decide, by decide, by decide, by decide⟩
  unfold JunctionGood; decide

theorem test_meets_FencesAndDrain : (clusterAt memS (curCluster memS)).partials = [] ∧ copiesOf copyingS copyingS.cur = true ∧
    copiesOf memS memS.cur = false ∧
    (3 ≤ Scope.device.level ∧ ∃ x ∈ (clusterAt (fenceDrain cutS .device) (curCluster cutS)).o2, x.2.g.prod = curCore cutS) ∧
    (coreAt (fenceDrain memS .system) (curCore memS)).o1 = [] ∧ (clusterAt (fenceDrain memS .system) (curCluster memS)).o2 = [] ∧
    (clusterAt (fenceDrain memS .system) (curCluster memS)).partials = [] := by decide

/-! ## Memory instructions -/

/-- `memS` with the granule of 0x10008 in O1, formed by a store before. -/
def heldS : State := { memS with
  hart := { memS.hart with x := regs [(1, 0x10008), (2, 0x55), (4, 0x10000), (5, 1)] }
  cores := [(0, { CoreSt.reset with
    o1 := [(0x400, ⟨mkGranule 0x7777 0 0 0, none, 0, false, false, 0, 0⟩)], tlb := [⟨0, 1, false, 0x8F00000000010000⟩] })] }

theorem test_store_forms : (tget (coreAt (after (.st .d 2 1 0) heldS) 0).o1 0x400).map (fun e => (e.g.prod, e.g.level, e.g.rc)) =
    some (0, 0, 1) ∧
    (tget (coreAt (after (.st .d 2 1 0) heldS) 0).o1 0x400).map (fun e => e.g.data.extractLsb' 0 128) =
      some 0x550000000000007777 := by decide
theorem test_ld_signExtends : xAfter (.ld .b 5 1 0) (setHbm memS 0x400 (mkGranule (0x80 <<< 64) 384 4 0)) 5 = 0xFFFFFFFFFFFFFF80 := by
  decide
theorem test_ld_misaligned : (after (.ld .d 5 4 0) { memS with hart := { memS.hart with tvec := 0x40 } }).hart.ecause = 0x03 := by decide
theorem test_ld_unturned : (after (.ld .d 5 1 0) { foreignS with hart := { foreignS.hart with tvec := 0x40 } }).hart.ecause = 0x07 := by
  decide
theorem test_ld_page_fault : let h := (after (.ld .d 5 3 0) { memS with hart := { memS.hart with tvec := 0x40 } }).hart
    h.ecause = 0x04 ∧ h.eval = 0x20008 := by decide
theorem test_amoadd_sign : xAfter (.amoadd false false false .core 5 1 2) (setHbm memS 0x400 (mkGranule (0xFFFFFFFF <<< 64) 384 4 0)) 5 =
    0xFFFFFFFFFFFFFFFF := by decide
theorem test_amocas_mismatch : (junctionGranule (after (.amocas true false false .core 3 1 2) memS) 0x400).1.data = 0 := by decide
theorem test_strel_attaches : (after (.strel .cluster 1 2 0) { phaseS 4 with hart := { (phaseS 4).hart with sil := 5 } }).attach =
    [(0x400, ⟨5, 0⟩)] := by decide
theorem test_ldacq_joins : (after (.ldacq 5 1 0) { memS with attach := [(0x400, ⟨6, 0⟩)] }).hart.sil = 6 := by decide
theorem test_rel_counts : countsAt (after (.rel .cluster) memS) 0 = ⟨2, 1, 1, 0, 0⟩ := by decide
theorem test_turn_own : (after (.turn 4 5 1) heldS).hart.turnst = 0x4000000000000001 := by decide

/-! ## What the statements assume: turns, queues and steps -/

/-- `memS` after a store: the granule of 0x10008 stands in O1; x1 = 0x10000, x2 = 1. -/
def ownS : State := { memS with
  hart := { memS.hart with x := regs [(1, 0x10000), (2, 1)] }
  cores := [(0, { CoreSt.reset with
    bankrole := 1, o1 := [(0x400, ⟨mkGranule 0x55 0 0 1, none, 0, false, false, 0, 0⟩)]
    tlb := [⟨0, 1, false, 0x8F00000000010000⟩] })] }

/-- The entry that `ownS` holds. -/
def ownE : OutEntry := ⟨mkGranule 0x55 0 0 1, none, 0, false, false, 0, 0⟩

theorem ownS_maps : Maps ownS 0x10000 .read 0x10000 false := by unfold Maps; decide

theorem ownS_ready : turnReady ownS 0x10000 1 := by
  refine ⟨⟨rfl, fun i hi => ?_, fun i hi pa self h => ?_⟩, by unfold turnRoom; decide,
    fun i _ pa _ _ => ⟨leg_up ownS rfl _ _, line_up ownS rfl _ _, fun _ => routes_up ownS rfl _ _⟩⟩
  · obtain rfl : i = 0 := by omega
    exact ⟨by decide, _, _, ownS_maps⟩
  · obtain rfl : i = 0 := by omega
    have e : Xl.ok pa self = Xl.ok 0x10000 false := by
      rw [← show xlate ownS (hereTlb ownS) (curLaunch ownS) (0x10000 + BitVec.ofNat 64 0) .read = Xl.ok pa self from h]
      decide
    injection e with e1 e2
    subst e1
    unfold soundMetadata
    refine ⟨?_, ?_, ?_, ?_, ?_⟩
    · intro c hc e he
      have hm : ∀ c ∈ coresOf (curCluster ownS), ∀ e ∈ tget (coreAt ownS c).o1 (0x10000 / 64), e.g.metaKind = none := by decide
      exact hm c hc e he
    · intro e he
      have hm : ∀ e ∈ tget (clusterAt ownS (curCluster ownS)).o2 (0x10000 / 64), e.g.metaKind = none := by decide
      exact hm e he
    · intro x hx; cases hx
    · decide
    · intro e he
      have hm : ∀ e ∈ tget ownS.ports.buffer (0x10000 / 64), e.g.metaKind = none := by decide
      exact hm e he

theorem test_meets_Turns :
    (2 ^ 32 < (xreg (withX [(2, 0x100000001)]) 2).toNat) ∧
    (ownS.Inv ∧ (xreg ownS 2).toNat ≤ 2 ^ 32 ∧ ownS.hart.turnpos = 0 ∧ ownS.hart.phase ≠ 3 ∧
      turnReady ownS (xreg ownS 1) (xreg ownS 2).toNat ∧ HasRoom ownS (granulesMet (xreg ownS 1).toNat (xreg ownS 2).toNat)) ∧
    (let s := { ownS with hart := { ownS.hart with phase := 3, turnpos := 1 } }
     acked s (curCore s) = true ∧ s.hart.turnpos.toNat = (xreg s 2).toNat ∧ 0 < (xreg s 2).toNat ∧
     acked { s with mesh := [⟨.notice 0 0x400 0x400, 0, 0, 0, none⟩] } 0 = false) := by
  refine ⟨by decide, ⟨by unfold State.Inv; decide, by decide, by decide, by decide, ownS_ready, ?_⟩, by decide⟩
  unfold HasRoom; decide

/-- `ownS`, but the entry was formed by core 1; `ownS` where core 4 of cluster 1 has formed the granule later; and a granule
that stands at its home junction. -/
def otherS : State := { ownS with
  cores := [(0, { coreAt ownS 0 with o1 := [(0x400, { ownE with g := mkGranule 0x55 1 0 1 })] })] }
def laterS : State := { ownS with
  cores := ownS.cores ++ [(4, { CoreSt.reset with o1 := [(0x400, ⟨mkGranule 0x66 4 0 1, none, 5, false, false, 0, 5⟩)] })] }
def homeS : State := setHbm { ownS with cores := [(0, { coreAt ownS 0 with o1 := [] })] } 0x400 (mkGranule 7 384 3 0)

theorem test_meets_Turns_places :
    (ownS.units = none ∧ ownS.hart.phase ≠ 3 ∧ (xreg ownS 1).toNat % 64 + (xreg ownS 2).toNat ≤ 64 ∧
      Maps ownS (xreg ownS 1) .read 0x10000 false ∧ windowOf 0x400 = 0 ∧ (clusterAt ownS 0).partials = [] ∧
      tget (coreAt ownS (curCore ownS)).o1 0x400 = some ownE ∧ ownE.held = none ∧ ownE.g.metaKind = none ∧
      turnFind ownS 0 0x400 = some (.o1 0, ownE.g) ∧ ownE.g.prod = 0 ∧ i1Takes ownS 0 0x400 = true) ∧
    (otherS.Inv ∧ turnFind otherS 0 0x400 = some (.o1 0, mkGranule 0x55 1 0 1) ∧ (mkGranule 0x55 1 0 1).prod = 1 ∧
      (mkGranule 0x55 1 0 1).metaKind = none) ∧
    (laterS.Inv ∧ tget (coreAt laterS 0).o1 0x400 = some ownE ∧ turnFind laterS 0 0x400 = some (.elsewhere, ownE.g)) ∧
    (homeS.Inv ∧ Maps homeS (xreg homeS 1) .read 0x10000 false ∧ turnFind homeS 0 0x400 = some (.home, mkGranule 7 384 3 0) ∧
      HomeWay homeS 0x400 ∧ (junctionGranule homeS 0x400).1 = mkGranule 7 384 3 0 ∧ (mkGranule 7 384 3 0).metaKind = none ∧
      (mkGranule 7 384 3 0).prod = 384) := by
  refine ⟨⟨by decide, by decide, by decide, ownS_maps, by decide, by decide, by decide, by decide, by decide, by decide, by decide, by decide⟩,
    ⟨by unfold State.Inv; decide, by decide, by decide, by decide⟩, ⟨by unfold State.Inv; decide, by decide, by decide⟩,
    by unfold State.Inv; decide, by unfold Maps; decide, by decide, by unfold HomeWay; decide, by decide, by decide, by decide⟩

theorem test_meets_Turns_query :
    2 ^ 26 < (xreg (withX [(2, 0x4000001)]) 2).toNat ∧ 0 < (xreg ownS 2).toNat ∧ cachedReads ownS (xreg ownS 1) (xreg ownS 2).toNat ∧
    (xreg ownS 1).toNat % 65536 + (xreg ownS 2).toNat ≤ 65536 ∧ Maps ownS (xreg ownS 1) .read 0x10000 false ∧
    (tlbFind (coreAt ownS (curCore ownS)).tlb (curLaunch ownS) (xreg ownS 1)).isSome = true ∧
    32768 ≤ ((countsAt ownS 0).p1 - ownE.g.rc).toNat := by
  refine ⟨by decide, by decide, ownS_ready.1.2.1, by decide, ownS_maps, by decide, by decide⟩

/-- Slot 0 with qin0 and qout0 bound to pipes 1 and 2; pipe 2 leads to qin1 of slot 2, whose queue holds `ws`. -/
def queueS (own ws : List Word) (done : Option Word) : State :=
  let s := base fun h => { h with x := regs [(1, 0x10000), (2, 8)], qin := h.qin.set 0 own }
  { s with
    slots := [(0, { Slot.reset with st := .running, rcd := [0, 0, 0, 0, 0, 0, 0, 0x20001] }), (2, { Slot.reset with st := .running })]
    rest := [(2, { Hart.reset with qin := Hart.reset.qin.set 1 ws, tdone := done })]
    disp := { s.disp with routes := [⟨0, 2, 2, 1, 1⟩] } }

theorem test_meets_Queues :
    outPipe (base id) 0 = 0 ∧ inPipe (base id) 0 = 0 ∧ outPipe (queueS [] [] none) 0 = 2 ∧ inPipe (queueS [] [] none) 0 = 1 ∧
    routeOf (queueS [] [] none) 0 2 = some ⟨0, 2, 2, 1, 1⟩ ∧
    (hartAt (queueS [] [] (some 0)) 2).tdone.isSome = true ∧
    ((hartAt (queueS [] (List.replicate 64 0) none) 2).tdone = none ∧
      64 ≤ ((hartAt (queueS [] (List.replicate 64 0) none) 2).queue 1).length) ∧
    ((hartAt (queueS [] (List.replicate 63 0) none) 2).queue 1).length < 64 ∧
    62 < ((hartAt (queueS [] (List.replicate 63 0) none) 2).queue 1).length ∧
    ((hartAt (queueS [] (List.replicate 62 0) none) 2).queue 1).length ≤ 62 ∧
    (queueS [7, 8] [] none).hart.queue 0 = 7 :: [8] ∧ (queueS [] [] none).hart.queue 0 = [] ∧
    sendersGone (queueS [] [] none) 0 1 = true ∧
    sendersGone { queueS [] [] none with slots := [(0, { Slot.reset with st := .running, rcd := [0, 0, 0, 0, 0, 0, 0, 0x00001] }),
      (2, { Slot.reset with st := .running, rcd := [0, 0, 0, 0, 0, 0, 0, 0x10000] })] } 0 1 = false ∧
    (xreg (queueS [] [] none) 2).toNat ≤ 2 ^ 32 ∧ (queueS [] [] none).hart.turnpos = 0 ∧
    (let s := queueS [] [] none; ({ s with hart := { s.hart with phase := 2 } } : State).hart.phase = 2) := by decide

theorem test_qsend_delivers : (hartAt (after (.qsend 1 0) (queueS [] [5] none)) 2).queue 1 = [5, 0x10000] := by decide
theorem test_qrecv_takes : xAfter (.qrecv 3 0) (queueS [7, 8] [] none) 3 = 7 := by decide
theorem test_qpoll_empty : xAfter (.qpoll 3 4 0) (queueS [] [] none) 4 = 2 := by decide

/-- A second step, queued. -/
def step2 : StepRec := { step1 with handle := 0x1000002, launch := 1, place := .queued, recs := [] }

/-- A live launch of one level with four steps. -/
def launch1 : LaunchRec :=
  { id := 1, blk := [], desc := [], pipes := [], table := 0, standing := false, total := 4, emitted := 2, completed := 0
    firings := 0, deferred := [], ended := false, accepted := 0, cycles := 0, energy := 0, msg := none, outwm := 0 }

/-- `step1` running, `step2` queued in a live launch; x1 names `step2`, x2 `step1`. -/
def depS : State :=
  let s := withStep step1 fun h => { h with x := regs [(1, 0x1000002), (2, 1)] }
  { s with disp := { s.disp with steps := [step1, step2], launches := [{ launch1 with id := 0, total := 2, emitted := 2 }, launch1] } }

theorem test_meets_SpawnAndDependences_tdep :
    (dependeeOpen depS 1 = true ∧ waiterDead depS 0x1000002 = false ∧ closesCycle depS 0x1000002 1 = false ∧
      waiterStarted depS 0x1000002 = false ∧ waiters depS 0x1000002 = [step2] ∧ launchOfHandle depS 0x1000002 = none ∧
      depsFull depS 0x1000002 = false ∧ edgeCount depS = 0 ∧ heldBy depS = none ∧ step2.handle = 0x1000002) ∧
    (let s := { depS with disp := { depS.disp with edges := [(1, 0x1000002)] } }
     dependeeOpen s 1 = true ∧ waiterDead s 0x1000002 = false ∧ closesCycle s 0x1000002 1 = true) ∧
    (waiterStarted depS 1 = true ∧ closesCycle depS 1 0x1000002 = false) ∧ waiterDead depS 0x5000000 = true ∧
    waiterStarted depS 0x5000000 = false ∧ dependeeOpen depS 0x5000000 = false ∧
    (let r := { step2 with deps := 65535 }
     let s := { depS with disp := { depS.disp with steps := [step1, r] } }
     waiters s 0x1000002 = [r] ∧ 65535 ≤ r.deps ∧ depsFull s 0x1000002 = true ∧ closesCycle s 0x1000002 1 = false) ∧
    (let l := { launch1 with total := 4, emitted := 2 }
     let w := 0x1FFFFFF
     let s := { depS with disp := { depS.disp with launches := [{ launch1 with id := 0, total := 2, emitted := 2 }, l] } }
     launchOfHandle s w = some l ∧ l.emitted < l.total ∧ dependeeOpen s 1 = true ∧ waiterDead s w = false ∧
       closesCycle s w 1 = false ∧ waiterStarted s w = false ∧ depsFull s w = false ∧ waiters s w = [step2]) := by decide

/-- `depS` with `n` edges of other steps. -/
def edgesS (n : Nat) : State := { depS with disp := { depS.disp with edges := List.replicate n (9, 9) } }

theorem edgesS_open (n : Nat) : dependeeOpen (edgesS n) 1 = true ∧ waiterDead (edgesS n) 0x1000002 = false ∧
    waiterStarted (edgesS n) 0x1000002 = false ∧ waiters (edgesS n) 0x1000002 = [step2] ∧
    launchOfHandle (edgesS n) 0x1000002 = none ∧ depsFull (edgesS n) 0x1000002 = false := ⟨rfl, rfl, rfl, rfl, rfl, rfl⟩

theorem edgesS_count (n : Nat) : edgeCount (edgesS n) = n := by
  show (List.replicate n (9, 9)).length + 0 = n
  simp

theorem edgesS_acyclic (n : Nat) : closesCycle (edgesS n) 0x1000002 1 = false := by
  have e : waitsOn (edgesS n) 1 = [] := by
    show ((List.replicate n ((9, 9) : Nat × Nat) ++ []).filter fun e : Nat × Nat => e.1 == 1).map (fun e : Nat × Nat => e.2) = []
    simp
  have r : ∀ m, reaches (edgesS n) 0x1000002 m 1 = false := by
    intro m
    cases m with
    | zero => rfl
    | succ k =>
      show (meets 0x1000002 1 || (waitsOn (edgesS n) 1).any (reaches (edgesS n) 0x1000002 k)) = false
      rw [e]; rfl
  exact r _

/-- With one of the 65,536 edges still free an edge is made; with none free `tdep` waits. -/
theorem test_meets_SpawnAndDependences_edges :
    ¬ (65536 ≤ (edgesS 65535).disp.edges.length + (edgesS 65535).disp.launches.foldl (fun t l => t + l.deferred.length) 0) ∧
    65536 ≤ (edgesS 65536).disp.edges.length + (edgesS 65536).disp.launches.foldl (fun t l => t + l.deferred.length) 0 := by
  have h : ∀ n, (edgesS n).disp.edges.length + (edgesS n).disp.launches.foldl (fun t l => t + l.deferred.length) 0 = n := edgesS_count
  rw [h, h]; decide

theorem test_meets_BarriersDoneAndYield_steps :
    let s := fun (v : Word) => withStep step1 fun h => { h with x := regs [(1, v)] }
    (xreg (s 0x10) 1).extractLsb' 4 4 ≠ 0 ∧ (xreg (s 0) 1).extractLsb' 0 4 = 0 ∧ (xreg (s 0x501) 1).extractLsb' 0 4 = 1 ∧
    findStep (s 1) (s 1).hart.steph.toNat = some step1 ∧ step1.outcome = none ∧ findStep (base id) (base id).hart.steph.toNat = none ∧
    step1.place = .running ∧ step1.retryable = false ∧ (slotsOfStep (s 1) step1.handle).length = 1 ∧ waitingStep (s 1) 0 step1 = false ∧
    (let r := { step1 with handle := 2, place := .bound, recs := [(0, [0x0000800000000002, 0, 0, 0, 0, 0, 0, 0])] }
     let t := s 1
     let u := { t with slots := t.slots ++ [(1, { Slot.reset with st := .staged, rcd := [0x0000800000000002, 0, 0, 0, 0, 0, 0, 0] })]
                       disp := { t.disp with steps := [step1, r], launches := [{ launch1 with id := 0 }] } }
     waitingStep u 0 step1 = true) := by decide

theorem test_meets_BarriersDoneAndYield :
    rcdTeam (slotAt (base id) (base id).cur).rcd = 0 ∧
    (let s := withStep step1 fun h => { h with phase := 1 }
     s.hart.phase ≠ 2 ∧ ∃ u, Released (withNr s) 2 u ∧
       ∀ k ∈ barrierMembers u 1 false (gangIndex u 1 0), k = u.cur ∨ (hartAt u k).tdone.isSome = true) := by
  exact ⟨by decide, by decide, advanceRcnt (withNr (withStep step1 fun h => { h with phase := 1 })) 0,
    .inl ⟨by decide, by decide, rfl⟩, by decide⟩

/-- A gang of two harts of which one has not arrived. -/
theorem test_meets_BarriersDoneAndYield_waits :
    let r : BindRec := [0x0000800000000001, 0, 0, 0, 0, 0, 0, 0]
    let s := withStep step1 fun h => { h with phase := 1 }
    let s := { s with slots := s.slots ++ [(2, { Slot.reset with st := .running, rcd := r })] }
    s.hart.phase ≠ 2 ∧ ∃ u, Released (withNr s) 2 u ∧
      ∃ k ∈ barrierMembers u 1 false (gangIndex u 1 0), k ≠ u.cur ∧ (hartAt u k).tdone = none := by
  exact ⟨by decide, _, .inl ⟨by decide, by decide, rfl⟩, 2, by decide, by decide, by decide⟩

/-! ## Formats: the worked values of 13_formats_notes.md and the words of Table 14.5 -/

/-- An integer times a power of two. -/
def num (m e : Int) : Exact := .fin (decide (m < 0)) m.natAbs e

theorem test_e4m3_edges :
    roundFmt .e4m3 (num 464 0) .rne false = 0x7E ∧ roundFmt .e4m3 (num 465 0) .rne false = 0x7F ∧
    roundFmt .e4m3 (num 465 0) .rne true = 0x7E ∧ roundFmt .e4m3 (num 465 0) .rdn false = 0x7E ∧
    roundFmt .e4m3 (num 470 0) .rtz false = 0x7E ∧ roundFmt .e4m3 (num (-500) 0) .rtz false = 0xFE ∧
    roundFmt .e4m3 (.inf false) .rne false = 0x7F ∧ roundFmt .e4m3 (num 1 (-10)) .rne false = 0 ∧
    roundFmt .e4m3 (num 3 (-10)) .rne false = 2 ∧ roundFmt .e4m3 (num (-1) (-11)) .rne false = 0x80 := by decide
theorem test_e2m1_edges :
    roundFmt .e2m1 (num 1 (-2)) .rne false = 0 ∧ roundFmt .e2m1 (num 3 (-2)) .rne false = 2 ∧
    roundFmt .e2m1 (num 5 (-1)) .rne false = 4 ∧ roundFmt .e2m1 (num 5 0) .rne false = 6 ∧
    roundFmt .e2m1 (num 7 0) .rne false = 7 ∧ roundFmt .e2m1 (.inf true) .rne false = 0xF ∧
    roundFmt .e2m1 .nan .rne false = 0 := by decide
theorem test_block_scale :
    let xs := [num 27 (-1), num (-13) 0, num 9 0, num 5 0, num 1 0]
    mxScale .e2m1 xs = 0x81 ∧ xs.map (mxElem .e2m1 0x81) = [5, 0xD, 4, 2, 0] ∧
    decodeExact .f32 0xBE99999A = num (-10066330) (-25) ∧ mxElem .e2m1 0x81 (num (-10066330) (-25)) = 8 := by decide
theorem test_feedback :
    feedback .f32 .e4m3 .bf16 0x3F9F0000 .rne false = (0x3A, 0xBC00) ∧
    feedback .f32 .e4m3 .bf16 0x43FA0000 .rne true = (0x7E, 0x4250) ∧
    feedback .f32 .e4m3 .bf16 0x43FA0000 .rne false = (0x7F, 0x7FC0) := by decide
theorem test_rns :
    rnsValue 0x00AE194D = -13235 ∧ rnsGuard (-13235) = 68 ∧ rnsValue 0x001F1E40 = -7515840 ∧ rnsGuard (-7515840) = 104 := by decide
theorem test_sample_words :
    decodeWord 0x74085AC0#32 = some (.turn 8 11 2) ∧ decodeWord 0x74090940#32 = some (.strel .device 9 1 0) ∧
    decodeWord 0x3C690530#32 = some (.ldNc .d 3 9 0) ∧ decodeWord 0x64850448#32 = some (.loop 4 5 0 2 1 1 0) ∧
    decodeWord 0xC890A464#32 = some (.mma 1 4 5 2 3 .f16 false) ∧ decodeWord 0xC890A465#32 = some (.mma 1 4 5 2 3 .f16 true) ∧
    decodeWord 0x74085AE0#32 = some (.turn 8 11 3) ∧ decodeWord 0x74085AC1#32 = none ∧ decodeWord 0x6485E448#32 = none ∧
    decodeWord 0x4C000000#32 = some (.bge 0 0 0) := by decide

/-! ## Vector instructions -/

/-- A state with v1, v2, v3, VL, MFC and p1. -/
def vecS (a b c : VReg) (vl : BitVec 8) (mfc : Word) (p : PReg) : State := base fun h => { h with
  v := ((h.v.set 1 a).set 2 b).set 3 c, p := h.p.set 1 p, vl := vl, mfc := mfc, x := regs [(1, 3), (2, 0x55), (3, 0xFFFFFFFFFFFFFFFF)], tvec := 0x40 }

/-- Element `k` of `w` bits of a vector register after an instruction. -/
def eAfter (i : Instr) (s : State) (r : VIdx) (w k : Nat) : Nat := elemN (vreg (after i s) r) w k

theorem test_vadd_wraps_and_saturates :
    eAfter (.vadd 3 1 2 0 .b false .rne false) (vecS 0x7F 0x01 0 1 0 0) 3 8 0 = 0x80 ∧
    eAfter (.vadd 3 1 2 0 .b true .rne false) (vecS 0x7F 0x01 0 1 0 0) 3 8 0 = 0x7F := by decide
theorem test_vl_and_predicate :
    let s := vecS 0x0101010101 0x0101010101 0xEEEEEEEEEE 3 0 0b101
    let f := fun k => eAfter (.vadd 3 1 2 1 .b false .rne false) s 3 8 k
    f 0 = 2 ∧ f 1 = 0xEE ∧ f 2 = 2 ∧ f 3 = 0xEE ∧ eAfter (.vadd 3 1 2 1 .b false .rne true) s 3 8 1 = 0 := by decide
theorem test_vdiv_zero : eAfter (.vdiv 3 1 2 0 .w false) (vecS 7 0 0 1 0 0) 3 32 0 = 0xFFFFFFFF := by decide
theorem test_vmulh : eAfter (.vmulh 3 1 2 0 .b false) (vecS 0x80 0x80 0 1 0 0) 3 8 0 = 0x40 := by decide
theorem test_vabsd : eAfter (.vabsd 3 1 2 0 .b false) (vecS 0x80 0x7F 0 1 0 0) 3 8 0 = 0xFF := by decide
theorem test_vfadd : eAfter (.vadd 3 1 2 0 .w false .rne false) (vecS 0x3F800000 0x3F800000 0 1 0x400 0) 3 32 0 = 0x40000000 := by decide
theorem test_vbfx :
    eAfter (.vbfxu 3 1 2 0 .w false) (vecS 0x01234567 0x184 0 1 0 0) 3 32 0 = 0x1456 ∧
    eAfter (.vbfx 3 1 2 0 .w false) (vecS 0x01234567 0x184 0 1 0 0) 3 32 0 = 0xFFFFF456 := by decide
theorem test_vfsl : eAfter (.vfsl 3 1 2 0 .b false) (vecS 0xF0 4 0x01 1 0 0) 3 8 0 = 0x1F := by decide
theorem test_vrsubi : eAfter (.vrsubi 3 1 0x1F 0 .b false) (vecS 1 0 0 1 0 0) 3 8 0 = 0xFE := by decide
theorem test_vcmp_clears_above : (after (.vcmpVx .eq 1 0 0 0 .b false) (vecS 0 0 0 2 0 (BitVec.allOnes 128))).hart.preg 1 = 3 := by decide
theorem test_vredsum : xAfter (.vredsum 5 1 1 0 .b) (vecS 0x017F 0 0 2 0 0) 5 = 0xFFFFFFFFFFFFFF83 := by decide
theorem test_vscansum : eAfter (.vscansum 3 1 0 .b false) (vecS 0x030201 0 0 3 0 0) 3 8 2 = 6 := by decide
theorem test_vslidedn_end : eAfter (.vslidedn 3 1 1 0 .b false) (vecS 0x0605040302 0 0xFF 4 0 0) 3 8 1 = 0 := by decide
theorem test_vcompress : eAfter (.vcompress 3 1 1 .b false) (vecS 0x040302 0 0 3 0 0b110) 3 8 0 = 3 := by decide
theorem test_viota : eAfter (.viota 3 1 .b false) (vecS 0 0 0 3 0 0b111) 3 8 2 = 2 := by decide
theorem test_pfind_none : xAfter (.pfind 5 1 0 .b) (vecS 0 0 0 3 0 0b1000) 5 = 0xFFFFFFFFFFFFFFFF := by decide
theorem test_vsetvl_caps : xAfter (.vsetvl .d 5 3) (vecS 0 0 0 3 0 0) 5 = 16 := by decide
theorem test_vl_too_long : (after (.vadd 3 1 2 0 .w false .rne false) (vecS 0 0 0 33 0 0)).hart.eval = 33 := by decide
theorem test_vquant_block :
    let s := vecS 0xBE99999A_3F800000_40A00000_41100000_C1500000_41580000 0 0 6 0 0
    (vreg (after (.vquant .e2m1 .f32 3 1 5) s) 3).extractLsb' 0 24 = 0x8024D5 ∧ xAfter (.vquant .e2m1 .f32 3 1 5) s 5 = 0x81 := by decide
theorem test_vdquant_block : eAfter (.vdquant .f32 .e2m1 3 1 5)
    (let s := vecS 0x8024D5 0 0 6 0 0; { s with hart := s.hart.setX 5 0x81 }) 3 32 1 = 0xC1400000 := by decide
theorem test_vcvt_groups : (after (.vcvt .e4m3 .f32 8 8 .rne false) (vecS 0 0 0 64 0 0)).hart.ecause = 0x02 := by decide

/-! ## What the statements assume: vectors -/

/-- VL at the most that a register holds, and one past it. -/
theorem test_meets_VectorIntegers :
    (integers (vecS 0 0 0 128 0 0) ∧ fits (vecS 0 0 0 128 0 0) .b ∧ fits (vecS 0 0 0 16 0 0) .d) ∧
    (¬ fits (vecS 0 0 0 129 0 0) .b ∧ ¬ fits (vecS 0 0 0 17 0 0) .d ∧ ¬ integers (vecS 0 0 0 1 0x400 0)) := by
  unfold integers fits; decide

theorem test_meets_VectorFloats :
    (vecS 0 0 0 32 0x400 0).hart.kind .w = .flt .f32 ∧ (vecS 0 0 0 64 0x800 0).hart.kind .h = .flt .bf16 ∧
    (vecS 0 0 0 64 0x400 0).hart.kind .h = .flt .f16 ∧ (vecS 0 0 0 64 0x400 0).hart.kind .b = .none ∧
    fits (vecS 0 0 0 32 0x400 0) .w ∧ fits (vecS 0 0 0 64 0x800 0) .h := by
  unfold fits; decide

theorem test_meets_VectorFloatExtremes : ∃ lo hi : Nat → Nat → Nat,
    let X := fun n => decodeExact .f32 n
    let below := fun (m n : Nat) => (X m).lt (X n) = true ∨ ((X n).lt (X m) = false ∧ m.testBit 31 = true)
    (∀ m n, (X m).isNaN = true ∨ (X n).isNaN = true → lo m n = canonNaN .f32 ∧ hi m n = canonNaN .f32) ∧
    (∀ m n, (X m).isNaN = false → (X n).isNaN = false → below m n → lo m n = m ∧ hi m n = n) ∧
    (∀ m n, (X m).isNaN = false → (X n).isNaN = false → ¬ below m n → lo m n = n ∧ hi m n = m) := by
  classical
  refine ⟨fun m n => if (decodeExact .f32 m).isNaN = true ∨ (decodeExact .f32 n).isNaN = true then canonNaN .f32 else
      if (decodeExact .f32 m).lt (decodeExact .f32 n) = true ∨
        ((decodeExact .f32 n).lt (decodeExact .f32 m) = false ∧ m.testBit 31 = true) then m else n,
    fun m n => if (decodeExact .f32 m).isNaN = true ∨ (decodeExact .f32 n).isNaN = true then canonNaN .f32 else
      if (decodeExact .f32 m).lt (decodeExact .f32 n) = true ∨
        ((decodeExact .f32 n).lt (decodeExact .f32 m) = false ∧ m.testBit 31 = true) then n else m, ?_, ?_, ?_⟩
  · intro m n h; simp [h]
  · intro m n h1 h2 h; simp only [h1, h2]; simp [h]
  · intro m n h1 h2 h; simp only [h1, h2]; simp [h]

theorem test_meets_RoundingAndExactness :
    (floatFields .e4m3 = some (4, 3, 7) ∧ (7 : Nat) < 2 ^ 3 ∧ (15 : Nat) < 2 ^ 4 ∧ (15 : Nat) + 1 = 2 ^ 4) ∧
    floatFields .f16 = some (5, 10, 15) ∧ isFloat .e5m2 = true ∧ (1 : Nat) ≠ 0 ∧
    (∃ x, floatTop .e2m1 = some x ∧ x.1 = 6) ∧ ((3 : Nat) : ℝ) * (2 : ℝ) ^ (0 : ℤ) ≤ 6 ∧ (6 : ℝ) < ((7 : Nat) : ℝ) * (2 : ℝ) ^ (0 : ℤ) := by
  refine ⟨by decide, by decide, by decide, by decide, ⟨_, rfl, rfl⟩, by norm_num, by norm_num⟩

theorem test_meets_Conversions :
    cvtAdmits .f32 .e4m3 = true ∧ cvtAdmits .i16 .rns3 = true ∧ cvtAdmits .rns3 .i32 = true ∧ cvtAdmits .i8 .i8 = true ∧
    cvtAdmits .f32 .f32 = true ∧ cvtAdmits .i32 .ui8 = true ∧ cvtAdmits .i32 .i8 = true ∧
    groupOf (vecS 0 0 0 64 0 0) 32 = 2 ∧ groupOf (vecS 0 0 0 64 0 0) 8 = 1 ∧ groupOf (vecS 0 0 0 0 0 0) 32 = 1 ∧
    ¬ (32 < (30#5).toNat + groupOf (vecS 0 0 0 64 0 0) 32) ∧ 32 < (31#5).toNat + groupOf (vecS 0 0 0 64 0 0) 32 ∧
    ((floatSpec .e5m2).isSome = true ∧ 0x7B < 2 ^ Fmt.e5m2.bits ∧ decodeExact .e5m2 0x7B = .fin false 7 13) := by
  unfold groupOf; decide

theorem test_meets_ComparesAndPredicates :
    ((vecS 0 0 0 32 0x400 0).hart.kind .w = .flt .f32 ∧ (vecS 0 0 0 128 0 0).hart.kind .b = .int ∧
      (vecS 0 0 0 1 0x400 0).hart.kind .b = .none) ∧
    (vecS 0 0 0 128 0 0).hart.vstart = 0 ∧ ({ (vecS 0 0 0 128 0 0).hart with vstart := 1 } : Hart).vstart ≠ 0 ∧
    (let h := (vecS 0 0 0 3 0 0b100).hart
     (List.range h.vl.toNat).filter (fun n => h.active 0 8 n && (h.preg 1).getLsbD (n * 8 / 8)) = 2 :: [] ∧
     (List.range h.vl.toNat).filter (fun n => h.active 2 8 n && (h.preg 1).getLsbD (n * 8 / 8)) = []) := by decide

theorem test_meets_Permutes :
    (vecS 0 0 0 3 0 0).hart.vstart = 0 ∧ fits (vecS 0 0 0 3 0 0) .b ∧ (3#5) ≠ 1 ∧ (3#5) ≠ 2 ∧
    (vecS 0 0 0 3 0 0).hart.vl.toNat ≤ (xreg (vecS 0 0 0 3 0 0) 1).toNat ∧
    (xreg (vecS 0 0 0 4 0 0) 1).toNat < (vecS 0 0 0 4 0 0).hart.vl.toNat ∧ integers (vecS 0 0 0 4 0 0) ∧
    ¬ integers (vecS 0 0 0 4 0x400 0) := by
  unfold fits integers; decide

theorem test_meets_RnsReconstruction : (-8257920 : Int) ≤ -13235 ∧ (-13235 : Int) < 8257920 := by decide

theorem test_meets_Quantisation :
    mxWide .f32 = true ∧ mxFormat .e2m1 = true ∧ mxFormat .i8 = true ∧
    (let s := vecS 0x41580000 0 0 6 0 0
     ¬ (s.hart.vstart ≠ 0 ∨ 32 < (1#5).toNat + groupOf s 32 ∨ 32 < (3#5).toNat + groupOf s 4 ∨
       ((1#5).toNat < (3#5).toNat + groupOf s 4 ∧ (3#5).toNat < (1#5).toNat + groupOf s 32)) ∧
     ((1#5).toNat < (1#5).toNat + groupOf s 4 ∧ (1#5).toNat < (1#5).toNat + groupOf s 32)) := by
  unfold groupOf; decide

/-! ## What the statements assume: vector memory -/

/-- One active element of 64 bits at x1 = 0x10008; x2 = 8 the stride; v2 holds index 0; bank 0 is scratchpad with its first
line full. -/
def vmS : State :=
  let s := base fun h => { h with x := regs [(1, 0x10008), (2, 8), (3, 0x20008), (5, 64)], vl := 1, tvec := 0x40 }
  { s with cores := [(0, { CoreSt.reset with bankrole := 2, sp := [(0, ⟨true, some (mkGranule 7 0 1 1, 0), some (mkGranule 8 0 1 1, 0)⟩)] })] }

theorem ways_up (s : State) (h : s.svc.lease = []) (n gran : Nat) : Ways s n gran := fun src => noWay_up s h n gran src false

theorem vmS_settled : Settled vmS 0x400 false 0 := by
  refine ⟨fun e he => ?_, fun _ => ways_up vmS rfl _ _, fun _ _ => ⟨⟨by decide, by decide⟩, by decide, fun c hc => ?_⟩,
    fun _ h => absurd h (by decide)⟩
  · cases he
  · have h1 : tget (coreAt vmS (curCore vmS)).i1 0x400 = none := by decide
    have h2 : tget (clusterAt vmS (curCluster vmS)).i2 0x400 = none := by decide
    have h3 : tget vmS.i3 0x400 = none := by decide
    rw [h1, h2, h3] at hc
    rcases hc with hc | hc | hc <;> cases hc

theorem vmS_maps (a : Acc) : Maps vmS 0x10008 a 0x10008 false := by cases a <;> (unfold Maps; decide)

theorem test_meets_VectorLoads_memory (m : Addr) (hm : m = .unit ∨ m = .strided 2 ∨ m = .indexed 2) :
    loadReady vmS ⟨3, 1, m, 0, .d, false, .mem⟩ (fun _ => 0x10008) (fun _ => false) (fun _ => 0) := by
  have h : passesTests vmS ⟨3, 1, m, 0, .d, false, .mem⟩ false ∧
      (⟨3, 1, m, 0, .d, false, .mem⟩ : VMemOp).elems vmS.hart = [0] ∧
      (⟨3, 1, m, 0, .d, false, .mem⟩ : VMemOp).touch vmS.hart 0 = [⟨0, 0x10008⟩] := by
    rcases hm with rfl | rfl | rfl <;> (unfold passesTests; decide)
  refine ⟨h.1, fun i hi t ht => ?_, fun e => (nomatch e), fun e => (nomatch e)⟩
  rw [h.2.1, List.mem_singleton] at hi
  subst hi
  rw [h.2.2, List.mem_singleton] at ht
  subst ht
  exact ⟨vmS_maps .read, by decide, vmS_settled⟩

/-- x6 = 64 is an offset of the scratchpad line, x1's low bits one of the lane store. -/
theorem test_meets_VectorLoads_local :
    loadReady vmS ⟨3, 5, .unit, 0, .d, false, .sp⟩ (fun _ => 0) (fun _ => false) (fun _ => 0) ∧
    loadReady vmS ⟨3, 5, .unit, 0, .d, false, .ls⟩ (fun _ => 0) (fun _ => false) (fun _ => 0) := by
  have e : (⟨3, 5, .unit, 0, .d, false, .sp⟩ : VMemOp).elems vmS.hart = [0] := by decide
  have f : (⟨3, 5, .unit, 0, .d, false, .ls⟩ : VMemOp).elems vmS.hart = [0] := by decide
  have te : (⟨3, 5, .unit, 0, .d, false, .sp⟩ : VMemOp).touch vmS.hart 0 = [] := by decide
  have tf : (⟨3, 5, .unit, 0, .d, false, .ls⟩ : VMemOp).touch vmS.hart 0 = [] := by decide
  refine ⟨⟨by unfold passesTests; decide, fun i hi t ht => ?_, fun _ => by decide, fun h => absurd h (by decide)⟩,
    ⟨by unfold passesTests; decide, fun i hi t ht => ?_, fun h => absurd h (by decide), fun _ => by decide⟩⟩
  · rw [e, List.mem_singleton] at hi; subst hi; rw [te] at ht; cases ht
  · rw [f, List.mem_singleton] at hi; subst hi; rw [tf] at ht; cases ht

theorem test_meets_VectorLoads_stops :
    (⟨3, 1, .unit, 0, .w, true, .mem⟩ : VMemOp).illegal vmS.hart = false ∧
    (⟨3, 1, .unit, 0, .d, true, .ls⟩ : VMemOp).illegal vmS.hart = true ∧
    (⟨3, 1, .unit, 0, .w, false, .mem⟩ : VMemOp).badOperand { vmS.hart with vl := 33 } false = true ∧
    (⟨3, 1, .unit, 0, .w, false, .mem⟩ : VMemOp).illegal { vmS.hart with vl := 33 } = false ∧
    passesTests vmS ⟨3, 3, .unit, 0, .d, false, .mem⟩ false ∧ passesTests vmS ⟨3, 3, .unit, 0, .d, false, .mem⟩ true ∧
    xlate vmS (hereTlb vmS) (curLaunch vmS) 0x20008 .read = .page 0x04 0 1 ∧ vmS.hart.resume = false ∧ vmS.hart.mid = false := by
  refine ⟨by decide, by decide, by decide, by decide, by unfold passesTests; decide, by unfold passesTests; decide, by decide, by decide,
    by decide⟩

/-- Two elements of 8 bytes, the first at the end of the mapped page. -/
def edgeS : State := { vmS with hart := { vmS.hart with x := regs [(1, 0x1FFF8)], vl := 2 } }

theorem test_meets_VectorLoads_faultFirst :
    let o : VMemOp := ⟨3, 1, .unit, 0, .d, false, .mem⟩
    1 ∈ o.elems edgeS.hart ∧ o.bad edgeS 1 = true ∧ (∃ j ∈ o.elems edgeS.hart, j < 1) ∧
    (∀ j ∈ o.elems edgeS.hart, j < 1 → o.bad edgeS j = false) ∧ o.badOperand edgeS.hart false = false ∧
    (let h := { edgeS.hart with x := regs [(1, 0x10004)] }
     (o.elems h).head? = some 0 ∧ (o.va h 0).toNat % elemBytes (o.wm h) ≠ 0) ∧
    (let h := { edgeS.hart with mfc := 0x5000 }; (⟨3, 1, .first, 0, .w, true, .mem⟩ : VMemOp).illegal h = false ∧
      (mfcBse { edgeS.hart with mfc := 0x40 } = true)) := by decide

theorem test_meets_VectorStores :
    let o : VMemOp := ⟨3, 1, .unit, 0, .d, false, .mem⟩
    let pr : Probe := ⟨[⟨1, 0x10000, false⟩], []⟩
    passesTests vmS o true ∧ heldBy vmS = none ∧
    (∀ x ∈ o.storeTouches vmS.hart, ∃ pa self, pr.at x.va = some (pa, self) ∧ Maps vmS x.va .write pa self) ∧
    (∀ i ∈ o.elems vmS.hart, ∀ x, pr.at (o.va vmS.hart i) = some x → rangeMeeting vmS x.1 (elemBytes (o.wm vmS.hart)) = none) ∧
    (∀ p ∈ o.pieces vmS.hart pr, ∀ q ∈ o.pieces vmS.hart pr, p.meets q = true → p.self = q.self) ∧
    (∀ p ∈ o.pieces vmS.hart pr, p.space = .mem → Settled vmS p.key p.self 0) := by
  have h1 : (⟨3, 1, .unit, 0, .d, false, .mem⟩ : VMemOp).storeTouches vmS.hart = [⟨0, 0x10008⟩] := by decide
  have h2 : (⟨3, 1, .unit, 0, .d, false, .mem⟩ : VMemOp).elems vmS.hart = [0] := by decide
  have h3 : (⟨3, 1, .unit, 0, .d, false, .mem⟩ : VMemOp).pieces vmS.hart ⟨[⟨1, 0x10000, false⟩], []⟩ =
      [⟨0, .mem, 0x400, 64, 64, 0, 0x10008, false⟩] := by decide
  dsimp only
  rw [h1, h2, h3]
  refine ⟨by unfold passesTests; decide, by decide, fun x hx => ?_, fun i hi x hx => ?_, by decide, fun p hp _ => ?_⟩
  · rw [List.mem_singleton.mp hx]; exact ⟨0x10008, false, by decide, vmS_maps .write⟩
  · rw [List.mem_singleton] at hi
    subst hi
    have e : (⟨[⟨1, 0x10000, false⟩], []⟩ : Probe).at ((⟨3, 1, .unit, 0, .d, false, .mem⟩ : VMemOp).va vmS.hart 0) = some (0x10008, false) := by
      decide
    rw [e] at hx
    cases hx
    decide
  · rw [List.mem_singleton.mp hp]; exact vmS_settled

/-- A store to the scratchpad and one to the lane store meet lines that stand there. -/
theorem test_meets_VectorStores_local :
    let o : VMemOp := ⟨3, 5, .unit, 0, .d, false, .sp⟩
    let q : VMemOp := ⟨3, 5, .unit, 0, .d, false, .ls⟩
    let pr : Probe := ⟨[], []⟩
    passesTests vmS o true ∧ passesTests vmS q true ∧ o.pieces vmS.hart pr ≠ [] ∧ q.pieces vmS.hart pr ≠ [] ∧
    (∀ p ∈ o.pieces vmS.hart pr, p.space = .sp ∧ (spLine (coreAt vmS (curCore vmS)) (64 * p.key)).full = true ∧
      (spHeld vmS (64 * p.key)).verifies = true) ∧
    (∀ p ∈ q.pieces vmS.hart pr, p.space = .ls ∧ (laneHeld vmS p.key).verifies = true) := by
  refine ⟨by unfold passesTests; decide, by unfold passesTests; decide, by decide, by decide, by decide, by decide⟩

theorem test_vst_overlap_last_wins :
    let s := { vmS with
      hart := { vmS.hart with vl := 2, v := vmS.hart.v.set 3 0x2222222222222222_1111111111111111 }
      cores := [(0, { coreAt vmS 0 with o1 := [(0x400, ⟨mkGranule 0 0 0 1, none, 0, false, false, 0, 0⟩)] })] }
    (tget (coreAt (after (.vstStrided 3 1 0 0 .d false .mem) s) 0).o1 0x400).map (fun e => e.g.data.extractLsb' 64 64) =
      some 0x2222222222222222 := by decide

theorem test_vld_scratchpad : eAfter (.vldUnit 3 0 0 .d false .sp) vmS 3 64 0 = 7 ∧
    eAfter (.vldUnit 3 5 0 .d false .sp) vmS 3 64 0 = 8 := by decide

theorem test_meets_LocalSpaces :
    let off := fun (h : Hart) (k : Nat) => (laneVa h 5 2 64 k).toNat
    let els := vmS.hart.actives 0 64 vmS.hart.vstart.toNat vmS.hart.vl.toNat
    (vmS.units = none ∧ fits vmS .d ∧ (∀ k ∈ els, off vmS.hart k % 8 = 0 ∧ off vmS.hart k + 8 ≤ 4096) ∧
      ∀ k ∈ els, (laneHeld vmS (64 * (k * 64 / 64) + off vmS.hart k / 64)).verifies = true) ∧
    (let h := { vmS.hart with x := regs [(5, 4)] }; els.find? (fun k => off h k % 8 != 0) = some 0) ∧
    (let h := { vmS.hart with x := regs [(5, 4096)] }; els.find? (fun k => decide (off h k + 8 > 4096)) = some 0) ∧
    (xreg vmS 5).toNat < spSize (coreAt vmS (curCore vmS)) ∧ (xreg vmS 1).toNat ≥ spSize (coreAt vmS (curCore vmS)) := by
  unfold fits; decide

theorem test_meets_VectorAtomics :
    let va := fun k => indexVa vmS.hart 1 2 64 k
    vmS.hart.actives 0 64 vmS.hart.vstart.toNat vmS.hart.vl.toNat = [0] ∧ va 0 = 0x10008 ∧ (va 0).toNat % 8 = 0 ∧
    Maps vmS (va 0) .rw 0x10008 false ∧ windowOf (0x10008 / 64) = 0 ∧ rangeMeeting vmS 0x10008 8 = none ∧
    notPending (withNr vmS) (0x10008 / 64) ∧ JunctionGood vmS (0x10008 / 64) ∧ HomeWay vmS (0x10008 / 64) ∧
    (∀ j, (vmS.o3.filter fun x => junctionOf vmS x.1 == j).length + [0].length ≤ o3Room) ∧
    ({ vmS.hart with vl := 17 } : Hart).vl.toNat * 64 > 1024 ∧ ({ vmS.hart with vl := 16 } : Hart).vl.toNat * 64 ≤ 1024 ∧
    (let h := { vmS.hart with x := regs [(1, 0x10004)] }
     (h.actives 0 64 h.vstart.toNat h.vl.toNat).find? (fun k => (indexVa h 1 2 64 k).toNat % 8 != 0) = some 0) := by
  refine ⟨by decide, by decide, by decide, ?_, by decide, by decide, ⟨by decide, by decide⟩, ?_, by unfold HomeWay; decide,
    fun _ => by show 0 + 1 ≤ o3Room; decide, by decide, by decide, by decide⟩
  · unfold Maps; decide
  · unfold JunctionGood; decide

/-- `vmS` with a range over the page that sums 32-bit integers, and one contribution. -/
def rangeS : State := { vmS with
  crngb := vmS.crngb.set 0 0x10000
  crngc := vmS.crngc.set 0 0x8000000000000001
  hart := { vmS.hart with v := vmS.hart.v.set 3 5 } }

theorem test_meets_Contributions :
    let va := fun k => indexVa rangeS.hart 1 2 32 k
    rangeS.hart.actives 0 32 rangeS.hart.vstart.toNat rangeS.hart.vl.toNat = [0] ∧ fits rangeS .w ∧ va 0 = 0x10008 ∧
    Maps rangeS (va 0) .rw 0x10008 false ∧ rangeOf rangeS 0x10008 = some 0 ∧ crngFmt (crngcOf rangeS 0) ≠ 3 ∧
    crngFmt (crngcOf rangeS 0) = 0 ∧ 0x10008 % crngElem (crngcOf rangeS 0) = 0 ∧
    contributes (crngcOf rangeS 0) 32 (elemN (rangeS.hart.vreg 3) 32 0) 5 ∧ rangeOf vmS 0x10008 = none ∧
    (let q : Partial := ⟨0x10008, 0, 2147483647, 0, none⟩
     let s := setCluster rangeS 0 { clusterAt rangeS 0 with partials := [q] }
     (clusterAt s (clusterOfCore 0)).partials = [q] ∧ q.val + 5 ≥ 2 ^ (8 * crngElem (crngcOf s 0) - 1)) := by
  refine ⟨by decide, by unfold fits; decide, by decide, ?_, by decide, by decide, by decide, by decide, ?_, by decide, by decide⟩
  · unfold Maps; decide
  · unfold contributes; decide

theorem test_redst_saturates :
    let q : Partial := ⟨0x10008, 0, 2147483647, 0, none⟩
    let s := setCluster rangeS 0 { clusterAt rangeS 0 with partials := [q] }
    (clusterAt (after (.redst 3 1 2 0 .w) s) 0).partials = [{ q with val := 2147483647 }] ∧
    crngOvf (crngcOf (after (.redst 3 1 2 0 .w) s) 0) = true := by decide

theorem test_meets_Gathers :
    let n := curCluster vmS
    (junctionGranule vmS 0x400).1.data = 0 ∧ Takes vmS (.cluster n) n (junctionGranule vmS 0x400).1 ∧
    tget (clusterAt vmS n).i2 0x400 = none ∧ tget (clusterAt vmS (i3SliceOf 0x400)).i2 0x400 = none ∧ tget vmS.i3 0x400 = none ∧
    Ways vmS n 0x400 ∧ ovfRange vmS 0x400 = none ∧ vmS.hart.actives 0 64 vmS.hart.vstart.toNat vmS.hart.vl.toNat = [0] ∧
    indexVa vmS.hart 1 2 64 0 = 0x10008 := by
  refine ⟨by decide, ⟨by decide, by decide⟩, by decide, by decide, by decide, ways_up vmS rfl _ _, by decide⟩

/-! ## What the statements assume: the matrix unit -/

/-- One zero tile in mode 32; p1 enables row 0 and column 0, p2 the first 16 bytes; x1 a descriptor whose rows all stand at
0x10000, x2 one off the grid of 32 bytes, x12 = −4. -/
def matS : State := base fun h => { h with
  tiles := [Tile.zero], mvl := 32, p := (h.p.set 1 0x100000001).set 2 0xFFFF
  x := regs [(1, 0x10000), (2, 0x10008), (3, 9), (4, 2), (5, 32), (12, 0xFFFFFFFFFFFFFFFC)], tvec := 0x40 }

/-- `matS` with a hart that waits for two tiles, another that holds all but `n` of the tiles, and none held by slot 0. -/
def grantS (n : Nat) (w : List (Nat × Nat × XIdx)) : State := { matS with
  hart := { matS.hart with tiles := [] }
  rest := [(1, { Hart.reset with tiles := List.replicate (16 - n) Tile.zero })]
  clusters := [(0, { clusterAt matS 0 with mwait := w })] }

/-- `grantS` with the matrix unit out of service. -/
def grantOut : State := let s := grantS 8 []
  { s with svc := { s.svc with lease := [(1024, .leased)] } }

theorem test_meets_MatrixGrants :
    (let s := grantS 8 []
     s.hart.tiles = [] ∧ (xreg s 4).toNat = 2 ∧ inService s 1 (curCluster s) = true ∧ (clusterAt s 0).mwait = [] ∧ freeTiles s 0 = 8) ∧
    freeTiles (grantS 0 []) 0 = 0 ∧ (xreg (grantS 0 []) 3).toNat > 8 ∧ inService grantOut 1 0 = false ∧
    (clusterAt (grantS 8 [(2, 2, 6)]) 0).mwait = (2, 2, 6) :: [] ∧ freeTiles (grantS 8 [(2, 2, 6)]) 0 ≠ 0 ∧
    (xreg matS 5).toNat = 32 ∧ (xreg matS 4).toNat ≠ 16 ∧
    (let s := grantS 8 [(2, 2, 6)]
     s.hart.tiles = [] ∧ (∀ w ∈ (clusterAt s 0).mwait, w.1 ≠ s.cur) ∧ (clusterAt s 0).mwait ≠ []) ∧
    (let s := grantS 8 [(2, 2, 6), (0, 2, 7)]
     s.hart.tiles = [] ∧ (∃ w ∈ (clusterAt s 0).mwait, w.1 = s.cur) ∧ ∀ w, (clusterAt s 0).mwait.head? = some w → w.1 ≠ s.cur) ∧
    (let s := grantS 8 [(0, 2, 7)]
     (∃ w ∈ (clusterAt s 0).mwait, w.1 = s.cur) ∧ freeTiles s 0 ≠ 0 ∧ ∀ w, (clusterAt s 0).mwait.head? = some w → w.1 = s.cur) ∧
    (let s := { grantOut with clusters := [(0, { clusterAt matS 0 with mwait := [(2, 2, 6)] })] }
     (clusterAt s 0).mwait = (2, 2, 6) :: [] ∧ inService s 1 0 = false) := by
  refine ⟨by decide, by decide, by decide, by decide, by decide, by decide, by decide, by decide, by decide, ?_, by decide, by decide⟩
  refine ⟨by decide, by decide, fun w h => ?_⟩
  have e : some ((2, 2, 6) : Nat × Nat × XIdx) = some w := h
  injection e with e
  subst e
  decide

theorem test_mattach_grants : xAfter (.mattach 7 4 false) (grantS 1 []) 7 = 1 ∧
    ((after (.mattach 7 4 false) (grantS 1 [])).hart.tiles.length = 1) := by decide

theorem matS_settled (g : Nat) (h : g = 0x400 ∨ g = 0x401) : TileSettled matS g 0 := by
  rcases h with rfl | rfl <;>
  · refine ⟨by decide, by decide, ways_up matS rfl _ _, ⟨⟨by decide, by decide⟩, by decide⟩, fun c hc => ?_⟩
    rcases hc with ⟨e, he, -⟩ | hc | hc
    · cases he
    · cases hc
    · cases hc

theorem matS_maps (a : Acc) : ∀ b, b < 128 → Maps matS (0x10000 + BitVec.ofNat 64 b) a (0x10000 + b) false := by
  cases a <;> (unfold Maps; decide)

theorem matS_rows (on : Nat → Bool) (len : Nat) (h : len ≤ 96) :
    rowsReady matS (fun va => va.toNat) (fun _ => false) (fun _ => 0) (xreg matS 1) len on := by
  intro r b hr _ hb
  have e : rowAddr (xreg matS 1) r = 0x10000 := by
    have : ∀ r, r < 32 → rowAddr (xreg matS 1) r = 0x10000 := by decide
    exact this r hr
  have w : inWindow (xreg matS 1) = false := by decide
  refine ⟨fun h => absurd h (by rw [w]; decide), fun _ => ?_⟩
  rw [e]
  have q : ∀ b, b < 96 → ((0x10000 : Word) + BitVec.ofNat 64 b).toNat = 0x10000 + b ∧
      ((0x10000 + b) / 64 = 0x400 ∨ (0x10000 + b) / 64 = 0x401) := by decide
  obtain ⟨q1, q2⟩ := q b (by omega)
  dsimp only
  rw [q1]
  exact ⟨matS_maps .read b (by omega), matS_settled _ q2⟩

theorem test_meets_MatrixProducts : matFormat .bf16 = true ∧ matS.hart.mvl ≠ 0 ∧ matS.hart.vstart = 0 ∧
    badPk .bf16 96 (preg matS 2) = false ∧ badPk .bf16 4 (preg matS 2) = false ∧ (descBase (xreg matS 1)).toNat % 32 = 0 ∧
    (descBase (xreg matS 2)).toNat % 32 ≠ 0 ∧ (∃ x, matS.hart.tiles[0]? = some x) ∧ matS.hart.tiles[1]? = none ∧
    badPk .bf16 96 0x1#128 = true ∧ matFormat .i16 = false := by
  refine ⟨by decide, by decide, by decide, by decide, by decide, by decide, by decide, ⟨_, rfl⟩, rfl, by decide, by decide⟩

/-- A product of one pair of INT8 elements, 3·5, added to −1. -/
theorem test_mrank_int8 :
    let s := { matS with hart := { matS.hart with
      tiles := [⟨0xFFFFFFFF, 0⟩], v := (matS.hart.v.set 1 3).set 2 5, p := matS.hart.p.set 2 1 } }
    ((after (.mrank 0 1 2 1 2 .i8 false) s).hart.tiles.map fun t => t.get 0 0) = [14] := by decide

theorem test_mrank_trap : (after (.mrank 1 1 2 1 2 .i8 false) matS).hart.ecause = 0x0B ∧
    (after (.mrank 1 1 2 1 2 .i8 false) matS).hart.eval = 1 := by decide

theorem matS_merges : engineMerges matS 0 (prodMatrix 0) 0x400 0 := by
  refine ⟨by decide, ways_up matS rfl _ _, by decide, line_up matS rfl _ _, fun c hc => ?_, fun h => absurd h (by decide), fun _ => ⟨⟨⟨by decide, by decide⟩, by decide⟩, fun c hc => ?_⟩⟩
  · have h : tget matS.i3 0x400 = none := by decide
    rw [h] at hc; cases hc
  · have h1 : tget (clusterAt matS 0).i2 0x400 = none := by decide
    have h2 : tget matS.i3 0x400 = none := by decide
    rw [h1, h2] at hc
    rcases hc with hc | hc <;> cases hc

theorem test_meets_MatrixMoves_mld : ∀ i j, i < 32 → j < 32 →
    ((preg matS 1).getLsbD i && (preg matS 1).getLsbD (32 + j)) = true →
    let va := rowAddr (xreg matS 1) i + BitVec.ofNat 64 (4 * j)
    Maps matS va .read va.toNat false ∧ TileSettled matS (va.toNat / 64) 0 := by
  intro i j hi hj hon
  have h : ∀ i, i < 32 → ∀ j, j < 32 → ((preg matS 1).getLsbD i && (preg matS 1).getLsbD (32 + j)) = true → i = 0 ∧ j = 0 := by
    decide
  obtain ⟨rfl, rfl⟩ := h i hi j hj hon
  exact ⟨matS_maps .read 0 (by decide), matS_settled _ (.inl (by decide))⟩

theorem test_meets_MatrixMoves_mst :
    let pr : Probe := ⟨[⟨1, 0x10000, false⟩], []⟩
    matS.hart.tiles[0]? = some Tile.zero ∧ matS.hart.vstart.toNat ≤ 31 ∧ matS.units = none ∧ heldBy matS = none ∧
    (∀ y ∈ (clusterAt matS 0).o2held, y.2.held.isSome = true) ∧
    (∀ b, b < 128 → pr.at (rowAddr (xreg matS 1) 0 + BitVec.ofNat 64 b) = some (0x10000 + b, false) ∧
      windowOf ((0x10000 + b) / 64) = 0) ∧
    rangeMeeting matS (64 * 0x400 + 0 / 8) 4 = none ∧ HasRoom matS 1 := by
  unfold HasRoom; decide

theorem test_meets_MatrixMoves_mcvt : (-31 ≤ (xreg matS 12).toInt ∧ (xreg matS 12).toInt ≤ 8) ∧
    mcvtRange .rns3 (xreg matS 5).toInt = false ∧ mcvtRange .rns3 (-31) = true ∧ mcvtRange .rns3 8 = true ∧
    mcvtRange .f32 (-128) = true ∧ mcvtRange .f32 127 = true ∧ mcvtRange .f32 128 = false ∧
    mcvtAdmits .f32 .bf16 = true ∧ mcvtAdmits .rns3 .i32 = true ∧ mcvtAdmits .i32 .f32 = true ∧ mcvtAdmits .i32 .i32 = false := by
  decide

/-- The worked example of the conversion: the container 0x00AE194D with guard 68, by 2^−4, rounds to −827 to nearest and to
−828 downward. -/
theorem test_mcvt_example :
    let t := (⟨0x00AE194D, 68⟩ : Tile)
    let s := { matS with hart := { matS.hart with tiles := [t] } }
    let v := fun r => (after (.mcvt 0 .i32 .rns3 12 r false) s).hart.tiles.map fun t => (t.get 0 0)
    v .rne = [2 ^ 32 - 827] ∧ v .rdn = [2 ^ 32 - 828] := by decide

theorem test_mst_stores :
    let s := { matS with
      hart := { matS.hart with tiles := [⟨0x3F800000, 0⟩] }
      clusters := [(0, { clusterAt matS 0 with
        o2 := [(0x400, ⟨mkGranule (0x77 <<< 32) (prodMatrix 0) 0 1, none, 0, false, false, 0, 0⟩)] })] }
    (tget (clusterAt (after (.mst 0 1 1 .f32) s) 0).o2 0x400).map (fun e => (e.g.data, e.g.prod)) =
      some (0x773F800000, prodMatrix 0) := by decide
/-! ## What the statements assume: the copy sequencer -/

/-- A cluster whose queue holds `c`. -/
def copyS (c : CopyCmd) : State := { memS with
  cores := [(0, { CoreSt.reset with bankrole := 2 })]
  clusters := [(0, { clusterAt memS 0 with copyq := [c], copyn := 1 })] }

/-- A copy of 8 bytes from 0x10008 to 0x10048, its pass done; and one of a granule into scratchpad line 1. -/
def cmd8 : CopyCmd := { cmd0 with src := 0x10008, dst := 0x10048, cprun := 8, passed := true }
def cmdSp : CopyCmd := { cmd0 with cprun := 128, dst := 128, cpcvt := 0x40000, passed := true }

/-- A run into the scratchpad from off the grid of granules, one of a granule and one of 8 bytes into the lane store, and one
of two FP32 values narrowed to BF16 with FP32 residues. -/
def cmdSp8 : CopyCmd := { cmdSp with src := 0x10008 }
def cmdLs : CopyCmd := { cmd0 with dst := 0, cpcvt := 0x80000, passed := true }
def cmdLs8 : CopyCmd := { cmd0 with src := 0x10008, dst := 8, cprun := 8, cpcvt := 0x80000, passed := true }
def cmdEf : CopyCmd := { cmd0 with src := 0x10008, dst := 0x10048, cprun := 8, cpres := 0x10088, cpcvt := 0x01000, cv := true, ef := true, passed := true }

/-- `memS` with a run length, and 16 commands in the queue. -/
def goS (run : BitVec 13) (q : Nat) : State := { memS with
  hart := { memS.hart with cprun := run, nest := Vector.replicate 12 ⟨1, 0, 0⟩, x := regs [(1, 0x10000), (2, 0x10040), (3, 2 ^ 32), (5, 0x100000001)] }
  clusters := [(0, { clusterAt memS 0 with copyq := List.replicate q cmd0, copyn := q })] }

theorem test_meets_CopyInstructions :
    (11#4).toNat < 12 ∧ 12 ≤ (12#4).toNat ∧ (xreg (goS 64 0) 1).toNat < 2 ^ 32 ∧ 2 ^ 32 ≤ (xreg (goS 64 0) 3).toNat ∧
    (goS 0 0).hart.cprun.toNat = 0 ∧ (goS 4097 0).hart.cprun.toNat > 4096 ∧
    (let c := fun (s : State) (d : Word) => (⟨1, 0, 0, s.hart.nest, s.hart.cprun, 0, s.hart.cpcvt, 0x10000, d, false, false, .core, false,
       false, 0, false, 0, 0⟩ : CopyCmd)
     (c (goS 64 0) 0x10040).badCode = none ∧ (c (goS 0 0) 0).badCode = some 1 ∧ (c (goS 4096 0) 0).badCode = none) ∧
    16 ≤ (clusterAt (goS 64 16) 0).copyq.length ∧ (clusterAt (goS 64 15) 0).copyq.length < 16 ∧
    (xreg (goS 64 0) 3).toNat / 2 ^ 32 ≠ curCluster (goS 64 0) ∧ (xreg (goS 64 0) 1).toNat / 2 ^ 32 = curCluster (goS 64 0) ∧
    xreg (goS 64 0) 9 = 0 := by decide

theorem test_cpgo_handle : xAfter (.cpgo false false .core false false 7 1 2) (goS 64 0) 7 = 1 ∧
    ((clusterAt (after (.cpgo false false .core false false 7 1 2) (goS 64 0)) 0).copyq.map (·.src)) = [0x10000] := by decide

theorem test_cpgo_code6 : (after (.cpgo false false .core false false 7 1 2) { goS 64 0 with hart := { (goS 64 0).hart with
    cpcvt := 0x40000, tvec := 0x40 } }).hart.eval = 6 := by decide

/-- The ranges of the runs above. -/
def copyRanges : List (Word × Nat) := [(0x10008, 8), (0x10048, 8), (0x10040, 64), (0x10000, 64), (0x10000, 128), (0x10008, 128),
  (0x10048, 4), (0x10088, 8)]

theorem memS_parts (a : Acc) (va : Word) (len : Nat) (h : (va, len) ∈ copyRanges) (c : CopyCmd) :
    cachedParts (copyS c) 0 0 a va len (fun va => va.toNat) := by
  have k : cachedParts (copyS c) 0 0 a va len (fun va => va.toNat) ↔ cachedParts memS 0 0 a va len (fun va => va.toNat) := Iff.rfl
  rw [k]
  have w : ∀ a : Acc, ∀ p ∈ copyRanges, ∀ x ∈ partsOf p.1 p.2,
      (tlbFind (clusterAt memS 0).tlb 0 x.1).isSome = true ∧ xlate memS (clusterTlb 0) 0 x.1 a = .ok x.1.toNat false ∧
        windowOf (x.1.toNat / 64) = 0 := by
    intro a; cases a <;> decide
  intro x hx
  obtain ⟨h1, h2, h3⟩ := w a (va, len) h x hx
  exact ⟨h1, ⟨false, h2⟩, h3⟩

/-- The commands above. -/
def copyCmds : List CopyCmd := [cmd8, { cmd0 with passed := true }, cmdSp, cmdSp8, cmdLs, cmdLs8, cmdEf]

theorem copy_source (c : CopyCmd) (hc : c ∈ copyCmds) : copySourceReady (copyS c) 0 c 0 (fun va => va.toNat) := by
  have base : ∀ c ∈ copyCmds, c.sspace = some .mem ∧ launchOf (BitVec.ofNat 32 c.step) = 0 ∧
      (c.srcAt 0, c.run) ∈ copyRanges ∧
      ∀ x ∈ partsOf (c.srcAt 0) c.run, (copyFound (copyS c) 0 c (fun va => va.toNat) x.1).metaKind = none ∧
        (copyFound (copyS c) 0 c (fun va => va.toNat) x.1).verifies = true ∧
        ovfRange (copyS c) (x.1.toNat / 64) = none ∧ (peekI2 (copyS c) 0 (x.1.toNat / 64)).c.ph = false ∧
        visible (copyS c) (some 0) (copyFound (copyS c) 0 c (fun va => va.toNat) x.1)
          (relation (.cluster 0) (copyFound (copyS c) 0 c (fun va => va.toNat) x.1).prod) = true := by decide
  obtain ⟨hs, hl, hr, hx⟩ := base c hc
  intro x hxm
  obtain ⟨h1, h2, h3, h4, h5⟩ := hx x hxm
  refine ⟨by split <;> assumption, ?_⟩
  rw [hs]
  refine ⟨?_, h3, ways_up (copyS c) rfl _ _ _, h4, h5⟩
  rw [hl]
  exact memS_parts .read _ _ hr c

theorem copy_merges (c : CopyCmd) (g : Nat) (hg : g = 0x401 ∨ g = 0x402) : engineMerges (copyS c) 0 (prodCopy 0) g 0 := by
  rcases hg with rfl | rfl <;>
  · refine ⟨by decide, ways_up (copyS c) rfl _ _, noWay_up (copyS c) rfl _ _ _ _, line_up (copyS c) rfl _ _, fun c hc => ?_, fun h => absurd h ?_, fun _ => ⟨⟨⟨?_, ?_⟩, ?_⟩, fun c hc => ?_⟩⟩
    · cases hc
    · show ¬ presentProd memS 0 _ none = prodCopy 0
      decide
    · show visible memS (some 0) (junctionGranule memS _).1 (relation (.cluster 0) (junctionGranule memS _).1.prod) = true
      decide
    · show (junctionGranule memS _).1.verifies = true
      decide
    · show (junctionGranule memS _).1.data = 0
      decide
    · rcases hc with hc | hc <;> cases hc

theorem test_meets_CopyCommands_runs :
    (let s := copyS cmd8
     (clusterAt s 0).copyq = cmd8 :: [] ∧ copiesSince (clusterAt s 0).copyn cmd8.q < 64 ∧ cmd8.passed = true ∧ 0 < cmd8.total ∧
       cmd8.ef = false ∧ holder s cmd8.step = none ∧ (∀ y ∈ (clusterAt s 0).o2held, y.2.held.isSome = true) ∧ cmd8.dspace = some .mem ∧
       clusterOfSlot cmd8.slot = 0 ∧ cmd8.relabels 0 = false ∧ (cmd8.dstAt 0, cmd8.bd) ∈ copyRanges ∧
       (partsOf (cmd8.dstAt 0) cmd8.bd).map (·.1.toNat / 64) = [0x401]) ∧
    (let c : CopyCmd := { cmd0 with passed := true }
     c.relabels 0 = true ∧ c.dspace = some .mem ∧ (c.dstAt 0, c.bd) ∈ copyRanges) ∧
    (cmdEf.ef = true ∧ cmdEf.badCode = none ∧ cmdEf.dspace = some .mem ∧ cmdEf.relabels 0 = false ∧ (cmdEf.dstAt 0, cmdEf.bd) ∈ copyRanges ∧
      (cmdEf.resAt 0, cmdEf.br) ∈ copyRanges ∧ (partsOf (cmdEf.resAt 0) cmdEf.br).map (·.1.toNat / 64) = [0x402]) := by decide

theorem test_meets_CopyCommands_room : ClusterRoom (copyS cmd8) 0 2 := by unfold ClusterRoom; decide

theorem test_meets_CopyCommands_local :
    (cmdSp.dspace = some .sp ∧ (cmdSp.dstAt 0).toNat % 128 = 0 ∧ (cmdSp.dstAt 0).toNat + cmdSp.run ≤ spSize (coreAt (copyS cmdSp) 0) ∧
      cmdSp.relabels 0 = true) ∧
    (cmdSp8.dspace = some .sp ∧ (cmdSp8.dstAt 0).toNat % 128 = 0 ∧ cmdSp8.bd % 128 = 0 ∧
      (cmdSp8.dstAt 0).toNat + cmdSp8.bd ≤ spSize (coreAt (copyS cmdSp8) 0) ∧ cmdSp8.relabels 0 = false) ∧
    (cmdLs.dspace = some .ls ∧ cmdLs.relabels 0 = true) ∧
    (cmdLs8.dspace = some .ls ∧ cmdLs8.relabels 0 = false ∧ (cmdLs8.dstAt 0).toNat + cmdLs8.bd ≤ 65536 ∧
      (laneGranule 0 (coreAt (copyS cmdLs8) 0) 0).1.verifies = true) := by decide

theorem test_meets_CopyCommands_ends :
    (clusterAt memS 0).copyq = [] ∧
    (cmd0.passed = false ∧ cmd0.ef = false ∧ cmd0.total = 1 ∧ rangeMeeting (copyS cmd0) 0x10040 64 = none) ∧
    (let c : CopyCmd := { cmd0 with cpcvt := 0x40000, dst := 0x10000000, cprun := 128 }
     c.passed = false ∧ c.dspace = some .sp ∧ 0 < c.total ∧ spSize (coreAt (copyS c) 0) < (c.dstAt 0).toNat + c.bd) ∧
    (cmdSp.dspace = some .sp ∧ (cmdSp.dstAt 0).toNat + cmdSp.bd ≤ spSize (coreAt (copyS cmdSp) 0)) ∧
    (let c : CopyCmd := { cmd0 with passed := true, runs := 1 }
     c.passed = true ∧ c.total ≤ c.runs ∧ c.rel = false) ∧
    (let c : CopyCmd := { cmd0 with passed := true, runs := 1, rel := true, phase := 1 }
     c.total ≤ c.runs ∧ acked (copyS c) (prodCopy 0) = true ∧
     acked { copyS c with mesh := [⟨.count (prodCopy 0) (prodCopy 0) 3 1, 0, 0, 0, none⟩] } (prodCopy 0) = false) ∧
    (let f := { TrapInfo.plain 0x05 0 with eng := true }
     let s := fun (lev : Bool) => base fun h => { h with engineFaults := [f], tvec := 0x40, tstat := { h.tstat with lev := lev } }
     runningSlot (s false) 0 = some 0 ∧ engineFaultDue (hartAt (s false) 0) = true ∧ engineFaultDue (hartAt (s true) 0) = false ∧
     stopped (s false) 0 = false ∧ f.cause ≠ 0x08 ∧ f.cause ≠ 0x10 ∧ f.score = none ∧ (hartAt (s false) 0).frecbase = 0 ∧ (hartAt (s false) 0).tvec ≠ 0) := by
  decide

theorem test_meets_CopyCommands_stopped : stopped (withStep { step1 with stopping := some .preempt } id) 0 = true := by decide

/-- A relabelled run keeps its data and takes the sequencer's producer id. -/
theorem test_copy_relabels :
    let s := copyS { cmd0 with src := 0, cpcvt := 0x10000, passed := true }
    let s := setCore s 0 { coreAt s 0 with sp := [(0, ⟨true, some (mkGranule 9 0 1 1, 0), none⟩)] }
    (tget (clusterAt (after (.copyCommand 0) s) 0).o2 0x401).map (fun e => (e.g.data, e.g.prod, e.g.level)) =
      some (9, prodCopy 0, 0) := by decide
/-! ## What the statements assume: record streams -/

/-- A standing launch bound to graph 0. -/
def standing0 : LaunchRec := { launch1 with id := 0, standing := true, firings := 3 }

/-- Graph 0 enabled for launch 0 with 16 slots of 128 bytes at 0x20000, two sources, windows of 10 time units, and whatever `f`
changes; launch 0 has output 5 bound to the endpoint that feeds source 0. -/
def streamS (f : Graph → Graph) : State :=
  let s := base fun h => { h with x := regs [(1, 0x10010), (2, 5), (3, 1), (4, 64), (6, 0x10008), (7, 0x400)], tvec := 0x40 }
  let g : Graph := { Graph.reset with sgcfg := 0x8072000040000000, sgbase := 0x20000, sgwin := 10, sgtime := 0x100000000 }
  { s with
    mer := { s.mer with graphs := [(0, f g)], binds := [(0, 77)], outputs := [⟨0, 5, 77, 9, 0, 0, []⟩, ⟨0, 6, 78, 9, 0, 4, []⟩] }
    disp := { s.disp with launches := [standing0] } }

/-- A window with one late record. -/
def win0 : Win := ⟨0, 1, some 0, 0, [4], 0, some 0, [], none⟩

/-- `streamS` with the granule of the record header at 0x10010. -/
def semS (len : Nat) (f : Graph → Graph) : State := setHbm (streamS f) 0x400 (mkGranule (BitVec.ofNat 512 (len * 2 ^ 208 + 7 * 2 ^ 128)) 384 4 0)

theorem semS_settled (len : Nat) (h : len = 0 ∨ len = 4080 ∨ len = 4081 ∨ len = 65535) : Settled (semS len id) 0x400 false
    (BitVec.ofNat 512 (len * 2 ^ 208 + 7 * 2 ^ 128)) := by
  have hj : Takes (semS len id) (me (semS len id)) (curCluster (semS len id)) (junctionGranule (semS len id) 0x400).1 ∧
      (junctionGranule (semS len id) 0x400).1.data = BitVec.ofNat 512 (len * 2 ^ 208 + 7 * 2 ^ 128) := by
    rcases h with rfl | rfl | rfl | rfl <;> exact ⟨⟨by decide, by decide⟩, by decide⟩
  have h1 : tget (coreAt (semS len id) (curCore (semS len id))).i1 0x400 = none ∧
      tget (clusterAt (semS len id) (curCluster (semS len id))).i2 0x400 = none ∧ tget (semS len id).i3 0x400 = none := by
    rcases h with rfl | rfl | rfl | rfl <;> decide
  refine ⟨fun e he => (nomatch he), fun _ => ways_up (semS len id) ?_ _ _, fun _ _ => ⟨hj.1, hj.2, fun c hc => ?_⟩, fun _ h => absurd h (by decide)⟩
  · rcases h with rfl | rfl | rfl | rfl <;> decide
  · rw [h1.1, h1.2.1, h1.2.2] at hc
    rcases hc with hc | hc | hc <;> cases hc

theorem semS_byte (len : Nat) (h : len = 0 ∨ len = 4080 ∨ len = 4081 ∨ len = 65535) (k : Nat) (hk : k < 16) :
    let va : Word := 0x10010 + BitVec.ofNat 64 k
    settledByte (semS len id) va va.toNat false (BitVec.ofNat 512 (len * 2 ^ 208 + 7 * 2 ^ 128)) := by
  have e : ∀ k, k < 16 → let va : Word := 0x10010 + BitVec.ofNat 64 k
      va.toNat / 64 = 0x400 ∧ (tlbFind (clusterAt (semS len id) (curCluster (semS len id))).tlb (curLaunch (semS len id)) va).isSome = true ∧
      xlate (semS len id) (hereTlb (semS len id)) (curLaunch (semS len id)) va .read = .ok va.toNat false := by
    rcases h with rfl | rfl | rfl | rfl <;> decide
  have o : ovfRange (semS len id) 0x400 = none := by rcases h with rfl | rfl | rfl | rfl <;> decide
  obtain ⟨e1, e2, e3⟩ := e k hk
  refine ⟨e2, e3, ?_, ?_⟩
  · rw [e1]; exact o
  · rw [e1]; exact semS_settled len h

theorem test_meets_StreamInstructions_semit :
    (xreg (streamS id) 1).toNat % 16 = 0 ∧ (xreg (streamS id) 6).toNat % 16 ≠ 0 ∧
    outputOf (streamS id) 0 (xreg (streamS id) 3).toNat = none ∧
    outputOf (streamS id) 0 5 = some ⟨0, 5, 77, 9, 0, 0, []⟩ ∧ outputOf (streamS id) 0 6 = some ⟨0, 6, 78, 9, 0, 4, []⟩ ∧
    findLaunch (streamS id) 0 = some standing0 ∧ boundSources (streamS id) 78 = [] ∧ boundSources (streamS id) 77 = [(0, 0)] ∧
    (graphAt (streamS fun g => { g with sgcfg := 0 }) 0).en = false ∧
    (let u := fun (D : GData) => let mem := fun (_ : Nat) => D
     let word_ := fun (k : Nat) => BitVec.ofNat 64 (littleEndian (fun i =>
       (mem 0x400).extractLsb' (8 * (((0x10010 : Word) + BitVec.ofNat 64 (8 * k + i)).toNat % 64)) 8) 8)
     (word_ 0, word_ 1)
     u (BitVec.ofNat 512 (65535 * 2 ^ 208 + 7 * 2 ^ 128)) = (7, 0xFFFF0000)) ∧
    min 7 (outputWm (streamS id) standing0) ≤ 4 ∧
    4 < min 7 (outputWm (streamS fun g => { g with wm := 100 }) standing0) := by decide

theorem test_meets_StreamInstructions :
    (xreg (streamS id) 9).toNat ≤ 63 ∧ (graphAt (streamS id) 0).sgcfg.toNat % 256 = curLaunch (streamS id) ∧
    (xreg (streamS id) 4).toNat > 63 ∧ (kernelGraph (streamS id) 0).bind (fun g => g.2.win 0) = none ∧
    (let s := streamS fun g => { g with wins := [win0] }
     (kernelGraph s 0).bind (fun g => g.2.win 0) = some win0 ∧ win0.state < 4 ∧ win0.rev.getD 0 < 65536) ∧
    (streamS id).hart.notices = [] ∧
    ((0 : Word).toNat < 2 ^ 22 ∧ (0 : Word).toNat / 1024 % 64 = 0 ∧ (1 : Word).toNat ≤ 1 ∧ tget (streamS id).mer.binds 0 = some 77 ∧
      (⟨0, 5, 77, 9, 0, 0, []⟩ : Output) ∈ (streamS id).mer.outputs) ∧
    ¬ ((xreg (streamS id) 7).toNat / 1024 % 64 = 0) ∧ tget (streamS id).mer.binds 1 = none := by decide

theorem test_swin_word : xAfter (.swin 8 9) (streamS fun g => { g with wins := [win0] }) 8 = 0x4000000000010000 := by decide
theorem test_semit_sends : ((after (.semit 1 8) { semS 0 id with hart := { (semS 0 id).hart with x := regs [(1, 0x10010), (8, 6)] } }).mer.sent) =
    [⟨78, 7, 9, []⟩] := by decide
theorem test_sidle_idle : ((graphAt (after (.sidle 9 3) (streamS id)) 0).source 0).st = .idle := by decide

/-- The header word 1 of a record: source and length. -/
def hdr (src len : Nat) : Word := BitVec.ofNat 64 (len * 65536 + src)

/-- A source that its endpoint feeds: the last it sent, at time 0. -/
theorem test_meets_StreamEvents_records :
    let q := fun (s : State) => graphAt (touchSource s 0 0) 0
    let s := streamS id
    let fresh := fun (g : Graph) (t : Nat) => (g.windowsOf t).any fun k => !g.tooLate k
    boundSources s 99 = [] ∧ (boundSources s 77 = [(0, 0)] ∧ (graphAt s 0).en = true ∧ portRuns s 3 = true) ∧
    (let u := streamS fun g => { g with sgcfg := 0 }; boundSources u 77 = [(0, 0)] ∧ (graphAt u 0).en = false) ∧
    portRuns { s with ports := { s.ports with talkative := true } } 3 = false ∧
    (let u := { s with mer := { s.mer with binds := [(2, 77)] } }
     boundSources u 77 = [(0, 2)] ∧ (graphAt u 0).waitingOf 2 = none ∧ (graphAt u 0).nsrcm1 < 2) ∧
    (0 ≤ (graphAt s 0).nsrcm1 ∧ (graphAt s 0).waitingOf 0 = none ∧ (hdr 0 65535).toNat / 65536 % 65536 = 65535) ∧
    (16 + 112 ≤ (q s).slotBytes ∧ fresh (q s) 5 = true ∧ (q s).next - (q s).rcl < (q s).slots ∧
      (q s).wins.length + (((q s).windowsOf 5).filter fun k => ((q s).win k).isNone && !(q s).tooLate k).length ≤ 256 ∧
      (q s).base % 64 = 0 ∧ (q s).slotBytes % 64 = 0) ∧
    ¬ 16 + 113 ≤ (q s).slotBytes ∧ fresh (q (streamS fun g => { g with wm := 10 })) 5 = false ∧
    (let u := q (streamS fun g => { g with next := 16, sgcfg := g.sgcfg ||| 0x4000000000000000 })
     fresh u 5 = true ∧ u.slots ≤ u.next - u.rcl ∧ u.dropfull = true) ∧
    (let u := q (streamS fun g => { g with next := 16 }); fresh u 5 = true ∧ u.slots ≤ u.next - u.rcl ∧ u.dropfull = false) ∧
    (let r : Stalled := ⟨0, 0, 5, hdr 0 0, [], none⟩
     let u := streamS fun g => { g with stalled := [r] }
     (graphAt u 0).waitingOf 0 = some r ∧ r.slot = none ∧ (takeRecord u 0 r).isSome = true ∧
       takeRecord (streamS fun g => { g with next := 16, stalled := [r] }) 0 r = none) := by decide

theorem streamS_up : (∀ a b, routeUp (streamS id) a b = true) ∧ (streamS id).Inv :=
  ⟨routes_up _ rfl, by unfold State.Inv; decide⟩

/-- `n` windows that have not transited, far from the time of any record. -/
def manyWins : Nat → List Win
  | 0 => []
  | n + 1 => manyWins n ++ [⟨1000 + n, 0, some 0, 0, [], 0, none, [], none⟩]

theorem test_meets_StreamEvents_full :
    let u := streamS fun g => { g with wins := manyWins 256 }
    let g := graphAt (touchSource u 0 0) 0
    (g.windowsOf 5).any (fun k => !g.tooLate k) = true ∧ g.next - g.rcl < g.slots ∧
    256 < g.wins.length + ((g.windowsOf 5).filter fun k => (g.win k).isNone && !g.tooLate k).length := by decide

theorem test_meets_StreamEvents :
    let s := streamS id
    let g := graphAt s 0
    let up := streamS fun g => { g with wm := 100 }
    (g.en = true ∧ g.idle ≠ 0 ∧ 1 ≤ g.nsrcm1 ∧ (g.source 1).st = .active ∧ momentComes s (g.idleAt (g.source 1)) = true ∧
      g.idleAt (g.source 1) < 2 ^ 64) ∧
    (let u := streamS fun g => { g with sources := [(1, ⟨.idle, 0, 0⟩)] }; ((graphAt u 0).source 1).st ≠ .active) ∧
    (outputOf s 0 6 = some ⟨0, 6, 78, 9, 0, 4, []⟩ ∧ findLaunch s 0 = some standing0 ∧ (kernelGraph s 0).isSome = true ∧
      boundSources s 78 = [] ∧ kernelGraph (base id) 0 = none) ∧
    (outputWm s standing0 < outputWm up standing0 ∧ (⟨0, 6, 78, 9, 0, 4, [5]⟩ : Output).rises = 5 :: [] ∧ (4 : Word).toNat < (5 : Word).toNat) ∧
    g.newRcl ≤ g.rcl ∧ (let g := graphAt (streamS fun g => { g with next := 5 }) 0; g.rcl < g.newRcl) ∧ g.waitingOf 0 = none ∧
    (let u := streamS fun g => { g with sgcfg := 0 }
     let v : Word := 0x8072000040000000
     v.getLsbD 63 = true ∧ (graphAt u 0).en = false ∧ enableOk u 0 { graphAt u 0 with sgcfg := v &&& sgcfgMask } = true ∧
     enableOk u 0 { graphAt u 0 with sgcfg := 0x8000000000000000 &&& sgcfgMask } = false) ∧ (0 : Word).getLsbD 63 = false := by
  decide

/-- A record that opens a window of its time, and one that finds a window in each of its states. -/
theorem test_meets_StreamWindows_records :
    let step := fun (f : Graph → Graph) => after (.streamRecord 0 77 5 (hdr 0 2) [0xAB, 0xCD]) (streamS f)
    let g := fun (f : Graph → Graph) => graphAt (touchSource (streamS f) 0 0) 0
    let w := fun (n : Nat) (late : List Nat) => fun (g : Graph) => { g with next := 5, wins := [{ win0 with state := n, late := late }] }
    (boundSources (streamS id) 77 = [(0, 0)] ∧ (2 : Nat) ≠ 65535 ∧ 1 ≤ (g id).slide ∧ (graphAt (step id) 0).next = (g id).next + 1 ∧
      0 * (g id).slide ≤ 5 ∧ 5 < (0 + (g id).mm1 + 1) * (g id).slide ∧ (g id).win 0 = none ∧
      (g id).wm.toNat < min (2 ^ 64 - 1) ((0 + (g id).mm1 + 1) * (g id).slide)) ∧
    (let f := fun g : Graph => { g with wm := 10, sglate := 5 }
     (graphAt (step f) 0).next = (g f).next + 1 ∧ (g f).win 0 = none ∧
       min (2 ^ 64 - 1) ((0 + (g f).mm1 + 1) * (g f).slide) ≤ (g f).wm.toNat ∧
       (g f).wm.toNat < min (2 ^ 64 - 1) (min (2 ^ 64 - 1) ((0 + (g f).mm1 + 1) * (g f).slide) + (g f).lateness)) ∧
    (graphAt (step (w 0 [])) 0).next = 6 ∧ (graphAt (step (w 1 [])) 0).next = 6 ∧ (graphAt (step (w 2 [4])) 0).next = 6 ∧
    (graphAt (step (w 2 [1, 2, 3, 4, 1, 2, 3])) 0).next = 6 ∧ (graphAt (step (w 3 [])) 0).next = 6 ∧
    (findLaunch (touchSource (streamS (w 2 [1, 2, 3, 4, 1, 2, 3])) 0 0) (g id).kl).isSome = true := by decide

theorem test_meets_StreamWindows_watermarks :
    let q := fun (f : Graph → Graph) => touchSource (streamS f) 0 0
    let w := fun (n : Nat) (rev : Option Nat) (late : List Nat) (fs : List Nat) => fun (g : Graph) =>
      { g with sources := [(1, ⟨.idle, 0, 0⟩)], wins := [⟨0, n, some 0, 0, late, 0, rev, fs, fs.getLast?⟩] }
    let W := fun (f : Graph → Graph) (t : Word) => (graphAt (after (.watermarkRecord 0 77 t (hdr 0 65535)) (streamS f)) 0).wm
    ((graphAt (q (w 0 none [] [])) 0).en = true ∧ findLaunch (q (w 0 none [] [])) (graphAt (q (w 0 none [] [])) 0).kl = some standing0 ∧
      (q (w 0 none [] [])).disp.steps = [] ∧ (graphAt (q (w 0 none [] [])) 0).wins.length ≤ 256) ∧
    (W (fun g => { w 0 none [] [] g with sglate := 5 }) 10 = 10 ∧ W (w 0 none [] []) 9 = 9) ∧
    (W (w 1 (some 0) [] [7]) 12 = 12 ∧ (graphAt (q (w 1 (some 0) [] [7])) 0).lateness = 0) ∧
    (W (w 2 (some 0) [4] [7]) 12 = 12 ∧ W (w 3 (some 0) [] [7]) 12 = 12) := by decide

theorem test_meets_StreamWindows_delay :
    let s := streamS fun g => { g with next := 5, wins := [{ win0 with state := 2 }] }
    let g := graphAt s 0
    let w : Win := { win0 with state := 2 }
    g.win 0 = some w ∧ g.en = true ∧ w.state = 2 ∧ momentComes s (g.amendAt w) = true ∧ w.late = 4 :: [] ∧
    (findLaunch s g.kl = some standing0 ∧ s.disp.steps = [] ∧ (g.wins.map Win.id).Pairwise (· < ·) ∧ g.wins.length ≤ 256) ∧
    (graphAt (streamS id) 0).win 0 = none ∧ (graphAt (streamS fun g => { g with wins := [win0] }) 0).win 0 = some win0 ∧ win0.state ≠ 2 := by
  decide

theorem test_record_deposits :
    let t := after (.streamRecord 0 77 5 (hdr 0 2) [0xAB, 0xCD]) (streamS id)
    (junctionGranule t 0x800).1.data.extractLsb' 128 16 = 0xCDAB#16 ∧ (graphAt t 0).next = 1 ∧
    (graphAt t 0).wins.map (·.id) = [0] := by decide
theorem test_watermark_transits :
    let s := streamS fun g => { g with sources := [(1, ⟨.idle, 0, 0⟩)], wins := [{ win0 with state := 0, rev := none, late := [] }] }
    let t := after (.watermarkRecord 0 77 10 (hdr 0 65535)) s
    (graphAt t 0).wm = 10 ∧ t.disp.steps.map (·.handle) = [3] := by decide

/-! ## What the statements assume: events of the hierarchy and of pages -/

/-- A launch 0 with a table whose one leaf, at 0x120008, maps page 1; the leaf is `pte`. -/
def tableS (pte : Word) : State :=
  let s := base fun h => { h with tvec := 0x40 }
  let e := fun (s : State) (g : Nat) (k : Nat) (v : Word) => setHbm s g (mkGranule (v.setWidth 512 <<< (64 * k)) prodManagement 4 0)
  let s := e (e (e s 0x4000 0 0x8000000000110000) 0x4400 0 0x8000000000120000) 0x4800 1 pte
  { s with disp := { s.disp with launches := [{ launch1 with id := 0, table := 0x100000 }] } }

/-- The leaf in the device's hands, and in the host's. -/
def devLeaf : Word := 0x8F00000000010000
def hostLeaf : Word := 0xCF00000000010000

theorem tableS_junction (pte : Word) (h : pte = devLeaf ∨ pte = hostLeaf) : JunctionGood (tableS pte) 0x4800 := by
  rcases h with rfl | rfl <;> (unfold JunctionGood; decide)

theorem tableS_inv (pte : Word) (h : pte = devLeaf ∨ pte = hostLeaf) : (tableS pte).Inv := by
  rcases h with rfl | rfl <;> (unfold State.Inv; decide)

theorem test_meets_MemoryEvents_pages :
    let s := tableS devLeaf
    let m := { s with hart := { s.hart with mid := true } }
    pageLeaf s 0 0x10000 = .ok (0x120008, devLeaf, 3) ∧ pageLeaf (tableS hostLeaf) 0 0x10000 = .ok (0x120008, hostLeaf, 3) ∧
    pteHost devLeaf = false ∧ pteHost hostLeaf = true ∧ JunctionGood (tableS hostLeaf) (0x120008 / 64) ∧
    pteBase hostLeaf + 65536 ≤ hbmBytes ∧ ¬ (pteBase hostLeaf / 64 ≤ 0x120008 / 64 ∧ 0x120008 / 64 < pteBase hostLeaf / 64 + 1024) ∧
    s.Inv ∧ (tableS hostLeaf).Inv ∧ holdsTranslation s (fun l => l == 0) = false ∧ holdsTranslation m (fun l => l == 0) = true ∧
    holdsTranslation s (fun l => tableOf s l == tableOf s 0) = false ∧ holdsTranslation m (fun l => tableOf m l == tableOf m 0) = true ∧
    pageLeaf m 0 0x10000 = .ok (0x120008, devLeaf, 3) ∧
    (∀ x ∈ s.cores, x.2.o1 = []) ∧ (∀ x ∈ s.clusters, x.2.o2 = [] ∧ x.2.o2held = [] ∧ x.2.partials = []) := by
  refine ⟨by decide, by decide, by decide, by decide, tableS_junction _ (.inr rfl), by decide, by decide, tableS_inv _ (.inl rfl),
    tableS_inv _ (.inr rfl), by decide, by decide, by decide, by decide, by decide, by decide, by decide⟩

theorem tableS_page (g : Nat) (h : 0x400 ≤ g ∧ g < 0x800) : JunctionGood (tableS devLeaf) g := by
  have e1 : (tableS devLeaf).o3 = [] := by decide
  have e2 : ∀ x ∈ (tableS devLeaf).memMeta, 0x4000 ≤ x.1 := by decide
  have e3 : ∀ c ∈ (tableS devLeaf).mem, 0x100000 ≤ c.1 := by decide
  have e4 : junctionGranule (tableS devLeaf) g = (⟨0, resetMeta⟩, 4) := by
    unfold junctionGranule hbmGranule tgetD
    rw [e1, tget_none (tableS devLeaf).memMeta g fun x hx => by have := e2 x hx; omega, Memory.readN_unlisted _ _ _ fun c hc => .inr (by have := e3 c hc; omega)]
    rfl
  unfold JunctionGood
  rw [e4]
  decide

/-- `tableS` with a launch block at 0x10000 and its descriptor at 0x10080, both in the page of the launch; x1 names the block. -/
def spawnS (block : GData) (desc : GData) : State :=
  let s := tableS devLeaf
  let s := setHbm (setHbm s 0x400 (mkGranule block prodManagement 4 0)) 0x402 (mkGranule desc prodManagement 4 0)
  { s with hart := { s.hart with x := regs [(1, 0x10000)] } }

/-- One level of one step, a gang of one core; the descriptor has PUB 1 and no regions, or PUB 0. -/
def oneBlock : GData := (0x101 : GData) <<< 256 ||| 0x10080
def oneDesc : List Word := [0, 0x10, 0, 0, 0, 0, 0, 0]

theorem spawnS_reads (hd : List Word) (d : GData)
    (h : hd = oneDesc ∧ d = (0x10 : GData) <<< 64 ∨ hd = List.replicate 8 0 ∧ d = 0) : dispReads (spawnS oneBlock d) 0x100000 0x10080 hd := by
  have small : ∀ k, k < hd.length → k < 8 := by rcases h with ⟨rfl, -⟩ | ⟨rfl, -⟩ <;> (intro k hk; exact hk)
  intro k hk
  have hk := small k hk
  refine ⟨0x10080 + 8 * k, false, ?_⟩
  rcases h with ⟨rfl, rfl⟩ | ⟨rfl, rfl⟩ <;> (interval_cases k <;> decide)

theorem test_meets_SpawnAndDependences_tspawn :
    let s := spawnS oneBlock ((0x10 : GData) <<< 64)
    let f := peekI3 s 0x400
    let good := fun (b : List Word) => blkBad b = false ∧ blkStanding b = false ∧ (blkTgm1 b = 0 ∨ teamFits s (blkGsize b) (blkTgm1 b) = true)
    ((0x10004 : Word).toNat % 64 ≠ 0) ∧
    (xreg s 1).toNat % 64 = 0 ∧ Maps s (xreg s 1) .read 0x10000 false ∧ windowOf 0x400 = 0 ∧ heldBy s = none ∧
    f.c.ph = false ∧ visible s none f.c.g 3 = true ∧ f.c.g.verifies = true ∧
    good (blockOf f.c.g) ∧ s.disp.launches.length < 255 ∧ tableOf s (curLaunch s) = 0x100000 ∧ blkDesc (blockOf f.c.g) = 0x10080 ∧
    dispReads s 0x100000 0x10080 oneDesc ∧ descHeaderBad oneDesc = false ∧ descEntriesBad oneDesc = false ∧
    8 * (descNin oneDesc + descNout oneDesc) = 0 ∧ descNpipe oneDesc = 0 ∧
    (dispReads (spawnS oneBlock 0) 0x100000 0x10080 (List.replicate 8 0) ∧ descHeaderBad (List.replicate 8 0) = true) ∧
    blkBad (blockOf (peekI3 (spawnS 0 0) 0x400).c.g) = true ∧ visible (spawnS 0 0) none (peekI3 (spawnS 0 0) 0x400).c.g 3 = true := by
  refine ⟨by decide, by decide, by unfold Maps; decide, by decide, by decide, by decide, by decide, by decide,
    ⟨by decide, by decide, .inl (by decide)⟩, by decide, by decide, by decide, spawnS_reads _ _ (.inl ⟨rfl, rfl⟩), by decide, by decide,
    by decide, by decide, ⟨spawnS_reads _ _ (.inr ⟨rfl, rfl⟩), by decide⟩, by decide, by decide⟩

theorem test_tspawn_gives_handle : xAfter (.tspawn 2 1) (spawnS oneBlock ((0x10 : GData) <<< 64)) 2 = 0x1FFFFFF := by decide

theorem test_meets_MemoryEvents_events :
    (tget (coreAt ownS 0).o1 0x400 = some ownE ∧ ownE.held = none ∧ olderWaits ownS 0 ownE = false ∧ ClusterRoom ownS 0 1) ∧
    (let s := { ownS with clusters := [(0, { ClusterSt.reset with o2 := [(0x400, ownE)] })] }
     tget (clusterAt s 0).o2 0x400 = some ownE ∧ olderWaits s 0 ownE = false ∧ windowOf 0x400 = 0 ∧ (clusterAt s 0).partials = [] ∧
     routeUp s 0 (homeRouter s 0x400) = true ∧ HomeRoom s 0x400) ∧
    (let s := { ownS with ports := { ownS.ports with buffer := [(0x400, ownE)] }, o3 := [(0x400, ownE)] }
     tget s.ports.buffer 0x400 = some ownE ∧ ownE.g.verifies = true ∧ s.Inv ∧ tget s.o3 0x400 = some ownE) ∧
    (let s := tableS devLeaf
     0 < [(1 : Byte)].length ∧ [(1 : Byte)].length ≤ 64 - 0x120008 % 64 ∧ JunctionGood s (0x120008 / 64) ∧
      HomeRoom s (0x120008 / 64) ∧ routeUp s managementRouter (homeRouter s (0x120008 / 64)) = true ∧
      0x120008 + 1 ≤ hbmBytes ∧ hbmBytes < hbmBytes + [(1 : Byte)].length) ∧
    crngBad rangeS 0 0x10000 0x8000000000000001 = false ∧ crngBad rangeS 1 0x10000 0x8000000000000001 = true ∧
    crngBad rangeS 0 (0x20000 &&& 0x3FFFFFFF000) (rangeS.crngc.toList.getD 0 0) = false ∧
    crngBad { rangeS with crngb := rangeS.crngb.set 1 0x20000, crngc := rangeS.crngc.set 1 0x8000000000000001 } 0 0x20000
      (rangeS.crngc.toList.getD 0 0) = true := by
  refine ⟨⟨by decide, by decide, by decide, by unfold ClusterRoom; decide⟩,
    ⟨by decide, by decide, by decide, by decide, by decide, by unfold HomeRoom; decide⟩, ⟨by decide, by decide, ?_, by decide⟩,
    ⟨by decide, by decide, tableS_junction _ (.inl rfl), by unfold HomeRoom; decide, by decide, by decide,
    by decide⟩, by decide, by decide, by decide, by decide⟩
  unfold State.Inv; decide

/-- Flits that leave their reserve entries, and one whose link pair is out of service. -/
theorem test_meets_MemoryEvents_mesh :
    (let s := { ownS with mesh := [⟨.notice 1 0x400 0x400, 0, 0, 0, some 0⟩] }
     s.mesh = [⟨.notice 1 0x400 0x400, 0, 0, 0, some 0⟩]) ∧
    (let s := { ownS with mesh := [⟨.count 1 1 3 5, 0, 0, 0, some 0⟩] }
     s.mesh = [⟨.count 1 1 3 5, 0, 0, 0, some 0⟩]) ∧
    (let s := cutOff { ownS with mesh := [⟨.notice 1 0x400 0x400, 0, 0, 0, some 1⟩] }
     s.mesh = [⟨.notice 1 0x400 0x400, 0, 0, 0, some 1⟩] ∧ branchUp s 0 1 = false) := by decide

/-- Accesses of a port engine to a page of the launch, to one that is not mapped, and past a table entry that fails its check. -/
theorem test_meets_MemoryEvents_ports :
    let s := tableS devLeaf
    let g := (junctionGranule s 0x400).1
    let bad := setHbm s 0x4800 { mkGranule ((devLeaf : Word).setWidth 512 <<< 64) prodManagement 4 0 with data := 1 }
    portRuns s 1 = true ∧ portRuns { s with ports := { s.ports with talkative := true } } 1 = false ∧
    portAccess s 1 0 .write 0x10008 8 = .ok [(0, 0x10008, 8)] ∧ portAccess s 1 0 .write 0x20008 8 = .error .refused ∧
    portAccess s 1 0 .read 0x10008 8 = .ok [(0, 0x10008, 8)] ∧ portAccess s 1 0 .read 0x20008 8 = .error .refused ∧
    (∃ why, portAccess bad 1 0 .write 0x10008 8 = .error (.entry why)) ∧
    JunctionGood s (0x10008 / 64) ∧ HomeRoom s (0x10008 / 64) ∧ routeUp s (portRouter 1) (homeRouter s (0x10008 / 64)) = true ∧
    visible s none g 4 = true ∧ g.verifies = true := by
  refine ⟨by decide, by decide, by decide, by decide, by decide, by decide, ⟨_, rfl⟩, tableS_page _ (by decide),
    by unfold HomeRoom; decide, by decide, by decide, by decide⟩

theorem test_pageMoveOut_sets_host : pageLeaf (after (.pageMoveOut 0 0x10000) (tableS devLeaf)) 0 0x10000 = .ok (0x120008, hostLeaf, 3) := by
  decide
theorem test_o3Writeback : let s := { ownS with o3 := [(0x400, ownE)] }
    (hbmGranule (after (.o3Writeback 0x400) s) 0x400) = ownE.g ∧ (after (.o3Writeback 0x400) s).o3 = [] := by decide

/-! ## What the statements assume: events of the dispatcher -/

/-- A record for core 0: step 1, PUB 1, a gang of one core; entry 0x100. -/
def rec0 : BindRec := [0x0000840000000001, 0x100, 0, 0, 0, 0, 2, 0x100000000]

/-- Launch 0 with a block of one level of four steps and gangs of one; `step1` as `r`; the device open. -/
def dispS (r : StepRec) (k : Slot) : State :=
  let s := withStep r id
  { s with
    slots := [(0, k)]
    ports := { s.ports with stage := 5 }
    disp := { s.disp with launches := [{ launch1 with id := 0, emitted := 2, blk := [0, 0, 3, 0, 0x101, 0, 0, 0], desc := List.replicate 8 0 }] } }

def launchD : LaunchRec := { launch1 with id := 0, emitted := 2, blk := [0, 0, 3, 0, 0x101, 0, 0, 0], desc := List.replicate 8 0 }
def queued1 : StepRec := { step1 with place := .queued, recs := [], cores := [] }
def bound1 : StepRec := { step1 with place := .bound, recs := [(0, rec0)] }
def staged0 : Slot := ⟨.staged, rec0, [], [], none⟩

theorem test_meets_DispatchEvents :
    (let s := dispS queued1 Slot.reset
     findLaunch s 0 = some launchD ∧ launchD.id = 0 ∧ launchD.standing = false ∧ launchD.emitted < launchD.total ∧ unboundSteps s < 4096 ∧
     findStep s 1 = some queued1 ∧ findLaunch s queued1.launch = some launchD ∧ queued1.place = .queued ∧ s.disp.ageperiod ≠ 0 ∧
     ready queued1 = true ∧ (∀ z ∈ s.slots, z.2.st = .empty ∨ slotHandle z.2 ≠ 1) ∧ queued1.ownPrio < 7 ∧
     (wordAt rec0 0).getLsbD 47 = true ∧ (wordAt [] 0).getLsbD 47 = false ∧ rcdHandle rec0 = 1 ∧ (coreAt s 0).bindq.length < 16 ∧
     coreBinds s 0 = true ∧ tget queued1.recs 0 = none ∧ rcdBad s 0 queued1 (blkGsize launchD.blk) rec0 = false ∧
     rcdBad s 1 queued1 (blkGsize launchD.blk) rec0 = true) ∧
    ({ launchD with emitted := 4 } : LaunchRec).total ≤ 4 ∧
    (let r := { queued1 with resident := false, asked := true, tileix := [0, 0, 0, 0, 0, 0] }
     r.resident = false ∧ r.asked = true ∧ r.win = none ∧ residentPages (dispS r Slot.reset) launchD r.tileix = true ∧
     residentPages (dispS r Slot.reset) { launchD with desc := [0, 0x10000, 0, 0, 0, 0, 0, 0, 0x20000, 128, 0, 0, 0, 0, 0, 0] } r.tileix = false) ∧
    ({ queued1 with ownPrio := 7 } : StepRec).ownPrio = 7 ∧
    (let s := setCore (dispS bound1 Slot.reset) 0 { CoreSt.reset with bindq := [1] }
     headOf s 0 = some bound1 ∧ bound1.recs = [(0, rec0)] ∧ stepComplete bound1 = true ∧ coreTakes s 0 = true ∧
     (slotAt s 0).st = .empty ∧ (slotAt s 1).st = .empty ∧ findLaunch s bound1.launch = some launchD ∧ headOf (dispS bound1 Slot.reset) 0 = none) ∧
    (let s := dispS bound1 staged0
     (slotAt s 0).st = .staged ∧ findStep s (slotHandle (slotAt s 0)) = some bound1 ∧ slotHandle (slotAt s 0) = bound1.handle ∧
     bound1.recs = [(coreOfSlot 0, (slotAt s 0).rcd)] ∧ stagedSlots s 1 = [0] ∧ (slotAt s (otherSlot 0)).st = .empty ∧
     coreTakes s (coreOfSlot 0) = true ∧ findLaunch s bound1.launch = some launchD ∧
     bound1.saved = [] ∧ rcdParam (slotAt s 0).rcd = 0 ∧ changesI1 s (coreOfSlot 0) (rcdBankrole (slotAt s 0).rcd) = false) := by decide

/-- A slot with a line of preload whose bank is held and one whose bank is not, in a launch whose table maps page 1. -/
def preS (pte : Word) : State :=
  let s := tableS pte
  { s with
    slots := [(1, { Slot.reset with st := .running }), (0, ⟨.staging, rec0, [⟨0x10080, 64, 0⟩, ⟨0x10000, 0, 1⟩], [], none⟩)]
    cores := [(0, { CoreSt.reset with bankrole := 8 })] }

theorem test_meets_DispatchEvents_preload :
    let s := preS devLeaf
    let p : PreLine := ⟨0x10000, 0, 1⟩
    let held : PreLine := ⟨0x10080, 64, 0⟩
    let only := { s with slots := [(1, { Slot.reset with st := .running }), (0, ⟨.staging, rec0, [held], [], none⟩)] }
    ((slotAt s 0).st = .staging ∧ (slotAt s 0).pre = [held] ++ p :: [] ∧ (slotAt s 0).pre.Nodup ∧
      (∀ q ∈ [held], bankHeld s (coreOfSlot 0) (q.spline / 64) = true) ∧ bankHeld s (coreOfSlot 0) (p.spline / 64) = false ∧
      findLaunch s (slotHandle (slotAt s 0) / 2 ^ 24) = some { launch1 with id := 0, table := 0x100000 } ∧
      p.spline < 2048 ∧ (slotAt s 0).preFault = none) ∧
    (slotAt only 0).st = .staging ∧ (∀ q ∈ (slotAt only 0).pre, bankHeld only (coreOfSlot 0) (q.spline / 64) = true) ∧
    xlateTable s .dispatcher 0x100000 0x10000 .read = .ok 0x10000 false ∧ windowOf (0x10000 / 64) = 0 ∧ 0x10000 / 64 % 2 = 0 ∧
    noWay s 0 (0x10000 / 64) (peekI2 s 0 (0x10000 / 64)).src false = none ∧
    (∀ g, g = 0x400 ∨ g = 0x401 → (visible s (some 0) (junctionGranule s g).1 3 = true ∧ (junctionGranule s g).1.data = 0) ∧
      ∀ c, (tget (clusterAt s 0).i2 g = some c ∨ tget s.i3 g = some c) →
        c.ph = false ∧ visible s (some 0) c.g 3 = true ∧ c.g.data = 0) ∧
    xlateTable (preS 0) .dispatcher 0x100000 0x10000 .read = .page 0x04 0 3 := by
  refine ⟨by decide, by decide, by decide, by decide, by decide, by decide, by decide, fun g hg => ⟨?_, fun c hc => ?_⟩, by decide⟩
  · rcases hg with rfl | rfl <;> decide
  · have h : tget (clusterAt (preS devLeaf) 0).i2 g = none ∧ tget (preS devLeaf).i3 g = none := by rcases hg with rfl | rfl <;> decide
    rw [h.1, h.2] at hc
    rcases hc with hc | hc <;> cases hc

theorem test_hartStart : let t := after (.hartStart 0) (dispS bound1 staged0)
    (slotAt t 0).st = .running ∧ (hartAt t 0).pc = 0x100 ∧ (hartAt t 0).steph = 1 ∧ (coreAt t 0).bankrole = 2 := by decide
theorem test_walkerEmit : (after (.walkerEmit 0) (dispS queued1 Slot.reset)).disp.steps.map (fun r => (r.handle, r.tileix)) =
    [(1, [0, 0, 0, 0, 0, 0]), (2, [2, 0, 0, 0, 0, 0])] := by decide

/-! ## What the statements assume: retirement -/

/-- `step1` with RETRY `n` and PUB 3, its hart past `tdone`, in a launch with one `out` region of a line at 0x10000, or none;
`e` stands in O1. -/
def retireS (n : Nat) (out : Bool) (e : OutEntry) : State :=
  let s := tableS devLeaf
  let desc := if out then [0, 0x100010, 0, 0, 0, 0, 0, 0, 0x10000, 128, 0, 0, 0, 0, 0, 0] else oneDesc
  { s with
    hart := { s.hart with steph := 1, tdone := some 0 }
    slots := [(0, { Slot.reset with st := .running, rcd := [0x00008C0000000001, 0, 0, 0, 0, 0, 0, 0] })]
    cores := [(0, { CoreSt.reset with o1 := [(0x400, e)] })]
    disp := { s.disp with steps := [{ step1 with retries := n }], launches := [{ launch1 with id := 0, table := 0x100000, desc := desc }] } }

def retireL (out : Bool) : LaunchRec :=
  { launch1 with
    id := 0, table := 0x100000
    desc := if out then [0, 0x100010, 0, 0, 0, 0, 0, 0, 0x10000, 128, 0, 0, 0, 0, 0, 0] else oneDesc }

theorem retireS_up (n : Nat) (out : Bool) (e : OutEntry) : allUp (retireS n out e) := routes_up _ rfl

/-- A held entry of `step1`, and one with bad metadata. -/
def heldE : OutEntry := { ownE with held := some 1 }
def badE : OutEntry := { heldE with g := ⟨0, BitVec.allOnes _⟩ }

theorem test_meets_Retirement :
    let low := fun (s : State) => rcdPub (slotAt s 0).rcd
    (retiring (retireS 0 false ownE) step1 (retireL false) [0] ∧ [0].head? = some 0 ∧ step1.retryable = false ∧
      outRegions (retireL false) step1 = []) ∧
    (retiring (retireS 0 true ownE) step1 (retireL true) [0] ∧ low (retireS 0 true ownE) = 3 ∧
      (∀ x ∈ (retireS 0 true ownE).clusters, x.2.partials = []) ∧ outRegions (retireL true) step1 = [(0x10000, 128)] ∧
      (0x10000 : Word).toNat % 128 = 0 ∧ 128 % 128 = 0 ∧ (0x10000 : Word).toNat + 128 < 2 ^ 48) ∧
    (let s := retireS 1 false heldE
     let r := { step1 with retries := 1 }
     retiring s r (retireL false) [0] ∧ r.retryable = true ∧ (∀ x ∈ s.clusters, x.2.partials = []) ∧
     heldGranules s 1 = [(0x400, 0, heldE)] ∧ heldE.g.metaKind = none ∧
     turnFind (unhold s 1) 0 0x400 = some (.o1 0, heldE.g) ∧ heldE.want ≤ 4 ∧ windowOf 0x400 = 0) ∧
    (let s := retireS 1 false badE
     let r := { step1 with retries := 1 }
     retiring s r (retireL false) [0] ∧ r.retryable = true ∧ (∃ x ∈ heldGranules s 1, x.2.2.g.metaKind.isSome = true) ∧
     (hartAt s 0).frecbase = 0 ∧ r.used < r.retries) := by
  unfold retiring
  refine ⟨by decide, by decide, by decide, by decide, by decide, ⟨(0x400, 0, badE), by decide, by decide⟩, by decide, by decide⟩

theorem test_meets_Retirement_regions :
    let s := retireS 0 true ownE
    (∀ n, ClusterRoom s n 3) ∧
    (∀ va, va = 0x10000 ∨ va = 0x10040 → walk s .dispatcher va 3 1 0x100000 = .leaf devLeaf 3) ∧ pteHost devLeaf = false ∧
    (∀ g, g = 0x400 ∨ g = 0x401 → windowOf g = 0 ∧ ∀ p x, turnFind s 0 g = some (p, x) → x.metaKind = none) ∧
    turnFind s 0 0x400 = some (.o1 0, ownE.g) ∧ ownOf 0 3 ownE.g.prod = true := by
  refine ⟨fun n => ?_, fun va h => ?_, by decide, fun g h => ⟨?_, ?_⟩, by decide, by decide⟩
  · have e : clusterAt (retireS 0 true ownE) n = if n = 0 then clusterAt (retireS 0 true ownE) 0 else ClusterSt.reset := by
      by_cases h : n = 0
      · rw [if_pos h, h]
      · rw [if_neg h]
        show (tget [(0, _)] n).getD ClusterSt.reset = _
        unfold tget
        simp [Ne.symm h]
        rfl
    unfold ClusterRoom o2Bytes
    rw [e]
    split <;> decide
  · rcases h with rfl | rfl <;> decide
  · rcases h with rfl | rfl <;> decide
  · intro p x hx
    rcases h with rfl | rfl
    · rw [show turnFind (retireS 0 true ownE) 0 0x400 = some (.o1 0, ownE.g) by decide] at hx
      cases hx; decide
    · rw [show turnFind (retireS 0 true ownE) 0 0x401 = some (.home, (junctionGranule (retireS 0 true ownE) 0x401).1) by decide] at hx
      cases hx; decide
/-! ## What the statements assume: how steps end -/

/-- `step1` runs as `r` on slot 0 of an open device, in launch 0; DHANDLE names it. -/
def endS (r : StepRec) (f : Hart → Hart) : State :=
  let s := withStep r f
  { s with
    ports := { s.ports with stage := 5 }
    disp := { s.disp with launches := [launchD], dhandle := 1 } }

def retry1 : StepRec := { step1 with retries := 2 }

theorem test_meets_EndingEvents_runs :
    let runs := fun (s : State) (r : StepRec) => findStep s 1 = some r ∧ r.place = .running ∧ slotsOfStep s 1 = [0] ∧
      (slotAt s 0).st = .running ∧ slotHandle (slotAt s 0) = 1
    runs (endS step1 id) step1 ∧ runs (endS retry1 id) retry1 ∧ (hartAt (endS step1 id) 0).tdone = none ∧
    findLaunch (endS step1 id) step1.launch = some launchD ∧
    (hartAt (endS step1 fun h => { h with tdone := some 0 }) 0).tdone.isSome = true ∧
    stepCopies (endS step1 id) 1 = false ∧ step1.retryable = false ∧ step1.stopping = none ∧
    runningSlot (endS retry1 id) 0 = some 0 ∧ retry1.retryable = true ∧ retry1.used < retry1.retries ∧ step1.win = none ∧
    step1.budget = 0 ∧ ({ retry1 with budget := 9 } : StepRec).retryable = true ∧
    (let s := endS step1 id; stepCopies { s with clusters := [(0, { clusterAt s 0 with copyq := [cmd0], copyn := 1 })] } 1 = true) ∧
    ({ step1 with budget := 9 } : StepRec).budget ≠ 0 := by decide

theorem test_meets_EndingEvents_ring :
    let w : PendingRecord := ⟨1, List.replicate 8 0, true⟩
    let l : PendingRecord := ⟨0xFFFFFF, List.replicate 8 0, true⟩
    let s := endS step1 id
    let t := { s with disp := { s.disp with records := [w], cqsize := 4, cqhead := 1 } }
    let u := { s with disp := { s.disp with records := [l], cqsize := 4, cqhead := 3, cqbase := 0x10000 } }
    ringRoom t.disp = false ∧ ringRoom u.disp = true ∧ windowOf ((u.disp.cqbase.toNat / 64 + u.disp.cqtail.toNat) % 2 ^ 36) = 0 ∧
    l.handle % 2 ^ 24 = 0xFFFFFF ∧ w.handle % 2 ^ 24 ≠ 0xFFFFFF ∧ (findStep t w.handle).isSome = true ∧ ({ w with final := false }).final = false := by
  decide

theorem test_meets_EndingEvents_barrier :
    let b : Barrier := ⟨1, false, 0, 5, [0]⟩
    let s := fun (l : List Nat) => let s := endS step1 id; { s with disp := { s.disp with barriers := [{ b with arrived := l }] } }
    ((s [0]).disp.barriers.find? fun x => x.is 1 false 0) = some b ∧ barrierFull (s [0]) b = true ∧
    barrierFull (s []) { b with arrived := [] } = false := by decide

theorem test_meets_EndingEvents_commands :
    let s := endS step1 id
    s.disp.dhandle.toNat = 1 ∧ findStep s 1 = some step1 ∧ step1.place ≠ .retiring ∧ step1.ovr = false ∧
    (let r := { retry1 with ovr := true }; r.ovr = true ∧ r.retryable = true ∧ r.used < r.retries) ∧ launchOfHandle s 1 = none ∧
    (let r := { queued1 with timer := 9 }; r.place = .queued ∧ r.win = none) ∧
    ({ step1 with stopping := some .preempt } : StepRec).stopping ≠ none ∧
    (s.disp.dtimer = 0 ∧ s.dtime.toNat < ({ s with disp := { s.disp with dtimer := 9 } } : State).disp.dtimer.toNat) ∧
    ({ step1 with place := .retiring } : StepRec).place = .retiring ∧
    (let t := { s with disp := { s.disp with dhandle := 0x5000000 } }
     findStep t 0x5000000 = none ∧ launchOfHandle t 0x5000000 = none ∧ stepGone t 0x5000000 = false ∧
       stepGone { t with disp := { t.disp with past := [(5, 3)] } } 0x5000000 = true) ∧
    (let v : Word := 0x1001; 1 ≤ v.toNat / 2 ^ 12 % 4 ∧ v.toNat / 2 ^ 12 % 4 ≤ 3 ∧ s.disp.routes.length < 4096 ∧ (1 : Word).toNat / 2 ^ 12 % 4 = 0) ∧
    4096 ≤ (List.replicate 4096 (⟨0, 0, 0, 0, 1⟩ : Route)).length := by
  refine ⟨by decide, by decide, by decide, by decide, by decide, by decide, by decide, by decide, by decide, by decide, by decide, by decide, ?_⟩
  rw [List.length_replicate]

theorem endS_up (r : StepRec) (f : Hart → Hart) : allUp (endS r f) := routes_up _ rfl

/-- A timer that is the next moment to come, on a queued and on a running step, and one behind a score halving. -/
theorem test_meets_EndingEvents_timers :
    let t := fun (r : StepRec) => endS r id
    let q := { queued1 with timer := 9 }
    let r := { step1 with timer := 9 }
    let late := { queued1 with timer := 0x2000000000000 }
    findStep (t q) 1 = some q ∧ q.place = .queued ∧ q.timer ≠ 0 ∧ momentComes (t q) q.timer.toNat = true ∧
    findStep (t r) 1 = some r ∧ r.place = .running ∧ slotsOfStep (t r) 1 = [0] ∧ momentComes (t r) r.timer.toNat = true ∧
    queued1.timer = 0 ∧ findStep (t late) 1 = some late ∧ momentComes (t late) late.timer.toNat = false := by decide

theorem test_machineFault_reruns : ((after (.machineFault 0) (endS retry1 id)).disp.steps.map fun r => (r.place, r.used)) = [(.queued, 1)] := by
  decide
theorem test_kill : ((after .kill (endS step1 id)).disp.steps.map fun r => r.outcome) = [some (3, 0, 0)] ∧
    (after .kill (endS step1 id)).disp.dstat = 0 := by decide

/-! ## What the statements assume: messages -/

/-- A request of the host on connection 0 with TAG 7. -/
def msg (type : Nat) (ws : List Word) : HostMsg :=
  ⟨⟨0, 0⟩, ⟨BitVec.ofNat 64 (type * 2 ^ 56 + 7), BitVec.ofNat 64 (8 * ws.length)⟩, bytesOf ws⟩

/-- An SPDM request of a code, with 0xFF as its first parameter and `p` as its second. -/
def spdmMsg (code p : Byte) : HostMsg := ⟨⟨0, 0⟩, ⟨0x0600000000000007, 4⟩, [0x12, code, 0xFF, p]⟩

/-- The device open, with a launch whose table maps page 1 by `pte`, and a request for that page with TAG 7. -/
def msgS (pte : Word) : State :=
  let s := tableS pte
  { s with ports := { s.ports with stage := 5, pageRequests := [⟨0, 1, 7, 0x100000⟩] } }

/-- A LAUNCH block whose descriptor stands in the page of `spawnS`, and one whose descriptor is not mapped. -/
def goodBlk : List Word := [0x10080, 0, 0, 0, 0x101, 0, 0, 0]

theorem test_meets_Messages_asks :
    let w : Waiting := ⟨msg 2 [1], []⟩
    let s := { msgS devLeaf with ports := { (msgS devLeaf).ports with waiting := [w] } }
    let bad : HostMsg := { msg 2 [1] with h1 := 7 }
    opened (msgS devLeaf) = true ∧ opened State.reset = false ∧ State.reset.ports.rom = false ∧
    (Asks (msg 1 (goodBlk ++ [0x100000])) 1 ∧ (msg 1 (goodBlk ++ [0x100000])).body = bytesOf (goodBlk ++ [0x100000]) ∧
      goodBlk.length = 8) ∧
    (Asks (msg 2 [1]) 2 ∧ Asks (msg 3 [0, 0x10000, 0]) 3 ∧ Asks (msg 4 [1, 2, 3]) 4 ∧ Asks (msg 5 [1, 2, 3]) 5 ∧
      Asks (spdmMsg 0x84 0) 6) ∧
    ((msgS devLeaf).ports.waiting.all fun x => x.msg.conn != (msg 2 [1]).conn) = true ∧
    (s.ports.waiting.all fun x => x.msg.conn != (msg 2 [1]).conn) = false ∧
    (bad.port = 0 ∧ bad.h0.getLsbD 55 = false ∧ bad.h1.toNat ≠ bad.body.length) ∧ ({ bad with port := 1 } : HostMsg).port ≠ 0 ∧
    ({ msg 2 [1] with h0 := 0x0280000000000007 } : HostMsg).h0.getLsbD 55 = true ∧
    (let t := { s with agenda := [.resume 0] }
     t.agenda = .resume 0 :: [] ∧ t.ports.waiting.find? (fun x => x.msg.conn == 0) = some w ∧
       (answer w.msg w.image { t with agenda := [] }).2 = true) := by
  unfold Asks; decide

theorem test_meets_Messages_queries :
    let s := msgS devLeaf
    3 < (4 : Word).toNat % 256 ∧ (0x100000001 : Word).toNat % 256 ≠ 2 ∧ (0x100000001 : Word).toNat / 2 ^ 32 % 65536 ≠ 0 ∧
    (2 : Word).toNat = 0 * 2 ^ 32 + 2 ∧ s.svc.log[0]? = none ∧
    (let e : List Word × Vector Byte 96 := (List.replicate 8 0, Vector.replicate 96 0)
     ({ s with svc := { s.svc with log := [e] } } : State).svc.log[0]? = some e) ∧
    (let t := { s with ports := { s.ports with stage := 0, talkative := true, rom := true } }
     opened t = false ∧ t.ports.rom = true) := by decide

/-- Blocks that break R66 or name no table; a full device; and launches that are accepted, refused for a page that is not
mapped, and wait for one that the host owns. -/
theorem test_meets_Messages_launch :
    let open' := fun (s : State) => { s with ports := { s.ports with stage := 5 } }
    let s := open' (spawnS oneBlock ((0x10 : GData) <<< 64))
    let m := msg 1 (goodBlk ++ [0x100000])
    opened s = true ∧ blkBad goodBlk = false ∧ (0x100000 : Word).toNat % 512 = 0 ∧ blkBad [] = true ∧ (8 : Word).toNat % 512 ≠ 0 ∧
    (acceptLaunch goodBlk 0x100000 false (some m) s).1 = .ok (.id 1) ∧
    (acceptLaunch [0x20000, 0, 0, 0, 0x101, 0, 0, 0] 0x100000 false (some m) s).1 = .ok .refused ∧
    (acceptLaunch goodBlk 0x100000 false (some m) (msgS hostLeaf)).1 = .error .hold ∧
    255 ≤ (List.replicate 255 launch1).length := by
  refine ⟨by decide, by decide, by decide, by decide, by decide, by rfl, by rfl, by rfl, by decide⟩

theorem test_meets_Messages_pages :
    let s := msgS devLeaf
    let h := msgS hostLeaf
    (2 ^ 48 ≤ (0x1000000000000 : Word).toNat ∧ (0x20000 : Word).toNat < 2 ^ 48 ∧ pageLeaf s 0 0x20000 = .error .absent) ∧
    ((0 : Word).toNat = 0 * 256 + 0 ∧ (1 : Word).toNat = 0 * 256 + 1) ∧
    (pageLeaf s 0 0x10000 = .ok (0x120008, devLeaf, 3) ∧ (0x10000 : Word).toNat % 65536 = 0 ∧ pteHost devLeaf = false ∧
      pteBase devLeaf < hbmBytes ∧ moveBlocked s (tableOf s 0) 0x10000 3 = false) ∧
    (let t := { s with hart := { s.hart with mid := true } }
     pageLeaf t 0 0x10000 = .ok (0x120008, devLeaf, 3) ∧ moveBlocked t (tableOf t 0) 0x10000 3 = true) ∧
    (pageLeaf s 0 0x10040 = .ok (0x120008, devLeaf, 3) ∧ (0x10040 : Word).toNat % 65536 ≠ 0) ∧
    (pageLeaf h 0 0x10000 = .ok (0x120008, hostLeaf, 3) ∧ pteHost hostLeaf = true ∧ pteBase hostLeaf < hbmBytes) ∧
    (let far : Word := 0xCF00008000010000
     pageLeaf (msgS far) 0 0x10000 = .ok (0x120008, far, 3) ∧ pteHost far = true ∧ ¬ pteBase far < hbmBytes) := by decide

theorem test_meets_Messages_responses :
    let s := msgS devLeaf
    let h := msgS hostLeaf
    let q : PageRequest := ⟨0, 1, 7, 0x100000⟩
    (h.ports.pageRequests.find? (fun x => x.tag == ((0x0380000000000007 : Word).setWidth 32)) = some q ∧
      leafAt h (BitVec.ofNat 64 (q.page * 65536)) 3 1 q.table = .ok (0x120008, hostLeaf, 3) ∧
      leafAt s (BitVec.ofNat 64 (q.page * 65536)) 3 1 q.table = .ok (0x120008, devLeaf, 3)) ∧
    ((tableS hostLeaf).ports.pageRequests.find? fun x => x.tag == ((0x0380000000000007 : Word).setWidth 32)) = none ∧
    ((0x0380000000000007 : Word).toNat / 2 ^ 48 = 3 * 256 + 128 ∧ (0x0380000000000007 : Word).toNat / 2 ^ 32 % 65536 = 0 ∧
      (0x0380000100000007 : Word).toNat / 2 ^ 32 % 65536 = 1) := by decide

/-- Moves out that end in each way: with nothing in the way, with a granule of the page that fails its check, and with an entry
of the page whose cluster finds no way to the home junction. -/
theorem test_meets_Messages_moves :
    let leaf := (0x120008, devLeaf, 3)
    let s := msgS devLeaf
    (moveOut s leaf 0x100000 0x10000).2 = .left ∧
    (moveOut { s with o3 := [(0x400, { ownE with g := ⟨7, ownE.g.md⟩ })] } leaf 0x100000 0x10000).2 = .failed ∧
    (moveOut (cutOff { s with cores := [(0, { CoreSt.reset with o1 := [(0x410, ownE)] })] }) leaf 0x100000 0x10000).2 = .waits := by
  refine ⟨by rfl, by rfl, by rfl⟩

theorem test_meets_Messages_bindings :
    (1 : Word).getLsbD 63 = false ∧ (0x8000000000000000 : Word).getLsbD 63 = true ∧ findLaunch (msgS devLeaf) 1 = none ∧
    (findLaunch (msgS devLeaf) 0).isSome = true ∧ 0 = (3 : Word).toNat / 2 ^ 32 % 8 ∧ 1 = (0x100000003 : Word).toNat / 2 ^ 32 % 8 ∧
    (∀ x ∈ (msgS devLeaf).ports.buffer, (windowOf x.1 == 1) = false) ∧
    (let b : Tbl OutEntry := [(0x200000000, ownE)]
     b.Pairwise (fun x y => x.1 < y.1) ∧ (∀ x ∈ b, (windowOf x.1 == 1) = true → x.2.g.verifies = true)) ∧
    (let b : Tbl OutEntry := [(0x200000000, { ownE with g := ⟨7, ownE.g.md⟩ })]
     b.Pairwise (fun x y => x.1 < y.1) ∧ ∃ x ∈ b, (windowOf x.1 == 1) = true ∧ x.2.g.verifies = false) := by
  refine ⟨by decide, by decide, by decide, by decide, by decide, by decide, by decide, by decide, by decide,
    (0x200000000, { ownE with g := ⟨7, ownE.g.md⟩ }), by decide, by decide⟩

theorem test_meets_Messages_spdm :
    ((spdmMsg 0xE0 2).body.getD 1 0).toNat = 0xE0 ∧ ((spdmMsg 0xE0 2).body.getD 3 0).toNat = 2 ∧
    ([[1], [2]] : List (List Byte))[((spdmMsg 0xE0 2).body.getD 3 0).toNat - 1]? = some [2] ∧
    ((spdmMsg 0x85 0).body.getD 1 0).toNat ∉ [0x84, 0xE1, 0xE3, 0x81, 0x82, 0x83, 0xE0] := by decide

theorem test_meets_ManagementRegisters :
    (msgS devLeaf).memzone.getLsbD 63 = false ∧ ({ msgS devLeaf with memzone := 1 <<< 63 } : State).memzone.getLsbD 63 = true ∧
    (graphAt (streamS id) 0).en = true ∧ (graphAt (streamS id) 1).en = false := by decide

theorem test_queryCapv : ((after (.queryCapv (msg 2 [1])) (msgS devLeaf)).ports.sent.map fun m => (m.h0, m.h1, m.body)) =
    [(0x0280000000000007, 8, [0, 0, 0x40, 0x20, 0x38, 0x80, 0, 0])] := by decide

/-! ## What the statements assume: service -/

def svcS (l : Lease) (f : Service → Service) : State :=
  let s := endS retry1 id
  { s with svc := f { s.svc with lease := [(0, l)] } }

theorem test_meets_ServiceEvents_leases :
    let s := svcS .inService id
    opened s = true ∧ earlyOf s 0 = [] ∧ s.svc.lperiod.toList.getD 0 0 ≠ 0 ∧ s.svc.nextUnit.toList.getD 0 0 < unitsOf 0 ∧
    (svcS .inService fun v => { v with lperiod := v.lperiod.set 0 0 }).svc.lperiod.toList.getD 0 0 = 0 ∧
    leaseOf s 0 0 = .inService ∧ limitsAllow s 0 0 = true ∧
    (let t := svcS .inService fun v => { v with lease := [(1, .leased)] }; leaseOf t 0 0 = .inService ∧ limitsAllow t 0 0 = false) ∧
    leaseOf (svcS .leased id) 0 0 ≠ .inService ∧ leaseOf (svcS .drain id) 0 0 = .drain ∧
    (let t := svcS .drain id
     runningSlot t 0 = some 0 ∧ findStep t (slotHandle (slotAt t 0)) = some retry1 ∧ rcdTeam (slotAt t 0).rcd = 0 ∧
       unitIdle t 0 0 = false ∧ unitIdle { t with slots := [] } 0 0 = true) ∧
    leaseOf (svcS .leased id) 0 0 = .leased ∧ tgetD (svcS .leased id).svc.fails (unitKey 0 0) 0 = 0 ∧
    (let t := svcS .leased fun v => { v with fails := [(unitKey 0 0, 1)] }
     0 < tgetD t.svc.fails (unitKey 0 0) 0 ∧ t.svc.log.length < 4096) ∧
    (let t := svcS .inService fun v => { v with retiring := [(3, 9)] }
     tget t.svc.retiring 3 = some 9 ∧ tget t.svc.retiring 4 = none) ∧
    (s.svc.scores = [] ∧ tsorted s.svc.scores = true) ∧ scoreIndexOk 0 = true ∧ scoreIndexOk 2047 = false ∧
    (511 < 512 ∧ tgetD s.svc.scores (864 + 511) 0 + 4 < 256) ∧ (5 : Word).toNat % 8192 < 256 ∧ leaseOf s 0 5 = .inService ∧
    limitsAllow s 0 5 = true ∧ (0, 1) ∉ s.svc.early ∧ (1376 : Word).toNat % 8192 ≥ 1376 := by decide

/-- A team's step on core 0, which comes due. -/
def teamS : State :=
  let s := svcS .inService id
  { s with slots := [(0, { slotAt s 0 with rcd := [0x0000800000000001, 0, 0, 0, 0, 0, 0, 0x0001000100000000] })] }

theorem test_meets_ServiceEvents_teams :
    let s := teamS
    earlyOf s 0 = [] ∧ s.svc.nextUnit.toList.getD 0 0 = 0 ∧ leaseOf s 0 0 = .inService ∧ limitsAllow s 0 0 = true ∧
    runningSlot s 0 = some 0 ∧ (runningSlots s).Nodup ∧ 0 ∈ runningSlots s ∧ rcdTeam (slotAt s 0).rcd ≠ 0 ∧
    (hartAt s 0).tdone = none ∧ (hartAt s 0).lost = false ∧ (hartAt s 0).notices = [] ∧
    (let t := { s with ports := { s.ports with stage := 0 } }; opened t = false) ∧
    (let t := { svcS .drain id with disp := (endS step1 id).disp, clusters := [(0, { clusterAt (endS step1 id) 0 with copyq := [cmd0], copyn := 1 })] }
     leaseOf t 0 0 = .drain ∧ runningSlot t 0 = some 0 ∧ findStep t (slotHandle (slotAt t 0)) = some step1 ∧
       step1.retryable = false ∧ step1.stopping = none ∧ stepCopies t step1.handle = true) := by decide

/-- Pattern runs of a pseudo-channel and of a core whose cluster has another quarantined core; moments before a halving. -/
theorem test_meets_ServiceEvents_runs :
    (let t := svcS .inService fun v => { v with lease := [(unitKey 3 7, .leased)] }
     leaseOf t 3 7 = .leased ∧ tget t.svc.retiring 7 = none ∧ t.svc.quarantined = [] ∧ 7 < unitsOf 3 ∧ tgetD t.svc.fails (unitKey 3 7) 0 = 0) ∧
    (let t := svcS .leased fun v => { v with quarantined := [1] }
     leaseOf t 0 0 = .leased ∧ t.svc.quarantined = [1] ∧ 1 / 4 = 0 / 4 ∧ 1 < 256 ∧ 1 ≠ 0 ∧ leaseOf t 0 1 = .inService) ∧
    (let t := endS { step1 with timer := 9 } id
     ∃ m ∈ moments t, t.dtime.toNat < m ∧ m < nextHalving t.dtime) ∧
    (let t := endS step1 id
     (∀ m ∈ moments t, t.dtime.toNat < m → nextHalving t.dtime ≤ m) ∧ nextHalving t.dtime < 2 ^ 64) ∧
    (∃ x ∈ moments (endS step1 id), x = nextHalving (endS step1 id).dtime) := by
  refine ⟨by decide, by decide, ⟨9, by decide, by decide⟩, by decide, ⟨nextHalving (endS step1 id).dtime, by decide, rfl⟩⟩

/-- A power-on that passes, to be spoilt. -/
def goodOn : PowerOn := ⟨0, ⟨5, [1]⟩, [2], true, true, true, 0, 0, 0, 36, []⟩

theorem test_meets_ServiceEvents_rest :
    goodOn.image = 0 ∧ goodOn.mountOk = true ∧ goodOn.hbmOk = true ∧ goodOn.scanOk = true ∧ goodOn.almanacFails = [] ∧
    ({ goodOn with image := 1 } : PowerOn).image ≠ 0 ∧ State.reset.ports.tlimit.toNat = 95 ∧
    State.reset.ports.steps.toList.getD 0 0 ≠ 8 ∧
    issues (base id) = true ∧ issues (base fun h => { h with tdone := some 0 }) = false ∧ (fetchWord (base fun h => { h with pc := 2 })).1 = .error (.trap (TrapInfo.plain 0x03 2)) ∧
    (base fun h => { h with pc := 2 }).hart.pc.toNat % 4 ≠ 0 ∧
    (let s := { hostS with hart := { hostS.hart with pc := 0x10000 } }; (fetchWord s).1 = .error .hold) ∧
    (let s := { memS with hart := { memS.hart with pc := 0x10000 } }
     (fetchWord s).1 = .ok 0 ∧ decodeWord 0 = none ∧ (decodeWord 0x0C000000#32).isSome = true) := by decide

theorem test_pattern_fails_twice : (after (.patternRunComplete 0 0 false 9) (svcS .leased fun v => { v with fails := [(unitKey 0 0, 1)] })).svc.lease =
    [(0, .retired)] := by decide
theorem test_powerOn_opens : opened (after (.powerOn goodOn) State.reset) = true := by decide

/-! ## What the statements assume: the machine as a whole -/

/-- `withFetchWord` of `sub x3, x1, x2` from reset. -/
def fetchS : State := State.reset.withFetchWord 32 0b000001_00011_00001_00010_00000000001

theorem test_meets_StepRunsDecoded :
    let s1 := { switchTo { fetchS with agenda := [] } 0 with units := none }
    fetchS.agenda = .run 0 none :: [] ∧ runningSlot { fetchS with agenda := [] } 0 = some 0 ∧ s1.hart.tdone = none ∧
    stopped s1 s1.cur = false ∧ ¬ (s1.hart.phase = 5 ∧ pendingSources s1 s1.cur ≠ 0) ∧
    engineFaultDue s1.hart = false ∧ takenSources s1 s1.cur = 0 ∧ s1.hart.frameAllows s1.hart.pc = true ∧
    (fetchWord (markBegan s1)).1 = .ok 0b000001_00011_00001_00010_00000000001 ∧
    decodeWord 0b000001_00011_00001_00010_00000000001#32 = some (.sub 3 1 2) := by decide

/-- A body position that the flags of the innermost frame skip. -/
theorem test_meets_StepRunsDecoded_skips :
    let s := { fetchS with hart := { fetchS.hart with frames := [{ frame2 with start := 0, flags := 2 }] } }
    let s1 := { switchTo { s with agenda := [] } 0 with units := none }
    s.agenda = .run 0 none :: [] ∧ runningSlot { s with agenda := [] } 0 = some 0 ∧ s1.hart.tdone = none ∧ s1.hart.phase = 0 ∧
    stopped s1 s1.cur = false ∧ s1.hart.frameAllows s1.hart.pc = false := by decide

theorem test_meets_StepKeepsMemoryForm : fetchS.Inv ∧ ∃ t, step fetchS = .next t := by
  refine ⟨by unfold State.Inv; decide, _, rfl⟩

theorem test_step_pc : (match step fetchS with | .next t => t.hart.pc | _ => 0) = 4 := by decide

theorem test_meets_EncodingRoundTrip : wf? (.sub 3 1 2) = some (.sub 3 1 2) ∧
    encode (.sub 3 1 2) = some 0b000001_00011_00001_00010_00000000001 := by decide

/-! ## What the remaining vector statements assume -/

theorem test_meets_VectorBits : fits (vecS 0 0 0 128 0 0) .b ∧ integers (vecS 0 0 0 128 0 0) := by unfold fits integers; decide
theorem test_meets_VectorTraps : ¬ integers (vecS 0 0 0 1 0x400 0) ∧ integers (vecS 0 0 0 1 0 0) ∧
    (vecS 0 0 0 1 0x400 0).hart.kind .b = .none ∧ ¬ fits (vecS 0 0 0 129 0 0) .b ∧ integers (vecS 0 0 0 129 0 0) := by
  unfold fits integers; decide
theorem test_meets_floatExtremes : floatExtremes .f32 32 (extremeElem true (.flt .f32) 32) (extremeElem false (.flt .f32) 32) := by
  intro m n
  refine ⟨fun h => ?_, fun h1 h2 h3 => ?_, fun h1 h2 h3 => ?_⟩
  · rcases h with h | h <;> simp at h <;> simp [extremeElem, h]
  · rcases h3 with h3 | ⟨h3, h4⟩ <;> simp_all [extremeElem, signOf]
  · simp only [not_or, not_and] at h3
    simp_all [extremeElem, signOf]
theorem test_meets_ReductionsAndScans_traps : ({ (vecS 0 0 0 3 0 0) with hart := { (vecS 0 0 0 3 0 0).hart with vstart := 1 } } : State).hart.vstart ≠ 0 ∧
    integers (vecS 0 0 0 3 0 0) := by
  unfold integers; decide
theorem test_meets_ReductionsAndScans : (vecS 0 0 0 3 0 0).hart.vstart = 0 ∧ fits (vecS 0 0 0 3 0 0) .b ∧ integers (vecS 0 0 0 3 0 0) ∧
    ¬ integers (vecS 0 0 0 3 0x400 0) ∧ (vecS 0 0 0 3 0x400 0).hart.kind .w = .flt .f32 ∧ fits (vecS 0 0 0 3 0x400 0) .w := by
  unfold fits integers; decide

/-! ## What the clauses about records, ways and units of work assume -/

/-- `memS` with a handler and its fault record at 0x10040. -/
def recS (f : State → State) : State :=
  f { memS with hart := { memS.hart with frecbase := 0x10040, tvec := 0x40 } }

theorem test_meets_TrapEntry_record :
    let s := recS id
    let other := fun (v : Word) => recS fun s => { s with hart := { s.hart with frecbase := v } }
    let maps := fun (s : State) => xlate s (hereTlb s) (curLaunch s) s.hart.frecbase .write
    s.hart.frecbase ≠ 0 ∧ recordLeg s = none ∧ heldBy s = none ∧ maps s = .ok 0x10040 false ∧ windowOf (0x10040 / 64) = 0 ∧
    rangeMeeting s (64 * (0x10040 / 64)) 64 = none ∧ s.hart.tvec ≠ 0 ∧ notPending s (0x10040 / 64) ∧
    ((coreAt s 0).i1 = [] ∧ (clusterAt s 0).i2 = []) ∧
    (recS fun s => { s with hart := { s.hart with tvec := 0 } }).hart.tvec = 0 ∧
    recordLeg (recS cutOff) = some (some (0, 7)) ∧
    (recordLeg (other 0x20000) = none ∧ maps (other 0x20000) = .page 0x04 0 1) ∧
    (let s := recS fun s => { s with clusters := hostS.clusters }
     recordLeg s = none ∧ maps s = .host 3) ∧
    (let s := recS fun s => { s with crngb := s.crngb.set 0 0x10000, crngc := s.crngc.set 0 0x8000000000000001 }
     recordLeg s = none ∧ maps s = .ok 0x10040 false ∧ (rangeMeeting s (64 * (0x10040 / 64)) 64).isSome = true) ∧
    (let s := recS fun s => { s with disp := (withStep { step1 with retries := 1 } id).disp, hart := { s.hart with steph := 1 } }
     (heldBy s).isSome = true ∧ recordLeg s = none ∧ maps s = .ok 0x10040 false) := by
  unfold notPending; decide

/-- `tableS` with the leaf's granule spoilt. -/
def badT : State := setHbm (tableS devLeaf) 0x4800 { mkGranule ((devLeaf : Word).setWidth 512 <<< 64) prodManagement 4 0 with data := 1 }

/-- A record at an address whose table entry fails its check; a trap that is met before a `bstrip` whose record has no way;
an interrupt behind an engine fault. -/
theorem test_meets_TrapEntry_walk :
    let s := { badT with hart := { badT.hart with frecbase := 0x20000 } }
    recordLeg s = none ∧ (∃ why, xlate s (hereTlb s) (curLaunch s) s.hart.frecbase .write = .walk why) ∧
    (let u := recS cutOff
     let u := { u with hart := { u.hart with mon := [⟨0, 9, 1⟩], x := regs [(1, 9)] } }
     (u.hart.mon.find? fun e => e.addr == u.hart.pc) = some ⟨0, 9, 1⟩ ∧ recordLeg u = some (some (0, 7))) ∧
    (let u := base fun h => { h with engineFaults := [TrapInfo.plain 0x05 0], tvec := 0x40, tstat := { h.tstat with tip := true } }
     takenSources u 0 ≠ 0 ∧ engineFaultDue (hartAt u 0) = true) := by
  refine ⟨by decide, ⟨_, rfl⟩, by decide, by decide⟩

/-- A bypass load of a granule of window 1 that no buffer holds. -/
theorem test_meets_Loads_remote :
    let s := { memS with
      clusters := [(0, { ClusterSt.reset with tlb := [⟨0, 1, false, 0x8F00008000000000⟩] })]
      ports := { memS.ports with windows := [(1, (2, 9))] } }
    Maps s 0x10000 .read (64 * 2 ^ 33) false ∧ windowOf (2 ^ 33) ≠ 0 ∧ HomeWay s (2 ^ 33) ∧
    tget (drainOwn s (curCore s) (2 ^ 33)).ports.buffer (2 ^ 33) = none ∧ selfEntry s (curCore s) (2 ^ 33) = none := by
  refine ⟨by unfold Maps; decide, by decide, by unfold HomeWay; decide, by decide, by decide⟩

/-- An atomic that ships and acquires, on a flag with an attachment and on a lost one. -/
theorem test_meets_Atomics_attachments :
    let a : Attachment := ⟨3, 0⟩
    isLost (phaseS 4) 0x400 = false ∧ tget (phaseS 4).attach 0x400 = none ∧
    (sliceAttachments (phaseS 4) (junctionOf (phaseS 4) 0x400)).length < 64 ∧
    tget ({ phaseS 4 with attach := [(0x400, a)] } : State).attach 0x400 = some a ∧
    isLost { phaseS 4 with lost := [0x200] } 0x400 = true := by decide

/-- The launch that a handle names, as a waiter: one of its steps is complete, or runs, or has no edge free. -/
theorem test_meets_SpawnAndDependences_launch :
    let w := 0x1FFFFFF
    let s := fun (l : LaunchRec) (r : StepRec) => { depS with disp := { depS.disp with
      steps := [step1, r], launches := [{ launch1 with id := 0, total := 2, emitted := 2 }, l] } }
    launchOfHandle (s { launch1 with completed := 1 } step2) w = some { launch1 with completed := 1 } ∧
    (launchOfHandle (s launch1 { step2 with place := .running }) w = some launch1 ∧
      waiterStarted (s launch1 { step2 with place := .running }) w = true) ∧
    (let t := s launch1 { step2 with deps := 65535 }
     waiters t w = [{ step2 with deps := 65535 }] ∧ depsFull t w = true) ∧
    (waiterStarted depS 0x5000000 = false ∧ waiterDead depS 0x1000002 = false ∧ dependeeOpen depS 0x5000000 = false) := by decide

/-- A barrier at which the acting hart has arrived. -/
theorem test_meets_BarriersDoneAndYield_arrived :
    let b : Barrier := ⟨1, false, 0, 5, [0]⟩
    let s := withStep step1 fun h => { h with phase := 2 }
    let s := { s with disp := { s.disp with barriers := [b] } }
    s.hart.phase = 2 ∧ (s.disp.barriers.find? fun b => b.is 1 false (gangIndex s 1 s.cur)) = some b ∧ b.arrived ≠ [] ∧ s.cur ∈ b.arrived ∧
    acked s (coreOfSlot 0) = true ∧ (∀ k ∈ barrierMembers s 1 false (gangIndex s 1 s.cur), k ∈ b.arrived) := by decide

theorem test_meets_VectorTraps_kinds :
    let k := fun (mfc : Word) (ew : EW) => (vecS 0 0 0 129 mfc 0).hart.kind ew
    k 0 .b = .int ∧ k 0x400 .w = .flt .f32 ∧ k 0x400 .b = .none ∧ ¬ fits (vecS 0 0 0 129 0x400 0) .w ∧
    ({ (vecS 0 0 0 3 0x400 0).hart with vstart := 1 } : Hart).vstart ≠ 0 ∧ ¬ integers (vecS 0 0 0 3 0x400 0) := by
  unfold fits integers; decide

/-- Contributions that have a place in O2; an address off the access's grid, one outside every range, and one off the element's. -/
theorem test_meets_Contributions_traps :
    partialsFit rangeS 1 ∧ inRange rangeS .w 0x10008 0 ∧ rangeS.units = none ∧
    (let h := { rangeS.hart with x := regs [(1, 0x10006)] }
     (h.actives 0 32 h.vstart.toNat h.vl.toNat).find? (fun e => (indexVa h 1 2 32 e).toNat % 4 != 0) = some 0) ∧
    rangeOf vmS 0x10008 = none ∧
    (let s := { rangeS with crngc := rangeS.crngc.set 0 0x8000020000000001 }
     rangeOf s 0x1000C = some 0 ∧ crngFmt (crngcOf s 0) = 2 ∧ 0x1000C % crngElem (crngcOf s 0) ≠ 0) := by
  refine ⟨?_, ?_, by decide⟩
  · unfold partialsFit; decide
  · unfold inRange; decide

/-! ### Instructions that stop inside -/

/-- `vmS` with two elements of 64 bits, in one granule, and the instruction to stop after one unit. -/
def twoS : State := { vmS with hart := { vmS.hart with vl := 2 }, units := some 1 }

theorem twoS_settled : Settled { twoS with units := none } 0x400 false 0 := vmS_settled

theorem test_meets_DividedAccesses_loads (m : Addr) (hm : m = .unit ∨ m = .strided 2 ∨ m = .first) :
    twoS.units = some 1 ∧ ((⟨3, 1, m, 0, .d, false, .mem⟩ : VMemOp).elems twoS.hart)[1]? = some 1 ∧
    loadReady { twoS with units := none } ⟨3, 1, m, 0, .d, false, .mem⟩ (fun va => va.toNat) (fun _ => false) (fun _ => 0) := by
  have h : passesTests { twoS with units := none } ⟨3, 1, m, 0, .d, false, .mem⟩ false ∧
      (⟨3, 1, m, 0, .d, false, .mem⟩ : VMemOp).elems twoS.hart = [0, 1] ∧
      (∀ i, i = 0 ∨ i = 1 → (⟨3, 1, m, 0, .d, false, .mem⟩ : VMemOp).touch twoS.hart i = [⟨i, 0x10008 + BitVec.ofNat 64 (8 * i)⟩]) := by
    rcases hm with rfl | rfl | rfl <;>
      exact ⟨by unfold passesTests; decide, by decide, fun i hi => by rcases hi with rfl | rfl <;> decide⟩
  have mp : ∀ i, i = 0 ∨ i = 1 → let va : Word := 0x10008 + BitVec.ofNat 64 (8 * i)
      Maps { twoS with units := none } va .read va.toNat false ∧ ovfRange twoS (va.toNat / 64) = none ∧ va.toNat / 64 = 0x400 := by
    intro i hi; rcases hi with rfl | rfl <;> (unfold Maps; decide)
  refine ⟨rfl, by rw [h.2.1]; rfl, h.1, fun i hi t ht => ?_, fun e => (nomatch e), fun e => (nomatch e)⟩
  have hi : i ∈ [0, 1] := by rw [← h.2.1]; exact hi
  have hi : i = 0 ∨ i = 1 := by simpa using hi
  have ht : t ∈ (⟨3, 1, m, 0, .d, false, .mem⟩ : VMemOp).touch twoS.hart i := ht
  rw [h.2.2 i hi, List.mem_singleton] at ht
  subst ht
  obtain ⟨h1, h2, h3⟩ := mp i hi
  exact ⟨h1, h2, by dsimp only; rw [h3]; exact twoS_settled⟩

/-- A resumed load whose second element lies in a page that nothing maps. -/
def againS : State := { edgeS with hart := { edgeS.hart with resume := true } }

theorem againS_settled (u : Nat) : Settled (shortened againS u) 0x7FF false 0 := by
  have e : Settled vmS 0x7FF false 0 := by
    refine ⟨fun e he => (nomatch he), fun _ => ways_up vmS rfl _ _, fun _ _ => ⟨⟨by decide, by decide⟩, by decide, fun c hc => ?_⟩,
      fun _ h => absurd h (by decide)⟩
    have h1 : tget (coreAt vmS (curCore vmS)).i1 0x7FF = none ∧ tget (clusterAt vmS (curCluster vmS)).i2 0x7FF = none ∧
      tget vmS.i3 0x7FF = none := by decide
    rw [h1.1, h1.2.1, h1.2.2] at hc
    rcases hc with hc | hc | hc <;> cases hc
  exact e

theorem againS_faulting (a : Acc) : firstFaulting againS a [⟨0, 0x1FFF8⟩, ⟨1, 0x20000⟩] ⟨1, 0x20000⟩ 0x04 := by
  have h : ∀ a, xlate againS (hereTlb againS) (curLaunch againS) 0x1FFF8 a = .ok 0x1FFF8 false ∧
      xlate againS (hereTlb againS) (curLaunch againS) 0x20000 a = .page 0x04 0 1 := by
    intro a; cases a <;> decide
  refine ⟨⟨[⟨0, 0x1FFF8⟩], [], rfl, fun x hx => ?_⟩, ⟨_, _, (h a).2⟩, fun x hx => ?_⟩
  · rw [List.mem_singleton.mp hx]; exact ⟨_, _, (h a).1⟩
  · simp only [List.mem_cons, List.not_mem_nil, or_false] at hx
    rcases hx with rfl | rfl
    · exact .inl ⟨_, _, (h a).1⟩
    · exact .inr ⟨_, _, _, (h a).2⟩

theorem test_meets_DividedAccesses_faults :
    let o : VMemOp := ⟨3, 1, .unit, 0, .d, false, .mem⟩
    passesTests againS o false ∧ againS.hart.resume = true ∧
    (o.elems againS.hart).flatMap (o.touch againS.hart) = [⟨0, 0x1FFF8⟩, ⟨1, 0x20000⟩] ∧
    loadReady (shortened againS 1) o (fun _ => 0x1FFF8) (fun _ => false) (fun _ => 0) ∧
    ((edgeS.hart.resume = false ∧ edgeS.hart.mid = false) ∧ passesTests edgeS o false) ∧
    handled edgeS ∧ o.storeTouches againS.hart = [⟨0, 0x1FFF8⟩, ⟨1, 0x20000⟩] ∧ passesTests againS o true ∧ o.blocks againS.hart = false := by
  have h1 : (⟨3, 1, .unit, 0, .d, false, .mem⟩ : VMemOp).elems (shortened againS 1).hart = [0] := by decide
  have h2 : (⟨3, 1, .unit, 0, .d, false, .mem⟩ : VMemOp).touch (shortened againS 1).hart 0 = [⟨0, 0x1FFF8⟩] := by decide
  refine ⟨by unfold passesTests; decide, rfl, by decide, ⟨by unfold passesTests; decide, fun i hi t ht => ?_, fun e => (nomatch e), fun e => (nomatch e)⟩,
    ⟨by decide, by unfold passesTests; decide⟩, ⟨rfl, by decide⟩, by decide, by unfold passesTests; decide, by decide⟩
  rw [h1, List.mem_singleton] at hi
  subst hi
  rw [h2, List.mem_singleton] at ht
  subst ht
  exact ⟨by unfold Maps; decide, by decide, againS_settled 1⟩

/-- No range is valid in these states. -/
theorem ranges_none (s : State) (h : s.crngc = State.reset.crngc) : rangesFree s := by
  intro pa n
  unfold rangeMeeting
  rw [h, List.find?_eq_none]
  have z : ∀ i, i < 16 → crngValid (State.reset.crngc.toList.getD i 0) = false := by decide
  intro i hi
  simp only [List.mem_range] at hi
  dsimp only; rw [z i hi]; simp

/-- A load of an empty scratchpad line, and one off the grid of 8 bytes. -/
theorem test_meets_DividedAccesses_waits :
    let s := { vmS with hart := { vmS.hart with x := regs [(1, 128)] } }
    let o : VMemOp := ⟨3, 1, .unit, 0, .d, false, .sp⟩
    passesTests s o false ∧ 0 ∈ o.elems s.hart ∧ (spLine (coreAt s (curCore s)) (o.va s.hart 0).toNat).full = false ∧
    (o.elems s.hart).flatMap (o.touch s.hart) = [] ∧ loadReady (shortened s 0) o (fun _ => 0) (fun _ => false) (fun _ => 0) ∧
    (let h := { vmS.hart with x := regs [(1, 0x10004)] }
     let o : VMemOp := ⟨3, 1, .unit, 0, .d, false, .mem⟩
     o.illegal h = false ∧ o.badOperand h false = false ∧ ∃ e ∈ o.elems h, (o.va h e).toNat % elemBytes (o.wm h) ≠ 0) := by
  have e : (⟨3, 1, .unit, 0, .d, false, .sp⟩ : VMemOp).elems
      (shortened { vmS with hart := { vmS.hart with x := regs [(1, 128)] } } 0).hart = [] := by decide
  refine ⟨by unfold passesTests; decide, by decide, by decide, by decide,
    ⟨by unfold passesTests; decide, fun i hi => ?_, fun _ i hi => ?_, fun h => absurd h (by decide)⟩, by decide, by decide, 0, by decide, by decide⟩
  · rw [e] at hi; cases hi
  · rw [e] at hi; cases hi

/-- A store of one element of 64 bits, at the end of the page or in it, that runs to its end. -/
theorem test_meets_VectorStores_ready :
    storeReady vmS ⟨3, 1, .unit, 0, .d, false, .mem⟩ ⟨[⟨1, 0x10000, false⟩], []⟩ (fun _ => 0) := by
  obtain ⟨h1, h2, h3, h4, h5, h6⟩ := test_meets_VectorStores
  have e : ((⟨3, 1, .unit, 0, .d, false, .mem⟩ : VMemOp).pieces vmS.hart ⟨[⟨1, 0x10000, false⟩], []⟩) =
      [⟨0, .mem, 0x400, 64, 64, 0, 0x10008, false⟩] := by decide
  refine ⟨h1, h2, fun _ => ?_, h3, fun _ => h4, fun h => absurd h (by decide), h5, fun p hp hm => .inr (.inr (h6 p hp hm)),
    fun _ _ _ _ => line_up vmS rfl _ _, fun p hp hs => ?_, fun p hp hs => ?_⟩
  · unfold HasRoom; decide
  · rw [e, List.mem_singleton] at hp; rw [hp] at hs; cases hs
  · rw [e, List.mem_singleton] at hp; rw [hp] at hs; cases hs

theorem test_meets_DividedAccesses_stores :
    let o : VMemOp := ⟨3, 1, .unit, 0, .d, false, .mem⟩
    let s := { vmS with units := some 0 }
    s.units = some 0 ∧ (o.elems s.hart)[0]? = some 0 ∧ storeReady { s with units := none } o ⟨[⟨1, 0x10000, false⟩], []⟩ (fun _ => 0) ∧
    rangesFree againS ∧ firstFaulting againS .write (o.storeTouches againS.hart) ⟨1, 0x20000⟩ 0x04 := by
  refine ⟨rfl, by decide, test_meets_VectorStores_ready, ranges_none _ rfl, ?_⟩
  rw [(test_meets_DividedAccesses_faults).2.2.2.2.2.2.1]
  exact againS_faulting .write

theorem againS_store : storeReady (shortened againS 1) ⟨3, 1, .unit, 0, .d, false, .mem⟩ ⟨[⟨1, 0x10000, false⟩], []⟩ (fun _ => 0) := by
  have e1 : (⟨3, 1, .unit, 0, .d, false, .mem⟩ : VMemOp).storeTouches (shortened againS 1).hart = [⟨0, 0x1FFF8⟩] := by decide
  have e2 : (⟨3, 1, .unit, 0, .d, false, .mem⟩ : VMemOp).elems (shortened againS 1).hart = [0] := by decide
  have e3 : (⟨3, 1, .unit, 0, .d, false, .mem⟩ : VMemOp).pieces (shortened againS 1).hart ⟨[⟨1, 0x10000, false⟩], []⟩ =
      [⟨0, .mem, 0x7FF, 448, 64, 0, 0x1FFF8, false⟩] := by decide
  refine ⟨by unfold passesTests; decide, by decide, fun _ => by unfold HasRoom; decide, ?_, fun _ i hi x _ => ranges_none (shortened againS 1) rfl _ _,
    fun h => absurd h (by decide), ?_, ?_, fun _ _ _ _ => line_up (shortened againS 1) rfl _ _, ?_, ?_⟩
  · rw [e1]; intro x hx; rw [List.mem_singleton.mp hx]
    exact ⟨0x1FFF8, false, by decide, by unfold Maps; decide⟩
  · rw [e3]; decide
  · rw [e3]; intro p hp _; rw [List.mem_singleton.mp hp]; exact .inr (.inr (againS_settled 1))
  · rw [e3]; intro p hp hs; rw [List.mem_singleton.mp hp] at hs; cases hs
  · rw [e3]; intro p hp hs; rw [List.mem_singleton.mp hp] at hs; cases hs

theorem test_meets_DividedAccesses_rest :
    let s := { vmS with units := some 0 }
    (s.units = some 0 ∧ s.hart.vl.toNat * 64 ≤ 1024 ∧ 0 = s.hart.vstart.toNat + 0 ∧ 0 < s.hart.vl.toNat ∧
      vamoReady s 8 (s.hart.actives 0 64 s.hart.vstart.toNat s.hart.vl.toNat) (indexVa s.hart 1 2 64) (fun _ => 0x10008) (fun _ => false)) ∧
    (let lanes := s.hart.actives 0 64 s.hart.vstart.toNat s.hart.vl.toNat
     lanes = [0] ∧ fits s .d ∧ (∀ e ∈ lanes, (laneVa s.hart 5 2 64 e).toNat % 8 = 0 ∧ (laneVa s.hart 5 2 64 e).toNat + 8 ≤ 4096) ∧
       ∀ e ∈ lanes, (laneHeld s (64 * (e * 64 / 64) + (laneVa s.hart 5 2 64 e).toNat / 64)).verifies = true) := by
  have h := test_meets_VectorAtomics
  have e : vmS.hart.actives 0 64 vmS.hart.vstart.toNat vmS.hart.vl.toNat = [0] := h.1
  have v := h.2.1
  refine ⟨⟨rfl, by decide, by decide, by decide, fun k hk => ?_, h.2.2.2.2.2.2.2.2.2.1⟩, by unfold fits; decide⟩
  have hk : k ∈ [0] := by rw [← e]; exact hk
  rw [List.mem_singleton.mp hk]
  refine ⟨by decide, ?_, by decide, by decide, ⟨by decide, by decide⟩, by unfold FormWay HomeWay; decide, ?_⟩
  · unfold Maps; decide
  · unfold JunctionGood; decide

/-- Contributions: one stopped before it enters, and one of a NaN to a range of floating sums. -/
theorem test_meets_DividedAccesses_redst :
    (let s := { rangeS with units := some 0 }
     s.units = some 0 ∧ (s.hart.actives 0 32 s.hart.vstart.toNat s.hart.vl.toNat)[0]? = some 0 ∧ fits s .w ∧
       Maps s 0x10008 .rw 0x10008 false ∧ inRange s .w 0x10008 0 ∧ partialsFit s 1 ∧
       contributes (crngcOf s 0) 32 (elemN (s.hart.vreg 3) 32 0) 5) ∧
    (let s := { rangeS with
       crngc := rangeS.crngc.set 0 0x8000020000000001, hart := { rangeS.hart with v := rangeS.hart.v.set 3 0x7FC00000 } }
     s.units = none ∧ 0 ∈ s.hart.actives 0 32 s.hart.vstart.toNat s.hart.vl.toNat ∧ Maps s 0x10008 .rw 0x10008 false ∧
       inRange s .w 0x10008 0 ∧ contribution (crngcOf s 0) 32 (elemN (s.hart.vreg 3) 32 0) = none) := by
  refine ⟨⟨rfl, by decide, by unfold fits; decide, by unfold Maps; decide, by unfold inRange; decide, by unfold partialsFit; decide,
    by unfold contributes; decide⟩, rfl, by decide, by unfold Maps; decide, by unfold inRange; decide, by decide⟩

/-! ### The copy sequencer, and ways that are out of service -/

/-- Each code of Table 21.6, by a `cpgo` for which no lower one holds. -/
def codeS (run : BitVec 13) (cpcvt : BitVec 20) (res : BitVec 48) (src dst : Word) (nest : Vector NestLevel 12) : State :=
  { goS run 0 with hart := { (goS run 0).hart with cpcvt := cpcvt, cpres := res, nest := nest, x := regs [(1, src), (2, dst)], tvec := 0x40 } }

theorem test_cpgo_codes :
    let one : Vector NestLevel 12 := Vector.replicate 12 ⟨1, 0, 0⟩
    let code := fun (cv ef : Bool) (s : State) => (after (.cpgo false false .core cv ef 7 1 2) s).hart.eval
    code false false (codeS 4097 0x30000 0 0 0 one) = 1 ∧ code false true (codeS 64 0x30000 0 0 0 one) = 2 ∧
    code false true (codeS 64 0 0 0 0 one) = 3 ∧ code true false (codeS 64 0x0D000 0 0 0 one) = 4 ∧
    code true false (codeS 63 0x01000 0 0 0 one) = 5 ∧ code false false (codeS 64 0x40000 0 0 0 one) = 6 ∧
    code false false (codeS 60 0x20000 0 0 0 one) = 7 ∧ code true true (codeS 64 0x01000 2 0 0 one) = 8 ∧
    code false false (codeS 64 0 0 0 0 (Vector.replicate 12 ⟨65535, 0, 0⟩)) = 9 := by decide

theorem test_meets_MatrixMoves_boundary :
    let s := { matS with units := some 0 }
    s.units = some 0 ∧ (((List.range 32).filter fun i => (preg s 1).getLsbD i && !((List.range 32).filter fun j =>
      (preg s 1).getLsbD (32 + j)).isEmpty).filter fun i => decide (s.hart.vstart.toNat ≤ i))[0]? = some 0 := by decide

theorem test_meets_CopyCommands_record :
    let s := recS cutOff
    let s := { s with hart := { s.hart with engineFaults := [TrapInfo.plain 0x05 0] } }
    runningSlot s 0 = some 0 ∧ (hartAt s 0).engineFaults = TrapInfo.plain 0x05 0 :: [] ∧ engineFaultDue (hartAt s 0) = true ∧
    stopped s 0 = false ∧ recordLeg (switchTo s 0) = some (some (0, 7)) ∧ recordLeg (switchTo (recS id) 0) = none := by decide

/-- The links of router 23 are out of service, where a part of the page has its home. -/
def cutPage (s : State) : State :=
  { s with svc := { s.svc with lease := [(2088, .leased), (2089, .leased), (2190, .leased), (2191, .leased), (2206, .leased), (2207, .leased)] } }

theorem test_meets_MemoryEvents_ways :
    let leaf := fun (pte : Word) => (0x120008, pte, 3)
    let s := cutPage (tableS devLeaf)
    let h := cutPage (tableS hostLeaf)
    moveLeg (tableS devLeaf) (leaf devLeaf) = none ∧ moveLeg (tableS hostLeaf) (leaf hostLeaf) = none ∧
    (pageLeaf s 0 0x10000 = .ok (leaf devLeaf) ∧ moveLeg s (leaf devLeaf) = some (16, 23) ∧ pteBase devLeaf < hbmBytes ∧
      holdsTranslation s (fun l => tableOf s l == tableOf s 0) = false ∧ (∀ x ∈ s.cores, x.2.o1 = []) ∧
      ∀ x ∈ s.clusters, x.2.o2 = [] ∧ x.2.o2held = [] ∧ x.2.partials = []) ∧
    (pageLeaf h 0 0x10000 = .ok (leaf hostLeaf) ∧ moveLeg h (leaf hostLeaf) = some (16, 23) ∧ pteBase hostLeaf < hbmBytes) ∧
    moving (tableS devLeaf) (tableOf (tableS devLeaf) 0) 0x10000 3 = false ∧
    (∃ leg, portAccess (cutOff (tableS devLeaf)) 1 0 .write 0x10008 8 = .error (.wait leg)) ∧
    (∃ leg, portAccess (cutOff (tableS devLeaf)) 1 0 .read 0x10008 8 = .error (.wait leg)) ∧
    (∃ why, portAccess badT 1 0 .read 0x10008 8 = .error (.entry why)) := by
  refine ⟨by decide, by decide, by decide, by decide, by decide, ⟨_, rfl⟩, ⟨_, rfl⟩, ⟨_, rfl⟩⟩

theorem test_meets_Messages_ways :
    let open' := fun (s : State) => { s with ports := { s.ports with stage := 5 } }
    let q : PageRequest := ⟨0, 1, 7, 0x100000⟩
    (∃ leg, pageLeaf (cutOff (tableS devLeaf)) 0 0x10000 = .error (.noWay leg)) ∧ (∃ why, pageLeaf badT 0 0x10000 = .error (.fault why)) ∧
    (opened (open' badT) = true ∧ opened (open' (cutOff (tableS devLeaf))) = true) ∧
    (let h := cutPage (msgS hostLeaf)
     pageLeaf h 0 0x10000 = .ok (0x120008, hostLeaf, 3) ∧ pteHost hostLeaf = true ∧ pteBase hostLeaf < hbmBytes ∧
       moveLeg h (0x120008, hostLeaf, 3) = some (16, 23) ∧
       h.ports.pageRequests.find? (fun x => x.tag == ((0x0380000000000007 : Word).setWidth 32)) = some q ∧
       leafAt h (BitVec.ofNat 64 (q.page * 65536)) 3 1 q.table = .ok (0x120008, hostLeaf, 3)) ∧
    (∃ leg, leafAt (cutOff (msgS hostLeaf)) (BitVec.ofNat 64 (q.page * 65536)) 3 1 q.table = .error (.noWay leg)) ∧
    65536 < ({ msg 2 [1] with h1 := 65537 } : HostMsg).h1.toNat := by
  refine ⟨⟨_, rfl⟩, ⟨_, rfl⟩, by decide, by decide, ⟨_, rfl⟩, by decide⟩

/-! ### The dispatcher, streams and service -/

/-- A step with an `in` region in a page whose table entry fails its check. -/
theorem test_meets_DispatchEvents_entry :
    let l : LaunchRec := { launchD with table := 0x100000, desc := [0, 0x10000, 0, 0, 0, 0, 0, 0, 0x10000, 128, 0, 0, 0, 0, 0, 0] }
    let s := { badT with disp := { badT.disp with launches := [l], steps := [queued1] } }
    findStep s 1 = some queued1 ∧ findLaunch s 0 = some l ∧ residentPages s l queued1.tileix = false ∧
    (residencyFault s l queued1.tileix).isSome = true ∧
    (let s := dispS queued1 Slot.reset
     let l := { launchD with desc := [0, 0x10000, 0, 0, 0, 0, 0, 0, 0x20000, 128, 0, 0, 0, 0, 0, 0] }
     residentPages s l queued1.tileix = false ∧ residencyFault s l queued1.tileix = none) := by decide

theorem test_meets_EndingEvents_exhausted :
    ({ retry1 with used := 2 } : StepRec).retryable = true ∧ ({ retry1 with used := 2 } : StepRec).retries ≤ 2 := by decide

/-- A record whose header names a source past the graph's last, one for a graph that is disabled, and an endpoint bound to a
source of each of two graphs. -/
theorem test_meets_StreamEvents_foreign :
    (graphAt (streamS id) 0).nsrcm1 < (hdr 2 0).toNat % 65536 ∧ ¬ (graphAt (streamS id) 0).nsrcm1 < (hdr 1 65535).toNat % 65536 ∧
    (graphAt (streamS id) 0).waitingOf 0 = none ∧
    (let s := streamS fun g => { g with sgcfg := 0 }
     (0, 0) ∈ boundSources s 77 ∧ (graphAt s 0).en = false ∧ ∀ b ∈ boundSources s 77, (graphAt s b.1).en = false) ∧
    (let s := streamS id
     let s := { s with mer := { s.mer with binds := [(0, 77), (1024, 77)] } }
     boundSources s 77 = [(0, 0), (1, 0)] ∧ (1, 0) ∈ boundSources s 77 ∧ (graphAt s 1).en = false) := by decide

theorem test_meets_ServiceEvents_talks :
    let log : List (List Word × Vector Byte 96) := [(List.replicate 8 0, Vector.replicate 96 0)]
    ({ State.reset with ports := { State.reset.ports with talkative := true } } : State).ports.talkative = true ∧
    State.reset.ports.talkative = false ∧ logVerifies [0, 0, 0, 0] 0 State.reset.svc.log = true ∧ logVerifies [0, 0, 0, 0] 0 log = false ∧
    (∀ m ∈ coresOf (0 / 4), m ≠ 0 → busyLease (svcS .leased fun v => { v with quarantined := [1] }) 0 m = false) ∧
    (withStep { step1 with place := .retiring } id).disp.steps.map (·.place) = [.retiring] := by decide

/-! ## What the newer clauses assume -/

/-- An interrupt that is due at a word that the open frame allows, and one at a word that it skips; an engine fault there. -/
theorem test_meets_WaitHaltAndInterrupts_skips :
    let h := { Hart.reset with tvec := 0x40, tstat := { TStat.reset with tip := true } }
    let skip := { h with frames := [{ frame2 with start := 0, flags := 2 }] }
    (takenSources (base fun _ => h) 0 ≠ 0 ∧ engineFaultDue h = false ∧ h.frameAllows h.pc = true) ∧
    (takenSources (base fun _ => skip) 0 ≠ 0 ∧ engineFaultDue skip = false ∧ skip.frameAllows skip.pc = false) ∧
    (let e := { skip with engineFaults := [TrapInfo.plain 0x05 0] }
     engineFaultDue e = true ∧ e.frameAllows e.pc = false ∧ engineFaultDue { h with engineFaults := [TrapInfo.plain 0x05 0] } = true) := by
  decide

/-- A store beside an entry that another step holds, and one of no granule of its own: the line of a placeholder finds its way. -/
theorem test_meets_Stores_lines :
    let s := { ownS with cores := [(0, { coreAt ownS 0 with o1 := [(0x400, { ownE with held := some 9 })] })] }
    HasRoom memS 1 ∧ LineWay memS (curCluster memS) 0x400 ∧
    (∃ x, tget (coreAt s (curCore s)).o1 0x400 = some x ∧ x.held ≠ heldBy s) ∧ LineWay s (curCluster s) 0x400 :=
  ⟨by unfold HasRoom; decide, line_up memS rfl _ _, ⟨{ ownE with held := some 9 }, rfl, by decide⟩, line_up _ rfl _ _⟩

theorem test_meets_Atomics_ways : FormWay (withNr (phaseS 4)) 0x400 := by unfold FormWay HomeWay; decide

/-- Ways of a turn's granules: to the line of a copy, and from a home to an I3 copy. -/
theorem test_meets_Turns_ways :
    turnPasses ownS (xreg ownS 1) (xreg ownS 2).toNat ∧ LineWay ownS (curCluster ownS) 0x400 ∧ HasRoom ownS 1 ∧
    writeLeg homeS (some 0) 0x400 = none :=
  ⟨ownS_ready.1, line_up ownS rfl _ _, by unfold HasRoom; decide, by decide⟩

/-- `step1` as the only member of its gang. -/
def gang1 : StepRec := { step1 with recs := [(0, [0x0000800000000001, 0, 0, 0, 0, 0, 0, 0x100000000])] }

/-- The gang of two of which one has not started, and its barrier; a step that yields to one that waits. -/
theorem test_meets_BarriersDoneAndYield_starts :
    let two : BindRec := [0x0000800000000001, 0, 0, 0, 0, 0, 0, 0x300000000]
    let s := withStep gang1 fun h => { h with phase := 1 }
    let u := advanceRcnt (withNr s) 0
    (findStep u 1 = some gang1 ∧ stepMembers gang1 ≤ (slotsOfStep u gang1.handle).length) ∧
    1 < stepMembers { gang1 with recs := [(0, two)] } ∧
    (let r := { gang1 with handle := 2, place := .bound, recs := [(0, [0x0000800000000002, 0, 0, 0, 0, 0, 0, 0x100000000])] }
     let t := withStep gang1 id
     let t := { t with slots := t.slots ++ [(1, { Slot.reset with st := .staged, rcd := [0x0000800000000002, 0, 0, 0, 0, 0, 0, 0] })]
                       disp := { t.disp with steps := [gang1, r], launches := [{ launch1 with id := 0 }] } }
     findStep t t.hart.steph.toNat = some gang1 ∧ gang1.place = .running ∧ gang1.retryable = false ∧ slotsOfStep t gang1.handle = [t.cur] ∧
       stepMembers gang1 ≤ 1 ∧ waitingStep t t.cur gang1 = true ∧ memberCores gang1 = [curCore t]) := by decide

theorem test_meets_CopyCommands_lines (c : CopyCmd) (g : Nat) : LineWay (copyS c) 0 g := line_up (copyS c) rfl _ _

/-! ### Pages, port engines and notices -/

/-- The pair between the routers of rows 2 and 3 in column 3 is out of service: every route goes around it, but a multicast flit does
not. -/
def cutColumn (s : State) : State := { s with svc := { s.svc with lease := [(2198, .leased), (2199, .leased)] } }

theorem test_meets_MemoryEvents_notices :
    let leaf := fun (pte : Word) => (0x120008, pte, 3)
    let d := tableS devLeaf
    let h := tableS hostLeaf
    (NoticeComes d prodMigration 0x400 0x7FF ∧ NoticeComes h prodMigration 0x400 0x7FF) ∧
    (moveLeg (cutColumn h) (leaf hostLeaf) = none ∧ ¬ NoticeComes (cutColumn h) prodMigration 0x400 0x7FF) ∧
    (moveLeg (cutColumn d) (leaf devLeaf) = none ∧ ¬ NoticeComes (cutColumn d) prodMigration 0x400 0x7FF ∧
      pageLeaf (cutColumn d) 0 0x10000 = .ok (leaf devLeaf)) ∧
    (NoticeComes d (prodPort 1) 0x400 0x400 ∧ ¬ NoticeComes (cutColumn d) (prodPort 1) 0x400 0x400 ∧
      portAccess (cutColumn d) 1 0 .write 0x10008 8 = .ok [(0, 0x10008, 8)] ∧
      writeLeg (cutColumn d) (some (portRouter 1)) 0x400 = none) := by
  unfold NoticeComes; decide +kernel

theorem test_meets_MemoryEvents_replicas :
    (let s := { ownS with mesh := [⟨.count 1 1 4 5, 16, 16, 0, some 0⟩] }
     s.mesh = [⟨.count 1 1 4 5, 16, 16, 0, some 0⟩] ∧ portRouter 0 = 16) ∧
    (let s := tableS devLeaf
     legFrom s (some (portRouter 1)) (0x10008 / 64) = none ∧ visible s (some (portReplica 1)) (junctionGranule s 0x400).1 4 = true) ∧
    (let e := { ownE with self := true }
     let s := { ownS with cores := [(0, { coreAt ownS 0 with o1 := [(0x400, e)] })] }
     tget (coreAt s 0).o1 0x400 = some e ∧ e.held = none ∧ olderWaits s 0 e = false ∧ ClusterRoom s (clusterOfCore 0) 1 ∧
       LineWay s (clusterOfCore 0) 0x400) := by
  refine ⟨by decide, by decide, by decide, by decide, by decide, by unfold ClusterRoom; decide, line_up _ rfl _ _⟩

/-- A count of level 4 that comes late: a port engine that it has not reached sees the level as before. -/
theorem test_count_reaches_port :
    let s := { ownS with counts := tput ownS.counts 1 { countsAt ownS 1 with p4 := 5 }
                         ports := { ownS.ports with stale := [(1, 4)] }, mesh := [⟨.count 1 1 4 5, 16, 16, 0, some 0⟩] }
    pcnt s (some (portReplica 0)) 1 4 = 4 ∧ pcnt (after (.multicastReserveForward ⟨16, 0⟩) s) (some (portReplica 0)) 1 4 = 5 := by decide
/-! ### Steps that are bound, staged and started -/

/-- Records of a gang of two outside a team, and of a team of two gangs of one, on cores 0 and 4. -/
def pairRec : BindRec := [0x0000840000000001, 0x100, 0, 0, 0, 0, 2, 0x300000000]
def teamRec : BindRec := [0x0000840000000001, 0x100, 0, 0, 0, 0, 2, 0x0001040100000000]

/-- A gang of two of which core 0's hart runs; a team whose records are all there, and one of which core 4's is missing. -/
def pair1 : StepRec := { step1 with recs := [(0, pairRec)] }
def team1 : StepRec := { step1 with place := .bound, recs := [(0, teamRec), (4, teamRec)] }
def part1 : StepRec := { team1 with recs := [(0, teamRec)] }

/-- `dispS` with a launch whose gangs have two members. -/
def pairS (r : StepRec) (k : Slot) : State :=
  let s := dispS r k
  { s with disp := { s.disp with launches := [{ launchD with blk := [0, 0, 3, 0, 0x201, 0, 0, 0] }] } }

/-- A further member of a running gang is bound. -/
theorem test_meets_DispatchEvents_later :
    let s := pairS pair1 { Slot.reset with st := .running, rcd := pairRec }
    let l := { launchD with blk := [0, 0, 3, 0, 0x201, 0, 0, 0] }
    (wordAt pairRec 0).getLsbD 47 = true ∧ rcdHandle pairRec = 1 ∧ findStep s 1 = some pair1 ∧ findLaunch s 0 = some l ∧
    (coreAt s 1).bindq.length < 16 ∧ coreBinds s 1 = true ∧ startsLater pair1 = true ∧ pair1.place = .running ∧
    tget pair1.recs 1 = none ∧ rcdBad s 1 pair1 (blkGsize l.blk) pairRec = false := by decide

/-- Records that can be staged: of a step on one core, of a saved one, and of both members of a team; and those of a team of which
one is missing. -/
theorem test_meets_DispatchEvents_stages :
    let free := fun (s : State) (c : Nat) => coreTakes s c = true ∧
      ((slotAt s (2 * c)).st = .empty ∨ (slotAt s (2 * c + 1)).st = .empty) ∧
      (∀ j ∈ [2 * c, 2 * c + 1], (slotAt s j).st = .empty ∨ (slotAt s j).st = .running) ∧
      ((headOf s c).map (·.handle)) = some 1
    let q := fun (s : State) (c : Nat) => setCore s c { CoreSt.reset with bindq := [1] }
    let one := q (dispS bound1 Slot.reset) 0
    let two := q (q (dispS team1 Slot.reset) 0) 4
    let part := q (dispS part1 Slot.reset) 0
    let kept : SavedHart := ⟨Hart.reset, false, 0, 2, [], []⟩
    (headOf one 0 = some bound1 ∧ ofTeam bound1 = false ∧ stagesWith bound1 0 = [(0, rec0)] ∧ free one 0) ∧
    savedFor { bound1 with saved := [some kept] } 0 = some kept ∧
    (headOf two 0 = some team1 ∧ ofTeam team1 = true ∧ stepComplete team1 = true ∧ stagesWith team1 0 = [(0, teamRec), (4, teamRec)] ∧
      free two 0 ∧ free two 4 ∧ ((stagesWith team1 0).map (·.1)).Nodup ∧ findLaunch two team1.launch = some launchD) ∧
    (headOf part 0 = some part1 ∧ ofTeam part1 = true ∧ stepComplete part1 = false) := by decide

/-- A STAGED slot of core 0 with a record, in `spawnS` with launch 0's table. -/
def startS (r : StepRec) (x : BindRec) : State :=
  let s := spawnS oneBlock ((0x10080 : GData) <<< 64 ||| 0x43)
  { s with
    slots := [(0, ⟨.staged, x, [], [], none⟩)]
    disp := { s.disp with steps := [r], launches := [{ launchD with table := 0x100000 }] } }

/-- Starts with a parameter block, with one in a page that nothing maps, of a gang's first member, and of one that was saved. -/
theorem test_meets_DispatchEvents_starts :
    let may := fun (s : State) (r : StepRec) => startsWith s r 0 = [0] ∧ ofTeam r = false ∧ r.stopping = none ∧
      (slotAt s (otherSlot 0)).st = .empty ∧ coreTakes s (coreOfSlot 0) = true ∧ tilesFree s (resumed r [0]) = true ∧
      changesI1 s (coreOfSlot 0) (rcdBankrole (slotAt s 0).rcd) = false ∧ findStep s (slotHandle (slotAt s 0)) = some r ∧
      findLaunch s r.launch = some { launchD with table := 0x100000 }
    let x := rec0.set 2 0x10080
    let far := rec0.set 2 0x20000
    let r := { bound1 with recs := [(0, x)] }
    let g := { step1 with place := .bound, recs := [(0, pairRec)] }
    let kept : SavedHart := ⟨Hart.reset, false, 0, 2, [], []⟩
    let v := { bound1 with saved := [some kept] }
    (may (startS r x) r ∧ savedFor r 0 = none ∧ rcdParam x = 0x10080 ∧ stepMembers r ≤ 1) ∧
    (may (startS { r with recs := [(0, far)] } far) { r with recs := [(0, far)] } ∧ rcdParam far ≠ 0 ∧
      xlateTable (startS { r with recs := [(0, far)] } far) .dispatcher 0x100000 (rcdParam far) .read = .page 0x04 0 3) ∧
    (may (startS g pairRec) g ∧ 1 < stepMembers g) ∧
    (may (startS v rec0) v ∧ savedFor v 0 = some kept) := by decide

theorem test_meets_DispatchEvents_block :
    dispReads (startS { bound1 with recs := [(0, rec0.set 2 0x10080)] } (rec0.set 2 0x10080)) 0x100000 0x10080 [0x43, 0x10080] := by
  intro k hk
  have hk : k < 2 := hk
  refine ⟨0x10080 + 8 * k, false, ?_⟩
  interval_cases k <;> decide

/-- Both members of a team STAGED on cores 0 and 4; and one of them not yet. -/
theorem test_meets_DispatchEvents_teams :
    let s := fun (l : Tbl Slot) => { dispS team1 staged0 with slots := l }
    let two := s [(0, { staged0 with rcd := teamRec }), (8, { staged0 with rcd := teamRec })]
    let one := s [(0, { staged0 with rcd := teamRec })]
    (startsWith two team1 0 = [0, 8] ∧ (startsWith two team1 0).length = team1.recs.length ∧ (startsWith two team1 0).Nodup ∧
      (∀ k ∈ startsWith two team1 0, (slotAt two (otherSlot k)).st = .empty ∧ coreTakes two (coreOfSlot k) = true ∧
        changesI1 two (coreOfSlot k) (rcdBankrole (slotAt two k).rcd) = false ∧ savedFor team1 (coreOfSlot k) = none ∧
        rcdParam (slotAt two k).rcd = 0) ∧ tilesFree two (resumed team1 [0, 8]) = true) ∧
    ((slotAt one 0).st = .staged ∧ findStep one (slotHandle (slotAt one 0)) = some team1 ∧
      (startsWith one team1 0).length ≠ team1.recs.length) := by decide

/-- The members of a team run together; the first of a gang runs alone. -/
theorem test_hartStart_members :
    let s := { dispS team1 staged0 with slots := [(0, { staged0 with rcd := teamRec }), (8, { staged0 with rcd := teamRec })] }
    let t := after (.hartStart 0) s
    let u := after (.hartStart 0) (startS { step1 with place := .bound, recs := [(0, pairRec)] } pairRec)
    (runningSlots t = [0, 8] ∧ (t.disp.steps.map fun r => r.place) = [.running]) ∧
    runningSlots u = [0] ∧ (u.disp.steps.map fun r => (r.place, allStarted u r)) = [(.running, false)] := by decide
theorem test_hartStart_block :
    let t := after (.hartStart 0) (startS { bound1 with recs := [(0, rec0.set 2 0x10080)] } (rec0.set 2 0x10080))
    (hartAt t 0).xreg 10 = 0x10080 ∧ (hartAt t 0).tvec = 0x40 ∧ (hartAt t 0).frecbase = 0x10080 ∧ (slotAt t 0).st = .running := by decide
/-! ### Retirement -/

theorem readPte_same (v s : State) (va : Word) (pa : Nat) (e : Word) (hw : windowOf (pa / 64) = 0)
    (hj : (junctionGranule v (pa / 64)).1 = (junctionGranule s (pa / 64)).1) (hc : v.counts = s.counts)
    (h : readPte s .dispatcher va pa = .entry e) : readPte v .dispatcher va pa = .entry e := by
  have hv : ∀ g k, visible v none g k = visible s none g k := by
    intro g k; unfold visible pcnt countsAt; rw [hc]
  revert h
  unfold readPte legFrom consume peekHome
  simp only [Walker.dispatcher, hw, if_true, peekJ, homeCopy, hj, hv]
  split <;> rename_i h1 <;> split at h1 <;> (try (cases h1)) <;> (try simp_all)
  all_goals split at h1 <;> simp_all

/-- An entry that no step holds, with bad metadata. -/
def spoiltE : OutEntry := { ownE with g := ⟨0, BitVec.allOnes _⟩ }

/-- In every state that keeps the junctions' data outside the page of the region the walk of its pages finds the same leaf. -/
theorem retireS_walk (e : OutEntry) (he : e = ownE ∨ e = spoiltE) (v : State) (va : Word) (hva : va = 0x10000 ∨ va = 0x10040)
    (hj : ∀ g, g = 0x4000 ∨ g = 0x4400 ∨ g = 0x4800 →
      (junctionGranule v g).1 = (junctionGranule (retireS 0 true e) g).1) (hc : v.counts = (retireS 0 true e).counts) :
    walk v .dispatcher va 3 1 0x100000 = .leaf devLeaf 3 := by
  have r : ∀ pa w, (pa = 0x100000 ∧ w = (0x8000000000110000 : Word)) ∨ (pa = 0x110000 ∧ w = 0x8000000000120000) ∨
      (pa = 0x120008 ∧ w = devLeaf) → readPte v .dispatcher va pa = .entry w := by
    intro pa w h
    refine readPte_same v (retireS 0 true e) va pa w ?_ (hj _ ?_) hc ?_
    · rcases h with ⟨rfl, -⟩ | ⟨rfl, -⟩ | ⟨rfl, -⟩ <;> decide
    · rcases h with ⟨rfl, -⟩ | ⟨rfl, -⟩ | ⟨rfl, -⟩ <;> decide
    · rcases he with rfl | rfl <;> rcases hva with rfl | rfl <;> rcases h with ⟨rfl, rfl⟩ | ⟨rfl, rfl⟩ | ⟨rfl, rfl⟩ <;> decide
  have i : vaIndex va 1 = 0 ∧ vaIndex va 2 = 0 ∧ vaIndex va 3 = 1 := by rcases hva with rfl | rfl <;> decide
  have u : ∀ pa, pa < hbmBytes → unbound v pa = false := by
    intro pa h; unfold unbound; simp only [ge_iff_le, Nat.not_le.mpr h, decide_false, Bool.false_and]
  have d1 : pteV 0x8000000000110000 = true ∧ pteBad 0x8000000000110000 1 = false ∧ pteLeaf 0x8000000000110000 = false ∧
      pteBase 0x8000000000110000 = 0x110000 := by decide
  have d2 : pteV 0x8000000000120000 = true ∧ pteBad 0x8000000000120000 2 = false ∧ pteLeaf 0x8000000000120000 = false ∧
      pteBase 0x8000000000120000 = 0x120000 := by decide
  have d3 : pteV devLeaf = true ∧ pteBad devLeaf 3 = false ∧ pteLeaf devLeaf = true := by decide
  simp only [walk, i, Nat.mul_zero, Nat.add_zero, Nat.mul_one, Nat.reduceAdd]
  rw [u _ (by decide), r 0x100000 _ (.inl ⟨rfl, rfl⟩)]
  simp only [d1, Bool.not_true, Bool.false_eq_true, if_false]
  rw [u _ (by decide), r 0x110000 _ (.inr (.inl ⟨rfl, rfl⟩))]
  simp only [d2, Bool.not_true, Bool.false_eq_true, if_false, Nat.reduceAdd]
  rw [u _ (by decide), r 0x120008 _ (.inr (.inr ⟨rfl, rfl⟩))]
  simp only [d3, Bool.not_true, Bool.false_eq_true, if_false, if_true]

/-- A region whose granules are sound, and one of which a granule is not: with no record asked for, and with one that can be
written. -/
theorem test_meets_Retirement_turns :
    let s := retireS 0 true ownE
    let bad := fun (base : Word) => let s := retireS 0 true spoiltE; { s with hart := { s.hart with frecbase := base } }
    let up := fun (f : Word) => switchTo (bad f) 0
    (retiring s step1 (retireL true) [0] ∧ s.Inv ∧ s.mesh = [] ∧ rcdPub (slotAt s 0).rcd = 3) ∧
    (turnFind s 0 0x400 = some (.o1 0, ownE.g) ∧ ownE.g.metaKind = none ∧ ownOf 0 3 ownE.g.prod = true ∧
      turnFind s 0 0x401 = some (.home, (junctionGranule s 0x401).1) ∧ (junctionGranule s 0x401).1.metaKind = none) ∧
    (turnFind (bad 0) 0 0x400 = some (.o1 0, spoiltE.g) ∧ spoiltE.g.metaKind ≠ none ∧ (up 0).hart.frecbase = 0) ∧
    (let q := 0x10080
     Maps (up 0x10080) 0x10080 .write q false ∧ windowOf (q / 64) = 0 ∧ rangeMeeting (up 0x10080) (64 * (q / 64)) 64 = none ∧
       q / 64 ≠ 0x401) := by
  refine ⟨⟨by unfold retiring; decide, by unfold State.Inv; decide, rfl, by decide⟩, by decide, by decide, ?_⟩
  refine ⟨by unfold Maps; decide, by decide, by decide, by decide⟩

/-- The same with a translation of the record's page in the core's own TLB. -/
theorem test_meets_Retirement_record :
    let s := retireS 0 true spoiltE
    let s := { s with hart := { s.hart with frecbase := 0x10080 }
                      cores := [(0, { coreAt s 0 with tlb := [⟨0, 1, false, devLeaf⟩] })] }
    Maps (switchTo s 0) 0x10080 .write 0x10080 false ∧
    (tlbFind (coreAt s (coreOfSlot 0)).tlb (curLaunch (switchTo s 0)) 0x10080).isSome = true ∧ retiring s step1 (retireL true) [0] := by
  refine ⟨by unfold Maps; decide, by decide, by unfold retiring; decide⟩

/-- Held granules: sound at each level of PUB; one that is bad, with no record, with one that can be written, with one whose way
there is out of service, and with one that cannot be used; with a retry left and with none. -/
theorem test_meets_Retirement_held :
    let r := fun (n used : Nat) => { step1 with retries := n, used := used }
    let s := fun (pub : Word) (e : OutEntry) (base : Word) (used : Nat) =>
      let s := retireS 1 false e
      { s with
        hart := { s.hart with frecbase := base }
        slots := [(0, { Slot.reset with st := .running, rcd := [0x0000800000000001 ||| pub <<< 42, 0, 0, 0, 0, 0, 0, 0] })]
        disp := { s.disp with steps := [r 1 used] } }
    let good := s 1 heldE 0 0
    (retiring good (r 1 0) (retireL false) [0] ∧ good.mesh = [] ∧ good.Inv ∧ rcdPub (slotAt good 0).rcd = 1 ∧ heldE.want ≤ 3 ∧
      good.ports.buffer.length + 1 ≤ bufferRoom ∧ ownOf 0 1 heldE.g.prod = true ∧ badHeld good 1 = none) ∧
    ∃ kind, (badHeld (s 3 badE 0 0) 1 = some (0x400, badE, kind) ∧ recordLegAt (s 3 badE 0 0) 0 = none) ∧
      (badHeld (s 3 badE 0x10080 0) 1 = some (0x400, badE, kind) ∧ recordLegAt (s 3 badE 0x10080 0) 0 = none ∧
        Maps (switchTo (s 3 badE 0x10080 0) 0) 0x10080 .write 0x10080 false) ∧
      (badHeld (s 3 badE 0x20000 0) 1 = some (0x400, badE, kind) ∧ recordLegAt (s 3 badE 0x20000 0) 0 = none ∧
        xlate (switchTo (s 3 badE 0x20000 0) 0) (hereTlb (s 3 badE 0x20000 0)) 0 0x20000 .write = .page 0x04 0 3) ∧
      (∃ leg, recordLegAt (cutOff (s 3 badE 0x10080 0)) 0 = some leg) ∧
      ((r 1 0).used < (r 1 0).retries ∧ (r 1 1).retries ≤ (r 1 1).used ∧ badHeld (s 3 badE 0 1) 1 = some (0x400, badE, kind)) := by
  refine ⟨⟨by unfold retiring; decide, rfl, by unfold State.Inv; decide, by decide, by decide, by decide, by decide, by decide⟩,
    _, ⟨rfl, by decide⟩, ⟨by decide, by decide, ?_⟩, by decide, ⟨_, rfl⟩, by decide⟩
  unfold Maps; decide

/-- A bad granule ends a retryable step's run with a record and its report; one of an `out` region fails the step. -/
theorem test_stepRetire_bad :
    let s := fun (n : Nat) (e : OutEntry) => let s := retireS n true e; { s with hart := { s.hart with frecbase := 0x10080 } }
    let t := after (.stepRetire 1) (s 1 badE)
    let u := after (.stepRetire 1) (s 0 spoiltE)
    (t.disp.steps.map fun r => (r.place, r.used)) = [(.queued, 1)] ∧ (homeByte t 0x10080).toNat % 64 = 0x08 ∧ t.disp.reports.length = 1 ∧
    (u.disp.steps.map fun r => (r.place, r.outcome)) = [(.retiring, some (1, 0x08, 0x10080))] ∧
    (homeByte u 0x10080).toNat % 64 = 0x08 := by decide +kernel
/-! ### How steps end, streams, messages and energy -/

theorem test_meets_EndingEvents_later :
    let w : PendingRecord := ⟨1, List.replicate 8 0, true⟩
    let cut := fun (s : State) => { s with i3 := [(0x400, homeCopy ownE.g 0)] }
    let ring := fun (s : State) => { s with disp := { s.disp with records := [w], cqsize := 4, cqhead := 3, cqbase := 0x10000 } }
    let s := ring (endS { gang1 with place := .retiring, outcome := some (0, 0, 0), energy := 5 } id)
    (ringRoom s.disp = true ∧ refreshLeg s 0x400 = none ∧ w.final = true ∧
      findStep s w.handle = some { gang1 with place := .retiring, outcome := some (0, 0, 0), energy := 5 }) ∧
    (refreshLeg { cut s with svc := { s.svc with lease := [(2060, .leased), (2061, .leased), (2174, .leased), (2175, .leased)] } } 0x400).isSome = true ∧
    (hartAt (endS retry1 fun h => { h with began := true }) 0).began = true ∧ (hartAt (endS retry1 id) 0).began = false ∧
    (let p := endS gang1 id
     findStep p 1 = some gang1 ∧ slotsOfStep p 1 = [0] ∧ gang1.retryable = false ∧ gang1.stopping = none ∧ stepCopies p 1 = false ∧
       memberCores gang1 = [coreOfSlot 0] ∧ p.mesh = [] ∧ (clusterAt p 0).partials = [] ∧ (coreAt p 0).o1 ++ (clusterAt p 0).o2 = []) := by
  refine ⟨by decide, by decide, by decide, by decide, by decide⟩

/-- A record holds the energy charged to its step when it was written, in word 2. -/
theorem test_record_energy :
    let r := { gang1 with place := .retiring, outcome := some (0, 0, 0), energy := 5 }
    (writtenWords (endS r id) ⟨1, List.replicate 8 0, true⟩ 0)[2]? = some 5 := by decide

/-- The slots of a graph that can be freed, and those whose notices a cluster cannot acknowledge. -/
theorem test_meets_StreamEvents_notices :
    let s := streamS fun g => { g with next := 2 }
    let g := graphAt s 0
    (g.en = true ∧ g.rcl < g.newRcl ∧ (noticeSlots s g g.newRcl).isSome = true ∧ (noticeSlots s g g.next).isSome = true ∧ g.rcl < g.next) ∧
    noticeSlots (cutColumn s) g g.newRcl = none ∧ noticeSlots (cutColumn s) g g.next = none := by decide +kernel

/-- A graph that is disabled reclaims its slots: RCL rises to NEXT. -/
theorem test_disable_reclaims : let g := graphAt (after (.graphDisable 0 0) (streamS fun g => { g with next := 2 })) 0
    (g.en, g.rcl, g.wins.length) = (false, 2, 0) := by decide +kernel

/-- A PAGE message for a launch that is not live; moves in whose notice every cluster acknowledges, and does not. -/
theorem test_meets_Messages_notices :
    let h := msgS hostLeaf
    let c := cutColumn h
    let leaf := (0x120008, hostLeaf, 3)
    pageBytes leaf.2.2 = 65536 ∧ findLaunch h 1 = none ∧ (findLaunch h 0).isSome = true ∧
    (moveLeg h leaf = none ∧ NoticeComes h prodMigration 0x400 0x7FF) ∧
    (moveLeg c leaf = none ∧ ¬ NoticeComes c prodMigration 0x400 0x7FF) := by
  unfold NoticeComes; decide +kernel

/-- What the charge of an interval goes to: the one slot of a cluster that runs. -/
theorem test_meets_ServiceEvents_energy :
    let s := endS step1 id
    ((runningSlots s).filter fun j => clusterOfSlot j == 0) = [] ++ 0 :: [] ∧ slotHandle (slotAt s 0) = 1 ∧ findStep s 1 = some step1 ∧
    ((runningSlots s).filter fun j => clusterOfSlot j == 5) = [] := by decide

/-- A product uses an array slot of its core. -/
theorem test_product_counts : (coreAt (after (.mrank 0 1 2 1 2 .i8 false) { matS with hart := { matS.hart with tiles := [⟨0xFFFFFFFF, 0⟩] } }) 0).products = 1 := by
  decide

/-- A hart that has stopped for a switch-out, with commands of its step outstanding. -/
theorem test_meets_StepRunsDecoded_stopped :
    let r := { step1 with stopping := some .preempt }
    let s := { endS r id with agenda := [.run 0 none] }
    let s := { s with clusters := [(0, { clusterAt s 0 with copyq := [cmd0], copyn := 1 })] }
    let s1 := { switchTo { s with agenda := [] } 0 with units := none }
    s.agenda = .run 0 none :: [] ∧ runningSlot { s with agenda := [] } 0 = some 0 ∧ stopped s1 s1.cur = true ∧
    findStep s1 s1.hart.steph.toNat = some r ∧ r.stopping = some .preempt ∧ stepCopies s1 1 = true := by decide
end Sys2Proof.Tests
end

