-- ==== Sys2Proof/Proofs/MemoryForm.lean ====
section
/-! SUPPORT. Every step keeps the canonical form of HBM's bytes. The bytes change by `setHbm` alone, which keeps the form
(`setHbm_inv`), and power-on empties them. What follows says of each function that changes the state, in the model's order, that
it keeps the form: `f_inv` of a function of the state, `f_safe` of a computation. A function that only rewrites other fields needs
no lemma where the two states' forms are the same by unfolding. Where a function names the states on its way by `let`, the proof
names them too (`extract_lets`) and says of each that it has the form; `clear_value` then hides what a state is, so that what
follows is not unfolded into it. -/

namespace Sys2Proof.Machine

/-! ## What is kept -/

/-- A computation keeps the canonical form, whether it completes or stops. -/
def Safe {α : Type} (m : M α) : Prop := ∀ ⦃s : State⦄, s.Inv → (m s).2.Inv

/-- Where a step answers a next state, that state has the canonical form. -/
def AnswersInv (r : Result) : Prop := match r with
  | .next t => t.Inv
  | .fault _ => True
  | .refused _ => True

/-- Both states that a test may answer have the canonical form. -/
def EitherInv (r : Except State State) : Prop := match r with
  | .ok t => t.Inv
  | .error t => t.Inv

/-! ## States -/

theorem State.Inv.congr {s t : State} (h : s.Inv) (e : t.mem = s.mem) : t.Inv := by
  unfold State.Inv
  rw [e]
  exact h

theorem inv_of_mem {s t : State} (e : t.mem = s.mem) (h : s.Inv) : t.Inv := h.congr e

theorem SameMem.inv {s t : State} (h : SameMem s t) (hs : s.Inv) : t.Inv := h.keeps.inv hs

theorem Inbound.inv {s t : State} (h : Inbound s t) (hs : s.Inv) : t.Inv := h.keeps.inv hs

/-- The state that a pair is known to hold. -/
theorem snd_inv {α : Type} {p : α × State} {a : α} {t : State} (h : p.2.Inv) (e : p = (a, t)) : t.Inv := by
  rw [e] at h
  exact h

theorem fst_inv {α : Type} {p : State × α} {t : State} {a : α} (h : p.1.Inv) (e : p = (t, a)) : t.Inv := by
  rw [e] at h
  exact h

section
variable {c : Prop} [Decidable c]

theorem ite_inv {s t : State} (hs : s.Inv) (ht : t.Inv) : (if c then s else t).Inv := by
  split
  · exact hs
  · exact ht

theorem snd_ite_inv {α : Type} {p q : α × State} (hp : p.2.Inv) (hq : q.2.Inv) : (if c then p else q).2.Inv := by
  split
  · exact hp
  · exact hq

theorem fst_ite_inv {α : Type} {p q : State × α} (hp : p.1.Inv) (hq : q.1.Inv) : (if c then p else q).1.Inv := by
  split
  · exact hp
  · exact hq

theorem answers_ite {p q : Result} (hp : AnswersInv p) (hq : AnswersInv q) : AnswersInv (if c then p else q) := by
  split
  · exact hp
  · exact hq

theorem Safe.ite {α : Type} {m n : M α} (hm : Safe m) (hn : Safe n) : Safe (if c then m else n) := by
  split
  · exact hm
  · exact hn
end

theorem foldl_inv {β : Type} {f : State → β → State} (hf : ∀ s, s.Inv → ∀ b, (f s b).Inv) {l : List β} {s : State} (h : s.Inv) :
    (l.foldl f s).Inv := foldl_frame (P := State.Inv) f (fun s b h => hf s h b) l s h

theorem forUp_inv {f : Nat → State → State} (hf : ∀ i s, s.Inv → (f i s).Inv) {n lo : Nat} {s : State} (h : s.Inv) :
    (forUp n lo f s).Inv := forUp_frame (P := State.Inv) f hf n lo s h

/-! ## Computations -/

theorem Safe.bind {α β : Type} {m : M α} {f : α → M β} (hm : Safe m) (hf : ∀ a, Safe (f a)) : Safe (m >>= f) := by
  intro s h
  rw [bind_run]
  split
  next a u e => exact hf a (snd_inv (hm h) e)
  next e => exact snd_inv (hm h) e

theorem waitingM_safe {α : Type} {m : M α} (hm : Safe m) : Safe (waitingM m) := by
  intro s h
  rcases (waitingM_spec m s).2 with e | e <;> rw [e] <;> exact hm h

theorem wayM_safe {α : Type} {n g src : Nat} {direct : Bool} {m : M α} (hm : Safe m) : Safe (wayM n g src direct m) := by
  intro s h
  rcases wayM_spec n g src direct m s with ⟨_, e⟩ | ⟨l, _, e⟩ <;> rw [e]
  · exact hm h
  · exact (reportRoute_sameMem ..).inv h

theorem forM'_safe {f : Nat → M Unit} (hf : ∀ i, Safe (f i)) : ∀ {n lo : Nat}, Safe (forM' n lo f)
  | 0, _ => fun _ h => h
  | n + 1, lo => by
    intro s h
    unfold forM'
    split
    next e => exact forM'_safe hf (snd_inv (hf lo h) e)
    next e => exact snd_inv (hf lo h) e

theorem eachM_safe {α : Type} {f : α → M Unit} (hf : ∀ x, Safe (f x)) : ∀ {l : List α}, Safe (eachM l f)
  | [] => fun _ h => h
  | x :: l => by
    intro s h
    unfold eachM
    split
    next e => exact eachM_safe hf (snd_inv (hf x h) e)
    next e => exact snd_inv (hf x h) e

section
variable {s : State} {va v h0 h1 frec : Word} {a d b : XIdx}
variable {n gran core handle gi k i level l table low launch unit pa prod pub cls len launchId slot bytes src off cause key : ℕ}
variable {pg prc : PIdx} {ew : EW} {r : StepRec} {z self team produce : Bool} {p : Probe} {t : TrapInfo} {c : CopyCmd}
variable {o : VMemOp} {h : Hart} {m : HostMsg} {image : List (ℕ × GData)} {sc : Scope} {acc port : BitVec 3}
variable {payload : List Byte} {g : BitVec 6} {α : Type} {fmt dst : Fmt} {cores ks : List ℕ} {q : BitVec 2}
variable {ep : BitVec 128} {op : AmoOp} {fs : List PageFault} {vas : List Word} {patid : BitVec 32}

/-! ## State access (`Machine/Access`) -/

theorem switchTo_inv (h : s.Inv) : (switchTo s slot).Inv := by
  unfold switchTo
  split <;> exact h

theorem setCluster_inv {x : ClusterSt} (h : s.Inv) : (setCluster s n x).Inv := h

theorem setGraph_inv {g : ℕ} {x : Graph} (h : s.Inv) : (setGraph s g x).Inv := h

theorem nextTick_inv (h : s.Inv) : (nextTick s).Inv := h

theorem guardM_safe {ok : Bool} {st : Stop} : Safe (guardM ok st) := by
  unfold guardM
  intro s h
  split <;> exact h

theorem holdM_safe : Safe (holdM : M α) := fun _ h => h

/-! ## Flags (`Machine/Flags`) -/

theorem setOvf_inv {r : ℕ} {sat : Bool} (h : s.Inv) : (setOvf s r sat).Inv := by
  unfold setOvf
  split <;> exact h

/-! ## Leases, scores and steps (`Machine/Leases`) -/

theorem setStep_inv (h : s.Inv) : (setStep s r).Inv := h

theorem timeReaches_inv {t : Word} (h : s.Inv) : (timeReaches s t).Inv := by
  unfold timeReaches
  split <;> exact h

theorem setLease_inv {l : Lease} (h : s.Inv) : (setLease s cls unit l).Inv := (setLeaseAt_sameMem ..).inv h

theorem unbindStep_inv (h : s.Inv) : (unbindStep s handle).Inv := (unbindStep_sameMem ..).inv h

theorem setScore_inv {ix new : ℕ} (h : s.Inv) : (setScore s ix new).Inv := (applyThresholds_sameMem ..).inv h

/-! ## The hierarchy (`Machine/Hier`) -/

theorem reportFault_inv {core : Option ℕ} (h : s.Inv) : (reportFault s core pa t).Inv := by
  unfold reportFault
  split
  · exact (scoreCheck_sameMem ..).inv h
  · exact h

theorem reportHome_inv (h : s.Inv) : (reportHome s n gran).Inv := (reportLeg_sameMem ..).inv h

theorem reportForm_inv (h : s.Inv) : (reportForm s n gran).Inv := (reportLeg_sameMem ..).inv h

theorem applyFlit_inv {f : Flit} (h : s.Inv) : (applyFlit s n f).Inv := by
  unfold applyFlit
  split
  · exact (invCluster_inbound ..).inv h
  · exact ite_inv h h
  · exact h

theorem applySil_inv {sil : Sil} {i2 : Bool} (h : s.Inv) : (applySil s core sil i2).Inv := ite_inv h h

theorem setNr_inv (h : s.Inv) : (setNr s handle).Inv := by
  unfold setNr
  split
  · exact ite_inv h h
  · exact h

theorem forget_inv (h : s.Inv) : (forget s n gran).Inv := by
  unfold forget
  dsimp only
  split
  · split
    · refine foldl_inv (fun _ h1 _ => ?_) h
      exact h1
    · refine (putI2_keeps ..).inv (foldl_inv (fun _ h1 _ => ?_) h)
      exact h1
  · refine foldl_inv (fun _ h1 _ => ?_) h
    exact h1

theorem discardHeld_inv (h : s.Inv) : (discardHeld s handle).Inv := by
  refine foldl_inv (fun _ h1 _ => ?_) ?_
  · exact foldl_inv (fun _ h2 _ => forget_inv h2) h1
  · refine foldl_inv (fun _ h1 _ => ?_) h
    exact foldl_inv (fun _ h2 _ => forget_inv h2) h1

theorem dropOwnLine_inv (h : s.Inv) : (dropOwnLine s core gran).Inv := h

theorem leavePlaceholder_inv {g : Granule} {seq : ℕ} (h : s.Inv) : (leavePlaceholder s n core gran g seq).Inv :=
  ite_inv h ((putI2_keeps ..).inv h)

theorem holdFor_inv {handle : Option ℕ} {already : Bool} (h : s.Inv) : (holdFor s n handle already bytes).1.Inv := by
  unfold holdFor
  split
  · exact fst_ite_inv (setNr_inv h) h
  · exact h

theorem roomO1_inv (h : s.Inv) : (roomO1 s core gran).Inv := by
  refine ite_inv h ?_
  dsimp only
  split
  · exact (drainO1_keeps ..).inv ((roomO2_keeps ..).inv h)
  · split
    · exact reportHome_inv ((roomO2_keeps ..).inv h)
    · exact (roomO2_keeps ..).inv h

theorem readyO1_inv {held : Option ℕ} (h : s.Inv) : (readyO1 s core gran held).Inv := by
  unfold readyO1
  split
  · exact ite_inv ((drainO1_keeps ..).inv h) h
  · exact roomO1_inv h

theorem formInO1_inv {data : GData} (h : s.Inv) : (formInO1 s core gran data self).Inv := by
  unfold formInO1
  extract_lets n c k already
  have hx : (holdFor s n k already 64).1.Inv := holdFor_inv h
  split
  next e =>
  rw [e] at hx
  extract_lets u _ _ u1 seq f g c1 u2 d u3 u4
  have hu : u.Inv := readyO1_inv hx
  have hu3 : u3.Inv := hu
  exact ite_inv (dropOwnLine_inv hu3) (leavePlaceholder_inv hu3)

theorem readyForm_inv {handle : Option ℕ} (h : s.Inv) : (readyForm s n gran handle).1.Inv :=
  (readyO2_keeps ..).inv (holdFor_inv h)

theorem formInO2_inv {g : Granule} {handle : Option ℕ} (h : s.Inv) : (formInO2 s prod slot gran g handle).Inv := by
  refine (setHart_sameMem ..).inv ((passO2_keeps ..).inv (leavePlaceholder_inv (inv_of_mem rfl ?_)))
  split <;> exact (readyO2_keeps ..).inv (holdFor_inv h)

theorem formEach_inv {handle : State → Option ℕ} :
    ∀ {ys : List (ℕ × Granule)} {s t : State}, s.Inv → formEach prod slot handle ys s = .ok t → t.Inv
  | [], _, _, h, e => by cases e; exact h
  | y :: ys, s, t, h, e => by
    unfold formEach at e
    dsimp only at e
    split at e
    · exact formEach_inv (formInO2_inv (readyForm_inv h)) e
    · cases e

theorem formEachM_safe {handle : State → Option ℕ} {ys : List (ℕ × Granule)} : Safe (formEachM prod slot handle ys) := by
  intro s h
  unfold formEachM
  split
  next e => exact formEach_inv h e
  · exact reportForm_inv h

theorem enterPartial_inv {r : ℕ} {v : ℤ} (h : s.Inv) : (enterPartial s core pa r v).Inv := by
  unfold enterPartial
  dsimp only
  split
  · exact setOvf_inv h
  · exact holdFor_inv h

theorem readyPartial_inv {r : ℕ} (h : s.Inv) : (readyPartial s core pa r).Inv :=
  ite_inv h ((roomO2_keeps ..).inv (holdFor_inv h))

theorem passPartial_inv (h : s.Inv) : (passPartial s core pa).Inv := ite_inv ((combinePartials_keeps ..).inv h) h

/-! ## Translation and reads (`Machine/Translate`) -/

theorem consumeM_safe {r : Reader} {core cluster : Option ℕ} {f : Found} : Safe (consumeM r core cluster va gran f) := by
  unfold consumeM
  intro s h
  dsimp only
  split
  · exact h
  · exact ite_inv ((dropFailed_inbound ..).inv h) h

theorem wayE_safe {direct : Bool} {m : M α} (hm : Safe m) : Safe (wayE n gran src direct m) := by
  unfold wayE
  intro s h
  dsimp only
  split
  · exact (reportRoute_sameMem ..).inv h
  · exact hm h

theorem readRemote_safe {r : Reader} {cluster : Option ℕ} : Safe (readRemote r cluster va gran) := by
  unfold readRemote
  intro s h
  dsimp only
  repeat' split
  all_goals exact h

theorem tlbFill_inv {x : Tlbs} {pte : Word} (h : s.Inv) : (tlbFill s x launch va pte level).Inv := by
  unfold tlbFill
  repeat' split
  all_goals exact h

theorem xlateFill_inv {x : Tlbs} (h : s.Inv) : (xlateFill s x launch va).Inv := by
  refine ite_inv h ?_
  split
  · exact tlbFill_inv h
  · exact h

theorem requestPageAt_inv (h : s.Inv) : (requestPageAt s launch table va level).Inv := by
  unfold requestPageAt
  dsimp only
  split <;> exact h

theorem requestPage_inv (h : s.Inv) : (requestPage s launch va level).Inv := requestPageAt_inv h

theorem translateFor_safe {x : Tlbs} {a : Acc} : Safe (translateFor x l va a) := by
  unfold translateFor
  intro s h
  dsimp only
  split
  · exact xlateFill_inv h
  · exact h
  · exact h
  · exact snd_ite_inv h (requestPage_inv h)
  · exact (reportLeg_sameMem ..).inv h

theorem translateM_safe {a : Acc} : Safe (translateM va a) := waitingM_safe (fun _ h => translateFor_safe h)

theorem consumeOwn_safe {e : OutEntry} : Safe (consumeOwn va e) := by
  unfold consumeOwn
  intro s h
  dsimp only
  split <;> exact h

theorem readGranule_safe : Safe (readGranule va gran self) := by
  intro s h
  delta readGranule
  extract_lets core n f
  split
  · exact consumeOwn_safe h
  · exact wayM_safe (fun _ h => snd_ite_inv (readRemote_safe h) (consumeM_safe ((fillI1_inbound ..).inv h))) h

theorem readBypass_safe : Safe (readBypass va gran self) := by
  intro s h
  delta readBypass
  extract_lets core n u
  have hu : u.Inv := (drainOwn_keeps ..).inv h
  clear_value u
  split
  · exact consumeOwn_safe h
  · exact snd_ite_inv (holdM_safe (reportForm_inv hu))
      (wayM_safe (fun _ h => snd_ite_inv (readRemote_safe h) (consumeM_safe h)) hu)

theorem ovfTest_safe : Safe (ovfTest va gran) := by
  unfold ovfTest
  intro s h
  dsimp only
  split <;> exact h

theorem formM_safe {data : GData} : Safe (formM gran self data) := by
  unfold formM
  intro s h
  dsimp only
  split
  · exact (reportRoute_sameMem ..).inv (readyO1_inv h)
  · exact snd_ite_inv (formInO1_inv (readyO1_inv h)) (readyO1_inv h)

theorem formGranule_safe {new : GData} {mask : BitVec 64} : Safe (formGranule va gran self new mask) := by
  intro s h
  refine snd_ite_inv (formM_safe h) ?_
  split
  · exact formM_safe h
  · split
    next e2 => exact formM_safe (snd_inv (readGranule_safe h) e2)
    next e2 => exact snd_inv (readGranule_safe h) e2

/-! ## Watermarks (`Machine/Watermarks`) -/

theorem noteRises_inv {old : State} (h : s.Inv) : (noteRises old s).Inv := h

theorem withdrawRecord_inv (h : s.Inv) : (withdrawRecord s k).Inv := h

/-! ## How steps end (`Machine/Ending`) -/

theorem freeSlot_inv (h : s.Inv) : (freeSlot s k).Inv := (setHart_sameMem ..).inv h

theorem settlePhase_inv (h : s.Inv) : (settlePhase s k).Inv :=
  ite_inv ((setHart_sameMem ..).inv (ite_inv (inv_of_mem (flush_mem _) h) (inv_of_mem (flush_mem _) h))) h

theorem removeCommands_inv (h : s.Inv) : (removeCommands s k).Inv := ite_inv (inv_of_mem (flush_mem _) h) h

theorem endRun_inv (h : s.Inv) : (endRun s r).1.Inv := by
  unfold endRun
  dsimp only
  split <;> exact h

theorem endHarts_inv (h : s.Inv) : (endHarts s handle).Inv :=
  foldl_inv (fun _ h1 _ => freeSlot_inv (removeCommands_inv (settlePhase_inv h1))) h

theorem stopHarts_inv (h : s.Inv) : (stopHarts s handle).Inv := by
  unfold stopHarts
  extract_lets _ _ u
  exact foldl_inv (fun _ h _ => (setHart_sameMem ..).inv
    (setCluster_inv (withdrawRecord_inv (removeCommands_inv (settlePhase_inv h))))) h

theorem firingDone_inv (h : s.Inv) : (firingDone s handle).Inv := noteRises_inv h

theorem completeStep_inv {outcome : ℕ} (h : s.Inv) : (completeStep s r outcome cause frec).Inv := h

theorem endStep_inv {outcome : ℕ} (h : s.Inv) : (endStep s handle outcome cause frec).Inv := by
  unfold endStep
  split
  · dsimp only [State.Inv, completeStep, setStep]
    exact stopHarts_inv (discardHeld_inv (endRun_inv h))
  · exact endHarts_inv h

theorem abortStep_inv {useRetry : Bool} {chkx : Option ℕ} (h : s.Inv) : (abortStep s handle useRetry chkx cause frec).Inv := by
  unfold abortStep
  split
  next r _ =>
    have hd : (discardHeld (endRun s r).1 handle).Inv := discardHeld_inv (endRun_inv h)
    exact ite_inv (completeStep_inv (stopHarts_inv hd)) (setStep_inv (endHarts_inv hd))
  · exact h

/-! ## Traps taken and what instructions share (`Machine/Ops`) -/

theorem writeRecord_inv (h : s.Inv) : EitherInv (writeRecord s t) := by
  unfold writeRecord
  dsimp only
  split
  · split
    · exact h
    · exact (invI1_inbound ..).inv ((invI2_inbound ..).inv ((putO3_keeps ..).inv ((drainOwn_keeps ..).inv h)))
  · exact reportFault_inv h
  · exact h
  · exact h
  · exact h

theorem scoreTrap_inv (h : s.Inv) : (scoreTrap s t).Inv := by
  unfold scoreTrap
  split
  · exact (scoreCheck_sameMem ..).inv h
  · exact h

theorem withdrawWaits_inv (h : s.Inv) : (withdrawWaits s k).Inv := h

theorem checkAbort_inv {chkx : Option ℕ} (h : s.Inv) : (checkAbort s t handle chkx).Inv := by
  have hw := writeRecord_inv h (t := t)
  refine ite_inv (abortStep_inv h) ?_
  split
  next e =>
    rw [e] at hw
    exact endStep_inv hw
  next e =>
    rw [e] at hw
    exact abortStep_inv hw

theorem enterTrap_inv (h : s.Inv) : (enterTrap s t).Inv := by
  unfold enterTrap
  dsimp only
  have hs : (scoreTrap (withdrawWaits s s.cur) t).Inv := scoreTrap_inv (s := withdrawWaits s s.cur) h
  have hw := writeRecord_inv hs (t := t)
  generalize scoreTrap (withdrawWaits s s.cur) t = u at hs hw ⊢
  refine ite_inv (checkAbort_inv hs) (ite_inv (ite_inv (endStep_inv hs) hs) (ite_inv (ite_inv (endStep_inv hs) hs) ?_))
  split
  next e =>
    rw [e] at hw
    exact endStep_inv hw
  next e =>
    rw [e] at hw
    exact ite_inv (endStep_inv hw) hw

theorem takeTrap_inv (h : s.Inv) : (takeTrap s t).Inv := by
  unfold takeTrap
  split
  next leg _ => exact (reportLeg_sameMem s leg).inv h
  · exact enterTrap_inv h

theorem runM_inv {m : M Unit} (hm : Safe m) (h1 : s.Inv) : AnswersInv (runM m s) := by
  unfold runM
  split
  next e => exact snd_inv (hm h1) e
  next e => exact snd_inv (hm h1) e
  next e => exact takeTrap_inv (snd_inv (hm h1) e)

theorem jumpM_safe {t : Word} : Safe (jumpM t) := by
  unfold jumpM
  intro s h
  dsimp only
  split <;> exact h

theorem setNrM_safe : Safe setNrM := by
  intro s h
  show State.Inv (match heldBy s with | some k => setNr s k | none => s)
  split
  · exact setNr_inv h
  · exact h

/-! ## Fetch, interrupts and engine faults (`Machine/Traps`) -/

theorem fetchWord_safe : Safe fetchWord := by
  intro s h
  delta fetchWord
  extract_lets pc
  refine snd_ite_inv h ?_
  split
  next e => exact snd_inv (translateFor_safe (s := { s with ir := 0 }) h) e
  next t e =>
    have ht : t.Inv := snd_inv (translateFor_safe (s := { s with ir := 0 }) h) e
    extract_lets gran core n f r
    have hr : r.2.Inv := by
      subst r
      split
      next l _ => exact (reportRoute_sameMem t l.1 l.2).inv ht
      · exact snd_ite_inv (readRemote_safe ht) (consumeM_safe ((fillI1_inbound ..).inv ht))
    clear_value r
    split <;> exact hr

theorem execFetchFault_inv (h : s.Inv) : AnswersInv (execFetchFault s) := by
  refine answers_ite ?_ h
  split
  next e => exact snd_inv (fetchWord_safe h) e
  next t u e =>
    have hu : u.Inv := snd_inv (fetchWord_safe h) e
    show State.Inv (match recordLeg u with | some leg => reportLeg u leg | none => enterTrap u (fetchTrap s.hart t))
    split
    next leg _ => exact (reportLeg_sameMem u leg).inv hu
    · exact enterTrap_inv hu
  · exact h

theorem execIllegalWord_inv {word : BitVec 32} (h : s.Inv) : AnswersInv (execIllegalWord word s) := by
  refine answers_ite ?_ h
  split
  next e1 => exact answers_ite (takeTrap_inv (snd_inv (fetchWord_safe h) e1)) h
  · exact h

theorem endWait_inv (h : s.Inv) : (endWait s).Inv := by
  unfold endWait
  split <;> exact h

theorem execInterrupt_inv (h : s.Inv) : AnswersInv (execInterrupt core s) := by
  unfold execInterrupt
  split
  · exact answers_ite h (takeTrap_inv (endWait_inv (switchTo_inv h)))
  · exact h

theorem execEngineFaultDelivery_inv (h : s.Inv) : AnswersInv (execEngineFaultDelivery core s) := by
  unfold execEngineFaultDelivery
  split
  · dsimp only
    split
    · refine answers_ite ?_ h
      split
      · exact (reportLeg_sameMem ..).inv (switchTo_inv h)
      · exact takeTrap_inv (switchTo_inv h)
    · exact h
  · exact h

/-! ## Release, acquire, fences and turns (`Machine/Ordering`) -/

theorem releaseDrain_inv {core : Option ℕ} (h : s.Inv) : (releaseDrain s n core prod l).Inv := by
  delta releaseDrain
  extract_lets o1 u v w
  have hu : u.Inv := by
    subst u
    split
    · exact foldl_inv (fun _ h _ => (drainO1_keeps ..).inv h) h
    · exact h
  have hv : v.Inv := foldl_inv (fun _ h _ => (drainO2_keeps ..).inv h) hu
  have hw : w.Inv := by
    subst w
    split
    · exact (combinePartials_keeps ..).inv hv
    · exact hv
  clear_value w v u
  split
  · split
    · refine foldl_inv (fun _ h _ => ?_) (foldl_inv (fun _ h _ => ?_) h)
      · split
        · exact ite_inv h ((placeLevel1_keeps ..).inv h)
        · exact h
      · split
        · exact (placeLevel1_keeps ..).inv h
        · exact h
    · exact h
  · refine ite_inv (foldl_inv (fun _ h _ => ?_) hu) (ite_inv hw (foldl_inv (fun _ h _ => (deliverRemote_sameMem ..).inv h) hw))
    split
    · exact (placeLevel2_keeps ..).inv h
    · exact h

theorem releasePublish_inv (h : s.Inv) : (releasePublish s prod l).Inv := ite_inv (inv_of_mem (multicast_mem ..) h) h

theorem release_inv {core : Option ℕ} (h : s.Inv) : (release s n core prod l).1.Inv :=
  fst_ite_inv (releaseDrain_inv h) (releasePublish_inv (releaseDrain_inv h))

theorem releaseM_safe : Safe (releaseM l) := by
  unfold releaseM
  intro s h
  dsimp only
  split
  · split <;> exact h
  · refine snd_ite_inv h ?_
    repeat' split
    all_goals exact release_inv h

theorem loseAttachment_inv (h : s.Inv) : (loseAttachment s gran).Inv := h

theorem attachTo_inv {sil : Sil} (h : s.Inv) : (attachTo s gran sil).Inv := by
  unfold attachTo
  split
  · exact h
  · dsimp only
    split
    · exact h
    · split <;> exact ite_inv h h

theorem acquire_inv (h : s.Inv) : (acquire s gran).Inv := by
  delta acquire
  extract_lets core u
  have hu : u.Inv := (invI1_inbound ..).inv ((invI2_inbound ..).inv h)
  clear_value u
  refine ite_inv (hu.congr rfl) ?_
  split
  · exact (applySil_inv h).congr rfl
  · exact h

theorem translateLocalM_safe {a : Acc} : Safe (translateLocalM va a) := by
  unfold translateLocalM
  intro s h
  dsimp only
  split
  next e => exact snd_inv (translateM_safe h) e
  next t e =>
    have ht : t.Inv := snd_inv (translateM_safe h) e
    split <;> exact ht

theorem junctionCheckM_safe : Safe (junctionCheckM va gran) := by
  unfold junctionCheckM
  intro s h
  dsimp only
  split
  · exact h
  · exact (dropFailed_inbound ..).inv h

theorem homewardM_safe {forms : Bool} : Safe (homewardM gran forms) := by
  intro s h
  delta homewardM
  extract_lets n u
  have hu : u.Inv := (drainOwn_keeps ..).inv h
  clear_value u
  refine snd_ite_inv (holdM_safe (reportForm_inv hu)) ?_
  split
  · exact holdM_safe ((reportRoute_sameMem ..).inv hu)
  · exact hu

theorem junctionForm_inv {g : Granule} {v : ℕ} (h : s.Inv) : (junctionForm s pa g n v level).Inv := (putO3_keeps ..).inv h

theorem noRangeM_safe : Safe (noRangeM va pa n) := by
  unfold noRangeM
  intro s h
  dsimp only
  split <;> exact h

theorem fenceDrain_inv (h : s.Inv) : (fenceDrain s sc).Inv := by
  unfold fenceDrain
  split
  · exact h
  · exact foldl_inv (fun _ h1 _ => (drainO1_keeps ..).inv h1) h
  · exact releaseDrain_inv (foldl_inv (fun _ h1 _ => (drainO1_keeps ..).inv h1) h)
  · exact releaseDrain_inv (foldl_inv (fun _ h1 _ => (drainO1_keeps ..).inv h1) h)

theorem execFence_inv (h : s.Inv) : AnswersInv (execFence sc s) := by
  unfold execFence
  dsimp only
  split <;> exact fenceDrain_inv h

theorem execRel_inv (h : s.Inv) : AnswersInv (execRel sc s) :=
  runM_inv (.bind setNrM_safe fun _ => .bind releaseM_safe fun _ _ h1 => h1) h

theorem shipM_safe : Safe (shipM l gran) := by
  unfold shipM
  intro s h
  dsimp only
  split
  · split <;> exact h
  · split
    next e1 => exact snd_inv (releaseM_safe h) e1
    next t e1 =>
      have ht : t.Inv := snd_inv (releaseM_safe h) e1
      split <;> exact inv_of_mem (shipSilhouette_mem ..) ht

theorem execStrel_inv {off : BitVec 5} (h : s.Inv) : AnswersInv (execStrel sc a b off s) := by
  refine runM_inv (.bind guardM_safe fun _ => .bind translateLocalM_safe fun _ => .bind noRangeM_safe fun _ =>
    .bind setNrM_safe fun _ => .bind shipM_safe fun _ => .bind homewardM_safe fun _ => .bind junctionCheckM_safe fun _ =>
    .bind (fun s h => ?_) fun _ _ h => h) h
  dsimp only [modS, State.Inv]
  exact attachTo_inv (junctionForm_inv h)

theorem execLdacq_inv {off : BitVec 5} (h : s.Inv) : AnswersInv (execLdacq d a off s) :=
  runM_inv (.bind guardM_safe fun _ => .bind translateLocalM_safe fun _ => .bind ovfTest_safe fun _ => .bind homewardM_safe
    fun _ => .bind junctionCheckM_safe fun _ => .bind (fun _ h1 => acquire_inv h1) fun _ _ h1 => h1) h

theorem execDrain_inv (h : s.Inv) : AnswersInv (execDrain s) := by
  unfold execDrain
  split <;> exact h

theorem raiseHome_inv (h : s.Inv) : (raiseHome s gran l).Inv := by
  refine ite_inv ((raiseAtJunction_keeps ..).inv h) ?_
  split <;> exact h

theorem wantHeld_inv {seq : ℕ} (h : s.Inv) : (wantHeld s n gran seq l).Inv := by
  unfold wantHeld
  dsimp only [State.Inv, setCluster]
  refine foldl_inv (fun _ h1 _ => ?_) h
  exact ite_inv h1 h1

theorem switchOwn_inv {p : TurnPlace} (h : s.Inv) : (switchOwn s core gran level p).Inv := by
  delta switchOwn
  extract_lets n k2 u
  have hu : u.Inv := raiseHome_inv h
  split
  · exact wantHeld_inv h
  · exact h
  · extract_lets k
    split
    · extract_lets g v w
      have hv : v.Inv := h
      have hw : w.Inv := (drainO1_keeps ..).inv hv
      exact ite_inv ((placeLevel1_keeps ..).inv hv)
        (ite_inv ((placeLevel2_keeps ..).inv hw) (raiseHome_inv ((drainO2_keeps ..).inv hw)))
    · exact h
  · split
    · extract_lets g v
      have hv : v.Inv := h
      exact ite_inv ((placeLevel1_keeps ..).inv hv)
        (ite_inv ((placeLevel2_keeps ..).inv hv) (raiseHome_inv ((drainO2_keeps ..).inv hv)))
    · exact h
  · exact ite_inv ((invI1_inbound ..).inv ((invI2_inbound ..).inv hu)) (ite_inv ((invI2_inbound ..).inv hu) hu)

theorem turnOne_inv {x : State × ℕ × ℕ} (h : s.Inv) (e : turnOne s core level gran va = .ok x) : x.1.Inv := by
  delta turnOne at e
  extract_lets n parts at e
  split at e
  · split at e
    · cases e
    · extract_lets own home r a b formed c d at e
      have hr : r.1.Inv := by
        subst r
        split
        · exact switchOwn_inv h
        · exact h
      have ha : a.Inv := ite_inv ((combinePartials_keeps ..).inv hr) hr
      have hb : b.Inv := ite_inv (foldl_inv (fun _ h _ => (invI1_inbound ..).inv h) ha) ha
      have hc : c.Inv := ite_inv (raiseHome_inv hb) hb
      have hd : d.Inv := ite_inv ((deliverRemote_sameMem ..).inv hc) hc
      clear_value d parts
      split at e
      · cases e
      · cases e
        exact hd
  · cases e
    exact h

theorem turnLoop_inv {base : Word} {xlen : ℕ} :
    ∀ {n : ℕ} {acc : List ℕ} {s : State}, s.Inv → (turnLoop base xlen level n acc s).2.Inv
  | 0, _, _, h => h
  | n + 1, acc, s, h => by
    unfold turnLoop
    extract_lets pos va rest
    refine snd_ite_inv h ?_
    split
    next e => exact snd_inv (translateM_safe h) e
    next u e =>
      have hu : u.Inv := snd_inv (translateM_safe h) e
      split
      · exact reportForm_inv hu
      · exact hu
      next v _ _ e2 =>
        have hv : v.Inv := turnOne_inv hu e2
        extract_lets h' v'
        exact turnLoop_inv (s := v') hv

theorem turnNotices_inv {done : List ℕ} (h : s.Inv) : (turnNotices s core level done).Inv := by
  refine ite_inv h ?_
  rw [List.foldr_eq_foldl_reverse]
  exact foldl_inv (fun _ h _ => inv_of_mem (multicast_mem ..) h) h

theorem turnM_safe {base len : Word} : Safe (turnM base len level) := by
  intro s h
  delta turnM
  extract_lets h' core u left n r v
  have hu : u.Inv := h
  have hr : r.2.Inv := turnLoop_inv hu
  have hv : v.Inv := turnNotices_inv hr
  clear_value v
  refine snd_ite_inv h (snd_ite_inv h (snd_ite_inv hv ?_))
  split
  · exact hv
  · exact snd_ite_inv hv hv

theorem execTurn_inv {levelM1 : BitVec 2} (h : s.Inv) : AnswersInv (execTurn a b levelM1 s) :=
  runM_inv (.bind turnM_safe fun _ _ h1 => h1) h

theorem turnqLoop_safe : ∀ {n : ℕ} {va : Word} {left : ℕ}, Safe (turnqLoop core n va left)
  | 0, _, _ => fun _ h => h
  | n + 1, va, left => by
    intro s h
    unfold turnqLoop
    dsimp only
    refine snd_ite_inv h ?_
    split
    next e => exact snd_inv (translateM_safe h) e
    next e =>
      split
      next e2 => exact snd_inv (turnqLoop_safe (snd_inv (translateM_safe h) e)) e2
      next e2 => exact snd_inv (turnqLoop_safe (snd_inv (translateM_safe h) e)) e2

theorem execTurnq_inv (h : s.Inv) : AnswersInv (execTurnq d a b s) :=
  runM_inv (.bind guardM_safe fun _ => .bind turnqLoop_safe fun _ _ h1 => h1) h

/-! ## Loads, stores and atomics (`Machine/Mem`) -/

theorem alignedM_safe {size : ℕ} : Safe (alignedM va size) := guardM_safe

theorem loadM_safe {wd : LWidth} {read : Word → ℕ → Bool → M Granule} (hr : ∀ va g self, Safe (read va g self)) :
    Safe (loadM wd d va read) :=
  .bind alignedM_safe fun _ => .bind translateM_safe fun _ => .bind ovfTest_safe fun _ => .bind (hr _ _ _) fun _ _ h => h

theorem execLd_inv {wd : LWidth} {off : BitVec 13} (h : s.Inv) : AnswersInv (execLd wd d a off s) :=
  runM_inv (loadM_safe (fun _ _ _ => readGranule_safe)) h

theorem execLdNc_inv {wd : LWidth} {off : BitVec 5} (h : s.Inv) : AnswersInv (execLdNc wd d a off s) :=
  runM_inv (loadM_safe (fun _ _ _ => readBypass_safe)) h

theorem execSt_inv {wd : EW} {src : XIdx} {off : BitVec 13} (h : s.Inv) : AnswersInv (execSt wd src a off s) :=
  runM_inv (.bind alignedM_safe fun _ => .bind translateM_safe fun _ => .bind noRangeM_safe fun _ => .bind formGranule_safe
    fun _ _ h1 => h1) h

theorem junctionAtomic_safe {b : ℕ} : Safe (junctionAtomic op va pa n b) := by
  refine .bind homewardM_safe
    (fun _ => .bind junctionCheckM_safe (fun _ => .bind (fun s h => inv_of_mem rfl ?_) (fun _ _ h => h)))
  split
  · exact junctionForm_inv h
  · exact h

theorem atomicRelease_safe {rls : Bool} : Safe (atomicRelease rls sc gran) := .ite shipM_safe (fun _ h => h)

theorem atomic_inv {dbl acq rls : Bool} (h : s.Inv) : AnswersInv (atomic op dbl acq rls sc d a b s) :=
  runM_inv (.bind alignedM_safe fun _ => .bind translateLocalM_safe fun _ => .bind noRangeM_safe fun _ => .bind setNrM_safe
    fun _ => .bind atomicRelease_safe fun _ => .bind junctionAtomic_safe fun _ => .bind
      (fun _ h1 => ite_inv (attachTo_inv h1) h1) fun _ => .bind (fun _ h1 => ite_inv (acquire_inv h1) h1) fun _ _ h1 => h1) h

/-! ## Element-wise vectors (`Machine/Vector`) -/

theorem elementWise_inv {c : Class} {d : VIdx} {f : Hart → Kind → ℕ → ℕ} (h : s.Inv) :
    AnswersInv (elementWise c d pg ew z f s) := by
  unfold elementWise
  split
  · dsimp only
    split <;> exact takeTrap_inv h
  · exact answers_ite (takeTrap_inv h) h

theorem vv_inv {c : Class} {d a b : VIdx} {f : Hart → Kind → ℕ → ℕ → ℕ} (h : s.Inv) : AnswersInv (vv c d a b pg ew z f s) :=
  elementWise_inv h

theorem vx_inv {c : Class} {d a : VIdx} {f : Hart → Kind → ℕ → ℕ → ℕ} (h : s.Inv) : AnswersInv (vx c d a b pg ew z f s) :=
  elementWise_inv h

theorem vvd_inv {c : Class} {d a b : VIdx} {f : Hart → Kind → ℕ → ℕ → ℕ → ℕ} (h : s.Inv) :
    AnswersInv (vvd c d a b pg ew z f s) := elementWise_inv h

theorem v1_inv {c : Class} {d a : VIdx} {f : Hart → Kind → ℕ → ℕ} (h : s.Inv) : AnswersInv (v1 c d a pg ew z f s) :=
  elementWise_inv h

/-! ## Whole vectors and predicates (`Machine/VectorWhole`) -/

theorem compare_inv {c : Cond} {d : PIdx} {f : Hart → ℕ → ℕ × ℕ} (h : s.Inv) : AnswersInv (compare c d pg ew z f s) := by
  unfold compare
  split
  · dsimp only
    split <;> exact takeTrap_inv h
  · exact answers_ite (takeTrap_inv h) h

theorem whole_inv {c : Class} {f : Hart → Kind → Option Hart} (h : s.Inv) : AnswersInv (whole c ew f s) := by
  unfold whole
  split
  · dsimp only
    repeat' split
    all_goals exact takeTrap_inv h
  · refine answers_ite (takeTrap_inv h) (answers_ite (takeTrap_inv h) ?_)
    split
    · exact h
    · exact takeTrap_inv h

theorem predLogic_inv {d : PIdx} {p : Hart → PReg} (h : s.Inv) : AnswersInv (predLogic d p s) := answers_ite (takeTrap_inv h) h

theorem permute_inv {d : VIdx} {overlap : Bool} {f : Hart → ℕ → Option ℕ} (h : s.Inv) :
    AnswersInv (permute ew d pg z overlap f s) := whole_inv h

theorem reduction_inv {c : Class} {uns : Bool} {a : VIdx} {op : Hart → Kind → ℕ → ℕ → ℕ} (h : s.Inv) :
    AnswersInv (reduction c uns d a b pg ew op s) := whole_inv h

theorem scan_inv {d a : VIdx} {op : Hart → Kind → ℕ → ℕ → ℕ} (h : s.Inv) : AnswersInv (scan d a pg ew z op s) := whole_inv h

/-! ## Vector memory (`Machine/VMem`) -/

theorem actAt_safe {u : ℕ} {m : M α} (hm : Safe m) : Safe (actAt u m) := by
  unfold actAt
  intro s h
  dsimp only
  split
  next e => exact snd_inv (hm h) e
  next e => exact (snd_inv (hm h) e).congr rfl
  next e => exact (snd_inv (hm h) e).congr rfl

theorem takeRefusals_inv (h : s.Inv) : (takeRefusals s fs).Inv := by
  refine foldl_inv (fun _ h1 _ => ?_) h
  exact ite_inv h1 h1

theorem probeAll_safe {loc : Bool} {a : Acc} {ts : List Touch} : Safe (probeAll loc a ts) := by
  unfold probeAll
  intro s h
  dsimp only
  split
  · exact h
  · exact snd_ite_inv (foldl_inv (fun _ h1 _ => requestPage_inv h1)
      (foldl_inv (fun _ h1 _ => (reportLeg_sameMem ..).inv h1) h)) (foldl_inv (fun _ h1 _ => xlateFill_inv h1) h)

theorem commitNothing_safe {resume : Bool} : Safe (commitNothing resume p) := fun _ h => snd_ite_inv h (takeRefusals_inv h)

theorem probeM_safe {loc : Bool} {a : Acc} {ts : List Touch} : Safe (probeM loc a ts) :=
  .bind probeAll_safe (fun _ => .bind (fun _ h => h) (fun _ => .ite (fun _ h => h) commitNothing_safe))

theorem probeWhole_safe {loc : Bool} {a : Acc} {ts : List Touch} : Safe (probeWhole loc a ts) :=
  .bind probeAll_safe fun _ => commitNothing_safe

theorem faultAt_safe {u : ℕ} : Safe (faultAt u fs : M α) := fun _ h => takeRefusals_inv h

theorem alignAll_safe : Safe (alignAll n vas) := by
  unfold alignAll
  intro s h
  split <;> exact h

theorem boundAll_safe {bad : ℕ → Bool} : Safe (boundAll bad vas) := by
  unfold boundAll
  intro s h
  split <;> exact h

theorem noRanges_safe : Safe (noRanges p n vas) := by
  unfold noRanges
  intro s h
  dsimp only
  split <;> exact h

theorem unitsM_safe {σ : Type} {limit : Option ℕ} {act : ℕ → σ → M σ} (ha : ∀ u x, Safe (act u x)) :
    ∀ {us : List ℕ} {k : ℕ} {x : σ}, Safe (unitsM limit fs act k us x)
  | [], _, _ => fun _ h => h
  | u :: us, k, x => by
    intro s h
    refine snd_ite_inv h (snd_ite_inv (faultAt_safe h) ?_)
    split
    next e => exact unitsM_safe ha (snd_inv (actAt_safe (ha u x) h) e)
    next e => exact snd_inv (actAt_safe (ha u x) h) e

theorem checkLocal_safe {g : Granule} {tag : Word} : Safe (checkLocal g off src tag) := by
  unfold checkLocal
  intro s h
  split <;> exact h

theorem readSpAt_safe : Safe (readSpAt core off) := fun _ h => snd_ite_inv h (checkLocal_safe h)

theorem readLsAt_safe : Safe (readLsAt core key off) := fun _ h => checkLocal_safe h

theorem readSp_safe : Safe (readSp off) := fun _ h => readSpAt_safe h

theorem readLs_safe : Safe (readLs key off) := fun _ h => readLsAt_safe h

theorem VMemOp.laneTest_safe : Safe (o.laneTest h) := by
  unfold VMemOp.laneTest
  intro s h1
  dsimp only
  repeat' split
  all_goals exact h1

theorem VMemOp.local_safe : Safe (o.local h) := by
  unfold VMemOp.local
  intro s h1
  dsimp only
  split
  next e => exact snd_inv (VMemOp.laneTest_safe h1) e
  next t e =>
    have ht : t.Inv := snd_inv (VMemOp.laneTest_safe h1) e
    split
    next e1 => exact snd_inv (alignAll_safe ht) e1
    next t1 e1 =>
      have ht1 : t1.Inv := snd_inv (alignAll_safe ht) e1
      exact snd_ite_inv (boundAll_safe ht1) ht1

theorem cachedM_safe {c : Cache} {read : M Granule} (hm : Safe read) : Safe (cachedM c key read) := by
  unfold cachedM
  intro s h
  dsimp only
  split
  · exact h
  · split
    next e1 => exact snd_inv (hm h) e1
    next e1 => exact snd_inv (hm h) e1

theorem memGranule_safe {c : Cache} : Safe (memGranule p va c) := by
  unfold memGranule
  intro s h
  split
  · exact (cachedM_safe (.bind ovfTest_safe fun _ => readGranule_safe)) h
  · exact h

theorem VMemOp.granule_safe {c : Cache} : Safe (o.granule h p i c) := by
  unfold VMemOp.granule
  split
  · exact memGranule_safe
  · exact cachedM_safe readSp_safe
  · exact cachedM_safe readLs_safe

theorem VMemOp.loadElem_safe {c : Cache} : Safe (o.loadElem h p i c) :=
  .bind VMemOp.granule_safe
    (fun _ => .ite (.bind memGranule_safe fun _ => .bind (fun _ h1 => h1) fun _ _ h1 => h1)
      (.bind (fun _ h1 => h1) fun _ => .bind (fun _ h1 => h1) fun _ _ h1 => h1))

theorem VMemOp.load_safe : Safe (VMemOp.load o) :=
  .bind (fun _ h => h) fun _ => .bind VMemOp.local_safe fun _ => .bind probeM_safe fun _ =>
    .bind (unitsM_safe fun _ _ => VMemOp.loadElem_safe) fun _ _ h => h

theorem vld_inv (h : s.Inv) : AnswersInv (vld o s) :=
  answers_ite (takeTrap_inv h) (answers_ite (takeTrap_inv h) (runM_inv VMemOp.load_safe h))

theorem VMemOp.shorten_inv (h : s.Inv) : (o.shorten s).Inv := by
  unfold VMemOp.shorten
  repeat' split
  all_goals exact h

theorem execVldff_inv {d : VIdx} {cv : Bool} (h : s.Inv) : AnswersInv (execVldff d a pg ew cv s) :=
  answers_ite (takeTrap_inv h)
    (answers_ite (takeTrap_inv h) (runM_inv (.bind (fun _ h => VMemOp.shorten_inv h) fun _ => VMemOp.load_safe) h))

theorem formGranuleBits_safe {new mask : GData} : Safe (formGranuleBits va gran self new mask) := by
  intro s h
  refine snd_ite_inv (formM_safe h) ?_
  split
  · exact formM_safe h
  · split
    next e2 => exact formM_safe (snd_inv (readGranule_safe h) e2)
    next e2 => exact snd_inv (readGranule_safe h) e2

theorem putPieces_safe {all : List Piece} {p : Piece} : Safe (putPieces all p) := by
  intro s h
  delta putPieces
  extract_lets core mw whole off other pair put
  split
  · exact formGranuleBits_safe h
  · refine snd_ite_inv h (snd_ite_inv h ?_)
    split
    next e => exact (snd_inv (readSp_safe h) e).congr rfl
    next e => exact snd_inv (readSp_safe h) e
  · refine snd_ite_inv h ?_
    split
    next e => exact (snd_inv (readLs_safe h) e).congr rfl
    next e => exact snd_inv (readLs_safe h) e

theorem storeGroups_inv {all : List Piece} : ∀ {ps : List Piece} {s : State}, s.Inv → (storeGroups all ps s).2.Inv
  | [], _, h => h
  | p :: ps, s, h => by
    unfold storeGroups
    split
    next e => exact storeGroups_inv (snd_inv (putPieces_safe h) e)
    next e => exact snd_inv (putPieces_safe h) e

theorem storePieces_inv : ∀ {n : ℕ} {ps : List Piece} {s : State}, s.Inv → (storePieces n ps s).2.Inv
  | 0, _, _, h => h
  | n + 1, ps, s, h => by
    unfold storePieces
    split
    next e => exact snd_inv (storeGroups_inv h) e
    · split
      next e => exact snd_inv (storePieces_inv h) e
      next t e =>
        have ht : t.Inv := snd_inv (storePieces_inv h) e
        split
        next e2 => exact snd_inv (putPieces_safe ht) e2
        · exact ht

theorem storeM_safe {size : ℕ} {units : List ℕ} {limit : Option ℕ} {ps : List Piece} :
    Safe (storeM size units limit fs ps) := by
  intro s h
  delta storeM
  extract_lets byLimit byFault cut mine
  split
  next e => exact (snd_inv (storePieces_inv h) e).congr rfl
  next e => exact (snd_inv (storePieces_inv h) e).congr rfl
  next u e =>
    have hu : u.Inv := snd_inv (storePieces_inv h) e
    clear_value cut
    split
    · exact hu
    · exact snd_ite_inv (faultAt_safe hu) hu

theorem VMemOp.store_safe : Safe (VMemOp.store o) := by
  have hk : ∀ a b c d e, Safe (storeM a b c d e >>= fun _ => doneV) := fun _ _ _ _ _ => .bind storeM_safe fun _ _ h => h
  exact .bind (fun _ h => h) fun s => .bind VMemOp.local_safe fun _ => .bind probeM_safe fun _ =>
    .ite (.bind noRanges_safe fun _ => .ite (.bind noRanges_safe fun _ => hk ..) (.bind (fun _ h => h) fun _ => hk ..))
     (.bind (fun _ h => h) fun _ => .ite (.bind noRanges_safe fun _ => hk ..) (.bind (fun _ h => h) fun _ => hk ..))

theorem vst_inv (h : s.Inv) : AnswersInv (vst o s) :=
  answers_ite (takeTrap_inv h) (answers_ite (takeTrap_inv h) (runM_inv VMemOp.store_safe h))

theorem laneTests_safe : Safe (laneTests h ew vas) := by
  intro s h1
  refine snd_ite_inv h1 ?_
  split
  next e1 => exact snd_inv (alignAll_safe h1) e1
  next e1 => exact boundAll_safe (snd_inv (alignAll_safe h1) e1)

theorem vldlElem_safe {d : VIdx} {b : VIdx} {c : Cache} : Safe (vldlElem h d a b pg ew z i c) := by
  refine .ite (.bind (cachedM_safe readLs_safe) fun _ => .bind (fun _ h1 => h1) fun _ _ h1 => h1) ?_
  split <;> exact .bind (fun _ h1 => h1) fun _ _ h1 => h1

theorem execVldl_inv {d : VIdx} {b : VIdx} (h : s.Inv) : AnswersInv (execVldl d a b pg ew z s) :=
  runM_inv (.bind laneTests_safe fun _ => .bind (unitsM_safe (fun _ _ => vldlElem_safe)) fun _ _ h1 => h1) h

theorem execVstl_inv {d : VIdx} {b : VIdx} (h : s.Inv) : AnswersInv (execVstl d a b pg ew s) :=
  runM_inv (.bind laneTests_safe fun _ => .bind storeM_safe fun _ _ h1 => h1) h

theorem lineM_inv {f : SpLine → State → State} (hf : ∀ l s, s.Inv → (f l s).Inv) (h : s.Inv) : AnswersInv (lineM a f s) :=
  answers_ite (takeTrap_inv h) (hf _ _ h)

theorem vamoElem_safe {d : VIdx} {b : VIdx} {w : ℕ} {x : Unit} : Safe (vamoElem op h p d a b pg w z i x) := by
  unfold vamoElem
  intro s h1
  split
  · dsimp only
    split
    · split
      next e2 => exact (snd_inv (junctionAtomic_safe h1) e2).congr rfl
      next e2 => exact snd_inv (junctionAtomic_safe h1) e2
    · exact h1
  · refine inv_of_mem rfl ?_
    split <;> exact h1

theorem vamo_inv {d : VIdx} {b : VIdx} {dbl : Bool} (h : s.Inv) : AnswersInv (vamo op d a b pg dbl z s) :=
  answers_ite (takeTrap_inv h)
    (runM_inv (.bind alignAll_safe fun _ => .bind probeM_safe fun _ => .bind noRanges_safe fun _ => .bind setNrM_safe fun _ =>
      .bind (unitsM_safe (fun _ _ => vamoElem_safe)) fun _ _ h1 => h1) h)

theorem redstElem_safe {d : VIdx} {b : VIdx} {x : Unit} : Safe (redstElem h p d a b ew i x) := by
  intro s hs
  delta redstElem
  extract_lets va core
  split
  · extract_lets r u
    have hu : u.Inv := readyPartial_inv hs
    split
    · extract_lets v
      have hv : v.Inv := passPartial_inv (enterPartial_inv hu)
      clear_value v
      exact snd_ite_inv (holdM_safe (reportHome_inv hu)) hv
    · exact hs
  · exact hs

theorem execRedst_inv {d : VIdx} {b : VIdx} (h : s.Inv) : AnswersInv (execRedst d a b pg ew s) := by
  refine answers_ite (takeTrap_inv h) (runM_inv (.bind alignAll_safe fun _ => .bind probeM_safe fun p => .bind ?_ fun _ =>
    .bind (unitsM_safe fun _ _ => redstElem_safe) fun _ _ h => h) h)
  intro u h
  dsimp only
  split <;> exact h

theorem fillGather_inv (h : s.Inv) : (fillGather s n gran).Inv := by
  unfold fillGather
  dsimp only
  split <;> exact h

theorem readGather_safe : Safe (readGather va gran) := by
  intro s h
  delta readGather
  extract_lets n f
  split
  next e => exact snd_inv (wayM_safe (fun _ h => consumeM_safe (fillGather_inv h)) h) e
  next t e =>
    have ht : t.Inv := snd_inv (wayM_safe (fun _ h => consumeM_safe (fillGather_inv h)) h) e
    repeat' split
    all_goals exact ht

theorem undivided_safe {m : M α} (hm : Safe m) : Safe (undivided m) := by
  unfold undivided
  intro s h
  dsimp only
  split
  next e => exact (snd_inv (hm h) e).congr rfl
  · exact hm h

theorem gatherElem_safe {d : VIdx} {b : VIdx} {w : ℕ} {c : Cache} : Safe (gatherElem h p d a b w i c) := by
  unfold gatherElem
  intro s h1
  dsimp only
  split
  · split
    next e1 => exact (snd_inv ((cachedM_safe (.bind ovfTest_safe fun _ => readGather_safe)) h1) e1).congr rfl
    next e1 => exact snd_inv ((cachedM_safe (.bind ovfTest_safe fun _ => readGather_safe)) h1) e1
  · exact h1

theorem execGather_inv {d : VIdx} {b : VIdx} {dbl : Bool} (h : s.Inv) : AnswersInv (execGather d a b pg dbl z s) :=
  answers_ite (takeTrap_inv h)
    (runM_inv (.bind alignAll_safe fun _ => .bind probeM_safe fun _ => .bind
      (undivided_safe (unitsM_safe (fun _ _ => gatherElem_safe))) fun _ => .bind (fun _ h1 => h1) fun _ _ h1 => h1) h)

/-! ## The matrix unit (`Machine/Matrix`) -/

theorem execMattach_inv {wt : Bool} (h : s.Inv) : AnswersInv (execMattach d a wt s) := by
  unfold execMattach
  dsimp only
  refine answers_ite (takeTrap_inv h) ?_
  repeat' split
  all_goals exact h

theorem execTileGrantWaiter_inv (h : s.Inv) : AnswersInv (execTileGrantWaiter n s) := by
  unfold execTileGrantWaiter
  split
  · dsimp only
    split
    · exact (setHart_sameMem ..).inv h
    · exact h
  · dsimp only
    split
    · exact answers_ite h ((setHart_sameMem ..).inv h)
    · exact h

theorem execMmode_inv (h : s.Inv) : AnswersInv (execMmode a s) := answers_ite h (takeTrap_inv h)

theorem tileIssue_inv {illegal operand : Bool} {act : Tile → Result} (h : s.Inv) (ha : ∀ t, AnswersInv (act t)) :
    AnswersInv (tileIssue s acc illegal operand act) := by
  refine answers_ite (takeTrap_inv h) (answers_ite (takeTrap_inv h) ?_)
  split
  · exact ha _
  · exact takeTrap_inv h

theorem readTile_safe {key : Option StashKey} : Safe (readTile key va gran) := by
  intro s h
  delta readTile
  extract_lets n
  split
  next e => exact snd_inv (ovfTest_safe h) e
  next t e =>
    have ht : t.Inv := snd_inv (ovfTest_safe h) e
    extract_lets f
    have hc : Safe fun s => consumeM (.cluster n) none (some n) va gran f.1 (if f.2 then s else fillI2 s n gran) :=
      fun _ h => consumeM_safe (ite_inv h ((fillI2_inbound ..).inv h))
    split
    next e => exact snd_inv (wayM_safe hc ht) e
    next u e =>
      have hu : u.Inv := snd_inv (wayM_safe hc ht) e
      split <;> exact hu

theorem tileGranule_safe {key : Option StashKey} {c : Cache} : Safe (tileGranule key p va c) := by
  unfold tileGranule
  intro s h
  split
  · exact (cachedM_safe readTile_safe) h
  · exact h

theorem rowBytes_safe {get : Word → Cache → M (Granule × Cache)} (hg : ∀ va c, Safe (get va c)) :
    ∀ {vas : List Word} {left acc sh : ℕ} {c : Cache}, Safe (rowBytes get vas left acc sh c)
  | [], _, _, _, _ => fun _ h => h
  | va :: vas, left, acc, sh, c => by
    intro s h
    unfold rowBytes
    split
    next e => exact snd_inv (hg va c h) e
    next e => exact rowBytes_safe hg (snd_inv (hg va c h) e)

theorem operandRows_safe {d : Word} {on : ℕ → Bool} : ∀ {rs acc : List ℕ} {c : Cache}, Safe (operandRows p d len on rs acc c)
  | [], _, _ => fun _ h => h
  | r :: rs, acc, c => by
    intro s h
    unfold operandRows
    dsimp only
    refine snd_ite_inv ?_ (operandRows_safe h)
    have hr : Safe (if inWindow d = true then
        rowBytes (fun va c => cachedM c (2 * (va.toNat / 64) + 1) (readSp va.toNat))
          (granulesOf (BitVec.ofNat 64 (windowOffset d r)) len) len 0 0 c
      else rowBytes (tileGranule (some (operandKey p d len on)) p) (granulesOf (rowAddr d r) len) len 0 0 c) := by
      split
      · exact rowBytes_safe fun _ _ => cachedM_safe readSp_safe
      · exact rowBytes_safe fun _ _ => tileGranule_safe
    split
    next e => exact snd_inv (hr h) e
    next e => exact operandRows_safe (snd_inv (hr h) e)

theorem windowTest_safe {d : Word} {on : ℕ → Bool} : Safe (windowTest d len on) := fun _ h => snd_ite_inv (boundAll_safe h) h

theorem matProduct_inv {packed : Bool} {pk : PIdx} (h : s.Inv) : AnswersInv (matProduct packed acc a b prc pk fmt z s) :=
  tileIssue_inv h (fun _ => runM_inv
    (.bind alignAll_safe fun _ => .bind windowTest_safe fun _ => .bind windowTest_safe fun _ => .bind probeWhole_safe fun _ =>
      .bind operandRows_safe fun _ => .bind operandRows_safe fun _ => .bind (fun _ h1 => h1) fun _ _ h1 => h1) h)

theorem mldElems_safe {d : Word} : ∀ {es : List (ℕ × ℕ)} {acc : Tbl ℕ} {c : Cache}, Safe (mldElems p d es acc c)
  | [], _, _ => fun _ h => h
  | (i, j) :: es, acc, c => by
    intro s h
    unfold mldElems
    dsimp only
    split
    next e => exact snd_inv (tileGranule_safe h) e
    next e => exact mldElems_safe (snd_inv (tileGranule_safe h) e)

theorem execMld_inv (h : s.Inv) : AnswersInv (execMld acc a prc fmt s) :=
  tileIssue_inv h (fun _ => runM_inv
    (.bind alignAll_safe fun _ => .bind probeWhole_safe fun _ => .bind mldElems_safe fun _ => .bind (fun _ h1 => h1)
      fun _ _ h1 => h1) h)

theorem engineOld_safe {mine : Option ℕ} : Safe (engineOld n prod mine va gran) := by
  unfold engineOld
  intro s h
  dsimp only
  refine snd_ite_inv ?_ ((wayE_safe (fun _ h1 => consumeM_safe (ite_inv ((fillI2_inbound ..).inv h1) h1))) h)
  split
  · split <;> exact h
  · refine (wayE_safe (fun s1 h1 => ?_)) h
    split
    · exact h1
    · exact (dropFailed_inbound ..).inv h1

theorem engineData_safe {mine : Option ℕ} {x : Piece × GData × GData} : Safe (engineData n prod mine x) := by
  intro s h
  refine snd_ite_inv h ?_
  split
  next e1 => exact snd_inv (engineOld_safe h) e1
  next e1 => exact snd_inv (engineOld_safe h) e1

theorem engineRow_safe {mine : Option ℕ} :
    ∀ {xs : List (Piece × GData × GData)} {acc : List (Piece × GData)}, Safe (engineRow n prod mine xs acc)
  | [], _ => fun _ h => h
  | x :: xs, acc => by
    intro s h
    unfold engineRow
    split
    next e => exact engineRow_safe (snd_inv (engineData_safe h) e)
    next e => exact snd_inv (engineData_safe h) e

theorem mstRow_safe {d : Word} {t : Tile} {cols : List ℕ} {x : Unit} : Safe (mstRow p d t fmt cols i x) := by
  intro s h
  delta mstRow
  extract_lets n prod mine ps
  clear_value ps
  split
  next e => exact snd_inv (engineRow_safe h) e
  next e => exact formEachM_safe (snd_inv (engineRow_safe h) e)

theorem execMst_inv (h : s.Inv) : AnswersInv (execMst acc a prc fmt s) :=
  tileIssue_inv h (fun _ => runM_inv
    (.bind alignAll_safe fun _ => .bind probeM_safe fun _ => .bind noRanges_safe fun _ => .bind
      (unitsM_safe (fun _ _ => mstRow_safe)) fun _ _ h1 => h1) h)

/-! ## The copy sequencer (`Machine/CopySeq`) -/

theorem execCpset_inv {level : BitVec 4} (h : s.Inv) : AnswersInv (execCpset d a b level s) := by
  unfold execCpset
  split
  · exact answers_ite (takeTrap_inv h) h
  · exact takeTrap_inv h

theorem execCpgo_inv {acq rls : Bool} {cv ef : Bool} (h : s.Inv) : AnswersInv (execCpgo acq rls sc cv ef d a b s) := by
  unfold execCpgo
  split
  · dsimp only
    split
    · exact takeTrap_inv h
    · exact answers_ite h (runM_inv (.bind setNrM_safe fun _ => .bind (fun _ h1 => h1) fun _ _ h1 => h1) h)
  · dsimp only
    split
    · exact takeTrap_inv h
    · exact answers_ite h (runM_inv (.bind (fun _ h1 => h1) fun _ => .bind (fun _ h1 => h1) fun _ _ h1 => h1) h)

theorem execCpq_inv (h : s.Inv) : AnswersInv (execCpq d a s) := by
  refine answers_ite h (answers_ite (takeTrap_inv h) ?_)
  split <;> exact h

theorem spaceTest_safe {side : Space} : Safe (spaceTest core side va len) := by
  unfold spaceTest
  intro s h
  dsimp only
  repeat' split
  all_goals exact h

theorem passParts_safe : Safe (passParts n l va len) := by
  refine eachM_safe ?_
  intro _ s h
  dsimp only
  split
  next e => exact snd_inv (translateFor_safe h) e
  next e => exact noRangeM_safe (snd_inv (translateFor_safe h) e)

theorem destinationPass_safe : Safe (destinationPass n c) := by
  refine forM'_safe (fun _ => ?_)
  split
  · exact .ite (.bind passParts_safe fun _ => passParts_safe) (.bind spaceTest_safe fun _ => passParts_safe)
  · exact .ite (.bind passParts_safe fun _ _ h => h) (.bind spaceTest_safe fun _ _ h => h)

theorem copySource_safe : Safe (copySource n produce va gran) := by
  unfold copySource
  intro s h
  dsimp only
  split
  next e => exact snd_inv (ovfTest_safe h) e
  next t e =>
    have ht : t.Inv := snd_inv (ovfTest_safe h) e
    refine (wayE_safe (fun s1 h1 => snd_ite_inv h1 ?_)) ht
    split
    · exact (dropFailed_inbound ..).inv h1
    · exact h1

theorem copyLocal_safe {g : Granule} {tag : Word} : Safe (copyLocal produce g off src tag) := by
  unfold copyLocal
  intro s h
  split <;> exact h

theorem sourceGranule_safe : Safe (sourceGranule n c produce va) := by
  unfold sourceGranule
  intro s h
  dsimp only
  split
  · split
    next e1 => exact snd_inv (translateFor_safe h) e1
    next e1 => exact copySource_safe (snd_inv (translateFor_safe h) e1)
  · exact snd_ite_inv h (snd_ite_inv h (copyLocal_safe h))
  · exact snd_ite_inv h (copyLocal_safe h)

theorem sourceRun_safe :
    ∀ {ps : List (Word × ℕ × ℕ)} {bytes : ℕ} {gs : List (Granule × Word)}, Safe (sourceRun n c produce ps bytes gs)
  | [], _, _ => fun _ h => h
  | (va, at', len) :: ps, bytes, gs => by
    intro s h
    unfold sourceRun
    split
    next e => exact snd_inv (sourceGranule_safe h) e
    next e => exact sourceRun_safe (snd_inv (sourceGranule_safe h) e)

theorem memPieces_safe : ∀ {ps : List (Word × ℕ × ℕ)} {acc : List Piece}, Safe (memPieces n l bytes ps acc)
  | [], _ => fun _ h => h
  | (va, at', len) :: ps, acc => by
    intro s h
    unfold memPieces
    split
    next e => exact snd_inv (translateFor_safe h) e
    next e => exact memPieces_safe (snd_inv (translateFor_safe h) e)

theorem formRun_safe {step : ℕ} {ys : List (ℕ × Granule)} : Safe (formRun n slot step ys) := formEachM_safe

theorem writeMem_safe {res : ℕ} {gs : List (Granule × Word)} : Safe (writeMem n c i bytes res gs) := by
  intro s h
  delta writeMem
  extract_lets l prod
  split
  next e => exact snd_inv (memPieces_safe h) e
  next ps s' e =>
    have h1 : s'.Inv := snd_inv (memPieces_safe h) e
    have h2 : (if c.ef then memPieces n l res (partsOf (c.resAt i) c.br) [] s' else (.ok [], s')).2.Inv :=
      snd_ite_inv (memPieces_safe h1) h1
    refine snd_ite_inv (formRun_safe h1) ?_
    split
    next e2 => exact snd_inv h2 e2
    next e2 =>
      have h3 := snd_inv h2 e2
      split
      next e3 => exact snd_inv (engineRow_safe h3) e3
      next e3 => exact formRun_safe (snd_inv (engineRow_safe h3) e3)

theorem writeSp_safe {gs : List (Granule × Word)} : Safe (writeSp n c i bytes gs) := by
  intro s h
  refine foldl_inv (fun _ h1 _ => ?_) h
  exact h1

theorem laneParts_safe : ∀ {ps : List (Word × ℕ × ℕ)} {acc : List (ℕ × Granule)}, Safe (laneParts n c bytes ps acc)
  | [], _ => fun _ h => h
  | (va, at', len) :: ps, acc => by
    intro s h
    refine snd_ite_inv (laneParts_safe h) ?_
    split
    next e => exact snd_inv (readLsAt_safe h) e
    next e => exact laneParts_safe (snd_inv (readLsAt_safe h) e)

theorem writeLs_safe {gs : List (Granule × Word)} : Safe (writeLs n c i bytes gs) := by
  intro s h
  refine snd_ite_inv h ?_
  split
  next e1 => exact snd_inv (laneParts_safe h) e1
  next e1 => exact (snd_inv (laneParts_safe h) e1).congr rfl

theorem copyRun_safe : Safe (copyRun n c i) := by
  refine .bind sourceRun_safe fun x => ?_
  split
  · exact writeMem_safe
  · exact writeSp_safe
  · exact writeLs_safe

theorem copyFault_inv (h : s.Inv) : (copyFault s n c t).Inv := by
  unfold copyFault
  split
  · dsimp only
    split
    · exact ite_inv ((reportLeg_sameMem ..).inv h)
        (switchTo_inv (checkAbort_inv (switchTo_inv ((scoreCheck_sameMem ..).inv h))))
    · exact (setHart_sameMem ..).inv ((scoreCheck_sameMem ..).inv h)
  · dsimp only
    split
    · exact ite_inv ((reportLeg_sameMem ..).inv h) (switchTo_inv (checkAbort_inv (switchTo_inv h)))
    · exact (setHart_sameMem ..).inv h

theorem copyFinish_inv (h : s.Inv) : (copyFinish s n c).Inv := by
  unfold copyFinish
  refine ite_inv h ?_
  split
  · dsimp only
    repeat' split
    all_goals exact release_inv h
  · exact ite_inv h (ite_inv h h)

theorem execCopyCommand_inv (h : s.Inv) : AnswersInv (execCopyCommand n s) := by
  unfold execCopyCommand
  split
  · exact h
  · split
    · split
      next e2 => exact (snd_inv (destinationPass_safe h) e2).congr rfl
      next e2 => exact (snd_inv (destinationPass_safe h) e2).congr rfl
      next e2 => exact copyFault_inv (snd_inv (destinationPass_safe h) e2)
    · refine answers_ite ?_ (copyFinish_inv h)
      split
      next e3 => exact (snd_inv (copyRun_safe h) e3).congr rfl
      next e3 => exact snd_inv (copyRun_safe h) e3
      next e3 => exact copyFault_inv (snd_inv (copyRun_safe h) e3)

/-! ## Control registers (`Machine/CReg`) -/

theorem readCreg_inv {r : ℕ} (h : s.Inv) : (readCreg s r).2.Inv := by
  repeat' refine snd_ite_inv ?_ ?_
  all_goals exact h

theorem execCrd_inv {r : BitVec 12} (h : s.Inv) : AnswersInv (execCrd d r s) := readCreg_inv h

theorem freePinned_inv (h : s.Inv) : (freePinned s core).Inv := by
  refine foldl_inv (fun _ h1 _ => (drainO2_keeps ..).inv ?_) h
  split
  · exact ite_inv ((drainO1_keeps ..).inv h1) h1
  · exact h1

theorem holdInI2_inv {kc : ℕ × Copy} (h : s.Inv) : (holdInI2 core s kc).Inv := (dropI1s_inbound ..).inv ((putI2_keeps ..).inv h)

theorem setBankrole_inv {new : Word} (h : s.Inv) : (setBankrole s core new).Inv := foldl_inv (fun _ h1 _ => holdInI2_inv h1) h

theorem writeCreg_safe {r : ℕ} {k : WriteKind} : Safe (writeCreg r k v) := by
  intro s h
  have hf : ∀ c [Decidable c], (if c then freePinned s (curCore s) else s).Inv := fun c _ => ite_inv (freePinned_inv h) h
  refine snd_ite_inv h (snd_ite_inv h (snd_ite_inv (snd_ite_inv h h) ?_))
  repeat refine snd_ite_inv h ?_
  refine snd_ite_inv (snd_ite_inv h (snd_ite_inv h (snd_ite_inv (hf _) (setBankrole_inv (hf _))))) ?_
  repeat refine snd_ite_inv h ?_
  exact h

theorem updateCreg_inv {r : BitVec 12} {k : WriteKind} (h : s.Inv) : AnswersInv (updateCreg d a r k s) :=
  runM_inv (.bind writeCreg_safe fun _ _ h1 => h1) h

/-! ## Control flow (`Machine/Control`) -/

theorem branch_inv {taken : Bool} {off : BitVec 16} (h : s.Inv) : AnswersInv (branch taken off s) :=
  answers_ite (runM_inv jumpM_safe h) h

theorem jumpLink_inv {t : Word} (h : s.Inv) : AnswersInv (jumpLink d t s) := by
  unfold jumpLink
  split
  · exact h
  · exact takeTrap_inv h

theorem execJalr_inv {off : BitVec 16} (h : s.Inv) : AnswersInv (execJalr d a off s) :=
  answers_ite (takeTrap_inv h) (jumpLink_inv h)

theorem execBstrip_inv {off : BitVec 16} (h : s.Inv) : AnswersInv (execBstrip a off s) := by
  delta execBstrip
  extract_lets v pc without
  refine answers_ite h ?_
  split
  · exact takeTrap_inv (s := { s with hart := _ }) h
  · split
    · exact h
    · exact takeTrap_inv h

theorem execLoop_inv {level : BitVec 3} {lenM1 : BitVec 4} {dinc ainc binc : BitVec 3} (h : s.Inv) :
    AnswersInv (execLoop a b level lenM1 dinc ainc binc s) := by
  unfold execLoop
  dsimp only
  split
  · exact takeTrap_inv h
  · split <;> exact h

theorem execEret_inv (h : s.Inv) : AnswersInv (execEret s) := answers_ite h (runM_inv (fun _ h1 => h1) h)

theorem execWait_inv (h : s.Inv) : AnswersInv (execWait s) := by
  unfold execWait
  split <;> exact h

/-! ## Launches (`Machine/Launches`) -/

theorem dispGranule_safe : Safe (dispGranule table l va) := by
  unfold dispGranule
  intro s h
  dsimp only
  split
  · exact snd_ite_inv (readRemote_safe h) (consumeM_safe h)
  · exact h
  · exact h
  · exact snd_ite_inv h (requestPageAt_inv h)
  · exact (reportLeg_sameMem ..).inv h

theorem dispWords_safe : ∀ {n : ℕ}, Safe (dispWords table l va n)
  | 0 => fun _ h => h
  | n + 1 => by
    intro s h
    unfold dispWords
    dsimp only
    split
    next e => exact snd_inv (dispWords_safe h) e
    next e =>
      split
      next e2 => exact snd_inv (dispGranule_safe (snd_inv (dispWords_safe h) e)) e2
      next e2 => exact snd_inv (dispGranule_safe (snd_inv (dispWords_safe h) e)) e2

theorem readDesc_safe {blk : List Word} : Safe (readDesc table l blk) := by
  unfold readDesc
  intro s h
  dsimp only
  split
  next e => exact snd_inv (dispWords_safe h) e
  next t e =>
    have ht : t.Inv := snd_inv (dispWords_safe h) e
    refine snd_ite_inv ht ?_
    split
    next e2 => exact snd_inv (dispWords_safe ht) e2
    next t1 e2 =>
      have ht1 : t1.Inv := snd_inv (dispWords_safe ht) e2
      refine snd_ite_inv ht1 ?_
      split
      next e4 => exact snd_inv (dispWords_safe ht1) e4
      next e4 => exact snd_inv (dispWords_safe ht1) e4

theorem acceptLaunch_safe {blk : List Word} {spawned : Bool} {msg : Option HostMsg} :
    Safe (acceptLaunch blk table spawned msg) := by
  unfold acceptLaunch
  intro s h
  dsimp only
  refine snd_ite_inv h (snd_ite_inv h (snd_ite_inv h ?_))
  split
  next e3 => exact snd_inv (readDesc_safe h) e3
  next t e3 =>
    have ht : t.Inv := snd_inv (readDesc_safe h) e3
    refine inv_of_mem rfl ?_
    split
    · exact (scoreCheck_sameMem ..).inv ht
    · exact ht
  next e3 => exact snd_inv (readDesc_safe h) e3
  next e3 => exact (snd_inv (readDesc_safe h) e3).congr rfl

theorem reportWalk_inv {t : Option TrapInfo} (h : s.Inv) : (reportWalk s t).Inv := by
  unfold reportWalk
  split
  · exact reportFault_inv h
  · exact h

theorem askResidency_inv (h : s.Inv) : (askResidency s handle).Inv := h

theorem queueStep_inv {l : LaunchRec} {ordinal : ℕ} {tileix : List ℕ} {prio : ℕ} {win : Option WinCtx} (h : s.Inv) :
    (queueStep s l ordinal tileix prio win).Inv := by
  delta queueStep
  extract_lets u handle mine d v res r bad d2 w
  have hw : w.Inv := h
  clear_value w
  exact ite_inv hw (askResidency_inv (reportWalk_inv hw))

theorem testResidency_inv (h : s.Inv) : (testResidency s handle).Inv := by
  unfold testResidency
  split
  · split
    · extract_lets res bad u
      have hu : u.Inv := reportWalk_inv (setStep_inv h)
      exact ite_inv hu (askResidency_inv hu)
    · exact h
  · exact h

theorem execWalkerEmit_inv (h : s.Inv) : AnswersInv (execWalkerEmit launchId s) := by
  unfold execWalkerEmit
  split
  · exact answers_ite h (queueStep_inv h)
  · exact h

theorem execResidencyGranted_inv (h : s.Inv) : AnswersInv (execResidencyGranted handle s) := by
  unfold execResidencyGranted
  split
  · split
    · exact answers_ite h (reportWalk_inv h)
    · exact h
  · exact h

theorem execResidencyFailed_inv (h : s.Inv) : AnswersInv (execResidencyFailed handle cause s) := by
  unfold execResidencyFailed
  split
  · exact answers_ite (completeStep_inv ((unbindStep_sameMem ..).inv h)) h
  · exact h

theorem execAging_inv (h : s.Inv) : AnswersInv (execAging handle s) := by
  unfold execAging
  split
  · dsimp only
    split <;> exact h
  · exact h

theorem spawnBlock_safe : Safe (spawnBlock va) := by
  intro s h
  unfold spawnBlock
  split
  next e => exact snd_inv (translateM_safe h) e
  next u e =>
    have hu : u.Inv := snd_inv (translateM_safe h) e
    extract_lets r
    have hr : r.2.Inv := snd_ite_inv (readRemote_safe hu) (consumeM_safe hu)
    clear_value r
    split <;> exact hr

theorem execTspawn_inv (h : s.Inv) : AnswersInv (execTspawn d a s) := by
  refine runM_inv (.bind alignedM_safe
    (fun _ => .bind spawnBlock_safe
      (fun _ => .bind setNrM_safe
        (fun _ => .bind (fun _ h1 => h1) (fun _ => .bind (waitingM_safe acceptLaunch_safe) (fun _ => ?_)))))) h
  split
  · exact .bind (fun _ h1 => h1) fun _ _ h1 => h1
  · exact fun _ h1 => h1
  · exact fun _ h1 => h1

theorem addEdge_inv {w d : ℕ} (h : s.Inv) : (addEdge s w d).Inv := by
  refine foldl_inv (fun _ h1 _ => ?_) ?_
  · exact h1
  · split <;> exact h

theorem execTdep_inv (h : s.Inv) : AnswersInv (execTdep a b s) :=
  answers_ite (takeTrap_inv h)
    (answers_ite (takeTrap_inv h)
      (answers_ite (takeTrap_inv h)
        (answers_ite (takeTrap_inv h)
          (answers_ite h (runM_inv
            (.bind setNrM_safe fun _ => .bind (fun _ h1 => ite_inv (addEdge_inv h1) h1) fun _ _ h1 => h1) h)))))

/-! ## Steps: bind, stage, start, stop (`Machine/Steps`) -/

theorem execBindRecordWrite_inv {dws : List Word} (h : s.Inv) : AnswersInv (execBindRecordWrite core dws s) := by
  unfold execBindRecordWrite
  repeat' split
  all_goals exact h

theorem stageAt_inv {l : LaunchRec} {x : BindRec} (h : s.Inv) : (stageAt s l r core x).Inv := by
  unfold stageAt
  split <;> exact h

theorem execStageRecord_inv (h : s.Inv) : AnswersInv (execStageRecord core s) := by
  unfold execStageRecord
  split
  · dsimp only
    split
    · exact foldl_inv (fun _ h1 _ => stageAt_inv h1) h
    · exact h
  · exact h

theorem preloadM_safe {l : LaunchRec} {p : PreLine} : Safe (preloadM n l p) := by
  intro s h
  refine snd_ite_inv h ?_
  split
  · exact (reportLeg_sameMem ..).inv h
  · exact h
  · exact h
  · exact snd_ite_inv h (requestPageAt_inv h)
  · refine snd_ite_inv h ((wayE_safe (fun s1 h1 => ?_)) h)
    dsimp only
    split <;> exact (fillI2_inbound ..).inv h1

theorem preloadNext_inv {l : LaunchRec} : ∀ {ps : List PreLine} {s : State}, s.Inv → (preloadNext n l ps s).2.Inv
  | [], _, h => h
  | p :: ps, s, h => by
    unfold preloadNext
    split
    next e => exact snd_inv (preloadM_safe h) e
    next e => exact snd_inv (preloadM_safe h) e
    next e => exact preloadNext_inv (snd_inv (preloadM_safe h) e)

theorem execPreloadLineLand_inv (h : s.Inv) : AnswersInv (execPreloadLineLand k s) := by
  unfold execPreloadLineLand
  dsimp only
  split
  · split
    next e2 => exact (snd_inv (preloadNext_inv h) e2).congr rfl
    next e2 => exact snd_inv (preloadNext_inv h) e2
  · exact h

theorem readParam_safe {l : LaunchRec} {param : Word} : Safe (readParam l param) := by
  intro s h
  refine snd_ite_inv h ?_
  split
  next e1 => exact snd_inv (dispWords_safe h) e1
  next e1 => exact snd_inv (dispWords_safe h) e1

theorem readParams_safe {s₀ : State} {l : LaunchRec} :
    ∀ {ks : List ℕ} {acc : List (ℕ × Word × Word)}, Safe (readParams s₀ l ks acc)
  | [], _ => fun _ h => h
  | k :: ks, acc => by
    intro s h
    unfold readParams
    split
    next e => exact snd_inv (readParam_safe h) e
    next e => exact readParams_safe (snd_inv (readParam_safe h) e)

theorem startFresh_inv {tvec frecbase : Word} (h : s.Inv) : (startFresh s r k tvec frecbase).Inv := (setHart_sameMem ..).inv h

theorem startSaved_inv {v : SavedHart} (h : s.Inv) : (startSaved s r k v).Inv := applySil_inv ((setHart_sameMem ..).inv h)

theorem readyCores_inv (h : s.Inv) : (readyCores s ks).Inv := foldl_inv (fun _ h1 _ => ite_inv (freePinned_inv h1) h1) h

theorem endUnread_inv (h : s.Inv) : (endUnread s r t).Inv := by
  delta endUnread
  extract_lets u
  have hu : u.Inv := by
    subst u
    split
    · exact (scoreCheck_sameMem ..).inv h
    · exact h
  exact ite_inv (endStep_inv hu) (completeStep_inv (unbindStep_inv hu))

theorem execHartStart_inv (h : s.Inv) : AnswersInv (execHartStart slot s) := by
  delta execHartStart
  extract_lets x
  clear_value x
  refine answers_ite h ?_
  split
  · exact h
  next r _ =>
    extract_lets ks u
    have hu : u.Inv := readyCores_inv h
    clear_value u
    refine answers_ite h (answers_ite hu ?_)
    split
    · exact hu
    · split
      next t e =>
        have ht : t.Inv := snd_inv (readParams_safe hu) e
        exact foldl_inv (fun _ h _ => startFresh_inv h)
          (foldl_inv (s := runStep t r ks) (fun _ h _ => startSaved_inv h) ht)
      next e => exact snd_inv (readParams_safe hu) e
      next e => exact endUnread_inv (snd_inv (readParams_safe hu) e)

theorem publishOut_inv (h : s.Inv) : (publishOut s k).1.Inv := by
  unfold publishOut
  refine fst_ite_inv (fst_ite_inv ?_ h) (release_inv h)
  dsimp only [State.Inv, advanceRcnt, setCounts]
  exact inv_of_mem (flush_mem _) (release_inv h)

theorem publishAll_inv : ∀ {ks : List ℕ} {s : State}, s.Inv → (publishAll s ks).1.Inv
  | [], _, h => h
  | k :: ks, s, h => by
    unfold publishAll
    exact fst_ite_inv (publishAll_inv (publishOut_inv h)) (publishOut_inv h)

theorem saveStep_inv {ovr : Bool} (h : s.Inv) : (saveStep s handle ovr).Inv := by
  unfold saveStep
  split
  · dsimp only [State.Inv, setStep]
    exact endHarts_inv (endRun_inv h)
  · exact h

theorem overrunRecord_inv (h : s.Inv) : (overrunRecord s handle).Inv := by
  unfold overrunRecord
  split <;> exact h

theorem stopEnds_inv {why : Stopping} (h : s.Inv) : (stopEnds s handle why).Inv := by
  unfold stopEnds
  split
  · exact overrunRecord_inv h
  · exact ite_inv h h
  · exact h
  · exact h

theorem finishStop_inv (h : s.Inv) : (finishStop s handle).Inv := by
  unfold finishStop
  split
  · split
    · exact ite_inv h (ite_inv (stopEnds_inv (saveStep_inv (publishAll_inv h))) (publishAll_inv h))
    · exact h
  · exact h

theorem stopStep_inv {why : Stopping} (h : s.Inv) : (stopStep s r why).Inv :=
  ite_inv h (finishStop_inv (setStep_inv (foldl_inv (fun _ h _ => withdrawWaits_inv (settlePhase_inv h)) h)))

theorem preemptFor_inv {why : Stopping} (h : s.Inv) : (preemptFor s r why).Inv :=
  ite_inv h (ite_inv (abortStep_inv h) (stopStep_inv h))

theorem preemptStep_inv {area : Bool} (h : s.Inv) : (preemptStep s r area).1.Inv := by
  unfold preemptStep
  split
  · exact fst_ite_inv (preemptFor_inv h) (fst_ite_inv h (fst_ite_inv h (preemptFor_inv h)))
  · exact h
  · exact h
  · exact h

theorem execBudgetOverrun_inv (h : s.Inv) : AnswersInv (execBudgetOverrun core s) := by
  unfold execBudgetOverrun
  split
  next r _ =>
    have ha : (abortStep s r.handle false none 0 0).Inv := abortStep_inv h
    dsimp only
    refine answers_ite h (answers_ite ?_ (stopStep_inv h))
    split
    · exact overrunRecord_inv (setStep_inv ha)
    · exact ha
  · exact h

theorem execMachineFault_inv (h : s.Inv) : AnswersInv (execMachineFault core s) := by
  unfold execMachineFault
  split
  · exact answers_ite h (answers_ite (abortStep_inv h) (endStep_inv h))
  · exact h

theorem execCorrectedError_inv {pch : ℕ} (h : s.Inv) : AnswersInv (execCorrectedError pch s) :=
  ite_inv ((addScore_sameMem ..).inv h) h

theorem execTyield_inv (h : s.Inv) : AnswersInv (execTyield s) := by
  unfold execTyield
  split
  · exact answers_ite (ite_inv (stopStep_inv h) h) h
  · exact h

theorem withStep_inv {f : StepRec → Result} (hf : ∀ r, AnswersInv (f r)) (h : s.Inv) : AnswersInv (withStep s f) := by
  unfold withStep
  split
  · exact answers_ite h (hf _)
  · exact h

theorem execExtend_inv {arg : BitVec 32} (h : s.Inv) : AnswersInv (execExtend arg s) := by
  refine withStep_inv (fun _ => ?_) h
  split <;> exact h

theorem execRetry_inv (h : s.Inv) : AnswersInv (execRetry s) := by
  refine withStep_inv (fun _ => ?_) h
  split <;> exact h

theorem satisfy_inv {d : ℕ} (h : s.Inv) : (satisfy s d).Inv := foldl_inv (fun _ h1 _ => testResidency_inv h1) h

theorem completeLaunch_inv {l : LaunchRec} (h : s.Inv) : (completeLaunch s l).Inv := satisfy_inv h

theorem finishLaunch_inv {id : ℕ} (h : s.Inv) : (finishLaunch s id).Inv := by
  unfold finishLaunch
  split
  · exact ite_inv (completeLaunch_inv h) h
  · exact h

theorem execKill_inv (h : s.Inv) : AnswersInv (execKill s) := by
  unfold execKill
  split
  · exact answers_ite h (finishLaunch_inv h)
  · refine withStep_inv (fun _ => answers_ite (endStep_inv h) ?_) h
    dsimp only [State.Inv, setDstat, completeStep, setStep]
    exact (unbindStep_sameMem ..).inv h

theorem execPreempt_inv {area : Bool} (h : s.Inv) : AnswersInv (execPreempt area s) :=
  withStep_inv (fun r => (preemptStep_inv h : (preemptStep s r area).1.Inv)) h

theorem timerFires_inv (h : s.Inv) : (timerFires s r).Inv := ite_inv h (foldl_inv (fun _ h1 _ => (setHart_sameMem ..).inv h1) h)

theorem execTimer_inv (h : s.Inv) : AnswersInv (execTimer s) :=
  withStep_inv (fun r => ite_inv (timerFires_inv (s := setDstat (setStep s { r with timer := s.disp.dtimer }) 0) h) h) h

theorem execTimerDeadline_inv (h : s.Inv) : AnswersInv (execTimerDeadline handle s) := by
  unfold execTimerDeadline
  split
  · exact answers_ite h (timerFires_inv (timeReaches_inv h))
  · exact h

theorem execRouteInstall_inv (h : s.Inv) : AnswersInv (execRouteInstall v s) := by
  unfold execRouteInstall
  dsimp only
  split <;> exact h

theorem execRouteRemove_inv (h : s.Inv) : AnswersInv (execRouteRemove v s) := by
  unfold execRouteRemove
  dsimp only
  split <;> exact h

/-! ## Barriers, retirement and records (`Machine/Retire`) -/

theorem passBarrier_inv {b : Barrier} (h : s.Inv) : (passBarrier s b k).Inv := (setHart_sameMem ..).inv (applySil_inv h)

theorem openBarrier_inv {b : Barrier} (h : s.Inv) : (openBarrier s b).Inv := foldl_inv (fun _ h1 _ => passBarrier_inv h1) h

theorem arriveAt_inv {gang : ℕ} (h : s.Inv) : (arriveAt s handle team gang).1.Inv := inv_of_mem (shipTo_mem ..) h

theorem meetM_safe : Safe (meetM team) := by
  unfold meetM
  intro s h
  dsimp only
  split
  · exact snd_ite_inv (openBarrier_inv h) h
  · exact snd_ite_inv (openBarrier_inv (arriveAt_inv h)) (arriveAt_inv h)

theorem execGbar_inv (h : s.Inv) : AnswersInv (execGbar team s) :=
  answers_ite (takeTrap_inv h)
    (runM_inv (.ite (.bind (fun _ h1 => h1) fun _ => meetM_safe)
      (.bind setNrM_safe fun _ => .bind releaseM_safe fun _ => meetM_safe)) h)

theorem execBarrierOpen_inv {gang : ℕ} (h : s.Inv) : AnswersInv (execBarrierOpen handle team gang s) := by
  unfold execBarrierOpen
  split
  · exact ite_inv (openBarrier_inv h) h
  · exact h

theorem execTdone_inv (h : s.Inv) : AnswersInv (execTdone a s) := by
  unfold execTdone
  dsimp only
  refine answers_ite (takeTrap_inv h) ?_
  repeat' split
  all_goals exact h

theorem retireScore_inv (h : s.Inv) : (retireScore s low t).Inv := by
  unfold retireScore
  split
  · exact (scoreCheck_sameMem ..).inv h
  · exact h

theorem recordAt_inv (h : s.Inv) : (recordAt s k t).1.Inv := by
  have hw := writeRecord_inv (switchTo_inv (slot := k) h) (t := t)
  refine fst_ite_inv (switchTo_inv (switchTo_inv h)) ?_
  split
  next e =>
    rw [e] at hw
    exact switchTo_inv hw
  next e =>
    rw [e] at hw
    exact switchTo_inv hw

theorem retireOne_inv {t : State} (h : s.Inv) (e : retireOne s low core level gran va = .ok t) : t.Inv := by
  unfold retireOne at e
  split at e
  · cases e
  next u _ _ hu =>
    have hu : u.Inv := turnOne_inv h hu
    split at e
    · dsimp only at e
      split at e
      · cases e
        exact inv_of_mem (noticeNow_mem ..) hu
      · cases e
    · cases e
      exact hu

theorem publishList_inv : ∀ {xs : List (ℕ × ℕ × OutEntry)} {s t : State}, s.Inv → publishList low pub xs s = .ok t → t.Inv
  | [], _, _, h, e => by cases e; exact h
  | x :: xs, s, t, h, e => by
    unfold publishList at e
    split at e
    next hu => exact publishList_inv (retireOne_inv h hu) e
    · cases e
    · exact publishList_inv h e

theorem publishPartials_inv {t : State} (h : s.Inv) (e : publishPartials cores s = .ok t) : t.Inv := by
  unfold publishPartials at e
  dsimp only at e
  split at e
  · cases e
  · cases e
    exact foldl_inv (fun _ h _ => (combinePartials_keeps ..).inv h) h

theorem publishHeld_inv {t : State} (h : s.Inv) (e : publishHeld s r low pub = .ok t) : t.Inv := by
  unfold publishHeld at e
  split at e
  next hu => exact publishPartials_inv (publishList_inv (s := unhold s r.handle) h hu) e
  · cases e

theorem retireGranule_inv :
    ∀ {cs : List ℕ} {s : State} {x : State × Option TrapInfo}, s.Inv → retireGranule low pub gran va cs s = .ok x → x.1.Inv
  | [], _, _, h, e => by cases e; exact h
  | c :: cs, s, x, h, e => by
    unfold retireGranule at e
    split at e
    · cases e
    · cases e
      exact h
    next hu => exact retireGranule_inv (retireOne_inv h hu) e

theorem retireRun_inv :
    ∀ {n gran : ℕ} {va : Word} {x y : State × Option TrapInfo}, x.1.Inv → retireRun low pub cores n gran va x = .ok y → y.1.Inv
  | 0, _, _, _, _, h, e => by cases e; exact h
  | n + 1, gran, va, x, y, h, e => by
    unfold retireRun at e
    split at e
    · cases e
    next z hz =>
      have hz : z.1.Inv := retireGranule_inv h hz
      refine retireRun_inv ?_ e
      split
      · exact retireScore_inv hz
      · exact hz

theorem retirePage_inv {l : LaunchRec} {stop : Word} {x y : State × Option TrapInfo} (h : x.1.Inv)
    (e : retirePage l low pub cores stop va x = .ok y) : y.1.Inv := by
  unfold retirePage at e
  split at e
  · cases e
    exact h
  · split at e
    · split at e
      · cases e
        exact h
      · split at e
        · cases e
        · exact retireRun_inv h e
    · cases e
      exact h
    · cases e
      exact h
    · cases e
      exact h
    · cases e
      exact reportFault_inv h
    · cases e

theorem retirePages_inv {l : LaunchRec} {stop : Word} :
    ∀ {vas : List Word} {x y : State × Option TrapInfo}, x.1.Inv → retirePages l low pub cores stop vas x = .ok y → y.1.Inv
  | [], _, _, h, e => by cases e; exact h
  | va :: vas, x, y, h, e => by
    unfold retirePages at e
    split at e
    · cases e
    next hz => exact retirePages_inv (retirePage_inv h hz) e

theorem publishRegions_inv {l : LaunchRec} :
    ∀ {es : List (Word × ℕ)} {x y : State × Option TrapInfo}, x.1.Inv → publishRegions l low pub cores es x = .ok y → y.1.Inv
  | [], _, _, h, e => by cases e; exact h
  | r :: rs, x, y, h, e => by
    rw [publishRegions] at e
    split at e
    · cases e
    next hz => exact publishRegions_inv (retirePages_inv h hz) e

theorem retireWith_inv {outcome : ℕ} (h : s.Inv) : (retireWith s handle outcome cause frec).Inv := by
  unfold retireWith
  split
  · exact completeStep_inv (endRun_inv h)
  · exact h

theorem retireFault_inv {u : State} (h : s.Inv) (e : retireFault s handle k t = .ok u) : u.Inv := by
  unfold retireFault at e
  split at e
  · cases e
  · cases e
    exact retireWith_inv (recordAt_inv h)

theorem retireOutcome_inv {t : State} (h : s.Inv) (e : retireOutcome s handle ks = .ok t) : t.Inv := by
  unfold retireOutcome at e
  split at e
  · split at e
    · exact retireFault_inv h e
    · cases e
      exact h
  · split at e
    · cases e
      exact retireWith_inv h
    · cases e
      exact retireWith_inv h

theorem retireHeld_inv {t : State} (h : s.Inv) (e : retireHeld s r ks low pub = .ok t) : t.Inv := by
  unfold retireHeld at e
  split at e
  · split at e
    · cases e
    · cases e
      exact switchTo_inv (checkAbort_inv (switchTo_inv (retireScore_inv h)))
  · split at e
    · cases e
    next hu => exact retireOutcome_inv (publishHeld_inv h hu) e

theorem retireRegions_inv {t : State} {l : LaunchRec} (h : s.Inv) (e : retireRegions s l r ks low pub = .ok t) : t.Inv := by
  unfold retireRegions at e
  split at e
  · cases e
  next hu => exact retireFault_inv (publishRegions_inv (x := (s, none)) h hu) e
  next hu => exact retireOutcome_inv (publishRegions_inv (x := (s, none)) h hu) e

theorem execStepRetire_inv (h : s.Inv) : AnswersInv (execStepRetire handle s) := by
  delta execStepRetire
  split
  · exact h
  · extract_lets ks
    split
    · refine answers_ite h ?_
      extract_lets pub
      split
      next e =>
        split at e
        · exact retireHeld_inv h e
        · exact retireRegions_inv h e
      · exact (reportLeg_sameMem ..).inv h
    · exact h

theorem stepEnds_inv (h : s.Inv) : (stepEnds s handle).Inv := by
  unfold stepEnds
  dsimp only
  split
  · split
    · exact finishLaunch_inv (ite_inv (firingDone_inv (satisfy_inv (endHarts_inv h))) (satisfy_inv (endHarts_inv h)))
    · exact ite_inv (firingDone_inv (satisfy_inv (endHarts_inv h))) (satisfy_inv (endHarts_inv h))
  · exact h

theorem execCompletionRecordWrite_inv (h : s.Inv) : AnswersInv (execCompletionRecordWrite s) := by
  unfold execCompletionRecordWrite
  split
  · exact h
  · extract_lets gran
    refine answers_ite h ?_
    split
    · exact (reportRoute_sameMem ..).inv h
    · split
      next t e =>
      have ht : t.Inv := snd_inv h e
      extract_lets d ws u d2 v
      have hv : v.Inv := ite_inv ((putO3_keeps ..).inv ht) ht
      exact answers_ite hv (answers_ite hv (stepEnds_inv hv))

/-! ## Drains, pages and ports (`Machine/Devices`) -/

theorem execOutboundDrain_inv {lvl : ℕ} (h : s.Inv) : AnswersInv (execOutboundDrain lvl unit gran s) := by
  unfold execOutboundDrain
  split
  · split
    · exact ite_inv h ((drainO1_keeps ..).inv h)
    · exact h
  · refine answers_ite ((combinePartials_keeps ..).inv ?_) ((deliverRemote_sameMem ..).inv h)
    split
    · exact ite_inv h ((drainO2_keeps ..).inv h)
    · exact h

theorem execO3Writeback_inv (h : s.Inv) : AnswersInv (execO3Writeback gran s) := (writeBack_keeps ..).inv h

theorem leavePort_inv {f : MeshFlit} {port : ℕ} (h : s.Inv) : (leavePort applyFlit f s port).Inv := ite_inv (applyFlit_inv h) h

theorem leaveReserve_inv {router port : ℕ} (h : s.Inv) : (leaveReserve s router port).Inv := by
  unfold leaveReserve
  split
  next f _ => exact ite_inv (leavePort_inv (s := { s with mesh := s.mesh.erase f }) h) h
  · exact h

theorem execMulticastReserveForward_inv {out : RouterPort} (h : s.Inv) : AnswersInv (execMulticastReserveForward out s) :=
  inv_of_mem (flow_mem _) (leaveReserve_inv h)

theorem execManagementCoreStore_inv {data : List Byte} (h : s.Inv) : AnswersInv (execManagementCoreStore pa data s) := by
  refine answers_ite ?_ h
  split
  · exact (reportRoute_sameMem ..).inv h
  · exact (managementStore_keeps ..).inv h

theorem holdPage_inv (h : s.Inv) : (holdPage s table key level).Inv := by
  unfold holdPage
  split <;> exact h

theorem freePage_inv (h : s.Inv) : (freePage s table key level).Inv := h

theorem reportLeaf_inv {e : NoLeaf} (h : s.Inv) : (reportLeaf s table va e).Inv := by
  unfold reportLeaf
  split
  · exact h
  · exact reportWalk_inv h
  · exact (reportLeg_sameMem ..).inv h

theorem reportPage_inv {e : NoLeaf} (h : s.Inv) : (reportPage s launch va e).Inv := by
  unfold reportPage
  split
  · exact reportLeaf_inv h
  · exact h

theorem writePte_inv {pte : Word} (h : s.Inv) : (writePte s pa pte).Inv := (managementStore_keeps ..).inv h

theorem invalidateAll_inv {lo hi : ℕ} (h : s.Inv) : (invalidateAll s lo hi).Inv := inv_of_mem (noticeNow_mem ..) h

theorem moveIn_inv {leaf : ℕ × Word × ℕ} (h : s.Inv) : (moveIn s table va leaf image).Inv := by
  unfold moveIn
  dsimp only [State.Inv, grantPage, dropRequest]
  refine writePte_inv (invalidateAll_inv (forUp_inv (fun _ _ h1 => ?_) h))
  exact setHbm_inv h1 _ _

theorem bringIn_inv {leaf : ℕ × Word × ℕ} (h : s.Inv) : (bringIn s table va leaf image).1.Inv := by
  unfold bringIn
  split
  · exact (reportLeg_sameMem ..).inv h
  · exact fst_ite_inv (moveIn_inv h) h

theorem drainRange_inv {lo hi : ℕ} (h : s.Inv) : (drainRange s lo hi).Inv :=
  foldl_inv (fun _ h1 _ => (combinePartials_keeps ..).inv (foldl_inv (fun _ h2 _ => (drainO2_keeps ..).inv h2) h1))
    (foldl_inv (fun _ h1 _ => foldl_inv (fun _ h2 _ => (drainO1_keeps ..).inv h2) h1) h)

theorem forgetPage_inv {launches : ℕ → Bool} {page : ℕ} (h : s.Inv) : (forgetPage s launches page).Inv := h

theorem moveOut_inv {leaf : ℕ × Word × ℕ} (h : s.Inv) : (moveOut s leaf table va).1.Inv := by
  delta moveOut
  extract_lets lo hi key s1 s2 s3 s4 keys s5 s6 page ps s7 s8 s9
  have h2 : s2.Inv := drainRange_inv (foldl_inv (fun _ h _ => abortStep_inv h) h)
  have h4 : s4.Inv := foldl_inv (fun _ h _ => (writeBack_keeps ..).inv h) (freePage_inv h2)
  have h5 : s5.Inv := foldl_inv (fun _ h _ => ite_inv ((raiseAtJunction_keeps ..).inv h) h) h4
  have h6 : s6.Inv := invalidateAll_inv h5
  clear_value s6
  have h7 : s7.Inv := h6
  have h9 : s9.Inv := writePte_inv (foldl_inv (fun _ h _ => loseAttachment_inv h) h7)
  clear_value s9
  refine fst_ite_inv ((reportLeg_sameMem ..).inv (holdPage_inv h2)) (fst_ite_inv (holdPage_inv h2) ?_)
  split
  · exact (reportCheck_sameMem ..).inv h6
  · exact forgetPage_inv h9

theorem execPageMoveIn_inv (h : s.Inv) : AnswersInv (execPageMoveIn launchId va image s) := by
  unfold execPageMoveIn
  split
  · exact ite_inv (bringIn_inv h) h
  · exact reportPage_inv h

theorem execPageMoveOut_inv (h : s.Inv) : AnswersInv (execPageMoveOut launchId va s) := by
  unfold execPageMoveOut
  split
  · exact answers_ite h (moveOut_inv h)
  · exact reportPage_inv h

theorem execTlbInvalidation_inv (h : s.Inv) : AnswersInv (execTlbInvalidation launchId va s) := ite_inv h h

theorem portStop_inv {e : PortStop} {error : State → State} (h : s.Inv) (he : ∀ s, s.Inv → (error s).Inv) :
    (portStop s e error).Inv := by
  unfold portStop
  split
  · exact he _ h
  · exact he _ (reportWalk_inv h)
  · exact (reportLeg_sameMem ..).inv h

theorem ackWrite_inv {port : ℕ} {ok : Bool} (h : s.Inv) : (ackWrite s port ok).Inv := h

theorem execRemoteWrite_inv {data : List Byte} (h : s.Inv) : AnswersInv (execRemoteWrite port launchId va data s) := by
  refine answers_ite h ?_
  split
  · exact portStop_inv h fun _ h => ackWrite_inv h
  · extract_lets ps t u
    have hu : u.Inv := foldl_inv (fun _ h _ => inv_of_mem (noticeNow_mem ..) h) ((formParts_keeps ..).inv h)
    clear_value u
    split
    · exact (reportRoute_sameMem ..).inv h
    · split
      · exact ackWrite_inv ((reportCheck_sameMem ..).inv h)
      · exact ite_inv (ackWrite_inv hu) h

theorem execRemoteRead_inv (h : s.Inv) : AnswersInv (execRemoteRead port launchId va len s) := by
  refine answers_ite h ?_
  split
  · exact portStop_inv h (fun _ h1 => h1)
  · dsimp only
    split
    · exact (reportRoute_sameMem ..).inv h
    · split
      · exact h
      · exact reportFault_inv h

theorem execDiscardedPacket_inv (h : s.Inv) : AnswersInv (execDiscardedPacket port s) := by
  unfold execDiscardedPacket
  split <;> exact h

theorem execCrngWrite_inv {n : BitVec 4} {isC : Bool} (h : s.Inv) : AnswersInv (execCrngWrite n isC v s) := by
  unfold execCrngWrite
  split <;> exact ite_inv h h

/-! ## Leases and scores (`Machine/Service`) -/

theorem startEarly_inv (h : s.Inv) : (startEarly s cls).Inv :=
  foldl_inv (fun _ h1 _ => ite_inv ((startLease_sameMem ..).inv h1) h1) h

theorem startScheduled_inv (h : s.Inv) : (startScheduled s cls).Inv := ite_inv h (ite_inv ((startLease_sameMem ..).inv h) h)

theorem execLeaseInterval_inv {cls : BitVec 2} (h : s.Inv) : AnswersInv (execLeaseInterval cls s) :=
  answers_ite h (ite_inv (startEarly_inv h) (startScheduled_inv (startEarly_inv h)))

theorem withdrawStep_inv (h : s.Inv) : (withdrawStep s r team).Inv := ite_inv h (ite_inv (abortStep_inv h) (stopStep_inv h))

theorem execLeasePatienceExpiry_inv {cls : BitVec 2} (h : s.Inv) : AnswersInv (execLeasePatienceExpiry cls unit s) := by
  refine answers_ite h ?_
  split
  · split
    · split
      · exact withdrawStep_inv h
      · exact h
    · exact h
  · refine answers_ite ?_ h
    refine foldl_inv (fun _ h1 _ => ?_) h
    split
    · exact preemptFor_inv h1
    · exact h1

theorem execDrainComplete_inv {cls : BitVec 2} (h : s.Inv) : AnswersInv (execDrainComplete cls unit s) :=
  ite_inv (setLease_inv h) h

theorem logRetirement_inv {now : Word} (h : s.Inv) : (logRetirement s cls unit patid now).Inv := by
  unfold logRetirement
  split <;> exact h

theorem retireUnit_inv (h : s.Inv) : (retireUnit s cls unit patid).Inv :=
  (nextQuarantine_sameMem ..).inv ((setLeaseAt_sameMem ..).inv (logRetirement_inv h))

theorem leaseFails_inv (h : s.Inv) : (leaseFails s cls unit patid).Inv := by
  unfold leaseFails
  split <;> exact ite_inv ((addScore_sameMem ..).inv h)
    (ite_inv ((addScore_sameMem ..).inv h) (retireUnit_inv ((addScore_sameMem ..).inv h)))

theorem writeStripe_inv (h : s.Inv) : (writeStripe s cls unit).Inv := ite_inv h h

theorem execPatternRunComplete_inv {cls : BitVec 2} {pass : Bool} (h : s.Inv) :
    AnswersInv (execPatternRunComplete cls unit pass patid s) := by
  unfold execPatternRunComplete
  split
  · exact answers_ite h ((nextQuarantine_sameMem ..).inv (setLease_inv (writeStripe_inv h)))
  · exact answers_ite h (leaseFails_inv (writeStripe_inv h))

theorem execPseudoChannelRemap_inv {pch : ℕ} (h : s.Inv) : AnswersInv (execPseudoChannelRemap pch s) := by
  unfold execPseudoChannelRemap
  split
  · exact retireUnit_inv h
  · exact h

theorem halve_inv {u : State} {xs : Tbl ℕ} {v : Service} (h : u.Inv) :
    (xs.foldl (fun s x => applyThresholds s x.1 x.2 (x.2 / 2)) { u with svc := v }).Inv :=
  foldl_inv (s := { u with svc := v }) (fun _ h _ => (applyThresholds_sameMem ..).inv h) h

theorem execScoreHalving_inv (h : s.Inv) : AnswersInv (execScoreHalving s) := answers_ite h (halve_inv (timeReaches_inv h))

theorem execScdataWrite_inv (h : s.Inv) : AnswersInv (execScdataWrite v s) := ite_inv (setScore_inv h) h

theorem execLcmd_inv (h : s.Inv) : AnswersInv (execLcmd v s) :=
  answers_ite h (foldl_inv
    (fun _ h1 _ => ite_inv h1 (ite_inv ((startLease_sameMem ..).inv h1) ((addEarly_sameMem ..).inv h1))) h)

theorem preemptChiplet_inv {c : ℕ} (h : s.Inv) : (preemptChiplet s c).Inv := by
  refine foldl_inv (fun _ h1 _ => ?_) h
  split
  · exact preemptFor_inv h1
  · exact h1

theorem execThermalStep_inv {chiplet : BitVec 3} {temp : ℕ} (h : s.Inv) : AnswersInv (execThermalStep chiplet temp s) :=
  ite_inv (preemptChiplet_inv h) h

theorem clearProducts_inv {cluster : ℕ} (h : s.Inv) : (clearProducts s cluster).Inv := by
  refine foldl_inv (fun _ h1 _ => ?_) h
  exact ite_inv h1 h1

theorem execEnergyInterval_inv {cluster : ℕ} (h : s.Inv) : AnswersInv (execEnergyInterval cluster s) := by
  refine foldl_inv (fun _ h1 _ => ?_) (clearProducts_inv h)
  split <;> exact h1

theorem execCapq_inv (h : s.Inv) : AnswersInv (execCapq d s) := by
  unfold execCapq
  split <;> exact h

/-! ## Queues (`Machine/Queues`) -/

theorem receiverM_safe : Safe (receiverM q) := by
  unfold receiverM
  intro s h
  dsimp only
  repeat' split
  all_goals exact h

theorem deliverM_safe {r : Route} {ws : List Word} : Safe (deliverM r ws) :=
  fun _ h => snd_ite_inv h ((setHart_sameMem ..).inv h)

theorem execQsend_inv (h : s.Inv) : AnswersInv (execQsend a q s) :=
  runM_inv (.bind receiverM_safe fun _ => .bind deliverM_safe fun _ _ h1 => h1) h

theorem execQrecv_inv (h : s.Inv) : AnswersInv (execQrecv d q s) := by
  unfold execQrecv
  split
  · exact answers_ite (runM_inv (fun _ h1 => h1) h) h
  · exact answers_ite (runM_inv (fun _ h1 => h1) h) (answers_ite (runM_inv (fun _ h1 => h1) h) h)

theorem execQpoll_inv (h : s.Inv) : AnswersInv (execQpoll d b q s) := by
  unfold execQpoll
  split <;> exact answers_ite (runM_inv (fun _ h1 => h1) h) h

theorem pushTurnM_safe {base len : Word} : Safe (pushTurnM base len level) := by
  intro s h
  refine snd_ite_inv h ?_
  split
  next e1 => exact (snd_inv (turnM_safe h) e1).congr rfl
  next e1 => exact snd_inv (turnM_safe h) e1

theorem execQpush_inv (h : s.Inv) : AnswersInv (execQpush a b q s) :=
  runM_inv (.bind guardM_safe fun _ => .bind receiverM_safe fun _ => .bind pushTurnM_safe fun _ => .bind deliverM_safe
    fun _ _ h1 => h1) h

/-! ## Streams and windows (`Machine/Streams`) -/

theorem setWin_inv {w : Win} (h : s.Inv) : (setWin s gi w).Inv := h

theorem fire_inv {l : LaunchRec} {ctx : WinCtx} {prev : Option ℕ} (h : s.Inv) : (fire s l ctx prev).1.Inv := by
  delta fire
  extract_lets ordinal handle u d v w
  have hv : v.Inv := by
    subst v
    split <;> exact h
  have hw : w.Inv := queueStep_inv hv
  clear_value w
  split <;> exact hw

theorem transit_inv {w : Win} (h : s.Inv) : (transit s gi w).Inv := by
  delta transit
  extract_lets g
  split
  · exact setWin_inv (fire_inv h)
  · exact h

theorem amend_inv (h : s.Inv) : (amend s gi k).Inv := by
  delta amend
  extract_lets g
  split
  · split
    · exact setWin_inv (fire_inv h)
    · exact h
  · exact h

theorem expire_inv (h : s.Inv) : (expire s gi k).Inv := by
  unfold expire
  dsimp only
  split <;> exact amend_inv h

theorem applyWatermark_inv (h : s.Inv) : (applyWatermark s gi).Inv :=
  foldl_inv (fun _ h1 _ => expire_inv h1) (foldl_inv (fun _ h1 _ => transit_inv h1) h)

theorem recompute_inv (h : s.Inv) : (recompute s gi).Inv := applyWatermark_inv h

theorem setSource_inv {x : Source} (h : s.Inv) : (setSource s gi i x).Inv := ite_inv (noteRises_inv (recompute_inv h)) h

theorem touchSource_inv (h : s.Inv) : (touchSource s gi i).Inv := setSource_inv h

theorem sourceWatermark_inv {t : Word} (h : s.Inv) : (sourceWatermark s gi i t).Inv := setSource_inv h

theorem joinWindow_inv {a : ℕ} (h : s.Inv) : (joinWindow s gi a k).Inv := by
  refine ite_inv h ?_
  split
  · exact ite_inv h (ite_inv (amend_inv h) h)
  · split <;> exact h

theorem deposit_inv {port : ℕ} (h : s.Inv) : (deposit s gi port h0 h1 payload).Inv :=
  foldl_inv (fun _ h _ => joinWindow_inv h) (setGraph_inv ((formParts_keeps ..).inv h))

theorem takeRecord_inv {t : State} {r : Stalled} (h : s.Inv) (e : takeRecord s gi r = some t) : t.Inv := by
  unfold takeRecord at e
  dsimp only at e
  repeat' split at e
  all_goals cases e
  · exact h
  · exact sourceWatermark_inv h
  · exact h
  · exact h
  · exact h
  · exact deposit_inv h

theorem touchFor_inv {r : Stalled} (h : s.Inv) : (touchFor s gi r).Inv := ite_inv (touchSource_inv h) h

theorem arrive_inv {r : Stalled} (h : s.Inv) : (arrive s gi r).Inv := by
  have ht : (touchFor s gi r).Inv := touchFor_inv h
  refine ite_inv ht ?_
  cases e : takeRecord (touchFor s gi r) gi r with
  | some u => exact takeRecord_inv ht e
  | none => exact ht

theorem fromEndpoint_inv (h : s.Inv) : (fromEndpoint port ep h0 h1 payload s).Inv :=
  ite_inv (foldl_inv (fun _ h _ => ite_inv (arrive_inv h) h) h) h

theorem execStreamRecord_inv (h : s.Inv) : AnswersInv (execStreamRecord port ep h0 h1 payload s) :=
  ite_inv h (fromEndpoint_inv h)

theorem execWatermarkRecord_inv (h : s.Inv) : AnswersInv (execWatermarkRecord port ep h0 h1 s) := ite_inv h (fromEndpoint_inv h)

theorem takeWaiting_inv {t : State} {r r' : Stalled} (h : s.Inv) (e : takeWaiting s gi r r' = some t) : t.Inv := by
  unfold takeWaiting at e
  split at e
  next hu =>
    cases e
    exact (takeRecord_inv h hu).congr rfl
  · cases e

theorem execStalledRecordDeposit_inv (h : s.Inv) : AnswersInv (execStalledRecordDeposit g src s) := by
  unfold execStalledRecordDeposit
  split
  next r _ =>
    refine ite_inv h ?_
    cases e : takeWaiting s g.toNat r r with
    | some u => exact takeWaiting_inv h e
    | none => exact h
  · exact h

theorem execIdleTimeout_inv (h : s.Inv) : AnswersInv (execIdleTimeout g src s) :=
  answers_ite (setSource_inv (timeReaches_inv h)) h

theorem execAmenddelayExpiry_inv {win : ℕ} (h : s.Inv) : AnswersInv (execAmenddelayExpiry g win s) := by
  unfold execAmenddelayExpiry
  dsimp only
  split
  · exact answers_ite (amend_inv (timeReaches_inv h)) h
  · exact h

theorem noticeSlots_inv {t : State} {x : Graph} {upTo : ℕ} (h : s.Inv) (e : noticeSlots s x upTo = some t) : t.Inv := by
  unfold noticeSlots at e
  dsimp only at e
  split at e
  · cases e
    exact h
  · split at e
    · cases e
      exact foldl_inv (fun _ h _ => inv_of_mem (noticeNow_mem ..) h) h
    · cases e

theorem execSlotReclaim_inv (h : s.Inv) : AnswersInv (execSlotReclaim g s) := by
  refine answers_ite h ?_
  split
  next e => exact (noticeSlots_inv h e).congr rfl
  · exact h

theorem writeSgcfg_inv (h : s.Inv) : (writeSgcfg s gi v).Inv := by
  refine ite_inv (ite_inv h ?_) (ite_inv h (ite_inv h h))
  split
  · exact h
  next t e =>
    have ht := noticeSlots_inv h e
    show State.Inv (match findLaunch s (graphAt s gi).kl with
      | some l => setLaunch t { l with outwm := BitVec.ofNat 64 (outputWm s l) }
      | none => t)
    split <;> exact ht

theorem execGraphEnable_inv (h : s.Inv) : AnswersInv (execGraphEnable g v s) := ite_inv (writeSgcfg_inv h) h

theorem execGraphDisable_inv (h : s.Inv) : AnswersInv (execGraphDisable g v s) := ite_inv h (writeSgcfg_inv h)

theorem feed_inv {t : State} {r : Stalled} (h : s.Inv) (e : feed s gi r = some t) : t.Inv := by
  unfold feed at e
  dsimp only at e
  split at e
  · cases e
  · split at e
    · split at e
      · exact takeWaiting_inv h e
      · cases e
    · split at e
      · cases e
      · exact takeRecord_inv (touchFor_inv h) e

theorem feedAll_inv {slot : Option ℕ} :
    ∀ {xs : List (ℕ × ℕ)} {s t : State}, s.Inv → feedAll h0 h1 payload slot xs s = some t → t.Inv
  | [], _, _, h, e => by cases e; exact h
  | x :: xs, s, t, h, e => by
    unfold feedAll at e
    split at e
    next hu => exact feedAll_inv (feed_inv h hu) e
    · cases e

theorem feedWaits_inv {slot : Option ℕ} {x : ℕ × ℕ} (h : s.Inv) : (feedWaits h0 h1 payload slot s x).Inv :=
  ite_inv h (touchFor_inv h)

theorem emit_inv {o : Output} {slot : Option ℕ} (h : s.Inv) : (emit s o len h0 payload slot).1.Inv := by
  refine fst_ite_inv h ?_
  split
  next e => exact (feedAll_inv h e).congr rfl
  · exact foldl_inv (fun _ h _ => feedWaits_inv h) h

theorem execOutputWatermark_inv {out : BitVec 3} (h : s.Inv) : AnswersInv (execOutputWatermark launchId out s) := by
  unfold execOutputWatermark
  split
  next o _ =>
    split
    · exact h
    next v _ _ =>
      have hx : (emit s o watermarkLen v [] none).1.Inv := emit_inv h
      exact answers_ite h (answers_ite h (ite_inv hx h))
  · exact h

theorem execSwm_inv (h : s.Inv) : AnswersInv (execSwm d a s) := answers_ite (takeTrap_inv h) h

theorem execSwin_inv (h : s.Inv) : AnswersInv (execSwin d a s) := by
  unfold execSwin
  dsimp only
  split <;> exact h

theorem loadBytes_safe : ∀ {n : ℕ} {va : Word} {left : ℕ}, Safe (loadBytes n va left)
  | 0, _, _ => fun _ h => h
  | n + 1, va, left => by
    intro s h
    unfold loadBytes
    dsimp only
    refine snd_ite_inv h ?_
    split
    next e => exact snd_inv (translateM_safe h) e
    next e =>
      have h1 := snd_inv (translateM_safe h) e
      split
      next e => exact snd_inv (ovfTest_safe h1) e
      next e =>
        have h2 := snd_inv (ovfTest_safe h1) e
        split
        next e => exact snd_inv (readGranule_safe h2) e
        next e =>
          have h3 := snd_inv (readGranule_safe h2) e
          split
          next e => exact snd_inv (loadBytes_safe h3) e
          next e => exact snd_inv (loadBytes_safe h3) e

theorem emitM_safe {out : ℕ} : Safe (emitM launch out len h0 payload) := by
  intro s h
  delta emitM
  split
  next o l _ _ =>
    generalize (if len = watermarkLen then BitVec.ofNat 64 (min h0.toNat (outputWm s l)) else h0) = t
    have hx : (emit s o len t payload (some s.cur)).1.Inv := emit_inv h
    exact snd_ite_inv h (snd_ite_inv hx hx)
  · exact h

theorem execSemit_inv (h : s.Inv) : AnswersInv (execSemit a b s) :=
  runM_inv (.bind alignedM_safe
    (fun _ => .bind guardM_safe
      (fun _ => .bind loadBytes_safe
        (fun _ => .ite (.bind (fun _ h1 => h1)
          (fun _ => .ite (.bind (fun _ h1 => h1) fun _ => .bind setNrM_safe fun _ => .bind emitM_safe fun _ _ h1 => h1)
            (.bind loadBytes_safe fun _ => .bind setNrM_safe fun _ => .bind emitM_safe fun _ _ h1 => h1)))
              (.bind (fun _ h1 => h1)
                (fun _ => .ite (.bind (fun _ h1 => h1) fun _ => .bind setNrM_safe fun _ => .bind emitM_safe fun _ _ h1 => h1)
                  (.bind loadBytes_safe fun _ => .bind setNrM_safe fun _ => .bind emitM_safe fun _ _ h1 => h1))))))) h

theorem execSidle_inv (h : s.Inv) : AnswersInv (execSidle a b s) :=
  answers_ite (takeTrap_inv h) (runM_inv (.bind setNrM_safe fun _ => .bind (fun _ h1 => setSource_inv h1) fun _ _ h1 => h1) h)

/-! ## Firmware and the host (`Machine/Firmware`) -/

theorem writeGraph_inv {f : Graph → Graph} (h : s.Inv) : (writeGraph s gi f).Inv := ite_inv h h

theorem writeMemzone_inv (h : s.Inv) : (writeMemzone s v).Inv := by
  unfold writeMemzone
  split <;> exact h

theorem execRegisterWrite_inv {r : MReg} (h : s.Inv) : AnswersInv (execRegisterWrite r v s) := by
  unfold execRegisterWrite
  split
  · exact h
  · exact h
  · exact h
  · exact h
  · exact h
  · exact h
  · exact h
  · exact writeMemzone_inv h
  · exact h
  · exact h
  · exact h
  · exact h
  · exact writeGraph_inv h
  · exact writeSgcfg_inv h
  · exact writeGraph_inv h
  · exact writeGraph_inv h
  · exact writeGraph_inv h
  · exact h

theorem answerLaunch_inv (h : s.Inv) : (answerLaunch m s).1.Inv := by
  refine fst_ite_inv h ?_
  split
  next e1 => exact (snd_inv (acceptLaunch_safe h) e1).congr rfl
  next e1 => exact (snd_inv (acceptLaunch_safe h) e1).congr rfl
  next e1 => exact (snd_inv (acceptLaunch_safe h) e1).congr rfl
  next e1 => exact snd_inv (acceptLaunch_safe h) e1

theorem answerQuery_inv {item : ℕ} (h : s.Inv) : (answerQuery m item n s).Inv := by
  unfold answerQuery
  repeat' split
  all_goals exact h

theorem answerPage_inv {f : ℕ × Word × ℕ → State × Bool} (h : s.Inv) (hf : ∀ leaf, (f leaf).1.Inv) :
    (answerPage m launch va s f).1.Inv := by
  unfold answerPage
  split
  · exact (reportLeg_sameMem ..).inv h
  · exact (reportPage_inv h).congr rfl
  · exact fst_ite_inv h (hf _)

theorem answerPageIn_inv (h : s.Inv) : (answerPageIn m launch va image s).1.Inv := by
  refine answerPage_inv h fun leaf => fst_ite_inv h (fst_ite_inv h ?_)
  split
  next e => exact (fst_inv (bringIn_inv h) e).congr rfl
  next e => exact fst_inv (bringIn_inv h) e

theorem answerPageOut_inv (h : s.Inv) : (answerPageOut m launch va s).1.Inv := by
  refine answerPage_inv h fun leaf => fst_ite_inv h (fst_ite_inv h (fst_ite_inv h ?_))
  split
  next e => exact (fst_inv (moveOut_inv h) e).congr rfl
  next e => exact (fst_inv (moveOut_inv h) e).congr rfl
  next e => exact fst_inv (moveOut_inv h) e

theorem answerBindOutput_inv {out : ℕ} (h : s.Inv) : (answerBindOutput m ep launch out src s).Inv := ite_inv h h

theorem answerWindow_inv {port : ℕ} (h : s.Inv) : (answerWindow m ep n port s).1.Inv := by
  refine fst_ite_inv h ?_
  dsimp only
  split <;> exact foldl_inv (fun _ h1 _ => (deliverRemote_sameMem ..).inv h1) h

theorem answer_inv (h : s.Inv) : (answer m image s).1.Inv := by
  refine fst_ite_inv h (fst_ite_inv h ?_)
  split
  · exact h
  · exact answerLaunch_inv h
  · exact answerQuery_inv h
  · exact answerPageIn_inv h
  · exact answerPageOut_inv h
  · exact h
  · exact answerBindOutput_inv h
  · exact answerWindow_inv h
  · exact h

theorem request_inv {want : Ask → Bool} (h : s.Inv) : AnswersInv (request want m image s) := by
  refine answers_ite h (answers_ite h ?_)
  split
  next e2 => exact fst_inv (answer_inv h) e2
  next e2 => exact (fst_inv (answer_inv h) e2).congr rfl

theorem pageAnswered_inv {q : PageRequest} {status : ℕ} (h : s.Inv) : (pageAnswered q status image s).Inv := by
  delta pageAnswered
  extract_lets va t
  have ht : t.Inv := h
  clear_value t
  split
  · exact ite_inv ht (ite_inv (ite_inv (bringIn_inv h) ht) (ite_inv ht ht))
  · exact (reportLeg_sameMem ..).inv h
  · exact reportLeaf_inv ht

theorem execPageResponse_inv {l : MsgLink} {h : MsgHead} {body : List Byte} (hs : s.Inv) :
    AnswersInv (execPageResponse l h body image s) := by
  refine answers_ite hs ?_
  split
  · exact pageAnswered_inv hs
  · exact hs

theorem powerCycle_inv {r : PowerOn} : (powerCycle s r).Inv := rfl

theorem maskUnit_inv {u : ℕ × ℕ} (h : s.Inv) : (maskUnit s u).Inv := h

theorem writeStripes_inv (h : s.Inv) : (writeStripes s).Inv := nextTick_inv (h.congr rfl)

theorem almanacFails_inv {u : BitVec 2 × ℕ × BitVec 32} (h : s.Inv) : (almanacFails s u).Inv := by
  unfold almanacFails
  dsimp only
  have hf := leaseFails_inv (leaseFails_inv (setLease_inv h (cls := u.1.toNat) (unit := u.2.1) (l := .leased))
    (cls := u.1.toNat) (unit := u.2.1) (patid := u.2.2)) (cls := u.1.toNat) (unit := u.2.1) (patid := u.2.2)
  have hp := execPseudoChannelRemap_inv hf (pch := u.2.1)
  refine ite_inv h ?_
  split
  next e =>
    rw [e] at hp
    exact ite_inv hp hf
  · exact hf
  · exact hf

theorem execPowerOn_inv {r : PowerOn} : AnswersInv (execPowerOn r s) := by
  have h0 : (powerCycle s r).Inv := powerCycle_inv
  delta execPowerOn
  generalize powerCycle s r = u at h0
  extract_lets u' v w z
  have hv : v.Inv := h0
  have hw : w.Inv := writeStripes_inv (foldl_inv (fun _ h _ => maskUnit_inv h) hv)
  have hz : z.Inv := foldl_inv (fun _ h _ => almanacFails_inv h) hw
  clear_value z
  exact answers_ite h0 (answers_ite h0 (answers_ite h0 (answers_ite hv hz)))

/-! ## One step (`Machine/Issue`) -/

theorem markBegan_inv (h : s.Inv) : (markBegan s).Inv := by
  refine ite_inv h ?_
  dsimp only
  split
  · exact ite_inv h h
  · exact h

theorem exec_inv (i : Instr) (h : s.Inv) : AnswersInv (exec i s) := by
  unfold exec
  cases i with
  | add | sub | and | or | xor | sll | srl | sra | slt | sltu | min | max | minu | maxu | clz | ctz | popc | addSat | subSat
    | bfx | bfxu | bfi | fsl | fsr | mul | mulh | mulhu | mulhsu | div | divu | rem | remu | divSat | addi | andi | ori |
    xori | slti | sltiu | slli | srli | srai | rori | lui | addpc | vsetvl | mdetach | mexit => exact h
  | ld => exact execLd_inv h
  | st => exact execSt_inv h
  | amoadd | amomin | amomax | amominu | amomaxu | amoand | amoor | amoxor | amoswap | amocas => exact atomic_inv h
  | ldNc => exact execLdNc_inv h
  | beq | bne | blt | bge | bltu | bgeu => exact branch_inv h
  | jal => exact jumpLink_inv h
  | jalr => exact execJalr_inv h
  | bstrip => exact execBstrip_inv h
  | loop => exact execLoop_inv h
  | eret => exact execEret_inv h
  | halt => exact endStep_inv h
  | wait => exact execWait_inv h
  | brk | trap => exact takeTrap_inv h
  | crd => exact execCrd_inv h
  | cwr | cset | ccl => exact updateCreg_inv h
  | fence => exact execFence_inv h
  | rel => exact execRel_inv h
  | strel => exact execStrel_inv h
  | ldacq => exact execLdacq_inv h
  | drain => exact execDrain_inv h
  | turn => exact execTurn_inv h
  | turnq => exact execTurnq_inv h
  | qsend => exact execQsend_inv h
  | qrecv => exact execQrecv_inv h
  | qpoll => exact execQpoll_inv h
  | qpush => exact execQpush_inv h
  | tspawn => exact execTspawn_inv h
  | tdep => exact execTdep_inv h
  | tdone => exact execTdone_inv h
  | gbar => exact execGbar_inv h
  | tyield => exact execTyield_inv h
  | vadd | vsub | vmul | vmulh | vmulhu | vdiv | vdivu | vrem | vremu | vmin | vmax | vminu | vmaxu | vand | vor | vxor |
    vavg | vabsd | vsll | vsrl | vsra | vrol | vbfx | vbfxu => exact vv_inv h
  | vaddx | vsubx | vrsubx | vmulx | vmulhx | vdivx | vdivux | vremx | vremux | vminx | vmaxx | vminux | vmaxux | vandx |
    vorx | vxorx => exact vx_inv h
  | vmacc | vmsac | vbfi | vfsl | vfsr => exact vvd_inv h
  | vneg | vabs | vnot | vsqrt | vclz | vctz | vpopc | vmv | vaddi | vrsubi | vandi | vori | vxori | vslli | vsrli | vsrai |
    vmini | vmaxi => exact v1_inv h
  | vcmpVv | vcmpVx => exact compare_inv h
  | pand | por | pxor | pandn | pnot => exact predLogic_inv h
  | pleadIncl | pleadExcl | ppopc | pfind | pset | vcompress | vmvx | vins => exact whole_inv h
  | vslideup | vslidedn | vrgather | viota => exact permute_inv h
  | vsplat | vsplati => exact elementWise_inv h
  | vredsum | vredmin | vredmax | vredminu | vredmaxu | vredand | vredor | vredxor => exact reduction_inv h
  | vscansum | vscanmax | vscanmin => exact scan_inv h
  | vcvt | vquant | vdquant => exact answers_ite (takeTrap_inv h) (answers_ite (takeTrap_inv h) h)
  | vldUnit | vldStrided | vldIndexed => exact vld_inv h
  | vldff => exact execVldff_inv h
  | vstUnit | vstStrided | vstIndexed => exact vst_inv h
  | vldl => exact execVldl_inv h
  | vstl => exact execVstl_inv h
  | sfull | sempty | sprobe => exact lineM_inv (fun _ _ h => h) h
  | vamoadd | vamomin | vamomax | vamominu | vamomaxu | vamoand | vamoor | vamoxor | vamoswap => exact vamo_inv h
  | redst => exact execRedst_inv h
  | gather => exact execGather_inv h
  | mattach => exact execMattach_inv h
  | mmode => exact execMmode_inv h
  | mzero | mrank | mcvt => exact tileIssue_inv h fun _ => h
  | mma | mmas => exact matProduct_inv h
  | mld => exact execMld_inv h
  | mst => exact execMst_inv h
  | cpset => exact execCpset_inv h
  | cpgo => exact execCpgo_inv h
  | cpq => exact execCpq_inv h
  | swm => exact execSwm_inv h
  | swin => exact execSwin_inv h
  | semit => exact execSemit_inv h
  | sidle => exact execSidle_inv h
  | capq => exact execCapq_inv h
  | outboundDrain => exact execOutboundDrain_inv h
  | o3Writeback => exact execO3Writeback_inv h
  | multicastReserveForward => exact execMulticastReserveForward_inv h
  | copyCommand => exact execCopyCommand_inv h
  | engineFaultDelivery => exact execEngineFaultDelivery_inv h
  | interrupt => exact execInterrupt_inv h
  | barrierOpen => exact execBarrierOpen_inv h
  | tileGrantWaiter => exact execTileGrantWaiter_inv h
  | walkerEmit => exact execWalkerEmit_inv h
  | residencyGranted => exact execResidencyGranted_inv h
  | residencyFailed => exact execResidencyFailed_inv h
  | aging => exact execAging_inv h
  | stageRecord => exact execStageRecord_inv h
  | preloadLineLand => exact execPreloadLineLand_inv h
  | hartStart => exact execHartStart_inv h
  | budgetOverrun => exact execBudgetOverrun_inv h
  | machineFault => exact execMachineFault_inv h
  | correctedError => exact execCorrectedError_inv h
  | stepRetire => exact execStepRetire_inv h
  | completionRecordWrite => exact execCompletionRecordWrite_inv h
  | timerDeadline => exact execTimerDeadline_inv h
  | pageMoveIn => exact execPageMoveIn_inv h
  | pageMoveOut => exact execPageMoveOut_inv h
  | extend => exact execExtend_inv h
  | retry => exact execRetry_inv h
  | kill => exact execKill_inv h
  | preempt => exact execPreempt_inv h
  | timer => exact execTimer_inv h
  | bindRecordWrite => exact execBindRecordWrite_inv h
  | routeInstall => exact execRouteInstall_inv h
  | routeRemove => exact execRouteRemove_inv h
  | crngWrite => exact execCrngWrite_inv h
  | graphEnable => exact execGraphEnable_inv h
  | graphDisable => exact execGraphDisable_inv h
  | scdataWrite => exact execScdataWrite_inv h
  | lcmd => exact execLcmd_inv h
  | tlbInvalidation => exact execTlbInvalidation_inv h
  | registerWrite => exact execRegisterWrite_inv h
  | launch | querySelfTest | queryCapv | queryRetirementLog | queryLiveLaunches | pageToDevice | pageToHost |
    streamBindSource | streamBindOutput | window | getVersion | getCapabilities | negotiateAlgorithms | getDigests |
    getCertificate | challenge | getMeasurements | unsupportedRequest => exact request_inv h
  | pageResponse => exact execPageResponse_inv h
  | remoteWrite => exact execRemoteWrite_inv h
  | remoteRead => exact execRemoteRead_inv h
  | discardedPacket => exact execDiscardedPacket_inv h
  | streamRecord => exact execStreamRecord_inv h
  | watermarkRecord => exact execWatermarkRecord_inv h
  | idleTimeout => exact execIdleTimeout_inv h
  | amenddelayExpiry => exact execAmenddelayExpiry_inv h
  | outputWatermark => exact execOutputWatermark_inv h
  | slotReclaim => exact execSlotReclaim_inv h
  | stalledRecordDeposit => exact execStalledRecordDeposit_inv h
  | leaseInterval => exact execLeaseInterval_inv h
  | leasePatienceExpiry => exact execLeasePatienceExpiry_inv h
  | drainComplete => exact execDrainComplete_inv h
  | patternRunComplete => exact execPatternRunComplete_inv h
  | pseudoChannelRemap => exact execPseudoChannelRemap_inv h
  | scoreHalving => exact execScoreHalving_inv h
  | powerOn => exact execPowerOn_inv
  | thermalStep => exact execThermalStep_inv h
  | energyInterval => exact execEnergyInterval_inv h
  | illegalWord => exact execIllegalWord_inv h
  | fetchFault => exact execFetchFault_inv h
  | managementCoreStore => exact execManagementCoreStore_inv h
  | ieee1588Sync => exact timeReaches_inv h

theorem issue_inv {w : BitVec 32} (h : s.Inv) : AnswersInv (issue w s) := by
  unfold issue
  split
  · exact execIllegalWord_inv h
  · split
    next e => exact exec_inv _ (snd_inv (fetchWord_safe h) e)
    · exact execFetchFault_inv h

theorem boundary_inv (h : s.Inv) : AnswersInv (boundary s) := by
  unfold boundary
  split
  · exact finishStop_inv h
  · split
    · exact h
    · refine answers_ite h (answers_ite h ?_)
      split
      · exact execEngineFaultDelivery_inv h
      · split
        · exact execInterrupt_inv h
        · have hm : (markBegan s).Inv := markBegan_inv h
          dsimp only
          split
          · exact issue_inv hm
          · exact execFetchFault_inv hm

theorem runCore_inv {units : Option ℕ} (h : s.Inv) : AnswersInv (runCore core units s) := by
  unfold runCore
  split
  next k _ => exact boundary_inv (s := { switchTo s k with units := _ }) (switchTo_inv h)
  · exact h

theorem performEvent_inv {i : Instr} (h : s.Inv) : AnswersInv (performEvent i s) := answers_ite h (exec_inv i h)

theorem resumeConn_inv {conn : ℕ} (h : s.Inv) : (resumeConn conn s).Inv := by
  unfold resumeConn
  split
  · split
    next e => exact (fst_inv (answer_inv h) e).congr rfl
    next e => exact fst_inv (answer_inv h) e
  · exact h

theorem perform_inv (a : Act) (h : s.Inv) : AnswersInv (perform a s) := by
  cases a with
  | run => exact runCore_inv h
  | event => exact performEvent_inv h
  | expire => exact execLeasePatienceExpiry_inv h
  | resume => exact resumeConn_inv h

theorem step_inv (h : s.Inv) : AnswersInv (step s) := by
  unfold step
  split
  next rest _ => exact perform_inv (s := { s with agenda := rest }) _ h
  · exact perform_inv (s := nextTick s) _ h

end

/-- Settles O59: the form is an invariant of `step`, case by case over the agenda, the instructions and the events. -/
theorem stepKeepsMemoryForm : Obligations.StepKeepsMemoryForm := by
  unfold Obligations.StepKeepsMemoryForm
  intro s t h e
  have ht : AnswersInv (step s) := step_inv h
  rw [e] at ht
  exact ht

end Sys2Proof.Machine
end

