-- ==== Sys2Proof/Proofs/ManagementRegisters.lean ====
section
/-! SUPPORT. What firmware writes into the registers of the management core (R19, R87, R367, R397, R403, R423): MEMZONE by its
lock, the registers of a graph by EN, and one lease period by its class. -/

namespace Sys2Proof.Machine

section
variable {s : State} {v : Word}

theorem writeMemzone_locked (h : s.memzone.getLsbD 63 = true) : writeMemzone s v = s := if_pos h

theorem writeMemzone_open (h : s.memzone.getLsbD 63 = false) : writeMemzone s v = { s with memzone := v &&& 0x800000000000003F } :=
  if_neg (by rw [h]; decide)

theorem writeGraph_enabled {gi : Nat} {f : Graph → Graph} (h : (graphAt s gi).en = true) : writeGraph s gi f = s := if_pos h

theorem writeGraph_disabled {gi : Nat} {f : Graph → Graph} (h : (graphAt s gi).en = false) :
    writeGraph s gi f = setGraph s gi (f (graphAt s gi)) := if_neg (by rw [h]; decide)

end

/-- What a vector lists after one of its entries is set. -/
theorem toList_getD_set {α : Type} {n : Nat} (x : Vector α n) (i j : Nat) (hi : i < n) (hj : j < n) (a d : α) :
    (x.set i a hi).toList.getD j d = if j = i then a else x.toList.getD j d := by
  by_cases h : j = i
  · subst h; simp [hj]
  · simp [h, Ne.symm h]

/-- Settles O54: the arms of `execRegisterWrite`, register by register; the clauses with a hypothesis say which way the lock or EN
decides. -/
theorem managementRegisters : Obligations.ManagementRegisters := by
  unfold Obligations.ManagementRegisters
  intro s v cls gb
  refine ⟨rfl, rfl, rfl, rfl, rfl, rfl, rfl, ?locked, ?unlocked, rfl, ?period, rfl, rfl, rfl, rfl, ?enabled, ?disabled⟩
  case locked => exact fun h => congrArg Host.Outcome.next (writeMemzone_locked h)
  case unlocked => exact fun h => congrArg Host.Outcome.next (writeMemzone_open h)
  case period => exact ⟨_, rfl, fun c hc => toList_getD_set s.svc.lperiod cls.toNat c cls.isLt hc (v.setWidth 32) 0⟩
  case enabled =>
    intro h
    have keeps : ∀ f, Host.Outcome.next (writeGraph s gb.toNat f) = (.next s : Result) := fun f =>
      congrArg Host.Outcome.next (writeGraph_enabled h)
    exact ⟨keeps _, keeps _, keeps _, keeps _⟩
  case disabled =>
    intro h
    have sets : ∀ f, Host.Outcome.next (writeGraph s gb.toNat f) = (.next (setGraph s gb.toNat (f (graphAt s gb.toNat))) : Result) :=
      fun f => congrArg Host.Outcome.next (writeGraph_disabled h)
    exact ⟨sets _, sets _, sets _, sets _⟩

end Sys2Proof.Machine
end

