-- ==== Sys2Proof/Proofs/ReserveEntries.lean ====
section
/-! SUPPORT. MULTICAST_RESERVE_FORWARD where the one flit of the mesh stands in a reserve entry of another router than the event's
(R118): the event passes it over, and the flit moves on at its own router, or stays, as that branch is free. -/

namespace Sys2Proof.Machine

section
variable {s : State} {f : Flit} {n origin router input port : Nat}

/-- The reserve entries of a router hold nothing where the mesh has a flit of another router alone. -/
theorem leaveReserve_elsewhere (hm : s.mesh = [⟨f, origin, router, input, some port⟩]) (hr : router ≠ n) (out : Nat) :
    leaveReserve s n out = s := by
  unfold leaveReserve
  rw [hm]
  simp [hr]

/-- No flit of an empty mesh moves. -/
theorem meshRun_empty {apply : State → Nat → Flit → State} {blocked : Nat → Nat → Bool} (hm : s.mesh = []) :
    ∀ k, meshRun apply blocked k s = s
  | 0 => rfl
  | k + 1 => by simp [meshRun, meshMove, hm, meshNext]

/-- The flit of a reserve entry for the router's own port, alone in the mesh, is applied there unless that branch is blocked. -/
theorem flow_reserveEntry (hm : s.mesh = [⟨f, origin, router, input, some 0⟩]) :
    flow s = nextTick (if Config.blocked s.tick (8 * router) then s else applyFlit { s with mesh := [] } router f) := by
  have up : branchBlocked s router 0 = Config.blocked s.tick (8 * router) := rfl
  have run : flow s = nextTick (meshRun applyFlit (branchBlocked s) (400 * s.mesh.length + 399 + 1) s) := rfl
  rw [run, meshRun]
  cases hb : Config.blocked s.tick (8 * router)
  · have moves : meshMove applyFlit (branchBlocked s) s = some (applyFlit { s with mesh := [] } router f) := by
      simp [meshMove, hm, meshNext, up, hb, leavePort]
    rw [moves]
    exact congrArg nextTick (meshRun_empty (applyFlit_mesh ..) _)
  · have stays : meshMove applyFlit (branchBlocked s) s = none := by simp [meshMove, hm, meshNext, up, hb]
    rw [stays]
    rfl

/-- What the event of a router does to a flit that waits in another router's reserve. -/
theorem forward_elsewhere (hm : s.mesh = [⟨f, origin, router, input, some 0⟩]) (hr : router ≠ n) (out : Nat) :
    exec (.multicastReserveForward ⟨n, out⟩) s =
      .next (nextTick (if Config.blocked s.tick (8 * router) then s else applyFlit { s with mesh := [] } router f)) := by
  rw [← flow_reserveEntry hm]
  exact congrArg (fun u => Host.Outcome.next (flow u)) (leaveReserve_elsewhere hm hr out)

end

/-- Refutes O47: a `MeshFlit` lists its router after its origin, so the mesh that the statement calls waiting at router `n` holds a flit
that set out at `n` and stands at the router `origin`. After reset, with a count of 5 in the reserve of router 1, the event of router 0
leaves it in the mesh where branch 0 of router 1 is blocked, and else brings it to cluster 1: in neither case is the mesh empty and the
count at cluster 0. -/
theorem not_memoryEvents : ¬ Obligations.MemoryEvents := by
  unfold Obligations.MemoryEvents
  intro h
  obtain ⟨-, -, -, -, -, count, -⟩ := h { State.reset with mesh := [⟨.count 1 1 3 5, 0, 1, 0, some 0⟩] }
    0 0 0 0 0 0 0 0 0 0 default 1 0 0 1 3 0 1 0 5 (.plain 0 0) none [] 0 [] 0 0
  obtain ⟨t, ran, empty, shown, -⟩ := count rfl rfl (by decide)
  rw [forward_elsewhere (n := 0) rfl (by decide)] at ran
  obtain rfl := Host.Outcome.next.inj ran
  split at empty
  · exact absurd empty (by decide)
  · rename_i free
    rw [if_neg free] at shown
    exact absurd shown (by decide)

end Sys2Proof.Machine
end

