-- ==== Sys2Proof/Proofs/LiveSteps.lean ====
section
/-! SUPPORT. A live launch and its first step, from which the states of counterexamples are built, and the state that an event
answers. -/

namespace Sys2Proof.Machine

/-- Launch 1 of some steps, of which some are emitted, with its top-level table at address 0 and a step descriptor. -/
def liveLaunch (total emitted : Nat) (desc : List Word) : LaunchRec where
  id := 1
  blk := []
  desc := desc
  pipes := []
  table := 0
  standing := false
  total := total
  emitted := emitted
  completed := 0
  firings := 0
  deferred := []
  ended := false
  accepted := 0
  cycles := 0
  energy := 0
  msg := none
  outwm := 0

/-- The handle of the first step of launch 1 (R67). -/
def firstHandle : Nat := 2 ^ 24

/-- The first step of a launch, as the walker emits it. -/
def firstStep (l : LaunchRec) : StepRec := newStep l firstHandle [] 0 0 true 0 none

/-- The next state that an event answers. -/
def answered (r : Result) : Option State :=
  match r with
  | .next t => some t
  | .fault _ => none
  | .refused _ => none

/-- What is computed of the answered state holds of it. -/
theorem of_answered {α : Type} {r : Result} {t : State} {f : State → α} {a : α} (h : (answered r).map f = some a)
    (ht : r = .next t) : f t = a := by
  subst ht
  exact Option.some.inj h

end Sys2Proof.Machine
end

