-- ==== Sys2Proof/Proofs/RetriedFetches.lean ====
section
/-! SUPPORT. A trap whose fault record cannot be written yet (R350): one of a fetch is met again, and leaves no mark on the hart, where
any other leaves its instruction waiting (R425). -/

namespace Sys2Proof.Machine

section
variable {s u : State} {t : TrapInfo} {leg : Option (Nat × Nat)}

/-- A fetch that faults is tried again while its fault record cannot be written. -/
theorem execFetchFault_retries (hi : issues s = true) (hf : fetchWord s = (.error (.trap t), u)) (hl : recordLeg u = some leg) :
    exec .fetchFault s = .next (reportLeg u leg) := by
  have run : exec .fetchFault s = execFetchFault s := rfl
  simp [run, execFetchFault, hi, hf, hl]

/-- The instruction of any other trap waits while the fault record cannot be written. -/
theorem takeTrap_waits (hc : t.cause ≠ 0x10) (hl : recordLeg u = some leg) : takeTrap u t = waiting (reportLeg u leg) := by
  unfold takeTrap
  rw [if_neg hc, hl]

/-- No state in which the acting hart does not wait is one in which it waits. -/
theorem ne_waiting (h : u.hart.waits = false) : u ≠ waiting u :=
  fun e => Bool.noConfusion (h.symm.trans (congrArg (·.hart.waits) e))

/-- Nothing is fetched at a misaligned pc (R200). -/
theorem fetchWord_misaligned (h : (s.hart.pc.extractLsb' 0 2 != 0) = true) :
    fetchWord s = (.error (.trap (TrapInfo.plain 0x03 s.hart.pc)), { s with ir := 0 }) := if_pos h

end

/-- A hart that stands at a misaligned pc, while the page of its FRECBASE, which its core's TLB maps, moves out (R150). -/
def misalignedWhileMoving : State := { State.reset with
  hart := { Hart.reset with pc := 1, frecbase := 64 }
  slots := [(0, { Slot.reset with st := .running })]
  cores := [(0, { CoreSt.reset with tlb := [⟨0, 0, false, 0x8C00000000010000⟩] })]
  ports := { Ports.reset with moving := [(0, 0, 3)] } }

/-- The record of its fault waits for the page, and no leg of the mesh is to blame. -/
theorem misalignedWhileMoving_recordLeg : recordLeg misalignedWhileMoving = some none := by decide

/-- Refutes O55: the statement has a fetch that faults end as `takeTrap` says, which marks the hart as waiting while its fault record
cannot be written, as here, where the page of FRECBASE moves out. FETCH_FAULT leaves no such mark: nothing has issued, and the fetch
is tried again (R350, R425). -/
theorem not_serviceEvents : ¬ Obligations.ServiceEvents := by
  unfold Obligations.ServiceEvents
  intro h
  let s := misalignedWhileMoving
  have faults : fetchWord s = (.error (.trap (TrapInfo.plain 0x03 1)), s) := fetchWord_misaligned (by decide)
  have acts : issues s = true := by decide
  obtain ⟨-, -, -, -, -, -, -, -, -, -, -, -, -, -, -, -, -, -, -, -, -, -, -, -, -, -, -, -, -, -, traps, -⟩ :=
    h s 0 0 0 0 0 0 0 0 default 0 (firstStep (liveLaunch 1 1 [])) 0 0 (TrapInfo.plain 0x03 1) s
  have taken := traps acts faults
  rw [takeTrap_waits (by decide) misalignedWhileMoving_recordLeg,
    execFetchFault_retries acts faults misalignedWhileMoving_recordLeg] at taken
  exact ne_waiting rfl (Host.Outcome.next.inj taken)

end Sys2Proof.Machine
end

