-- ==== Sys2Proof/Proofs/StoppedHarts.lean ====
section
/-! SUPPORT. A PREEMPT of a step whose slot's record names it, where the hart in the slot bears the handle of no step. -/

namespace Sys2Proof.Machine

/-- The first step of launch 1 runs and is not retryable. -/
def runningStep : StepRec := { firstStep (liveLaunch 1 1 []) with place := .running }

/-- A command of slot 0 with the copy sequencer, for that step. -/
def copyOfSlot0 : CopyCmd :=
  ⟨0, 0, firstHandle, Vector.replicate 12 ⟨1, 0, 0⟩, 0, 0, 0, 0, 0, false, false, .core, false, false, 0, false, 0, 0⟩

/-- DHANDLE names the step, and the record of slot 0 is its; STEPH of the hart in the slot is 0. -/
def otherSteph : State := { State.reset with
  slots := [(0, { Slot.reset with st := .running, rcd := [BitVec.ofNat 64 firstHandle] })]
  clusters := [(0, { ClusterSt.reset with copyq := [copyOfSlot0] })]
  disp := { Dispatcher.reset with dhandle := BitVec.ofNat 32 firstHandle, steps := [runningStep] } }

/-- The model finds a stopped hart by its STEPH, and so does not find this one. -/
theorem preempt_otherSteph_stopped : (answered (exec (.preempt true) otherSteph)).map (stopped · 0) = some false := by decide

/-- Refutes O50: its hypotheses tie the record of the slot to the step, and not STEPH of the slot's hart, by which `stopped` finds the
step. In the state `otherSteph`, which no run reaches, a PREEMPT that finds the step's copy command outstanding stops the step
(R362), and `stopped` does not say so of its slot. -/
theorem not_endingEvents : ¬ Obligations.EndingEvents := by
  unfold Obligations.EndingEvents
  intro h
  obtain ⟨-, -, -, -, -, -, -, -, -, commands, -⟩ :=
    h otherSteph runningStep 0 ⟨0, [], false⟩ [] ⟨0, false, 0, 0, []⟩ 0 true false 0 0
  obtain ⟨-, -, -, -, -, -, -, -, -, -, switchOut, -⟩ := commands (by decide) (by decide)
  obtain ⟨t, -, ran, -, -, -, -, -, stops⟩ := switchOut (by decide) (by decide) (by decide) (by decide)
  exact Bool.noConfusion ((of_answered preempt_otherSteph_stopped ran).symm.trans stops)

end Sys2Proof.Machine
end

