-- ==== Sys2Proof/Proofs/ResidencyScores.lean ====
section
/-! SUPPORT. A step is emitted whose residency test meets a table entry that fails the walker's check: the scores rise, a core's
lease starts at once, and the step bound to that core goes back (R69, R170, R390, R398). -/

namespace Sys2Proof.Machine

/-- A launch of two steps, the first emitted, with one `in` region of 128 bytes at address 0. -/
def halfEmitted : LaunchRec := liveLaunch 2 1 [0, 0x10000, 0, 0, 0, 0, 0, 0, 0, 128, 0, 0, 0, 0, 0, 0]

/-- Its first step, bound to core 0. -/
def boundStep : StepRec := { firstStep halfEmitted with place := .bound, recs := [(0, [BitVec.ofNat 64 firstHandle])] }

/-- A granule of core 0 whose reserved metadata bits are not 0 (R99). -/
def spoiledGranule : Granule := ⟨0, (1 : Meta) <<< 60 ||| packMeta 0 4 0 0⟩

/-- The top-level table of the launch lies in that granule, and core 0 has a score of 1000. -/
def spoiledTable : State := { State.reset with
  cores := [(0, { CoreSt.reset with bindq := [firstHandle] })]
  o3 := [(0, ⟨spoiledGranule, none, 0, false, false, 0, 0⟩)]
  disp := { Dispatcher.reset with launches := [halfEmitted], steps := [boundStep] }
  svc := { Service.reset with scores := [(0, 1000)] } }

/-- The walker's act unbinds the first step. -/
theorem walkerEmit_unbinds :
    (answered (exec (.walkerEmit 1) spoiledTable)).map (·.disp.steps.head?.map (·.place)) = some (some .queued) := by decide

/-- Refutes O48: the statement has WALKER_EMIT add its step to the others and leave them as they are, whatever the residency test
meets. In the state `spoiledTable` the table entry fails its check, which brings the score of core 0 past 1024: its lease starts
(R398), and the step bound to it goes back to the step queues (R390). -/
theorem not_dispatchEvents : ¬ Obligations.DispatchEvents := by
  unfold Obligations.DispatchEvents
  intro h
  obtain ⟨walks, -⟩ := h spoiledTable 1 0 0 0 0 halfEmitted boundStep [] ⟨0, 0, 0⟩ [] [] 0 0 0 0 0 (.plain 0 0)
  obtain ⟨t, q, ran, -, steps, -⟩ := walks (by decide) rfl rfl (by decide) (by decide)
  have unbound := of_answered walkerEmit_unbinds ran
  rw [steps] at unbound
  have kept : some Place.bound = some Place.queued := unbound
  exact absurd kept (by decide)

end Sys2Proof.Machine
end

