-- ==== Sys2Proof/Proofs/HeldByTwo.lean ====
section
/-! SUPPORT. Two retryable steps of one cluster hold the same granule of its matrix unit: the retirement turn of the one that formed it
first meets the newer form, which the other holds, and asks PUB of that one (R106, R108). -/

namespace Sys2Proof.Machine

/-- Every way through the mesh is open while nothing is leased. -/
theorem allUp_of_noLease {s : State} (h : s.svc.lease = []) : allUp s := by
  have up : ∀ link, pairUp s link = true := fun link => by simp [pairUp, inService, leaseOf, h, tgetD, tget]
  intro a b
  simp [routeUp, rowUp, columnUp, up]

/-- The first step of launch 1 runs, may be rerun twice, and all its harts are done. -/
def retryableStep : StepRec := { firstStep (liveLaunch 2 2 []) with place := .running, retries := 2 }

/-- A granule of the matrix unit of cluster 0. -/
def unitGranule : Granule := ⟨0, packMeta 1 0 (prodMatrix 0) 0⟩

/-- An O2 entry of that granule, held for a step and formed at a place in the order. -/
def heldEntry (handle seq : Nat) : OutEntry := ⟨unitGranule, some handle, seq, false, false, 0, seq⟩

/-- A slot that runs the hart of a step whose record has PUB 1. -/
def recordSlot (handle : Nat) : Slot :=
  { Slot.reset with st := .running, rcd := [BitVec.ofNat 64 handle ||| (1 : Word) <<< 42] }

/-- The O2 of cluster 0 holds granule 8 for the step of core 0 and, formed later with the same bytes, for the launch's second step,
which runs on core 1. -/
def heldByTwo : State := { State.reset with
  hart := { Hart.reset with steph := BitVec.ofNat 32 firstHandle, tdone := some 0 }
  slots := [(0, recordSlot firstHandle), (2, recordSlot (firstHandle + 1))]
  clusters := [(0, { ClusterSt.reset with o2held := [(8, heldEntry (firstHandle + 1) 2), (8, heldEntry firstHandle 1)] })]
  disp := { Dispatcher.reset with launches := [liveLaunch 2 2 []], steps := [retryableStep, { retryableStep with handle := firstHandle + 1 }], seq := 3 } }

theorem heldGranules_heldByTwo : heldGranules heldByTwo firstHandle = [(8, 0, heldEntry firstHandle 1)] := by rfl

/-- The newest form is the other step's, of the same bytes. -/
theorem turnFind_unhold : turnFind (unhold heldByTwo firstHandle) 0 8 = some (.held 2, unitGranule) := by rfl

/-- After the retirement it still is, with its level. -/
theorem turnFind_stepRetire : (answered (exec (.stepRetire firstHandle) heldByTwo)).map (turnFind · 0 8) =
    some (some (.held 2, unitGranule)) := by rfl

theorem clusterRoom_heldByTwo (n : Nat) : ClusterRoom heldByTwo n 1 := by
  by_cases h : n = 0
  · subst h; exact ⟨by decide, by decide⟩
  · have other : clusterAt heldByTwo n = ClusterSt.reset := by simp [clusterAt, heldByTwo, tgetD, tget, Ne.symm h]
    unfold ClusterRoom o2Bytes
    rw [other]
    decide

/-- Refutes O49: of a granule that a retiring step held, the statement has PUB reach the newest form, wherever that is but in another
cluster. In the state `heldByTwo` the newest form is one that another retryable step of the cluster holds, of the same bytes: the turn
records PUB as the level asked of it (R108), and it keeps its level 0. -/
theorem not_retirement : ¬ Obligations.Retirement := by
  unfold Obligations.Retirement
  intro h
  let x : Nat × Nat × OutEntry := (8, 0, heldEntry firstHandle 1)
  have ready : retiring heldByTwo retryableStep (liveLaunch 2 2 []) [0] := by unfold retiring; decide
  have only : ∀ y ∈ heldGranules heldByTwo firstHandle, y = x := by simp [heldGranules_heldByTwo, x]
  have sound : ∀ p g, turnFind (unhold heldByTwo firstHandle) 0 8 = some (p, g) → g.metaKind = none := by
    intro p g found
    obtain ⟨-, rfl⟩ := Prod.mk.inj (Option.some.inj (turnFind_unhold.symm.trans found))
    decide
  obtain ⟨-, -, publishes, -⟩ := h heldByTwo retryableStep (liveLaunch 2 2 []) [0] 0 0 0 (heldEntry 0 0) ready rfl
  obtain ⟨t, ran, -, -, raises⟩ := publishes rfl rfl (allUp_of_noLease rfl) rfl (by decide) (by decide)
    (fun y hy p g found => by rw [only y hy] at found; exact sound p g found) (by decide)
  obtain ⟨p, g, found, low, -⟩ := raises (by decide) (by decide) clusterRoom_heldByTwo (heldGranules_heldByTwo ▸ by decide) x
    (heldGranules_heldByTwo ▸ List.mem_singleton.mpr rfl) (by decide) (by decide) (by decide) ⟨_, turnFind_unhold, by decide⟩
  rw [of_answered turnFind_stepRetire ran] at found
  obtain ⟨-, rfl⟩ := Prod.mk.inj (Option.some.inj found)
  exact absurd low (by decide)

end Sys2Proof.Machine
end

