-- ==== Sys2Proof/Proofs/ResetState.lean ====
section
/-! SUPPORT. What the levels and the registers hold after reset (R63, R72, R100, R102). -/

namespace Sys2Proof.Machine

/-- HBM holds the fill in every granule after reset (R100). -/
theorem hbmGranule_reset (gran : Nat) : hbmGranule State.reset gran = ⟨0, resetMeta⟩ := by
  have zero : Memory.readN State.reset.mem (64 * gran) 64 = 0 := Memory.readN_unlisted _ _ _ (by simp [State.reset])
  unfold hbmGranule
  rw [zero]
  rfl

/-- The fill is a granule of the management core at LEVEL 4 that passes its check (R100, R158). -/
theorem resetFill_fields : let g : Granule := ⟨0, resetMeta⟩
    g.data = 0 ∧ g.prod = 465 ∧ g.level = 4 ∧ g.rc = 0 ∧ g.verifies = true := by decide +kernel

/-- Settles O60: HBM holds the fill, every other value is read off the reset state. -/
theorem resetLeaves : Obligations.ResetLeaves := by
  unfold Obligations.ResetLeaves
  refine ⟨rfl, fun gran => ?_, rfl, rfl, fun _ => ⟨rfl, rfl⟩, fun _ => ⟨rfl, rfl⟩, fun _ => rfl, fun _ => rfl,
    rfl, rfl, rfl, rfl, rfl, rfl, rfl, rfl, rfl⟩
  rw [hbmGranule_reset]
  exact resetFill_fields

end Sys2Proof.Machine
end

