-- ==== Sys2Proof/Proofs/HalfLines.lean ====
section
/-! SUPPORT. What a table holds after a write, and an inbound level that holds one granule of each of its lines: made whole (R94), it
counts twice the lines that it counted, and has none to give up. -/

namespace Sys2Proof.Machine

/-! ## Tables -/

theorem length_tput_of_none {α : Type} {n : Nat} {a : α} : ∀ {t : Tbl α}, tget t n = none → (tput t n a).length = t.length + 1
  | [], _ => rfl
  | (k, b) :: t, absent => by
    have ne : k ≠ n := fun e => by simp [tget, e] at absent
    have rest : tget t n = none := by simpa [tget, ne] using absent
    by_cases before : n < k
    · simp [tput, before]
    · simp [tput, before, ne, length_tput_of_none rest]

theorem mem_of_mem_tput {α : Type} {x : Nat × α} {n : Nat} {a : α} : ∀ {t : Tbl α}, x ∈ tput t n a → x = (n, a) ∨ x ∈ t
  | [], h => .inl (List.mem_singleton.mp h)
  | (k, b) :: t, h => by
    unfold tput at h
    split at h
    · exact List.mem_cons.mp h
    · split at h
      · exact (List.mem_cons.mp h).imp_right (List.mem_cons_of_mem _)
      · rcases List.mem_cons.mp h with rfl | h
        · exact .inr List.mem_cons_self
        · exact (mem_of_mem_tput h).imp_right (List.mem_cons_of_mem _)

theorem tget_of_mem {α : Type} {x : Nat × α} : ∀ {t : Tbl α}, (t.map Prod.fst).Nodup → x ∈ t → tget t x.1 = some x.2
  | (k, b) :: t, distinct, h => by
    rw [List.map_cons, List.nodup_cons] at distinct
    rcases List.mem_cons.mp h with rfl | h
    · exact if_pos rfl
    · have ne : k ≠ x.1 := fun e => distinct.1 (List.mem_map.mpr ⟨x, h, e.symm⟩)
      exact (if_neg ne).trans (tget_of_mem distinct.2 h)

theorem key_of_mem {α : Type} {t : Tbl α} {n : Nat} {x : Nat × α} (keys : t.map Prod.fst = [n]) (h : x ∈ t) : x.1 = n :=
  List.mem_singleton.mp (keys ▸ List.mem_map_of_mem h)

/-! ## Lines made whole -/

/-- The upper granules of the lines of `l` are brought into `t` (R94). -/
def addUpper (next : Nat → Copy) (l t : Tbl Copy) : Tbl Copy := l.foldl (fun r x => tput r (x.1 + 1) (next (x.1 + 1))) t

section
variable {next : Nat → Copy}

theorem tget_addUpper {k : Nat} : ∀ {l t : Tbl Copy}, (∀ x ∈ l, x.1 + 1 ≠ k) → tget (addUpper next l t) k = tget t k
  | [], _, _ => rfl
  | y :: l, t, h => by
    rw [List.forall_mem_cons] at h
    exact (tget_addUpper h.2).trans ((tget_tput ..).trans (if_neg h.1.symm))

theorem mem_addUpper {x : Nat × Copy} : ∀ {l t : Tbl Copy}, x ∈ addUpper next l t → x ∈ t ∨ ∃ y ∈ l, x.1 = y.1 + 1
  | [], _, h => .inl h
  | y :: l, t, h => by
    rcases mem_addUpper (l := l) h with h | ⟨z, hz, e⟩
    · exact (mem_of_mem_tput h).symm.imp_right fun e => ⟨y, List.mem_cons_self, by rw [e]⟩
    · exact .inr ⟨z, List.mem_cons_of_mem _ hz, e⟩

theorem length_addUpper : ∀ {l t : Tbl Copy}, (l.map Prod.fst).Nodup → (∀ x ∈ l, tget t (x.1 + 1) = none) →
    (addUpper next l t).length = t.length + l.length
  | [], _, _, _ => rfl
  | y :: l, t, distinct, absent => by
    rw [List.map_cons, List.nodup_cons] at distinct
    rw [List.forall_mem_cons] at absent
    have later : ∀ x ∈ l, tget (tput t (y.1 + 1) (next (y.1 + 1))) (x.1 + 1) = none := fun x hx => by
      have ne : x.1 ≠ y.1 := fun e => distinct.1 (List.mem_map.mpr ⟨x, hx, e⟩)
      rw [tget_tput, if_neg (by omega)]
      exact absent.2 x hx
    calc (addUpper next (y :: l) t).length
        = (tput t (y.1 + 1) (next (y.1 + 1))).length + l.length := length_addUpper distinct.2 later
      _ = t.length + (y :: l).length := by rw [length_tput_of_none absent.1, List.length_cons]; omega

end

/-- A level holds the lower granule of each of its lines alone, for an outbound entry; line 0 it does not hold. -/
structure HalfLines (t : Tbl Copy) : Prop where
  distinct : (t.map Prod.fst).Nodup
  lower : ∀ x ∈ t, x.1 % 2 = 0
  notFirst : ∀ x ∈ t, 2 ≤ x.1
  held : ∀ x ∈ t, x.2.ordinary = false

section
variable {next : Nat → Copy} {t : Tbl Copy} (half : HalfLines t)
include half

theorem HalfLines.tget_upper {k : Nat} (odd : k % 2 = 1) : tget t k = none :=
  tget_none t k fun x hx e => by have := half.lower x hx; omega

/-- Held copies are not invalidated. -/
theorem HalfLines.invTbl_eq (p : Nat → Bool) : invTbl t p = t :=
  List.filter_eq_self.mpr fun x hx => by simp [half.held x hx]

theorem HalfLines.wholeLines_eq : wholeLines next t = addUpper next t t := by
  unfold wholeLines addUpper
  refine List.foldl_ext _ _ _ fun r x hx => ?_
  have low := half.lower x hx
  have up : partner x.1 = x.1 + 1 := if_pos low
  have absent : tget t (x.1 + 1) = none := half.tget_upper (by omega)
  simp [tget_of_mem half.distinct hx, up, absent, half.held x hx]

theorem HalfLines.lineCount_wholeLines : lineCount (wholeLines next t) = t.length := by
  have absent : ∀ x ∈ t, tget t (x.1 + 1) = none := fun x hx => half.tget_upper (by have := half.lower x hx; omega)
  have length := length_addUpper (next := next) half.distinct absent
  rw [lineCount, half.wholeLines_eq, length]
  omega

/-- The lower granule of every line is held. -/
theorem HalfLines.evictable_wholeLines {x : Nat × Copy} (hx : x ∈ wholeLines next t) :
    evictable (wholeLines next t) x.1 = false := by
  rw [half.wholeLines_eq] at hx ⊢
  obtain ⟨y, hy, line⟩ : ∃ y ∈ t, x.1 / 2 * 2 = y.1 := by
    rcases mem_addUpper hx with hx | ⟨y, hy, e⟩
    · exact ⟨x, hx, by have := half.lower x hx; omega⟩
    · exact ⟨y, hy, by have := half.lower y hy; omega⟩
  have stays : tget (addUpper next t t) y.1 = some y.2 :=
    (tget_addUpper fun z hz e => by have := half.lower z hz; have := half.lower y hy; omega).trans (tget_of_mem half.distinct hy)
  simp [evictable, lineOf, line, stays, half.held y hy]

theorem HalfLines.tget_wholeLines_one : tget (wholeLines next t) 1 = none := by
  rw [half.wholeLines_eq, tget_addUpper fun x hx e => by have := half.notFirst x hx; omega]
  exact half.tget_upper rfl

end

/-- The lower granules of lines 1 to `m`, held each for an outbound entry. -/
def heldHalves (m : Nat) : Tbl Copy := (List.range m).map fun i => (2 * i + 2, ⟨⟨0, 0⟩, false, 2, 0, 0⟩)

theorem heldHalves_halfLines (m : Nat) : HalfLines (heldHalves m) where
  distinct := by
    have keys : (heldHalves m).map Prod.fst = (List.range m).map fun i => 2 * i + 2 := by simp [heldHalves, Function.comp_def]
    rw [keys]
    exact List.nodup_range.map fun i j (e : 2 * i + 2 = 2 * j + 2) => by omega
  lower := List.forall_mem_map.mpr fun i _ => by show (2 * i + 2) % 2 = 0; omega
  notFirst := List.forall_mem_map.mpr fun i _ => Nat.le_add_left 2 (2 * i)
  held := List.forall_mem_map.mpr fun _ _ => rfl

theorem length_heldHalves (m : Nat) : (heldHalves m).length = m := by simp [heldHalves]

end Sys2Proof.Machine
end

