-- ==== Sys2Proof/Proofs/HeldLines.lean ====
section
/-! SUPPORT. What reaches the junctions when a copy is placed in an I2 whose lines are all held (R154), and where every way through
the mesh is open. -/

namespace Sys2Proof.Machine

section
variable {s : State} {n core gran seq : Nat} {c : Copy} {g : Granule} {e : OutEntry}

/-! ## Open ways -/

theorem writeLeg_of_allUp (up : allUp s) (router : Option Nat) (gran : Nat) : writeLeg s router gran = none := by
  have leg : legFrom s router gran = none := by
    cases router with
    | none => rfl
    | some r => exact if_pos (up ..)
  simp [writeLeg, leg, refreshLeg, up _ _]

theorem lineLeg_of_allUp (up : allUp s) (n gran : Nat) : lineLeg s n gran = none := by
  simp [lineLeg, noWay, up _ _]

theorem lineWay_of_allUp (up : allUp s) (n gran : Nat) : LineWay s n gran := fun _ src => by simp [noWay, up _ _]

theorem homeTakes_of_allUp (up : allUp s) (n : Nat) (inHbm : windowOf gran = 0) : homeTakes s n gran = true := by
  simp [homeTakes, writeLeg_of_allUp up, inHbm]

/-- A core whose banks are off has no I1. -/
theorem i1Takes_of_noBank (off : (coreAt s core).bankrole = 0) : i1Takes s core gran = false := by
  have noI1 : hasI1 (coreAt s core) = false := by rw [hasI1, off]; decide
  simp [i1Takes, noI1]

/-! ## O3 -/

/-- What fills and invalidations leave of O3. -/
theorem Inbound.o3 {t : State} (h : Inbound s t) : t.o3 = s.o3 := by rw [h]

theorem refreshI3_o3 : (refreshI3 s gran).o3 = s.o3 := by
  unfold refreshI3
  split <;> rfl

/-- The first granule to arrive in O3. -/
theorem putO3At_o3_of_empty (empty : s.o3 = []) : (putO3At s gran g seq).o3 = [(gran, ⟨g, none, seq, false, false, 0, seq⟩)] := by
  have room : roomO3 s gran = s := by simp [roomO3, empty, o3Room]
  unfold putO3At
  rw [refreshI3_o3, room, empty]
  rfl

theorem drainO2_o3_of_empty (empty : s.o3 = []) (inHbm : windowOf gran = 0) (entry : tget (clusterAt s n).o2 gran = some e)
    (takes : homeTakes s n gran = true) : (drainO2 s n gran).o3 = [(gran, ⟨e.g, none, e.seq, false, false, 0, e.seq⟩)] := by
  unfold drainO2
  dsimp only
  rw [entry]
  dsimp only
  rw [if_pos takes, arriveHome, if_pos inHbm]
  exact (settle_inbound ..).o3.trans (putO3At_o3_of_empty empty)

/-! ## Room in I2 -/

theorem drainCluster_of_emptyO1 (empty : ∀ c ∈ coresOf n, (coreAt s c).o1 = []) :
    drainCluster s n = ((clusterAt s n).o2.map (·.1)).foldl (fun s g => drainO2 s n g) s := by
  simp only [coresOf, List.forall_mem_cons] at empty
  obtain ⟨e0, e1, e2, e3, -⟩ := empty
  simp [drainCluster, coresOf, e0, e1, e2, e3]

/-- A full I2 without a line to give up sends the cluster's entries home (R154). -/
theorem roomI2_o3_of_held (absent : tget (clusterAt s n).i2 gran = none) (full : i2Lines ≤ lineCount (clusterAt s n).i2)
    (held : ∀ x ∈ (clusterAt s n).i2, evictable (clusterAt s n).i2 x.1 = false) :
    (roomI2 s n gran).o3 = (drainCluster s n).o3 := by
  have kept : ((clusterAt s n).i2.any fun x => evictable (clusterAt s n).i2 x.1) = false :=
    List.any_eq_false.mpr fun x hx => by simp [held x hx]
  unfold roomI2
  rw [if_neg (by simp [absent, full])]
  simp only [kept]
  exact (nextTick_inbound (setI2_inbound ..)).o3

/-- Of what places a copy in I2, the room for it alone touches O3. -/
theorem putI2_o3 : (putI2 s n gran c).o3 = (roomI2 s n gran).o3 := by
  unfold putI2
  dsimp only
  split
  · rfl
  · split
    · rfl
    · exact (((fillI3_inbound _ gran).trans (setI2_inbound ..)).trans (setCluster_inbound ..)).o3

/-- A core without an I1 has its level-1 copies placed in its cluster's I2 (Table 06.5). -/
theorem placeLevel1_o3 (inHbm : windowOf gran = 0) (way : lineLeg s (clusterOfCore core) gran = none)
    (noI1 : i1Takes s core gran = false) :
    (placeLevel1 s core gran g seq).o3 = (roomI2 s (clusterOfCore core) gran).o3 := by
  unfold placeLevel1
  dsimp only
  rw [if_neg (by simp [inHbm]), if_neg (by simp [way]), if_neg (by simp [noI1])]
  exact (dropI1s_inbound ..).o3.trans putI2_o3

end

/-! ## Clusters -/

theorem clusterAt_setCluster (s : State) (n : Nat) (k : ClusterSt) : clusterAt (setCluster s n k) n = k := by
  simp [clusterAt, setCluster, tgetD, tget_tput]

/-- What an invalidation leaves in an I2 is made whole. -/
theorem invI2_i2 (s : State) (n : Nat) (p : Nat → Bool) :
    ∃ next, (clusterAt (invI2 s n p) n).i2 = wholeLines next (invTbl (clusterAt s n).i2 p) := by
  unfold invI2
  rw [clusterAt_setCluster]
  unfold setI2
  rw [clusterAt_setCluster]
  exact ⟨fun g => inward { peekI3 s g with tag := tagI2 (peekI3 s g).tag n }, rfl⟩

/-- No other cluster has a later form of a granule where no other cluster has anything. -/
theorem newerElsewhere_alone {s : State} {n gran seq : Nat} (cores : ∀ x ∈ s.cores, clusterOfCore x.1 = n)
    (clusters : ∀ x ∈ s.clusters, x.1 = n) : newerElsewhere s n gran seq = false := by
  have inCores : (s.cores.any fun x => clusterOfCore x.1 != n && x.2.o1.any fun y => y.1 == gran && seq ≤ y.2.seq) = false :=
    List.any_eq_false.mpr fun x hx => by simp [cores x hx]
  have inClusters : (s.clusters.any fun x => x.1 != n && (x.2.o2 ++ x.2.o2held).any fun y => y.1 == gran && seq ≤ y.2.seq) = false :=
    List.any_eq_false.mpr fun x hx => by simp [clusters x hx]
  rw [newerElsewhere, inCores, inClusters]
  rfl

end Sys2Proof.Machine
end

