-- ==== Sys2Proof/Proofs/TurnRuns.lean ====
section
/-! SUPPORT. How a turn runs granule by granule (R106, R107, R110), and what the bytes and the metadata of a granule at its home depend
on. -/

namespace Sys2Proof.Machine

/-! ## Granule by granule -/

/-- A turn has come to a position. -/
def turnedTo (s : State) (pos raised foreign : Nat) : State := { s with hart := { s.hart with
  turnpos := BitVec.ofNat 33 pos, turnst := addTurnst s.hart.turnst raised foreign } }

theorem turnedTo_o3 (s : State) (pos raised foreign : Nat) : (turnedTo s pos raised foreign).o3 = s.o3 := rfl

section
variable {s u v : State} {base va : Word} {core gran xlen level fuel pos pa raised foreign : Nat} {self : Bool} {p : TurnPlace}
  {g : Granule} {acc : List Nat}

/-- A turn at level 1 switches a granule of the core's own where it stands, if nothing stops it. -/
theorem turnOne_own (found : turnFind s core gran = some (p, g)) (sound : g.metaKind = none) (here : p ≠ .elsewhere)
    (own : ownOf core 1 g.prod = true) (way : writeLeg s (some (clusterOfCore core)) gran = none)
    (moves : turnStuck s (switchOwn s core gran 1 p) (clusterOfCore core) gran 1 p = false) :
    turnOne s core 1 gran va = .ok (switchOwn s core gran 1 p, 1, 0) := by
  simp [turnOne, found, sound, here, own, way, moves]

theorem turnLoop_done (complete : xlen ≤ s.hart.turnpos.toNat) : turnLoop base xlen level fuel acc s = ((acc, none), s) := by
  cases fuel with
  | zero => rfl
  | succ fuel => exact if_pos complete

/-- The granule at TURNPOS is done, and the turn goes on behind it. -/
theorem turnLoop_next (stands : s.hart.turnpos.toNat = pos) (more : pos < xlen) (address : base + BitVec.ofNat 64 pos = va)
    (maps : translateM va .read s = (.ok (pa, self), u))
    (one : turnOne u (curCore u) level (pa / 64) va = .ok (v, raised, foreign)) :
    turnLoop base xlen level (fuel + 1) acc s = turnLoop base xlen level fuel (pa / 64 :: acc)
      (turnedTo v (min xlen (pos + (64 - (va.extractLsb' 0 6).toNat))) raised foreign) := by
  rw [turnLoop]
  dsimp only
  rw [stands, address, if_neg (Nat.not_le.mpr more), maps]
  dsimp only
  rw [one]
  rfl

/-- A translation that the core's TLB holds changes nothing (R354). -/
theorem translateM_of_hit {a : Acc} (maps : Maps s va a pa self)
    (hit : (tlbFind (coreAt s (curCore s)).tlb (curLaunch s) va).isSome = true) : translateM va a s = (.ok (pa, self), s) := by
  have fill : xlateFill s (hereTlb s) (curLaunch s) va = s := if_pos (by simp [hereTlb, hit])
  have run : translateFor (hereTlb s) (curLaunch s) va a s = (.ok (pa, self), s) := by
    rw [translateFor, show xlate s (hereTlb s) (curLaunch s) va a = .ok pa self from maps]
    dsimp only
    rw [fill]
  rw [translateM, waitingM, run]

/-! ## From its start to its end -/

/-- A turn sets out, or goes on from TURNPOS. -/
def turnBegins (s : State) (level : Nat) : State := { s with hart := { s.hart with
  phase := 0, waits := true, turnst := if s.hart.turnpos = 0 then BitVec.ofNat 64 level <<< 61 else s.hart.turnst } }

/-- How a turn ends when it has done with its granules. -/
def turnEnds (core level : Nat) (len : Word) (r : (List Nat × Option Stop) × State) : Except Stop Unit × State :=
  let s := turnNotices r.2 core level r.1.1
  if level ≥ 3 && !acked s core then (.error .hold, { s with hart := { s.hart with phase := 3 } })
  else match r.1.2 with
    | some e => (.error e, s)
    | none =>
      if s.hart.turnpos.toNat ≥ len.toNat then (.ok (), { s with hart := { s.hart with turnpos := 0 } }) else (.error .hold, s)

theorem turnEnds_complete {len : Word} {done : List Nat} (low : level < 3) (complete : len.toNat ≤ s.hart.turnpos.toNat) :
    turnEnds core level len ((done, none), s) = (.ok (), { s with hart := { s.hart with turnpos := 0 } }) := by
  have noNotice : turnNotices s core level done = s := if_pos low
  unfold turnEnds
  dsimp only
  rw [noNotice, if_neg (by simp [Nat.not_le.mpr low]), if_pos complete]

/-- A turn of a legal length that waits for no notice and is stopped nowhere runs its granules. -/
theorem turnM_run {len : Word} (short : len.toNat ≤ 2 ^ 32) (fresh : s.hart.turnpos = 0) (noWait : s.hart.phase ≠ 3)
    (whole : s.units = none) : turnM base len level s =
      turnEnds (curCore s) level len (turnLoop base len.toNat level (len.toNat / 64 + 2) [] (turnBegins s level)) := by
  have start : s.hart.turnpos.toNat = 0 := by rw [fresh]; rfl
  have run : turnM base len level s =
      if len.toNat > 2 ^ 32 || s.hart.turnpos.toNat > len.toNat then raiseOperand s
      else if s.hart.phase = 3 && !acked s (curCore s) then holdM s
      else turnEnds (curCore s) level len (turnLoop base len.toNat level
        (match s.units with
          | some u => min ((len.toNat - s.hart.turnpos.toNat) / 64 + 2) u
          | none => (len.toNat - s.hart.turnpos.toNat) / 64 + 2) [] (turnBegins s level)) := rfl
  rw [run, if_neg (by simp [start]; omega), if_neg (by simp [noWait]), whole, start]
  rfl

theorem exec_turn_of_ok {a b : XIdx} {lv : BitVec 2} (run : turnM (xreg s a) (xreg s b) (lv.toNat + 1) s = (.ok (), u)) :
    exec (.turn a b lv) s = .next (advance u) := by
  have seq : exec (.turn a b lv) s = runM (do turnM (xreg s a) (xreg s b) (lv.toNat + 1); done) s := rfl
  rw [seq, runM, bind_run, run]
  rfl

end

/-! ## Granules at home -/

theorem homeByte_of_o3 {s : State} {a : Nat} {e : OutEntry} (entry : tget s.o3 (a / 64) = some e) : homeByte s a = e.g.byte a := by
  rw [homeByte, junctionGranule, entry]

theorem homeByte_of_hbm {s : State} {a : Nat} (notInO3 : tget s.o3 (a / 64) = none) :
    homeByte s a = (hbmGranule s (a / 64)).byte a := by
  rw [homeByte, junctionGranule, notInO3]

theorem metaKind_congr {g h : Granule} (same : g.md = h.md) : g.metaKind = h.metaKind := by
  obtain ⟨d, m⟩ := g
  obtain ⟨e, n⟩ := h
  cases same
  rfl

end Sys2Proof.Machine
end

