-- ==== Sys2Proof/Proofs/CrowdedTurn.lean ====
section
/-! SUPPORT. A turn of two granules whose first makes the lines of its cluster's I2 whole (R94): the I2 is then full of held lines, and
for the place of the second's copy the cluster's entries go home (R154). -/

namespace Sys2Proof.Machine

/-! ## The state -/

/-- The first page is mapped to the first frame, for reads. -/
def page0 : TlbEntry := ⟨0, 0, false, 0x8800000000000000⟩

section
variable {s : State} {va : Word} (tlb : (coreAt s (curCore s)).tlb = [page0]) (launch : curLaunch s = 0) (low : va.toNat < 65536)
include tlb launch low

theorem tlbFind_page0 : tlbFind (coreAt s (curCore s)).tlb (curLaunch s) va = some page0 := by
  have page : (va.extractLsb' 16 32).toNat = 0 := by
    rw [BitVec.extractLsb'_toNat, Nat.shiftRight_eq_div_pow]
    omega
  simp [tlbFind, tlb, launch, page0, page]

theorem maps_page0 (still : s.ports.moving = []) (noZone : s.memzone = 0) : Maps s va .read va.toNat false := by
  have found : leafFor s (hereTlb s) (curLaunch s) va = .leaf page0.pte 3 := by
    simp [leafFor, cached, hereTlb, tlbFind_page0 tlb launch low, page0]
  have high : va.extractLsb' 48 16 = 0 := by
    apply BitVec.eq_of_toNat_eq
    rw [BitVec.extractLsb'_toNat, Nat.shiftRight_eq_div_pow, Nat.div_eq_of_lt (by omega)]
    rfl
  have offset : (va.extractLsb' 0 16).toNat = va.toNat := by
    rw [BitVec.extractLsb'_toNat, Nat.shiftRight_zero]
    omega
  have outside : inLocalZone s va.toNat = false := by simp [inLocalZone, zoneSize, noZone, hbmBytes]; omega
  have inHbm : unbound s va.toNat = false := by simp [unbound, hbmBytes]; omega
  have readable : pteAllows page0.pte .read = true ∧ pteHost page0.pte = false ∧ pteSloc page0.pte = false ∧
      pteBase page0.pte = 0 ∧ pteSelf page0.pte = false := by decide
  obtain ⟨reads, owned, anywhere, frame, shared⟩ := readable
  simp [Maps, xlate, high, found, moving, still, leafAnswer, reads, owned, anywhere, frame, shared, offset, outside, inHbm]

/-- Each of its addresses is translated as it stands. -/
theorem translateM_page0 (still : s.ports.moving = []) (noZone : s.memzone = 0) :
    translateM va .read s = (.ok (va.toNat, false), s) :=
  translateM_of_hit (maps_page0 tlb launch low still noZone) (by rw [tlbFind_page0 tlb launch low]; rfl)

end

theorem launch0 : launchOf 0 = 0 := by decide

/-- A granule of core 0 at LEVEL 0. -/
def coreGranule (data : GData) : Granule := ⟨data, packMeta 0 0 0 0⟩

theorem coreGranule_sound (data : GData) : (coreGranule data).metaKind = none := by
  have atZero : (coreGranule 0).metaKind = none := by decide +kernel
  exact atZero

theorem coreGranule_own (data : GData) : ownOf 0 1 (coreGranule data).prod = true := by
  have atZero : ownOf 0 1 (coreGranule 0).prod = true := by decide +kernel
  exact atZero

/-- The O2 entry of granule 1, formed once. -/
def o2Entry : OutEntry := ⟨coreGranule 1, none, 1, false, false, 0, 1⟩

/-- Core 0, which has no I1, has its granule 0 at home and its granule 1 in O2, both in the page that its TLB maps, and its cluster's
I2 holds `t`; x1 = 128. -/
def twoOwn (t : Tbl Copy) : State := { State.reset with
  hart := { Hart.reset with x := Hart.reset.x.set 1 128 }
  memMeta := [(0, packMeta 0 0 0 0)]
  cores := [(0, { CoreSt.reset with tlb := [page0] })]
  clusters := [(0, { ClusterSt.reset with i2 := t, o2 := [(1, o2Entry)] })] }

/-- The turn of both granules at level 1 has begun, is done with granule 0, and with granule 1. -/
def turnBegun (t : Tbl Copy) : State := turnBegins (twoOwn t) 1
def turnedFirst (t : Tbl Copy) : State := turnedTo (switchOwn (turnBegun t) 0 0 1 .home) 64 1 0
def turnedBoth (t : Tbl Copy) : State := turnedTo (switchOwn (turnedFirst t) 0 1 1 .o2) 128 1 0

/-- The entry of granule 1 with its level raised, and the state in which it waits for the place of its copy. -/
def raisedEntry : OutEntry := { o2Entry with g := (coreGranule 1).raiseLevel 1 }
def raisedSecond (t : Tbl Copy) : State :=
  setCluster (turnedFirst t) 0 { clusterAt (turnedFirst t) 0 with o2 := tput (clusterAt (turnedFirst t) 0).o2 1 raisedEntry }

section
variable (t : Tbl Copy)

/-! ## The run -/

theorem hbmData_twoOwn (gran : Nat) : (hbmGranule (twoOwn t) gran).data = 0 := by
  have zero : Memory.readN (twoOwn t).mem (64 * gran) 64 = 0 := Memory.readN_unlisted _ _ _ (by simp [twoOwn, State.reset])
  unfold hbmGranule
  rw [zero]
  rfl

theorem turnFind_begun : turnFind (turnBegun t) 0 0 = some (.home, coreGranule 0) := by
  have home : hbmGranule (twoOwn t) 0 = coreGranule 0 := by rw [coreGranule, ← hbmData_twoOwn t 0]; rfl
  rw [← home]
  rfl

theorem turnOne_begun : turnOne (turnBegun t) 0 1 0 0 = .ok (switchOwn (turnBegun t) 0 0 1 .home, 1, 0) :=
  turnOne_own (turnFind_begun t) (coreGranule_sound 0) (by decide) (coreGranule_own 0)
    (writeLeg_of_allUp (allUp_of_noLease rfl) ..) rfl

theorem turnFind_turnedFirst : turnFind (turnedFirst t) 0 1 = some (.o2, coreGranule 1) := by
  have cores : (turnedFirst t).cores.map Prod.fst = [0] := rfl
  have clusters : (turnedFirst t).clusters.map Prod.fst = [0] := rfl
  have alone : newerElsewhere (turnedFirst t) 0 1 o2Entry.seq = false :=
    newerElsewhere_alone (fun x hx => by rw [key_of_mem cores hx]; rfl) fun x hx => key_of_mem clusters hx
  have newest : newestForm (formsIn (turnedFirst t) 0 1) = some (.o2, o2Entry) := rfl
  have older : (homeForm (turnedFirst t) 1).any (fun h => o2Entry.seq < h.2) = false := rfl
  have cluster : clusterOfCore 0 = 0 := rfl
  simp [turnFind, cluster, newest, alone, older, show o2Entry.g = coreGranule 1 from rfl]

theorem turnOne_turnedFirst : turnOne (turnedFirst t) 0 1 1 64 = .ok (switchOwn (turnedFirst t) 0 1 1 .o2, 1, 0) := by
  have up : allUp (turnedFirst t) := allUp_of_noLease rfl
  exact turnOne_own (turnFind_turnedFirst t) (coreGranule_sound 1) (by decide) (coreGranule_own 1) (writeLeg_of_allUp up ..)
    (by simp [turnStuck, lineLeg_of_allUp up])

theorem curCore_begun : curCore (turnBegun t) = 0 := show coreOfSlot 0 = 0 from rfl
theorem curCore_turnedFirst : curCore (turnedFirst t) = 0 := show coreOfSlot 0 = 0 from rfl

theorem translateM_begun : translateM 0 .read (turnBegun t) = (.ok (0, false), turnBegun t) :=
  translateM_page0 (by rw [curCore_begun]; rfl) launch0 (by decide) rfl rfl

theorem translateM_turnedFirst : translateM 64 .read (turnedFirst t) = (.ok (64, false), turnedFirst t) :=
  translateM_page0 (by rw [curCore_turnedFirst]; rfl) launch0 (by decide) rfl rfl

theorem turnLoop_begun : turnLoop 0 128 1 4 [] (turnBegun t) = (([1, 0], none), turnedBoth t) := by
  have first : turnLoop 0 128 1 4 [] (turnBegun t) = turnLoop 0 128 1 3 [0] (turnedFirst t) :=
    turnLoop_next (va := 0) (pos := 0) rfl (by decide) rfl (translateM_begun t) (by rw [curCore_begun]; exact turnOne_begun t)
  have second : turnLoop 0 128 1 3 [0] (turnedFirst t) = turnLoop 0 128 1 2 [1, 0] (turnedBoth t) :=
    turnLoop_next (va := 64) (pos := 64) rfl (by decide) rfl (translateM_turnedFirst t)
      (by rw [curCore_turnedFirst]; exact turnOne_turnedFirst t)
  rw [first, second]
  exact turnLoop_done (Nat.le_refl 128)

theorem exec_turn_twoOwn : exec (.turn 0 1 0) (twoOwn t) =
    .next (advance { turnedBoth t with hart := { (turnedBoth t).hart with turnpos := 0 } }) := by
  apply exec_turn_of_ok
  have base : xreg (twoOwn t) 0 = 0 := rfl
  have len : xreg (twoOwn t) 1 = 128 := rfl
  have complete : (turnedBoth t).hart.turnpos = 128 := rfl
  rw [base, len]
  refine (turnM_run (by decide) rfl (show (0 : Nat) ≠ 3 by decide) rfl).trans ?_
  refine Eq.trans (congrArg (turnEnds _ _ _) (turnLoop_begun t)) ?_
  exact turnEnds_complete (by decide) (by rw [complete]; decide)

/-! ## What reaches the junction -/

theorem switchOwn_turnedFirst :
    switchOwn (turnedFirst t) 0 1 1 .o2 = placeLevel1 (raisedSecond t) 0 1 raisedEntry.g raisedEntry.seq := rfl

/-- The cluster's one entry goes home. -/
theorem drainCluster_raisedSecond :
    (drainCluster (raisedSecond t) 0).o3 = [(1, ⟨raisedEntry.g, none, raisedEntry.seq, false, false, 0, raisedEntry.seq⟩)] := by
  have empty : ∀ c ∈ coresOf 0, (coreAt (raisedSecond t) c).o1 = [] := by
    simp only [coresOf, List.forall_mem_cons]
    exact ⟨rfl, rfl, rfl, rfl, nofun⟩
  have entries : (clusterAt (raisedSecond t) 0).o2 = [(1, raisedEntry)] := rfl
  have inHbm : windowOf 1 = 0 := by decide
  rw [drainCluster_of_emptyO1 empty, entries]
  exact drainO2_o3_of_empty rfl inHbm (by rw [entries]; rfl) (homeTakes_of_allUp (allUp_of_noLease rfl) 0 inHbm)

theorem i2_raisedSecond : ∃ next, (clusterAt (raisedSecond t) 0).i2 = wholeLines next (invTbl t (sameLine 0)) := by
  obtain ⟨next, made⟩ := invI2_i2 (raiseHome (turnBegun t) 0 1) 0 (sameLine 0)
  refine ⟨next, Eq.trans ?_ made⟩
  rw [raisedSecond, clusterAt_setCluster]
  rfl

variable {t} (half : HalfLines t) (size : t.length = i2Lines)
include half size

theorem roomI2_raisedSecond : (roomI2 (raisedSecond t) 0 1).o3 = (drainCluster (raisedSecond t) 0).o3 := by
  obtain ⟨next, whole⟩ := i2_raisedSecond t
  rw [half.invTbl_eq] at whole
  apply roomI2_o3_of_held <;> rw [whole]
  · exact half.tget_wholeLines_one
  · rw [half.lineCount_wholeLines, size]
  · exact fun x => half.evictable_wholeLines

/-- After the turn granule 1 stands in O3. -/
theorem turnedBoth_o3 : (turnedBoth t).o3 = [(1, ⟨raisedEntry.g, none, raisedEntry.seq, false, false, 0, raisedEntry.seq⟩)] := by
  have up : allUp (raisedSecond t) := allUp_of_noLease rfl
  have noI1 : (coreAt (raisedSecond t) 0).bankrole = 0 := rfl
  have placed : (turnedBoth t).o3 = (roomI2 (raisedSecond t) 0 1).o3 := by
    rw [turnedBoth, turnedTo_o3, switchOwn_turnedFirst]
    exact placeLevel1_o3 (by decide) (lineLeg_of_allUp up ..) (i1Takes_of_noBank noI1)
  rw [placed, roomI2_raisedSecond half size, drainCluster_raisedSecond]

/-- The home of granule 1 has its first byte after the turn, and did not before. -/
theorem homeByte_turnedBoth (h : Hart) : homeByte (advance { turnedBoth t with hart := h }) 64 = raisedEntry.g.byte 64 := by
  have rest : ∀ s : State, (advance { s with hart := h }).o3 = s.o3 := fun _ => rfl
  refine homeByte_of_o3 (e := ⟨raisedEntry.g, none, raisedEntry.seq, false, false, 0, raisedEntry.seq⟩) ?_
  rw [rest, turnedBoth_o3 half size]
  rfl

omit half size

theorem homeByte_twoOwn : homeByte (twoOwn t) 64 = 0 := by
  rw [homeByte_of_hbm rfl, Granule.byte, hbmData_twoOwn]
  exact BitVec.extractLsb'_zero

/-! ## What the statement asks -/

theorem memMeta_twoOwn (gran : Nat) : tgetD (twoOwn t).memMeta gran resetMeta = if 0 = gran then packMeta 0 0 0 0 else resetMeta := by
  rw [show (twoOwn t).memMeta = [(0, packMeta 0 0 0 0)] from rfl, tgetD, tget, tget]
  split <;> rfl

theorem junction_sound_twoOwn (gran : Nat) : (junctionGranule (twoOwn t) gran).1.metaKind = none := by
  have word : (junctionGranule (twoOwn t) gran).1.md = if 0 = gran then packMeta 0 0 0 0 else resetMeta := memMeta_twoOwn gran
  split at word
  · exact (metaKind_congr word).trans (coreGranule_sound 0)
  · exact (metaKind_congr (h := ⟨0, resetMeta⟩) word).trans (by decide +kernel)

theorem emptyO1_twoOwn : ∀ c ∈ coresOf 0, (coreAt (twoOwn t) c).o1 = [] := by
  simp only [coresOf, List.forall_mem_cons]
  exact ⟨rfl, rfl, rfl, rfl, nofun⟩

theorem curCluster_twoOwn : curCluster (twoOwn t) = 0 := show clusterOfSlot 0 = 0 from rfl

theorem soundMetadata_twoOwn (gran : Nat) : soundMetadata (twoOwn t) gran := by
  have entries : (clusterAt (twoOwn t) 0).o2 = [(1, o2Entry)] := rfl
  have noneHeld : (clusterAt (twoOwn t) 0).o2held = [] := rfl
  have noBuffer : (twoOwn t).ports.buffer = [] := rfl
  unfold soundMetadata
  rw [curCluster_twoOwn, entries, noneHeld, noBuffer]
  refine ⟨fun c hc e he => ?_, fun e he => ?_, fun x hx => absurd hx List.not_mem_nil, junction_sound_twoOwn gran, fun e he => ?_⟩
  · rw [emptyO1_twoOwn c hc] at he
    cases he
  · simp only [tget, Option.ite_none_right_eq_some, Option.some.injEq] at he
    rw [← he.2]
    exact coreGranule_sound 1
  · cases he

include size in
/-- Half lines count for half of the lines that they take. -/
theorem turnRoom_twoOwn : turnRoom (twoOwn t) := by
  have waiting : ((coresOf 0).map fun c => (coreAt (twoOwn t) c).o1.length).sum = 0 :=
    List.sum_eq_zero fun x hx => by
      obtain ⟨c, hc, rfl⟩ := List.mem_map.mp hx
      rw [emptyO1_twoOwn c hc]
      rfl
  have entries : (clusterAt (twoOwn t) 0).o2.length = 1 := rfl
  have noneHeld : (clusterAt (twoOwn t) 0).o2held.length = 0 := rfl
  have noPartial : partialBytes (twoOwn t) (clusterAt (twoOwn t) 0).partials = 0 := rfl
  have lines : lineCount (clusterAt (twoOwn t) 0).i2 = 16384 := by
    rw [lineCount, show (clusterAt (twoOwn t) 0).i2 = t from rfl, size]
    rfl
  unfold turnRoom
  rw [curCluster_twoOwn]
  simp only [waiting, entries, noneHeld, noPartial, lines, o2Bytes, o2Size, i2Lines]
  omega

include size in
theorem turnReady_twoOwn : turnReady (twoOwn t) 0 128 := by
  have up : allUp (twoOwn t) := allUp_of_noLease rfl
  have core : curCore (twoOwn t) = 0 := show coreOfSlot 0 = 0 from rfl
  have tlb : (coreAt (twoOwn t) (curCore (twoOwn t))).tlb = [page0] := by rw [core]; rfl
  have low : ∀ i, i < 128 → (0 + BitVec.ofNat 64 i : Word).toNat < 65536 := fun i hi => by bv_omega
  have cached : cachedReads (twoOwn t) 0 128 := fun i hi =>
    ⟨by rw [tlbFind_page0 tlb launch0 (low i hi)]; rfl, _, _, maps_page0 tlb launch0 (low i hi) rfl rfl⟩
  exact ⟨⟨rfl, cached, fun _ _ _ _ _ => soundMetadata_twoOwn _⟩, turnRoom_twoOwn size,
    fun i _ pa _ _ => ⟨if_pos (up ..), lineWay_of_allUp up _ _, fun _ => up ..⟩⟩

end

/-- Refutes O19: a turn that the statement calls ready changes bytes at a home junction. Its measure of room counts an I2's lines by
its copies, two to a line, so an I2 that holds for outbound entries one granule of each of 32,768 lines counts as half full. A turn at
level 1 over two granules of the core's own, the first at home and the second in O2, first takes the first's line out of the I2, and
makes every other line whole (R94): the I2 is full of held lines. The second's copy then finds its place only when the cluster's
entries go home (R154), and its data replaces what its junction had. -/
theorem not_turns : ¬ Obligations.Turns := by
  unfold Obligations.Turns
  intro h
  obtain ⟨t, half, size⟩ : ∃ t, HalfLines t ∧ t.length = i2Lines :=
    ⟨heldHalves i2Lines, heldHalves_halfLines i2Lines, length_heldHalves i2Lines⟩
  obtain ⟨-, ends, -⟩ := h.1 (twoOwn t) 0 1 0
  have len : xreg (twoOwn t) 1 = 128 := rfl
  obtain ⟨u, -, -, ran, -, bytes, -⟩ :=
    ends rfl (by rw [len]; decide) rfl (by decide) (show (0 : Nat) ≠ 3 by decide) (turnReady_twoOwn size)
  rw [exec_turn_twoOwn] at ran
  obtain rfl := Host.Outcome.next.inj ran
  exact absurd ((homeByte_turnedBoth half size _).symm.trans ((bytes 64).trans homeByte_twoOwn)) (by decide +kernel)

end Sys2Proof.Machine
end

