-- ==== Sys2Proof/Proofs/Twins.lean ====
section
/-! SUPPORT. Two runs of the machine's own work side by side, in states that differ in cached translations and in the phase of the acting
hart alone: they end in such states again. Nor does that work reach the acting hart, but for notices (R341), of which firmware has
been told before. -/

namespace Sys2Proof.Machine

/-! ## Twins -/

/-- `s` with other contexts, cores and clusters. -/
def withUnits (s : State) (h : Hart) (c : Tbl CoreSt) (k : Tbl ClusterSt) : State := { s with hart := h, cores := c, clusters := k }

/-- The states differ in cached translations and in the acting hart's phase alone. -/
structure Twin (s t : State) : Prop where
  whole : ∃ p c k, t = withUnits s { s.hart with phase := p } c k
  core : ∀ c, coreAt t c = { coreAt s c with tlb := (coreAt t c).tlb }
  cluster : ∀ n, clusterAt t n = { clusterAt s n with tlb := (clusterAt t n).tlb }

theorem Twin.refl (s : State) : Twin s s := ⟨⟨_, _, _, rfl⟩, fun _ => rfl, fun _ => rfl⟩

theorem Twin.trans {s t u : State} (h : Twin s t) (k : Twin t u) : Twin s u where
  whole := by
    obtain ⟨_, _, _, rfl⟩ := h.whole
    obtain ⟨_, _, _, rfl⟩ := k.whole
    exact ⟨_, _, _, rfl⟩
  core c := by rw [k.core, h.core]
  cluster n := by rw [k.cluster, h.cluster]

/-- What depends neither on contexts nor on cores and clusters is the same in twins. -/
theorem Twin.read {α : Type} {s t : State} (h : Twin s t) (f : State → α)
    (apart : ∀ s h c k, f (withUnits s h c k) = f s) : f t = f s := by
  obtain ⟨_, _, _, rfl⟩ := h.whole
  exact apart ..

section
variable {s t : State} (h : Twin s t) (c n : Nat)
include h

theorem Twin.hart : t.hart = { s.hart with phase := t.hart.phase } := by
  obtain ⟨_, _, _, rfl⟩ := h.whole
  exact rfl
theorem Twin.cur : t.cur = s.cur := h.read (·.cur) fun _ _ _ _ => rfl
theorem Twin.rest : t.rest = s.rest := h.read (·.rest) fun _ _ _ _ => rfl
theorem Twin.slots : t.slots = s.slots := h.read (·.slots) fun _ _ _ _ => rfl
theorem Twin.disp : t.disp = s.disp := h.read (·.disp) fun _ _ _ _ => rfl
theorem Twin.svc : t.svc = s.svc := h.read (·.svc) fun _ _ _ _ => rfl
theorem Twin.ports : t.ports = s.ports := h.read (·.ports) fun _ _ _ _ => rfl
theorem Twin.mesh : t.mesh = s.mesh := h.read (·.mesh) fun _ _ _ _ => rfl
theorem Twin.tick : t.tick = s.tick := h.read (·.tick) fun _ _ _ _ => rfl
theorem Twin.crngc : t.crngc = s.crngc := h.read (·.crngc) fun _ _ _ _ => rfl

theorem Twin.o1 : (coreAt t c).o1 = (coreAt s c).o1 := by rw [h.core]
theorem Twin.i1 : (coreAt t c).i1 = (coreAt s c).i1 := by rw [h.core]
theorem Twin.bindq : (coreAt t c).bindq = (coreAt s c).bindq := by rw [h.core]
theorem Twin.hasI1 : hasI1 (coreAt t c) = hasI1 (coreAt s c) := by rw [h.core]; exact rfl
theorem Twin.i1Lines : i1Lines (coreAt t c) = i1Lines (coreAt s c) := by rw [h.core]; exact rfl
theorem Twin.o2 : (clusterAt t n).o2 = (clusterAt s n).o2 := by rw [h.cluster]
theorem Twin.o2held : (clusterAt t n).o2held = (clusterAt s n).o2held := by rw [h.cluster]
theorem Twin.i2 : (clusterAt t n).i2 = (clusterAt s n).i2 := by rw [h.cluster]
theorem Twin.partials : (clusterAt t n).partials = (clusterAt s n).partials := by rw [h.cluster]
theorem Twin.stale : (clusterAt t n).stale = (clusterAt s n).stale := by rw [h.cluster]
theorem Twin.copyq : (clusterAt t n).copyq = (clusterAt s n).copyq := by rw [h.cluster]

end

theorem coreAt_setCore (s : State) (c m : Nat) (k : CoreSt) : coreAt (setCore s c k) m = if m = c then k else coreAt s m := by
  simp only [coreAt, setCore, tgetD, tget_tput]
  split <;> rfl

theorem clusterAt_setCluster_eq (s : State) (n m : Nat) (k : ClusterSt) :
    clusterAt (setCluster s n k) m = if m = n then k else clusterAt s m := by
  simp only [clusterAt, setCluster, tgetD, tget_tput]
  split <;> rfl

theorem Twin.setCore {s t : State} (h : Twin s t) (c : Nat) {x y : CoreSt} (e : y = { x with tlb := y.tlb }) :
    Twin (setCore s c x) (setCore t c y) where
  whole := by
    obtain ⟨_, _, _, rfl⟩ := h.whole
    exact ⟨_, _, _, rfl⟩
  core m := by
    rw [coreAt_setCore, coreAt_setCore]
    split
    · exact e
    · exact h.core m
  cluster := h.cluster

theorem Twin.setCluster {s t : State} (h : Twin s t) (n : Nat) {x y : ClusterSt} (e : y = { x with tlb := y.tlb }) :
    Twin (setCluster s n x) (setCluster t n y) where
  whole := by
    obtain ⟨_, _, _, rfl⟩ := h.whole
    exact ⟨_, _, _, rfl⟩
  core := h.core
  cluster m := by
    rw [clusterAt_setCluster_eq, clusterAt_setCluster_eq]
    split
    · exact e
    · exact h.cluster m

/-! ## What the work leaves -/

/-- What the machine's own work does not touch. -/
def fixed (s : State) : Nat × Tbl Counts × Tbl Attachment × List Nat × Word := (s.cur, s.counts, s.attach, s.lost, s.memzone)

/-- The machine's own work has led from `b` to `s`: firmware has been told at least `k` things more, and the acting hart has got
notices, and only where firmware has been told something (R341, R398, R404). -/
structure Told (b : State) (k : Nat) (s : State) : Prop where
  hart : s.hart = { b.hart with notices := s.hart.notices, lost := s.hart.lost }
  more : b.disp.reports.length + k ≤ s.disp.reports.length
  kept : s.disp.reports.length = b.disp.reports.length → s.hart = b.hart
  fixed : fixed s = fixed b

theorem Told.cur {b s : State} {k : Nat} (h : Told b k s) : s.cur = b.cur := congrArg (·.1) h.fixed
theorem Told.counts {b s : State} {k : Nat} (h : Told b k s) : s.counts = b.counts := congrArg (·.2.1) h.fixed
theorem Told.attach {b s : State} {k : Nat} (h : Told b k s) : s.attach = b.attach := congrArg (·.2.2.1) h.fixed
theorem Told.lost {b s : State} {k : Nat} (h : Told b k s) : s.lost = b.lost := congrArg (·.2.2.2.1) h.fixed
theorem Told.memzone {b s : State} {k : Nat} (h : Told b k s) : s.memzone = b.memzone := congrArg (·.2.2.2.2) h.fixed

theorem Told.refl (s : State) : Told s 0 s := ⟨rfl, Nat.le_refl _, fun _ => rfl, rfl⟩

/-- Work that does not touch the hart. -/
theorem Told.step {b s s' : State} {k : Nat} (h : Told b k s) (hart : s'.hart = s.hart)
    (reports : s.disp.reports.length ≤ s'.disp.reports.length) (same : Machine.fixed s' = Machine.fixed s) : Told b k s' where
  hart := hart ▸ h.hart
  more := Nat.le_trans h.more reports
  kept e := by
    have := h.more
    rw [hart]
    exact h.kept (by omega)
  fixed := same.trans h.fixed

/-- Two runs of the machine's own work side by side: the first has led from `b` to `s`, and the second to a twin of `s`. -/
structure Beside (b : State) (k : Nat) (s t : State) : Prop where
  told : Told b k s
  twin : Twin s t

theorem Beside.of_twin {s t : State} (h : Twin s t) : Beside s 0 s t := ⟨.refl s, h⟩

/-- A function that has nothing to do with contexts, cores and clusters. -/
structure Aside (f : State → State) : Prop where
  apart : ∀ s h c k, f (withUnits s h c k) = withUnits (f s) h c k
  fixed : ∀ s, fixed (f s) = fixed s
  reports : ∀ s, s.disp.reports.length ≤ (f s).disp.reports.length

section
variable {f g : State → State}

theorem Aside.id : Aside fun s => s := ⟨fun _ _ _ _ => rfl, fun _ => rfl, fun _ => Nat.le_refl _⟩

theorem Aside.comp (hf : Aside f) (hg : Aside g) : Aside fun s => f (g s) where
  apart s h c k := by rw [hg.apart, hf.apart]
  fixed s := (hf.fixed _).trans (hg.fixed s)
  reports s := Nat.le_trans (hg.reports s) (hf.reports _)

theorem Aside.ite {p : State → Bool} (hp : ∀ s h c k, p (withUnits s h c k) = p s) (hf : Aside f) (hg : Aside g) :
    Aside fun s => if p s then f s else g s where
  apart s h c k := by
    simp only [hp, hf.apart, hg.apart]
    split <;> rfl
  fixed s := by
    split
    · exact hf.fixed s
    · exact hg.fixed s
  reports s := by
    split
    · exact hf.reports s
    · exact hg.reports s

theorem Aside.units (hf : Aside f) (s : State) : f s = withUnits (f s) s.hart s.cores s.clusters := hf.apart s s.hart s.cores s.clusters

theorem Aside.twin (hf : Aside f) {s t : State} (h : Twin s t) : Twin (f s) (f t) := by
  have atCore : ∀ u c, coreAt (f u) c = coreAt u c := fun u c => by rw [hf.units]; rfl
  have atCluster : ∀ u n, clusterAt (f u) n = clusterAt u n := fun u n => by rw [hf.units]; rfl
  have hart : (f s).hart = s.hart := by rw [hf.units]; rfl
  refine ⟨?_, fun c => ?_, fun n => ?_⟩
  · obtain ⟨_, _, _, rfl⟩ := h.whole
    rw [hf.apart, hart]
    exact ⟨_, _, _, rfl⟩
  · rw [atCore, atCore]; exact h.core c
  · rw [atCluster, atCluster]; exact h.cluster n

theorem Aside.beside (hf : Aside f) {b s t : State} {k : Nat} (h : Beside b k s t) : Beside b k (f s) (f t) :=
  ⟨h.told.step (by rw [hf.units]; rfl) (hf.reports s) (hf.fixed s), hf.twin h.twin⟩

end

section
variable {b s t : State} {k : Nat}

/-- Work that changes cores and clusters alone. -/
theorem Beside.units {s' t' : State} (h : Beside b k s t) (left : s' = withUnits s s.hart s'.cores s'.clusters) (twin : Twin s' t') :
    Beside b k s' t' := ⟨h.told.step (by rw [left]; rfl) (by rw [left]; exact Nat.le_refl _) (by rw [left]; rfl), twin⟩

theorem setCore_beside (h : Beside b k s t) (c : Nat) {x y : CoreSt} (e : y = { x with tlb := y.tlb }) :
    Beside b k (setCore s c x) (setCore t c y) := h.units rfl (h.twin.setCore c e)

theorem setCluster_beside (h : Beside b k s t) (n : Nat) {x y : ClusterSt} (e : y = { x with tlb := y.tlb }) :
    Beside b k (setCluster s n x) (setCluster t n y) := h.units rfl (h.twin.setCluster n e)

theorem foldl_beside {β : Type} {f : State → β → State} (hf : ∀ {s t}, Beside b k s t → ∀ x, Beside b k (f s x) (f t x)) :
    ∀ (l : List β) {s t : State}, Beside b k s t → Beside b k (l.foldl f s) (l.foldl f t)
  | [], _, _, h => h
  | x :: l, _, _, h => foldl_beside hf l (hf h x)

theorem forUp_beside {f : Nat → State → State} (hf : ∀ i {s t}, Beside b k s t → Beside b k (f i s) (f i t)) :
    ∀ (n lo : Nat) {s t : State}, Beside b k s t → Beside b k (forUp n lo f s) (forUp n lo f t)
  | 0, _, _, _, h => h
  | n + 1, lo, _, _, h => forUp_beside hf n (lo + 1) (hf lo h)

theorem Beside.ite {c d : Prop} [Decidable c] [Decidable d] (e : d ↔ c) {s' t' : State} (yes : Beside b k s t) (no : Beside b k s' t') :
    Beside b k (if c then s else s') (if d then t else t') := by
  by_cases hc : c
  · rwa [if_pos hc, if_pos (e.mpr hc)]
  · rwa [if_neg hc, if_neg (mt e.mp hc)]

end

end Sys2Proof.Machine
end

