-- ==== Sys2Proof/Proofs/TwinLeases.lean ====
section
/-! SUPPORT. Reports, scores and the leases that they start, side by side (R341, R388-R400). -/

namespace Sys2Proof.Machine

/-! ## Work that has nothing to do with contexts, cores and clusters -/

theorem nextTick_aside : Aside nextTick := ⟨fun _ _ _ _ => rfl, fun _ => rfl, fun _ => Nat.le_refl _⟩

theorem report_aside (w : List Word) : Aside fun s => report s w :=
  ⟨fun _ _ _ _ => rfl, fun _ => rfl, fun s => by simp [report]⟩

theorem reportRoute_aside (a b : Nat) : Aside fun s => reportRoute s a b := by
  have e : (fun s => reportRoute s a b) = fun s =>
      if (s.disp.reports.getLast? == some (routingFailure a b)) = true then s else report s (routingFailure a b) := by
    funext s
    simp [reportRoute]
  rw [e]
  exact .ite (fun _ _ _ _ => rfl) .id (report_aside _)

theorem reportLeg_aside (l : Option (Nat × Nat)) : Aside fun s => reportLeg s l := by
  cases l with
  | none => exact .id
  | some l => exact reportRoute_aside l.1 l.2

theorem setStep_aside (r : StepRec) : Aside fun s => setStep s r := ⟨fun _ _ _ _ => rfl, fun _ => rfl, fun _ => Nat.le_refl _⟩

theorem setSvc_aside (f : Service → Service) : Aside fun s => { s with svc := f s.svc } :=
  ⟨fun _ _ _ _ => rfl, fun _ => rfl, fun _ => Nat.le_refl _⟩

theorem readTime_aside : Aside fun s => (readTime s).2 := ⟨fun _ _ _ _ => rfl, fun _ => rfl, fun _ => Nat.le_refl _⟩

theorem addEarly_aside (cls unit : Nat) : Aside fun s => addEarly s cls unit := by
  have e : (fun s => addEarly s cls unit) = fun s =>
      if decide (leaseOf s cls unit ≠ .inService || s.svc.early.contains (cls, unit) || s.ports.talkative) = true then s
      else { s with svc := { s.svc with early := s.svc.early ++ [(cls, unit)] } } := by
    funext s
    simp [addEarly]
  rw [e]
  exact .ite (fun _ _ _ _ => rfl) .id (setSvc_aside fun v => { v with early := v.early ++ [(cls, unit)] })

section
variable {b s t : State} {k : Nat}

theorem report_beside (h : Beside b k s t) (w : List Word) : Beside b (k + 1) (report s w) (report t w) := by
  have one := (report_aside w).beside h
  have more : b.disp.reports.length + (k + 1) ≤ (report s w).disp.reports.length := by
    have := h.told.more
    simp only [report, List.length_append, List.length_cons, List.length_nil]
    omega
  exact ⟨{ one.told with more := more }, one.twin⟩

theorem Beside.weaken {m : Nat} (h : Beside b k s t) (le : m ≤ k) : Beside b m s t :=
  ⟨{ h.told with more := Nat.le_trans (Nat.add_le_add_left le _) h.told.more }, h.twin⟩

/-! ## Notices -/

theorem pushNotice_frame (w : Word) (h : Hart) :
    pushNotice w h = { h with notices := (pushNotice w h).notices, lost := (pushNotice w h).lost } := by
  unfold pushNotice
  split <;> rfl

theorem pushNotice_phase (w : Word) (h : Hart) (p : Nat) : pushNotice w { h with phase := p } = { pushNotice w h with phase := p } := by
  unfold pushNotice
  dsimp only
  split <;> rfl

theorem Twin.hartAt (h : Twin s t) (slot : Nat) : ∃ p, hartAt t slot = { hartAt s slot with phase := p } := by
  unfold Machine.hartAt
  rw [h.cur, h.rest]
  split
  · exact ⟨_, h.hart⟩
  · exact ⟨_, rfl⟩

/-- A notice reaches a hart, where firmware has been told of something (R341). -/
theorem notice_beside (h : Beside b (k + 1) s t) (slot : Nat) (w : Word) :
    Beside b (k + 1) (setHart s slot (pushNotice w (hartAt s slot))) (setHart t slot (pushNotice w (hartAt t slot))) := by
  unfold setHart hartAt
  rw [h.twin.cur, h.twin.rest]
  split
  · refine ⟨⟨?_, h.told.more, fun e => ?_, h.told.fixed⟩, ⟨?_, h.twin.core, h.twin.cluster⟩⟩
    · exact (pushNotice_frame w s.hart).trans (by rw [h.told.hart])
    · exact absurd e (by have := h.told.more; show s.disp.reports.length ≠ _; omega)
    · obtain ⟨⟨p, c, k, rfl⟩, -, -⟩ := h.twin
      refine ⟨p, c, k, ?_⟩
      simp only [withUnits, pushNotice_phase]
  · refine ⟨h.told.step rfl (Nat.le_refl _) rfl, ⟨?_, h.twin.core, h.twin.cluster⟩⟩
    obtain ⟨⟨p, c, k, rfl⟩, -, -⟩ := h.twin
    exact ⟨p, c, k, rfl⟩

theorem noticeAll_beside (h : Beside b (k + 1) s t) (kind cls unit : Nat) (w : Word) :
    Beside b (k + 1) (noticeAll s kind cls unit w) (noticeAll t kind cls unit w) := by
  unfold noticeAll
  rw [h.twin.read runningSlots fun _ _ _ _ => rfl]
  refine foldl_beside (fun {s t} h slot => ?_) _ h
  obtain ⟨p, e⟩ := h.twin.hartAt slot
  have same : (hartAt t slot).tdone = (hartAt s slot).tdone := by rw [e]
  dsimp only
  rw [same]
  split
  · exact h
  · exact notice_beside h slot _

theorem noticeTeam_beside (h : Beside b (k + 1) s t) (c : Nat) (w : Word) : Beside b (k + 1) (noticeTeam s c w) (noticeTeam t c w) := by
  unfold noticeTeam
  rw [h.twin.read (runningSlot · c) fun _ _ _ _ => rfl]
  split
  · next slot _ =>
    dsimp only
    rw [h.twin.read (slotAt · slot) fun _ _ _ _ => rfl, h.twin.read runningSlots fun _ _ _ _ => rfl, h.twin.read slotAt fun _ _ _ _ => rfl]
    split
    · exact h
    · exact foldl_beside (fun h j => notice_beside h j _) _ h
  · exact h

theorem setLeaseAt_beside (h : Beside b (k + 1) s t) (cls unit : Nat) (l : Lease) (now : Word) :
    Beside b (k + 1) (setLeaseAt s cls unit l now) (setLeaseAt t cls unit l now) := by
  unfold setLeaseAt
  rw [h.twin.read (leaseOf · cls unit) fun _ _ _ _ => rfl, h.twin.svc]
  dsimp only
  generalize hv : ({ s.svc with lease := _, gen := _ } : Service) = v
  have moved := (setSvc_aside fun _ => v).beside h
  split
  · exact noticeAll_beside moved ..
  · split
    · exact noticeAll_beside moved ..
    · split
      · exact noticeAll_beside moved ..
      · exact moved

/-! ## Bindings -/

theorem tget_map {α : Type} (f : Nat → α → α) (n : Nat) : ∀ t : Tbl α,
    tget (List.map (fun x : Nat × α => (x.1, f x.1 x.2)) t) n = (tget t n).map (f n)
  | [] => rfl
  | (m, a) :: t => by
    by_cases e : m = n
    · subst e; simp [tget]
    · simp [tget, e, tget_map f n t]

theorem tgetD_map {α : Type} (f : Nat → α → α) (t : Tbl α) (n : Nat) (d : α) (hd : f n d = d) :
    tgetD (List.map (fun x : Nat × α => (x.1, f x.1 x.2)) t) n d = f n (tgetD t n d) := by
  unfold tgetD
  rw [tget_map]
  cases tget t n with
  | none => exact hd.symm
  | some a => rfl

theorem coreAt_dropBound (s : State) (handle : Nat) (on : Nat → Bool) (c : Nat) : coreAt (dropBound s handle on) c =
    if on c then { coreAt s c with bindq := (coreAt s c).bindq.filter (· != handle) } else coreAt s c :=
  tgetD_map (fun n (x : CoreSt) => if on n then { x with bindq := x.bindq.filter (· != handle) } else x) s.cores c CoreSt.reset
    (by split <;> rfl)

theorem dropBound_beside (h : Beside b k s t) (handle : Nat) (on : Nat → Bool) :
    Beside b k (dropBound s handle on) (dropBound t handle on) := by
  refine ⟨h.told.step rfl (Nat.le_refl _) rfl, ⟨?_, fun c => ?_, h.twin.cluster⟩⟩
  · obtain ⟨⟨p, c, k, rfl⟩, -, -⟩ := h.twin
    exact ⟨p, _, k, rfl⟩
  · rw [coreAt_dropBound, coreAt_dropBound]
    split
    · rw [h.twin.core c]
    · exact h.twin.core c

theorem unbindStep_beside (h : Beside b k s t) (handle : Nat) : Beside b k (unbindStep s handle) (unbindStep t handle) := by
  unfold unbindStep
  rw [h.twin.read (findStep · handle) fun _ _ _ _ => rfl]
  split
  · split
    · exact (setStep_aside _).beside (dropBound_beside h ..)
    · exact h
  · exact h

theorem unbindAt_beside (h : Beside b k s t) (c handle : Nat) : Beside b k (unbindAt c s handle) (unbindAt c t handle) := by
  unfold unbindAt
  rw [h.twin.read (findStep · handle) fun _ _ _ _ => rfl]
  split
  · split
    · exact (setStep_aside _).beside (dropBound_beside h ..)
    · exact unbindStep_beside h handle
  · exact h

theorem unbindTeams_beside (h : Beside b k s t) : Beside b k (unbindTeams s) (unbindTeams t) := by
  unfold unbindTeams
  rw [h.twin.disp]
  refine foldl_beside (fun {s t} h r => ?_) _ h
  rw [h.twin.read rcdTooWide fun _ _ _ _ => rfl, h.twin.slots]
  split
  · exact unbindStep_beside h _
  · exact h

theorem unbindCore_beside (h : Beside b k s t) (c : Nat) : Beside b k (unbindCore s c) (unbindCore t c) := by
  unfold unbindCore
  rw [h.twin.read slotAt fun _ _ _ _ => rfl, h.twin.bindq]
  exact foldl_beside (fun h handle => unbindAt_beside h c handle) _ h

/-! ## Leases and scores -/

theorem startLease_beside (h : Beside b (k + 1) s t) (cls unit : Nat) (now : Bool) :
    Beside b (k + 1) (startLease s cls unit now) (startLease t cls unit now) := by
  unfold startLease
  rw [h.twin.read (leaseOf · cls unit) fun _ _ _ _ => rfl, h.twin.ports]
  split
  · exact h
  · have time : (readTime t).1 = (readTime s).1 := h.twin.read (fun s => (readTime s).1) fun _ _ _ _ => rfl
    have told := readTime_aside.beside h
    dsimp only
    rw [time]
    generalize (readTime s).1 = w
    have noticed : Beside b (k + 1) (if cls = 0 then noticeTeam (readTime s).2 unit w else (readTime s).2)
        (if cls = 0 then noticeTeam (readTime t).2 unit w else (readTime t).2) :=
      .ite .rfl (noticeTeam_beside told unit w) told
    have set := setLeaseAt_beside noticed cls unit .drain w
    generalize setLeaseAt (if cls = 0 then noticeTeam (readTime s).2 unit w else (readTime s).2) cls unit .drain w = s1 at set ⊢
    generalize setLeaseAt (if cls = 0 then noticeTeam (readTime t).2 unit w else (readTime t).2) cls unit .drain w = t1 at set ⊢
    have unbound : Beside b (k + 1) (if cls = 0 then unbindTeams (unbindCore s1 unit) else s1)
        (if cls = 0 then unbindTeams (unbindCore t1 unit) else t1) :=
      .ite .rfl (unbindTeams_beside (unbindCore_beside set unit)) set
    generalize (if cls = 0 then unbindTeams (unbindCore s1 unit) else s1) = s2 at unbound ⊢
    generalize (if cls = 0 then unbindTeams (unbindCore t1 unit) else t1) = t2 at unbound ⊢
    have queued := (setSvc_aside fun v => { v with
      early := v.early.filter (· != (cls, unit))
      quarantined := if cls = 0 then v.quarantined.filter (· != unit) else v.quarantined }).beside unbound
    have expires : Aside fun s => { s with agenda := .expire (BitVec.ofNat 2 cls) unit :: s.agenda } :=
      ⟨fun _ _ _ _ => rfl, fun _ => rfl, fun _ => Nat.le_refl _⟩
    exact .ite .rfl (expires.beside queued) queued

theorem nextQuarantine_beside (h : Beside b (k + 1) s t) (cls unit : Nat) :
    Beside b (k + 1) (nextQuarantine s cls unit) (nextQuarantine t cls unit) := by
  unfold nextQuarantine
  rw [h.twin.read busyLease fun _ _ _ _ => rfl, h.twin.read leaseOf fun _ _ _ _ => rfl, h.twin.svc]
  split
  · exact h
  · split
    · exact startLease_beside h ..
    · exact h

theorem applyThresholds_beside (h : Beside b (k + 1) s t) (ix old new : Nat) :
    Beside b (k + 1) (applyThresholds s ix old new) (applyThresholds t ix old new) := by
  unfold applyThresholds
  dsimp only
  have told : Beside b (k + 1) (if (old < 256 && 256 ≤ new) || (old < 1024 && 1024 ≤ new) then
        report s [BitVec.ofNat 64 ix, BitVec.ofNat 64 new] else s)
      (if (old < 256 && 256 ≤ new) || (old < 1024 && 1024 ≤ new) then
        report t [BitVec.ofNat 64 ix, BitVec.ofNat 64 new] else t) :=
    .ite .rfl ((report_aside _).beside h) h
  generalize (if (old < 256 && 256 ≤ new) || (old < 1024 && 1024 ≤ new) then
    report s [BitVec.ofNat 64 ix, BitVec.ofNat 64 new] else s) = s1 at told ⊢
  generalize (if (old < 256 && 256 ≤ new) || (old < 1024 && 1024 ≤ new) then
    report t [BitVec.ofNat 64 ix, BitVec.ofNat 64 new] else t) = t1 at told ⊢
  rw [told.twin.read leaseOf fun _ _ _ _ => rfl, told.twin.svc]
  split
  · split
    · exact nextQuarantine_beside ((setSvc_aside fun _ => _).beside told) ..
    · exact foldl_beside (fun h u => startLease_beside h u.1 u.2 true) _ told
  · split
    · exact foldl_beside (fun h u => (addEarly_aside u.1 u.2).beside h) _ told
    · exact told

theorem addScore_beside (h : Beside b (k + 1) s t) (ix n : Nat) : Beside b (k + 1) (addScore s ix n) (addScore t ix n) := by
  unfold addScore setScore
  rw [h.twin.svc]
  split
  · exact h
  · exact applyThresholds_beside ((setSvc_aside fun _ => _).beside h) ..

/-- A granule that fails its check outside any hart is reported before the scores rise (R168, R170). -/
theorem reportCheck_beside (h : Beside b k s t) (core : Option Nat) (gran : Nat) (g : Granule) (path : Word) :
    Beside b k (reportCheck s core gran g path) (reportCheck t core gran g path) := by
  have scored : ∀ {s t}, Beside b (k + 1) s t → Beside b (k + 1) (scoreCheck s core g.prod path) (scoreCheck t core g.prod path) :=
    fun h => foldl_beside (fun h r => addScore_beside h r.1 r.2) _ h
  exact (scored (report_beside h _)).weaken (Nat.le_succ k)

end

end Sys2Proof.Machine
end

