-- ==== Sys2Proof/Proofs/TwinDrains.lean ====
section
/-! SUPPORT. Fills, invalidations, drains and placed copies side by side (R94-R96, R106, R117, R154). -/

namespace Sys2Proof.Machine

/-! ## The home junction -/

theorem setO3_aside (f : Tbl OutEntry → Tbl OutEntry) : Aside fun s => { s with o3 := f s.o3 } :=
  ⟨fun _ _ _ _ => rfl, fun _ => rfl, fun _ => Nat.le_refl _⟩

theorem setBuffer_aside (f : Ports → Ports) : Aside fun s => { s with ports := f s.ports } :=
  ⟨fun _ _ _ _ => rfl, fun _ => rfl, fun _ => Nat.le_refl _⟩

theorem refreshI3_aside (gran : Nat) : Aside fun s => refreshI3 s gran :=
  .ite (p := fun s => (lineOf gran).any fun k => (tget s.i3 k).isSome) (fun _ _ _ _ => rfl)
    ⟨fun _ _ _ _ => rfl, fun _ => rfl, fun _ => Nat.le_refl _⟩ .id

theorem setHbm_aside (gran : Nat) (g : Granule) : Aside fun s => setHbm s gran g where
  apart s h c k := by simp only [setHbm, withUnits]
  fixed s := by simp only [setHbm, fixed]
  reports s := by simp only [setHbm, Nat.le_refl]

theorem writeBack_aside (gran : Nat) : Aside fun s => writeBack s gran where
  apart s h c k := by
    unfold writeBack
    rw [show (withUnits s h c k).o3 = s.o3 from rfl]
    split
    · exact (setHbm_aside ..).apart { s with o3 := _, hbmSeq := _ } h c k
    · rfl
  fixed s := by
    unfold writeBack
    split
    · exact (setHbm_aside ..).fixed _
    · rfl
  reports s := by
    unfold writeBack
    split
    · next e _ => exact (setHbm_aside gran e.g).reports { s with o3 := _, hbmSeq := _ }
    · exact Nat.le_refl _

theorem roomO3_aside (gran : Nat) : Aside fun s => roomO3 s gran where
  apart s h c k := by
    unfold roomO3
    dsimp only
    rw [show (withUnits s h c k).o3 = s.o3 from rfl, show junctionOf (withUnits s h c k) = junctionOf s from rfl]
    split
    · rfl
    · split
      · exact (writeBack_aside _).apart ..
      · rfl
  fixed s := by
    unfold roomO3
    dsimp only
    split
    · rfl
    · split
      · exact (writeBack_aside _).fixed s
      · rfl
  reports s := by
    unfold roomO3
    dsimp only
    split
    · exact Nat.le_refl _
    · split
      · exact (writeBack_aside _).reports s
      · exact Nat.le_refl _

theorem putO3At_aside (gran : Nat) (g : Granule) (seq : Nat) : Aside fun s => putO3At s gran g seq :=
  (refreshI3_aside gran).comp ((setO3_aside fun t => tput t gran ⟨g, none, seq, false, false, 0, seq⟩).comp (roomO3_aside gran))

theorem setOvf_aside (r : Nat) (sat : Bool) : Aside fun s => setOvf s r sat :=
  .ite (p := fun _ => sat) (fun _ _ _ _ => rfl) ⟨fun _ _ _ _ => rfl, fun _ => rfl, fun _ => Nat.le_refl _⟩ .id

theorem fillI3_aside (gran : Nat) : Aside fun s => fillI3 s gran :=
  .ite (p := fun s => (tget s.i3 gran).isSome) (fun _ _ _ _ => rfl) .id ⟨fun _ _ _ _ => rfl, fun _ => rfl, fun _ => Nat.le_refl _⟩

section
variable {b s t : State} {k : Nat}

theorem putO3_beside (h : Beside b k s t) (gran : Nat) (g : Granule) : Beside b k (putO3 s gran g) (putO3 t gran g) := by
  unfold putO3
  rw [h.twin.disp]
  exact (putO3At_aside ..).beside h

theorem deliverRemote_beside (h : Beside b k s t) (gran : Nat) : Beside b k (deliverRemote s gran) (deliverRemote t gran) := by
  unfold deliverRemote
  rw [h.twin.ports]
  split
  · split
    · exact (setBuffer_aside fun _ => _).beside h
    · exact reportCheck_beside h ..
  · exact h

theorem roomBuffer_beside (h : Beside b k s t) (gran : Nat) : Beside b k (roomBuffer s gran) (roomBuffer t gran) := by
  unfold roomBuffer
  rw [h.twin.read (bufferFits · gran) fun _ _ _ _ => rfl, h.twin.read (bufferOf · gran) fun _ _ _ _ => rfl]
  split
  · exact h
  · split
    · exact deliverRemote_beside h _
    · exact h

theorem reportHome_beside (h : Beside b k s t) (n gran : Nat) : Beside b k (reportHome s n gran) (reportHome t n gran) := by
  unfold reportHome
  rw [h.twin.read (writeLeg · (some n) gran) fun _ _ _ _ => rfl]
  exact (reportLeg_aside _).beside h

/-! ## Inbound levels -/

theorem Twin.peekI2 (h : Twin s t) (n gran : Nat) : peekI2 t n gran = peekI2 s n gran := by
  unfold Machine.peekI2
  rw [h.i2, h.read (peekI3 · gran) fun _ _ _ _ => rfl]

theorem setI2_beside (h : Beside b k s t) (n : Nat) (x : Tbl Copy) : Beside b k (setI2 s n x) (setI2 t n x) := by
  unfold setI2
  rw [h.twin.read peekI3 fun _ _ _ _ => rfl]
  exact setCluster_beside h n (by rw [h.twin.cluster n]; rfl)

theorem setI1_beside (h : Beside b k s t) (c : Nat) (x : Tbl Copy) : Beside b k (setI1 s c x) (setI1 t c x) := by
  unfold setI1
  simp only [h.twin.peekI2]
  exact setCore_beside h c (by rw [h.twin.core c])

theorem dropStash_beside (h : Beside b k s t) (n : Nat) (p : Nat → Bool) :
    Beside b k (setCluster s n (dropStash (clusterAt s n) p)) (setCluster t n (dropStash (clusterAt t n) p)) :=
  setCluster_beside h n (by rw [h.twin.cluster n]; rfl)

theorem invI1_beside (h : Beside b k s t) (c : Nat) (p : Nat → Bool) : Beside b k (invI1 s c p) (invI1 t c p) := by
  unfold invI1
  rw [h.twin.i1]
  exact setI1_beside h ..

theorem invI2_beside (h : Beside b k s t) (n : Nat) (p : Nat → Bool) : Beside b k (invI2 s n p) (invI2 t n p) := by
  unfold invI2
  rw [h.twin.i2]
  exact dropStash_beside (setI2_beside h ..) ..

theorem invCluster_beside (h : Beside b k s t) (n : Nat) (p : Nat → Bool) : Beside b k (invCluster s n p) (invCluster t n p) :=
  foldl_beside (fun h c => invI1_beside h c p) _ (invI2_beside h n p)

theorem dropI1s_beside (h : Beside b k s t) (n gran : Nat) : Beside b k (dropI1s s n gran) (dropI1s t n gran) :=
  foldl_beside (fun {s t} h c => by rw [h.twin.i1]; exact setI1_beside h ..) _ h

theorem fillI2_beside (h : Beside b k s t) (n gran : Nat) : Beside b k (fillI2 s n gran) (fillI2 t n gran) := by
  unfold fillI2
  rw [h.twin.i2]
  split
  · exact h
  · have filled := (fillI3_aside gran).beside h
    dsimp only
    rw [filled.twin.tick, filled.twin.i2]
    simp only [filled.twin.peekI2]
    exact nextTick_aside.beside (setI2_beside filled ..)

theorem Twin.outboundOf (h : Twin s t) (n gran : Nat) : outboundOf t n gran = outboundOf s n gran := by
  simp only [Machine.outboundOf, h.o1, h.o2, h.o2held]

theorem settle_beside (h : Beside b k s t) (n gran : Nat) (e : OutEntry) : Beside b k (settle s n gran e) (settle t n gran e) := by
  unfold settle
  rw [h.twin.outboundOf, h.twin.i2]
  exact foldl_beside (fun {s t} h c => by rw [h.twin.i1]; exact setI1_beside h ..) _ (setI2_beside h ..)

/-! ## From O2 to the homes -/

theorem arriveHome_beside (h : Beside b k s t) (n gran : Nat) (e : OutEntry) :
    Beside b k (arriveHome s n gran e) (arriveHome t n gran e) := by
  unfold arriveHome
  split
  · exact settle_beside ((putO3At_aside ..).beside h) ..
  · have room := roomBuffer_beside h gran
    exact (setBuffer_aside fun p => { p with buffer := tput p.buffer gran { e with held := none } }).beside room

theorem drainO2_beside (h : Beside b k s t) (n gran : Nat) : Beside b k (drainO2 s n gran) (drainO2 t n gran) := by
  unfold drainO2
  dsimp only
  rw [h.twin.o2, h.twin.read (homeTakes · n gran) fun _ _ _ _ => rfl]
  split
  · split
    · exact arriveHome_beside (setCluster_beside h n (by rw [h.twin.cluster n])) ..
    · exact reportHome_beside h ..
  · exact h

theorem combineAtJunction_beside (h : Beside b k s t) (p : Partial) : Beside b k (combineAtJunction s p) (combineAtJunction t p) := by
  unfold combineAtJunction
  dsimp only
  rw [h.twin.read (peekJ · (p.pa / 64)) fun _ _ _ _ => rfl, h.twin.read (crngcOf · p.range) fun _ _ _ _ => rfl]
  split
  · exact reportCheck_beside h ..
  · have set := (setOvf_aside p.range (rangeCombine (crngcOf s p.range)
      (toSigned (8 * crngElem (crngcOf s p.range)) (granuleBytes (peekJ s (p.pa / 64)).c.g.data (p.pa % 64) (crngElem (crngcOf s p.range))))
      p.val).2).beside h
    rw [set.twin.read (junctionOf · (p.pa / 64)) fun _ _ _ _ => rfl]
    exact putO3_beside set ..

theorem sendPartial_beside (h : Beside b k s t) (n : Nat) (p : Partial) : Beside b k (sendPartial n s p) (sendPartial n t p) := by
  unfold sendPartial
  dsimp only
  rw [h.twin.partials, h.twin.read (homeTakes · n (p.pa / 64)) fun _ _ _ _ => rfl]
  split
  · exact combineAtJunction_beside (setCluster_beside h n (by rw [h.twin.cluster n])) p
  · exact reportHome_beside h ..

theorem combinePartials_beside (h : Beside b k s t) (n : Nat) (p : Partial → Bool) :
    Beside b k (combinePartials s n p) (combinePartials t n p) := by
  unfold combinePartials
  rw [h.twin.partials]
  exact foldl_beside (fun h q => sendPartial_beside h n q) _ h

/-! ## Room in O2, and from O1 to O2 -/

theorem Twin.o2Bytes (h : Twin s t) (n : Nat) : o2Bytes t n = o2Bytes s n := by
  simp only [Machine.o2Bytes, partialBytes, h.o2, h.o2held, h.partials, h.crngc]

theorem Twin.o2Fits (h : Twin s t) (n bytes : Nat) : o2Fits t n bytes = o2Fits s n bytes := by
  simp only [Machine.o2Fits, h.o2Bytes]

theorem Twin.o2Has (h : Twin s t) (n gran : Nat) (held : Option Nat) : o2Has t n gran held = o2Has s n gran held := by
  simp only [Machine.o2Has, h.o2, h.o2held]

theorem Twin.o2Takes (h : Twin s t) (n gran : Nat) (held : Option Nat) : o2Takes t n gran held = o2Takes s n gran held := by
  simp only [Machine.o2Takes, h.o2Has, h.o2Fits, h.read (homeTakes · n gran) fun _ _ _ _ => rfl]

theorem roomO2_beside (h : Beside b k s t) (n bytes : Nat) : Beside b k (roomO2 s n bytes) (roomO2 t n bytes) := by
  unfold roomO2
  rw [h.twin.o2Fits, h.twin.o2, h.twin.read homeTakes fun _ _ _ _ => rfl]
  split
  · exact h
  · split
    · exact drainO2_beside h ..
    · exact combinePartials_beside h ..

theorem readyO2_beside (h : Beside b k s t) (n gran : Nat) (held : Option Nat) :
    Beside b k (readyO2 s n gran held) (readyO2 t n gran held) := by
  unfold readyO2
  rw [h.twin.o2Has]
  split
  · exact h
  · exact roomO2_beside h ..

theorem passO2_beside (h : Beside b k s t) (n gran : Nat) : Beside b k (passO2 s n gran) (passO2 t n gran) := by
  unfold passO2
  rw [h.twin.o2Bytes]
  split
  · exact drainO2_beside h ..
  · exact h

theorem enterO2_beside (h : Beside b k s t) (n gran : Nat) (e : OutEntry) : Beside b k (enterO2 s n gran e) (enterO2 t n gran e) := by
  unfold enterO2
  dsimp only
  rw [h.twin.o2, h.twin.o2held]
  split
  · exact setCluster_beside h n (by rw [h.twin.cluster n])
  · exact setCluster_beside h n (by rw [h.twin.cluster n])

theorem leaveO1_beside (h : Beside b k s t) (c gran : Nat) (e : OutEntry) : Beside b k (leaveO1 s c gran e) (leaveO1 t c gran e) :=
  passO2_beside (enterO2_beside (setCore_beside h c (by rw [h.twin.core c])) ..) ..

theorem moveO1_beside (h : Beside b k s t) (c gran : Nat) : Beside b k (moveO1 s c gran) (moveO1 t c gran) := by
  unfold moveO1
  dsimp only
  rw [h.twin.o1]
  split
  · next e _ =>
    have ready := readyO2_beside h (clusterOfCore c) gran e.held
    rw [ready.twin.o2Takes]
    split
    · exact leaveO1_beside ready ..
    · exact reportHome_beside ready ..
  · exact h

/-! ## Copies of outbound entries -/

theorem drainCluster_beside (h : Beside b k s t) (n : Nat) : Beside b k (drainCluster s n) (drainCluster t n) := by
  have moved := foldl_beside (b := b) (k := k) (f := fun s c =>
      (((coreAt s c).o1.filter fun x => x.2.held.isNone && !x.2.self).map (·.1)).foldl (fun s g => moveO1 s c g) s)
    (fun {s t} h c => by rw [h.twin.o1]; exact foldl_beside (fun h g => moveO1_beside h c g) _ h) (coresOf n) h
  unfold drainCluster
  dsimp only
  rw [moved.twin.o2]
  exact foldl_beside (fun h g => drainO2_beside h n g) _ moved

theorem roomI2_beside (h : Beside b k s t) (n gran : Nat) : Beside b k (roomI2 s n gran) (roomI2 t n gran) := by
  unfold roomI2
  rw [h.twin.i2]
  split
  · exact h
  · have freed : Beside b k (if (clusterAt s n).i2.any fun kc => evictable (clusterAt s n).i2 kc.1 then s else drainCluster s n)
        (if (clusterAt s n).i2.any fun kc => evictable (clusterAt s n).i2 kc.1 then t else drainCluster t n) :=
      .ite .rfl h (drainCluster_beside h n)
    dsimp only
    rw [freed.twin.tick, freed.twin.i2]
    exact nextTick_aside.beside (setI2_beside freed ..)

theorem roomI1_beside (h : Beside b k s t) (c gran : Nat) : Beside b k (roomI1 s c gran) (roomI1 t c gran) := by
  unfold roomI1
  rw [h.twin.i1, h.twin.i1Lines, h.twin.tick]
  split
  · exact h
  · exact nextTick_aside.beside (setI1_beside h ..)

theorem Twin.standsOut (h : Twin s t) (n gran seq : Nat) : standsOut t n gran seq = standsOut s n gran seq := by
  simp only [Machine.standsOut, h.o1, h.o2, h.o2held]

theorem Twin.i2Takes (h : Twin s t) (n gran : Nat) : i2Takes t n gran = i2Takes s n gran := by
  simp only [Machine.i2Takes, h.i2]

theorem Twin.i1Takes (h : Twin s t) (c gran : Nat) : i1Takes t c gran = i1Takes s c gran := by
  simp only [Machine.i1Takes, h.hasI1, h.i1, h.i1Lines]

theorem Twin.lineLeg (h : Twin s t) (n gran : Nat) : lineLeg t n gran = lineLeg s n gran := by
  unfold Machine.lineLeg
  rw [h.i2, h.read noWay fun _ _ _ _ => rfl, h.read peekI3 fun _ _ _ _ => rfl]

theorem putI2_beside (h : Beside b k s t) (n gran : Nat) (c : Copy) : Beside b k (putI2 s n gran c) (putI2 t n gran c) := by
  have room := roomI2_beside h n gran
  unfold putI2
  dsimp only
  rw [room.twin.i2Takes, room.twin.standsOut]
  split
  · exact room
  · split
    · exact room
    · have filled := (fillI3_aside gran).beside room
      rw [filled.twin.i2]
      exact dropStash_beside (setI2_beside filled ..) ..

theorem putI1_beside (h : Beside b k s t) (c gran : Nat) (x : Copy) : Beside b k (putI1 s c gran x) (putI1 t c gran x) := by
  have filled := fillI2_beside (roomI1_beside h c gran) (clusterOfCore c) gran
  unfold putI1
  dsimp only
  rw [filled.twin.i1]
  exact setI1_beside filled ..

theorem drainSelf_beside (h : Beside b k s t) (c gran : Nat) (e : OutEntry) : Beside b k (drainSelf s c gran e) (drainSelf t c gran e) := by
  have made : Beside b k (if i1Takes s c gran then s else roomI2 s (clusterOfCore c) gran)
      (if i1Takes t c gran then t else roomI2 t (clusterOfCore c) gran) :=
    .ite (by rw [h.twin.i1Takes]) h (roomI2_beside h ..)
  have ready := readyO2_beside made (clusterOfCore c) gran e.held
  unfold drainSelf
  dsimp only
  generalize readyO2 (if i1Takes s c gran then s else roomI2 s (clusterOfCore c) gran) (clusterOfCore c) gran e.held = s1 at ready ⊢
  generalize readyO2 (if i1Takes t c gran then t else roomI2 t (clusterOfCore c) gran) (clusterOfCore c) gran e.held = t1 at ready ⊢
  have tw := ready.twin
  rw [tw.o2Takes, tw.lineLeg, tw.i1Takes, tw.i2Takes, tw.read (homeTakes · (clusterOfCore c) gran) fun _ _ _ _ => rfl]
  split
  · exact reportHome_beside ready ..
  · split
    · exact (reportRoute_aside ..).beside ready
    · split
      · exact leaveO1_beside (putI1_beside ready ..) ..
      · split
        · exact leaveO1_beside (putI2_beside ready ..) ..
        · split
          · exact drainO2_beside (leaveO1_beside ready ..) ..
          · exact reportHome_beside ready ..

theorem drainO1_beside (h : Beside b k s t) (c gran : Nat) : Beside b k (drainO1 s c gran) (drainO1 t c gran) := by
  unfold drainO1
  rw [h.twin.o1]
  split
  · split
    · exact drainSelf_beside h ..
    · exact moveO1_beside h ..
  · exact h

/-- The core's own entries of a granule drain from its O1, if there is one that is not held, and then from O2. -/
theorem drainOwn_eq (s : State) (c gran : Nat) : drainOwn s c gran =
    let u := if (tget (coreAt s c).o1 gran).any (·.held.isNone) then drainO1 s c gran else s
    if (tget (clusterAt u (clusterOfCore c)).o2 gran).any (·.g.prod == c) then drainO2 u (clusterOfCore c) gran else u := by
  unfold drainOwn
  dsimp only
  rcases tget (coreAt s c).o1 gran with _ | e
  · simp only [Option.any_none, Bool.false_eq_true, if_false]
    cases tget (clusterAt s (clusterOfCore c)).o2 gran <;> rfl
  · simp only [Option.any_some]
    cases tget (clusterAt (if e.held.isNone = true then drainO1 s c gran else s) (clusterOfCore c)).o2 gran <;> rfl

theorem drainOwn_beside (h : Beside b k s t) (c gran : Nat) : Beside b k (drainOwn s c gran) (drainOwn t c gran) := by
  have first : Beside b k (if (tget (coreAt s c).o1 gran).any (·.held.isNone) then drainO1 s c gran else s)
      (if (tget (coreAt t c).o1 gran).any (·.held.isNone) then drainO1 t c gran else t) :=
    .ite (by rw [h.twin.o1]) (drainO1_beside h ..) h
  rw [drainOwn_eq, drainOwn_eq]
  exact .ite (by rw [first.twin.o2]) (drainO2_beside first ..) first

theorem Twin.ownWaits (h : Twin s t) (c gran : Nat) : ownWaits t c gran = ownWaits s c gran := by
  simp only [Machine.ownWaits, h.o1, h.o2]

theorem placeLevel1_beside (h : Beside b k s t) (c gran : Nat) (g : Granule) (seq : Nat) :
    Beside b k (placeLevel1 s c gran g seq) (placeLevel1 t c gran g seq) := by
  unfold placeLevel1
  dsimp only
  rw [h.twin.lineLeg, h.twin.i1Takes]
  split
  · exact h
  · split
    · exact (reportLeg_aside _).beside h
    · split
      · exact putI1_beside h ..
      · exact dropI1s_beside (putI2_beside h ..) ..

theorem placeLevel2_beside (h : Beside b k s t) (n gran : Nat) (g : Granule) (seq : Nat) :
    Beside b k (placeLevel2 s n gran g seq) (placeLevel2 t n gran g seq) := by
  unfold placeLevel2
  rw [h.twin.lineLeg]
  split
  · exact h
  · split
    · exact (reportLeg_aside _).beside h
    · exact dropI1s_beside (putI2_beside h ..) ..

end

end Sys2Proof.Machine
end

