-- ==== Sys2Proof/Proofs/TwinReleases.lean ====
section
/-! SUPPORT. Flits, held granules and the drains and publications of a release side by side (R80, R118, R127, R131, R132). -/

namespace Sys2Proof.Machine

section
variable {b s t : State} {k : Nat}

/-! ## Flits -/

theorem setMesh_aside (f : List MeshFlit → List MeshFlit) : Aside fun s => { s with mesh := f s.mesh } :=
  ⟨fun _ _ _ _ => rfl, fun _ => rfl, fun _ => Nat.le_refl _⟩

theorem portCounts_aside (n p : Nat) (v : BitVec 16) : Aside fun s => portCounts s n p v :=
  ⟨fun _ _ _ _ => rfl, fun _ => rfl, fun _ => Nat.le_refl _⟩

theorem applyFlit_beside (h : Beside b k s t) (n : Nat) (f : Flit) : Beside b k (applyFlit s n f) (applyFlit t n f) := by
  cases f with
  | notice src lo hi => exact invCluster_beside h n _
  | count src p level v =>
    unfold applyFlit
    dsimp only
    rw [h.twin.read countsAt fun _ _ _ _ => rfl, h.twin.stale]
    generalize (if level ≥ 4 then _ else _ : Tbl (BitVec 16)) = st
    have set := setCluster_beside h n (x := { clusterAt s n with stale := st }) (y := { clusterAt t n with stale := st })
      (by rw [h.twin.cluster n])
    exact .ite .rfl ((portCounts_aside ..).beside set) set
  | sil src dest => exact h

theorem leavePort_beside (h : Beside b k s t) (f : MeshFlit) (port : Nat) :
    Beside b k (leavePort applyFlit f s port) (leavePort applyFlit f t port) := by
  unfold leavePort
  split
  · exact applyFlit_beside h ..
  · exact (setMesh_aside fun m => m ++ [_]).beside h

theorem meshRun_beside (blocked : Nat → Nat → Bool) : ∀ (n : Nat) {s t : State}, Beside b k s t →
    Beside b k (meshRun applyFlit blocked n s) (meshRun applyFlit blocked n t)
  | 0, _, _, h => h
  | n + 1, s, t, h => by
    simp only [meshRun, meshMove, h.twin.mesh]
    rcases meshNext blocked [] s.mesh with _ | ⟨ahead, f, rest⟩
    · exact h
    · refine meshRun_beside blocked n ?_
      have left := (setMesh_aside fun _ => ahead ++ rest).beside h
      split
      · exact leavePort_beside left f _
      · refine foldl_beside (fun {s t} h port => ?_) _ left
        exact .ite .rfl ((setMesh_aside fun m => m ++ [{ f with branch := some port }]).beside h) (leavePort_beside h f port)

theorem flow_beside (h : Beside b k s t) : Beside b k (flow s) (flow t) := by
  unfold flow
  rw [h.twin.read branchBlocked fun _ _ _ _ => rfl, h.twin.mesh]
  exact nextTick_aside.beside (meshRun_beside _ _ h)

theorem inject_aside (router : Nat) (f : Flit) : Aside fun s => inject s router f :=
  ⟨fun _ _ _ _ => rfl, fun _ => rfl, fun _ => Nat.le_refl _⟩

theorem keepCounts_beside (h : Beside b k s t) (f : Flit) (old : Counts) : Beside b k (keepCounts s f old) (keepCounts t f old) := by
  cases f with
  | notice src lo hi => exact h
  | sil src dest => exact h
  | count src p level v =>
    unfold keepCounts
    dsimp only
    generalize (64 : Nat) = m
    let add := fun (t : Tbl (BitVec 16)) (q : Nat) => if (tget t (512 * q + p)).isSome then t else tput t (512 * q + p) old.p4
    refine .ite .rfl ((setBuffer_aside fun q => { q with stale := (List.range 8).foldl add q.stale }).beside ?_) ?_
    · exact forUp_beside (fun n {s t} h => by rw [h.twin.stale]; exact setCluster_beside h n (by rw [h.twin.cluster n])) m 0 h
    · exact forUp_beside (fun n {s t} h => by rw [h.twin.stale]; exact setCluster_beside h n (by rw [h.twin.cluster n])) m 0 h

theorem multicast_beside (h : Beside b k s t) (f : Flit) (old : Counts) : Beside b k (multicast s f old) (multicast t f old) :=
  flow_beside ((inject_aside ..).beside (keepCounts_beside h f old))

theorem shipSilhouette_beside (h : Beside b k s t) (core gran : Nat) :
    Beside b k (shipSilhouette s core gran) (shipSilhouette t core gran) := by
  unfold shipSilhouette shipTo
  rw [h.twin.read (junctionOf · gran) fun _ _ _ _ => rfl]
  exact flow_beside ((inject_aside ..).beside h)

theorem Twin.acked (h : Twin s t) (src : Nat) : acked t src = acked s src := h.read (Machine.acked · src) fun _ _ _ _ => rfl

/-! ## Held granules -/

theorem coreAt_unhold (s : State) (handle c : Nat) : coreAt (unhold s handle) c = unholdCore handle (coreAt s c) :=
  tgetD_map (fun _ => unholdCore handle) s.cores c CoreSt.reset rfl

theorem clusterAt_unhold (s : State) (handle n : Nat) : clusterAt (unhold s handle) n = unholdCluster handle (clusterAt s n) :=
  tgetD_map (fun _ => unholdCluster handle) s.clusters n ClusterSt.reset rfl

theorem unhold_beside (h : Beside b k s t) (handle : Nat) : Beside b k (unhold s handle) (unhold t handle) := by
  refine h.units rfl ⟨?_, fun c => ?_, fun n => ?_⟩
  · obtain ⟨p, c, k, rfl⟩ := h.twin.whole
    exact ⟨p, _, _, rfl⟩
  · rw [coreAt_unhold, coreAt_unhold, h.twin.core c]
    rfl
  · rw [clusterAt_unhold, clusterAt_unhold, h.twin.cluster n]
    rfl

theorem setNr_beside (h : Beside b k s t) (handle : Nat) : Beside b k (setNr s handle) (setNr t handle) := by
  unfold setNr
  rw [h.twin.read (findStep · handle) fun _ _ _ _ => rfl]
  split
  · split
    · exact unhold_beside ((setStep_aside _).beside h) handle
    · exact h
  · exact h

theorem Twin.heldBy (h : Twin s t) : heldBy t = heldBy s := by
  have steph : t.hart.steph = s.hart.steph := by rw [h.hart]
  unfold Machine.heldBy
  rw [steph, h.read findStep fun _ _ _ _ => rfl]

theorem withNr_beside (h : Beside b k s t) : Beside b k (withNr s) (withNr t) := by
  unfold withNr
  rw [h.twin.heldBy]
  split
  · exact setNr_beside h _
  · exact h

/-! ## Releases -/

theorem Twin.o1Keys (h : Twin s t) (c : Nat) : o1Keys t c = o1Keys s c := by simp only [Machine.o1Keys, h.o1]

theorem Twin.o2Keys (h : Twin s t) (n prod : Nat) : o2Keys t n prod = o2Keys s n prod := by simp only [Machine.o2Keys, h.o2]

theorem Twin.undrained (h : Twin s t) (n : Nat) (core : Option Nat) (prod l : Nat) : undrained t n core prod l = undrained s n core prod l := by
  simp only [Machine.undrained, h.o1Keys, h.o2Keys, h.lineLeg, h.partials]

/-- A run over keys, and then one over keys that are read from what it leaves. -/
theorem foldl_foldl_beside {f g : State → Nat → State} {keys : State → List Nat}
    (hf : ∀ {s t}, Beside b k s t → ∀ x, Beside b k (f s x) (f t x)) (hg : ∀ {s t}, Beside b k s t → ∀ x, Beside b k (g s x) (g t x))
    (same : ∀ {s t}, Twin s t → keys t = keys s) (l : List Nat) (h : Beside b k s t) :
    Beside b k ((keys (l.foldl f s)).foldl g (l.foldl f s)) ((keys (l.foldl f t)).foldl g (l.foldl f t)) := by
  have first := foldl_beside hf l h
  rw [same first.twin]
  exact foldl_beside hg _ first

theorem releaseDrain_beside (h : Beside b k s t) (n c prod l : Nat) :
    Beside b k (releaseDrain s n (some c) prod l) (releaseDrain t n (some c) prod l) := by
  unfold releaseDrain
  dsimp only
  rw [h.twin.o1Keys]
  split
  · refine foldl_foldl_beside (keys := (o2Keys · n prod)) (fun {s t} h g => ?_) (fun {s t} h g => ?_) (fun h => h.o2Keys ..) _ h
    · rw [h.twin.o1]
      split
      · exact placeLevel1_beside h ..
      · exact h
    · rw [h.twin.o2]
      split
      · exact .ite .rfl h (placeLevel1_beside h ..)
      · exact h
  · split
    · refine foldl_foldl_beside (keys := (o2Keys · n prod)) (fun h g => drainO1_beside h c g) (fun {s t} h g => ?_)
        (fun h => h.o2Keys ..) _ h
      rw [h.twin.o2]
      split
      · exact placeLevel2_beside h ..
      · exact h
    · have home := foldl_foldl_beside (keys := (o2Keys · n prod)) (fun h g => drainO1_beside h c g) (fun h g => drainO2_beside h n g)
        (fun h => h.o2Keys ..) (o1Keys s c) h
      have combined := combinePartials_beside home n fun p => p.core == c
      split
      · exact combined
      · rw [combined.twin.ports]
        exact foldl_beside (fun h g => deliverRemote_beside h g) _ combined

/-! ## Publication -/

theorem setCounts_twin (h : Twin s t) (p : Nat) (c : Counts) : Twin (setCounts s p c) (setCounts t p c) := by
  obtain ⟨⟨q, x, y, rfl⟩, core, cluster⟩ := h
  exact ⟨⟨q, x, y, rfl⟩, core, cluster⟩

/-- Counts that change, seen from a state in which they have. -/
theorem setCounts_beside (h : Beside b k s t) (p : Nat) (c : Counts) :
    Beside { b with counts := (setCounts s p c).counts } k (setCounts s p c) (setCounts t p c) := by
  obtain ⟨⟨hart, more, kept, same⟩, twin⟩ := h
  refine ⟨⟨hart, more, kept, ?_⟩, setCounts_twin twin p c⟩
  simp only [fixed, Prod.mk.injEq] at same ⊢
  obtain ⟨cur, -, attach, lost, zone⟩ := same
  exact ⟨cur, trivial, attach, lost, zone⟩

theorem releasePublish_beside (h : Beside b k s t) (p l : Nat) :
    Beside { b with counts := (publish s p l).counts } k (releasePublish s p l) (releasePublish t p l) := by
  have published : Beside { b with counts := (publish s p l).counts } k (publish s p l) (publish t p l) := by
    unfold publish
    rw [h.twin.read countsAt fun _ _ _ _ => rfl]
    exact setCounts_beside h p _
  unfold releasePublish
  rw [h.twin.read countsAt fun _ _ _ _ => rfl]
  exact .ite .rfl (multicast_beside published ..) published

/-- A release that finds all its ways publishes its counts; one that does not leaves them. -/
theorem release_beside (h : Beside b k s t) (n c p l : Nat) :
    (release t n (some c) p l).2 = (release s n (some c) p l).2 ∧
    Beside { b with counts := (release s n (some c) p l).1.counts } k (release s n (some c) p l).1 (release t n (some c) p l).1 := by
  have drained := releaseDrain_beside h n c p l
  unfold release
  dsimp only
  rw [drained.twin.undrained]
  split
  · exact ⟨rfl, by rw [drained.told.counts]; exact drained⟩
  · have published := releasePublish_beside drained p l
    exact ⟨rfl, by rw [published.told.counts]; exact published⟩

theorem advanceRcnt_beside (h : Beside b k s t) (p : Nat) :
    Beside { b with counts := (advanceRcnt s p).counts } k (advanceRcnt s p) (advanceRcnt t p) := by
  unfold advanceRcnt
  rw [h.twin.read countsAt fun _ _ _ _ => rfl]
  exact setCounts_beside h p _

end

end Sys2Proof.Machine
end

