-- ==== Sys2Proof/Proofs/Releases.lean ====
section
/-! SUPPORT. What a release publishes and drains (R132, R133), and what a fence drains (R127). -/

namespace Sys2Proof.Machine

/-! ## What inbound copies do not change -/

/-- Of cores and clusters, inbound copies and the tile stash alone differ. -/
structure CopiesOnly (s t : State) : Prop where
  core : ∀ c, coreAt t c = { coreAt s c with i1 := (coreAt t c).i1 }
  cluster : ∀ n, clusterAt t n = { clusterAt s n with i2 := (clusterAt t n).i2, stash := (clusterAt t n).stash }

theorem CopiesOnly.refl (s : State) : CopiesOnly s s := ⟨fun _ => rfl, fun _ => rfl⟩

theorem CopiesOnly.trans {s t u : State} (h : CopiesOnly s t) (k : CopiesOnly t u) : CopiesOnly s u where
  core c := by rw [k.core, h.core]
  cluster n := by rw [k.cluster, h.cluster]

theorem setI1_copiesOnly (s : State) (c : Nat) (t : Tbl Copy) : CopiesOnly s (setI1 s c t) where
  core m := by
    unfold setI1
    rw [coreAt_setCore]
    split
    · next e => rw [e]
    · rfl
  cluster _ := rfl

theorem setCluster_copiesOnly {s : State} {n : Nat} {k : ClusterSt} (e : k = { clusterAt s n with i2 := k.i2, stash := k.stash }) :
    CopiesOnly s (setCluster s n k) where
  core _ := rfl
  cluster m := by
    rw [clusterAt_setCluster_eq]
    split
    · next h => rw [h]; exact e
    · rfl

theorem setI2_copiesOnly (s : State) (n : Nat) (t : Tbl Copy) : CopiesOnly s (setI2 s n t) := setCluster_copiesOnly rfl

theorem invI1_copiesOnly (s : State) (c : Nat) (p : Nat → Bool) : CopiesOnly s (invI1 s c p) := setI1_copiesOnly ..

theorem invI2_copiesOnly (s : State) (n : Nat) (p : Nat → Bool) : CopiesOnly s (invI2 s n p) :=
  (setI2_copiesOnly ..).trans (setCluster_copiesOnly rfl)

theorem invCluster_copiesOnly (s : State) (n : Nat) (p : Nat → Bool) : CopiesOnly s (invCluster s n p) :=
  (invI2_copiesOnly s n p).trans (foldl_frame (P := CopiesOnly (invI2 s n p)) _ (fun _ _ h => h.trans (invI1_copiesOnly ..)) _ _ (.refl _))

/-- The outbound entries are what they were. -/
structure SameOutbound (s t : State) : Prop where
  o1 : ∀ c, (coreAt t c).o1 = (coreAt s c).o1
  o2 : ∀ n, (clusterAt t n).o2 = (clusterAt s n).o2

theorem SameOutbound.trans {s t u : State} (h : SameOutbound s t) (k : SameOutbound t u) : SameOutbound s u :=
  ⟨fun c => (k.o1 c).trans (h.o1 c), fun n => (k.o2 n).trans (h.o2 n)⟩

theorem CopiesOnly.sameOutbound {s t : State} (h : CopiesOnly s t) : SameOutbound s t :=
  ⟨fun c => by rw [h.core], fun n => by rw [h.cluster]⟩

theorem setStale_sameOutbound (s : State) (n : Nat) (t : Tbl (BitVec 16)) :
    SameOutbound s (setCluster s n { clusterAt s n with stale := t }) where
  o1 _ := rfl
  o2 m := by
    rw [clusterAt_setCluster_eq]
    split
    · next e => rw [e]
    · rfl

theorem applyFlit_sameOutbound (s : State) (n : Nat) (f : Flit) : SameOutbound s (applyFlit s n f) := by
  cases f with
  | notice src lo hi => exact (invCluster_copiesOnly ..).sameOutbound
  | sil src dest => exact ⟨fun _ => rfl, fun _ => rfl⟩
  | count src p level v =>
    unfold applyFlit
    dsimp only
    split
    · exact (setStale_sameOutbound s n _).trans ⟨fun _ => rfl, fun _ => rfl⟩
    · exact setStale_sameOutbound s n _

theorem flow_sameOutbound (s : State) : SameOutbound s (flow s) := by
  have h := meshRun_frame (P := SameOutbound s) applyFlit (branchBlocked s) (fun t n f h => h.trans (applyFlit_sameOutbound t n f))
    (fun _ _ h => ⟨h.o1, h.o2⟩) (400 * s.mesh.length + 400) s ⟨fun _ => rfl, fun _ => rfl⟩
  exact ⟨h.o1, h.o2⟩

theorem keepCounts_sameOutbound (s : State) (f : Flit) (old : Counts) : SameOutbound s (keepCounts s f old) := by
  cases f with
  | notice src lo hi => exact ⟨fun _ => rfl, fun _ => rfl⟩
  | sil src dest => exact ⟨fun _ => rfl, fun _ => rfl⟩
  | count src p level v =>
    unfold keepCounts
    dsimp only
    generalize hm : (64 : Nat) = m
    generalize hu : forUp m 0 _ s = u
    have h : SameOutbound s u := hu ▸ forUp_frame (P := SameOutbound s) _ (fun n t h => h.trans (setStale_sameOutbound t n _)) m 0 s
      ⟨fun _ => rfl, fun _ => rfl⟩
    split
    · exact ⟨h.o1, h.o2⟩
    · exact h

theorem multicast_sameOutbound (s : State) (f : Flit) (old : Counts) : SameOutbound s (multicast s f old) := by
  have injected : SameOutbound s (inject (keepCounts s f old) (routerOfProd f.src) f) :=
    ⟨(keepCounts_sameOutbound s f old).o1, (keepCounts_sameOutbound s f old).o2⟩
  exact injected.trans (flow_sameOutbound _)

theorem releasePublish_sameOutbound (s : State) (p l : Nat) : SameOutbound s (releasePublish s p l) := by
  have published : SameOutbound s (publish s p l) := ⟨fun _ => rfl, fun _ => rfl⟩
  unfold releasePublish
  split
  · exact published.trans (multicast_sameOutbound ..)
  · exact published

/-! ## Counts -/

theorem countsAt_setCounts (s : State) (p q : Nat) (c : Counts) : countsAt (setCounts s p c) q = if q = p then c else countsAt s q := by
  simp only [countsAt, setCounts, tgetD, tget_tput]
  split <;> rfl

theorem countsAt_congr {s t : State} (h : t.counts = s.counts) (p : Nat) : countsAt t p = countsAt s p := by rw [countsAt, h]; rfl

theorem releasePublish_counts (s : State) (p l : Nat) : (releasePublish s p l).counts = (publish s p l).counts :=
  (releasePublish_beside (.of_twin (.refl s)) p l).told.counts

/-! ## Releases of the acting hart -/

section
variable {b s t u : State} {k l : Nat}

theorem setNrM_run (s : State) : setNrM s = (.ok (), withNr s) := rfl

theorem withNr_of_notHeld (h : heldBy s = none) : withNr s = s := by
  unfold withNr
  rw [h]

theorem withNr_told (s : State) : Told s 0 (withNr s) := (withNr_beside (.of_twin (.refl s))).told

/-- The work of another unit puts only notices into the hart, and only where firmware has been told of something. -/
theorem Told.toldOnly {s : State} (h : Told b k u) (hart : b.hart = s.hart) (reports : b.disp.reports = s.disp.reports) :
    toldOnly s u s.hart := by
  refine ⟨hart ▸ h.hart, fun e => ?_⟩
  rw [← hart]
  exact h.kept (by rw [e, reports])

theorem toldOnly.pc {h : Hart} (told : toldOnly s t h) : t.hart.pc = h.pc := by rw [told.1]
theorem toldOnly.phase {h : Hart} (told : toldOnly s t h) : t.hart.phase = h.phase := by rw [told.1]

theorem toldOnly.withPhase {h : Hart} (told : toldOnly s t h) : toldOnly s t { h with phase := t.hart.phase } := by
  rw [toldOnly.phase told]
  exact told

/-- The hart goes on from where it was: notices do not matter to that. -/
theorem toldOnly.goneOn {h g : Hart} (told : toldOnly s t h) (pc : g.pc = t.hart.pc) (frames : g.frames = t.hart.frames)
    (susp : g.susp = t.hart.susp) : GoneOn h g.advance := by
  apply Hart.goneOn_of_ctl
  · rw [pc, told.1]
  · rw [frames, told.1]
  · rw [susp, told.1]

/-- What a release of the acting hart that has run to its end leaves: the counts change, and firmware may have been told of
something. -/
theorem Released.told (h : Released s l u) : Told { s with counts := u.counts } 0 u := by
  rcases h with ⟨-, -, rfl⟩ | ⟨-, -, -, -, rfl⟩
  · exact (advanceRcnt_beside (.of_twin (.refl s)) _).told
  · exact (advanceRcnt_beside (release_beside (.of_twin (.refl s)) ..).2 _).told

theorem releaseM_of_released (h : Released s l u) : releaseM l s = (.ok (), { u with hart := { u.hart with phase := 0 } }) := by
  unfold releaseM
  rcases h with ⟨phase, acks, rfl⟩ | ⟨phase, copies, published, acks, rfl⟩
  · dsimp only
    rw [if_pos phase, if_pos acks]
  · unfold ownRelease at published acks ⊢
    dsimp only
    rw [if_neg phase, if_neg (by rw [copies]; exact Bool.false_ne_true), if_neg (by rw [published]; decide), if_pos acks]

theorem execRel_eq (sc : Scope) (s : State) : exec (.rel sc) s = runM (releaseM sc.level >>= fun _ => done) (withNr s) := rfl

theorem execRel_of_released {sc : Scope} (h : Released (withNr s) sc.level u) :
    exec (.rel sc) s = .next (advance { u with hart := { u.hart with phase := 0 } }) := by
  rw [execRel_eq, runM, bind_run, releaseM_of_released h]
  rfl

/-- A release that waits stands where it is. -/
theorem execRel_of_hold {sc : Scope} (notHeld : heldBy s = none) (h : releaseM sc.level s = (.error .hold, t)) :
    exec (.rel sc) s = .next t := by
  rw [execRel_eq, withNr_of_notHeld notHeld, runM, bind_run, h]

theorem releaseM_of_copies (phase : s.hart.phase ≠ 1) (copies : copiesOf s s.cur = true) : releaseM l s = (.error .hold, waiting s) := by
  unfold releaseM
  dsimp only
  rw [if_neg phase, if_pos copies]
  rfl

theorem releaseM_of_notAcked (phase : s.hart.phase = 1) (acks : acked s (curCore s) = false) :
    releaseM l s = (.error .hold, waiting s) := by
  unfold releaseM
  dsimp only
  rw [if_pos phase, if_neg (by rw [acks]; exact Bool.false_ne_true)]
  rfl

theorem releaseM_of_undrained (phase : s.hart.phase ≠ 1) (copies : copiesOf s s.cur = false) (stuck : (ownRelease s l).2 = false) :
    releaseM l s = (.error .hold, waiting (ownRelease s l).1) := by
  unfold ownRelease at stuck ⊢
  unfold releaseM
  dsimp only
  rw [if_neg phase, if_neg (by rw [copies]; exact Bool.false_ne_true), if_pos (by rw [stuck]; rfl)]
  rfl

theorem releaseM_of_published (phase : s.hart.phase ≠ 1) (copies : copiesOf s s.cur = false) (published : (ownRelease s l).2 = true)
    (acks : acked (ownRelease s l).1 (curCore s) = false) : releaseM l s =
      (.error .hold, waiting { (ownRelease s l).1 with hart := { (ownRelease s l).1.hart with phase := 1 } }) := by
  unfold ownRelease at published acks ⊢
  unfold releaseM
  dsimp only
  rw [if_neg phase, if_neg (by rw [copies]; exact Bool.false_ne_true), if_neg (by rw [published]; decide),
    if_neg (by rw [acks]; exact Bool.false_ne_true)]
  rfl

/-! ## What a release publishes -/

theorem release_undrained {n p : Nat} {core : Option Nat} (h : (release s n core p l).2 = false) :
    (release s n core p l).1 = releaseDrain s n core p l := by
  unfold release at h ⊢
  dsimp only at h ⊢
  split at h
  · next e => rw [if_pos e]
  · cases h

theorem release_published {n p : Nat} {core : Option Nat} (h : (release s n core p l).2 = true) :
    undrained (releaseDrain s n core p l) n core p l = false ∧
    (release s n core p l).1 = releasePublish (releaseDrain s n core p l) p l := by
  unfold release at h ⊢
  dsimp only at h ⊢
  split at h
  · cases h
  · next e => rw [if_neg e]; exact ⟨by simpa using e, rfl⟩

theorem releaseDrain_told (s : State) (n c p l : Nat) : Told s 0 (releaseDrain s n (some c) p l) :=
  (releaseDrain_beside (.of_twin (.refl s)) n c p l).told

theorem countsAt_publish (s : State) (p q : Nat) (pos : 1 ≤ l) : countsAt (publish s p l) q =
    if q = p then
      { rcnt := (countsAt s p).rcnt, p1 := (countsAt s p).rcnt
        p2 := if 2 ≤ l then (countsAt s p).rcnt else (countsAt s p).p2, p3 := if 3 ≤ l then (countsAt s p).rcnt else (countsAt s p).p3
        p4 := if 4 ≤ l then (countsAt s p).rcnt else (countsAt s p).p4 }
    else countsAt s q := by
  unfold publish
  rw [countsAt_setCounts]
  simp only [ge_iff_le, pos, if_true]

/-- The counts after a release of the acting hart that has run to its end. -/
theorem Released.counts (h : Released s l u) (pos : 1 ≤ l) (q : Nat) :
    countsAt u q =
      if q ≠ curCore s then countsAt s q
      else if s.hart.phase = 1 then { countsAt s q with rcnt := (countsAt s q).rcnt + 1 }
      else {
        rcnt := (countsAt s q).rcnt + 1, p1 := (countsAt s q).rcnt
        p2 := if 2 ≤ l then (countsAt s q).rcnt else (countsAt s q).p2, p3 := if 3 ≤ l then (countsAt s q).rcnt else (countsAt s q).p3
        p4 := if 4 ≤ l then (countsAt s q).rcnt else (countsAt s q).p4 } := by
  rcases h with ⟨phase, -, rfl⟩ | ⟨phase, -, published, -, rfl⟩
  · unfold advanceRcnt
    rw [countsAt_setCounts]
    by_cases e : q = curCore s
    · simp [e, phase]
    · simp [e]
  · unfold ownRelease at published ⊢
    have drained := fun q => countsAt_congr (releaseDrain_told s (curCluster s) (curCore s) (curCore s) l).counts q
    unfold advanceRcnt
    rw [(release_published published).2, countsAt_setCounts]
    simp only [countsAt_congr (releasePublish_counts ..), countsAt_publish _ _ _ pos, drained, if_true]
    by_cases e : q = curCore s
    · simp [e, phase]
    · simp [e]

/-! ## What a release drains -/

theorem mem_of_tget {α : Type} {n : Nat} {a : α} : ∀ {t : Tbl α}, tget t n = some a → (n, a) ∈ t
  | (m, b) :: t, h => by
    by_cases e : m = n
    · subst e
      have : b = a := by simpa [tget] using h
      subst this
      exact List.mem_cons_self
    · exact List.mem_cons_of_mem _ (mem_of_tget (by simpa [tget, e] using h))

/-- What a drain to the homes' levels has left behind (R127, R132). -/
theorem undrained_iff {n c p : Nat} (far : 3 ≤ l) : undrained s n (some c) p l = true ↔
    (∃ x ∈ (coreAt s c).o1, x.2.held = none) ∨ (∃ q ∈ (clusterAt s n).partials, q.core = c ∧ q.held = none) ∨
      ∃ x ∈ (clusterAt s n).o2, x.2.g.prod = p := by
  have notNear : decide (l ≤ 1) = false := decide_eq_false (by omega)
  have notTwo : (l == 2) = false := beq_false_of_ne (by omega)
  have two : decide (l ≥ 2) = true := decide_eq_true (by omega)
  have three : decide (l ≥ 3) = true := decide_eq_true far
  simp only [undrained, notNear, notTwo, two, three, Bool.false_and, Bool.false_or, Bool.true_and, Option.any_some, o1Keys, o2Keys,
    Bool.or_eq_true, Bool.not_eq_true', List.isEmpty_eq_false_iff, List.any_eq_true, Bool.and_eq_true, beq_iff_eq,
    Option.isNone_iff_eq_none, ne_eq, List.map_eq_nil_iff, List.filter_eq_nil_iff, not_forall, not_not, exists_prop]

/-- A release to levels 3 and 4 leaves nothing of the core outside the homes' levels that no step holds. -/
theorem Released.drained (h : Released s l u) (phase : s.hart.phase ≠ 1) (far : 3 ≤ l) :
    (∀ x ∈ (coreAt u (curCore s)).o1, x.2.held ≠ none) ∧ ∀ x ∈ (clusterAt u (curCluster s)).o2, x.2.g.prod ≠ curCore s := by
  rcases h with ⟨one, -⟩ | ⟨-, -, published, -, rfl⟩
  · exact absurd one phase
  · unfold ownRelease at published ⊢
    obtain ⟨done, e⟩ := release_published published
    have same := releasePublish_sameOutbound (releaseDrain s (curCluster s) (some (curCore s)) (curCore s) l) (curCore s) l
    have none_ := mt (undrained_iff (s := releaseDrain s (curCluster s) (some (curCore s)) (curCore s) l) far).mpr
      (by rw [done]; exact Bool.false_ne_true)
    push Not at none_
    rw [e]
    refine ⟨fun x hx => none_.1 x ?_, fun x hx => none_.2.2 x ?_⟩
    · rwa [← same.o1]
    · rwa [← same.o2]

end

theorem one_le_level (sc : Scope) : 1 ≤ sc.level := by cases sc <;> decide

/-! ## NR -/

theorem setNr_hart (s : State) (handle : Nat) : (setNr s handle).hart = s.hart := by
  unfold setNr
  split
  · split <;> rfl
  · rfl

theorem setNr_reports (s : State) (handle : Nat) : (setNr s handle).disp.reports = s.disp.reports := by
  unfold setNr
  split
  · split <;> rfl
  · rfl

theorem withNr_hart (s : State) : (withNr s).hart = s.hart := by
  unfold withNr
  split
  · exact setNr_hart ..
  · rfl

theorem withNr_reports (s : State) : (withNr s).disp.reports = s.disp.reports := by
  unfold withNr
  split
  · exact setNr_reports ..
  · rfl

/-- Setting NR first does not show in what a release leaves of the hart. -/
theorem Released.toldOnly {s u : State} {l : Nat} (h : Released (withNr s) l u) : toldOnly s u s.hart :=
  h.told.toldOnly (s := s) (withNr_hart s) (withNr_reports s)

/-- A release that has published and waits for the acknowledgements stands in phase 1, its release count not yet advanced. -/
theorem ownRelease_published {s : State} {l : Nat} (pos : 1 ≤ l) (published : (ownRelease s l).2 = true) :
    (ownRelease s l).1.hart.pc = s.hart.pc ∧ (ownRelease s l).1.hart.x = s.hart.x ∧
    (countsAt (ownRelease s l).1 (curCore s)).rcnt = (countsAt s (curCore s)).rcnt := by
  unfold ownRelease at published ⊢
  have hart := (release_beside (.of_twin (.refl s)) (curCluster s) (curCore s) (curCore s) l).2.told.hart
  refine ⟨by rw [hart], by rw [hart], ?_⟩
  rw [(release_published published).2, countsAt_congr (releasePublish_counts ..), countsAt_publish _ _ _ pos, if_pos rfl,
    countsAt_congr (releaseDrain_told ..).counts]

/-- Settles O16: what drains and what is published is the work of another unit, which leaves the hart; the counts are those of
`publish`, after which the release count advances. -/
theorem releases : Obligations.Releases := by
  unfold Obligations.Releases
  refine ⟨fun s u sc h => ?_, fun s sc notHeld => ⟨fun phase copies => ?_, fun phase acks => ?_, fun phase copies stuck => ?_,
    fun phase copies published acks => ?_⟩⟩
  · have told := h.toldOnly
    have phase : (withNr s).hart.phase = s.hart.phase := by rw [withNr_hart]
    have core : curCore (withNr s) = curCore s := congrArg (· / 2) (withNr_told s).cur
    have cluster : curCluster (withNr s) = curCluster s := congrArg (· / 8) (withNr_told s).cur
    have counts := h.counts (one_le_level sc)
    simp only [core, phase, countsAt_congr (withNr_told s).counts] at counts
    refine ⟨toldOnly.withPhase told, _, execRel_of_released h, rfl, toldOnly.goneOn told rfl rfl rfl, rfl, ?_, ?_, ?_, ?_⟩
    · intro p other
      exact (counts p).trans (if_pos other)
    · intro one
      exact (counts _).trans (by rw [if_neg (not_not.mpr rfl), if_pos one])
    · intro notOne
      exact (counts _).trans (by rw [if_neg (not_not.mpr rfl), if_neg notOne])
    · intro notOne far
      obtain ⟨o1, o2⟩ := h.drained (phase ▸ notOne) far
      rw [core] at o1 o2
      rw [cluster] at o2
      exact ⟨fun g e he => Option.isSome_iff_ne_none.mpr (o1 (g, e) (mem_of_tget he)), fun g e he => o2 (g, e) (mem_of_tget he)⟩
  · exact execRel_of_hold notHeld (releaseM_of_copies phase copies)
  · exact execRel_of_hold notHeld (releaseM_of_notAcked phase acks)
  · refine ⟨execRel_of_hold notHeld (releaseM_of_undrained phase copies stuck), ?_⟩
    unfold ownRelease at stuck ⊢
    rw [release_undrained stuck]
    exact (releaseDrain_told ..).counts
  · obtain ⟨pc, x, rcnt⟩ := ownRelease_published (one_le_level sc) published
    have run := execRel_of_hold notHeld (releaseM_of_published phase copies published acks)
    generalize ownRelease s sc.level = r at run pc x rcnt
    exact ⟨_, run, rfl, pc, x, rcnt⟩

end Sys2Proof.Machine
end

