-- ==== Sys2Proof/Proofs/Fences.lean ====
section
/-! SUPPORT. What a fence drains (R127), and what stays in a port's buffer. -/

namespace Sys2Proof.Machine

/-! ## Reports leave the ports' buffers -/

theorem foldl_ports {β : Type} (f : State → β → State) (h : ∀ s x, (f s x).ports = s.ports) (l : List β) (s : State) :
    (l.foldl f s).ports = s.ports := foldl_frame (P := fun u => u.ports = s.ports) f (fun _ _ ht => (h _ _).trans ht) l s rfl

theorem setHart_ports (s : State) (slot : Nat) (h : Hart) : (setHart s slot h).ports = s.ports := by
  unfold setHart
  split <;> rfl

theorem noticeAll_ports (s : State) (kind cls unit : Nat) (w : Word) : (noticeAll s kind cls unit w).ports = s.ports := by
  refine foldl_ports _ (fun s slot => ?_) _ _
  dsimp only
  split
  · rfl
  · exact setHart_ports ..

theorem noticeTeam_ports (s : State) (c : Nat) (w : Word) : (noticeTeam s c w).ports = s.ports := by
  unfold noticeTeam
  split
  · dsimp only
    split
    · rfl
    · exact foldl_ports _ (fun s j => setHart_ports ..) _ _
  · rfl

theorem setLeaseAt_ports (s : State) (cls unit : Nat) (l : Lease) (now : Word) : (setLeaseAt s cls unit l now).ports = s.ports := by
  unfold setLeaseAt
  dsimp only
  split
  · exact noticeAll_ports ..
  · split
    · exact noticeAll_ports ..
    · split
      · exact noticeAll_ports ..
      · rfl

theorem unbindStep_ports (s : State) (handle : Nat) : (unbindStep s handle).ports = s.ports := by
  unfold unbindStep
  split
  · split <;> rfl
  · rfl

theorem unbindCore_ports (s : State) (c : Nat) : (unbindCore s c).ports = s.ports := by
  refine foldl_ports _ (fun s handle => ?_) _ _
  unfold unbindAt
  split
  · split
    · rfl
    · exact unbindStep_ports ..
  · rfl

theorem unbindTeams_ports (s : State) : (unbindTeams s).ports = s.ports := by
  refine foldl_ports _ (fun s r => ?_) _ _
  split
  · exact unbindStep_ports ..
  · rfl

theorem startLease_ports (s : State) (cls unit : Nat) (now : Bool) : (startLease s cls unit now).ports = s.ports := by
  unfold startLease
  split
  · rfl
  · have noticed (w : Word) : (if cls = 0 then noticeTeam (readTime s).2 unit w else (readTime s).2).ports = s.ports := by
      split
      · exact noticeTeam_ports ..
      · rfl
    have unbound (u : State) : (if cls = 0 then unbindTeams (unbindCore u unit) else u).ports = u.ports := by
      split
      · exact (unbindTeams_ports _).trans (unbindCore_ports ..)
      · rfl
    have all := (unbound _).trans ((setLeaseAt_ports _ cls unit .drain (readTime s).1).trans (noticed (readTime s).1))
    dsimp only
    split <;> exact all

theorem nextQuarantine_ports (s : State) (cls unit : Nat) : (nextQuarantine s cls unit).ports = s.ports := by
  unfold nextQuarantine
  split
  · rfl
  · split
    · exact startLease_ports ..
    · rfl

theorem addEarly_ports (s : State) (cls unit : Nat) : (addEarly s cls unit).ports = s.ports := by
  unfold addEarly
  split <;> rfl

theorem applyThresholds_ports (s : State) (ix old new : Nat) : (applyThresholds s ix old new).ports = s.ports := by
  unfold applyThresholds
  dsimp only
  generalize hu : (if (old < 256 && 256 ≤ new) || (old < 1024 && 1024 ≤ new) then
    report s [BitVec.ofNat 64 ix, BitVec.ofNat 64 new] else s) = u
  have told : u.ports = s.ports := by
    rw [← hu]
    split <;> rfl
  rw [← told]
  split
  · split
    · exact nextQuarantine_ports ..
    · exact foldl_ports _ (fun s x => startLease_ports ..) _ _
  · split
    · exact foldl_ports _ (fun s x => addEarly_ports ..) _ _
    · rfl

theorem addScore_ports (s : State) (ix n : Nat) : (addScore s ix n).ports = s.ports := by
  unfold addScore setScore
  split
  · rfl
  · exact applyThresholds_ports ..

theorem reportCheck_ports (s : State) (core : Option Nat) (gran : Nat) (g : Granule) (path : Word) :
    (reportCheck s core gran g path).ports = s.ports := foldl_ports _ (fun _ _ => addScore_ports ..) _ _

/-! ## Deliveries -/

/-- A delivery leaves the other granules of the buffers, and its own where that fails its check (R27, log 8). -/
theorem deliverRemote_buffer {s : State} {gran g : Nat} {e : OutEntry} (left : tget (deliverRemote s gran).ports.buffer g = some e) :
    tget s.ports.buffer g = some e ∧ (g = gran → e.g.verifies = false) := by
  unfold deliverRemote at left
  split at left
  · next x found =>
    split at left
    · replace left : tget (tdel s.ports.buffer gran) g = some e := left
      rw [tget_tdel] at left
      split at left
      · cases left
      · next other => exact ⟨left, fun e => absurd e other⟩
    · next fails =>
      rw [reportCheck_ports] at left
      refine ⟨left, fun same => ?_⟩
      rw [same, found] at left
      cases left
      exact Bool.eq_false_of_not_eq_true fails
  · next missing => exact ⟨left, fun same => by rw [same, missing] at left; cases left⟩

theorem deliverAll_buffer {g : Nat} {e : OutEntry} : ∀ (keys : List Nat) {s : State},
    tget (keys.foldl deliverRemote s).ports.buffer g = some e →
    tget s.ports.buffer g = some e ∧ (g ∈ keys → e.g.verifies = false)
  | [], _, left => ⟨left, fun m => absurd m List.not_mem_nil⟩
  | k :: keys, s, left => by
    obtain ⟨was, rest⟩ := deliverAll_buffer keys (s := deliverRemote s k) left
    obtain ⟨before, first⟩ := deliverRemote_buffer was
    refine ⟨before, fun m => ?_⟩
    rcases List.mem_cons.mp m with h | h
    · exact first h
    · exact rest h

/-- A drain to the remote endpoints leaves in the ports' buffers only granules of other producers, and what fails its check. -/
theorem releaseDrain_buffer {s : State} {n c p g : Nat} {e : OutEntry}
    (left : tget (releaseDrain s n (some c) p 4).ports.buffer g = some e) : e.g.prod ≠ p ∨ e.g.verifies = false := by
  unfold releaseDrain at left
  dsimp only at left
  rw [if_neg (by decide), if_neg (by decide), if_neg (by decide)] at left
  generalize combinePartials _ n _ = u at left
  obtain ⟨was, delivered⟩ := deliverAll_buffer _ left
  by_cases own : e.g.prod = p
  · refine .inr (delivered (List.mem_map.mpr ⟨(g, e), List.mem_filter.mpr ⟨mem_of_tget was, ?_⟩, rfl⟩))
    exact beq_iff_eq.mpr own
  · exact .inl own

/-! ## Fences -/

theorem fenceDrain_told (s : State) (sc : Scope) : Told s 0 (fenceDrain s sc) := by
  have toO2 := foldl_beside (fun h g => drainO1_beside h (curCore s) g) ((coreAt s (curCore s)).o1.map (·.1)) (.of_twin (.refl s))
  unfold fenceDrain
  cases sc with
  | core => exact .refl s
  | cluster => exact toO2.told
  | device => exact (releaseDrain_beside toO2 (curCluster s) (curCore s) (curCore s) 3).told
  | system => exact (releaseDrain_beside toO2 (curCluster s) (curCore s) (curCore s) 4).told

theorem fenceDrain_buffer {s : State} {g : Nat} {e : OutEntry} (left : tget (fenceDrain s .system).ports.buffer g = some e) :
    e.g.prod ≠ curCore s ∨ e.g.verifies = false := by
  unfold fenceDrain at left
  dsimp only at left
  exact releaseDrain_buffer (n := curCluster s) (c := curCore s) (p := curCore s) left

/-- What a fence waits for (R127, R392). -/
def fenceStuck (s u : State) (sc : Scope) : Prop := sc ≠ .core ∧ ((∃ x, x ∈ (coreAt u (curCore s)).o1) ∨
  3 ≤ sc.level ∧ ((∃ x ∈ (clusterAt u (curCluster s)).o2, x.2.g.prod = curCore s) ∨
    ∃ p ∈ (clusterAt u (curCluster s)).partials, p.core = curCore s ∧ p.held = none))

theorem Scope.two_le_level (sc : Scope) : 2 ≤ sc.level ↔ sc ≠ .core := by cases sc <;> decide

theorem execFence_stuck_iff (s : State) (sc : Scope) : let u := fenceDrain s sc
    ((sc.level ≥ 2 && !(coreAt u (curCore u)).o1.isEmpty) ||
      (sc.level ≥ 3 && undrained u (curCluster u) (some (curCore u)) (curCore u) sc.level)) = true ↔ fenceStuck s u sc := by
  intro u
  have core : curCore u = curCore s := congrArg (· / 2) (fenceDrain_told s sc).cur
  have cluster : curCluster u = curCluster s := congrArg (· / 8) (fenceDrain_told s sc).cur
  have nonempty : _ ↔ ∃ x, x ∈ (coreAt u (curCore s)).o1 := List.isEmpty_eq_false_iff_exists_mem
  rw [core, cluster]
  unfold fenceStuck
  simp only [Bool.or_eq_true, Bool.and_eq_true, decide_eq_true_eq, Bool.not_eq_true', nonempty, ge_iff_le, ← Scope.two_le_level]
  constructor
  · rintro (⟨near, held⟩ | ⟨far, left⟩)
    · exact ⟨near, .inl held⟩
    · refine ⟨by omega, ?_⟩
      rcases (undrained_iff far).mp left with ⟨x, hx, -⟩ | partials | o2
      · exact .inl ⟨x, hx⟩
      · exact .inr ⟨far, .inr partials⟩
      · exact .inr ⟨far, .inl o2⟩
  · rintro ⟨near, held | ⟨far, o2 | partials⟩⟩
    · exact .inl ⟨near, held⟩
    · exact .inr ⟨far, (undrained_iff far).mpr (.inr (.inr o2))⟩
    · exact .inr ⟨far, (undrained_iff far).mpr (.inr (.inl partials))⟩

theorem execFence_of_stuck {s : State} {sc : Scope} (h : fenceStuck s (fenceDrain s sc) sc) :
    exec (.fence sc) s = .next (waiting (fenceDrain s sc)) := if_pos ((execFence_stuck_iff s sc).mpr h)

theorem execFence_of_not_stuck {s : State} {sc : Scope} (h : ¬ fenceStuck s (fenceDrain s sc) sc) :
    exec (.fence sc) s = .next (advance (fenceDrain s sc)) := if_neg (mt (execFence_stuck_iff s sc).mp h)

theorem execDrain_of_copies {s : State} (h : copiesOf s s.cur = true) : exec .drain s = .next (waiting s) := if_pos h

theorem execDrain_of_noCopies {s : State} (h : copiesOf s s.cur = false) : exec .drain s = .next (advance s) :=
  if_neg (by rw [h]; exact Bool.false_ne_true)

/-- A hart that has got notices alone goes on. -/
theorem Hart.advance_of_told {h g : Hart} (told : g = { h with notices := g.notices, lost := g.lost }) : g.advance =
    { h with
      notices := g.advance.notices, lost := g.advance.lost, pc := g.advance.pc, frames := g.advance.frames
      resume := g.advance.resume, mid := g.advance.mid, waits := g.advance.waits, phase := g.advance.phase } := by
  generalize g.notices = notices, g.lost = lost at told
  subst told
  exact rfl

/-- Settles O18: the drains are the work of other units, and the test after them asks for what they have left. -/
theorem fencesAndDrain : Obligations.FencesAndDrain := by
  unfold Obligations.FencesAndDrain
  intro s sc core u n stuck
  have told := fenceDrain_told s sc
  refine ⟨fun h => ⟨execFence_of_stuck h, told.counts⟩, fun h => ?_, execDrain_of_copies, fun h => ?_⟩
  · have only := told.toldOnly (s := s) rfl rfl
    refine ⟨_, execFence_of_not_stuck h, toldOnly.goneOn only rfl rfl rfl, told.counts, ?_, ?_, ?_, ?_, ?_, ?_⟩
    · exact Hart.advance_of_told told.hart
    · intro same
      show CtlFrame s.hart u.hart.advance
      rw [only.2 same]
      exact Hart.advance_frame _
    · rintro rfl
      rfl
    · intro far g
      by_contra held
      obtain ⟨e, he⟩ := Option.ne_none_iff_exists'.mp held
      exact h ⟨far, .inl ⟨_, mem_of_tget he⟩⟩
    · intro far g e he own
      have left : (g, e) ∈ (clusterAt u n).o2 := mem_of_tget he
      have level : sc ≠ .core ∧ 3 ≤ sc.level := by rcases far with rfl | rfl <;> decide
      exact h ⟨level.1, .inr ⟨level.2, .inl ⟨_, left, own⟩⟩⟩
    · rintro rfl g e he
      rw [advance_ports] at he
      exact fenceDrain_buffer he
  · exact ⟨_, execDrain_of_noCopies h, rfl, Hart.goneOn_of_ctl rfl rfl rfl, rfl⟩

end Sys2Proof.Machine
end

