-- ==== Sys2Proof/Proofs/GranuleBytes.lean ====
section
/-! SUPPORT. The bytes of a granule: what a merge replaces, and numbers read from it (R3, R160). -/

namespace Sys2Proof.Machine

/-- The bits of byte `n`. -/
theorem byteOnes_getLsbD (n i : Nat) (fits : i < 512) : ((255 : GData) <<< (8 * n)).getLsbD i = decide (i / 8 = n) := by
  have ones : (255 : GData).getLsbD (i - 8 * n) = decide (i - 8 * n < 8) := by
    rw [show (255 : GData) = BitVec.ofNat 512 (2 ^ 8 - 1) from rfl, BitVec.getLsbD_ofNat, Nat.testBit_two_pow_sub_one,
      decide_eq_true (by omega : i - 8 * n < 512), Bool.true_and]
  rw [BitVec.getLsbD_shiftLeft, ones, decide_eq_true fits, Bool.true_and, ← decide_not, ← Bool.decide_and]
  exact decide_eq_decide.mpr (by omega)

theorem maskBits_getLsbD (mask : BitVec 64) (n i : Nat) (fits : i < 512) :
    (maskBits mask n).getLsbD i = (decide (i / 8 < n) && mask.getLsbD (i / 8)) := by
  induction n with
  | zero => simp [maskBits]
  | succ n ih =>
    have own : (if mask.getLsbD n then (255 : GData) <<< (8 * n) else 0).getLsbD i = (decide (i / 8 = n) && mask.getLsbD n) := by
      split
      · next set => rw [byteOnes_getLsbD n i fits, set, Bool.and_true]
      · next clear => rw [Bool.eq_false_of_not_eq_true clear, Bool.and_false]; exact BitVec.getLsbD_zero
    rw [maskBits, BitVec.getLsbD_or, ih, own]
    by_cases at_ : i / 8 = n
    · simp [at_]
    · rw [decide_eq_false at_, Bool.false_and, Bool.false_or]
      congr 1
      exact decide_eq_decide.mpr (by omega)

/-- A merge takes the bytes of the new data where the mask selects them (R160). -/
theorem mergeMask_getLsbD (old new : GData) (mask : BitVec 64) (i : Nat) (fits : i < 512) :
    (mergeMask old new mask).getLsbD i = if mask.getLsbD (i / 8) then new.getLsbD i else old.getLsbD i := by
  have inside : i / 8 < 64 := by omega
  simp only [mergeMask, BitVec.getLsbD_or, BitVec.getLsbD_and, BitVec.getLsbD_not, maskBits_getLsbD _ _ _ fits, inside, fits,
    decide_true, Bool.true_and]
  cases mask.getLsbD (i / 8) <;> simp

theorem byteMask_getLsbD (off n k : Nat) (fits : off + n ≤ 64) : (byteMask off n).getLsbD k = decide (off ≤ k ∧ k < off + n) := by
  simp only [byteMask, BitVec.getLsbD_shiftLeft, BitVec.getLsbD_ushiftRight, BitVec.getLsbD_allOnes, ← decide_not,
    ← Bool.decide_and]
  apply decide_eq_decide.mpr
  omega

/-- The bytes of a granule of which `n` have been replaced from `off` up. -/
theorem merged_byte (old : GData) (off n v k : Nat) (fits : off + n ≤ 64) (inside : k < 64) :
    (mergeMask old (placeBytes off v) (byteMask off n)).extractLsb' (8 * k) 8 =
      if off ≤ k ∧ k < off + n then (BitVec.ofNat 512 v).extractLsb' (8 * (k - off)) 8 else old.extractLsb' (8 * k) 8 := by
  apply BitVec.eq_of_getLsbD_eq
  intro i hi
  have bit : (8 * k + i) / 8 = k := by omega
  have within : 8 * k + i < 512 := by omega
  rw [BitVec.getLsbD_extractLsb', mergeMask_getLsbD _ _ _ _ within, bit, byteMask_getLsbD _ _ _ fits]
  by_cases replaced : off ≤ k ∧ k < off + n
  · have place : 8 * k + i - 8 * off = 8 * (k - off) + i := by omega
    have above : ¬ 8 * k + i < 8 * off := by omega
    simp only [replaced, and_self, decide_true, if_true, placeBytes, BitVec.getLsbD_shiftLeft, within, above, decide_false,
      Bool.not_false, Bool.true_and, place, BitVec.getLsbD_extractLsb', hi]
  · simp only [replaced, decide_false, Bool.false_eq_true, if_false, BitVec.getLsbD_extractLsb']

/-- A number read from a granule, byte by byte (R3). -/
theorem granuleBytes_eq (data : GData) (off n : Nat) :
    granuleBytes data off n = littleEndian (fun i => data.extractLsb' (8 * (off + i)) 8) n := by
  induction n generalizing off with
  | zero => simp [granuleBytes, littleEndian]
  | succ n ih =>
    have rest := ih (off + 1)
    simp only [granuleBytes, BitVec.extractLsb'_toNat, Nat.shiftRight_eq_div_pow] at rest ⊢
    have tail : (fun i => data.extractLsb' (8 * (off + (i + 1))) 8) = fun i => data.extractLsb' (8 * (off + 1 + i)) 8 := by
      funext i
      rw [show off + (i + 1) = off + 1 + i by omega]
    rw [littleEndian, tail, ← rest, BitVec.extractLsb'_toNat, Nat.shiftRight_eq_div_pow, show 8 * (n + 1) = 8 + 8 * n by omega,
      Nat.pow_add, Nat.mod_mul, Nat.div_div_eq_div_mul, ← Nat.pow_add, show 8 * (off + 1) = 8 * off + 8 by omega]
    rfl

/-- The bytes of an aligned word at an address are those of the granule there. -/
theorem granuleBytes_word (g : Granule) {pa : Nat} (aligned : pa % 8 = 0) :
    granuleBytes g.data (pa % 64) 8 = littleEndian (fun i => g.byte (pa + i)) 8 := by
  have place : ∀ i, i < 8 → (pa + i) % 64 = pa % 64 + i := by omega
  rw [granuleBytes_eq]
  simp only [littleEndian, Granule.byte, place, Nat.lt_add_one, Nat.reduceLT, Nat.reduceAdd, Nat.add_zero]

end Sys2Proof.Machine
end

