-- ==== Sys2Proof/Proofs/JunctionAccesses.lean ====
section
/-! SUPPORT. How an access that the home junction performs runs (R133, R135, R138, R288): the translation that is cached, the release
and the silhouette that go ahead, the core's own entries on their way home, and the flag's attachment. -/

namespace Sys2Proof.Machine

/-! ## Translation -/

section
variable {s t u : State} {va : Word} {a : Acc} {pa l gran : Nat} {self : Bool}

theorem setCluster_tlb_twin (s : State) (n : Nat) (x : List TlbEntry) : Twin s (setCluster s n { clusterAt s n with tlb := x }) where
  whole := ⟨s.hart.phase, s.cores, _, rfl⟩
  core _ := rfl
  cluster m := by
    rw [clusterAt_setCluster_eq]
    split
    · next e => rw [e]
    · rfl

theorem setCore_tlb_twin (s : State) (c : Nat) (x : List TlbEntry) : Twin s (setCore s c { coreAt s c with tlb := x }) where
  whole := ⟨s.hart.phase, _, s.clusters, rfl⟩
  core m := by
    rw [coreAt_setCore]
    split
    · next e => rw [e]
    · rfl
  cluster _ := rfl

theorem tlbFill_twin (s : State) (x : Tlbs) (launch : Nat) (va pte : Word) (level : Nat) : Twin s (tlbFill s x launch va pte level) := by
  unfold tlbFill
  split
  · exact .refl s
  · dsimp only
    split
    · exact (setCluster_tlb_twin s _ _).trans (setCore_tlb_twin _ _ _)
    · exact setCluster_tlb_twin s _ _

/-- A translation leaves nothing behind but what the TLBs cache (R354). -/
theorem xlateFill_twin (s : State) (x : Tlbs) (launch : Nat) (va : Word) : Twin s (xlateFill s x launch va) := by
  unfold xlateFill
  split
  · exact .refl s
  · split
    · exact tlbFill_twin ..
    · exact .refl s

theorem xlateFill_hart (s : State) (x : Tlbs) (launch : Nat) (va : Word) : (xlateFill s x launch va).hart = s.hart := by
  unfold xlateFill tlbFill
  split
  · rfl
  · split
    · split
      · rfl
      · dsimp only
        split <;> rfl
    · rfl

theorem translateM_of_maps (maps : Maps s va a pa self) :
    translateM va a s = (.ok (pa, self), xlateFill s (hereTlb s) (curLaunch s) va) := by
  have run : translateFor (hereTlb s) (curLaunch s) va a s = (.ok (pa, self), xlateFill s (hereTlb s) (curLaunch s) va) := by
    rw [translateFor, show xlate s (hereTlb s) (curLaunch s) va a = .ok pa self from maps]
  rw [translateM, waitingM, run]

theorem translateLocalM_of_maps (maps : Maps s va a pa self) (inHbm : windowOf (pa / 64) = 0) :
    translateLocalM va a s = (.ok pa, xlateFill s (hereTlb s) (curLaunch s) va) := by
  rw [translateLocalM, translateM_of_maps maps]
  exact if_pos inHbm

/-- The offset of an address in the page that a leaf of a level maps (R25). -/
def pageOffset (va : Word) (level : Nat) : Nat := if level = 2 then (va.extractLsb' 0 29).toNat else (va.extractLsb' 0 16).toNat

theorem pageOffset_mod (va : Word) (level : Nat) : pageOffset va level % 65536 = va.toNat % 65536 := by
  simp only [pageOffset, BitVec.extractLsb'_toNat, Nat.shiftRight_zero]
  split <;> omega

theorem leafAnswer_ok {pte : Word} {level : Nat} (h : leafAnswer s va a pte level = .ok pa self) :
    pa = pteBase pte + pageOffset va level := by
  have answer : leafAnswer s va a pte level =
      if !pteAllows pte a then .page 0x05 1 level
      else if pteHost pte then .host level
      else if pteSloc pte != inLocalZone s (pteBase pte + pageOffset va level) then .page 0x05 1 level
      else if unbound s (pteBase pte + pageOffset va level) then .page 0x05 1 level
      else .ok (pteBase pte + pageOffset va level) (pteSelf pte) := rfl
  rw [answer] at h
  split at h
  · cases h
  · split at h
    · cases h
    · split at h
      · cases h
      · split at h
        · cases h
        · exact (Xl.ok.inj h).1.symm

/-- What maps an address. -/
theorem Maps.leaf (maps : Maps s va a pa self) : ∃ pte level, leafFor s (hereTlb s) (curLaunch s) va = .leaf pte level ∧
    moving s (tableOf s (curLaunch s)) va level = false ∧ leafAnswer s va a pte level = .ok pa self := by
  unfold Maps xlate at maps
  split at maps
  · cases maps
  · split at maps
    · next pte level found =>
      split at maps
      · cases maps
      · next still => exact ⟨pte, level, found, Bool.eq_false_of_not_eq_true still, maps⟩
    all_goals cases maps

/-- A page lies at a multiple of its size (R25). -/
theorem Maps.offset (maps : Maps s va a pa self) : pa % 65536 = va.toNat % 65536 := by
  obtain ⟨pte, level, -, -, answer⟩ := maps.leaf
  rw [leafAnswer_ok answer, ← pageOffset_mod va level, pteBase, Nat.mul_comm, Nat.mul_add_mod]

end

/-- Addresses of flag instructions (R288). -/
theorem off5_address (x : Word) (off : BitVec 5) : x + off5 off 8 = BitVec.ofInt 64 (x.toInt + off.toInt * 8) := by
  have extended : off.signExtend 64 = BitVec.ofInt 64 off.toInt := rfl
  rw [off5, extended, BitVec.ofInt_add, BitVec.ofInt_mul, BitVec.ofInt_toInt]
  rfl

theorem aligned_guard {va : Word} (aligned : va.toNat % 8 = 0) : (va.extractLsb' 0 3 == 0) = true := by
  rw [beq_iff_eq]
  apply BitVec.eq_of_toNat_eq
  rw [BitVec.extractLsb'_toNat, Nat.shiftRight_zero]
  exact aligned

/-! ## Releases on the way -/

section
variable {s t u : State} {l gran : Nat}

theorem Twin.withPhase (h : Twin s t) (p : Nat) : Twin s { t with hart := { t.hart with phase := p } } := by
  obtain ⟨⟨q, c, k, rfl⟩, core, cluster⟩ := h
  exact ⟨⟨p, c, k, rfl⟩, core, cluster⟩

theorem Twin.copiesOf (h : Twin s t) (k : Nat) : copiesOf t k = copiesOf s k := by simp only [Machine.copiesOf, h.copyq]

theorem Twin.curCore (h : Twin s t) : curCore t = curCore s := h.read Machine.curCore fun _ _ _ _ => rfl

theorem Twin.curCluster (h : Twin s t) : curCluster t = curCluster s := h.read Machine.curCluster fun _ _ _ _ => rfl

theorem ownRelease_twin (h : Twin s t) (l : Nat) :
    (ownRelease t l).2 = (ownRelease s l).2 ∧ Twin (ownRelease s l).1 (ownRelease t l).1 := by
  have both := release_beside (.of_twin h) (curCluster s) (curCore s) (curCore s) l
  unfold ownRelease
  rw [h.curCore, h.curCluster]
  exact ⟨both.1, both.2.twin⟩

/-- A release that runs to its end does so in a twin in the same phase. -/
theorem Released.of_twin (h : Released s l u) (twin : Twin s t) (phase : t.hart.phase = s.hart.phase) :
    ∃ w, Released t l w ∧ Twin u w := by
  rcases h with ⟨one, acks, rfl⟩ | ⟨notOne, copies, published, acks, rfl⟩
  · refine ⟨_, .inl ⟨phase.trans one, ?_, rfl⟩, ?_⟩
    · rw [twin.acked, twin.curCore, acks]
    · rw [twin.curCore]
      exact (advanceRcnt_beside (.of_twin twin) _).twin
  · obtain ⟨same, after⟩ := ownRelease_twin twin l
    refine ⟨_, .inr ⟨phase ▸ notOne, ?_, same.trans published, ?_, rfl⟩, ?_⟩
    · rw [twin.copiesOf, twin.cur, copies]
    · rw [after.acked, twin.curCore, acks]
    · rw [twin.curCore]
      exact (advanceRcnt_beside (.of_twin after) _).twin

/-- What a release and a silhouette on its way to a flag leave. -/
theorem Shipped.told (h : Shipped s l gran u) : Told { s with counts := u.counts } 0 u := by
  rcases h with ⟨-, -, rfl⟩ | ⟨-, v, released, rfl, -⟩
  · exact .refl u
  · have ship := shipSilhouette_beside ⟨released.told, .refl v⟩ (curCore s) gran
    rw [ship.told.counts]
    exact ship.told

/-- A release and its silhouette on their way to a flag that come there do so in a twin in the same phase. -/
theorem shipM_of_shipped (h : Shipped s l gran u) (twin : Twin s t) (phase : t.hart.phase = s.hart.phase) :
    ∃ w, shipM l gran t = (.ok (), w) ∧ Twin u w := by
  unfold shipM
  dsimp only
  rw [phase, twin.curCore]
  rcases h with ⟨four, acks, rfl⟩ | ⟨notFour, v, released, rfl, acks⟩
  · refine ⟨t, ?_, twin⟩
    rw [if_pos four, twin.acked, if_pos acks]
  · obtain ⟨w, run, after⟩ := released.of_twin twin phase
    have shipped := ((shipSilhouette_beside (.of_twin (after.withPhase 0)) (curCore s) gran).twin).withPhase 4
    refine ⟨_, ?_, shipped⟩
    rw [if_neg notFour, releaseM_of_released run]
    dsimp only
    rw [shipped.acked, if_pos acks]

end

/-! ## At the junction -/

section
variable {s t u : State} {gran : Nat}

/-- An access of a twin goes home as soon as its own entries do (R95, R124), and one that forms a granule there as soon as the
junction also finds its way to the I3 copy. -/
theorem homewardM_of_way {forms : Bool} (way : HomeWay s gran) (refresh : forms = true → refreshLeg (drainOwn s (curCore s) gran) gran = none)
    (twin : Twin s t) : ∃ w, homewardM gran forms t = (.ok (), w) ∧ Twin (drainOwn s (curCore s) gran) w := by
  obtain ⟨gone, leg⟩ := way
  have drained := drainOwn_beside (.of_twin twin) (curCore s) gran
  refine ⟨_, ?_, drained.twin⟩
  have core : curCore (drainOwn t (curCore s) gran) = curCore s := drained.twin.curCore.trans (congrArg (· / 2) drained.told.cur)
  have noWait : ownWaits (drainOwn t (curCore s) gran) (curCore s) gran = false := (drained.twin.ownWaits ..).trans gone
  have noLeg : legFrom (drainOwn t (curCore s) gran) (some (curCluster s)) gran = none :=
    (drained.twin.read (legFrom · (some (curCluster s)) gran) fun _ _ _ _ => rfl).trans leg
  have noRefresh (h : forms = true) : refreshLeg (drainOwn t (curCore s) gran) gran = none :=
    (drained.twin.read (refreshLeg · gran) fun _ _ _ _ => rfl).trans (refresh h)
  have runs := homewardM_spec gran forms t
  dsimp only at runs
  rw [twin.curCore, twin.curCluster, core] at runs
  rcases runs with ⟨-, -, run⟩ | ⟨waits | noWay, -⟩
  · exact run
  · rw [noWait] at waits
    cases waits
  · cases forms with
    | false => simp [noLeg] at noWay
    | true => simp [writeLeg, noLeg, noRefresh] at noWay

theorem junctionCheckM_of_good {va : Word} (good : JunctionGood s gran) :
    junctionCheckM va gran s = (.ok (junctionGranule s gran).1, s) := by
  have sound : (peekJ s gran).c.g.badKind = none := Option.isNone_iff_eq_none.mp good
  unfold junctionCheckM
  dsimp only
  rw [sound]
  rfl

end

end Sys2Proof.Machine
end

