-- ==== Sys2Proof/Proofs/FlagInstructions.lean ====
section
/-! SUPPORT. The flag instructions (R133-R135, R288): what the junction forms, the attachment, and what an acquirer invalidates. -/

namespace Sys2Proof.Machine

/-! ## Attachments -/

section
variable {s t : State} {gran : Nat} {sil : Sil}

theorem attachTo_of_lost (lost : isLost s gran = true) : attachTo s gran sil = s := by
  unfold attachTo
  rw [if_pos lost]

/-- A flag that has an attachment, or whose slice has room for one, takes a silhouette (R133). -/
theorem attachTo_of_room (kept : isLost s gran = false)
    (room : (tget s.attach gran).isSome = true ∨ (sliceAttachments s (junctionOf s gran)).length < 64) :
    attachTo s gran sil = { s with
      attach := tput s.attach gran ⟨(tget s.attach gran).elim 0 Attachment.sil ||| sil, s.disp.seq⟩
      disp := { s.disp with seq := s.disp.seq + 1 } } := by
  have no : ¬ isLost s gran = true := by rw [kept]; exact Bool.false_ne_true
  have yes : ((tget s.attach gran).isSome || decide ((sliceAttachments s (junctionOf s gran)).length < 64)) = true := by
    simpa using room
  unfold attachTo
  dsimp only
  rw [if_neg no, if_pos yes, if_neg no]
  cases tget s.attach gran <;> rfl

theorem attachTo_attached (s : State) (gran : Nat) (sil : Sil) : attached s (attachTo s gran sil) gran sil := by
  refine ⟨fun kept none_ room => ?_, fun x kept found => ?_, fun lost => by rw [attachTo_of_lost lost]⟩
  · rw [attachTo_of_room kept (.inr room), none_]
    exact ⟨_, (tget_tput ..).trans (if_pos rfl), BitVec.zero_or⟩
  · rw [attachTo_of_room kept (.inl (by rw [found]; rfl)), found]
    exact ⟨_, (tget_tput ..).trans (if_pos rfl), rfl⟩

/-- Beside the attachments, attaching takes a place in the order alone. -/
theorem attachTo_frame (s : State) (gran : Nat) (sil : Sil) : attachTo s gran sil = { s with
    attach := (attachTo s gran sil).attach, lost := (attachTo s gran sil).lost
    disp := { s.disp with seq := (attachTo s gran sil).disp.seq } } := by
  unfold attachTo
  dsimp only
  split
  · rfl
  · split
    · split <;> rfl
    · split
      · split <;> rfl
      · split <;> rfl

end

/-! ## What an acquirer invalidates -/

section
variable {t r : Tbl Copy} {next : Nat → Copy}

/-- Lines that are being made whole: what `t` has stays, or goes if it is ordinary, and what comes in has in `t` a partner that is
pinned or a placeholder. -/
structure Whole (t r : Tbl Copy) : Prop where
  had : ∀ k c, tget t k = some c → tget r k = some c ∨ c.ordinary = true ∧ tget r k = none
  came : ∀ k c, tget t k = none → tget r k = some c → ∃ b, tget t (partner k) = some b ∧ b.ordinary = false

theorem partner_partner (k : Nat) : partner (partner k) = k := by
  unfold partner
  split <;> split <;> omega

theorem Whole.refl (t : Tbl Copy) : Whole t t where
  had _ _ h := .inl h
  came k c none_ some_ := by rw [none_] at some_; cases some_

theorem Whole.leave (h : Whole t r) {k : Nat} {c : Copy} (had : tget t k = some c) (ordinary : c.ordinary = true) : Whole t (tdel r k) where
  had m d hm := by
    rw [tget_tdel]
    split
    · next e =>
      rw [e, had] at hm
      cases hm
      exact .inr ⟨ordinary, rfl⟩
    · exact h.had m d hm
  came m d none_ some_ := by
    rw [tget_tdel] at some_
    split at some_
    · cases some_
    · exact h.came m d none_ some_

theorem Whole.join (h : Whole t r) {k : Nat} {c d : Copy} (had : tget t k = some c) (kept : c.ordinary = false)
    (alone : tget t (partner k) = none) : Whole t (tput r (partner k) d) where
  had m e hm := by
    rw [tget_tput]
    split
    · next same =>
      rw [same, alone] at hm
      cases hm
    · exact h.had m e hm
  came m e none_ some_ := by
    rw [tget_tput] at some_
    split at some_
    · next same =>
      rw [same, partner_partner]
      exact ⟨c, had, kept⟩
    · exact h.came m e none_ some_

theorem wholeLines_whole (next : Nat → Copy) (t : Tbl Copy) : Whole t (wholeLines next t) := by
  unfold wholeLines
  suffices all : ∀ (l : List (Nat × Copy)) r, Whole t r → Whole t (l.foldl _ r) from all t t (.refl t)
  intro l
  induction l with
  | nil => exact fun r h => h
  | cons x l ih =>
    intro r h
    refine ih _ ?_
    dsimp only
    split
    · next c had =>
      split
      · exact h
      · next alone =>
        split
        · next ordinary => exact h.leave had ordinary
        · next kept => exact h.join had (Bool.eq_false_of_not_eq_true kept) (by simpa using alone)
    · exact h

/-- After an invalidation with lines made whole, a granule that was to go is there only as a placeholder, pinned, or beside one (R135). -/
theorem invTbl_gone (next : Nat → Copy) (t : Tbl Copy) (p : Nat → Bool) {k : Nat} {c : Copy}
    (found : tget (wholeLines next (invTbl t p)) k = some c) (hit : p k = true) :
    c.ordinary = false ∨ ∃ b, tget (wholeLines next (invTbl t p)) (partner k) = some b ∧ b.ordinary = false := by
  have whole := wholeLines_whole next (invTbl t p)
  cases had : tget (invTbl t p) k with
  | some d =>
    rcases whole.had k d had with same | ⟨-, gone⟩
    · rw [same] at found
      cases found
      have kept := (List.mem_filter.mp (mem_of_tget had)).2
      exact .inl (by simpa [hit] using kept)
    · rw [gone] at found
      cases found
  | none =>
    obtain ⟨b, there, kept⟩ := whole.came k c had found
    rcases whole.had _ b there with same | ⟨ordinary, -⟩
    · exact .inr ⟨b, same, kept⟩
    · rw [kept] at ordinary
      cases ordinary

end

section
variable {s : State} {gran : Nat}

theorem invI1_i1 (s : State) (c : Nat) (p : Nat → Bool) :
    ∃ next, (coreAt (invI1 s c p) c).i1 = wholeLines next (invTbl (coreAt s c).i1 p) := by
  unfold invI1 setI1
  rw [coreAt_setCore, if_pos rfl]
  exact ⟨fun g => inward (peekI2 s (clusterOfCore c) g), rfl⟩

/-- An acquirer's invalidation of its core's I1 and its cluster's I2. -/
def invBoth (s : State) (p : Nat → Bool) : State := invI1 (invI2 s (curCluster s) p) (curCore s) p

theorem invBoth_copiesOnly (s : State) (p : Nat → Bool) : CopiesOnly s (invBoth s p) :=
  (invI2_copiesOnly ..).trans (invI1_copiesOnly ..)

theorem clusterOf_curCore (s : State) : clusterOfCore (curCore s) = curCluster s := by
  unfold clusterOfCore curCore curCluster coreOfSlot clusterOfSlot
  omega

/-- The state after an acquirer's invalidation, with a silhouette. -/
def applied (s : State) (p : Nat → Bool) (sil : Sil) : State := { invBoth s p with hart := { s.hart with sil := sil } }

theorem applySil_eq (s : State) (sil : Sil) : applySil s (curCore s) sil true = invBoth s (silMatches sil) := by
  unfold applySil
  dsimp only
  rw [clusterOf_curCore]
  rfl

theorem acquire_of_lost (lost : isLost s gran = true) : acquire s gran =
    applied s (fun _ => true) (BitVec.allOnes 1024) := if_pos lost

theorem acquire_of_attachment {a : Attachment} (kept : isLost s gran = false) (found : tget s.attach gran = some a) : acquire s gran =
    applied s (silMatches a.sil) (s.hart.sil ||| a.sil) := by
  unfold acquire
  dsimp only
  rw [if_neg (by rw [kept]; exact Bool.false_ne_true), found]
  dsimp only
  rw [applySil_eq]
  rfl

theorem acquire_of_none (kept : isLost s gran = false) (none_ : tget s.attach gran = none) : acquire s gran = s := by
  unfold acquire
  dsimp only
  rw [if_neg (by rw [kept]; exact Bool.false_ne_true), none_]

/-- What an acquirer's invalidation leaves in its I1 and its I2 (R135). -/
theorem applied_gone (s : State) (p : Nat → Bool) (sil : Sil) : (applied s p sil).hart.sil = sil ∧
    (∀ k c, tget (coreAt (applied s p sil) (curCore s)).i1 k = some c → p k = true → c.ordinary = false ∨
      ∃ b, tget (coreAt (applied s p sil) (curCore s)).i1 (partner k) = some b ∧ b.ordinary = false) ∧
    (∀ k c, tget (clusterAt (applied s p sil) (curCluster s)).i2 k = some c → p k = true → c.ordinary = false ∨
      ∃ b, tget (clusterAt (applied s p sil) (curCluster s)).i2 (partner k) = some b ∧ b.ordinary = false) := by
  obtain ⟨next, i1⟩ := invI1_i1 (invI2 s (curCluster s) p) (curCore s) p
  obtain ⟨next', i2⟩ := invI2_i2 s (curCluster s) p
  have same1 : (coreAt (applied s p sil) (curCore s)).i1 = _ := i1
  have same2 : (clusterAt (applied s p sil) (curCluster s)).i2 = _ := i2
  rw [same1, same2]
  exact ⟨rfl, fun k c => invTbl_gone _ _ _, fun k c => invTbl_gone _ _ _⟩

theorem acquire_acquired (s : State) (gran : Nat) : acquired (acquire s gran) gran s.hart.sil := by
  by_cases lost : isLost s gran = true
  · have kept : isLost s gran ≠ false := by rw [lost]; decide
    rw [acquire_of_lost lost]
    have gone := applied_gone s (fun _ => true) (BitVec.allOnes 1024)
    unfold acquired
    generalize BitVec.allOnes 1024 = ones at gone ⊢
    exact ⟨fun _ => gone, fun x h => absurd h kept, fun h => absurd h kept⟩
  · cases found : tget s.attach gran with
    | some a =>
      rw [acquire_of_attachment (Bool.eq_false_of_not_eq_true lost) found]
      refine ⟨fun h => absurd h lost, fun x _ same => ?_, fun _ none_ => ?_⟩
      · cases Option.some.inj (found.symm.trans same)
        exact applied_gone s _ _
      · cases found.symm.trans none_
    | none =>
      rw [acquire_of_none (Bool.eq_false_of_not_eq_true lost) found]
      refine ⟨fun h => absurd h lost, fun x _ same => ?_, fun _ _ => rfl⟩
      cases found.symm.trans same

/-- An acquirer changes inbound copies and its silhouette alone. -/
structure Acquires (s t : State) : Prop where
  whole : t = { s with hart := { s.hart with sil := t.hart.sil }, i3 := t.i3, cores := t.cores, clusters := t.clusters, tick := t.tick }
  copies : CopiesOnly s t

theorem acquire_acquires (s : State) (gran : Nat) : Acquires s (acquire s gran) := by
  have both (p : Nat → Bool) (sil : Sil) : Acquires s (applied s p sil) :=
    ⟨rfl, (invBoth_copiesOnly s p).core, (invBoth_copiesOnly s p).cluster⟩
  by_cases lost : isLost s gran = true
  · rw [acquire_of_lost lost]
    exact both ..
  · cases found : tget s.attach gran with
    | some a =>
      rw [acquire_of_attachment (Bool.eq_false_of_not_eq_true lost) found]
      exact both ..
    | none =>
      rw [acquire_of_none (Bool.eq_false_of_not_eq_true lost) found]
      exact ⟨rfl, .refl s⟩

end

/-! ## What the junction forms -/

section
variable {v w t : State} {gran pa level : Nat} {g : Granule} {value : Word}

theorem junctionOf_congr (zone : w.memzone = v.memzone) (k : Nat) : junctionOf w k = junctionOf v k := by
  unfold junctionOf homeOf inLocalZone zoneSize
  rw [zone]

theorem attached_congr (attach : w.attach = v.attach) (lost : w.lost = v.lost) (zone : w.memzone = v.memzone) {sil : Sil}
    (h : attached w t gran sil) : attached v t gran sil := by
  have sameLost : isLost w gran = isLost v gran := by rw [isLost, lost]; rfl
  have sameJunction := junctionOf_congr zone
  have sameSlice : sliceAttachments w (junctionOf w gran) = sliceAttachments v (junctionOf v gran) := by
    simp only [sliceAttachments, sameJunction, attach]
  obtain ⟨fresh, old, none_⟩ := h
  rw [sameLost, attach] at none_
  rw [sameLost, attach, sameSlice] at fresh
  simp only [sameLost, attach] at old
  exact ⟨fresh, old, none_⟩

/-- An access at the home junction, seen from a twin of the state in which it is performed. -/
theorem JunctionFrame.of_twin (twin : Twin v w) (whole : t = { w with
      hart := t.hart, i3 := t.i3, o3 := t.o3, cores := t.cores, clusters := t.clusters, attach := t.attach, lost := t.lost
      disp := t.disp, tick := t.tick })
    (copies : CopiesOnly w t) (disp : t.disp = { w.disp with seq := t.disp.seq })
    (others : ∀ k, k ≠ gran → tget t.o3 k = tget w.o3 k) : JunctionFrame v t gran where
  whole := by
    obtain ⟨_, _, _, same⟩ := twin.whole
    rw [same] at whole
    exact whole
  cores c := by rw [copies.core, twin.core]
  clusters n := by rw [copies.cluster, twin.cluster]
  disp := by rw [disp, twin.disp]
  others k hk := (others k hk).trans (congrArg (tget · k) (twin.read (·.o3) fun _ _ _ _ => rfl))

theorem putO3_hart (s : State) (gran : Nat) (g : Granule) : (putO3 s gran g).hart = s.hart := by
  unfold putO3
  rw [(putO3At_aside gran g s.disp.seq).units]
  rfl

/-- What arrives in O3 is there. -/
theorem putO3_o3 (s : State) (gran : Nat) (g : Granule) : ∃ e, tget (putO3 s gran g).o3 gran = some e ∧ e.g = g := by
  unfold putO3 putO3At
  dsimp only
  rw [refreshI3_o3]
  exact ⟨_, (tget_tput ..).trans (if_pos rfl), rfl⟩

/-- Where O3 has room, an arrival leaves everything but its own entry and the copies in I3. -/
theorem putO3_frame {s : State} (room : HomeRoom s gran) : putO3 s gran g = { s with i3 := (putO3 s gran g).i3, o3 := (putO3 s gran g).o3 } ∧
    ∀ k, k ≠ gran → tget (putO3 s gran g).o3 k = tget s.o3 k := by
  have fits : roomO3 s gran = s := if_pos (by simpa [HomeRoom] using room)
  unfold putO3 putO3At
  dsimp only
  rw [fits]
  refine ⟨?_, fun k other => ?_⟩
  · unfold refreshI3
    split <;> rfl
  · rw [refreshI3_o3]
    exact (tget_tput ..).trans (if_neg other)

/-- The state in which `strel` has stored its word and attached its silhouette. -/
def flagged (s : State) (pa level : Nat) (g : Granule) (value : Word) : State :=
  let s := junctionForm s pa g 8 value.toNat level
  let s := attachTo s (pa / 64) s.hart.sil
  { s with hart := { s.hart with sil := 0 } }

theorem flagged_hart (s : State) : (flagged s pa level g value).hart = { s.hart with sil := 0 } := by
  have formed : (junctionForm s pa g 8 value.toNat level).hart = s.hart := putO3_hart ..
  unfold flagged
  dsimp only
  rw [attachTo_frame, formed]

theorem flagged_attached (s : State) : attached s (advance (flagged s pa level g value)) (pa / 64) s.hart.sil := by
  have formed := (putO3At_aside (pa / 64) (mkGranule (mergeMask g.data (placeBytes (pa % 64) value.toNat) (byteMask (pa % 64) 8))
    (prodJunction (junctionOf s (pa / 64))) level 0) s.disp.seq).fixed s
  simp only [fixed, Prod.mk.injEq] at formed
  obtain ⟨-, -, attach, lost, zone⟩ := formed
  have hart : (junctionForm s pa g 8 value.toNat level).hart = s.hart := putO3_hart ..
  have h := attachTo_attached (junctionForm s pa g 8 value.toNat level) (pa / 64) s.hart.sil
  unfold advance flagged
  dsimp only
  rw [hart]
  exact attached_congr (w := junctionForm s pa g 8 value.toNat level) attach lost zone h

/-- What the junction has formed. -/
theorem flagged_granule (s : State) : (junctionGranule (advance (flagged s pa level g value)) (pa / 64)).1 =
    mkGranule (mergeMask g.data (placeBytes (pa % 64) value.toNat) (byteMask (pa % 64) 8)) (prodJunction (junctionOf s (pa / 64))) level 0 := by
  obtain ⟨e, there, formed⟩ := putO3_o3 s (pa / 64) (mkGranule (mergeMask g.data (placeBytes (pa % 64) value.toNat) (byteMask (pa % 64) 8))
    (prodJunction (junctionOf s (pa / 64))) level 0)
  have entry : tget (advance (flagged s pa level g value)).o3 (pa / 64) = some e := by
    show tget (flagged s pa level g value).o3 (pa / 64) = some e
    unfold flagged
    dsimp only
    rw [attachTo_frame]
    exact there
  rw [junctionGranule, entry, ← formed]

/-- The bytes of the flag's granule: the word, and what was there. -/
theorem flagged_byte (s : State) (word : pa % 8 = 0) {k : Nat} (here : k / 64 = pa / 64) :
    homeByte (advance (flagged s pa level g value)) k =
      if pa ≤ k ∧ k < pa + 8 then value.extractLsb' (8 * (k - pa)) 8 else g.byte k := by
  have merged := merged_byte g.data (pa % 64) 8 value.toNat (k % 64) (by omega) (by omega)
  have place : (pa % 64 ≤ k % 64 ∧ k % 64 < pa % 64 + 8) ↔ (pa ≤ k ∧ k < pa + 8) := by omega
  rw [homeByte, here, flagged_granule, Granule.byte]
  refine merged.trans ?_
  simp only [place]
  by_cases inside : pa ≤ k ∧ k < pa + 8
  · have offset : k % 64 - pa % 64 = k - pa := by omega
    rw [if_pos inside, if_pos inside, offset, BitVec.ofNat_toNat]
    apply BitVec.eq_of_getLsbD_eq
    intro i hi
    have low : 8 * (k - pa) + i < 512 := by omega
    rw [BitVec.getLsbD_extractLsb', BitVec.getLsbD_extractLsb', BitVec.getLsbD_setWidth, decide_eq_true low, Bool.true_and]
  · rw [if_neg inside, if_neg inside]
    rfl

/-- Where O3 has room, the flag's store and attachment change nothing else outside the hart. -/
theorem flagged_frame (twin : Twin v w) (room : HomeRoom v (pa / 64)) :
    JunctionFrame v (advance (flagged w pa level g value)) (pa / 64) := by
  have roomW : HomeRoom w (pa / 64) := (twin.read (HomeRoom · (pa / 64)) fun _ _ _ _ => rfl).mpr room
  obtain ⟨formed, others⟩ := putO3_frame roomW (g := mkGranule (mergeMask g.data (placeBytes (pa % 64) value.toNat) (byteMask (pa % 64) 8))
    (prodJunction (junctionOf w (pa / 64))) level 0)
  obtain ⟨i3, o3, stored⟩ : ∃ i o, junctionForm w pa g 8 value.toNat level = { w with i3 := i, o3 := o } := ⟨_, _, formed⟩
  obtain ⟨attach, lost, seq, joined⟩ : ∃ a l q, attachTo { w with i3 := i3, o3 := o3 } (pa / 64) w.hart.sil =
      { w with i3 := i3, o3 := o3, attach := a, lost := l, disp := { w.disp with seq := q } } := ⟨_, _, _, attachTo_frame ..⟩
  have whole : flagged w pa level g value = { w with
      hart := { w.hart with sil := 0 }, i3 := i3, o3 := o3, attach := attach, lost := lost, disp := { w.disp with seq := seq } } := by
    unfold flagged
    rw [stored]
    dsimp only
    rw [joined]
  have same : (junctionForm w pa g 8 value.toNat level).o3 = o3 := by rw [stored]
  rw [whole]
  exact .of_twin twin rfl ⟨fun _ => rfl, fun _ => rfl⟩ rfl fun k other => by rw [← others k other, ← same]; rfl

end

/-! ## Runs -/

section
variable {s v w t u : State} {sc : Scope} {a b d : XIdx} {off : BitVec 5} {pa : Nat} {self : Bool} {g : Granule}

/-- The address of a flag instruction (R288). -/
def flagVa (s : State) (a : XIdx) (off : BitVec 5) : Word := xreg s a + off5 off 8

/-- `strel` runs to its end where every part of it does. -/
theorem exec_strel_of_parts (aligned : (flagVa s a off).toNat % 8 = 0)
    (translated : translateLocalM (flagVa s a off) .rw s = (.ok pa, t)) (noRange : rangeMeeting t pa 8 = none)
    (shipped : shipM sc.level (pa / 64) (withNr t) = (.ok (), u)) (home : homewardM (pa / 64) true u = (.ok (), w))
    (checked : junctionCheckM (flagVa s a off) (pa / 64) w = (.ok g, w)) :
    exec (.strel sc a b off) s = .next (advance (flagged w pa (max 3 sc.level) g (xreg s b))) := by
  have run : exec (.strel sc a b off) s = execStrel sc a b off s := rfl
  have free : noRangeM (flagVa s a off) pa 8 t = (.ok (), t) := by rw [noRangeM, noRange]
  unfold flagVa at *
  rw [run, execStrel]
  dsimp only
  rw [runM]
  simp only [bind_run, guardM_run, aligned_guard aligned, if_true, translated, free, setNrM_run, shipped, home, checked]
  rfl

/-- `ldacq` runs to its end where every part of it does. -/
theorem exec_ldacq_of_parts (aligned : (flagVa s a off).toNat % 8 = 0)
    (translated : translateLocalM (flagVa s a off) .read s = (.ok pa, t)) (noOvf : ovfRange t (pa / 64) = none)
    (home : homewardM (pa / 64) false t = (.ok (), w)) (checked : junctionCheckM (flagVa s a off) (pa / 64) w = (.ok g, w)) :
    exec (.ldacq d a off) s = .next (advance (setX (acquire w (pa / 64)) d (BitVec.ofNat 64 (granuleBytes g.data (pa % 64) 8)))) := by
  have run : exec (.ldacq d a off) s = execLdacq d a off s := rfl
  have free : ovfTest (flagVa s a off) (pa / 64) t = (.ok (), t) := by rw [ovfTest, noOvf]
  unfold flagVa at *
  rw [run, execLdacq, runM]
  simp only [bind_run, guardM_run, aligned_guard aligned, if_true, translated, free, home, checked]
  rfl

/-- `strel` from a state that meets nothing that stops it: it acts at the junction in a twin of the state that its release and its
own entries leave. -/
theorem exec_strel_of_shipped (aligned : (flagVa s a off).toNat % 8 = 0) (maps : Maps s (flagVa s a off) .rw pa self)
    (inHbm : windowOf (pa / 64) = 0) (noRange : rangeMeeting s pa 8 = none) (shipped : Shipped (withNr s) sc.level (pa / 64) u)
    (way : FormWay u (pa / 64)) (core : curCore u = curCore s) (good : JunctionGood (drainOwn u (curCore s) (pa / 64)) (pa / 64)) :
    ∃ w, Twin (drainOwn u (curCore s) (pa / 64)) w ∧ exec (.strel sc a b off) s = .next (advance
      (flagged w pa (max 3 sc.level) (junctionGranule (drainOwn u (curCore s) (pa / 64)) (pa / 64)).1 (xreg s b))) := by
  have filled := xlateFill_twin s (hereTlb s) (curLaunch s) (flagVa s a off)
  have ready := (withNr_beside (.of_twin filled)).twin
  have phase : (withNr (xlateFill s (hereTlb s) (curLaunch s) (flagVa s a off))).hart.phase = (withNr s).hart.phase := by
    rw [withNr_hart, withNr_hart, xlateFill_hart]
  obtain ⟨x, ship, atShip⟩ := shipM_of_shipped shipped ready phase
  obtain ⟨w, home, atHome⟩ := homewardM_of_way (forms := true) way.1 (fun _ => way.2) atShip
  rw [core] at atHome
  have same : junctionGranule w (pa / 64) = junctionGranule (drainOwn u (curCore s) (pa / 64)) (pa / 64) :=
    atHome.read (junctionGranule · (pa / 64)) fun _ _ _ _ => rfl
  have check := junctionCheckM_of_good (va := flagVa s a off) (s := w) (gran := pa / 64) (by rw [JunctionGood, same]; exact good)
  rw [same] at check
  exact ⟨w, atHome, exec_strel_of_parts aligned (translateLocalM_of_maps maps inHbm)
    ((filled.read (rangeMeeting · pa 8) fun _ _ _ _ => rfl).trans noRange) ship home check⟩

theorem exec_ldacq_of_way (aligned : (flagVa s a off).toNat % 8 = 0) (maps : Maps s (flagVa s a off) .read pa self)
    (inHbm : windowOf (pa / 64) = 0) (noOvf : ovfRange s (pa / 64) = none) (way : HomeWay s (pa / 64))
    (good : JunctionGood (drainOwn s (curCore s) (pa / 64)) (pa / 64)) :
    ∃ w, Twin (drainOwn s (curCore s) (pa / 64)) w ∧ exec (.ldacq d a off) s = .next (advance (setX (acquire w (pa / 64)) d
      (BitVec.ofNat 64 (granuleBytes (junctionGranule (drainOwn s (curCore s) (pa / 64)) (pa / 64)).1.data (pa % 64) 8)))) := by
  have filled := xlateFill_twin s (hereTlb s) (curLaunch s) (flagVa s a off)
  obtain ⟨w, home, atHome⟩ := homewardM_of_way (forms := false) way (fun h => by cases h) filled
  have same : junctionGranule w (pa / 64) = junctionGranule (drainOwn s (curCore s) (pa / 64)) (pa / 64) :=
    atHome.read (junctionGranule · (pa / 64)) fun _ _ _ _ => rfl
  have check := junctionCheckM_of_good (va := flagVa s a off) (s := w) (gran := pa / 64) (by rw [JunctionGood, same]; exact good)
  rw [same] at check
  exact ⟨w, atHome, exec_ldacq_of_parts aligned (translateLocalM_of_maps maps inHbm)
    ((filled.read (ovfRange · (pa / 64)) fun _ _ _ _ => rfl).trans noOvf) home check⟩

end

/-- A hart that has got notices alone and gives up its silhouette goes on. -/
theorem Hart.advance_of_twin {h g f : Hart} (twin : g = { h with phase := g.phase }) (goes : f = ({ g with sil := 0 } : Hart).advance) :
    f = { h with
      sil := 0, pc := f.pc, frames := f.frames, resume := f.resume, mid := f.mid, waits := f.waits, phase := f.phase } := by
  generalize g.phase = p at twin
  subst twin goes
  exact rfl

/-- An aligned word at its home junction. -/
theorem homeWord {s : State} {pa : Nat} (aligned : pa % 8 = 0) :
    granuleBytes (junctionGranule s (pa / 64)).1.data (pa % 64) 8 = littleEndian (fun i => homeByte s (pa + i)) 8 := by
  have here : ∀ i, i < 8 → (pa + i) / 64 = pa / 64 := by omega
  rw [granuleBytes_word _ aligned]
  simp only [littleEndian, homeByte, here, Nat.lt_add_one, Nat.reduceLT, Nat.reduceAdd, Nat.add_zero]

/-- What is left of a hart that acquires, takes the word it has read, and goes on. -/
theorem Hart.advance_of_acquire {h g f : Hart} {d : XIdx} {x : Word} (twin : g = { h with sil := g.sil, phase := g.phase })
    (goes : f = (g.setX d x).advance) : f = { h with
      x := f.x, sil := f.sil, pc := f.pc, frames := f.frames, resume := f.resume, mid := f.mid, waits := f.waits, phase := f.phase } := by
  generalize g.phase = p, g.sil = sil at twin
  subst twin goes
  unfold Hart.setX
  split <;> exact rfl

/-- Writing the word that it has read leaves what an acquirer has done. -/
theorem acquired_advance_setX {s : State} {gran : Nat} {sil : Sil} (d : XIdx) (x : Word) (h : acquired s gran sil) :
    acquired (advance (setX s d x)) gran sil := by
  have same : (advance (setX s d x)).hart.sil = s.hart.sil := Hart.setX_sil ..
  unfold acquired at h ⊢
  rw [same]
  exact h

/-- Settles O17: both instructions run, beside the states that the statement names, in their twins with the translation cached. -/
theorem flagInstructions : Obligations.FlagInstructions := by
  unfold Obligations.FlagInstructions
  refine ⟨?_, ?_⟩
  · intro s u sc a b off pa self va gran v aligned maps inHbm noRange shipped way good
    have address : va = flagVa s a off := (off5_address ..).symm
    rw [address] at aligned maps
    have toldU := shipped.told
    have core : curCore u = curCore s := congrArg (· / 2) (toldU.cur.trans (withNr_told s).cur)
    have told : Told { withNr s with counts := u.counts } 0 v := (drainOwn_beside ⟨toldU, .refl u⟩ (curCore s) gran).told
    have only : toldOnly s v s.hart := told.toldOnly (withNr_hart s) (withNr_reports s)
    have zone : v.memzone = s.memzone := told.memzone.trans (withNr_told s).memzone
    obtain ⟨w, twin, run⟩ := exec_strel_of_shipped (b := b) aligned maps inHbm noRange shipped way core good
    have hart := flagged_hart w (pa := pa) (level := max 3 sc.level) (g := (junctionGranule v gran).1) (value := xreg s b)
    have atW : w.hart = { v.hart with phase := w.hart.phase } := twin.hart
    have word : pa % 8 = 0 := by have := maps.offset; omega
    have junction : junctionOf w gran = junctionOf s gran :=
      (twin.read (junctionOf · gran) fun _ _ _ _ => rfl).trans (junctionOf_congr zone gran)
    refine ⟨toldOnly.withPhase only, _, run, flagged_frame twin, ?_, ?_, ?_, ?_, ?_, ?_⟩
    · refine toldOnly.goneOn only ?_ ?_ ?_ <;> rw [hart, atW]
    · exact Hart.advance_of_twin atW (congrArg Hart.advance hart)
    · rw [flagged_granule, ← junction]
      rfl
    · intro i hi
      have inside : pa ≤ pa + i ∧ pa + i < pa + 8 := by omega
      exact (flagged_byte w word (by omega)).trans (by rw [if_pos inside, Nat.add_sub_cancel_left])
    · intro k here apart
      exact (flagged_byte w word here).trans (if_neg (by omega))
    · have joined := flagged_attached w (pa := pa) (level := max 3 sc.level) (g := (junctionGranule v gran).1) (value := xreg s b)
      have sil : w.hart.sil = s.hart.sil := by rw [atW, only.1]
      rw [sil] at joined
      exact attached_congr (twin.read (·.attach) fun _ _ _ _ => rfl) (twin.read (·.lost) fun _ _ _ _ => rfl)
        (twin.read (·.memzone) fun _ _ _ _ => rfl) joined
  · intro s d a off pa self va gran v aligned maps inHbm noOvf way good
    have address : va = flagVa s a off := (off5_address ..).symm
    rw [address] at aligned maps
    have told : Told s 0 v := (drainOwn_beside (.of_twin (.refl s)) (curCore s) gran).told
    have only : toldOnly s v s.hart := told.toldOnly rfl rfl
    obtain ⟨w, twin, run⟩ := exec_ldacq_of_way (d := d) aligned maps inHbm noOvf way good
    have atW : w.hart = { v.hart with phase := w.hart.phase } := twin.hart
    have word : pa % 8 = 0 := by have := maps.offset; omega
    have done := acquire_acquired w gran
    obtain ⟨whole, copies⟩ := acquire_acquires w gran
    have sil : w.hart.sil = s.hart.sil := by rw [atW, only.1]
    rw [sil] at done
    rw [homeWord word] at run
    generalize acquire w gran = y at run done whole copies
    have hart : y.hart = { w.hart with sil := y.hart.sil } := congrArg State.hart whole
    have o3 : y.o3 = v.o3 := (congrArg State.o3 whole).trans (twin.read (·.o3) fun _ _ _ _ => rfl)
    have attach : y.attach = s.attach := (congrArg State.attach whole).trans ((twin.read (·.attach) fun _ _ _ _ => rfl).trans told.attach)
    have lost : y.lost = s.lost := (congrArg State.lost whole).trans ((twin.read (·.lost) fun _ _ _ _ => rfl).trans told.lost)
    refine ⟨only, _, run, ?_, o3, attach, ?_, ?_, ?_, lost, acquired_advance_setX d _ done⟩
    · obtain ⟨h, i3, cores, clusters, tick, rfl⟩ : ∃ h i c k m, y = { w with hart := h, i3 := i, cores := c, clusters := k, tick := m } :=
        ⟨_, _, _, _, _, whole⟩
      exact .of_twin twin rfl ⟨copies.core, copies.cluster⟩ rfl fun _ _ => rfl
    · refine toldOnly.goneOn only ?_ ?_ ?_
      · exact (Hart.setX_pc ..).trans (by rw [hart, atW])
      · exact (Hart.setX_frames ..).trans (by rw [hart, atW])
      · exact (Hart.setX_susp ..).trans (by rw [hart, atW])
    · exact Hart.advance_of_acquire (by rw [hart, atW]) rfl
    · intro r
      have same : y.hart.xreg r = s.hart.xreg r := by
        rw [hart, atW, only.1]
        rfl
      rw [← same]
      exact Hart.xreg_setX ..

end Sys2Proof.Machine
end

