-- ==== Sys2Proof/Proofs/Partials.lean ====
section
/-! SUPPORT. What entering a contribution does (R145, R146): the partial that waits or joins another, OVF, and the room that it takes. -/

namespace Sys2Proof.Machine

/-! ## One contribution -/

/-- The partials of a cluster after a contribution has entered, and whether a combination saturated (R146). -/
def partialsWith (c : Word) (held : Option Nat) (core pa r : Nat) (v : Int) (ps : List Partial) : List Partial × Bool :=
  match ps.find? fun q => q.pa == pa && q.core == core && q.held == held with
  | some q => ({ q with val := (rangeCombine c q.val v).1 } :: ps.erase q, (rangeCombine c q.val v).2)
  | none => (ps ++ [⟨pa, r, v, core, held⟩], false)

section
variable {s t : State} {core pa r n m : Nat} {v : Int} {c : Word} {held : Option Nat} {ps : List Partial}

theorem partialsWith_of_none (alone : ps.find? (fun q => q.pa == pa && q.core == core && q.held == held) = none) :
    partialsWith c held core pa r v ps = (ps ++ [⟨pa, r, v, core, held⟩], false) := by
  unfold partialsWith
  rw [alone]

theorem partialsWith_of_some {q : Partial} (found : ps.find? (fun q => q.pa == pa && q.core == core && q.held == held) = some q) :
    partialsWith c held core pa r v ps =
      ({ q with val := (rangeCombine c q.val v).1 } :: ps.erase q, (rangeCombine c q.val v).2) := by
  unfold partialsWith
  rw [found]

/-- The contribution need not free what its step holds (R80). -/
def holds (s : State) (n bytes : Nat) : Prop := heldBy s = none ∨ heldBytes s n + bytes ≤ 2097152

theorem holdFor_of_holds {bytes : Nat} (room : holds s n bytes) : holdFor s n (heldBy s) false bytes = (s, heldBy s) := by
  unfold holdFor
  rcases room with none_ | fits
  · rw [none_]
  · cases heldBy s with
    | none => rfl
    | some h => exact if_neg (by simpa using fits)

theorem clusterAt_setOvf (s : State) (r : Nat) (sat : Bool) (n : Nat) : clusterAt (setOvf s r sat) n = clusterAt s n := by
  unfold setOvf
  split <;> rfl

theorem enterPartial_eq (room : holds s (clusterOfCore core) (crngElem (crngcOf s r))) : enterPartial s core pa r v =
    setCluster (setOvf s r (partialsWith (crngcOf s r) (heldBy s) core pa r v (clusterAt s (clusterOfCore core)).partials).2)
      (clusterOfCore core) { clusterAt s (clusterOfCore core) with
        partials := (partialsWith (crngcOf s r) (heldBy s) core pa r v (clusterAt s (clusterOfCore core)).partials).1 } := by
  have held := holdFor_of_holds room
  unfold enterPartial partialsWith
  dsimp only
  generalize List.find? _ _ = found
  cases found with
  | some q =>
    dsimp only
    rw [clusterAt_setOvf]
  | none =>
    dsimp only
    rw [held]
    rfl

/-! ## Ranges keep their extent -/

/-- The descriptors of two states differ in OVF alone. -/
structure SameRanges (s t : State) : Prop where
  base : t.crngb = s.crngb
  bits : ∀ r i, i ≠ 62 → (crngcOf t r).getLsbD i = (crngcOf s r).getLsbD i

theorem SameRanges.refl (s : State) : SameRanges s s := ⟨rfl, fun _ _ _ => rfl⟩

theorem crngcOf_setOvf (s : State) (r k : Nat) : crngcOf (setOvf s r true) k =
    if k = r ∧ k < 16 then crngcOf s r ||| (1 : Word) <<< 62 else crngcOf s k := by
  have set : (setOvf s r true).crngc.toList = s.crngc.toList.set r (crngcOf s r ||| (1 : Word) <<< 62) := Vector.toList_setIfInBounds ..
  have length : s.crngc.toList.length = 16 := Vector.length_toList ..
  rw [crngcOf, set, List.getD_eq_getElem?_getD, List.getElem?_set, length]
  by_cases at_ : r = k
  · subst at_
    by_cases inside : r < 16
    · simp [inside]
    · simp [inside, crngcOf]
  · rw [if_neg at_, if_neg (fun h => at_ h.1.symm), crngcOf, List.getD_eq_getElem?_getD]

theorem setOvf_sameRanges (s : State) (r : Nat) (sat : Bool) : SameRanges s (setOvf s r sat) := by
  cases sat with
  | false => exact .refl s
  | true =>
    refine ⟨rfl, fun k i hi => ?_⟩
    rw [crngcOf_setOvf]
    split
    · next at_ =>
      have off : ((1 : Word) <<< 62).getLsbD i = false := by
        show ((1#64) <<< 62).getLsbD i = false
        rw [BitVec.getLsbD_shiftLeft, BitVec.getLsbD_one]
        simp only [Bool.and_eq_false_imp, Bool.and_eq_true, decide_eq_true_eq, Bool.not_eq_true', decide_eq_false_iff_not]
        omega
      rw [at_.1, BitVec.getLsbD_or, off, Bool.or_false]
    · rfl

section
variable (same : SameRanges s t) (r : Nat)
include same

theorem SameRanges.extract (lo len : Nat) (below : lo + len ≤ 62 ∨ 62 < lo) :
    (crngcOf t r).extractLsb' lo len = (crngcOf s r).extractLsb' lo len := by
  apply BitVec.eq_of_getLsbD_eq
  intro i hi
  rw [BitVec.getLsbD_extractLsb', BitVec.getLsbD_extractLsb', same.bits r (lo + i) (by omega)]

theorem SameRanges.fmt : crngFmt (crngcOf t r) = crngFmt (crngcOf s r) := by rw [crngFmt, same.extract r 40 2 (by omega)]; rfl
theorem SameRanges.elem : crngElem (crngcOf t r) = crngElem (crngcOf s r) := by rw [crngElem, same.fmt]; rfl
theorem SameRanges.exp : crngExp (crngcOf t r) = crngExp (crngcOf s r) := by rw [crngExp, same.extract r 44 8 (by omega)]; rfl
theorem SameRanges.len : crngLen (crngcOf t r) = crngLen (crngcOf s r) := by rw [crngLen, same.extract r 0 30 (by omega)]; rfl
theorem SameRanges.valid : crngValid (crngcOf t r) = crngValid (crngcOf s r) := same.bits r 63 (by omega)

theorem SameRanges.rangeOf (pa : Nat) : rangeOf t pa = rangeOf s pa := by
  have each : ∀ i, (crngValid (crngcOf t i) && decide (pa < crngBase (t.crngb.toList.getD i 0) + crngLen (crngcOf t i)) &&
      decide (crngBase (t.crngb.toList.getD i 0) < pa + 1)) =
      (crngValid (crngcOf s i) && decide (pa < crngBase (s.crngb.toList.getD i 0) + crngLen (crngcOf s i)) &&
      decide (crngBase (s.crngb.toList.getD i 0) < pa + 1)) := fun i => by rw [same.valid, same.len, same.base]
  exact congrArg (List.find? · (List.range 16)) (funext each)

theorem SameRanges.contribution (w x : Nat) : contribution (crngcOf t r) w x = contribution (crngcOf s r) w x := by
  unfold Machine.contribution
  rw [same.fmt, same.exp]

end

theorem enterPartial_sameRanges (room : holds s (clusterOfCore core) (crngElem (crngcOf s r))) :
    SameRanges s (enterPartial s core pa r v) := by
  rw [enterPartial_eq room]
  exact ⟨(setOvf_sameRanges ..).base, (setOvf_sameRanges ..).bits⟩

/-! ## Room -/

theorem crngElem_le (c : Word) : crngElem c ≤ 8 := by
  unfold crngElem
  split <;> omega

theorem partialBytes_eq_sum (s : State) (ps : List Partial) :
    partialBytes s ps = (ps.map fun p => crngElem (crngcOf s p.range)).sum := by
  rw [List.sum_eq_foldl, List.foldl_map]
  rfl

theorem sum_map_filter {α : Type} (f : α → Nat) (p : α → Bool) (l : List α) :
    ((l.filter p).map f).sum = (l.map fun x => if p x then f x else 0).sum := by
  induction l with
  | nil => rfl
  | cons x l ih =>
    rw [List.map_cons, List.sum_cons, ← ih, List.filter_cons]
    split
    · rfl
    · exact (Nat.zero_add _).symm

/-- A contribution takes 8 bytes at most: nothing where it joins a partial. -/
theorem partialsWith_weight (f : Partial → Nat) (small : ∀ p, f p ≤ 8) (place : ∀ (q : Partial) x, f { q with val := x } = f q) :
    ((partialsWith c held core pa r v ps).1.map f).sum ≤ (ps.map f).sum + 8 := by
  cases found : ps.find? fun q => q.pa == pa && q.core == core && q.held == held with
  | some q =>
    rw [partialsWith_of_some found, ((List.perm_cons_erase (List.mem_of_find?_eq_some found)).map f).sum_eq]
    simp only [List.map_cons, List.sum_cons, place]
    omega
  | none =>
    rw [partialsWith_of_none found]
    simp only [List.map_append, List.map_cons, List.map_nil, List.sum_append, List.sum_cons, List.sum_nil]
    have := small ⟨pa, r, v, core, held⟩
    omega

theorem partialBytes_congr (same : SameRanges s t) (ps : List Partial) : partialBytes t ps = partialBytes s ps := by
  simp only [partialBytes_eq_sum, same.elem]

theorem partialBytes_with (s : State) : partialBytes s (partialsWith c held core pa r v ps).1 ≤ partialBytes s ps + 8 := by
  rw [partialBytes_eq_sum, partialBytes_eq_sum]
  exact partialsWith_weight _ (fun p => crngElem_le _) fun q x => rfl

theorem partialBytes_held_with (s : State) :
    partialBytes s ((partialsWith c held core pa r v ps).1.filter fun p => p.held.isSome) ≤
      partialBytes s (ps.filter fun p => p.held.isSome) + 8 := by
  rw [partialBytes_eq_sum, partialBytes_eq_sum, sum_map_filter, sum_map_filter]
  refine partialsWith_weight _ (fun p => ?_) fun q x => rfl
  split
  · exact crngElem_le _
  · omega

theorem heldBy_enterPartial (room : holds s (clusterOfCore core) (crngElem (crngcOf s r))) :
    heldBy (enterPartial s core pa r v) = heldBy s := by
  rw [enterPartial_eq room]
  unfold setOvf
  split <;> rfl

theorem partialsFit.holds (fits : partialsFit s (m + 1)) (c : Word) : holds s (clusterOfCore (curCore s)) (crngElem c) := by
  rw [clusterOf_curCore]
  have := crngElem_le c
  exact fits.2.imp id fun h => by omega

/-- Each contribution takes a place of 8 bytes at most. -/
theorem enterPartial_fits (fits : partialsFit s (m + 1)) : partialsFit (enterPartial s (curCore s) pa r v) m := by
  have room := partialsFit.holds fits (crngcOf s r)
  have ranges := enterPartial_sameRanges (pa := pa) (v := v) room
  have steps := heldBy_enterPartial (pa := pa) (v := v) room
  have here : curCluster (enterPartial s (curCore s) pa r v) = curCluster s := by
    rw [enterPartial_eq room]
    unfold setOvf
    split <;> rfl
  have cluster : clusterAt (enterPartial s (curCore s) pa r v) (curCluster s) = { clusterAt s (curCluster s) with
      partials := (partialsWith (crngcOf s r) (heldBy s) (curCore s) pa r v (clusterAt s (curCluster s)).partials).1 } := by
    rw [enterPartial_eq room, clusterOf_curCore]
    exact clusterAt_setCluster ..
  have cores : ∀ c, coreAt (enterPartial s (curCore s) pa r v) c = coreAt s c := fun c => by
    rw [enterPartial_eq room]
    unfold setOvf
    split <;> rfl
  obtain ⟨o2, held⟩ := fits
  unfold partialsFit
  rw [here, steps]
  have more := partialBytes_with (c := crngcOf s r) (held := heldBy s) (core := curCore s) (pa := pa) (r := r) (v := v)
    (ps := (clusterAt s (curCluster s)).partials) s
  have moreHeld := partialBytes_held_with (c := crngcOf s r) (held := heldBy s) (core := curCore s) (pa := pa) (r := r) (v := v)
    (ps := (clusterAt s (curCluster s)).partials) s
  refine ⟨?_, held.imp id fun h => ?_⟩
  · unfold o2Bytes at o2 ⊢
    dsimp only at o2 ⊢
    rw [cluster, partialBytes_congr ranges]
    dsimp only
    omega
  · unfold heldBytes at h ⊢
    dsimp only at h ⊢
    simp only [cluster, partialBytes_congr ranges, cores]
    omega

theorem partialsFit.o2Fits (fits : partialsFit s (m + 1)) (c : Word) : o2Fits s (curCluster s) (crngElem c) = true := by
  have := crngElem_le c
  have := fits.1
  exact decide_eq_true (by omega)

/-- Where there is room, nothing makes room (R80, R95), -/
theorem readyPartial_of_fits (fits : partialsFit s (m + 1)) : readyPartial s (curCore s) pa r = s := by
  unfold readyPartial
  dsimp only
  split
  · rfl
  · rw [holdFor_of_holds (partialsFit.holds fits _), clusterOf_curCore]
    exact if_pos (partialsFit.o2Fits fits _)

/-- the contribution is taken, -/
theorem partialTakes_of_fits (fits : partialsFit s (m + 1)) : partialTakes s (curCore s) pa r = true := by
  unfold partialTakes
  dsimp only
  rw [clusterOf_curCore, partialsFit.o2Fits fits, Bool.or_true, Bool.true_or]

/-- and it stays. -/
theorem passPartial_of_fits (fits : partialsFit s m) : passPartial s (curCore s) pa = s := by
  have := fits.1
  unfold passPartial
  dsimp only
  rw [clusterOf_curCore]
  exact if_neg (by omega)

theorem curCore_enterPartial (fits : partialsFit s (m + 1)) : curCore (enterPartial s (curCore s) pa r v) = curCore s := by
  rw [enterPartial_eq (partialsFit.holds fits _)]
  unfold setOvf
  split <;> rfl

end

/-! ## Beside cached translations -/

/-- `t` is `s` with other cached translations, and with `h` for the acting hart. -/
structure Cached (h : Hart) (s t : State) : Prop where
  whole : ∃ c k, t = withUnits s h c k
  core : ∀ c, coreAt t c = { coreAt s c with tlb := (coreAt t c).tlb }
  cluster : ∀ n, clusterAt t n = { clusterAt s n with tlb := (clusterAt t n).tlb }

section
variable {s t : State} {h : Hart} {m : Nat}

theorem Cached.of_twin (twin : Twin s t) (hart : t.hart = s.hart) : Cached s.hart s t where
  whole := by
    obtain ⟨_, c, k, same⟩ := twin.whole
    refine ⟨c, k, ?_⟩
    rw [← hart, same]
    rfl
  core := twin.core
  cluster := twin.cluster

theorem Cached.read {α : Type} (cached : Cached h s t) (f : State → α) (apart : ∀ s h c k, f (withUnits s h c k) = f s) : f t = f s := by
  obtain ⟨_, _, rfl⟩ := cached.whole
  exact apart ..

theorem Cached.hart (cached : Cached h s t) : t.hart = h := by
  obtain ⟨_, _, rfl⟩ := cached.whole
  rfl

theorem Cached.heldBy (cached : Cached h s t) (steph : h.steph = s.hart.steph) : heldBy t = heldBy s := by
  unfold Machine.heldBy
  rw [cached.hart, steph, cached.read findStep fun _ _ _ _ => rfl]

theorem Cached.crngcOf (cached : Cached h s t) (r : Nat) : crngcOf t r = crngcOf s r := cached.read (Machine.crngcOf · r) fun _ _ _ _ => rfl

theorem Cached.curCore (cached : Cached h s t) : curCore t = curCore s := cached.read Machine.curCore fun _ _ _ _ => rfl

theorem Cached.curCluster (cached : Cached h s t) : curCluster t = curCluster s := cached.read Machine.curCluster fun _ _ _ _ => rfl

theorem Cached.partialBytes (cached : Cached h s t) (ps : List Partial) : partialBytes t ps = partialBytes s ps :=
  cached.read (Machine.partialBytes · ps) fun _ _ _ _ => rfl

theorem Cached.partials (cached : Cached h s t) (n : Nat) : (clusterAt t n).partials = (clusterAt s n).partials := by rw [cached.cluster]
theorem Cached.o2 (cached : Cached h s t) (n : Nat) : (clusterAt t n).o2 = (clusterAt s n).o2 := by rw [cached.cluster]
theorem Cached.o2held (cached : Cached h s t) (n : Nat) : (clusterAt t n).o2held = (clusterAt s n).o2held := by rw [cached.cluster]
theorem Cached.o1 (cached : Cached h s t) (c : Nat) : (coreAt t c).o1 = (coreAt s c).o1 := by rw [cached.core]

theorem Cached.o2Bytes (cached : Cached h s t) (n : Nat) : o2Bytes t n = o2Bytes s n := by
  simp only [Machine.o2Bytes, cached.o2, cached.o2held, cached.partials, cached.partialBytes]

theorem Cached.heldBytes (cached : Cached h s t) (n : Nat) : heldBytes t n = heldBytes s n := by
  simp only [Machine.heldBytes, cached.o1, cached.o2held, cached.partials, cached.partialBytes]

theorem Cached.fits (cached : Cached h s t) (steph : h.steph = s.hart.steph) (fits : partialsFit s m) : partialsFit t m := by
  unfold partialsFit at fits ⊢
  rw [cached.curCluster, cached.o2Bytes, cached.heldBytes, cached.heldBy steph]
  exact fits

theorem setOvf_withUnits (s : State) (c : Tbl CoreSt) (k : Tbl ClusterSt) (r : Nat) (sat : Bool) :
    setOvf (withUnits s h c k) r sat = withUnits (setOvf s r sat) h c k := by
  unfold setOvf
  split <;> rfl

/-- A contribution enters beside cached translations as it enters without them. -/
theorem Cached.enterPartial (cached : Cached h s t) (steph : h.steph = s.hart.steph) (fits : partialsFit s (m + 1)) (pa r : Nat)
    (v : Int) : Cached h (enterPartial s (Machine.curCore s) pa r v) (enterPartial t (Machine.curCore s) pa r v) := by
  have room := partialsFit.holds fits (Machine.crngcOf s r)
  have roomT := partialsFit.holds (cached.fits steph fits) (Machine.crngcOf t r)
  have partials : ∀ n, (clusterAt t n).partials = (clusterAt s n).partials := fun n => by rw [cached.cluster]
  rw [cached.curCore] at roomT
  rw [enterPartial_eq room, enterPartial_eq roomT, partials, cached.heldBy steph, cached.crngcOf]
  generalize partialsWith _ _ _ _ _ _ _ = x
  refine ⟨?_, fun c => ?_, fun n => ?_⟩
  · obtain ⟨c, k, rfl⟩ := cached.whole
    rw [setOvf_withUnits]
    exact ⟨c, _, rfl⟩
  · have apart : ∀ u, coreAt (setOvf u r x.2) c = coreAt u c := fun u => by
      unfold setOvf
      split <;> rfl
    show coreAt (setOvf t r x.2) c = { coreAt (setOvf s r x.2) c with tlb := (coreAt (setOvf t r x.2) c).tlb }
    rw [apart, apart]
    exact cached.core c
  · rw [clusterAt_setCluster_eq, clusterAt_setCluster_eq]
    split
    · rw [cached.cluster]
    · rw [clusterAt_setOvf, clusterAt_setOvf]
      exact cached.cluster n

end

end Sys2Proof.Machine
end

