-- ==== Sys2Proof/Proofs/Probes.lean ====
section
/-! SUPPORT. A probe whose touches all translate (R355, R356): what it leaves, and the physical address of each touch. -/

namespace Sys2Proof.Machine

/-! ## Addresses of one page -/

section
variable {s : State} {va va' : Word} {w : Walker} {level table pa pa' l : Nat} {pte : Word} {a : Acc} {self self' : Bool}

/-- A granule that a consumer takes, it takes at every address. -/
theorem consume_ok {r : Reader} {n : Option Nat} {f : Found} {g : Granule} (h : consume s r n va f = .ok g) (va' : Word) :
    consume s r n va' f = .ok g := by
  unfold consume at h ⊢
  dsimp only at h ⊢
  split at h
  · cases h
  · next seen =>
    rw [if_neg seen]
    cases sound : f.c.g.badKind with
    | some kind =>
      rw [sound] at h
      cases h
    | none =>
      rw [sound] at h
      exact h

/-- What a walker's read gives does not depend on the address that it walks for, if it gives an entry. -/
theorem readPte_entry {e : Word} (h : readPte s w va pa = .entry e) (va' : Word) : readPte s w va' pa = .entry e := by
  unfold readPte at h ⊢
  cases way : legFrom s w.router (pa / 64) with
  | some leg =>
    rw [way] at h
    cases h
  | none =>
    rw [way] at h
    dsimp only at h ⊢
    cases taken : consume s .far w.cluster va (peekHome s (pa / 64)) with
    | error t =>
      rw [taken] at h
      cases h
    | ok g =>
      rw [taken] at h
      rw [consume_ok taken]
      exact h

theorem walk_leaf (index : ∀ k, vaIndex va' k = vaIndex va k) (fuel : Nat) :
    ∀ level table, walk s w va fuel level table = .leaf pte l → walk s w va' fuel level table = .leaf pte l := by
  induction fuel with
  | zero => exact fun level table h => by cases h
  | succ fuel ih =>
    intro level table h
    unfold walk at h ⊢
    rw [index]
    by_cases free : unbound s (table + 8 * vaIndex va level) = true
    · rw [if_pos free] at h
      cases h
    · rw [if_neg free] at h ⊢
      split at h
      · cases h
      · cases h
      · next e found =>
        rw [readPte_entry found]
        dsimp only
        by_cases present : (!pteV e) = true
        · rw [if_pos present] at h
          cases h
        · rw [if_neg present] at h ⊢
          by_cases bad : pteBad e level = true
          · rw [if_pos bad] at h
            cases h
          · rw [if_neg bad] at h ⊢
            by_cases leaf : pteLeaf e = true
            · rw [if_pos leaf] at h ⊢
              exact h
            · rw [if_neg leaf] at h ⊢
              exact ih _ _ h

section
variable (page : va'.toNat / 65536 = va.toNat / 65536)
include page

theorem vaIndex_samePage (k : Nat) : vaIndex va' k = vaIndex va k := by
  simp only [vaIndex, BitVec.extractLsb'_toNat, Nat.shiftRight_eq_div_pow]
  split
  · omega
  · split <;> omega

theorem page_eq : (va'.extractLsb' 16 32).toNat = (va.extractLsb' 16 32).toNat := by
  simp only [BitVec.extractLsb'_toNat, Nat.shiftRight_eq_div_pow]
  omega

theorem leafFor_samePage {x : Tlbs} {launch : Nat} (h : leafFor s x launch va = .leaf pte l) : leafFor s x launch va' = .leaf pte l := by
  have find : ∀ t, tlbFind t launch va' = tlbFind t launch va := fun t => by
    unfold tlbFind
    rw [page_eq page]
  have same : cached s x launch va' = cached s x launch va := by
    unfold cached
    simp only [find]
  unfold leafFor at h ⊢
  rw [same]
  cases hit : cached s x launch va with
  | some e =>
    rw [hit] at h
    exact h
  | none =>
    rw [hit] at h
    dsimp only at h ⊢
    cases known : findLaunch s launch with
    | some r =>
      rw [known] at h
      exact walk_leaf (vaIndex_samePage page) _ _ _ h
    | none =>
      rw [known] at h
      cases h

/-- Addresses of one page lie on one page (R25). -/
theorem Maps.samePage (maps : Maps s va a pa self) (maps' : Maps s va' a pa' self') :
    pa - va.toNat % 65536 + va'.toNat % 65536 = pa' := by
  obtain ⟨pte, level, found, -, answer⟩ := maps.leaf
  obtain ⟨pte', level', found', -, answer'⟩ := maps'.leaf
  have same := (leafFor_samePage page found).symm.trans found'
  injection same with samePte sameLevel
  subst samePte sameLevel
  rw [leafAnswer_ok answer, leafAnswer_ok answer']
  simp only [pageOffset, BitVec.extractLsb'_toNat, Nat.shiftRight_zero]
  split <;> omega

end

end

/-! ## Probes -/

section
variable {s : State} {a : Acc} {pa : Word → Nat} {self : Word → Bool} {ts : List Touch}

theorem firstTouches_subset : ∀ (ts : List Touch) (seen : List Nat) {t : Touch}, t ∈ firstTouches ts seen → t ∈ ts
  | [], _, _, h => h
  | x :: ts, seen, t, h => by
    unfold firstTouches at h
    split at h
    · exact List.mem_cons_of_mem _ (firstTouches_subset ts seen h)
    · rcases List.mem_cons.mp h with rfl | h
      · exact List.mem_cons_self
      · exact List.mem_cons_of_mem _ (firstTouches_subset ts _ h)

/-- Every touched page has its first touch. -/
theorem firstTouches_page : ∀ (ts : List Touch) (seen : List Nat) {t : Touch}, t ∈ ts → t.va.toNat / 65536 ∉ seen →
    ∃ x ∈ firstTouches ts seen, x.va.toNat / 65536 = t.va.toNat / 65536
  | x :: ts, seen, t, h, new => by
    unfold firstTouches
    rcases List.mem_cons.mp h with rfl | h
    · rw [if_neg (by simpa using new)]
      exact ⟨t, List.mem_cons_self, rfl⟩
    · split
      · exact firstTouches_page ts seen h new
      · by_cases here : t.va.toNat / 65536 = x.va.toNat / 65536
        · exact ⟨x, List.mem_cons_self, here.symm⟩
        · obtain ⟨y, there, same⟩ := firstTouches_page ts (x.va.toNat / 65536 :: seen) h (by simp [here, new])
          exact ⟨y, List.mem_cons_of_mem _ there, same⟩

/-- Every touch translates, to a page in HBM. -/
def allMapped (s : State) (a : Acc) (ts : List Touch) (pa : Word → Nat) (self : Word → Bool) : Prop :=
  ∀ t ∈ ts, Maps s t.va a (pa t.va) (self t.va) ∧ windowOf (pa t.va / 64) = 0

/-- The pages that a probe finds where every touch translates. -/
def mappedPages (ts : List Touch) (pa : Word → Nat) (self : Word → Bool) : List PageMap :=
  (firstTouches ts []).map fun t => ⟨t.va.toNat / 65536, pa t.va - t.va.toNat % 65536, self t.va⟩

theorem xlateFor_of_maps {va : Word} {p : Nat} {f : Bool} (maps : Maps s va a p f) (inHbm : windowOf (p / 64) = 0) (loc : Bool) :
    xlateFor s loc a va = .ok p f := by
  unfold xlateFor
  rw [show xlate s (hereTlb s) (curLaunch s) va a = .ok p f from maps]
  exact if_neg (by simp [inHbm])

theorem xlateFills_cached (l : List Word) {h : Hart} {u : State} (cached : Twin s u ∧ u.hart = h) :
    Twin s (l.foldl (fun s va => xlateFill s (hereTlb s) (curLaunch s) va) u) ∧
      (l.foldl (fun s va => xlateFill s (hereTlb s) (curLaunch s) va) u).hart = h :=
  foldl_frame (P := fun u => Twin s u ∧ u.hart = h) _
    (fun _ _ same => ⟨same.1.trans (xlateFill_twin ..), (xlateFill_hart ..).trans same.2⟩) l u cached

/-- The touches that a probe translates, with what it finds. -/
def mappedTouches (ts : List Touch) (pa : Word → Nat) (self : Word → Bool) : List (Touch × Xl) :=
  (firstTouches ts []).map fun t => (t, .ok (pa t.va) (self t.va))

theorem mem_mappedTouches {x : Touch × Xl} (h : x ∈ mappedTouches ts pa self) : ∃ p f, x.2 = .ok p f := by
  obtain ⟨t, -, rfl⟩ := List.mem_map.mp h
  exact ⟨_, _, rfl⟩

/-- A probe whose touches all translate leaves nothing but cached translations. -/
theorem probeAll_of_mapped (mapped : allMapped s a ts pa self) :
    ∃ t, probeAll true a ts s = (.ok ⟨mappedPages ts pa self, []⟩, t) ∧ Cached s.hart s t := by
  have all : (firstTouches ts []).map (fun t => (t, xlateFor s true a t.va)) = mappedTouches ts pa self :=
    List.map_congr_left fun t ht => by
      obtain ⟨maps, inHbm⟩ := mapped t (firstTouches_subset _ _ ht)
      rw [xlateFor_of_maps maps inHbm]
  have noWalk : (mappedTouches ts pa self).findSome? (fun x => walkOf x.2) = none := by
    refine List.findSome?_eq_none_iff.mpr fun x hx => ?_
    obtain ⟨p, f, e⟩ := mem_mappedTouches hx
    rw [e]; rfl
  have noHost : (mappedTouches ts pa self).filterMap (fun x => hostOf s x.1 x.2) = [] := by
    refine List.filterMap_eq_nil_iff.mpr fun x hx => ?_
    obtain ⟨p, f, e⟩ := mem_mappedTouches hx
    rw [e]; rfl
  have noWait : (mappedTouches ts pa self).filterMap (fun x => waitOf x.2) = [] := by
    refine List.filterMap_eq_nil_iff.mpr fun x hx => ?_
    obtain ⟨p, f, e⟩ := mem_mappedTouches hx
    rw [e]; rfl
  have noFault : (mappedTouches ts pa self).filterMap (fun x => faultOf x.1 x.2) = [] := by
    refine List.filterMap_eq_nil_iff.mpr fun x hx => ?_
    obtain ⟨p, f, e⟩ := mem_mappedTouches hx
    rw [e]; rfl
  have pages : (mappedTouches ts pa self).filterMap (fun x => mapOf x.1 x.2) = mappedPages ts pa self := by
    unfold mappedTouches mappedPages
    rw [List.filterMap_map]
    exact congrFun List.filterMap_eq_map _
  obtain ⟨twin, hart⟩ := xlateFills_cached (((mappedTouches ts pa self).filter fun x => (mapOf x.1 x.2).isSome).map fun x => x.1.va)
    (h := s.hart) ⟨Twin.refl s, rfl⟩
  refine ⟨_, ?_, .of_twin twin hart⟩
  unfold probeAll
  dsimp only
  rw [all, noWalk, noHost, noWait, noFault, pages, List.foldl_map]
  rfl

/-- The physical address of each touch. -/
theorem probe_at (mapped : allMapped s a ts pa self) {t : Touch} (touched : t ∈ ts) :
    ∃ f, (Probe.mk (mappedPages ts pa self) []).at t.va = some (pa t.va, f) := by
  obtain ⟨x, first, page⟩ := firstTouches_page ts [] touched List.not_mem_nil
  have there : ((mappedPages ts pa self).find? fun m => m.key == t.va.toNat / 65536).isSome = true :=
    List.find?_isSome.mpr ⟨_, List.mem_map.mpr ⟨x, first, rfl⟩, beq_iff_eq.mpr page⟩
  obtain ⟨m, found⟩ := Option.isSome_iff_exists.mp there
  obtain ⟨y, early, rfl⟩ := List.mem_map.mp (List.mem_of_find?_eq_some found)
  have key := List.find?_some found
  have samePage : t.va.toNat / 65536 = y.va.toNat / 65536 := (beq_iff_eq.mp key).symm
  refine ⟨self y.va, ?_⟩
  unfold Probe.at
  rw [found]
  exact congrArg (fun p => some (p, self y.va)) ((mapped y (firstTouches_subset _ _ early)).1.samePage samePage (mapped t touched).1)

/-- A probe of a divisible instruction: none of its attempts meets a faulting page. -/
theorem probeM_of_mapped (mapped : allMapped s a ts pa self) :
    ∃ t, probeM true a ts s = (.ok ⟨mappedPages ts pa self, []⟩, t) ∧ Cached s.hart s t := by
  obtain ⟨t, run, cached⟩ := probeAll_of_mapped mapped
  refine ⟨t, ?_, cached⟩
  rw [probeM, bind_run, run]
  dsimp only
  rw [bind_run, getS_run]
  dsimp only
  split <;> rfl

end

end Sys2Proof.Machine
end

