-- ==== Sys2Proof/Proofs/Contributions.lean ====
section
/-! SUPPORT. How `redst` runs (R145, R146, R286): its elements in order, its range test, and the traps that enter a handler. -/

namespace Sys2Proof.Machine

/-! ## Elements in order -/

section
variable {s t : State} {h h0 : Hart} {p : Probe} {d b : VIdx} {a : XIdx} {ew : EW} {m : Nat}

theorem enterPartial_hart {core pa r : Nat} {v : Int} (room : holds s (clusterOfCore core) (crngElem (crngcOf s r))) :
    (enterPartial s core pa r v).hart = s.hart := by
  rw [enterPartial_eq room]
  unfold setOvf
  split <;> rfl

/-- One element enters its partial, and its granule the silhouette (R129, R146). -/
theorem redstElem_of_fits {k x r : Nat} {f : Bool} {v : Int} (cached : Cached h s t) (steph : h.steph = s.hart.steph)
    (fits : partialsFit s (m + 1)) (at_ : p.at (indexVa h0 a b ew.bits k) = some (x, f)) (range : rangeOf s x = some r)
    (value : contribution (crngcOf s r) ew.bits (elemN (h0.vreg d) ew.bits k) = some v) :
    ∃ u, redstElem h0 p d a b ew k () t = (.ok (), u) ∧ Cached { h with sil := silAdd h.sil (x / 64) } (enterPartial s (curCore s) x r v) u := by
  have fitsT := cached.fits steph fits
  have entered := cached.enterPartial steph fits x r v
  have rangeT : rangeOf t x = some r := (cached.read (rangeOf · x) fun _ _ _ _ => rfl).trans range
  have ready : readyPartial t (curCore s) x r = t := cached.curCore ▸ readyPartial_of_fits fitsT
  have takes : partialTakes t (curCore s) x r = true := cached.curCore ▸ partialTakes_of_fits fitsT
  have hart : (enterPartial s (curCore s) x r v).hart = s.hart := enterPartial_hart (partialsFit.holds fits _)
  have stays : passPartial (enterPartial t (curCore s) x r v) (curCore s) x = enterPartial t (curCore s) x r v := by
    have core : curCore (enterPartial t (curCore s) x r v) = curCore s := entered.curCore.trans (curCore_enterPartial fits)
    have left : partialsFit (enterPartial t (curCore s) x r v) m := entered.fits (by rw [hart, steph]) (enterPartial_fits fits)
    have pass := passPartial_of_fits (pa := x) left
    rw [core] at pass
    exact pass
  refine ⟨{ enterPartial t (curCore s) x r v with hart := { h with sil := silAdd h.sil (x / 64) } }, ?_, ?_⟩
  · unfold redstElem
    dsimp only
    rw [at_]
    dsimp only
    rw [rangeT, Option.getD_some, cached.crngcOf, value]
    dsimp only
    rw [cached.curCore, ready, takes, stays, entered.hart]
    rfl
  · obtain ⟨⟨c, k, same⟩, core, cluster⟩ := entered
    rw [same] at core cluster ⊢
    exact ⟨⟨c, k, rfl⟩, core, cluster⟩

/-- The elements enter their partials in ascending order (R286). -/
theorem redst_units {core : Nat} {at_ r : Nat → Nat} {v : Nat → Int} : ∀ (els : List Nat) {s t : State} {h : Hart} (i : Nat),
    Cached h s t → h.steph = s.hart.steph → curCore s = core → partialsFit s els.length →
    (∀ k ∈ els, ∃ f, p.at (indexVa h0 a b ew.bits k) = some (at_ k, f)) →
    (∀ k ∈ els, rangeOf s (at_ k) = some (r k) ∧ contribution (crngcOf s (r k)) ew.bits (elemN (h0.vreg d) ew.bits k) = some (v k)) →
    ∃ u, unitsM none [] (redstElem h0 p d a b ew) i els () t = (.ok (), u) ∧
      Cached { h with sil := (els.map fun k => at_ k / 64).foldl silAdd h.sil }
        (els.foldl (fun s k => enterPartial s core (at_ k) (r k) (v k)) s) u ∧
      (els.foldl (fun s k => enterPartial s core (at_ k) (r k) (v k)) s).hart = s.hart
  | [], s, t, h, i, cached, _, _, _, _, _ => ⟨t, rfl, cached, rfl⟩
  | k :: els, s, t, h, i, cached, steph, here, fits, places, values => by
    obtain ⟨f, place⟩ := places k List.mem_cons_self
    obtain ⟨range, value⟩ := values k List.mem_cons_self
    subst here
    obtain ⟨u, one, entered⟩ := redstElem_of_fits cached steph fits place range value
    have room := partialsFit.holds fits (crngcOf s (r k))
    have hart : (enterPartial s (curCore s) (at_ k) (r k) (v k)).hart = s.hart := enterPartial_hart room
    have ranges := enterPartial_sameRanges (pa := at_ k) (v := v k) room
    obtain ⟨w, rest, after, same⟩ := redst_units els (i + 1) entered (by rw [hart]; exact steph) (curCore_enterPartial fits) (enterPartial_fits fits)
      (fun j hj => places j (List.mem_cons_of_mem _ hj)) fun j hj => by
        rw [ranges.rangeOf, ranges.contribution]
        exact values j (List.mem_cons_of_mem _ hj)
    refine ⟨w, ?_, after, same.trans hart⟩
    unfold unitsM
    rw [if_neg (by simp), if_neg (by simp), actAt, one]
    exact rest

end

/-! ## Ranges -/

section
variable {s t : State} {ew : EW} {va : Word} {pa r : Nat}

theorem sx_eq_toSigned (w x : Nat) (pos : 0 < w) : sx w x = toSigned w x := by
  have half : 2 ^ w = 2 * 2 ^ (w - 1) := by rw [← Nat.pow_succ', Nat.succ_eq_add_one, Nat.sub_add_cancel pos]
  unfold sx toSigned
  dsimp only
  by_cases low : x % 2 ^ w < 2 ^ (w - 1)
  · rw [if_pos low, if_neg (by omega)]
  · rw [if_neg low, if_pos (by omega)]

theorem contribution_of_contributes {c : Word} {w x : Nat} {v : Int} (pos : 0 < w) (h : contributes c w x v) : contribution c w x = some v := by
  unfold contributes at h
  unfold contribution
  by_cases float : crngFmt c = 2
  · rw [if_pos float] at h ⊢
    obtain ⟨finite, value, low, high⟩ := h
    dsimp only
    rw [if_pos finite, ← value, if_pos (by rw [Bool.and_eq_true]; exact ⟨decide_eq_true low, decide_eq_true high⟩)]
  · rw [if_neg float] at h ⊢
    rw [h, sx_eq_toSigned w x pos]

/-- The EW that a range's contributions have (R144). -/
def rangeEw (c : Word) : Nat := if crngFmt c = 0 ∨ crngFmt c = 2 then 32 else if crngFmt c = 1 then 64 else 0

theorem redstTest_of_none (none_ : rangeOf s pa = none) : redstTest s ew va pa = some (rangeTrap va 15 0) := by
  unfold redstTest
  rw [none_]

theorem redstTest_of_some (found : rangeOf s pa = some r) : redstTest s ew va pa =
    if ew.bits ≠ rangeEw (crngcOf s r) then some (rangeTrap va r 3)
    else if pa % crngElem (crngcOf s r) ≠ 0 then some (TrapInfo.plain 0x03 va) else none := by
  unfold redstTest rangeEw
  rw [found]
  simp only [Bool.or_eq_true, decide_eq_true_eq]

/-- Outside every range, or for an EW that is not the range's (R145, R286). -/
def outsideRange (s : State) (ew : EW) (pa : Nat) : Prop :=
  rangeOf s pa = none ∨ ew.bits ≠ rangeEw (crngcOf s ((rangeOf s pa).getD 15))

/-- No multiple of the size of the range's element (R286). -/
def oddInRange (s : State) (pa : Nat) : Prop := pa % crngElem (crngcOf s ((rangeOf s pa).getD 15)) ≠ 0

theorem redstTest_of_outside (h : outsideRange s ew pa) : ∃ r reason, redstTest s ew va pa = some (rangeTrap va r reason) := by
  cases found : rangeOf s pa with
  | none => exact ⟨_, _, redstTest_of_none found⟩
  | some r =>
    have width := h.resolve_left (by rw [found]; exact Option.some_ne_none r)
    rw [found, Option.getD_some] at width
    exact ⟨_, _, (redstTest_of_some found).trans (if_pos width)⟩

theorem redstTest_of_inside (h : ¬ outsideRange s ew pa) :
    (oddInRange s pa → redstTest s ew va pa = some (TrapInfo.plain 0x03 va)) ∧ (¬ oddInRange s pa → redstTest s ew va pa = none) := by
  unfold outsideRange at h
  unfold oddInRange
  cases found : rangeOf s pa with
  | none => exact absurd (.inl found) h
  | some r =>
    have width := mt Or.inr h
    rw [found, Option.getD_some] at width
    rw [Option.getD_some, redstTest_of_some found, if_neg width]
    exact ⟨fun odd => if_pos odd, fun even => if_neg even⟩

theorem redstTest_of_inRange (h : inRange s ew pa r) : redstTest s ew va pa = none := by
  obtain ⟨found, known, width, even⟩ := h
  have form : crngFmt (crngcOf s r) < 4 := (crngcOf s r |>.extractLsb' 40 2).isLt
  have same : ew.bits = rangeEw (crngcOf s r) := by
    rw [width]
    unfold rangeEw
    split
    · rfl
    · rw [if_pos (by omega)]
  rw [redstTest_of_some found, if_neg (not_not.mpr same), if_neg (not_not.mpr even)]

end

/-! ## Traps that enter the handler -/

section
variable {s t u : State} {tr : TrapInfo} {i : Instr}

/-- What a core hands on depends on outbound levels, junctions and the ports' buffers alone (R95, R106). -/
theorem atHand_congr (o1 : ∀ c, (coreAt t c).o1 = (coreAt s c).o1) (o2 : ∀ n, (clusterAt t n).o2 = (clusterAt s n).o2)
    (held : ∀ n, (clusterAt t n).o2held = (clusterAt s n).o2held) (home : ∀ g, junctionGranule t g = junctionGranule s g)
    (buffer : t.ports.buffer = s.ports.buffer) (core gran : Nat) (mine : Option Nat) : atHand t core gran mine = atHand s core gran mine := by
  unfold atHand
  simp only [o1, o2, held, home, buffer]

/-- Withdrawing what a hart waits for touches no byte of memory. -/
structure Withdrawn (s t : State) : Prop where
  hart : t.hart = s.hart
  steps : t.disp.steps = s.disp.steps
  core : ∀ c, coreAt t c = coreAt s c
  cluster : ∀ n, clusterAt t n = { clusterAt s n with mwait := (clusterAt t n).mwait }
  home : ∀ g, junctionGranule t g = junctionGranule s g
  ports : t.ports = s.ports

theorem withdrawWaits_withdrawn (s : State) (slot : Nat) : Withdrawn s (withdrawWaits s slot) where
  hart := rfl
  steps := rfl
  core _ := rfl
  cluster n := by
    have request : ∀ u, clusterAt (withdrawRequest u slot) n =
        { clusterAt u n with mwait := (clusterAt (withdrawRequest u slot) n).mwait } := fun u => by
      unfold withdrawRequest
      rw [clusterAt_setCluster_eq]
      split
      · next e => rw [e]
      · rfl
    exact request (withdrawArrival s slot)
  home _ := rfl
  ports := rfl

theorem recordLeg_of_none (none_ : s.hart.frecbase = 0) : recordLeg s = none := if_pos none_

/-- A trap that no unit scores and that is neither a check fault nor late enters the handler where no record is asked for. -/
theorem takeTrap_of_handled (handled : handled s) (notCheck : tr.cause ≠ 0x08) (notLate : tr.cause ≠ 0x10) (score : tr.score = none) :
    takeTrap s tr = { withdrawWaits s s.cur with hart := { s.hart.enter tr with pc := s.hart.tvec } } := by
  obtain ⟨noRecord, handler⟩ := handled
  have noScore : scoreTrap (withdrawWaits s s.cur) tr = withdrawWaits s s.cur := by
    unfold scoreTrap
    rw [score]
  have hart : (withdrawWaits s s.cur).hart = s.hart := rfl
  unfold takeTrap
  rw [if_neg notLate, recordLeg_of_none noRecord]
  unfold enterTrap
  dsimp only
  rw [noScore, if_neg (by rw [decide_eq_false notCheck]; exact Bool.false_ne_true), if_neg notLate, hart, if_pos noRecord, if_neg handler]
  rfl

/-- An instruction whose probe has cached translations, and that then takes such a trap, enters the handler. -/
theorem entersHandler_of_trap {m : M Unit} (run : exec i s = runM m s) (stops : m s = (.error (.trap tr), t)) (cached : Cached s.hart s t)
    (notCheck : tr.cause ≠ 0x08) (notLate : tr.cause ≠ 0x10) (score : tr.score = none) : EntersHandler i s tr.cause tr.val := by
  intro ready
  have hart := cached.hart
  have readyT : handled t := by rw [handled, hart]; exact ready
  have taken : exec i s = .next (takeTrap t tr) := by rw [run, runM, stops]
  rw [takeTrap_of_handled readyT notCheck notLate score, hart] at taken
  refine ⟨_, taken, rfl, rfl, rfl, rfl, rfl, rfl, rfl, rfl, rfl, rfl, rfl, fun core mine x => ?_⟩
  have left := withdrawWaits_withdrawn t t.cur
  refine congrArg (Option.map _) (atHand_congr (fun c => ?_) (fun n => ?_) (fun n => ?_) (fun g => ?_) ?_ core (x / 64) mine)
  · exact (congrArg CoreSt.o1 (left.core c)).trans (cached.o1 c)
  · exact (congrArg ClusterSt.o2 (left.cluster n)).trans (cached.o2 n)
  · exact (congrArg ClusterSt.o2held (left.cluster n)).trans (cached.o2held n)
  · exact (left.home g).trans (cached.read (junctionGranule · g) fun _ _ _ _ => rfl)
  · exact (congrArg Ports.buffer left.ports).trans (cached.read (·.ports.buffer) fun _ _ _ _ => rfl)

end

/-! ## Runs -/

section
variable {s t u : State} {d b : VIdx} {a : XIdx} {pg : PIdx} {ew : EW} {pa : Word → Nat} {self : Word → Bool}

/-- The elements of a contribution, and the address of each (R286). -/
def redstEls (s : State) (pg : PIdx) (ew : EW) : List Nat := s.hart.actives pg ew.bits s.hart.vstart.toNat s.hart.vl.toNat

/-- The range test of all elements (R145, R286). -/
def rangeTests (p : Probe) (ew : EW) (vas : List Word) : M Unit := fun s =>
  match vas.findSome? fun va => (p.at va).bind fun x => redstTest s ew va x.1 with
  | some t => (.error (.trap t), s)
  | none => (.ok (), s)

/-- The parts of `redst` behind its alignment test. -/
def redstRun (s : State) (d : VIdx) (a : XIdx) (b : VIdx) (pg : PIdx) (ew : EW) : M Unit := do
  alignAll ew.bytes ((redstEls s pg ew).map (indexVa s.hart a b ew.bits))
  let p ← probeM true .rw ((redstEls s pg ew).map fun i => ⟨i, indexVa s.hart a b ew.bits i⟩)
  rangeTests p ew ((redstEls s pg ew).map (indexVa s.hart a b ew.bits))
  unitsM s.units p.faults (redstElem s.hart p d a b ew) 0 (redstEls s pg ew) ()
  doneV

theorem exec_redst_of_fits (short : fits s ew) : exec (.redst d a b pg ew) s = runM (redstRun s d a b pg ew) s :=
  if_neg (Nat.not_lt.mpr short)

theorem exec_redst_of_long (long : ¬ fits s ew) : exec (.redst d a b pg ew) s = .next (takeTrap s (operandTrap s)) :=
  if_pos (Nat.not_le.mp long)

/-- Every element lies at a multiple of the access, on a page in HBM that translates. -/
def redstMapped (s : State) (a : XIdx) (b : VIdx) (pg : PIdx) (ew : EW) (pa : Word → Nat) (self : Word → Bool) : Prop :=
  ∀ k ∈ redstEls s pg ew, (indexVa s.hart a b ew.bits k).toNat % ew.bytes = 0 ∧
    Maps s (indexVa s.hart a b ew.bits k) .rw (pa (indexVa s.hart a b ew.bits k)) (self (indexVa s.hart a b ew.bits k)) ∧
    windowOf (pa (indexVa s.hart a b ew.bits k) / 64) = 0

theorem alignAll_of_aligned {n : Nat} {vas : List Word} (aligned : ∀ va ∈ vas, va.toNat % n = 0) : alignAll n vas s = (.ok (), s) := by
  have none_ : vas.find? (fun va => va.toNat % n != 0) = none :=
    List.find?_eq_none.mpr fun va hva => by simp [aligned va hva]
  rw [alignAll, none_]

/-- What `redst` has found out when it comes to its range test. -/
theorem redstRun_of_mapped (mapped : redstMapped s a b pg ew pa self) : ∃ p t, p.faults = [] ∧ Cached s.hart s t ∧
    (∀ k ∈ redstEls s pg ew, ∃ f, p.at (indexVa s.hart a b ew.bits k) = some (pa (indexVa s.hart a b ew.bits k), f)) ∧
    redstRun s d a b pg ew s = (do
      rangeTests p ew ((redstEls s pg ew).map (indexVa s.hart a b ew.bits))
      unitsM s.units p.faults (redstElem s.hart p d a b ew) 0 (redstEls s pg ew) ()
      doneV : M Unit) t := by
  have all : allMapped s .rw ((redstEls s pg ew).map fun i => ⟨i, indexVa s.hart a b ew.bits i⟩) pa self := fun t ht => by
    obtain ⟨k, hk, rfl⟩ := List.mem_map.mp ht
    exact (mapped k hk).2
  obtain ⟨t, probe, cached⟩ := probeM_of_mapped all
  refine ⟨_, t, rfl, cached, fun k hk => probe_at all (List.mem_map.mpr ⟨k, hk, rfl⟩), ?_⟩
  have aligned : alignAll ew.bytes ((redstEls s pg ew).map (indexVa s.hart a b ew.bits)) s = (.ok (), s) :=
    alignAll_of_aligned fun va hva => by
      obtain ⟨k, hk, rfl⟩ := List.mem_map.mp hva
      exact (mapped k hk).1
  rw [redstRun, bind_run, aligned]
  dsimp only
  rw [bind_run, probe]

theorem redstTest_of_cached {h : Hart} (cached : Cached h s t) (va : Word) (x : Nat) : redstTest t ew va x = redstTest s ew va x :=
  cached.read (redstTest · ew va x) fun _ _ _ _ => rfl

/-- `redst` completes where every element lies in its range and O2 has room (R145, R146). -/
theorem exec_redst_of_inRange {r : Nat → Nat} {v : Nat → Int} (whole : s.units = none) (short : fits s ew)
    (mapped : redstMapped s a b pg ew pa self) (room : partialsFit s (redstEls s pg ew).length)
    (inside : ∀ k ∈ redstEls s pg ew, inRange s ew (pa (indexVa s.hart a b ew.bits k)) (r k) ∧
      contributes (crngcOf s (r k)) ew.bits (elemN (s.hart.vreg d) ew.bits k) (v k)) :
    let w := (redstEls s pg ew).foldl (fun u k => enterPartial u (curCore s) (pa (indexVa s.hart a b ew.bits k)) (r k) (v k)) s
    ∃ u, exec (.redst d a b pg ew) s = .next (advance { u with hart := { u.hart with vstart := 0 } }) ∧ w.hart = s.hart ∧
      Cached { s.hart with sil := ((redstEls s pg ew).map fun k => pa (indexVa s.hart a b ew.bits k) / 64).foldl silAdd s.hart.sil } w u := by
  intro w
  have wide : 0 < ew.bits := by cases ew <;> decide
  obtain ⟨p, t, noFaults, cached, places, run⟩ := redstRun_of_mapped (d := d) mapped
  have tests : rangeTests p ew ((redstEls s pg ew).map (indexVa s.hart a b ew.bits)) t = (.ok (), t) := by
    have none_ : ((redstEls s pg ew).map (indexVa s.hart a b ew.bits)).findSome? (fun va =>
        (p.at va).bind fun x => redstTest t ew va x.1) = none := by
      refine List.findSome?_eq_none_iff.mpr fun va hva => ?_
      obtain ⟨k, hk, rfl⟩ := List.mem_map.mp hva
      obtain ⟨f, place⟩ := places k hk
      rw [place, Option.bind_some, redstTest_of_cached cached]
      exact redstTest_of_inRange (inside k hk).1
    rw [rangeTests, none_]
  obtain ⟨u, units, entered, same⟩ := redst_units (d := d) (redstEls s pg ew) 0 cached rfl rfl room places fun k hk =>
    ⟨(inside k hk).1.1, contribution_of_contributes wide (inside k hk).2⟩
  refine ⟨u, ?_, same, entered⟩
  rw [exec_redst_of_fits short, runM, run, bind_run, tests]
  dsimp only
  rw [bind_run, whole, noFaults, units]
  rfl

/-- The lowest misaligned element traps (R286). -/
theorem exec_redst_of_misaligned {e : Nat} (short : fits s ew)
    (found : (redstEls s pg ew).find? (fun e => (indexVa s.hart a b ew.bits e).toNat % ew.bytes != 0) = some e) :
    Traps (.redst d a b pg ew) s 0x03 (indexVa s.hart a b ew.bits e) := by
  have first : ((redstEls s pg ew).map (indexVa s.hart a b ew.bits)).find? (fun va => va.toNat % ew.bytes != 0) =
      some (indexVa s.hart a b ew.bits e) := by
    rw [List.find?_map]
    exact congrArg (Option.map _) found
  have stops : alignAll ew.bytes ((redstEls s pg ew).map (indexVa s.hart a b ew.bits)) s =
      (.error (.trap (TrapInfo.plain 0x03 (indexVa s.hart a b ew.bits e))), s) := by rw [alignAll, first]
  rw [Traps, exec_redst_of_fits short, runM, redstRun, bind_run, stops]

/-- The lowest element that its range refuses traps (R145, R286). -/
theorem exec_redst_of_refused {e : Nat} {tr : TrapInfo} (short : fits s ew) (mapped : redstMapped s a b pg ew pa self)
    {q : Nat → Bool} (found : (redstEls s pg ew).find? q = some e)
    (passes : ∀ k ∈ redstEls s pg ew, q k = false →
      redstTest s ew (indexVa s.hart a b ew.bits k) (pa (indexVa s.hart a b ew.bits k)) = none)
    (refused : redstTest s ew (indexVa s.hart a b ew.bits e) (pa (indexVa s.hart a b ew.bits e)) = some tr)
    (notCheck : tr.cause ≠ 0x08) (notLate : tr.cause ≠ 0x10) (score : tr.score = none) :
    EntersHandler (.redst d a b pg ew) s tr.cause tr.val := by
  obtain ⟨p, t, -, cached, places, run⟩ := redstRun_of_mapped (d := d) mapped
  have test {k : Nat} (hk : k ∈ redstEls s pg ew) : ((p.at (indexVa s.hart a b ew.bits k)).bind fun x =>
      redstTest t ew (indexVa s.hart a b ew.bits k) x.1) =
      redstTest s ew (indexVa s.hart a b ew.bits k) (pa (indexVa s.hart a b ew.bits k)) := by
    obtain ⟨f, place⟩ := places k hk
    rw [place, Option.bind_some, redstTest_of_cached cached]
  have first : ((redstEls s pg ew).map (indexVa s.hart a b ew.bits)).findSome? (fun va =>
      (p.at va).bind fun x => redstTest t ew va x.1) = some tr := by
    obtain ⟨-, before, after, split, early⟩ := List.find?_eq_some_iff_append.mp found
    have here : e ∈ redstEls s pg ew := List.mem_of_find?_eq_some found
    refine List.findSome?_eq_some_iff.mpr ⟨_, _, _, by rw [split, List.map_append, List.map_cons], (test here).trans refused, ?_⟩
    intro va hva
    obtain ⟨k, hk, rfl⟩ := List.mem_map.mp hva
    have there : k ∈ redstEls s pg ew := by rw [split]; exact List.mem_append_left _ hk
    exact (test there).trans (passes k there (by simpa using early k hk))
  refine entersHandler_of_trap (exec_redst_of_fits short) ?_ cached notCheck notLate score
  rw [run, bind_run, rangeTests, first]

end

/-! ## One contribution beside others -/

section
variable {s : State} {core pa r : Nat} {v : Int} {q : Partial}

/-- With no partial of the core's element there, and no step that holds, the contribution waits in the cluster (R146). -/
theorem enterPartial_of_alone (notHeld : heldBy s = none) (alone : (clusterAt s (clusterOfCore core)).partials.find? (fun p =>
    p.pa == pa && p.core == core && p.held == none) = none) : enterPartial s core pa r v =
      setCluster s (clusterOfCore core) { clusterAt s (clusterOfCore core) with
        partials := (clusterAt s (clusterOfCore core)).partials ++ [⟨pa, r, v, core, none⟩] } := by
  rw [enterPartial_eq (.inl notHeld), notHeld, partialsWith_of_none alone]
  rfl

/-- A contribution joins the one partial of its element (R145, R146). -/
theorem enterPartial_of_joins (notHeld : heldBy s = none) (one : (clusterAt s (clusterOfCore core)).partials = [q])
    (element : q.pa = pa) (own : q.core = core) (free : q.held = none) : enterPartial s core pa r v =
      setCluster (setOvf s r (rangeCombine (crngcOf s r) q.val v).2) (clusterOfCore core) { clusterAt s (clusterOfCore core) with
        partials := [{ q with val := (rangeCombine (crngcOf s r) q.val v).1 }] } := by
  have found : [q].find? (fun p => p.pa == pa && p.core == core && p.held == none) = some q := by
    rw [List.find?_cons_of_pos]
    simp [element, own, free]
  rw [enterPartial_eq (.inl notHeld), notHeld, one, partialsWith_of_some found, List.erase_cons_head]

/-- What a sum saturates to (R146). -/
theorem satInt_signed (x : Int) (w : Nat) : satInt x w true =
    if x < -(2 : Int) ^ (w - 1) then -(2 : Int) ^ (w - 1)
    else if x ≥ (2 : Int) ^ (w - 1) then (2 : Int) ^ (w - 1) - 1 else x := by
  unfold satInt
  simp only [if_true]
  generalize (2 : Int) ^ (w - 1) = lim
  split
  · rfl
  · have high : lim - 1 < x ↔ x ≥ lim := by omega
    simp only [high]

theorem rangeCombine_of_sum {c : Word} {x y : Int} (notMin : crngOp c ≠ 1) (notMax : crngOp c ≠ 2) :
    rangeCombine c x y = (satInt (x + y) (8 * crngElem c) true, satInt (x + y) (8 * crngElem c) true != x + y) := by
  unfold rangeCombine
  rw [if_neg notMin, if_neg notMax]
  rfl

/-- A range's operation on two values (R145). -/
theorem rangeCombine_fst (c : Word) (x y : Int) : (rangeCombine c x y).1 =
    if crngOp c = 1 then min x y else if crngOp c = 2 then max x y
    else if x + y < -(2 : Int) ^ (8 * crngElem c - 1) then -(2 : Int) ^ (8 * crngElem c - 1)
    else if x + y ≥ (2 : Int) ^ (8 * crngElem c - 1) then (2 : Int) ^ (8 * crngElem c - 1) - 1 else x + y := by
  by_cases isMin : crngOp c = 1
  · rw [if_pos isMin, rangeCombine, if_pos isMin]
  · by_cases isMax : crngOp c = 2
    · rw [if_neg isMin, if_pos isMax, rangeCombine, if_neg isMin, if_pos isMax]
    · rw [if_neg isMin, if_neg isMax, rangeCombine_of_sum isMin isMax, satInt_signed]

/-- A sum that leaves the width of the element saturates (R146). -/
theorem rangeCombine_snd {c : Word} {x y : Int} (notMin : crngOp c ≠ 1) (notMax : crngOp c ≠ 2)
    (out : x + y < -(2 : Int) ^ (8 * crngElem c - 1) ∨ x + y ≥ (2 : Int) ^ (8 * crngElem c - 1)) : (rangeCombine c x y).2 = true := by
  rw [rangeCombine_of_sum notMin notMax, satInt_signed]
  refine bne_iff_ne.mpr ?_
  split
  · omega
  · rw [if_pos (by omega)]
    omega

theorem crngOvf_setOvf (s : State) {r : Nat} (there : r < 16) : crngOvf (crngcOf (setOvf s r true) r) = true := by
  rw [crngcOf_setOvf, if_pos ⟨rfl, there⟩, crngOvf, BitVec.getLsbD_or]
  exact Bool.or_true _

end

/-- A hart whose silhouette has changed completes a divisible instruction. -/
theorem Hart.advance_of_partials {h g f k : Hart} {sil : Sil} (was : k = h) (left : g = { h with sil := sil })
    (goes : f = ({ g with vstart := 0 } : Hart).advance) : f = { k with
      sil := sil, vstart := 0, pc := f.pc, frames := f.frames, resume := f.resume, mid := f.mid, waits := f.waits, phase := f.phase } := by
  subst was left goes
  exact rfl

/-- Settles O38: the elements enter their partials one after another in states whose O2 has room for the rest; a trap is that of the
first element which a test refuses. -/
theorem contributions : Obligations.Contributions := by
  unfold Obligations.Contributions
  intro s d a b pg ew pa self r v q x y k h core i els va at_ c mapped of outside odd
  refine ⟨fun whole mapped room inside => ?_, exec_redst_of_long, fun e short found => exec_redst_of_misaligned short found,
    fun e mapped found => ?_, fun notHeld => ⟨enterPartial_of_alone notHeld, fun one element own free => ?_⟩⟩
  · obtain ⟨u, run, hart, entered⟩ := exec_redst_of_inRange whole mapped.1 mapped.2 room inside
    have left := entered.hart
    obtain ⟨⟨c, k, same⟩, cores, clusters⟩ := entered
    refine ⟨_, _, run, ?_, rfl, ?_, clusters, cores, ?_⟩
    · apply Hart.goneOn_of_ctl <;> rw [left]
    · rw [same]
      rfl
    · exact Hart.advance_of_partials hart left rfl
  · have first := List.find?_some found
    have hit : outside e ∨ odd e := of_decide_eq_true first
    have passes : ∀ k ∈ redstEls s pg ew, decide (outside k ∨ odd k) = false → redstTest s ew (va k) (at_ k) = none := fun k _ miss => by
      obtain ⟨inside, even⟩ := not_or.mp (of_decide_eq_false miss)
      exact (redstTest_of_inside inside).2 even
    refine ⟨fun out => ?_, fun inside => ?_⟩
    · obtain ⟨r, reason, refused⟩ := redstTest_of_outside (va := va e) out
      exact exec_redst_of_refused mapped.1 mapped.2 found passes refused (by decide : (0x11 : BitVec 6) ≠ 0x08)
        (by decide : (0x11 : BitVec 6) ≠ 0x10) rfl
    · exact exec_redst_of_refused mapped.1 mapped.2 found passes ((redstTest_of_inside inside).1 (hit.resolve_left inside))
        (by decide : (0x03 : BitVec 6) ≠ 0x08) (by decide : (0x03 : BitVec 6) ≠ 0x10) rfl
  · rw [enterPartial_of_joins notHeld one element own free]
    refine ⟨?_, fun there notMin notMax out => ?_⟩
    · rw [clusterAt_setCluster, ← rangeCombine_fst]
    · rw [rangeCombine_snd notMin notMax out]
      exact crngOvf_setOvf s there

end Sys2Proof.Machine
end

