-- ==== Sys2Proof/Proofs/VectorElements.lean ====
section
/-! SUPPORT. Elements of vector registers (R176, R242), loops over them, and whole instructions (R243). -/

namespace Sys2Proof.Machine

/-! ## Loops -/

/-- What holds before a loop and is kept by each of its rounds holds after it. -/
theorem forUp_induct {σ : Type} {P : Nat → σ → Prop} {f : Nat → σ → σ} : ∀ (n lo : Nat) {s : σ}, P lo s →
    (∀ i s, lo ≤ i → i < lo + n → P i s → P (i + 1) (f i s)) → P (lo + n) (forUp n lo f s)
  | 0, _, _, start, _ => start
  | n + 1, lo, s, start, round => by
    have rest := forUp_induct n (lo + 1) (round lo s (Nat.le_refl _) (by omega) start) fun i t low high => round i t (by omega) (by omega)
    rwa [show lo + 1 + n = lo + (n + 1) by omega] at rest

/-! ## Elements -/

theorem ew_bits_pos (ew : EW) : 0 < ew.bits := by cases ew <;> decide

section
variable {w i j : Nat}

theorem elemN_lt (v : VReg) (w i : Nat) : elemN v w i < 2 ^ w := (v.extractLsb' (w * i) w).isLt

/-- Bit `k` of a register of which element `i` has been replaced. -/
theorem putN_getLsbD (v : VReg) (x : Nat) (fits : w * i + w ≤ 1024) {k : Nat} (inside : k < 1024) :
    (putN v w i x).getLsbD k = if w * i ≤ k ∧ k < w * i + w then x.testBit (k - w * i) else v.getLsbD k := by
  unfold putN
  rw [BitVec.getLsbD_or, BitVec.getLsbD_and, BitVec.getLsbD_not, BitVec.getLsbD_shiftLeft, BitVec.getLsbD_ushiftRight,
    BitVec.getLsbD_allOnes, BitVec.getLsbD_shiftLeft, BitVec.getLsbD_ofNat, Nat.testBit_mod_two_pow, decide_eq_true inside]
  by_cases low : k < w * i
  · rw [if_neg (by omega)]
    simp [low]
  · by_cases high : k < w * i + w
    · rw [if_pos ⟨by omega, high⟩]
      simp [low, show 1024 - w + (k - w * i) < 1024 by omega, show k - w * i < w by omega, show k - w * i < 1024 by omega]
    · rw [if_neg (by omega)]
      simp [low, show ¬ 1024 - w + (k - w * i) < 1024 by omega, show ¬ k - w * i < w by omega]

theorem elemN_testBit (v : VReg) (w j k : Nat) : (elemN v w j).testBit k = (decide (k < w) && v.getLsbD (w * j + k)) := by
  rw [elemN, BitVec.testBit_toNat, BitVec.getLsbD_extractLsb']

/-- An element is inside the register. -/
theorem elem_fits (inside : i < 1024 / w) : w * i + w ≤ 1024 := by
  have : w * (i + 1) ≤ w * (1024 / w) := Nat.mul_le_mul_left w inside
  have := Nat.mul_div_le 1024 w
  rw [Nat.mul_add, Nat.mul_one] at *
  omega

/-- Element `i` of `w` bits replaced: it reads the low `w` bits written, the others read as before (R176). -/
theorem elemN_putN (v : VReg) (x : Nat) (atI : i < 1024 / w) (atJ : j < 1024 / w) :
    elemN (putN v w i x) w j = if j = i then x % 2 ^ w else elemN v w j := by
  have fitsI := elem_fits atI
  have fitsJ := elem_fits atJ
  refine Nat.eq_of_testBit_eq fun k => ?_
  rw [elemN_testBit]
  by_cases inElem : k < w
  · rw [putN_getLsbD v x fitsI (by omega), decide_eq_true inElem, Bool.true_and]
    by_cases same : j = i
    · subst same
      rw [if_pos ⟨by omega, by omega⟩, if_pos rfl, Nat.add_sub_cancel_left, Nat.testBit_mod_two_pow, decide_eq_true inElem, Bool.true_and]
    · have apart : ¬ (w * i ≤ w * j + k ∧ w * j + k < w * i + w) := by
        rcases Nat.lt_or_gt_of_ne same with below | above
        · have := Nat.mul_le_mul_left w (show j + 1 ≤ i from below)
          rw [Nat.mul_add, Nat.mul_one] at this
          omega
        · have := Nat.mul_le_mul_left w (show i + 1 ≤ j from above)
          rw [Nat.mul_add, Nat.mul_one] at this
          omega
      rw [if_neg apart, if_neg same, elemN_testBit, decide_eq_true inElem, Bool.true_and]
  · rw [decide_eq_false inElem, Bool.false_and]
    split
    · rw [Nat.testBit_mod_two_pow, decide_eq_false inElem, Bool.false_and]
    · rw [elemN_testBit, decide_eq_false inElem, Bool.false_and]

end

/-- A register written gains its DIRTYMAP bit alone (R361). -/
theorem Hart.setV_dirtymap_getLsbD (h : Hart) (d : VIdx) (v : VReg) {k : Nat} (inside : k < 32) :
    (h.setV d v).dirtymap.getLsbD k = (h.dirtymap.getLsbD k || k == d.toNat) := by
  have bit : ((1 : BitVec 32) <<< d.toNat).getLsbD k = (k == d.toNat) := by
    rw [BitVec.getLsbD_shiftLeft, show (1 : BitVec 32) = BitVec.ofNat 32 (2 ^ 1 - 1) from rfl, BitVec.getLsbD_ofNat,
      Nat.testBit_two_pow_sub_one, decide_eq_true inside, decide_eq_true (show k - d.toNat < 32 by omega), Bool.true_and,
      Bool.true_and, ← decide_not, ← Bool.decide_and]
    exact decide_eq_decide.mpr (by omega)
  rw [← bit, ← BitVec.getLsbD_or]
  rfl

/-! ## Whole instructions (R243) -/

section
variable {s : State} {c : Class} {ew : EW} {f : Hart → Kind → Option Hart} {i : Instr} {d : VIdx} {v : VReg}

/-- A whole instruction completes with the effect it has on the hart. -/
theorem whole_of_some {h : Hart} (admitted : c.admits (s.hart.kind ew) = true) (start : s.hart.vstart = 0) (short : fits s ew)
    (effect : f s.hart (s.hart.kind ew) = some h) : whole c ew f s = .next (advance { s with hart := h }) := by
  have notLong : tooLong s ew = false := decide_eq_false (Nat.not_lt.mpr short)
  unfold whole
  simp only [admitted, start, notLong, effect]
  rfl

/-- VSTART other than 0 is an illegal operand of a whole instruction (R243). -/
theorem whole_of_vstart (admitted : c.admits (s.hart.kind ew) = true) (late : s.hart.vstart ≠ 0) :
    whole c ew f s = .next (takeTrap s (operandTrap s)) := by
  have late' : (s.hart.vstart != 0) = true := bne_iff_ne.mpr late
  unfold whole
  simp only [admitted, late']
  rfl

/-- What an instruction leaves that completes with one vector register replaced, VSTART having been 0. -/
theorem givesV_of_setV {w : Nat} {g : Nat → Nat} (run : exec i s = .next (advance { s with hart := s.hart.setV d v }))
    (start : s.hart.vstart = 0) (elems : ∀ k, k < 1024 / w → elemN v w k = g k) : GivesV i s d w g := by
  refine ⟨_, run, rfl, Hart.goneOn_of_ctl rfl rfl rfl, rfl, ⟨fun r other => ?_, fun k inside => ?_⟩, start, fun k inside => ?_⟩
  · exact (Hart.vreg_setV ..).trans (if_neg other)
  · exact Hart.setV_dirtymap_getLsbD s.hart d v inside
  · rw [← elems k inside]
    exact congrArg (elemN · w k) ((Hart.vreg_setV ..).trans (if_pos rfl))

end

end Sys2Proof.Machine
end

