-- ==== Sys2Proof/Proofs/Reductions.lean ====
section
/-! SUPPORT. Reductions by the fixed tree and scans (R199, R260, R261). -/

namespace Sys2Proof.Machine

/-! ## The tree (R199) -/

/-- Two places of the tree combined: an absent one passes the other on (R199). -/
def joined (op : Nat → Nat → Nat) : Option Nat → Option Nat → Option Nat
  | none, v => v
  | some u, none => some u
  | some u, some v => some (op u v)

section
variable {op op' : Nat → Nat → Nat}

theorem joined_none (op : Nat → Nat → Nat) (u : Option Nat) : joined op u none = u := by cases u <;> rfl

theorem pairTree_succ (op : Nat → Nat → Nat) (n : Nat) (f : Nat → Option Nat) :
    pairTree op (n + 1) f = joined op (pairTree op n f) (pairTree op n fun i => f (i + 2 ^ n)) := by
  rw [pairTree]
  cases pairTree op n f <;> cases pairTree op n fun i => f (i + 2 ^ n) <;> rfl

theorem treeLevel_cons (op : Nat → Nat → Nat) (x y : Option Nat) (t : List (Option Nat)) :
    treeLevel op (x :: y :: t) = joined op x y :: treeLevel op t := by
  cases x <;> cases y <;> rfl

/-- One level of the tree combines each place with its neighbour. -/
theorem treeLevel_range (op : Nat → Nat → Nat) (m : Nat) : ∀ f : Nat → Option Nat,
    treeLevel op ((List.range (2 * m)).map f) = (List.range m).map fun i => joined op (f (2 * i)) (f (2 * i + 1)) := by
  induction m with
  | zero => exact fun _ => rfl
  | succ m ih =>
    intro f
    have two : List.range (2 * (m + 1)) = 0 :: 1 :: (List.range (2 * m)).map (· + 2) := by
      rw [Nat.mul_add, List.range_succ_eq_map, List.range_succ_eq_map, List.map_cons, List.map_map]
      rfl
    rw [two, List.map_cons, List.map_cons, treeLevel_cons, List.map_map, ih, List.range_succ_eq_map, List.map_cons, List.map_map]
    rfl

/-- The tree by halves is the tree by neighbours. -/
theorem pairTree_neighbours (op : Nat → Nat → Nat) (n : Nat) : ∀ f : Nat → Option Nat,
    pairTree op (n + 1) f = pairTree op n fun i => joined op (f (2 * i)) (f (2 * i + 1)) := by
  induction n with
  | zero => exact fun f => pairTree_succ op 0 f
  | succ n ih =>
    intro f
    rw [pairTree_succ, ih, ih, pairTree_succ op n]
    congr 2
    funext i
    congr 2 <;> omega

/-- The tree over a list of a power of two. -/
theorem tree_range (op : Nat → Nat → Nat) : ∀ (n k : Nat) (f : Nat → Option Nat), n ≤ k →
    tree op k ((List.range (2 ^ n)).map f) = pairTree op n f
  | 0, 0, _, _ => rfl
  | 0, _ + 1, _, _ => rfl
  | n + 1, k + 1, f, enough => by
    have long : ¬ ((List.range (2 ^ (n + 1))).map f).length ≤ 1 := by
      rw [List.length_map, List.length_range]
      have := Nat.pow_le_pow_right (show 0 < 2 by omega) (show 1 ≤ n + 1 by omega)
      omega
    rw [tree, if_neg long, Nat.pow_succ', treeLevel_range, tree_range op n k _ (Nat.le_of_succ_le_succ enough),
      pairTree_neighbours]

theorem pairTree_absent (op : Nat → Nat → Nat) : ∀ (n : Nat) (f : Nat → Option Nat), (∀ i, f i = none) → pairTree op n f = none
  | 0, _, absent => absent 0
  | n + 1, f, absent => by
    rw [pairTree_succ, pairTree_absent op n f absent, pairTree_absent op n _ fun i => absent _]
    rfl

/-- Places that are absent leave the tree as it is. -/
theorem pairTree_extend (op : Nat → Nat → Nat) {n m : Nat} (more : n ≤ m) {f : Nat → Option Nat} (absent : ∀ i, 2 ^ n ≤ i → f i = none) :
    pairTree op m f = pairTree op n f := by
  induction m, more using Nat.le_induction with
  | base => rfl
  | succ m above ih =>
    have half : pairTree op m (fun i => f (i + 2 ^ m)) = none :=
      pairTree_absent op m _ fun i => absent _ ((Nat.pow_le_pow_right (by omega) above).trans (Nat.le_add_left ..))
    rw [pairTree_succ, half, joined_none, ih]

/-- The places of a tree: a power of two that holds every element, at most 128. -/
theorem pow2Above_eq {vl : Nat} (short : vl ≤ 128) : ∃ n, n ≤ 7 ∧ pow2Above vl = 2 ^ n ∧ vl ≤ 2 ^ n := by
  unfold pow2Above
  by_cases one : vl ≤ 1
  · exact ⟨0, by omega, if_pos one, one⟩
  · have some_ : vl - 1 ≠ 0 := by omega
    refine ⟨Nat.log2 (vl - 1) + 1, ?_, if_neg one, ?_⟩
    · exact (Nat.log2_lt some_).mpr (by omega)
    · have := Nat.lt_log2_self (n := vl - 1)
      omega

end

/-! ## Reductions (R199, R260) -/

/-- Place `k` of a reduction's tree: an active element below VL (R199). -/
def place (s : State) (a : VIdx) (pg : PIdx) (w k : Nat) : Option Nat :=
  if k < s.hart.vl.toNat ∧ s.hart.active pg w k = true then some (elemN (vreg s a) w k) else none

/-- The initial value of a reduction (R199). -/
def initial (s : State) (b : XIdx) (w : Nat) : Nat := (xreg s b).toNat % 2 ^ w

/-- The tree's result combined with the initial value (R199). -/
def reduced (s : State) (a : VIdx) (b : XIdx) (pg : PIdx) (w : Nat) (op : Nat → Nat → Nat) : Nat :=
  match pairTree op 7 (place s a pg w) with
  | none => initial s b w
  | some x => op (initial s b w) x

section
variable {s : State} {d b : XIdx} {a : VIdx} {pg : PIdx} {ew : EW} {op op' : Nat → Nat → Nat}

theorem vl_le_of_fits (short : fits s ew) : s.hart.vl.toNat ≤ 128 := by
  have eight : 8 ≤ ew.bits := by cases ew <;> decide
  have := Nat.mul_le_mul_left s.hart.vl.toNat eight
  unfold fits at short
  omega

theorem reduce_eq_reduced (short : fits s ew) :
    reduce s.hart pg ew.bits a ((s.hart.xreg b).toNat % 2 ^ ew.bits) op = reduced s a b pg ew.bits op := by
  obtain ⟨n, few, places, all⟩ := pow2Above_eq (vl_le_of_fits short)
  have list : ((List.range (2 ^ n)).map fun i => if i < s.hart.vl.toNat && s.hart.active pg ew.bits i then
      some (elemN (s.hart.vreg a) ew.bits i) else none) = (List.range (2 ^ n)).map (place s a pg ew.bits) :=
    List.map_congr_left fun i _ => if_congr (by simp) rfl rfl
  have absent : ∀ i, 2 ^ n ≤ i → place s a pg ew.bits i = none := fun i above => if_neg (by omega)
  unfold reduce
  dsimp only
  rw [places, list, tree_range op n 8 _ (by omega), ← pairTree_extend op few absent]
  unfold reduced initial
  cases pairTree op 7 (place s a pg ew.bits) <;> rfl

/-- The tree stays below a bound that its operation keeps, and operations that agree there give the same. -/
theorem pairTree_congr {m : Nat} (keeps : ∀ x y, x < m → y < m → op x y < m) (same : ∀ x y, x < m → y < m → op' x y = op x y) :
    ∀ (n : Nat) (f : Nat → Option Nat), (∀ i, ∀ x ∈ f i, x < m) → (∀ x ∈ pairTree op n f, x < m) ∧ pairTree op' n f = pairTree op n f
  | 0, f, below => ⟨below 0, rfl⟩
  | n + 1, f, below => by
    obtain ⟨low, lowSame⟩ := pairTree_congr keeps same n f below
    obtain ⟨high, highSame⟩ := pairTree_congr keeps same n (fun i => f (i + 2 ^ n)) fun i => below _
    rw [pairTree_succ, pairTree_succ, lowSame, highSame]
    cases hu : pairTree op n f with
    | none => exact ⟨high, rfl⟩
    | some u =>
      cases hv : pairTree op n fun i => f (i + 2 ^ n) with
      | none => exact ⟨by rw [hu] at low; exact low, rfl⟩
      | some v =>
        have hum := low u hu
        have hvm := high v hv
        refine ⟨fun x hx => ?_, congrArg some (same u v hum hvm)⟩
        cases hx
        exact keeps u v hum hvm

theorem place_lt (i x : Nat) (h : x ∈ place s a pg ew.bits i) : x < 2 ^ ew.bits := by
  unfold place at h
  split at h
  · cases h
    exact elemN_lt ..
  · cases h

/-- A reduction depends on its operation on elements of its width alone. -/
theorem reduced_congr (keeps : ∀ x y, x < 2 ^ ew.bits → y < 2 ^ ew.bits → op x y < 2 ^ ew.bits)
    (same : ∀ x y, x < 2 ^ ew.bits → y < 2 ^ ew.bits → op' x y = op x y) : reduced s a b pg ew.bits op' = reduced s a b pg ew.bits op := by
  obtain ⟨below, eq⟩ := pairTree_congr keeps same 7 (place s a pg ew.bits) place_lt
  unfold reduced
  rw [eq]
  cases h : pairTree op 7 (place s a pg ew.bits) with
  | none => rfl
  | some x => exact same _ x (Nat.mod_lt _ (Nat.two_pow_pos _)) (below x h)

section
variable {c : Class} {uns : Bool} {g : Hart → Kind → Nat → Nat → Nat} {i : Instr}
  (run : exec i s = reduction c uns d a b pg ew g s) (admitted : c.admits (s.hart.kind ew) = true)
include run admitted

theorem badOperand_of_reduction (late : s.hart.vstart ≠ 0) : BadOperand i s := run.trans (whole_of_vstart admitted late)

/-- What a reduction instruction leaves in its scalar register: extended by the sign for integer kinds, unless it is unsigned
(R260). -/
theorem givesX_of_reduction (start : s.hart.vstart = 0) (short : fits s ew) (op : Nat → Nat → Nat)
    (operation : reduced s a b pg ew.bits (g s.hart (s.hart.kind ew)) = reduced s a b pg ew.bits op) :
    GivesX i s d (if s.hart.kind ew = .int && !uns then BitVec.ofInt 64 (sx ew.bits (reduced s a b pg ew.bits op))
      else BitVec.ofNat 64 (reduced s a b pg ew.bits op)) := by
  rw [sx_eq_toSigned _ _ (ew_bits_pos ew), ← operation, ← reduce_eq_reduced short]
  exact gives_of_nextX (run.trans (whole_of_some admitted start short rfl))

end

end

/-! ## Operations on elements (R245, R246) -/

section
variable {w x y : Nat} {k : Kind} {f : Fmt} {lo hi : Nat → Nat → Nat}

theorem integers_iff_rtype (s : State) : integers s ↔ mfcRtype s.hart = 0 := by
  unfold integers mfcRtype
  rw [← BitVec.toNat_inj]
  rfl

theorem kind_of_integers {s : State} (h : integers s) (ew : EW) : s.hart.kind ew = .int := if_pos ((integers_iff_rtype s).mp h)

theorem kind_of_not_integers {s : State} (h : ¬ integers s) (ew : EW) : s.hart.kind ew ≠ .int := by
  unfold Hart.kind kindOf
  rw [if_neg (mt (integers_iff_rtype s).mpr h)]
  split <;> cases ew <;> exact nofun

theorem narrowInt_eq_narrow (w : Nat) (sat : Bool) (z : Int) : narrowInt w sat z = narrow w sat z := by
  have clamp : satInt z w true = max (-2 ^ (w - 1)) (min (2 ^ (w - 1) - 1) z) := by
    rw [satInt_signed]
    have : (0 : Int) < 2 ^ (w - 1) := by positivity
    split
    · omega
    · split <;> omega
  unfold narrowInt narrow ofInt
  rw [clamp]

theorem narrow_lt (w : Nat) (sat : Bool) (z : Int) : narrow w sat z < 2 ^ w := by
  have := Int.emod_lt_of_pos (if sat then max (-2 ^ (w - 1)) (min (2 ^ (w - 1) - 1) z) else z) (show (0 : Int) < 2 ^ w by positivity)
  unfold narrow
  zify
  rw [Int.toNat_of_nonneg (Int.emod_nonneg _ (by positivity))]
  exact this

/-- An element is the low bits of its signed value. -/
theorem narrow_sx (small : x < 2 ^ w) : narrow w false (sx w x) = x := by
  have small' : (x : Int) < 2 ^ w := by exact_mod_cast small
  have mod : (x : Int) % 2 ^ w = x := Int.emod_eq_of_lt (by omega) small'
  unfold narrow sx
  rw [Nat.mod_eq_of_lt small]
  simp only [Bool.false_eq_true, if_false]
  split
  · rw [mod]; rfl
  · rw [Int.sub_emod_right, mod]; rfl

theorem sx_inj (smallX : x < 2 ^ w) (smallY : y < 2 ^ w) (same : sx w x = sx w y) : x = y := by
  rw [← narrow_sx smallX, same, narrow_sx smallY]

theorem addElem_int (w : Nat) (r : Rnd) (sat : Bool) (pos : 0 < w) :
    addElem .int w r sat = fun x y => narrow w sat (sx w x + sx w y) := by
  funext x y
  rw [sx_eq_toSigned w x pos, sx_eq_toSigned w y pos, ← narrowInt_eq_narrow]
  rfl

theorem addElem_flt (f : Fmt) (w : Nat) (r : Rnd) (sat : Bool) : addElem (.flt f) w r sat = fun x y =>
    let e := Exact.add r (decodeExact f x) (decodeExact f y)
    roundFmt f e r (sat && e.isFinite) := rfl

/-- The integer minimum and maximum of elements. -/
theorem extremeElem_int (pos : 0 < w) (smallX : x < 2 ^ w) (smallY : y < 2 ^ w) :
    extremeElem true .int w x y = narrow w false (min (sx w x) (sx w y)) ∧
    extremeElem false .int w x y = narrow w false (max (sx w x) (sx w y)) := by
  unfold extremeElem
  rw [← sx_eq_toSigned w x pos, ← sx_eq_toSigned w y pos]
  by_cases le : sx w x ≤ sx w y
  · rw [min_eq_left le, max_eq_right le, narrow_sx smallX, narrow_sx smallY, decide_eq_true le]
    exact ⟨rfl, rfl⟩
  · rw [min_eq_right (by omega), max_eq_left (by omega), narrow_sx smallX, narrow_sx smallY, decide_eq_false le]
    exact ⟨rfl, rfl⟩

theorem extremeU_eq (x y : Nat) : extremeU true x y = min x y ∧ extremeU false x y = max x y := by
  unfold extremeU
  by_cases le : x ≤ y
  · rw [min_eq_left le, max_eq_right le, decide_eq_true le]
    exact ⟨rfl, rfl⟩
  · rw [min_eq_right (by omega), max_eq_left (by omega), decide_eq_false le]
    exact ⟨rfl, rfl⟩

/-- What R245 says of the floating minimum and maximum names the model's operations. -/
theorem extremeElem_flt (extremes : floatExtremes f w lo hi) : extremeElem true (.flt f) w = lo ∧ extremeElem false (.flt f) w = hi := by
  have both : ∀ x y, extremeElem true (.flt f) w x y = lo x y ∧ extremeElem false (.flt f) w x y = hi x y := by
    intro x y
    obtain ⟨nan, below, above⟩ := extremes x y
    unfold extremeElem
    dsimp only
    cases nanX : (decodeExact f x).isNaN with
    | true =>
      obtain ⟨isLo, isHi⟩ := nan (.inl nanX)
      exact ⟨isLo.symm, isHi.symm⟩
    | false =>
      cases nanY : (decodeExact f y).isNaN with
      | true =>
        obtain ⟨isLo, isHi⟩ := nan (.inr nanY)
        exact ⟨isLo.symm, isHi.symm⟩
      | false =>
        by_cases lower : (decodeExact f x).lt (decodeExact f y) = true ∨
            ((decodeExact f y).lt (decodeExact f x) = false ∧ x.testBit (w - 1) = true)
        · obtain ⟨isLo, isHi⟩ := below nanX nanY lower
          have yes : ((decodeExact f x).lt (decodeExact f y) || (!(decodeExact f y).lt (decodeExact f x) && signOf w x)) = true := by
            simpa [signOf] using lower
          rw [yes, isLo, isHi]
          exact ⟨rfl, rfl⟩
        · obtain ⟨isLo, isHi⟩ := above nanX nanY lower
          have no : ((decodeExact f x).lt (decodeExact f y) || (!(decodeExact f y).lt (decodeExact f x) && signOf w x)) = false := by
            simpa [signOf] using lower
          rw [no, isLo, isHi]
          exact ⟨rfl, rfl⟩
  exact ⟨funext₂ fun x y => (both x y).1, funext₂ fun x y => (both x y).2⟩

end

/-! ## Scans (R261) -/

section
variable {s : State} {d a : VIdx} {pg : PIdx} {ew : EW} {z : Bool} {op op' : Nat → Nat → Nat}

theorem runningTo_active {f : Nat → Nat} {act : Nat → Bool} {k : Nat} (on : act k = true) :
    runningTo op f act (k + 1) = joined op (runningTo op f act k) (some (f k)) := by
  rw [runningTo, if_pos on]
  cases runningTo op f act k <;> rfl

theorem runningTo_inactive {f : Nat → Nat} {act : Nat → Bool} {k : Nat} (off : ¬ act k = true) :
    runningTo op f act (k + 1) = runningTo op f act k := if_neg off

/-- A running combination stays below a bound that its operation keeps. -/
theorem runningTo_congr {m : Nat} {f : Nat → Nat} {act : Nat → Bool} (below : ∀ i, f i < m)
    (keeps : ∀ x y, x < m → y < m → op x y < m) (same : ∀ x y, x < m → y < m → op' x y = op x y) :
    ∀ k, (∀ x ∈ runningTo op f act k, x < m) ∧ runningTo op' f act k = runningTo op f act k
  | 0 => ⟨fun _ h => (nomatch h), rfl⟩
  | k + 1 => by
    obtain ⟨low, eq⟩ := runningTo_congr below keeps same k
    by_cases on : act k = true
    · rw [runningTo_active on, runningTo_active on, eq]
      cases h : runningTo op f act k with
      | none => exact ⟨fun x hx => by cases hx; exact below k, rfl⟩
      | some u =>
        refine ⟨fun x hx => ?_, congrArg some (same u _ (low u h) (below k))⟩
        cases hx
        exact keeps u _ (low u h) (below k)
    · rw [runningTo_inactive on, runningTo_inactive on]
      exact ⟨low, eq⟩

/-- The scan's running value and its destination after a round. -/
def scanRound (h : Hart) (src : VReg) (pg : PIdx) (w : Nat) (z : Bool) (op : Nat → Nat → Nat) (i : Nat)
    (x : Option Nat × VReg) : Option Nat × VReg :=
  if h.active pg w i then
    let t := match x.1 with
      | none => elemN src w i
      | some u => op u (elemN src w i)
    (some t, putN x.2 w i t)
  else (x.1, if z then putN x.2 w i 0 else x.2)

/-- What element `k` of a scan's destination reads after the scan (R261). -/
def scanned (s : State) (a d : VIdx) (pg : PIdx) (w : Nat) (z : Bool) (op : Nat → Nat → Nat) (k : Nat) : Nat :=
  if s.hart.active pg w k = true then (runningTo op (elemN (vreg s a) w) (s.hart.active pg w) (k + 1)).getD 0 % 2 ^ w
  else if z then 0 else elemN (vreg s d) w k

/-- Before round `i` of a scan. -/
def scanAt (s : State) (a d : VIdx) (pg : PIdx) (w : Nat) (z : Bool) (op : Nat → Nat → Nat) (i : Nat) (x : Option Nat × VReg) : Prop :=
  x.1 = runningTo op (elemN (vreg s a) w) (s.hart.active pg w) i ∧
  ∀ k, k < 1024 / w → elemN x.2 w k = if k < i then scanned s a d pg w z op k else elemN (vreg s d) w k

theorem scanRound_at {w i : Nat} (inside : i < 1024 / w) {x : Option Nat × VReg} (before : scanAt s a d pg w z op i x) :
    scanAt s a d pg w z op (i + 1) (scanRound s.hart (vreg s a) pg w z op i x) := by
  obtain ⟨running, elems⟩ := before
  have put : ∀ v, (v % 2 ^ w = scanned s a d pg w z op i) → ∀ k, k < 1024 / w →
      elemN (putN x.2 w i v) w k = if k < i + 1 then scanned s a d pg w z op k else elemN (vreg s d) w k := by
    intro v here k atK
    rw [elemN_putN _ _ inside atK, elems k atK]
    by_cases same : k = i
    · subst same
      rw [if_pos rfl, if_pos (by omega), here]
    · rw [if_neg same]
      exact if_congr (by omega) rfl rfl
  unfold scanRound
  by_cases on : s.hart.active pg w i = true
  · have next : runningTo op (elemN (vreg s a) w) (s.hart.active pg w) (i + 1) = some (match x.1 with
        | none => elemN (vreg s a) w i
        | some u => op u (elemN (vreg s a) w i)) := by
      rw [runningTo_active on, ← running]
      cases x.1 <;> rfl
    rw [if_pos on]
    refine ⟨next.symm, put _ ?_⟩
    unfold scanned
    rw [if_pos on, next]
    rfl
  · have next : runningTo op (elemN (vreg s a) w) (s.hart.active pg w) (i + 1) = x.1 := by
      rw [runningTo_inactive on, running]
    rw [if_neg on]
    refine ⟨next.symm, ?_⟩
    cases z with
    | true =>
      refine put 0 ?_
      unfold scanned
      rw [if_neg on]
      exact Nat.zero_mod _
    | false =>
      intro k atK
      rw [if_neg Bool.false_ne_true, elems k atK]
      by_cases same : k = i
      · subst same
        rw [if_neg (Nat.lt_irrefl k), if_pos (by omega)]
        unfold scanned
        rw [if_neg on]
        rfl
      · exact if_congr (by omega) rfl rfl

section
variable {i : Instr} {g : Hart → Kind → Nat → Nat → Nat} (run : exec i s = scan d a pg ew z g s)
  (admitted : Class.FI.admits (s.hart.kind ew) = true)
include run admitted

theorem badOperand_of_scan (late : s.hart.vstart ≠ 0) : BadOperand i s := run.trans (whole_of_vstart admitted late)

/-- Each active element takes the combination of the active elements up to it (R261). -/
theorem elementwise_of_scan (start : s.hart.vstart = 0) (short : fits s ew) (op : Nat → Nat → Nat)
    (operation : ∀ k, runningTo (g s.hart (s.hart.kind ew)) (elemN (vreg s a) ew.bits) (s.hart.active pg ew.bits) k =
      runningTo op (elemN (vreg s a) ew.bits) (s.hart.active pg ew.bits) k) :
    Elementwise i s d pg ew z fun k => (runningTo op (elemN (vreg s a) ew.bits) (s.hart.active pg ew.bits) (k + 1)).getD 0 := by
  have vl : s.hart.vl.toNat ≤ 1024 / ew.bits := (Nat.le_div_iff_mul_le (ew_bits_pos ew)).mpr short
  obtain ⟨-, elems⟩ := forUp_induct (P := scanAt s a d pg ew.bits z (g s.hart (s.hart.kind ew)))
    (f := scanRound s.hart (vreg s a) pg ew.bits z (g s.hart (s.hart.kind ew))) s.hart.vl.toNat 0
    (s := (none, vreg s d)) ⟨rfl, fun _ _ => rfl⟩ fun i x _ below before => scanRound_at (by omega) before
  refine givesV_of_setV (run.trans (whole_of_some admitted start short rfl)) start fun k atK => (elems k atK).trans ?_
  have first : s.hart.vstart.toNat = 0 := by rw [start]; rfl
  have range : (s.hart.vstart.toNat ≤ k ∧ k < s.hart.vl.toNat) ↔ k < 0 + s.hart.vl.toNat := by omega
  unfold underR242 scanned
  rw [operation]
  exact (if_congr range rfl rfl).symm

end

end

/-! ## The instructions -/

section
variable (s : State) (d b : XIdx) (v a : VIdx) (pg : PIdx) (ew : EW) (z : Bool)

theorem exec_vredsum : exec (.vredsum d a b pg ew) s = reduction .FI false d a b pg ew (fun h k => addElem k ew.bits (mfcRound h) (mfcSat h)) s := rfl
theorem exec_vredmin : exec (.vredmin d a b pg ew) s = reduction .FI false d a b pg ew (fun _ k => extremeElem true k ew.bits) s := rfl
theorem exec_vredmax : exec (.vredmax d a b pg ew) s = reduction .FI false d a b pg ew (fun _ k => extremeElem false k ew.bits) s := rfl
theorem exec_vredminu : exec (.vredminu d a b pg ew) s = reduction .I true d a b pg ew (fun _ _ => extremeU true) s := rfl
theorem exec_vredmaxu : exec (.vredmaxu d a b pg ew) s = reduction .I true d a b pg ew (fun _ _ => extremeU false) s := rfl
theorem exec_vredand : exec (.vredand d a b pg ew) s = reduction .B false d a b pg ew (fun _ _ => (· &&& ·)) s := rfl
theorem exec_vredor : exec (.vredor d a b pg ew) s = reduction .B false d a b pg ew (fun _ _ => (· ||| ·)) s := rfl
theorem exec_vredxor : exec (.vredxor d a b pg ew) s = reduction .B false d a b pg ew (fun _ _ => (· ^^^ ·)) s := rfl
theorem exec_vscansum : exec (.vscansum v a pg ew z) s = scan v a pg ew z (fun h k => addElem k ew.bits (mfcRound h) (mfcSat h)) s := rfl
theorem exec_vscanmin : exec (.vscanmin v a pg ew z) s = scan v a pg ew z (fun _ k => extremeElem true k ew.bits) s := rfl
theorem exec_vscanmax : exec (.vscanmax v a pg ew z) s = scan v a pg ew z (fun _ k => extremeElem false k ew.bits) s := rfl

end

/-! ## The obligation -/

theorem admits_of_integers {s : State} (h : integers s) (ew : EW) (c : Class) (notF : c ≠ .F) : c.admits (s.hart.kind ew) = true := by
  rw [kind_of_integers h]
  cases c with
  | F => exact absurd rfl notF
  | B | I | FI => rfl

theorem admits_FI_of_flt {s : State} {ew : EW} {g : Fmt} (h : s.hart.kind ew = .flt g) : Class.FI.admits (s.hart.kind ew) = true := by
  rw [h]; rfl

theorem admits_FI {s : State} {ew : EW} (h : integers s ∨ ∃ g, s.hart.kind ew = .flt g) : Class.FI.admits (s.hart.kind ew) = true := by
  rcases h with int | ⟨g, flt⟩
  · exact admits_of_integers int ew .FI nofun
  · exact admits_FI_of_flt flt

section
variable {s : State} {d b : XIdx} {a : VIdx} {pg : PIdx} {ew : EW} {c : Class} {uns : Bool} {g : Hart → Kind → Nat → Nat → Nat} {i : Instr}

/-- A reduction of integers is extended by its sign (R260). -/
theorem givesX_signed (int : integers s) (start : s.hart.vstart = 0) (short : fits s ew)
    (run : exec i s = reduction c false d a b pg ew g s) (notF : c ≠ .F) (op : Nat → Nat → Nat)
    (operation : reduced s a b pg ew.bits (g s.hart .int) = reduced s a b pg ew.bits op) :
    GivesX i s d (BitVec.ofInt 64 (sx ew.bits (reduced s a b pg ew.bits op))) := by
  have kind := kind_of_integers int ew
  have gives := givesX_of_reduction run (admits_of_integers int ew c notF) start short op (by rw [kind]; exact operation)
  rwa [if_pos (by rw [kind]; rfl)] at gives

/-- An unsigned reduction, and one of elements that are no integers, is extended by zeros (R260). -/
theorem givesX_unsigned (other : s.hart.kind ew ≠ .int ∨ uns = true) (admitted : c.admits (s.hart.kind ew) = true)
    (start : s.hart.vstart = 0) (short : fits s ew) (run : exec i s = reduction c uns d a b pg ew g s) (op : Nat → Nat → Nat)
    (operation : g s.hart (s.hart.kind ew) = op) : GivesX i s d (BitVec.ofNat 64 (reduced s a b pg ew.bits op)) := by
  have gives := givesX_of_reduction run admitted start short op (by rw [operation])
  rwa [if_neg (by rcases other with kind | unsigned <;> simp [*])] at gives

end

/-- The reductions, for every kind of element. -/
theorem reductions (s : State) (d : XIdx) (a : VIdx) (b : XIdx) (pg : PIdx) (ew : EW) (start : s.hart.vstart = 0) (short : fits s ew) :
    let w := ew.bits
    let S := fun (i : Instr) (op : Nat → Nat → Nat) => GivesX i s d (BitVec.ofInt 64 (sx w (reduced s a b pg w op)))
    let U := fun (i : Instr) (op : Nat → Nat → Nat) => GivesX i s d (BitVec.ofNat 64 (reduced s a b pg w op))
    (integers s →
      S (.vredsum d a b pg ew) (fun x y => narrow w (mfcSat s.hart) (sx w x + sx w y)) ∧
      S (.vredmin d a b pg ew) (fun x y => narrow w false (min (sx w x) (sx w y))) ∧
      S (.vredmax d a b pg ew) (fun x y => narrow w false (max (sx w x) (sx w y))) ∧
      U (.vredminu d a b pg ew) min ∧ U (.vredmaxu d a b pg ew) max ∧
      S (.vredand d a b pg ew) (· &&& ·) ∧ S (.vredor d a b pg ew) (· ||| ·) ∧ S (.vredxor d a b pg ew) (· ^^^ ·)) ∧
    (¬ integers s →
      U (.vredand d a b pg ew) (· &&& ·) ∧ U (.vredor d a b pg ew) (· ||| ·) ∧ U (.vredxor d a b pg ew) (· ^^^ ·)) ∧
    (∀ g, s.hart.kind ew = .flt g → U (.vredsum d a b pg ew) (fun x y =>
      let e := Exact.add (mfcRound s.hart) (decodeExact g x) (decodeExact g y)
      roundFmt g e (mfcRound s.hart) (mfcSat s.hart && e.isFinite)) ∧
      ∀ lo hi, floatExtremes g w lo hi → U (.vredmin d a b pg ew) lo ∧ U (.vredmax d a b pg ew) hi) := by
  intro w S U
  refine ⟨fun int => ?_, fun notInt => ?_, fun g flt => ?_⟩
  · have extremes := fun (lo : Bool) => reduced_congr (s := s) (a := a) (b := b) (pg := pg) (ew := ew)
      (op := fun x y => narrow w false (if lo then min (sx w x) (sx w y) else max (sx w x) (sx w y)))
      (op' := extremeElem lo .int w) (fun _ _ _ _ => narrow_lt ..) fun x y hx hy => by
        cases lo with
        | true => exact (extremeElem_int (ew_bits_pos ew) hx hy).1
        | false => exact (extremeElem_int (ew_bits_pos ew) hx hy).2
    have unsigned := admits_of_integers int ew .I nofun
    exact ⟨givesX_signed int start short (exec_vredsum ..) (by decide) _ (by rw [addElem_int _ _ _ (ew_bits_pos ew)]),
      givesX_signed int start short (exec_vredmin ..) (by decide) _ (extremes true),
      givesX_signed int start short (exec_vredmax ..) (by decide) _ (extremes false),
      givesX_unsigned (.inr rfl) unsigned start short (exec_vredminu ..) _ (funext₂ fun x y => (extremeU_eq x y).1),
      givesX_unsigned (.inr rfl) unsigned start short (exec_vredmaxu ..) _ (funext₂ fun x y => (extremeU_eq x y).2),
      givesX_signed int start short (exec_vredand ..) (by decide) _ rfl, givesX_signed int start short (exec_vredor ..) (by decide) _ rfl,
      givesX_signed int start short (exec_vredxor ..) (by decide) _ rfl⟩
  · have kind := kind_of_not_integers notInt ew
    exact ⟨givesX_unsigned (.inl kind) rfl start short (exec_vredand ..) _ rfl,
      givesX_unsigned (.inl kind) rfl start short (exec_vredor ..) _ rfl, givesX_unsigned (.inl kind) rfl start short (exec_vredxor ..) _ rfl⟩
  · have kind : s.hart.kind ew ≠ .int := by rw [flt]; exact nofun
    have admitted := admits_FI_of_flt flt
    refine ⟨givesX_unsigned (.inl kind) admitted start short (exec_vredsum ..) _ (by rw [flt, addElem_flt]), fun lo hi extremes => ⟨?_, ?_⟩⟩
    · exact givesX_unsigned (.inl kind) admitted start short (exec_vredmin ..) _ (by rw [flt, (extremeElem_flt extremes).1])
    · exact givesX_unsigned (.inl kind) admitted start short (exec_vredmax ..) _ (by rw [flt, (extremeElem_flt extremes).2])

/-- The scans, for integers and floats. -/
theorem scans (s : State) (d a : VIdx) (pg : PIdx) (ew : EW) (z : Bool) (start : s.hart.vstart = 0) (short : fits s ew) :
    let w := ew.bits
    let E := fun (i : Instr) (op : Nat → Nat → Nat) => Elementwise i s d pg ew z fun k =>
      (runningTo op (elemN (vreg s a) w) (s.hart.active pg w) (k + 1)).getD 0
    (integers s →
      E (.vscansum d a pg ew z) (fun x y => narrow w (mfcSat s.hart) (sx w x + sx w y)) ∧
      E (.vscanmin d a pg ew z) (fun x y => narrow w false (min (sx w x) (sx w y))) ∧
      E (.vscanmax d a pg ew z) (fun x y => narrow w false (max (sx w x) (sx w y)))) ∧
    ∀ g, s.hart.kind ew = .flt g → E (.vscansum d a pg ew z) (fun x y =>
      let e := Exact.add (mfcRound s.hart) (decodeExact g x) (decodeExact g y)
      roundFmt g e (mfcRound s.hart) (mfcSat s.hart && e.isFinite)) ∧
      ∀ lo hi, floatExtremes g w lo hi → E (.vscanmin d a pg ew z) lo ∧ E (.vscanmax d a pg ew z) hi := by
  intro w E
  refine ⟨fun int => ?_, fun g flt => ?_⟩
  · have kind := kind_of_integers int ew
    have admitted := admits_of_integers int ew .FI nofun
    have extremes := fun (lo : Bool) => runningTo_congr (fun i => elemN_lt (vreg s a) w i) (act := s.hart.active pg w)
      (op := fun x y => narrow w false (if lo then min (sx w x) (sx w y) else max (sx w x) (sx w y)))
      (op' := extremeElem lo .int w) (fun _ _ _ _ => narrow_lt ..) fun x y hx hy => by
        cases lo with
        | true => exact (extremeElem_int (ew_bits_pos ew) hx hy).1
        | false => exact (extremeElem_int (ew_bits_pos ew) hx hy).2
    refine ⟨elementwise_of_scan (exec_vscansum ..) admitted start short _ fun k => by rw [kind, addElem_int _ _ _ (ew_bits_pos ew)],
      elementwise_of_scan (exec_vscanmin ..) admitted start short _ fun k => ?_, elementwise_of_scan (exec_vscanmax ..) admitted start short _ fun k => ?_⟩
    · rw [kind]; exact (extremes true k).2
    · rw [kind]; exact (extremes false k).2
  · have admitted := admits_FI_of_flt flt
    refine ⟨elementwise_of_scan (exec_vscansum ..) admitted start short _ fun k => by rw [flt, addElem_flt], fun lo hi extremes => ⟨?_, ?_⟩⟩
    · exact elementwise_of_scan (exec_vscanmin ..) admitted start short _ fun k => by rw [flt, (extremeElem_flt extremes).1]
    · exact elementwise_of_scan (exec_vscanmax ..) admitted start short _ fun k => by rw [flt, (extremeElem_flt extremes).2]

/-- Settles O30: the tree by neighbours is the tree by halves (`pairTree_neighbours`), whose absent places change nothing
(`pairTree_extend`); a scan keeps its running combination and the elements written so far (`scanRound_at`). -/
theorem reductionsAndScans : Obligations.ReductionsAndScans := by
  unfold Obligations.ReductionsAndScans
  refine ⟨fun s d a b pg ew => ⟨fun late => ?_, fun start short => reductions s d a b pg ew start short⟩,
    fun s d a pg ew z => ⟨fun late either => ?_, fun start short => scans s d a pg ew z start short⟩⟩
  · refine ⟨badOperand_of_reduction (exec_vredand ..) rfl late, badOperand_of_reduction (exec_vredor ..) rfl late,
      badOperand_of_reduction (exec_vredxor ..) rfl late, fun either => ?_, fun int => ?_⟩
    · have admitted := admits_FI either
      exact ⟨badOperand_of_reduction (exec_vredsum ..) admitted late, badOperand_of_reduction (exec_vredmin ..) admitted late,
        badOperand_of_reduction (exec_vredmax ..) admitted late⟩
    · have admitted := admits_of_integers int ew .I nofun
      exact ⟨badOperand_of_reduction (exec_vredminu ..) admitted late, badOperand_of_reduction (exec_vredmaxu ..) admitted late⟩
  · have admitted := admits_FI either
    exact ⟨badOperand_of_scan (exec_vscansum ..) admitted late, badOperand_of_scan (exec_vscanmin ..) admitted late,
      badOperand_of_scan (exec_vscanmax ..) admitted late⟩

end Sys2Proof.Machine
end

