-- ==== Sys2Proof/Proofs/IntegerRounding.lean ====
section
/-! SUPPORT. Rounding of real numbers to integers and to the floating-point formats (R177, R187, R188). -/

namespace Sys2Proof.Machine

/-! ## Rounding to an integer (R187) -/

/-- The mode rounds magnitudes of a sign down, -/
def roundsInward (r : Rnd) (neg : Bool) : Prop := r = .rtz ∨ (r = .rdn ∧ neg = false) ∨ (r = .rup ∧ neg = true)

/-- or up. -/
def roundsOutward (r : Rnd) (neg : Bool) : Prop := (r = .rdn ∧ neg = true) ∨ (r = .rup ∧ neg = false)

/-- `k` is the magnitude `x` rounded to an integer: to nearest with ties to even, down, or up (R187). -/
structure RoundsInt (r : Rnd) (neg : Bool) (x : ℝ) (k : ℕ) : Prop where
  nearest : r = .rne → |k - x| ≤ 1 / 2 ∧ (|k - x| = 1 / 2 → k % 2 = 0)
  down : roundsInward r neg → k ≤ x ∧ x < k + 1
  up : roundsOutward r neg → x ≤ k ∧ k < x + 1

section
variable {r : Rnd} {neg : Bool} {x y : ℝ} {k : ℕ}

theorem mode_cases (r : Rnd) (neg : Bool) : r = .rne ∨ roundsInward r neg ∨ roundsOutward r neg := by
  cases r <;> cases neg <;> simp [roundsInward, roundsOutward]

theorem not_roundsInward_of_roundsOutward (h : roundsOutward r neg) : ¬ roundsInward r neg := by
  rcases h with ⟨rfl, rfl⟩ | ⟨rfl, rfl⟩ <;> simp [roundsInward]

theorem RoundsInt.near (h : RoundsInt r neg x k) : |k - x| < 1 := by
  rcases mode_cases r neg with near | down | up
  · linarith [(h.nearest near).1]
  · obtain ⟨low, high⟩ := h.down down
    exact abs_lt.mpr ⟨by linarith, by linarith⟩
  · obtain ⟨low, high⟩ := h.up up
    exact abs_lt.mpr ⟨by linarith, by linarith⟩

/-- Rounding does not pass an integer. -/
theorem RoundsInt.le (h : RoundsInt r neg x k) {n : ℕ} (below : x ≤ n) : k ≤ n := by
  have := (abs_lt.mp h.near).2
  have : (k : ℝ) < n + 1 := by linarith
  exact Nat.lt_succ_iff.mp (by exact_mod_cast this)

theorem RoundsInt.ge (h : RoundsInt r neg x k) {n : ℕ} (above : n ≤ x) : n ≤ k := by
  have := (abs_lt.mp h.near).1
  have : (n : ℝ) < k + 1 := by linarith
  exact Nat.lt_succ_iff.mp (by exact_mod_cast this)

theorem RoundsInt.of_nat (r : Rnd) (neg : Bool) (k : ℕ) : RoundsInt r neg k k where
  nearest _ := by norm_num
  down _ := ⟨le_rfl, by linarith⟩
  up _ := ⟨le_rfl, by linarith⟩

/-- What a number rounds to depends on its place among the halves of integers alone. -/
theorem RoundsInt.congr (h : RoundsInt r neg x k) (below : ∀ n : ℤ, y < n / 2 ↔ x < n / 2) (above : ∀ n : ℤ, n / 2 < y ↔ n / 2 < x) :
    RoundsInt r neg y k := by
  have lowHalf := below (2 * k - 1)
  have highHalf := above (2 * k + 1)
  have highHalf' := below (2 * k + 1)
  have lowHalf' := above (2 * k - 1)
  have lowInt := below (2 * k)
  have highInt := above (2 * k)
  have nextInt := below (2 * k + 2)
  have lastInt := above (2 * k - 2)
  push_cast at *
  refine ⟨fun near => ?_, fun down => ?_, fun up => ?_⟩
  · obtain ⟨close, tie⟩ := h.nearest near
    obtain ⟨low, high⟩ := abs_le.mp close
    have close' : |k - y| ≤ 1 / 2 := abs_le.mpr
      ⟨by linarith [not_lt.mp (mt highHalf.mp (by linarith))], by linarith [not_lt.mp (mt lowHalf.mp (by linarith))]⟩
    refine ⟨close', fun tieY => tie ?_⟩
    rcases abs_eq (by norm_num : (0 : ℝ) ≤ 1 / 2) |>.mp tieY with at_ | at_
    · have := not_lt.mp (mt lowHalf'.mpr (by linarith))
      exact (abs_eq (by norm_num)).mpr (.inl (by linarith))
    · have := not_lt.mp (mt highHalf'.mpr (by linarith))
      exact (abs_eq (by norm_num)).mpr (.inr (by linarith))
  · obtain ⟨low, high⟩ := h.down down
    exact ⟨by linarith [not_lt.mp (mt lowInt.mp (by linarith))], by linarith [nextInt.mpr (by linarith)]⟩
  · obtain ⟨low, high⟩ := h.up up
    exact ⟨by linarith [not_lt.mp (mt highInt.mp (by linarith))], by linarith [lastInt.mpr (by linarith)]⟩

end

/-! ## The model's rounding to a grid (R187) -/

section
variable (r : Rnd) (neg : Bool) (m sh : ℕ) (e q : ℤ)

/-- Whether a mode rounds the quotient `a` with the remainder `b` of a division by 2^sh up (R187). -/
def roundsUp (a b : ℕ) : Bool :=
  match r with
  | .rne => 2 * b > 2 ^ sh || (2 * b == 2 ^ sh && a % 2 == 1)
  | .rtz => false
  | .rdn => neg && b != 0
  | .rup => !neg && b != 0

theorem roundShift_eq : roundShift r neg m sh =
    if roundsUp r neg sh (m / 2 ^ sh) (m % 2 ^ sh) then m / 2 ^ sh + 1 else m / 2 ^ sh := by
  have rest : m - m / 2 ^ sh * 2 ^ sh = m % 2 ^ sh := by
    have := Nat.div_add_mod' m (2 ^ sh)
    omega
  unfold roundShift
  simp only [Nat.shiftRight_eq_div_pow, Nat.shiftLeft_eq, rest, Nat.one_mul]
  rfl

/-- A number between `a` and `a + 1`, `b / 2^sh` above `a`, rounds as the remainder says. -/
theorem roundsInt_of_remainder {a b : ℕ} (small : b < 2 ^ sh) :
    RoundsInt r neg (a + b / 2 ^ sh) (if roundsUp r neg sh a b then a + 1 else a) := by
  have unit : (0 : ℝ) < 2 ^ sh := by positivity
  set f : ℝ := b / 2 ^ sh with hf
  have nonneg : 0 ≤ f := by positivity
  have below : f < 1 := (div_lt_one unit).mpr (by exact_mod_cast small)
  have zero_iff : b = 0 ↔ f = 0 := by
    rw [hf, div_eq_zero_iff]
    simp
  have half : ∀ c : ℕ, (2 * b < c * 2 ^ sh ↔ f < c / 2) ∧ (c * 2 ^ sh < 2 * b ↔ c / 2 < f) := fun c => by
    rw [hf, div_lt_div_iff₀ unit two_pos, div_lt_div_iff₀ two_pos unit, mul_comm (b : ℝ)]
    exact ⟨by exact_mod_cast Iff.rfl, by exact_mod_cast Iff.rfl⟩
  have halfway := half 1
  rw [Nat.one_mul, Nat.cast_one] at halfway
  refine ⟨fun near => ?_, fun down => ?_, fun up => ?_⟩
  · subst near
    by_cases high : 2 ^ sh < 2 * b
    · have := halfway.2.mp high
      have up : roundsUp .rne neg sh a b = true := by simp [roundsUp, high]
      rw [if_pos up]
      push_cast
      refine ⟨abs_le.mpr ⟨by linarith, by linarith⟩, fun tie => ?_⟩
      rcases abs_eq (by norm_num : (0 : ℝ) ≤ 1 / 2) |>.mp tie with at_ | at_ <;> linarith
    · by_cases tie : 2 * b = 2 ^ sh
      · have atHalf : f = 1 / 2 := le_antisymm (not_lt.mp (mt halfway.2.mpr high)) (not_lt.mp (mt halfway.1.mpr (by omega)))
        have parity : roundsUp .rne neg sh a b = (a % 2 == 1) := by simp [roundsUp, tie]
        rw [parity, atHalf]
        by_cases odd : a % 2 = 1
        · rw [if_pos (by simp [odd])]
          push_cast
          exact ⟨abs_le.mpr ⟨by linarith, by linarith⟩, fun _ => by omega⟩
        · rw [if_neg (by simp [odd])]
          exact ⟨abs_le.mpr ⟨by linarith, by linarith⟩, fun _ => by omega⟩
      · have := halfway.1.mp (by omega)
        have stay : roundsUp .rne neg sh a b = false := by simp [roundsUp, high, tie]
        rw [if_neg (by simp [stay])]
        refine ⟨abs_le.mpr ⟨by linarith, by linarith⟩, fun tie => ?_⟩
        rcases abs_eq (by norm_num : (0 : ℝ) ≤ 1 / 2) |>.mp tie with at_ | at_ <;> linarith
  · have stay : roundsUp r neg sh a b = false := by
      rcases down with rfl | ⟨rfl, rfl⟩ | ⟨rfl, rfl⟩ <;> rfl
    rw [if_neg (by simp [stay])]
    exact ⟨by linarith, by linarith⟩
  · have rises : roundsUp r neg sh a b = (b != 0) := by
      rcases up with ⟨rfl, rfl⟩ | ⟨rfl, rfl⟩ <;> rfl
    rw [rises]
    by_cases exact_ : b = 0
    · rw [if_neg (by simp [exact_]), zero_iff.mp exact_]
      exact ⟨by linarith, by linarith⟩
    · have pos : 0 < f := lt_of_le_of_ne nonneg fun h => exact_ (zero_iff.mpr h.symm)
      rw [if_pos (by simp [exact_])]
      push_cast
      exact ⟨by linarith, by linarith⟩

theorem roundShift_rounds : RoundsInt r neg (m / 2 ^ sh) (roundShift r neg m sh) := by
  have split : (m : ℝ) / 2 ^ sh = (m / 2 ^ sh : ℕ) + (m % 2 ^ sh : ℕ) / 2 ^ sh := by
    rw [div_eq_iff (by positivity), add_mul, div_mul_cancel₀ _ (by positivity)]
    exact_mod_cast (Nat.div_add_mod' m (2 ^ sh)).symm
  rw [roundShift_eq, split]
  exact roundsInt_of_remainder r neg sh (Nat.mod_lt _ (by positivity))

/-- 2^e is 2^q some times over, where e is not below q. -/
theorem zpow_split {e q : ℤ} (le : q ≤ e) : (2 : ℝ) ^ e = 2 ^ (e - q).toNat * 2 ^ q := by
  rw [← zpow_natCast, Int.toNat_of_nonneg (by omega), ← zpow_add₀ two_ne_zero, Int.sub_add_cancel]

/-- A number rounded to a multiple of 2^q (R187). -/
theorem roundGrid_rounds : RoundsInt r neg (m * 2 ^ e / 2 ^ q) (roundGrid r neg m e q) := by
  unfold roundGrid
  by_cases exact_ : q ≤ e
  · have whole : (m : ℝ) * 2 ^ e / 2 ^ q = (m <<< (e - q).toNat : ℕ) := by
      rw [zpow_split exact_, ← mul_assoc, mul_div_assoc, div_self (by positivity), mul_one, Nat.shiftLeft_eq]
      push_cast
      rfl
    rw [if_pos exact_, whole]
    exact .of_nat ..
  · have part : (m : ℝ) * 2 ^ e / 2 ^ q = m / 2 ^ (q - e).toNat := by
      rw [zpow_split (show e ≤ q by omega), div_mul_eq_div_div, mul_div_right_comm, mul_div_assoc, div_self (by positivity), mul_one]
    rw [if_neg exact_, part]
    exact roundShift_rounds ..

theorem magGt_iff (m : ℕ) (e : ℤ) (n : ℕ) (f : ℤ) : magGt m e n f = true ↔ (n : ℝ) * 2 ^ f < m * 2 ^ e := by
  unfold magGt
  by_cases le : f ≤ e
  · rw [if_pos le, decide_eq_true_iff, zpow_split le, ← mul_assoc, mul_lt_mul_iff_left₀ (by positivity), Nat.shiftLeft_eq]
    exact_mod_cast Iff.rfl
  · rw [if_neg le, decide_eq_true_iff, zpow_split (show e ≤ f by omega), ← mul_assoc, mul_lt_mul_iff_left₀ (by positivity),
      Nat.shiftLeft_eq]
    exact_mod_cast Iff.rfl

end

end Sys2Proof.Machine
end

