-- ==== Sys2Proof/Proofs/FloatCodes.lean ====
section
/-! SUPPORT. The encodings of the floating-point formats, and rounding to them (R177, R187-R189). -/

namespace Sys2Proof.Machine

/-! ## Codes of magnitudes

The bits of an encoding below its sign count the magnitudes of a format in their order. `j · 2^mbits + k` is the code of the
magnitude `k · 2^(low + j)`, for a subnormal number, for a normal one, and for the carry of a mantissa into the exponent. -/

/-- The least exponent of a format's magnitudes. -/
def FloatSpec.low (sp : FloatSpec) : ℤ := 1 - sp.bias - sp.mbits

/-- The steps from the least exponent to that of the largest finite magnitude. -/
def FloatSpec.span (sp : FloatSpec) : ℕ := (sp.maxE - sp.low).toNat

def FloatSpec.code (sp : FloatSpec) (j k : ℕ) : ℕ := j * 2 ^ sp.mbits + k

/-- The largest finite magnitude. -/
noncomputable def FloatSpec.top (sp : FloatSpec) : ℝ := sp.maxM * 2 ^ sp.maxE

theorem floatSpec_cases {f : Fmt} {sp : FloatSpec} (h : floatSpec f = some sp) :
    (f = .f32 ∧ sp = ⟨8, 23, 127, 2 ^ 24 - 1, 104⟩) ∨ (f = .bf16 ∧ sp = ⟨8, 7, 127, 255, 120⟩) ∨
    (f = .f16 ∧ sp = ⟨5, 10, 15, 2047, 5⟩) ∨ (f = .e4m3 ∧ sp = ⟨4, 3, 7, 14, 5⟩) ∨
    (f = .e5m2 ∧ sp = ⟨5, 2, 15, 7, 13⟩) ∨ (f = .e2m1 ∧ sp = ⟨2, 1, 1, 3, 1⟩) := by
  cases f <;> simp_all [floatSpec]

/-- What the formats of Table 12.2 have in common. -/
structure FloatLayout (f : Fmt) (sp : FloatSpec) : Prop where
  bits : f.bits = sp.mbits + sp.ebits + 1
  mantissa : 1 ≤ sp.mbits ∧ sp.mbits ≤ 23
  normal : 2 ^ sp.mbits ≤ sp.maxM ∧ sp.maxM < 2 ^ (sp.mbits + 1)
  span : sp.maxE = sp.low + sp.span
  /-- A normal number is finite up to the largest one. -/
  finite : ∀ E M, E < 2 ^ sp.ebits → M < 2 ^ sp.mbits → 0 < E →
    (¬ (E = 2 ^ sp.ebits - 1 ∧ hasInf f = true) ∧ ¬ (f = .e4m3 ∧ E = 15 ∧ M = 7) ↔
      E < sp.span + 1 ∨ (E = sp.span + 1 ∧ 2 ^ sp.mbits + M ≤ sp.maxM))
  room : sp.span + 1 < 2 ^ sp.ebits
  parity : sp.maxM % 2 = 0 ↔ f = .e4m3

theorem floatLayout {f : Fmt} {sp : FloatSpec} (h : floatSpec f = some sp) : FloatLayout f sp := by
  rcases floatSpec_cases h with ⟨rfl, rfl⟩ | ⟨rfl, rfl⟩ | ⟨rfl, rfl⟩ | ⟨rfl, rfl⟩ | ⟨rfl, rfl⟩ | ⟨rfl, rfl⟩ <;>
  · refine ⟨rfl, by decide, by decide, by decide, fun E M hE hM pos => ?_, by decide, by decide⟩
    simp [hasInf, FloatSpec.span, FloatSpec.low] at hE hM ⊢
    omega

section
variable {f : Fmt} {sp : FloatSpec} {neg : Bool} {j k : ℕ}

/-- `k` times 2^(low + j) is a magnitude of the format if it is not too large: it is subnormal, or `k` has its leading bit. -/
def FloatSpec.Canon (sp : FloatSpec) (j k : ℕ) : Prop := k < 2 ^ (sp.mbits + 1) ∧ (j = 0 ∨ 2 ^ sp.mbits ≤ k)

/-- That magnitude is not above the largest finite one. -/
def FloatSpec.Within (sp : FloatSpec) (j k : ℕ) : Prop := j < sp.span ∨ (j = sp.span ∧ k ≤ sp.maxM)

theorem signBit_add (layout : FloatLayout f sp) {c : ℕ} (small : c < 2 ^ (sp.mbits + sp.ebits)) :
    (signBit sp neg + c) % 2 ^ sp.mbits = c % 2 ^ sp.mbits ∧
    (signBit sp neg + c) / 2 ^ sp.mbits % 2 ^ sp.ebits = c / 2 ^ sp.mbits ∧
    ((signBit sp neg + c) / 2 ^ (sp.mbits + sp.ebits) % 2 == 1) = neg ∧ signBit sp neg + c < 2 ^ f.bits := by
  have field : c / 2 ^ sp.mbits < 2 ^ sp.ebits := Nat.div_lt_of_lt_mul (by rwa [← pow_add])
  have swap : 2 ^ (sp.ebits + sp.mbits) = 2 ^ sp.ebits * 2 ^ sp.mbits := pow_add ..
  have wide : 2 ^ f.bits = 2 * 2 ^ (sp.mbits + sp.ebits) := by rw [layout.bits, pow_succ, mul_comm]
  cases neg with
  | false =>
    simp only [signBit, Bool.false_eq_true, if_false, Nat.zero_add]
    exact ⟨trivial, Nat.mod_eq_of_lt field, by simp [Nat.div_eq_of_lt small], by omega⟩
  | true =>
    simp only [signBit, if_true]
    refine ⟨by rw [swap, Nat.mul_add_mod_self_right], ?_, ?_, by rw [wide, Nat.add_comm sp.mbits]; rw [Nat.add_comm] at small; omega⟩
    · rw [swap, Nat.add_comm, Nat.add_mul_div_right _ _ (by positivity), Nat.add_mod_right, Nat.mod_eq_of_lt field]
    · rw [Nat.add_comm sp.ebits, Nat.add_comm, Nat.add_div_right _ (by positivity), Nat.div_eq_of_lt small]
      rfl

theorem code_lt (layout : FloatLayout f sp) (canon : sp.Canon j k) (within : sp.Within j k) :
    sp.code j k < 2 ^ (sp.mbits + sp.ebits) := by
  obtain ⟨small, -⟩ := canon
  have last : j ≤ sp.span := by rcases within with lt | ⟨eq, -⟩ <;> omega
  calc sp.code j k < j * 2 ^ sp.mbits + 2 ^ (sp.mbits + 1) := by unfold FloatSpec.code; omega
    _ = (j + 2) * 2 ^ sp.mbits := by ring
    _ ≤ 2 ^ sp.ebits * 2 ^ sp.mbits := Nat.mul_le_mul_right _ (by have := layout.room; omega)
    _ = 2 ^ (sp.mbits + sp.ebits) := by ring

/-- The mantissa and exponent fields of a code. -/
theorem code_fields (canon : sp.Canon j k) :
    if k < 2 ^ sp.mbits then j = 0 ∧ sp.code j k % 2 ^ sp.mbits = k ∧ sp.code j k / 2 ^ sp.mbits = 0
    else sp.code j k % 2 ^ sp.mbits = k - 2 ^ sp.mbits ∧ sp.code j k / 2 ^ sp.mbits = j + 1 := by
  obtain ⟨small, first⟩ := canon
  have unit : 0 < 2 ^ sp.mbits := by positivity
  split
  next subnormal =>
    obtain rfl : j = 0 := by omega
    simp [FloatSpec.code, Nat.mod_eq_of_lt subnormal, Nat.div_eq_of_lt subnormal]
  next normal =>
    have split : sp.code j k = (k - 2 ^ sp.mbits) + (j + 1) * 2 ^ sp.mbits := by
      rw [Nat.add_mul, FloatSpec.code]
      omega
    have rest : k - 2 ^ sp.mbits < 2 ^ sp.mbits := by rw [pow_succ] at small; omega
    rw [split, Nat.add_mul_mod_self_right, Nat.add_mul_div_right _ _ unit, Nat.mod_eq_of_lt rest, Nat.div_eq_of_lt rest]
    exact ⟨rfl, Nat.zero_add _⟩

/-- R177: the value of the code of a finite magnitude, with its sign. -/
theorem decodeFloat_code (layout : FloatLayout f sp) (canon : sp.Canon j k) (within : sp.Within j k) :
    decodeFloat f sp (signBit sp neg + sp.code j k) = .fin neg k (sp.low + j) := by
  obtain ⟨mantissa, exponent, sign, -⟩ := signBit_add (neg := neg) layout (code_lt layout canon within)
  have fields := code_fields canon
  have room := layout.room
  unfold decodeFloat
  simp only [mantissa, exponent, sign]
  split at fields
  next subnormal =>
    obtain ⟨rfl, low, high⟩ := fields
    simp [low, high, FloatSpec.low]
  next normal =>
    obtain ⟨low, high⟩ := fields
    have small := canon.1
    rw [pow_succ] at small
    have finite := (layout.finite (j + 1) (k - 2 ^ sp.mbits)
      (by rcases within with lt | ⟨eq, -⟩ <;> omega) (by omega) (by omega)).mpr
      (within.imp (by omega) fun ⟨eq, le⟩ => ⟨by omega, by omega⟩)
    rw [low, high, if_neg (by omega), if_neg (by simpa using finite.1), if_neg (by simpa using finite.2)]
    congr 1
    · omega
    · rw [FloatSpec.low]
      push_cast
      ring

/-- An encoding is a sign, an exponent field and a mantissa field. -/
theorem fields_of_bits (layout : FloatLayout f sp) {b : ℕ} (small : b < 2 ^ f.bits) :
    b = signBit sp (b / 2 ^ (sp.mbits + sp.ebits) % 2 == 1) +
      (b / 2 ^ sp.mbits % 2 ^ sp.ebits * 2 ^ sp.mbits + b % 2 ^ sp.mbits) := by
  have top : b / 2 ^ (sp.mbits + sp.ebits) < 2 := by
    rw [layout.bits, pow_succ] at small
    exact Nat.div_lt_of_lt_mul small
  have sign : signBit sp (b / 2 ^ (sp.mbits + sp.ebits) % 2 == 1) =
      b / 2 ^ (sp.mbits + sp.ebits) * 2 ^ (sp.mbits + sp.ebits) := by
    rw [signBit, Nat.add_comm sp.ebits]
    interval_cases b / 2 ^ (sp.mbits + sp.ebits) <;> simp
  have low := Nat.div_add_mod' b (2 ^ sp.mbits)
  have high := Nat.div_add_mod' (b / 2 ^ sp.mbits) (2 ^ sp.ebits)
  rw [Nat.div_div_eq_div_mul, ← pow_add] at high
  calc b = (b / 2 ^ (sp.mbits + sp.ebits) * 2 ^ sp.ebits + b / 2 ^ sp.mbits % 2 ^ sp.ebits) * 2 ^ sp.mbits + b % 2 ^ sp.mbits := by
        rw [high, low]
    _ = _ := by rw [sign, pow_add]; ring

/-- R177: an encoding of a finite number is the code of its magnitude, with its sign. -/
theorem code_of_decodeFloat (layout : FloatLayout f sp) {b m : ℕ} {e : ℤ} (small : b < 2 ^ f.bits)
    (value : decodeFloat f sp b = .fin neg m e) :
    ∃ j : ℕ, e = sp.low + j ∧ sp.Canon j m ∧ sp.Within j m ∧ b = signBit sp neg + sp.code j m := by
  have fields := fields_of_bits layout small
  have hM : b % 2 ^ sp.mbits < 2 ^ sp.mbits := Nat.mod_lt _ (by positivity)
  have hE : b / 2 ^ sp.mbits % 2 ^ sp.ebits < 2 ^ sp.ebits := Nat.mod_lt _ (by positivity)
  have normal := layout.normal
  unfold decodeFloat at value
  simp only at value
  generalize b % 2 ^ sp.mbits = M at *
  generalize b / 2 ^ sp.mbits % 2 ^ sp.ebits = E at *
  by_cases zero : E = 0
  · rw [if_pos zero] at value
    obtain ⟨rfl, rfl, rfl⟩ := Exact.fin.inj value
    refine ⟨0, by simp [FloatSpec.low], ⟨by rw [pow_succ]; omega, .inl rfl⟩, ?_, by simpa [FloatSpec.code, zero] using fields⟩
    exact (Nat.eq_zero_or_pos sp.span).elim (fun none => .inr ⟨none.symm, by omega⟩) .inl
  · rw [if_neg zero] at value
    by_cases special : E = 2 ^ sp.ebits - 1 ∧ hasInf f = true
    · rw [if_pos (by simpa using special)] at value
      split at value <;> cases value
    · rw [if_neg (by simpa using special)] at value
      by_cases nan : f = .e4m3 ∧ E = 15 ∧ M = 7
      · rw [if_pos (by simpa [and_assoc] using nan)] at value
        cases value
      · rw [if_neg (by simpa [and_assoc] using nan)] at value
        obtain ⟨rfl, rfl, rfl⟩ := Exact.fin.inj value
        have finite := (layout.finite E M hE hM (by omega)).mp ⟨special, nan⟩
        refine ⟨E - 1, ?_, ⟨by rw [pow_succ]; omega, .inr (by omega)⟩, by unfold FloatSpec.Within; omega, ?_⟩
        · rw [FloatSpec.low, Nat.cast_sub (by omega)]
          push_cast
          ring
        · obtain ⟨E, rfl⟩ := Nat.exists_eq_succ_of_ne_zero zero
          rw [Nat.succ_mul, Nat.add_assoc] at fields
          exact fields

/-! ## Codes that the model's rounding makes -/

/-- `encodeMag` gives the code of a magnitude, a carry included. -/
theorem encodeMag_code (small : k ≤ 2 ^ (sp.mbits + 1)) (first : j = 0 ∨ 2 ^ sp.mbits ≤ k) :
    encodeMag sp k (sp.low + j) = sp.code j k := by
  have twice : 2 ^ (sp.mbits + 1) = 2 ^ sp.mbits * 2 := pow_succ ..
  have unit : 0 < 2 ^ sp.mbits := by positivity
  unfold encodeMag
  split
  next subnormal =>
    obtain rfl : j = 0 := by omega
    simp [FloatSpec.code]
  next normal =>
    by_cases carry : k = 2 ^ (sp.mbits + 1)
    · have exponent : (sp.low + j + (sp.mbits + 1 : ℕ) + sp.bias).toNat = j + 2 := by
        rw [FloatSpec.low]
        push_cast
        omega
      subst carry
      simp only [Nat.log2_two_pow, exponent]
      rw [if_pos (by omega), Nat.add_sub_cancel_left, Nat.shiftRight_eq_div_pow, pow_one, twice,
        Nat.mul_div_cancel _ two_pos, Nat.sub_self, FloatSpec.code]
      ring
    · have log : Nat.log2 k = sp.mbits := (Nat.log2_eq_iff (by omega)).mpr ⟨by omega, by omega⟩
      have exponent : (sp.low + j + sp.mbits + sp.bias).toNat = j + 1 := by
        rw [FloatSpec.low]
        omega
      simp only [log, exponent]
      rw [if_pos le_rfl, Nat.sub_self, Nat.shiftRight_zero, FloatSpec.code, Nat.add_mul]
      omega

theorem zpow_low_add (sp : FloatSpec) (j : ℕ) : (2 : ℝ) ^ (sp.low + j) = 2 ^ j * 2 ^ sp.low := by
  rw [zpow_add₀ two_ne_zero, zpow_natCast, mul_comm]

/-- A magnitude of the format's grid that is not above the largest finite one is within the finite codes. -/
theorem within_of_le_top (layout : FloatLayout f sp) (first : j = 0 ∨ 2 ^ sp.mbits ≤ k)
    (le : (k : ℝ) * 2 ^ (sp.low + j) ≤ sp.top) : sp.Within j k := by
  have bound : k * 2 ^ j ≤ sp.maxM * 2 ^ sp.span := by
    rw [FloatSpec.top, layout.span, zpow_low_add, zpow_low_add, ← mul_assoc, ← mul_assoc,
      mul_le_mul_iff_left₀ (by positivity)] at le
    exact_mod_cast le
  have high := layout.normal.2
  rcases Nat.lt_trichotomy j sp.span with lt | rfl | gt
  · exact .inl lt
  · exact .inr ⟨rfl, Nat.le_of_mul_le_mul_right bound (by positivity)⟩
  · exfalso
    have := calc sp.maxM * 2 ^ sp.span < 2 ^ (sp.mbits + 1) * 2 ^ sp.span := Nat.mul_lt_mul_of_pos_right high (by positivity)
      _ = 2 ^ sp.mbits * 2 ^ (sp.span + 1) := by ring
      _ ≤ k * 2 ^ j := Nat.mul_le_mul (by omega) (Nat.pow_le_pow_right two_pos gt)
    omega

theorem le_top_of_within (layout : FloatLayout f sp) (small : k < 2 ^ (sp.mbits + 1)) (within : sp.Within j k) :
    (k : ℝ) * 2 ^ (sp.low + j) ≤ sp.top := by
  have bound : k * 2 ^ j ≤ sp.maxM * 2 ^ sp.span := by
    rcases within with lt | ⟨rfl, le⟩
    · calc k * 2 ^ j ≤ 2 ^ (sp.mbits + 1) * 2 ^ j := Nat.mul_le_mul_right _ small.le
        _ = 2 ^ sp.mbits * 2 ^ (j + 1) := by ring
        _ ≤ sp.maxM * 2 ^ sp.span := Nat.mul_le_mul layout.normal.1 (Nat.pow_le_pow_right two_pos lt)
    · exact Nat.mul_le_mul_right _ le
  rw [FloatSpec.top, layout.span, zpow_low_add, zpow_low_add, ← mul_assoc, ← mul_assoc, mul_le_mul_iff_left₀ (by positivity)]
  exact_mod_cast bound

theorem code_carry (sp : FloatSpec) (j : ℕ) : sp.code j (2 ^ (sp.mbits + 1)) = sp.code (j + 1) (2 ^ sp.mbits) := by
  unfold FloatSpec.code
  ring

theorem decodeExact_of_float {b : ℕ} (spec : floatSpec f = some sp) : decodeExact f b = decodeFloat f sp b := by
  simp [decodeExact, spec]

/-- The code of a finite magnitude, a carry included, encodes it. -/
theorem encodes_code (spec : floatSpec f = some sp) (small : k ≤ 2 ^ (sp.mbits + 1)) (first : j = 0 ∨ 2 ^ sp.mbits ≤ k)
    (le : (k : ℝ) * 2 ^ (sp.low + j) ≤ sp.top) :
    encodes f (signBit sp neg + sp.code j k) neg (k * 2 ^ (sp.low + j)) := by
  have layout := floatLayout spec
  have canonical : ∀ {j k}, sp.Canon j k → (k : ℝ) * 2 ^ (sp.low + j) ≤ sp.top →
      encodes f (signBit sp neg + sp.code j k) neg (k * 2 ^ (sp.low + j)) := fun canon le => by
    have within := within_of_le_top layout canon.2 le
    refine ⟨(signBit_add layout (code_lt layout canon within)).2.2.2, _, _, ?_, rfl⟩
    rw [decodeExact_of_float spec, decodeFloat_code layout canon within]
  by_cases carry : k = 2 ^ (sp.mbits + 1)
  · have same : (k : ℝ) * 2 ^ (sp.low + j) = (2 ^ sp.mbits : ℕ) * 2 ^ (sp.low + (j + 1 : ℕ)) := by
      rw [carry, zpow_low_add, zpow_low_add]
      push_cast
      ring
    rw [same] at le ⊢
    rw [carry, code_carry]
    exact canonical ⟨by rw [pow_succ]; have : 0 < 2 ^ sp.mbits := by positivity
                        omega, .inr le_rfl⟩ le
  · exact canonical ⟨by omega, first⟩ le

/-- A finite magnitude of the format is on the grid of step 2^(low + j), or below the magnitudes that need that step. -/
theorem encodes_grid (spec : floatSpec f = some sp) {b : ℕ} {u : ℝ} (h : encodes f b neg u) (j : ℕ) :
    (∃ n : ℕ, u / 2 ^ (sp.low + j) = n) ∨ (0 < j ∧ u / 2 ^ (sp.low + j) < 2 ^ sp.mbits) := by
  obtain ⟨small, m, e, value, rfl⟩ := h
  rw [decodeExact_of_float spec] at value
  obtain ⟨i, rfl, ⟨bound, -⟩, -⟩ := code_of_decodeFloat (floatLayout spec) small value
  have unit : (0 : ℝ) < 2 ^ sp.low := by positivity
  rw [zpow_low_add, zpow_low_add, ← mul_assoc, mul_div_mul_right _ _ unit.ne']
  by_cases le : j ≤ i
  · refine .inl ⟨m * 2 ^ (i - j), ?_⟩
    rw [div_eq_iff (by positivity)]
    push_cast
    rw [mul_assoc, ← pow_add, Nat.sub_add_cancel le]
  · refine .inr ⟨by omega, ?_⟩
    rw [div_lt_iff₀ (by positivity)]
    have := calc m * 2 ^ i < 2 ^ (sp.mbits + 1) * 2 ^ i := Nat.mul_lt_mul_of_pos_right bound (by positivity)
      _ = 2 ^ sp.mbits * 2 ^ (i + 1) := by ring
      _ ≤ 2 ^ sp.mbits * 2 ^ j := Nat.mul_le_mul_left _ (Nat.pow_le_pow_right two_pos (by omega))
    exact_mod_cast this

theorem code_parity (layout : FloatLayout f sp) : (signBit sp neg + sp.code j k) % 2 = k % 2 := by
  obtain ⟨n, hn⟩ := Nat.exists_eq_add_of_le' layout.mantissa.1
  have even : ∀ a, 2 ^ sp.mbits * a % 2 = 0 := fun a => by rw [hn, pow_succ, mul_right_comm]; omega
  have sign : signBit sp neg % 2 = 0 := by
    unfold signBit
    split
    · rw [Nat.add_comm, pow_add]
      exact even _
    · rfl
  have := even j
  rw [mul_comm] at this
  unfold FloatSpec.code
  omega

end

end Sys2Proof.Machine
end

