-- ==== Sys2Proof/Proofs/FloatRounding.lean ====
section
/-! SUPPORT. The model's rounding to a floating-point format is that of R187 and R188. -/

namespace Sys2Proof.Machine

/-- Two numbers that every half of an integer separates alike. -/
def SamePlace (x y : ℝ) : Prop := (∀ n : ℤ, y < n / 2 ↔ x < n / 2) ∧ ∀ n : ℤ, n / 2 < y ↔ n / 2 < x

theorem SamePlace.refl (x : ℝ) : SamePlace x x := ⟨fun _ => Iff.rfl, fun _ => Iff.rfl⟩

theorem SamePlace.lt_nat {x y : ℝ} (h : SamePlace x y) (n : ℕ) : y < n ↔ x < n := by
  have := h.1 (2 * n)
  push_cast at this
  rwa [mul_div_cancel_left₀ _ two_ne_zero] at this

theorem RoundsInt.of_samePlace {r : Rnd} {neg : Bool} {x y : ℝ} {k : ℕ} (h : RoundsInt r neg x k) (same : SamePlace x y) :
    RoundsInt r neg y k := h.congr same.1 same.2

/-! ## Neighbours on the grid -/

section
variable {f : Fmt} {sp : FloatSpec} {r : Rnd} {neg : Bool} {V : ℝ} {j k : ℕ}

/-- The step 2^(low + j) is the one for a magnitude: no smaller step has so few digits left, and no larger one is needed. -/
structure StepFor (sp : FloatSpec) (j : ℕ) (x : ℝ) : Prop where
  small : x < 2 ^ (sp.mbits + 1)
  first : j = 0 ∨ 2 ^ sp.mbits ≤ x

theorem StepFor.rounded (step : StepFor sp j V) (rounds : RoundsInt r neg V k) :
    k ≤ 2 ^ (sp.mbits + 1) ∧ (j = 0 ∨ 2 ^ sp.mbits ≤ k) :=
  ⟨rounds.le (by exact_mod_cast step.small.le), step.first.imp_right fun le => rounds.ge (by exact_mod_cast le)⟩

/-- A rounded magnitude is the nearest of all that are on the grid or below the magnitudes that need its step (R187). -/
theorem RoundsInt.neighbour {x U : ℝ} (rounds : RoundsInt r neg x k) (step : StepFor sp j x)
    (grid : (∃ n : ℕ, U = n) ∨ (0 < j ∧ U < 2 ^ sp.mbits)) :
    (r = .rne → |k - x| ≤ |U - x| ∧ (U ≠ k → |k - x| = |U - x| → k % 2 = 0)) ∧
    (roundsInward r neg → U ≤ x → U ≤ k) ∧ (roundsOutward r neg → x ≤ U → k ≤ U) := by
  have onGrid : ∀ n : ℕ, r = .rne → |k - x| ≤ |n - x| ∧ ((n : ℝ) ≠ k → |k - x| = |n - x| → k % 2 = 0) := fun n near => by
    obtain ⟨close, tie⟩ := rounds.nearest near
    by_cases same : n = k
    · subst same
      exact ⟨le_rfl, fun ne => absurd rfl ne⟩
    · have apart : (1 : ℝ) ≤ |(n : ℝ) - k| := by
        have : (1 : ℤ) ≤ |(n : ℤ) - k| := Int.one_le_abs (by omega)
        exact_mod_cast this
      have far : |(n : ℝ) - k| ≤ |n - x| + |k - x| := by
        calc |(n : ℝ) - k| = |(n - x) - (k - x)| := by ring_nf
          _ ≤ _ := abs_sub _ _
      exact ⟨by linarith, fun _ eq => tie (by linarith)⟩
  rcases grid with ⟨n, rfl⟩ | ⟨pos, below⟩
  · refine ⟨onGrid n, fun inward le => ?_, fun outward le => ?_⟩
    · have : (n : ℝ) < k + 1 := by linarith [(rounds.down inward).2]
      exact_mod_cast Nat.lt_succ_iff.mp (by exact_mod_cast this)
    · have : (k : ℝ) < n + 1 := by linarith [(rounds.up outward).2]
      exact_mod_cast Nat.lt_succ_iff.mp (by exact_mod_cast this)
  · have high : (2 : ℝ) ^ sp.mbits ≤ x := step.first.resolve_left (by omega)
    have high' : (2 : ℝ) ^ sp.mbits ≤ k := by exact_mod_cast (step.rounded rounds).2.resolve_left (by omega)
    refine ⟨fun near => ?_, fun _ _ => by linarith, fun _ le => by linarith⟩
    have closer := (onGrid (2 ^ sp.mbits) near).1
    push_cast at closer
    rw [abs_of_nonpos (show (2 : ℝ) ^ sp.mbits - x ≤ 0 by linarith)] at closer
    rw [abs_of_neg (show U - x < 0 by linarith)]
    exact ⟨by linarith, fun _ eq => by linarith⟩

/-- The result of rounding to a floating-point format with the step 2^(low + j), where `k` is the rounded multiple of it. -/
def FloatSpec.pack (f : Fmt) (sp : FloatSpec) (r : Rnd) (sat neg : Bool) (j k : ℕ) : ℕ :=
  if magGt k (sp.low + j) sp.maxM sp.maxE then
    if sat then encodeMax sp neg
    else if overflowsToInf r neg then encodeInf f sp neg false
    else encodeMax sp neg
  else signBit sp neg + encodeMag sp k (sp.low + j)

/-- Table 12.2: the largest magnitude of a format, half the step there, and its encodings, are those of the model. -/
theorem floatTop_eq (spec : floatSpec f = some sp) {top half : ℝ} {big inf : ℕ}
    (tops : floatTop f = some (top, big, inf, half)) :
    top = sp.top ∧ half = 2 ^ sp.maxE / 2 ∧ (∀ neg, encodeMax sp neg = withSign f big neg) ∧
    ∀ neg, encodeInf f sp neg false = withSign f inf neg := by
  rcases floatSpec_cases spec with ⟨rfl, rfl⟩ | ⟨rfl, rfl⟩ | ⟨rfl, rfl⟩ | ⟨rfl, rfl⟩ | ⟨rfl, rfl⟩ | ⟨rfl, rfl⟩ <;>
  · simp only [floatTop, Option.some.injEq, Prod.mk.injEq] at tops
    obtain ⟨rfl, rfl, rfl, rfl⟩ := tops
    exact ⟨by norm_num [FloatSpec.top], by norm_num, by decide, by decide⟩

theorem scale_step (j : ℕ) (V : ℝ) : V = V / 2 ^ (sp.low + j) * 2 ^ (sp.low + j) := (div_mul_cancel₀ _ (by positivity)).symm

/-- The largest finite magnitude is itself encoded. -/
theorem encodes_top (spec : floatSpec f = some sp) (neg : Bool) :
    encodes f (signBit sp neg + sp.code sp.span sp.maxM) neg sp.top := by
  have layout := floatLayout spec
  have := encodes_code (neg := neg) (j := sp.span) spec layout.normal.2.le (.inr layout.normal.1)
    (by rw [← layout.span]; exact le_rfl)
  rwa [← layout.span] at this

theorem encodeMax_code (spec : floatSpec f = some sp) (neg : Bool) :
    encodeMax sp neg = signBit sp neg + sp.code sp.span sp.maxM := by
  have layout := floatLayout spec
  rw [encodeMax, ← encodeMag_code layout.normal.2.le (.inr layout.normal.1), ← layout.span]

/-- R187: up to the largest finite magnitude, the result encodes the neighbour that the mode names. -/
theorem pack_within (spec : floatSpec f = some sp) (sat : Bool) (step : StepFor sp j (V / 2 ^ (sp.low + j)))
    (rounds : RoundsInt r neg (V / 2 ^ (sp.low + j)) k) (le : V ≤ sp.top) :
    ∃ v, encodes f (sp.pack f r sat neg j k) neg v ∧
      (r = .rne → ∀ b u, encodes f b neg u → |v - V| ≤ |u - V| ∧ (u ≠ v → |v - V| = |u - V| → sp.pack f r sat neg j k % 2 = 0)) ∧
      (roundsInward r neg → v ≤ V ∧ ∀ b u, encodes f b neg u → u ≤ V → u ≤ v) ∧
      (roundsOutward r neg → V ≤ v ∧ ∀ b u, encodes f b neg u → V ≤ u → v ≤ u) := by
  set q : ℤ := sp.low + j with hq
  have unit : (0 : ℝ) < 2 ^ q := by positivity
  obtain ⟨small, first⟩ := step.rounded rounds
  have notAbove : (k : ℝ) * 2 ^ q ≤ sp.top := by
    rw [← le_div_iff₀ unit]
    have le' : V / 2 ^ q ≤ sp.top / 2 ^ q := div_le_div_of_nonneg_right le unit.le
    rcases encodes_grid spec (encodes_top spec neg) j with ⟨n, hn⟩ | ⟨pos, below⟩
    · rw [← hq] at hn
      rw [hn] at le' ⊢
      exact_mod_cast rounds.le le'
    · have := step.first.resolve_left (by omega)
      linarith
  have inRange : sp.pack f r sat neg j k = signBit sp neg + sp.code j k := by
    rw [FloatSpec.pack, ← hq, if_neg (by rw [magGt_iff]; exact not_lt.mpr notAbove), hq, encodeMag_code small first]
  have scaled : ∀ u : ℝ, u - V = (u / 2 ^ q - V / 2 ^ q) * 2 ^ q := fun u => by rw [← sub_div, div_mul_cancel₀ _ unit.ne']
  have atK : (k : ℝ) * 2 ^ q / 2 ^ q = k := mul_div_cancel_right₀ _ unit.ne'
  have neighbour := fun b u (h : encodes f b neg u) => rounds.neighbour step (encodes_grid spec h j)
  rw [inRange, code_parity (floatLayout spec)]
  refine ⟨_, encodes_code spec small first notAbove, fun near b u h => ?_, fun inward => ⟨?_, fun b u h le => ?_⟩,
    fun outward => ⟨?_, fun b u h le => ?_⟩⟩
  · obtain ⟨close, tie⟩ := (neighbour b u h).1 near
    rw [← hq, scaled u, scaled (k * 2 ^ q), atK, abs_mul, abs_mul, mul_le_mul_iff_left₀ (abs_pos.mpr unit.ne'),
      mul_left_inj' (abs_pos.mpr unit.ne').ne', Ne, ← div_eq_iff unit.ne']
    exact ⟨close, tie⟩
  · exact (le_div_iff₀ unit).mp (rounds.down inward).1
  · exact (div_le_iff₀ unit).mp ((neighbour b u h).2.1 inward (div_le_div_of_nonneg_right le unit.le))
  · exact (div_le_iff₀ unit).mp (rounds.up outward).1
  · exact (le_div_iff₀ unit).mp ((neighbour b u h).2.2 outward (div_le_div_of_nonneg_right le unit.le))

/-- Beyond the largest finite magnitude the step is that of the largest magnitude, or a larger one. -/
theorem span_le_of_top_lt (spec : floatSpec f = some sp) (step : StepFor sp j (V / 2 ^ (sp.low + j))) (above : sp.top < V) :
    sp.span ≤ j := by
  have layout := floatLayout spec
  by_contra! lt
  have unit : (0 : ℝ) < 2 ^ (sp.low + j) := by positivity
  have : V ≤ sp.top := calc
    V ≤ (2 ^ (sp.mbits + 1) : ℝ) * 2 ^ (sp.low + j) := ((div_lt_iff₀ unit).mp step.small).le
    _ = 2 ^ sp.mbits * 2 ^ (j + 1) * 2 ^ sp.low := by rw [zpow_low_add]; ring
    _ ≤ sp.maxM * 2 ^ sp.span * 2 ^ sp.low := by
      gcongr
      · exact_mod_cast layout.normal.1
      · norm_num
      · exact lt
    _ = sp.top := by rw [FloatSpec.top, layout.span, zpow_low_add, mul_assoc]
  linarith

/-- With a larger step than that of the largest magnitude, the rounded magnitude is beyond it by more than half of that step. -/
theorem overflow_of_span_lt (spec : floatSpec f = some sp) (first : (2 : ℝ) ^ sp.mbits ≤ V / 2 ^ (sp.low + j))
    (lt : sp.span < j) : sp.top + 2 ^ sp.maxE / 2 < V := by
  have layout := floatLayout spec
  have unit : (0 : ℝ) < 2 ^ (sp.low + sp.span) := by positivity
  have high : (sp.maxM : ℝ) + 1 ≤ 2 ^ (sp.mbits + 1) := by exact_mod_cast layout.normal.2
  calc sp.top + 2 ^ sp.maxE / 2 = (sp.maxM + 1 / 2) * 2 ^ (sp.low + sp.span) := by rw [FloatSpec.top, layout.span]; ring
    _ < 2 ^ (sp.mbits + 1) * 2 ^ (sp.low + sp.span) := by gcongr; linarith
    _ = 2 ^ sp.mbits * 2 ^ (sp.span + 1) * 2 ^ sp.low := by rw [zpow_low_add]; ring
    _ ≤ 2 ^ sp.mbits * 2 ^ j * 2 ^ sp.low := by gcongr <;> [norm_num; exact lt]
    _ = 2 ^ sp.mbits * 2 ^ (sp.low + j) := by rw [zpow_low_add, mul_assoc]
    _ ≤ V := (le_div_iff₀ (by positivity)).mp first

/-- R188: when the result is the largest finite magnitude although the number is beyond it. -/
def FallsBack (f : Fmt) (sp : FloatSpec) (r : Rnd) (V : ℝ) : Prop :=
  r = .rne ∧ (V < sp.top + 2 ^ sp.maxE / 2 ∨ (V = sp.top + 2 ^ sp.maxE / 2 ∧ f = .e4m3))

theorem overflowsToInf_iff : overflowsToInf r neg = true ↔ ¬ roundsInward r neg := by
  cases r <;> cases neg <;> simp [overflowsToInf, roundsInward]

/-- A number beyond the largest finite magnitude that is rounded with the step there: whether it falls back to that magnitude
is told by the rounded multiple. -/
theorem fallsBack_iff_le (spec : floatSpec f = some sp) {x : ℝ} (rounds : RoundsInt .rne neg x k) :
    FallsBack f sp .rne (x * 2 ^ sp.maxE) ↔ k ≤ sp.maxM := by
  have layout := floatLayout spec
  have unit : (0 : ℝ) < 2 ^ sp.maxE := by positivity
  have edge : sp.top + 2 ^ sp.maxE / 2 = (sp.maxM + 1 / 2) * 2 ^ sp.maxE := by rw [FloatSpec.top]; ring
  obtain ⟨close, tie⟩ := rounds.nearest rfl
  obtain ⟨low, high⟩ := abs_le.mp close
  rw [FallsBack, edge, mul_lt_mul_iff_left₀ unit, mul_left_inj' unit.ne', ← layout.parity]
  constructor
  · rintro ⟨-, lt | ⟨eq, even⟩⟩
    · have : (k : ℝ) < sp.maxM + 1 := by linarith
      exact Nat.lt_succ_iff.mp (by exact_mod_cast this)
    · by_contra! gt
      have le : (k : ℝ) ≤ sp.maxM + 1 := by linarith
      have next : k = sp.maxM + 1 := le_antisymm (by exact_mod_cast le) gt
      have odd := tie (by rw [next, eq]; push_cast; norm_num)
      omega
  · intro le
    have le' : (k : ℝ) ≤ sp.maxM := by exact_mod_cast le
    refine ⟨rfl, (lt_or_eq_of_le (show x ≤ sp.maxM + 1 / 2 by linarith)).imp_right fun eq => ⟨eq, ?_⟩⟩
    have ge : (sp.maxM : ℝ) ≤ k := by linarith
    have same : k = sp.maxM := le_antisymm le (by exact_mod_cast ge)
    have even := tie (by rw [same, eq]; norm_num)
    omega

/-- The rounded multiple of a number beyond the largest finite magnitude: beyond it too, and then not to fall back to nearest;
or that magnitude, and then to fall back to nearest. -/
theorem rounded_beyond (spec : floatSpec f = some sp) (step : StepFor sp j (V / 2 ^ (sp.low + j)))
    (rounds : RoundsInt r neg (V / 2 ^ (sp.low + j)) k) (above : sp.top < V) :
    if magGt k (sp.low + j) sp.maxM sp.maxE = true then ¬ FallsBack f sp r V
    else j = sp.span ∧ k = sp.maxM ∧ (roundsInward r neg ∨ FallsBack f sp r V) := by
  have layout := floatLayout spec
  have unit : (0 : ℝ) < 2 ^ (sp.low + j) := by positivity
  rcases Nat.lt_or_eq_of_le (span_le_of_top_lt spec step above) with larger | atTop
  · have high := step.first.resolve_left (by omega)
    have beyond := overflow_of_span_lt spec high larger
    have rounded := overflow_of_span_lt (V := k * 2 ^ (sp.low + j)) spec
      (by rw [mul_div_cancel_right₀ _ unit.ne']; exact_mod_cast (step.rounded rounds).2.resolve_left (by omega)) larger
    rw [if_pos (by rw [magGt_iff, ← FloatSpec.top]; linarith [show (0 : ℝ) < 2 ^ sp.maxE by positivity])]
    rintro ⟨-, lt | ⟨eq, -⟩⟩ <;> linarith
  · have maxE : sp.low + j = sp.maxE := by rw [← atTop]; exact layout.span.symm
    rw [maxE] at rounds unit ⊢
    have beyond : (sp.maxM : ℝ) < V / 2 ^ sp.maxE := (lt_div_iff₀ unit).mpr above
    have falls := fun near : r = .rne => fallsBack_iff_le spec (near ▸ rounds)
    rw [div_mul_cancel₀ _ unit.ne'] at falls
    have gt_iff : magGt k sp.maxE sp.maxM sp.maxE = true ↔ sp.maxM < k := by
      rw [magGt_iff, mul_lt_mul_iff_left₀ unit, Nat.cast_lt]
    split
    next isOver =>
      intro back
      obtain rfl := back.1
      exact absurd (gt_iff.mp isOver) (not_lt.mpr ((falls rfl).mp back))
    next within =>
      have le : k ≤ sp.maxM := not_lt.mp (mt gt_iff.mpr within)
      refine ⟨atTop.symm, le_antisymm le (rounds.ge beyond.le), ?_⟩
      rcases mode_cases r neg with rfl | inward | outward
      · exact .inr ((falls rfl).mpr le)
      · exact .inl inward
      · have : (k : ℝ) ≤ sp.maxM := by exact_mod_cast le
        linarith [(rounds.up outward).1]

/-- R188: beyond the largest finite magnitude, the result is what the mode and saturation give. -/
theorem pack_overflow (spec : floatSpec f = some sp) (sat : Bool) (step : StepFor sp j (V / 2 ^ (sp.low + j)))
    (rounds : RoundsInt r neg (V / 2 ^ (sp.low + j)) k) (above : sp.top < V) :
    (sat = true ∨ roundsInward r neg ∨ FallsBack f sp r V → sp.pack f r sat neg j k = encodeMax sp neg) ∧
    (¬ (sat = true ∨ roundsInward r neg ∨ FallsBack f sp r V) → sp.pack f r sat neg j k = encodeInf f sp neg false) := by
  have beyond := rounded_beyond spec step rounds above
  obtain ⟨small, first⟩ := step.rounded rounds
  unfold FloatSpec.pack
  split at beyond
  next isOver =>
    rw [if_pos isOver]
    cases sat with
    | true => simp
    | false =>
      by_cases inward : roundsInward r neg
      · simp [inward, overflowsToInf_iff]
      · simp [inward, overflowsToInf_iff, beyond]
  next notOver =>
    obtain ⟨rfl, rfl, back⟩ := beyond
    rw [if_neg notOver, encodeMag_code small first, encodeMax_code spec]
    exact ⟨fun _ => rfl, fun no => absurd (.inr back) no⟩

/-- R187 and R188: the packed result is the rounded number. -/
theorem pack_roundsTo (spec : floatSpec f = some sp) (sat : Bool) (step : StepFor sp j (V / 2 ^ (sp.low + j)))
    (rounds : RoundsInt r neg (V / 2 ^ (sp.low + j)) k) : RoundsTo f r sat neg V (sp.pack f r sat neg j k) := by
  intro top big inf half tops
  obtain ⟨rfl, rfl, max, infinity⟩ := floatTop_eq spec tops
  refine ⟨pack_within spec sat step rounds, fun above => ?_⟩
  rw [← max, ← infinity]
  obtain ⟨back, on⟩ := pack_overflow spec sat step rounds above
  intro fallsBack
  split
  next cond => exact back cond
  next cond => exact on cond

end

/-! ## `round_fmt` -/

section
variable {f : Fmt} {sp : FloatSpec}

/-- The steps from the least exponent to that of the step for a magnitude. -/
def FloatSpec.stepOf (sp : FloatSpec) (m : ℕ) (e : ℤ) : ℕ := (max sp.low (Nat.log2 m + e - sp.mbits) - sp.low).toNat

theorem roundFloat_pack (r : Rnd) (sat neg : Bool) {m : ℕ} (e : ℤ) (pos : m ≠ 0) :
    roundFloat f sp (.fin neg m e) r sat =
      sp.pack f r sat neg (sp.stepOf m e) (roundGrid r neg m e (sp.low + sp.stepOf m e)) := by
  have step : max (1 - sp.bias - sp.mbits) (Nat.log2 m + e - sp.mbits) = sp.low + sp.stepOf m e := by
    rw [FloatSpec.stepOf, FloatSpec.low]
    omega
  simp only [roundFloat, if_neg pos, step, FloatSpec.pack]

theorem two_zpow_log2_le {m : ℕ} (e : ℤ) (pos : m ≠ 0) :
    (2 : ℝ) ^ (Nat.log2 m + e) ≤ m * 2 ^ e ∧ m * 2 ^ e < (2 : ℝ) ^ (Nat.log2 m + e + 1) := by
  have low : (2 : ℝ) ^ Nat.log2 m ≤ m := by exact_mod_cast Nat.log2_self_le pos
  have high : (m : ℝ) < 2 ^ (Nat.log2 m + 1) := by exact_mod_cast Nat.lt_log2_self
  constructor
  · rw [zpow_add₀ two_ne_zero, zpow_natCast]
    gcongr
  · rw [show (Nat.log2 m + e + 1 : ℤ) = ((Nat.log2 m + 1 : ℕ) : ℤ) + e by push_cast; ring, zpow_add₀ two_ne_zero, zpow_natCast]
    gcongr

theorem stepFor_stepOf {m : ℕ} (e : ℤ) (pos : m ≠ 0) :
    StepFor sp (sp.stepOf m e) (m * 2 ^ e / 2 ^ (sp.low + sp.stepOf m e)) := by
  obtain ⟨low, high⟩ := two_zpow_log2_le e pos
  have unit : (0 : ℝ) < 2 ^ (sp.low + sp.stepOf m e) := by positivity
  constructor
  · rw [div_lt_iff₀ unit, ← zpow_natCast, ← zpow_add₀ two_ne_zero]
    refine high.trans_le (zpow_le_zpow_right₀ one_le_two ?_)
    rw [FloatSpec.stepOf]
    push_cast
    omega
  · refine (Nat.eq_zero_or_pos _).imp_right fun positive => ?_
    rw [le_div_iff₀ unit, ← zpow_natCast, ← zpow_add₀ two_ne_zero]
    refine le_trans (zpow_le_zpow_right₀ one_le_two ?_) low
    unfold FloatSpec.stepOf at positive ⊢
    omega

/-- R187 and R188: a number in the same place among the halves of steps as the one that the model rounds, rounds the same. -/
theorem roundFloat_roundsTo (spec : floatSpec f = some sp) (r : Rnd) (sat neg : Bool) {m : ℕ} {e : ℤ} {V : ℝ}
    (zero : m = 0 → V = 0)
    (same : m ≠ 0 → SamePlace (m * 2 ^ e / 2 ^ (sp.low + sp.stepOf m e)) (V / 2 ^ (sp.low + sp.stepOf m e))) :
    RoundsTo f r sat neg V (roundFloat f sp (.fin neg m e) r sat) := by
  by_cases none : m = 0
  · have packed : roundFloat f sp (.fin neg m e) r sat = sp.pack f r sat neg 0 0 := by
      have inRange : ¬ magGt 0 (sp.low + (0 : ℕ)) sp.maxM sp.maxE = true := by
        rw [magGt_iff, Nat.cast_zero, zero_mul]
        exact not_lt.mpr (by positivity)
      rw [FloatSpec.pack, if_neg inRange, encodeMag_code (by positivity) (.inl rfl)]
      simp [roundFloat, none, FloatSpec.code]
    rw [packed, zero none]
    refine pack_roundsTo spec sat ⟨?_, .inl rfl⟩ ?_
    · rw [zero_div]
      positivity
    · simpa using RoundsInt.of_nat r neg 0
  · have place := same none
    rw [roundFloat_pack r sat neg e none]
    have step := stepFor_stepOf (sp := sp) e none
    refine pack_roundsTo spec sat ⟨?_, step.first.imp_right fun le => ?_⟩ ((roundGrid_rounds ..).of_samePlace place)
    · have := (place.lt_nat (2 ^ (sp.mbits + 1))).mpr (by exact_mod_cast step.small)
      exact_mod_cast this
    · have := mt (place.lt_nat (2 ^ sp.mbits)).mp (not_lt.mpr (by exact_mod_cast le))
      exact_mod_cast not_lt.mp this

theorem roundFmt_of_float (spec : floatSpec f = some sp) (x : Exact) (r : Rnd) (sat : Bool) :
    roundFmt f x r sat = roundFloat f sp x r sat := by
  simp [roundFmt, spec]

end

end Sys2Proof.Machine
end

