-- ==== Sys2Proof/Proofs/RoundingAndExactness.lean ====
section
/-! The values of encodings, rounding to integers, exact arithmetic, and the obligation on rounding (R177, R187-R190). -/

namespace Sys2Proof.Machine

/-! ## The fields of an encoding (R177) -/

theorem floatSpec_of_fields {f : Fmt} {eb mb : ℕ} {B : ℤ} (fields : floatFields f = some (eb, mb, B)) :
    ∃ sp, floatSpec f = some sp ∧ sp.ebits = eb ∧ sp.mbits = mb ∧ sp.bias = B ∧
      (hasInf f = true ↔ f ≠ .e2m1 ∧ f ≠ .e4m3) ∧ (f = .e4m3 → eb = 4) := by
  cases f <;> simp_all [floatFields, floatSpec, hasInf]

/-- An encoding with a sign, an exponent field and a mantissa field decodes by its fields. -/
theorem decodeExact_fields {f : Fmt} {sp : FloatSpec} (spec : floatSpec f = some sp) (neg : Bool) {E M : ℕ}
    (hM : M < 2 ^ sp.mbits) (hE : E < 2 ^ sp.ebits) :
    decodeExact f ((if neg then 2 ^ (sp.ebits + sp.mbits) else 0) + E * 2 ^ sp.mbits + M) =
      if E = 0 then .fin neg M (1 - sp.bias - sp.mbits)
      else if E = 2 ^ sp.ebits - 1 ∧ hasInf f = true then (if M = 0 then .inf neg else .nan)
      else if f = .e4m3 ∧ E = 15 ∧ M = 7 then .nan
      else .fin neg (2 ^ sp.mbits + M) (E - sp.bias - sp.mbits) := by
  have small : E * 2 ^ sp.mbits + M < 2 ^ (sp.mbits + sp.ebits) := calc
    E * 2 ^ sp.mbits + M < (E + 1) * 2 ^ sp.mbits := by rw [Nat.add_mul]; omega
    _ ≤ 2 ^ sp.ebits * 2 ^ sp.mbits := Nat.mul_le_mul_right _ hE
    _ = 2 ^ (sp.mbits + sp.ebits) := by ring
  obtain ⟨mantissa, exponent, sign, -⟩ := signBit_add (neg := neg) (floatLayout spec) small
  rw [Nat.mul_add_mod_self_right, Nat.mod_eq_of_lt hM] at mantissa
  rw [Nat.add_comm (E * _), Nat.add_mul_div_right _ _ (by positivity), Nat.div_eq_of_lt hM, Nat.zero_add,
    Nat.add_comm M] at exponent
  rw [decodeExact_of_float spec, Nat.add_assoc, ← signBit]
  simp only [decodeFloat, mantissa, exponent, sign, Bool.and_eq_true, decide_eq_true_iff, and_assoc]

/-! ## Rounding to integers (R190) -/

/-- A magnitude with a sign. -/
def signedInt (neg : Bool) (k : ℕ) : ℤ := if neg then -k else k

theorem toInt_fin (r : Rnd) (neg : Bool) (m : ℕ) (e : ℤ) :
    (Exact.fin neg m e).toInt r = signedInt neg (roundGrid r neg m e 0) := rfl

/-- The integer that a mode rounds a signed number to. -/
theorem signedInt_rounds {r : Rnd} {neg : Bool} {x : ℝ} {k : ℕ} (rounds : RoundsInt r neg x k) :
    (r = .rdn → signedInt neg k = ⌊(if neg then -1 else 1) * x⌋) ∧
    (r = .rup → signedInt neg k = ⌈(if neg then -1 else 1) * x⌉) ∧
    (r = .rtz → signedInt neg k = if neg then ⌈(if neg then -1 else 1) * x⌉ else ⌊(if neg then -1 else 1) * x⌋) ∧
    (r = .rne → |(signedInt neg k : ℝ) - (if neg then -1 else 1) * x| ≤ 1 / 2 ∧
      (|(signedInt neg k : ℝ) - (if neg then -1 else 1) * x| = 1 / 2 → signedInt neg k % 2 = 0)) := by
  cases neg with
  | false =>
    simp only [signedInt, Bool.false_eq_true, if_false, one_mul, Int.cast_natCast]
    refine ⟨fun mode => ?_, fun mode => ?_, fun mode => ?_, fun mode => ?_⟩
    · obtain ⟨low, high⟩ := rounds.down (.inr (.inl ⟨mode, rfl⟩))
      exact (Int.floor_eq_iff.mpr ⟨low, high⟩).symm
    · obtain ⟨low, high⟩ := rounds.up (.inr ⟨mode, rfl⟩)
      exact (Int.ceil_eq_iff.mpr ⟨by push_cast; linarith, low⟩).symm
    · obtain ⟨low, high⟩ := rounds.down (.inl mode)
      exact (Int.floor_eq_iff.mpr ⟨low, high⟩).symm
    · obtain ⟨close, tie⟩ := rounds.nearest mode
      exact ⟨close, fun eq => by exact_mod_cast tie eq⟩
  | true =>
    simp only [signedInt, if_true, neg_one_mul, Int.cast_neg, Int.cast_natCast]
    refine ⟨fun mode => ?_, fun mode => ?_, fun mode => ?_, fun mode => ?_⟩
    · obtain ⟨low, high⟩ := rounds.up (.inl ⟨mode, rfl⟩)
      exact (Int.floor_eq_iff.mpr ⟨by push_cast; linarith, by push_cast; linarith⟩).symm
    · obtain ⟨low, high⟩ := rounds.down (.inr (.inr ⟨mode, rfl⟩))
      exact (Int.ceil_eq_iff.mpr ⟨by push_cast; linarith, by push_cast; linarith⟩).symm
    · obtain ⟨low, high⟩ := rounds.down (.inl mode)
      exact (Int.ceil_eq_iff.mpr ⟨by push_cast; linarith, by push_cast; linarith⟩).symm
    · obtain ⟨close, tie⟩ := rounds.nearest mode
      rw [← abs_neg, show -(-(k : ℝ) - -x) = k - x by ring]
      exact ⟨close, fun eq => by have := tie eq; omega⟩

/-- The integer formats with their ranges (R179). -/
def intRange (f : Fmt) (lo hi : ℤ) : Prop :=
  (f = .i8 ∧ lo = -128 ∧ hi = 127) ∨ (f = .ui8 ∧ lo = 0 ∧ hi = 255) ∨ (f = .i4 ∧ lo = -8 ∧ hi = 7) ∨
  (f = .i16 ∧ lo = -32768 ∧ hi = 32767) ∨ (f = .i32 ∧ lo = -2147483648 ∧ hi = 2147483647)

/-- R190: rounding to an integer format keeps the rounded value within the range. -/
theorem decodeInt_roundFmt {f : Fmt} {lo hi : ℤ} (range : intRange f lo hi) (x : Exact) (r : Rnd) (sat : Bool) :
    decodeInt f (roundFmt f x r sat) = max lo (min hi (x.toInt r)) := by
  have whole : roundFmt f x r sat = roundInt f x r := by
    rcases range with ⟨rfl, -⟩ | ⟨rfl, -⟩ | ⟨rfl, -⟩ | ⟨rfl, -⟩ | ⟨rfl, -⟩ <;> rfl
  rw [whole, roundInt]
  generalize x.toInt r = z
  rcases range with ⟨rfl, rfl, rfl⟩ | ⟨rfl, rfl, rfl⟩ | ⟨rfl, rfl, rfl⟩ | ⟨rfl, rfl, rfl⟩ | ⟨rfl, rfl, rfl⟩ <;>
  · simp [decodeInt, satInt, intSigned, ofInt, toSigned, Fmt.bits]
    omega

theorem intRange_inf {f : Fmt} {lo hi : ℤ} (range : intRange f lo hi) (neg : Bool) (r : Rnd) :
    max lo (min hi ((Exact.inf neg).toInt r)) = if neg then lo else hi := by
  rcases range with ⟨rfl, rfl, rfl⟩ | ⟨rfl, rfl, rfl⟩ | ⟨rfl, rfl, rfl⟩ | ⟨rfl, rfl, rfl⟩ | ⟨rfl, rfl, rfl⟩ <;>
    cases neg <;> rfl

/-! ## Exact sums and products (R187) -/

/-- The real number that a sign, a magnitude and an exponent stand for. -/
noncomputable def signedReal (neg : Bool) (m : ℕ) (e : ℤ) : ℝ := (if neg then -1 else 1) * ((m : ℝ) * (2 : ℝ) ^ e)

theorem scaled_real {e q : ℤ} (le : q ≤ e) (neg : Bool) (m : ℕ) :
    (scaled neg m e q : ℝ) * 2 ^ q = signedReal neg m e := by
  have lift : ((m : ℝ) * 2 ^ (e - q).toNat) * 2 ^ q = m * 2 ^ e := by rw [mul_assoc, ← zpow_split le]
  cases neg <;> simp [scaled, signedReal, Int.shiftLeft_eq, ← lift]

theorem signedReal_natAbs (t q : ℤ) : signedReal (t < 0) t.natAbs q = t * 2 ^ q := by
  rcases lt_or_ge t 0 with lt | ge
  · have : (t.natAbs : ℝ) = -t := by rw [Nat.cast_natAbs, Int.cast_abs, abs_of_neg (by exact_mod_cast lt)]
    simp [signedReal, lt, this]
  · have : (t.natAbs : ℝ) = t := by rw [Nat.cast_natAbs, Int.cast_abs, abs_of_nonneg (by exact_mod_cast ge)]
    simp [signedReal, not_lt.mpr ge, this]

theorem add_exact (r : Rnd) (a b : Bool) (m n : ℕ) (e f : ℤ) :
    ∃ c k g, Exact.add r (.fin a m e) (.fin b n f) = .fin c k g ∧
      signedReal c k g = signedReal a m e + signedReal b n f ∧
      (k = 0 → c = if a = b ∧ m = 0 ∧ n = 0 then a else decide (r = .rdn)) := by
  have sum := congrArg₂ (· + ·) (scaled_real (min_le_left e f) a m) (scaled_real (min_le_right e f) b n)
  simp only [← add_mul] at sum
  by_cases zero : scaled a m e (min e f) + scaled b n f (min e f) = 0
  · refine ⟨_, _, _, by simp only [Exact.add]; exact if_pos zero, ?_, fun _ => ?_⟩
    · rw [← sum, ← Int.cast_add, zero]
      simp [signedReal]
    · have same : (a = b ∧ m = 0 ∧ n = 0) ↔ ((m = 0 ∧ n = 0) ∧ a = b) := by tauto
      simp [same, beq_eq_decide]
  · refine ⟨_, _, _, by simp only [Exact.add]; exact if_neg zero, ?_, fun none => absurd (Int.natAbs_eq_zero.mp none) zero⟩
    rw [signedReal_natAbs, ← sum, Int.cast_add]

theorem mul_exact (a b : Bool) (m n : ℕ) (e f : ℤ) :
    ∃ k g, Exact.mul (.fin a m e) (.fin b n f) = .fin (a != b) k g ∧
      signedReal (a != b) k g = signedReal a m e * signedReal b n f := by
  refine ⟨_, _, rfl, ?_⟩
  have power : (2 : ℝ) ^ (e + f) = 2 ^ e * 2 ^ f := zpow_add₀ two_ne_zero e f
  cases a <;> cases b <;> simp [signedReal, power] <;> ring

/-! ## Quotients and roots: a last bit for what is left (R187) -/

/-- `N` holds twice the number `y`, its last bit set when something of `y` is left beyond the other bits. -/
structure Sticky (N : ℕ) (y : ℝ) : Prop where
  even : N % 2 = 0 → 2 * y = N
  odd : N % 2 = 1 → |2 * y - N| < 1

theorem sticky_of_floor {a : ℕ} {y : ℝ} (low : (a : ℝ) ≤ y) (high : y < a + 1) {whole : Prop} [Decidable whole]
    (exact_ : whole ↔ y = a) : Sticky (2 * a + if whole then 0 else 1) y := by
  split
  next yes =>
    rw [exact_.mp yes]
    exact ⟨fun _ => by push_cast; ring, fun odd => by omega⟩
  next no =>
    have strict : (a : ℝ) < y := lt_of_le_of_ne low fun eq => no (exact_.mpr eq.symm)
    refine ⟨fun even => by omega, fun _ => abs_lt.mpr ⟨?_, ?_⟩⟩ <;> push_cast <;> linarith

theorem Sticky.lt_iff {N : ℕ} {y : ℝ} (sticky : Sticky N y) (z : ℤ) :
    (2 * y < 2 * z ↔ (N : ℝ) < 2 * z) ∧ (2 * (z : ℝ) < 2 * y ↔ 2 * (z : ℝ) < N) := by
  rcases Nat.mod_two_eq_zero_or_one N with even | odd
  · rw [sticky.even even]
    exact ⟨Iff.rfl, Iff.rfl⟩
  · obtain ⟨low, high⟩ := abs_lt.mp (sticky.odd odd)
    rcases lt_or_ge (N : ℤ) (2 * z) with lt | ge
    · have : (N : ℝ) + 1 ≤ 2 * z := by exact_mod_cast (show (N : ℤ) + 1 ≤ 2 * z from lt)
      exact ⟨⟨fun _ => by linarith, fun _ => by linarith⟩, fun _ => by linarith, fun _ => by linarith⟩
    · have : 2 * (z : ℝ) + 1 ≤ N := by exact_mod_cast (show 2 * z + 1 ≤ (N : ℤ) by omega)
      exact ⟨⟨fun _ => by linarith, fun _ => by linarith⟩, fun _ => by linarith, fun _ => by linarith⟩

/-- A step of at least four units does not tell a number from the one with the last bit. -/
theorem Sticky.samePlace {N : ℕ} {y : ℝ} (sticky : Sticky N y) {E q : ℤ} (coarse : E + 2 ≤ q) :
    SamePlace (N * 2 ^ E / 2 ^ q) (y * 2 ^ (E + 1) / 2 ^ q) := by
  obtain ⟨g, rfl⟩ := Int.le.dest coarse
  have step : (2 : ℝ) ^ (E + 2 + g) = 4 * 2 ^ g * 2 ^ E := by
    rw [zpow_add₀ two_ne_zero, zpow_add₀ two_ne_zero, zpow_natCast]
    norm_num
    ring
  have unit : (0 : ℝ) < 2 ^ E := by positivity
  have left : (N : ℝ) * 2 ^ E / 2 ^ (E + 2 + g) = N / (4 * 2 ^ g) := by rw [step, mul_div_mul_right _ _ unit.ne']
  have right : y * 2 ^ (E + 1) / 2 ^ (E + 2 + g) = 2 * y / (4 * 2 ^ g) := by
    rw [step, zpow_add_one₀ two_ne_zero, show y * (2 ^ E * 2) = 2 * y * 2 ^ E by ring, mul_div_mul_right _ _ unit.ne']
  have half : ∀ n : ℤ, (n : ℝ) / 2 * (4 * 2 ^ g) = 2 * ((n * 2 ^ g : ℤ) : ℝ) := fun n => by push_cast; ring
  rw [left, right]
  refine ⟨fun n => ?_, fun n => ?_⟩
  · rw [div_lt_iff₀ (by positivity), div_lt_iff₀ (by positivity), half]
    exact (sticky.lt_iff _).1
  · rw [lt_div_iff₀ (by positivity), lt_div_iff₀ (by positivity), half]
    exact (sticky.lt_iff _).2

/-- A number rounds to a floating-point format as its leading bits with a last bit for what is left do. -/
theorem Sticky.roundsTo {d : Fmt} (float : isFloat d = true) (r : Rnd) (sat neg : Bool) {N : ℕ} {y : ℝ} (sticky : Sticky N y)
    (E : ℤ) (long : N = 0 ∨ 2 ^ 25 ≤ N) : RoundsTo d r sat neg (y * 2 ^ (E + 1)) (roundFmt d (.fin neg N E) r sat) := by
  obtain ⟨sp, spec⟩ := Option.isSome_iff_exists.mp float
  rw [roundFmt_of_float spec]
  refine roundFloat_roundsTo spec r sat neg (fun zero => ?_) fun pos => sticky.samePlace ?_
  · have := sticky.even (by rw [zero])
    rw [zero, Nat.cast_zero] at this
    rw [show y = 0 by linarith, zero_mul]
  · have log : 25 ≤ Nat.log2 N := (Nat.le_log2 pos).mpr (long.resolve_left pos)
    have mantissa := (floatLayout spec).mantissa.2
    rw [FloatSpec.stepOf]
    omega

theorem sticky_div (p : ℕ) {n : ℕ} (pos : n ≠ 0) : Sticky (2 * (p / n) + if p % n = 0 then 0 else 1) (p / n) := by
  have unit : (0 : ℝ) < n := by exact_mod_cast Nat.pos_of_ne_zero pos
  refine sticky_of_floor Nat.cast_div_le ?_ ?_
  · rw [div_lt_iff₀ unit]
    rw [mul_comm]
    exact_mod_cast Nat.lt_mul_div_succ p (Nat.pos_of_ne_zero pos)
  · rw [div_eq_iff unit.ne', ← Nat.dvd_iff_mod_eq_zero]
    exact ⟨fun divides => by exact_mod_cast (Nat.div_mul_cancel divides).symm,
      fun eq => Dvd.intro_left _ (by exact_mod_cast eq.symm)⟩

/-- R187: a quotient rounds as the exact quotient does. -/
theorem div_rounds {d : Fmt} (float : isFloat d = true) (r : Rnd) (sat a b : Bool) (m n : ℕ) (e f : ℤ) (pos : n ≠ 0) :
    ∃ k g, Exact.div (.fin a m e) (.fin b n f) = .fin (a != b) k g ∧
      RoundsTo d r sat (a != b) (m * (2 : ℝ) ^ e / (n * (2 : ℝ) ^ f))
        (roundFmt d (Exact.div (.fin a m e) (.fin b n f)) r sat) := by
  set shift := 80 + Nat.log2 n with hshift
  have value : Exact.div (.fin a m e) (.fin b n f) =
      .fin (a != b) (2 * ((m <<< shift) / n) + if (m <<< shift) % n = 0 then 0 else 1) (e - f - shift - 1) := by
    simp [Exact.div, pos, hshift]
  refine ⟨_, _, value, ?_⟩
  have quotient : (m : ℝ) * 2 ^ e / (n * 2 ^ f) = ((m <<< shift : ℕ) : ℝ) / n * 2 ^ (e - f - shift - 1 + 1) := by
    rw [Int.sub_add_cancel, zpow_sub₀ two_ne_zero, zpow_sub₀ two_ne_zero, zpow_natCast, Nat.shiftLeft_eq]
    push_cast
    field_simp
  have long : m ≠ 0 → 2 ^ 25 ≤ m <<< shift / n := fun positive => by
    rw [Nat.le_div_iff_mul_le (Nat.pos_of_ne_zero pos), Nat.shiftLeft_eq]
    calc 2 ^ 25 * n ≤ 2 ^ 79 * 2 ^ (Nat.log2 n + 1) := Nat.mul_le_mul (by norm_num) Nat.lt_log2_self.le
      _ = 2 ^ shift := by rw [← pow_add, hshift]; congr 1; omega
      _ ≤ m * 2 ^ shift := Nat.le_mul_of_pos_left _ (Nat.pos_of_ne_zero positive)
  rw [value, quotient]
  refine (sticky_div _ pos).roundsTo float r sat _ _ ?_
  by_cases zero : m = 0
  · exact .inl (by simp [zero])
  · exact .inr (by have := long zero; omega)

/-- The integer square root, from the range that its bits still leave. -/
theorem isqrt_floor (v : ℕ) : ∀ n r, r * r ≤ v → v < (r + 2 ^ n) * (r + 2 ^ n) →
    isqrt v n r * isqrt v n r ≤ v ∧ v < (isqrt v n r + 1) * (isqrt v n r + 1)
  | 0, _, low, high => ⟨low, high⟩
  | n + 1, r, low, high => by
    rw [isqrt]
    split
    next fits =>
      exact isqrt_floor v n _ fits (by rwa [show r + 2 ^ n + 2 ^ n = r + 2 ^ (n + 1) by ring])
    next tooLarge => exact isqrt_floor v n r low (not_le.mp tooLarge)

theorem isqrt_bounds (v : ℕ) : let s := isqrt v (Nat.log2 v / 2 + 1) 0
    s * s ≤ v ∧ v < (s + 1) * (s + 1) := by
  refine isqrt_floor v _ 0 (Nat.zero_le _) ?_
  calc v < 2 ^ (Nat.log2 v + 1) := Nat.lt_log2_self
    _ ≤ 2 ^ (Nat.log2 v / 2 + 1 + (Nat.log2 v / 2 + 1)) := Nat.pow_le_pow_right two_pos (by omega)
    _ = _ := by rw [pow_add, Nat.zero_add]

theorem sticky_sqrt {v s : ℕ} (low : s * s ≤ v) (high : v < (s + 1) * (s + 1)) :
    Sticky (2 * s + if s * s = v then 0 else 1) (Real.sqrt v) := by
  refine sticky_of_floor (Real.le_sqrt_of_sq_le ?_) ((Real.sqrt_lt' (by positivity)).mpr ?_) ?_
  · rw [sq]
    exact_mod_cast low
  · rw [sq]
    exact_mod_cast high
  · rw [Real.sqrt_eq_iff_mul_self_eq (by positivity) (by positivity)]
    exact_mod_cast eq_comm

theorem sqrt_shifted (M sh : ℕ) (H : ℤ) :
    Real.sqrt (M * (2 : ℝ) ^ (2 * H)) = Real.sqrt ((M <<< (2 * sh) : ℕ) : ℝ) * 2 ^ (H - sh) := by
  have square : (M : ℝ) * 2 ^ (2 * H) = (M <<< (2 * sh) : ℕ) * (2 ^ (H - sh)) ^ 2 := by
    rw [Nat.shiftLeft_eq, Nat.cast_mul, Nat.cast_pow, Nat.cast_ofNat, mul_assoc, ← zpow_natCast, ← zpow_natCast, ← zpow_mul,
      ← zpow_add₀ two_ne_zero]
    congr 2
    push_cast
    ring
  rw [square, Real.sqrt_mul (by positivity), Real.sqrt_sq (by positivity)]

/-- The root of a shifted number has as many bits as half the shift. -/
theorem pow_le_root {M sh s : ℕ} (pos : M ≠ 0) (high : M <<< (2 * sh) < (s + 1) * (s + 1)) : 2 ^ sh ≤ s := by
  have large : 2 ^ sh * 2 ^ sh ≤ M <<< (2 * sh) := by
    rw [Nat.shiftLeft_eq, ← pow_add, ← two_mul]
    exact Nat.le_mul_of_pos_left _ (Nat.pos_of_ne_zero pos)
  exact Nat.lt_succ_iff.mp (lt_of_mul_self_lt_mul_self₀ (Nat.zero_le _) (large.trans_lt high))

/-- The mantissa and half the exponent that the model takes a root of. -/
theorem sqrt_even (m : ℕ) (e : ℤ) (pos : m ≠ 0) : ∃ (M : ℕ) (H : ℤ), M ≠ 0 ∧ (m : ℝ) * 2 ^ e = M * 2 ^ (2 * H) ∧
    let s := isqrt (M <<< 160) (Nat.log2 (M <<< 160) / 2 + 1) 0
    Exact.sqrt (.fin false m e) = .fin false (2 * s + if s * s = M <<< 160 then 0 else 1) (H - 80 - 1) := by
  by_cases odd : (e % 2 != 0) = true
  · refine ⟨2 * m, (e - 1) / 2, by omega, ?_, ?_⟩
    · have : 2 * ((e - 1) / 2) = e - 1 := by simp at odd; omega
      rw [this, zpow_sub_one₀ two_ne_zero]
      push_cast
      ring
    · simp only [Exact.sqrt, if_neg pos, odd, if_true, Bool.false_eq_true, if_false]
  · refine ⟨m, e / 2, pos, ?_, ?_⟩
    · have : 2 * (e / 2) = e := by simp at odd; omega
      rw [this]
    · simp only [Exact.sqrt, if_neg pos, odd, Bool.false_eq_true, if_false]

/-- R187: a square root rounds as the exact root does. -/
theorem sqrt_rounds {d : Fmt} (float : isFloat d = true) (r : Rnd) (sat a : Bool) (m : ℕ) (e : ℤ) (real : a = false ∨ m = 0) :
    ∃ k g, Exact.sqrt (.fin a m e) = .fin a k g ∧
      RoundsTo d r sat a (Real.sqrt (m * (2 : ℝ) ^ e)) (roundFmt d (Exact.sqrt (.fin a m e)) r sat) := by
  by_cases zero : m = 0
  · refine ⟨0, 0, by simp [Exact.sqrt, zero], ?_⟩
    have none : Sticky 0 0 := ⟨fun _ => by norm_num, fun odd => by omega⟩
    have := none.roundsTo float r sat a 0 (.inl rfl)
    simpa [Exact.sqrt, zero] using this
  · obtain rfl := real.resolve_right zero
    obtain ⟨M, H, pos, same, value⟩ := sqrt_even m e zero
    obtain ⟨low, high⟩ := isqrt_bounds (M <<< 160)
    generalize isqrt _ _ _ = s at low high value
    refine ⟨_, _, value, ?_⟩
    have long := pow_le_root (sh := 80) pos high
    have rounds := (sticky_sqrt low high).roundsTo float r sat false (H - 80 - 1)
      (.inr ((show 2 ^ 25 ≤ 2 ^ 80 by norm_num).trans (long.trans (by omega))))
    rw [Int.sub_add_cancel] at rounds
    rw [value, same, sqrt_shifted M 80]
    exact rounds

/-! ## The obligation -/

theorem decode_clauses {f : Fmt} {neg : Bool} {eb mb M E : ℕ} {B : ℤ} (fields : floatFields f = some (eb, mb, B))
    (hM : M < 2 ^ mb) (hE : E < 2 ^ eb) :
    let x := decodeExact f ((if neg then 2 ^ (eb + mb) else 0) + E * 2 ^ mb + M)
    (E = 0 → x = .fin neg M (1 - B - mb)) ∧
    (0 < E → E + 1 < 2 ^ eb ∨ f = .e2m1 ∨ (f = .e4m3 ∧ M ≠ 7) → x = .fin neg (2 ^ mb + M) (E - B - mb)) ∧
    (E + 1 = 2 ^ eb → f ≠ .e2m1 → f ≠ .e4m3 → x = if M = 0 then .inf neg else .nan) ∧
    (E + 1 = 2 ^ eb → f = .e4m3 → M = 7 → x = .nan) := by
  obtain ⟨sp, spec, rfl, rfl, rfl, infinite, wide⟩ := floatSpec_of_fields fields
  have positive : 2 ≤ 2 ^ sp.ebits := by have := (floatLayout spec).room; omega
  rw [decodeExact_fields spec neg hM hE]
  refine ⟨fun zero => if_pos zero, fun pos finite => ?_, fun top notSmall notE4 => ?_, fun top isE4 isNaN => ?_⟩
  · have notInf : ¬ (E = 2 ^ sp.ebits - 1 ∧ hasInf f = true) := fun ⟨top, hasIt⟩ => by
      obtain ⟨notSmall, notE4⟩ := infinite.mp hasIt
      rcases finite with lt | small | ⟨isE4, -⟩
      · omega
      · exact notSmall small
      · exact notE4 isE4
    have notNaN : ¬ (f = .e4m3 ∧ E = 15 ∧ M = 7) := fun ⟨isE4, top, isNaN⟩ => by
      rw [wide isE4] at finite
      rcases finite with lt | small | ⟨-, other⟩
      · omega
      · simp [isE4] at small
      · exact other isNaN
    rw [if_neg pos.ne', if_neg notInf, if_neg notNaN]
  · rw [if_neg (by omega), if_pos ⟨by omega, infinite.mpr ⟨notSmall, notE4⟩⟩]
  · rw [wide isE4] at top
    have last : E = 15 := by omega
    rw [if_neg (by omega), if_neg fun special => (infinite.mp special.2).2 isE4, if_pos ⟨isE4, last, isNaN⟩]

theorem roundFmt_special {f : Fmt} {top half : ℝ} {big inf : ℕ} (tops : floatTop f = some (top, big, inf, half))
    (r : Rnd) (sat neg : Bool) :
    roundFmt f .nan r sat = canonNaN f ∧ roundFmt f (.inf neg) r sat = withSign f (if sat then big else inf) neg := by
  obtain ⟨sp, spec⟩ : ∃ sp, floatSpec f = some sp := by cases f <;> simp_all [floatTop, floatSpec]
  obtain ⟨-, -, max, infinity⟩ := floatTop_eq spec tops
  rw [roundFmt_of_float spec, roundFmt_of_float spec]
  refine ⟨rfl, ?_⟩
  cases sat with
  | false => exact infinity neg
  | true =>
    rw [if_pos rfl, ← max]
    simp [roundFloat, encodeInf]

/-- Settles O31: a rounded number is placed by its grid, whose magnitudes are the codes of the format; quotients and roots carry
a last bit below every grid. -/
theorem roundingAndExactness : Obligations.RoundingAndExactness := by
  refine ⟨fun f r sat neg => ⟨fun eb mb B M E fields hM hE => decode_clauses fields hM hE, fun m e => ?_,
    fun top big inf half tops => roundFmt_special tops r sat neg, fun lo hi range => ⟨?_, ?_, fun m e => ?_⟩⟩,
    fun r a b m n e f => ?_⟩
  · intro top big inf half tops
    obtain ⟨sp, spec⟩ : ∃ sp, floatSpec f = some sp := by cases f <;> simp_all [floatTop, floatSpec]
    rw [roundFmt_of_float spec]
    exact roundFloat_roundsTo spec r sat neg (fun zero => by simp [zero]) (fun _ => .refl _) top big inf half tops
  · rw [decodeInt_roundFmt range]
    rcases range with ⟨-, rfl, rfl⟩ | ⟨-, rfl, rfl⟩ | ⟨-, rfl, rfl⟩ | ⟨-, rfl, rfl⟩ | ⟨-, rfl, rfl⟩ <;> rfl
  · rw [decodeInt_roundFmt range, intRange_inf range]
  · have rounds := roundGrid_rounds r neg m e 0
    rw [zpow_zero, div_one] at rounds
    exact ⟨_, by rw [decodeInt_roundFmt range, toInt_fin], signedInt_rounds rounds⟩
  · refine ⟨add_exact .., mul_exact .., fun d sat float pos => div_rounds float r sat a b m n e f pos,
      fun d sat float real => sqrt_rounds float r sat a m e real, fun zero => ?_, fun neg pos => ?_, rfl, rfl, rfl, rfl, rfl, rfl,
      rfl, rfl, ⟨0, rfl⟩, rfl, fun z => ⟨?_, ?_, ?_, ?_, ?_, ?_, rfl⟩⟩
    · simp [Exact.div, zero]
    · simp [Exact.sqrt, neg, pos]
    all_goals cases z <;> rfl

end Sys2Proof.Machine
end

