-- ==== Sys2Proof/Proofs/RegisterGroups.lean ====
section
/-! SUPPORT. Register groups (R244, R265): writing elements of a group and its DIRTYMAP bits. -/

namespace Sys2Proof.Machine

/-! ## Elements of a group -/

/-- The element widths of the formats divide a register. -/
structure DividesReg (w : Nat) : Prop where
  pos : 0 < w
  whole : w * (1024 / w) = 1024

theorem fmt_dividesReg (f : Fmt) : DividesReg f.bits := by cases f <;> exact ⟨by decide, by decide⟩

section
variable {g h : Hart} {d : VIdx} {w n i k : Nat}

/-- The register of an element of a group. -/
def groupReg (d : VIdx) (w i : Nat) : VIdx := d + BitVec.ofNat 5 (i * w / 1024)

theorem DividesReg.reg_eq (div : DividesReg w) (i : Nat) : i * w / 1024 = i / (1024 / w) := by
  conv_lhs => rw [← div.whole, Nat.mul_comm w]
  exact Nat.mul_div_mul_right _ _ div.pos

theorem DividesReg.reg_lt (div : DividesReg w) (inside : i < n * (1024 / w)) : i * w / 1024 < n := by
  rw [div.reg_eq]
  exact Nat.div_lt_of_lt_mul (by rwa [Nat.mul_comm])

theorem DividesReg.place_lt (div : DividesReg w) (i : Nat) : i % (1024 / w) < 1024 / w :=
  Nat.mod_lt _ (Nat.pos_of_ne_zero fun none => by have := div.whole; rw [none] at this; omega)

theorem add_toNat_of_le (d : VIdx) {i : Nat} (room : d.toNat + i < 32) : (d + BitVec.ofNat 5 i).toNat = d.toNat + i := by
  rw [BitVec.toNat_add, BitVec.toNat_ofNat]
  omega

theorem groupReg_toNat (div : DividesReg w) (room : d.toNat + n ≤ 32) (inside : i < n * (1024 / w)) :
    (groupReg d w i).toNat = d.toNat + i / (1024 / w) := by
  have := div.reg_lt inside
  rw [groupReg, add_toNat_of_le d (by omega), div.reg_eq]

theorem putGroup_eq (g : Hart) (d : VIdx) (w i x : Nat) :
    putGroup g d w i x = g.setV (groupReg d w i) (putN (g.vreg (groupReg d w i)) w (i % (1024 / w)) x) := rfl

theorem groupElem_eq (g : Hart) (d : VIdx) (w i : Nat) : groupElem g d w i = elemN (g.vreg (groupReg d w i)) w (i % (1024 / w)) := rfl

theorem groupElem_lt (g : Hart) (d : VIdx) (w i : Nat) : groupElem g d w i < 2 ^ w := elemN_lt ..

/-- An element of a group reads what was written to it, and another one as before. -/
theorem groupElem_putGroup (div : DividesReg w) (room : d.toNat + n ≤ 32) (x : Nat) (inI : i < n * (1024 / w))
    (inK : k < n * (1024 / w)) : groupElem (putGroup g d w i x) d w k = if k = i then x % 2 ^ w else groupElem g d w k := by
  have regI := groupReg_toNat div room inI
  have regK := groupReg_toNat div room inK
  rw [groupElem_eq, putGroup_eq, Hart.vreg_setV]
  by_cases sameReg : groupReg d w k = groupReg d w i
  · have quotient : k / (1024 / w) = i / (1024 / w) := by
      rw [sameReg, regI] at regK
      omega
    have same : k % (1024 / w) = i % (1024 / w) ↔ k = i := by
      refine ⟨fun rest => ?_, fun eq => by rw [eq]⟩
      rw [← Nat.div_add_mod k (1024 / w), ← Nat.div_add_mod i (1024 / w), quotient, rest]
    rw [if_pos sameReg, elemN_putN _ _ (div.place_lt i) (div.place_lt k), groupElem_eq, sameReg]
    exact if_congr same rfl rfl
  · rw [if_neg sameReg, if_neg fun same => sameReg (by rw [same]), groupElem_eq]

/-! ## Writing a group -/

/-- `g` is `h` with elements lo … hi−1 of the group of `n` registers at `d` replaced, and DIRTYMAP bits of that group set. -/
structure GroupWritten (h g : Hart) (d : VIdx) (w n lo hi : Nat) (f : Nat → Nat) : Prop where
  rest : g = { h with v := g.v, dirtymap := g.dirtymap }
  dirty : ∀ j, j < 32 → g.dirtymap.getLsbD j = true → h.dirtymap.getLsbD j = true ∨ d.toNat ≤ j ∧ j < d.toNat + n
  keeps : ∀ j, j < 32 → h.dirtymap.getLsbD j = true → g.dirtymap.getLsbD j = true
  others : ∀ r : VIdx, r.toNat < d.toNat ∨ d.toNat + n ≤ r.toNat → g.vreg r = h.vreg r
  elems : ∀ k, k < n * (1024 / w) → groupElem g d w k = if lo ≤ k ∧ k < hi then f k % 2 ^ w else groupElem h d w k

theorem GroupWritten.refl (h : Hart) (d : VIdx) (w n lo : Nat) (f : Nat → Nat) : GroupWritten h h d w n lo lo f :=
  ⟨rfl, fun _ _ => .inl, fun _ _ => id, fun _ _ => rfl, fun _ _ => (if_neg (by omega)).symm⟩

/-- The next element. -/
theorem GroupWritten.put {lo hi : Nat} {f : Nat → Nat} (written : GroupWritten h g d w n lo hi f) (div : DividesReg w)
    (room : d.toNat + n ≤ 32) (inside : hi < n * (1024 / w)) (above : lo ≤ hi) :
    GroupWritten h (putGroup g d w hi (f hi)) d w n lo (hi + 1) f := by
  have reg := groupReg_toNat div room inside
  have last := div.reg_lt inside
  rw [div.reg_eq] at last
  generalize hi / (1024 / w) = q at reg last
  refine ⟨?_, fun j small set => ?_, fun j small set => ?_, fun r outside => ?_, fun k inK => ?_⟩
  · conv_lhs => rw [putGroup_eq, written.rest]
    rfl
  · rw [putGroup_eq, Hart.setV_dirtymap_getLsbD _ _ _ small, Bool.or_eq_true, beq_iff_eq, reg] at set
    rcases set with old | new
    · exact written.dirty j small old
    · exact .inr (by omega)
  · rw [putGroup_eq, Hart.setV_dirtymap_getLsbD _ _ _ small, written.keeps j small set, Bool.true_or]
  · rw [putGroup_eq, Hart.vreg_setV, if_neg fun same => ?_, written.others r outside]
    rw [same, reg] at outside
    omega
  · rw [groupElem_putGroup div room _ inside inK, written.elems k inK]
    by_cases new : k = hi
    · rw [if_pos new, if_pos (by omega), new]
    · rw [if_neg new]
      exact if_congr (by omega) rfl rfl

/-- A loop that writes the elements of a group in their order. -/
theorem groupWritten_forUp (h : Hart) (div : DividesReg w) (room : d.toNat + n ≤ 32) (lo : Nat) (f : Nat → Nat) {m : Nat}
    (inside : lo + m ≤ n * (1024 / w)) :
    GroupWritten h (forUp m lo (fun i g => putGroup g d w i (f i)) h) d w n lo (lo + m) f :=
  forUp_induct (P := fun hi g => GroupWritten h g d w n lo hi f) m lo (.refl h d w n lo f)
    fun _ _ low high written => written.put div room (by omega) low

theorem setV_vreg_self (h : Hart) (r : VIdx) : (h.setV r (h.vreg r)).v = h.v := by
  simp [Hart.setV, Hart.vreg]

/-- Touching a group sets its DIRTYMAP bits and nothing else (R244). -/
structure Touched (g t : Hart) (d : VIdx) (n : Nat) : Prop where
  rest : t = { g with dirtymap := t.dirtymap }
  dirty : ∀ j, j < 32 → (t.dirtymap.getLsbD j = true ↔ g.dirtymap.getLsbD j = true ∨ d.toNat ≤ j ∧ j < d.toNat + n)

theorem touchGroup_touched (g : Hart) (room : d.toNat + n ≤ 32) : Touched g (touchGroup g d n) d n := by
  have loop := forUp_induct (P := fun i t => Touched g t d i) (f := fun i h =>
      let k := d + BitVec.ofNat 5 i
      h.setV k (h.vreg k)) n 0 ⟨rfl, fun _ _ => ⟨.inl, fun h => h.resolve_right (by omega)⟩⟩
    fun i t _ below touched => by
      refine ⟨?_, fun j small => ?_⟩
      · conv_lhs => rw [show t.setV (d + BitVec.ofNat 5 i) (t.vreg (d + BitVec.ofNat 5 i)) =
          { t with dirtymap := (t.setV (d + BitVec.ofNat 5 i) (t.vreg (d + BitVec.ofNat 5 i))).dirtymap } by
            rw [← setV_vreg_self t (d + BitVec.ofNat 5 i)]; rfl, touched.rest]
        rfl
      · simp only [Hart.setV_dirtymap_getLsbD _ _ _ small, Bool.or_eq_true, beq_iff_eq, touched.dirty j small,
          add_toNat_of_le d (show d.toNat + i < 32 by omega), or_assoc]
        exact or_congr Iff.rfl (by omega)
  rwa [Nat.zero_add] at loop

end

/-! ## Instructions that write a group -/

section
variable {s : State} {i : Instr} {d : VIdx} {w lo : Nat} {f : Nat → Nat}

theorem elem_lt_group (div : DividesReg w) {vl k : Nat} (below : k ≤ vl) :
    k ≤ max 1 ((vl * w + 1023) / 1024) * (1024 / w) := by
  have whole := div.whole
  have : k * w ≤ max 1 ((vl * w + 1023) / 1024) * (1024 / w) * w := calc
    k * w ≤ vl * w := Nat.mul_le_mul_right _ below
    _ ≤ max 1 ((vl * w + 1023) / 1024) * 1024 := by omega
    _ = _ := by rw [Nat.mul_assoc, Nat.mul_comm (1024 / w), whole]
  exact Nat.le_of_mul_le_mul_right this div.pos

/-- What an instruction leaves whose hart is `g` with VSTART cleared and an integer register written, where `g` has the elements
of a group written and its DIRTYMAP bits set or kept. -/
theorem convertsTo_of_written {g : Hart} {x : XIdx} {xv : Word} {dirty : Prop}
    (run : exec i s = .next (advance { s with hart := ({ g with vstart := 0 }).setX x xv }))
    (rest : g = { s.hart with v := g.v, dirtymap := g.dirtymap })
    (map : ∀ j, j < 32 → (g.dirtymap.getLsbD j = true ↔
      s.hart.dirtymap.getLsbD j = true ∨ (dirty ∧ d.toNat ≤ j ∧ j < d.toNat + groupOf s w)))
    (others : ∀ r : VIdx, r.toNat < d.toNat ∨ d.toNat + groupOf s w ≤ r.toNat → g.vreg r = s.hart.vreg r)
    (elems : ∀ k, k < groupOf s w * (1024 / w) → groupElem g d w k =
      if lo ≤ k ∧ k < s.hart.vl.toNat then f k % 2 ^ w else groupElem s.hart d w k) :
    convertsTo i s d w lo dirty x xv f := by
  generalize g.v = V at rest
  generalize g.dirtymap = D at rest
  subst rest
  refine ⟨_, run, rfl, Hart.goneOn_of_ctl ?_ ?_ ?_, ?_, ?_, fun r => ?_, ?_, ?_, ?_⟩
  · exact Hart.setX_pc ..
  · exact Hart.setX_frames ..
  · exact Hart.setX_susp ..
  · exact Hart.setX_vstart ..
  · unfold Hart.setX
    split <;> rfl
  · exact Hart.xreg_setX ..
  · intro j small
    rw [← map j small]
    exact Iff.of_eq (congrArg (fun m : BitVec 32 => m.getLsbD j = true) (Hart.setX_dirtymap ..))
  · intro r outside
    refine Eq.trans ?_ (others r outside)
    exact congrArg (fun v : Vector VReg 32 => v[r.toNat]) (Hart.setX_v ..)
  · intro k inside
    rw [← elems k inside]
    exact congrArg (fun v : Vector VReg 32 => elemN (v[(groupReg d w k).toNat]) w (k % (1024 / w))) (Hart.setX_v ..)

end

end Sys2Proof.Machine
end

