-- ==== Sys2Proof/Proofs/Conversions.lean ====
section
/-! Conversions between formats: rounding of representable values, the RNS container, and `vcvt` (R183, R187, R263-R265). -/

namespace Sys2Proof.Machine

/-! ## Rounding of a representable value (R187) -/

section
variable {f : Fmt} {sp : FloatSpec} {j m : ℕ}

/-- The step for a magnitude of the format is its own. -/
theorem stepOf_canon (canon : sp.Canon j m) (pos : m ≠ 0) : sp.stepOf m (sp.low + j) = j := by
  obtain ⟨small, first⟩ := canon
  have log : Nat.log2 m ≤ sp.mbits := Nat.lt_succ_iff.mp ((Nat.log2_lt pos).mpr small)
  have normal : j ≠ 0 → sp.mbits ≤ Nat.log2 m := fun later => (Nat.le_log2 pos).mpr (first.resolve_left later)
  rw [FloatSpec.stepOf]
  omega

theorem roundGrid_self (r : Rnd) (neg : Bool) (m : ℕ) (e : ℤ) : roundGrid r neg m e e = m := by
  simp [roundGrid]

/-- R187: rounding the exact value of an encoding gives the encoding again. -/
theorem roundFmt_decodeExact (spec : floatSpec f = some sp) {a : ℕ} {neg : Bool} {e : ℤ} (r : Rnd) (sat : Bool)
    (small : a < 2 ^ f.bits) (value : decodeExact f a = .fin neg m e) : roundFmt f (decodeExact f a) r sat = a := by
  have layout := floatLayout spec
  rw [value, roundFmt_of_float spec]
  rw [decodeExact_of_float spec] at value
  obtain ⟨j, rfl, canon, within, rfl⟩ := code_of_decodeFloat layout small value
  by_cases zero : m = 0
  · obtain rfl : j = 0 := canon.2.resolve_right (by have : 0 < 2 ^ sp.mbits := by positivity
                                                    omega)
    simp [roundFloat, zero, FloatSpec.code]
  · have inRange : ¬ magGt m (sp.low + j) sp.maxM sp.maxE = true := by
      rw [magGt_iff]
      exact not_lt.mpr (le_top_of_within layout canon.1 within)
    rw [roundFloat_pack r sat neg _ zero, stepOf_canon canon zero, roundGrid_self, FloatSpec.pack, if_neg inRange,
      encodeMag_code canon.1.le canon.2]

end

/-! ## The RNS container (R183) -/

/-- The digits of mixed radix that reconstruction finds are those of the value. -/
theorem rns_digits {y : ℤ} (low : 0 ≤ y) (high : y < 16515840) :
    (y % 255 - y % 256) % 255 = y / 256 % 255 ∧
    (y % 253 - (y % 256 + 256 * (y / 256 % 255))) % 253 * 211 % 253 = y / 256 / 255 ∧
    y % 256 + 256 * (y / 256 % 255) + 65280 * (y / 256 / 255) = y := by
  have first : y = y % 256 + 256 * (y / 256) := by omega
  have second : y / 256 = y / 256 % 255 + 255 * (y / 256 / 255) := by omega
  refine ⟨by omega, ?_, by omega⟩
  have rest : (y % 253 - (y % 256 + 256 * (y / 256 % 255))) % 253 = 6 * (y / 256 / 255) % 253 := by omega
  rw [rest]
  omega

theorem rnsResidues_container {A B C : ℕ} (hA : A < 256) (hB : B < 255) (hC : C < 253) :
    rnsResidues (A + 256 * B + 65536 * C) = (A, B, C) := by
  unfold rnsResidues
  ext1
  · simp only
    omega
  · ext1 <;> simp only <;> omega

/-- R183: reconstruction gives the one value in the signed range with the residues of a container. -/
theorem rnsValue_container {x : ℤ} (low : -8257920 ≤ x) (high : x < 8257920) :
    rnsValue ((x % 256).toNat + 256 * (x % 255).toNat + 65536 * (x % 253).toNat) = x := by
  have residues := rnsResidues_container (A := (x % 256).toNat) (B := (x % 255).toNat) (C := (x % 253).toNat)
    (by omega) (by omega) (by omega)
  obtain ⟨y, small, large, same⟩ : ∃ y : ℤ, 0 ≤ y ∧ y < 16515840 ∧ (x = y ∧ y < 8257920 ∨ x = y - 16515840 ∧ 8257920 ≤ y) := by
    by_cases neg : x < 0
    · exact ⟨x + 16515840, by omega, by omega, .inr ⟨by omega, by omega⟩⟩
    · exact ⟨x, by omega, by omega, .inl ⟨rfl, high⟩⟩
  have mods : x % 256 = y % 256 ∧ x % 255 = y % 255 ∧ x % 253 = y % 253 := by omega
  obtain ⟨second, third, whole⟩ := rns_digits small large
  unfold rnsValue
  simp only [residues]
  rw [Int.toNat_of_nonneg (by omega), Int.toNat_of_nonneg (by omega), Int.toNat_of_nonneg (by omega), mods.1, mods.2.1, mods.2.2,
    second, third, whole]
  split <;> omega

/-! ## `vcvt` (R263-R265) -/

section
variable {s : State} {i : Instr} {dst src : Fmt} {d a : VIdx} {rnd : Rnd} {sat : Bool} {w lo n : ℕ} {f f' : ℕ → ℕ}

theorem convertsTo.congr {dirty : Prop} {x : XIdx} {xv : Word} (h : convertsTo i s d w lo dirty x xv f)
    (same : ∀ k, k < s.hart.vl.toNat → f k % 2 ^ w = f' k % 2 ^ w) : convertsTo i s d w lo dirty x xv f' := by
  obtain ⟨t, run, outside, gone, start, frame, onlyX, map, others, elems⟩ := h
  refine ⟨t, run, outside, gone, start, frame, onlyX, map, others, fun k inside => (elems k inside).trans ?_⟩
  split
  next written => exact same k written.2
  next => rfl

/-- A group with elements written and touched as a whole. -/
theorem GroupWritten.touched {h g : Hart} {hi : ℕ} (written : GroupWritten h g d w n lo hi f) (room : d.toNat + n ≤ 32) :
    touchGroup g d n = { h with v := (touchGroup g d n).v, dirtymap := (touchGroup g d n).dirtymap } ∧
    (touchGroup g d n).v = g.v ∧
    ∀ j, j < 32 → ((touchGroup g d n).dirtymap.getLsbD j = true ↔
      h.dirtymap.getLsbD j = true ∨ (d.toNat ≤ j ∧ j < d.toNat + n)) := by
  obtain ⟨rest, dirty⟩ := touchGroup_touched g room
  generalize touchGroup g d n = t at rest dirty
  refine ⟨?_, by rw [rest], fun j small => ?_⟩
  · rw [rest]
    conv_lhs => rw [written.rest]
  · rw [dirty j small]
    exact ⟨fun set => set.elim (written.dirty j small) .inr, fun set => set.imp_left (written.keeps j small)⟩

/-- What an instruction leaves that writes the elements of a group up to VL and touches the group. -/
theorem convertsTo_of_touched {g : Hart} {x : XIdx} {xv : Word} {dirty : Prop}
    (written : GroupWritten s.hart g d w (groupOf s w) lo s.hart.vl.toNat f) (room : d.toNat + groupOf s w ≤ 32) (isDirty : dirty)
    (run : exec i s = .next (advance { s with hart := ({ touchGroup g d (groupOf s w) with vstart := 0 }).setX x xv })) :
    convertsTo i s d w lo dirty x xv f := by
  obtain ⟨rest, regs, map⟩ := written.touched room
  have sameReg : ∀ r, (touchGroup g d (groupOf s w)).vreg r = g.vreg r := fun r =>
    congrArg (fun v : Vector VReg 32 => v[r.toNat]) regs
  refine convertsTo_of_written run rest (fun j small => ?_) (fun r outside => ?_) fun k inside => ?_
  · rw [map j small]
    exact or_congr Iff.rfl (and_iff_right isDirty).symm
  · rw [sameReg, written.others r outside]
  · rw [groupElem_eq, sameReg]
    exact written.elems k inside

/-- A loop over the elements from `lo` to VL. -/
theorem groupWritten_loop (div : DividesReg w) (room : d.toNat + groupOf s w ≤ 32)
    (start : lo ≤ s.hart.vl.toNat ∨ s.hart.vl.toNat = 0) (f : ℕ → ℕ) :
    GroupWritten s.hart (forUp (s.hart.vl.toNat - lo) lo (fun k g => putGroup g d w k (f k)) s.hart) d w (groupOf s w) lo
      s.hart.vl.toNat f := by
  by_cases none : s.hart.vl.toNat = 0
  · rw [none, Nat.zero_sub]
    have := GroupWritten.refl s.hart d w (groupOf s w) 0 f
    exact { this with elems := fun k inside => (if_neg (by omega)).symm }
  · have le := start.resolve_right none
    have loop := groupWritten_forUp s.hart div room lo f (m := s.hart.vl.toNat - lo)
      (by rw [Nat.add_sub_cancel' le]; exact elem_lt_group div le_rfl)
    rwa [Nat.add_sub_cancel' le] at loop

/-- The operand tests of `vcvt` (R265). -/
def vcvtBad (s : State) (dst src : Fmt) (d a : VIdx) : Prop :=
  32 < a.toNat + groupOf s src.bits ∨ 32 < d.toNat + groupOf s dst.bits ∨
  (a.toNat < d.toNat + groupOf s dst.bits ∧ d.toNat < a.toNat + groupOf s src.bits ∧
    ¬ (d = a ∧ groupOf s dst.bits = groupOf s src.bits)) ∨
  (0 < s.hart.vl.toNat ∧ s.hart.vl.toNat ≤ s.hart.vstart.toNat)

theorem vcvtBad_iff : (groupPast a (groupOf s src.bits) || groupPast d (groupOf s dst.bits) ||
      (groupsMeet a (groupOf s src.bits) d (groupOf s dst.bits) && !(d == a && groupOf s dst.bits == groupOf s src.bits)) ||
      (0 < s.hart.vl.toNat && s.hart.vl.toNat ≤ s.hart.vstart.toNat)) = true ↔ vcvtBad s dst src d a := by
  simp only [groupPast, groupsMeet, vcvtBad, Bool.or_eq_true, Bool.and_eq_true, decide_eq_true_iff, gt_iff_lt, Bool.not_eq_true',
    Bool.and_eq_false_iff, beq_eq_false_iff_ne, or_assoc, and_assoc, not_and_or]

theorem exec_vcvt : exec (.vcvt dst src d a rnd sat) s = execVcvt dst src d a rnd sat s := rfl

theorem badOperand_of_vcvtBad (admitted : cvtAdmits src dst = true) (bad : vcvtBad s dst src d a) :
    BadOperand (.vcvt dst src d a rnd sat) s := by
  have test := vcvtBad_iff.mpr bad
  rw [BadOperand, Traps, exec_vcvt, execVcvt]
  simp only [admitted]
  exact if_pos test

theorem vcvt_converts (admitted : cvtAdmits src dst = true) (good : ¬ vcvtBad s dst src d a) :
    convertsTo (.vcvt dst src d a rnd sat) s d dst.bits s.hart.vstart.toNat True 0 0 fun k =>
      cvtElem src dst (groupElem s.hart a src.bits k) rnd sat := by
  have test := mt vcvtBad_iff.mp good
  have run : exec (.vcvt dst src d a rnd sat) s = .next (advance { s with hart :=
      { touchGroup (forUp (s.hart.vl.toNat - s.hart.vstart.toNat) s.hart.vstart.toNat (fun k g =>
        putGroup g d dst.bits k (cvtElem src dst (groupElem s.hart a src.bits k) rnd sat)) s.hart) d (groupOf s dst.bits)
        with vstart := 0 } }) := by
    rw [exec_vcvt, execVcvt]
    simp only [admitted]
    exact if_neg test
  unfold vcvtBad at good
  exact convertsTo_of_touched (groupWritten_loop (fmt_dividesReg dst) (by omega) (by omega) _) (by omega) trivial run

theorem vcvt_gives (admitted : cvtAdmits src dst = true) (good : ¬ vcvtBad s dst src d a)
    (value : ∀ k, cvtElem src dst (groupElem s.hart a src.bits k) rnd sat = f k) :
    convertsTo (.vcvt dst src d a rnd sat) s d dst.bits s.hart.vstart.toNat True 0 0 f :=
  convertsTo.congr (vcvt_converts admitted good) fun k _ => by rw [value k]

/-! ## The converted element (R264) -/

theorem cvtElem_same (notRns : src ≠ .rns3) (bits : ℕ) : cvtElem src src bits rnd sat =
    if isFloat src = true ∧ (decodeExact src bits).isNaN = true then canonNaN src else bits % 2 ^ src.bits := by
  simp only [cvtElem, if_neg notRns, if_true, Bool.and_eq_true]

theorem cvtElem_convert (differ : src ≠ dst) (srcRns : src ≠ .rns3) (dstRns : dst ≠ .rns3) (bits : ℕ) :
    cvtElem src dst bits rnd sat = convert src dst bits rnd sat := by
  simp only [cvtElem, if_neg srcRns, if_neg dstRns, if_neg differ]

theorem convert_float (float : isFloat src = true ∨ isFloat dst = true) (bits : ℕ) :
    convert src dst bits rnd sat = roundFmt dst (decodeExact src bits) rnd sat :=
  if_pos (Bool.or_eq_true .. |>.mpr float)

theorem convert_int (srcInt : isFloat src = false) (dstInt : isFloat dst = false) (bits : ℕ) :
    convert src dst bits rnd sat =
      ofInt dst.bits (if sat then satInt (decodeInt src bits) dst.bits (intSigned dst) else decodeInt src bits) :=
  if_neg (by simp [srcInt, dstInt])

/-- Integers saturate to the range of ui8, or of a signed format. -/
theorem convert_saturates (srcInt : isFloat src = false) (dstInt : isFloat dst = false) (bits : ℕ) :
    (dst = .ui8 → convert src dst bits rnd true = (max 0 (min 255 (decodeInt src bits))).toNat) ∧
    (dst ≠ .ui8 → convert src dst bits rnd true = narrow dst.bits true (decodeInt src bits)) := by
  rw [convert_int srcInt dstInt]
  refine ⟨fun unsigned => ?_, fun signed => ?_⟩
  · subst unsigned
    simp only [if_true, ofInt, satInt, intSigned, Fmt.bits]
    simp
    omega
  · have : intSigned dst = true := bne_iff_ne.mpr signed
    rw [this, ← narrowInt_eq_narrow]
    rfl

theorem not_cvtAdmits_rns : cvtAdmits .rns3 .rns3 = false := rfl

/-- Settles O32: rounding takes the step of an encoding's own exponent, reconstruction finds the digits of mixed radix, and the
loop of `vcvt` writes a group. -/
theorem conversions : Obligations.Conversions := by
  refine ⟨fun f a r sat neg m e float small value => ?_, fun x low high => rnsValue_container low high,
    fun s dst src d a rnd sat admitted => ⟨badOperand_of_vcvtBad admitted, ?_, ?_, ?_, ?_, ?_, ?_⟩⟩
  · obtain ⟨sp, spec⟩ := Option.isSome_iff_exists.mp float
    exact roundFmt_decodeExact spec r sat small value
  · intro good isRns
    refine vcvt_gives admitted good fun k => ?_
    rw [cvtElem, if_pos isRns]
    rfl
  · intro good isRns
    refine vcvt_gives admitted good fun k => ?_
    have srcRns : src ≠ .rns3 := fun eq => by
      rw [eq, isRns, not_cvtAdmits_rns] at admitted
      exact nomatch admitted
    rw [cvtElem, if_neg srcRns, if_pos isRns]
    rfl
  · intro good same
    subst same
    have srcRns : src ≠ .rns3 := fun eq => by
      rw [eq, not_cvtAdmits_rns] at admitted
      exact nomatch admitted
    refine vcvt_gives admitted good fun k => ?_
    rw [cvtElem_same srcRns, Nat.mod_eq_of_lt (groupElem_lt ..)]
  · intro good differ srcRns dstRns float
    refine vcvt_gives admitted good fun k => ?_
    rw [cvtElem_convert differ srcRns dstRns, convert_float float]
  · intro good differ srcRns dstRns srcInt dstInt wraps
    refine vcvt_gives admitted good fun k => ?_
    rw [cvtElem_convert differ srcRns dstRns, convert_int srcInt dstInt, wraps]
    rfl
  · intro good differ srcRns dstRns srcInt dstInt saturates
    subst saturates
    refine ⟨fun unsigned => ?_, fun signed => ?_⟩ <;> refine vcvt_gives admitted good fun k => ?_ <;>
      rw [cvtElem_convert differ srcRns dstRns]
    · rw [(convert_saturates srcInt dstInt _).1 unsigned]
    · rw [(convert_saturates srcInt dstInt _).2 signed]

end

end Sys2Proof.Machine
end

