-- ==== Sys2Proof/Proofs/Quantisation.lean ====
section
/-! Block scales, `vquant` and `vdquant` (R186, R191, R266, R267). -/

namespace Sys2Proof.Machine

/-! ## The scale of a block (R191) -/

section
variable {f : Fmt} {xs : List Exact}

/-- The magnitude that a mantissa and an exponent stand for. -/
noncomputable def magReal (a : ℕ × ℤ) : ℝ := a.1 * 2 ^ a.2

/-- The magnitude of an exact value as a real number. -/
noncomputable def Exact.magReal (x : Exact) : ℝ := (magnitude x : ℝ)

theorem Exact.magReal_fin (neg : Bool) (m : ℕ) (e : ℤ) : (Exact.fin neg m e).magReal = Machine.magReal (m, e) := by
  simp [Exact.magReal, Machine.magReal, magnitude]

theorem maxMag_spec (a : ℕ × ℤ) {x : Exact} (finite : x.isFinite = true) :
    magReal a ≤ magReal (maxMag a x) ∧ x.magReal ≤ magReal (maxMag a x) ∧
    (magReal (maxMag a x) = magReal a ∨ magReal (maxMag a x) = x.magReal) := by
  cases x with
  | nan => exact nomatch finite
  | inf => exact nomatch finite
  | fin neg m e =>
    rw [Exact.magReal_fin, maxMag]
    by_cases larger : magGt m e a.1 a.2 = true
    · have := (magGt_iff ..).mp larger
      rw [if_pos larger]
      exact ⟨this.le, le_rfl, .inr rfl⟩
    · have := not_lt.mp (mt (magGt_iff ..).mpr larger)
      rw [if_neg larger]
      exact ⟨le_rfl, this, .inl rfl⟩

/-- Step 1 of R191 finds the largest magnitude of a block. -/
theorem foldl_maxMag : ∀ (xs : List Exact) (a : ℕ × ℤ), (∀ x ∈ xs, x.isFinite = true) →
    magReal a ≤ magReal (xs.foldl maxMag a) ∧ (∀ x ∈ xs, x.magReal ≤ magReal (xs.foldl maxMag a)) ∧
    (magReal (xs.foldl maxMag a) = magReal a ∨ ∃ x ∈ xs, magReal (xs.foldl maxMag a) = x.magReal)
  | [], a, _ => ⟨le_rfl, fun _ none => absurd none List.not_mem_nil, .inl rfl⟩
  | x :: xs, a, finite => by
    obtain ⟨keeps, covers, from_⟩ := maxMag_spec a (finite x List.mem_cons_self)
    obtain ⟨rises, rest, last⟩ := foldl_maxMag xs (maxMag a x) fun y inside => finite y (List.mem_cons_of_mem _ inside)
    rw [List.foldl_cons]
    refine ⟨keeps.trans rises, fun y inside => ?_, ?_⟩
    · rcases List.mem_cons.mp inside with rfl | inside
      · exact covers.trans rises
      · exact rest y inside
    · rcases last with last | ⟨y, inside, last⟩
      · exact from_.imp (last.trans ·) fun eq => ⟨x, List.mem_cons_self, last.trans eq⟩
      · exact .inr ⟨y, List.mem_cons_of_mem _ inside, last⟩

theorem mxScale_of_special (special : ∃ x ∈ xs, x.isFinite = false) : mxScale f xs = 0xFF := by
  have : (xs.any fun x => !x.isFinite) = true := by simpa using special
  rw [mxScale, if_pos this]

theorem any_special_of_finite (finite : ∀ x ∈ xs, x.isFinite = true) : ¬ (xs.any fun x => !x.isFinite) = true := by
  simpa using finite

theorem magReal_eq_zero_iff (a : ℕ × ℤ) : magReal a = 0 ↔ a.1 = 0 := by
  simp [magReal, zpow_ne_zero]

theorem mxScale_of_zero (zero : ∀ x ∈ xs, x.isFinite = true ∧ magnitude x = 0) : mxScale f xs = 0x7F := by
  have finite := fun x inside => (zero x inside).1
  have none : (xs.foldl maxMag (0, 0)).1 = 0 := by
    rw [← magReal_eq_zero_iff]
    rcases (foldl_maxMag xs (0, 0) finite).2.2 with eq | ⟨x, inside, eq⟩
    · exact eq.trans (by simp [magReal])
    · exact eq.trans (by simp [Exact.magReal, (zero x inside).2])
  rw [mxScale, if_neg (any_special_of_finite finite)]
  exact if_pos none

/-- The exponent of R191 steps 2 and 3. -/
def scaleExponent (f : Fmt) (a : ℕ × ℤ) : ℤ :=
  let t := (Nat.log2 a.1 : ℤ) + a.2 - (Nat.log2 (mxMax f).1 + (mxMax f).2)
  if magGt a.1 a.2 (mxMax f).1 ((mxMax f).2 + t) then t + 1 else t

theorem mxMax_pos (f : Fmt) : (mxMax f).1 ≠ 0 := by cases f <;> decide

/-- The power of two between two scales of a magnitude is unique. -/
theorem exponent_unique {A F : ℝ} (pos : 0 < F) {t u : ℤ} (low : F * 2 ^ (t - 1) < A) (high : A ≤ F * 2 ^ t)
    (low' : F * 2 ^ (u - 1) < A) (high' : A ≤ F * 2 ^ u) : t = u := by
  have order : ∀ {p q : ℤ}, F * 2 ^ (p - 1) < A → A ≤ F * 2 ^ q → p ≤ q := fun {p q} low high => by
    have := lt_of_mul_lt_mul_left (low.trans_le high) pos.le
    have := (zpow_lt_zpow_iff_right₀ one_lt_two).mp this
    omega
  exact le_antisymm (order low high') (order low' high)

/-- That exponent is the smallest that brings the magnitude within the format's largest one. -/
theorem scaleExponent_spec (f : Fmt) {a : ℕ × ℤ} (pos : a.1 ≠ 0) :
    magReal (mxMax f) * 2 ^ (scaleExponent f a - 1) < magReal a ∧ magReal a ≤ magReal (mxMax f) * 2 ^ scaleExponent f a := by
  obtain ⟨lowA, highA⟩ := two_zpow_log2_le a.2 pos
  obtain ⟨lowF, highF⟩ := two_zpow_log2_le (mxMax f).2 (mxMax_pos f)
  rw [← magReal] at lowA highA lowF highF
  unfold scaleExponent
  set t : ℤ := (Nat.log2 a.1 : ℤ) + a.2 - (Nat.log2 (mxMax f).1 + (mxMax f).2) with ht
  have scaled : ((mxMax f).1 : ℝ) * 2 ^ ((mxMax f).2 + t) = magReal (mxMax f) * 2 ^ t := by
    rw [magReal, mul_assoc, zpow_add₀ two_ne_zero]
  have gt_iff : magGt a.1 a.2 (mxMax f).1 ((mxMax f).2 + t) = true ↔ magReal (mxMax f) * 2 ^ t < magReal a := by
    rw [magGt_iff, scaled, ← magReal]
  have below : magReal (mxMax f) * 2 ^ (t - 1) < magReal a := calc
    magReal (mxMax f) * 2 ^ (t - 1) < 2 ^ (Nat.log2 (mxMax f).1 + (mxMax f).2 + 1) * 2 ^ (t - 1) := by gcongr
    _ = 2 ^ (Nat.log2 a.1 + a.2) := by rw [← zpow_add₀ two_ne_zero]; congr 1; omega
    _ ≤ magReal a := lowA
  have above : magReal a ≤ magReal (mxMax f) * 2 ^ (t + 1) := calc
    magReal a ≤ 2 ^ (Nat.log2 a.1 + a.2 + 1) := highA.le
    _ = 2 ^ (Nat.log2 (mxMax f).1 + (mxMax f).2) * 2 ^ (t + 1) := by rw [← zpow_add₀ two_ne_zero]; congr 1; omega
    _ ≤ _ := by gcongr
  simp only
  split
  next larger =>
    rw [Int.add_sub_cancel]
    exact ⟨gt_iff.mp larger, above⟩
  next smaller => exact ⟨below, not_lt.mp (mt gt_iff.mpr smaller)⟩

theorem mxScale_of_finite (finite : ∀ x ∈ xs, x.isFinite = true) (pos : (xs.foldl maxMag (0, 0)).1 ≠ 0) :
    (mxScale f xs : ℤ) = max (-127) (min 127 (scaleExponent f (xs.foldl maxMag (0, 0)))) + 127 := by
  have value : mxScale f xs = (max (-127) (min 127 (scaleExponent f (xs.foldl maxMag (0, 0)))) + 127).toNat := by
    rw [mxScale, if_neg (any_special_of_finite finite)]
    exact if_neg pos
  rw [value, Int.toNat_of_nonneg (by omega)]

/-- R191: the scale field is that of the smallest power of two that brings the block's largest magnitude within the format. -/
theorem mxScale_smallest {t : ℤ} (fits : ∀ x ∈ xs, x.isFinite = true ∧ x.magReal ≤ magReal (mxMax f) * 2 ^ t)
    (needs : ∃ x ∈ xs, magReal (mxMax f) * 2 ^ (t - 1) < x.magReal) :
    (mxScale f xs : ℤ) = max (-127) (min 127 t) + 127 := by
  have finite := fun x inside => (fits x inside).1
  obtain ⟨-, covers, attained⟩ := foldl_maxMag xs (0, 0) finite
  have format : 0 < magReal (mxMax f) := by
    have := mxMax_pos f
    unfold magReal
    positivity
  obtain ⟨x, inside, low⟩ := needs
  have low' := low.trans_le (covers x inside)
  have nonzero : magReal (xs.foldl maxMag (0, 0)) ≠ 0 := (lt_trans (by positivity) low').ne'
  have high : magReal (xs.foldl maxMag (0, 0)) ≤ magReal (mxMax f) * 2 ^ t := by
    rcases attained with eq | ⟨y, inside, eq⟩
    · exact absurd (eq.trans (by simp [magReal])) nonzero
    · rw [eq]
      exact (fits y inside).2
  have pos := mt (magReal_eq_zero_iff _).mpr nonzero
  obtain ⟨lowS, highS⟩ := scaleExponent_spec f pos
  rw [mxScale_of_finite finite pos, exponent_unique format lowS highS low' high]

theorem mxScale_le (f : Fmt) (xs : List Exact) : mxScale f xs < 256 := by
  unfold mxScale
  split
  · decide
  · simp only
    split
    · decide
    · omega

end

/-! ## The scale bytes (R266) -/

/-- Bytes put together, the first one lowest. -/
def packBytes (bs : List ℕ) : ℕ := bs.foldr (fun b n => b % 256 + 256 * n) 0

theorem packBytes_lt : ∀ bs, packBytes bs < 2 ^ (8 * bs.length)
  | [] => by decide
  | b :: bs => by
    have rest := packBytes_lt bs
    have whole : packBytes (b :: bs) = b % 256 + 256 * packBytes bs := rfl
    rw [whole, List.length_cons, Nat.mul_add, pow_add]
    omega

theorem packBytes_byte : ∀ (bs : List ℕ) (i : ℕ), packBytes bs / 2 ^ (8 * i) % 256 = bs.getD i 0 % 256
  | [], i => by simp [packBytes]
  | b :: bs, 0 => by
    have whole : packBytes (b :: bs) = b % 256 + 256 * packBytes bs := rfl
    rw [whole]
    simp
  | b :: bs, i + 1 => by
    have whole : packBytes (b :: bs) = b % 256 + 256 * packBytes bs := rfl
    rw [whole, Nat.mul_add, Nat.add_comm (8 * i), pow_add, ← Nat.div_div_eq_div_mul]
    have : (b % 256 + 256 * packBytes bs) / 2 ^ (8 * 1) = packBytes bs := by omega
    rw [this, packBytes_byte bs i, List.getD_cons_succ]

/-- Bytes of a word. -/
theorem extract_packBytes {bs : List ℕ} (short : bs.length ≤ 8) (i : ℕ) :
    ((BitVec.ofNat 64 (packBytes bs)).extractLsb' (8 * i) 8).toNat = bs.getD i 0 % 256 := by
  have small : packBytes bs < 2 ^ 64 := (packBytes_lt bs).trans_le (Nat.pow_le_pow_right two_pos (by omega))
  rw [BitVec.extractLsb'_toNat, BitVec.toNat_ofNat, Nat.mod_eq_of_lt small, Nat.shiftRight_eq_div_pow]
  exact packBytes_byte bs i

theorem getLsbD_packBytes {bs : List ℕ} {j : ℕ} (above : 8 * bs.length ≤ j) :
    (BitVec.ofNat 64 (packBytes bs)).getLsbD j = false := by
  rw [BitVec.getLsbD_ofNat, Nat.testBit_lt_two_pow ((packBytes_lt bs).trans_le (Nat.pow_le_pow_right two_pos above)),
    Bool.and_false]

/-! ## Instructions that quantise (R266, R267) -/

section
variable {s : State} {i : Instr} {dst src : Fmt} {d a : VIdx} {x : XIdx} {w : ℕ}

theorem Hart.with_vstart {h : Hart} (start : h.vstart = 0) : { h with vstart := 0 } = h := by rw [← start]

/-- The operand tests of `vquant` and `vdquant`: `ns` and `nd` registers (R266). -/
theorem quantBad_iff {h : Hart} {nd ns : ℕ} : quantBad h d a nd ns = true ↔
    h.vstart ≠ 0 ∨ 32 < a.toNat + ns ∨ 32 < d.toNat + nd ∨ (a.toNat < d.toNat + nd ∧ d.toNat < a.toNat + ns) := by
  simp only [quantBad, groupPast, groupsMeet, Bool.or_eq_true, Bool.and_eq_true, decide_eq_true_iff, bne_iff_ne, gt_iff_lt,
    or_assoc]

/-- What an instruction leaves that writes every element below VL of a group and touches the group unless VL is 0. -/
theorem convertsTo_of_quant {xv : Word} {f : ℕ → ℕ} (div : DividesReg w) (start : s.hart.vstart = 0)
    (room : d.toNat + groupOf s w ≤ 32)
    (run : exec i s = .next (advance { s with hart := (if s.hart.vl.toNat = 0
      then forUp s.hart.vl.toNat 0 (fun k g => putGroup g d w k (f k)) s.hart
      else touchGroup (forUp s.hart.vl.toNat 0 (fun k g => putGroup g d w k (f k)) s.hart) d (groupOf s w)).setX x xv })) :
    convertsTo i s d w 0 (0 < s.hart.vl.toNat) x xv f := by
  have written := groupWritten_loop div room (.inl (Nat.zero_le _)) f
  rw [Nat.sub_zero] at written
  by_cases none : s.hart.vl.toNat = 0
  · rw [if_pos none, none] at run
    refine convertsTo_of_written (g := s.hart) (by rw [Hart.with_vstart start]; exact run) rfl (fun j _ => ?_) (fun _ _ => rfl)
      fun k _ => (if_neg (by omega)).symm
    exact ⟨.inl, fun set => set.resolve_right fun h => by omega⟩
  · rw [if_neg none] at run
    have still : (touchGroup (forUp s.hart.vl.toNat 0 (fun k g => putGroup g d w k (f k)) s.hart) d (groupOf s w)).vstart = 0 := by
      rw [(written.touched room).1]
      exact start
    exact convertsTo_of_touched written room (by omega) (by rw [Hart.with_vstart still]; exact run)

theorem exec_vquant : exec (.vquant dst src d a x) s = execVquant dst src d a x s := rfl
theorem exec_vdquant : exec (.vdquant dst src d a x) s = execVdquant dst src d a x s := rfl

theorem badOperand_of_vquant (wide : mxWide src = true) (narrow_ : mxFormat dst = true)
    (bad : quantBad s.hart d a (groupOf s dst.bits) (groupOf s src.bits) = true) : BadOperand (.vquant dst src d a x) s := by
  rw [BadOperand, Traps, exec_vquant, execVquant]
  simp only [wide, narrow_]
  exact if_pos bad

theorem badOperand_of_vdquant (wide : mxWide dst = true) (narrow_ : mxFormat src = true)
    (bad : quantBad s.hart d a (groupOf s dst.bits) (groupOf s src.bits) = true) : BadOperand (.vdquant dst src d a x) s := by
  rw [BadOperand, Traps, exec_vdquant, execVdquant]
  simp only [wide, narrow_]
  exact if_pos bad

/-- The scale fields of the blocks below VL. -/
def blockScales (h : Hart) (src dst : Fmt) (a : VIdx) : List ℕ :=
  (List.range ((h.vl.toNat + 31) / 32)).map fun b => blockScale h src dst a b

theorem vquant_converts (wide : mxWide src = true) (narrow_ : mxFormat dst = true)
    (good : quantBad s.hart d a (groupOf s dst.bits) (groupOf s src.bits) = false) :
    convertsTo (.vquant dst src d a x) s d dst.bits 0 (0 < s.hart.vl.toNat) x
      (BitVec.ofNat 64 (packBytes (blockScales s.hart src dst a))) fun k =>
        mxElem dst ((blockScales s.hart src dst a).getD (k / 32) 0) (decodeExact src (groupElem s.hart a src.bits k)) := by
  have tests := mt quantBad_iff.mpr (Bool.eq_false_iff.mp good)
  refine convertsTo_of_quant (fmt_dividesReg dst) (by_contra fun late => tests (.inl late)) (by omega) ?_
  rw [exec_vquant, execVquant]
  simp only [wide, narrow_]
  exact if_neg (Bool.eq_false_iff.mp good)

theorem vdquant_converts (wide : mxWide dst = true) (narrow_ : mxFormat src = true)
    (good : quantBad s.hart d a (groupOf s dst.bits) (groupOf s src.bits) = false) :
    convertsTo (.vdquant dst src d a x) s d dst.bits 0 (0 < s.hart.vl.toNat) 0 0 fun k =>
      roundFmt dst (mxValue src ((s.hart.xreg x).extractLsb' (8 * (k / 32)) 8).toNat (groupElem s.hart a src.bits k)) .rne
        false := by
  have tests := mt quantBad_iff.mpr (Bool.eq_false_iff.mp good)
  refine convertsTo_of_quant (fmt_dividesReg dst) (by_contra fun late => tests (.inl late)) (by omega) ?_
  rw [exec_vdquant, execVdquant]
  simp only [wide, narrow_]
  exact if_neg (Bool.eq_false_iff.mp good)

/-! ## The block of a scale -/

theorem blockScales_getD {b : ℕ} (below : b < (s.hart.vl.toNat + 31) / 32) :
    (blockScales s.hart src dst a).getD b 0 = blockScale s.hart src dst a b := by
  simp [blockScales, below]

theorem blockScales_length (h : Hart) : (blockScales h src dst a).length = (h.vl.toNat + 31) / 32 := by
  simp [blockScales]

/-- The present elements of a block. -/
def blockElems (h : Hart) (src : Fmt) (a : VIdx) (b : ℕ) : List Exact :=
  ((List.range 32).filter fun j => 32 * b + j < h.vl.toNat).map fun j => decodeExact src (groupElem h a src.bits (32 * b + j))

theorem mem_blockElems {h : Hart} {b : ℕ} {y : Exact} : y ∈ blockElems h src a b ↔
    ∃ k, (k / 32 = b ∧ k < h.vl.toNat) ∧ decodeExact src (groupElem h a src.bits k) = y := by
  simp only [blockElems, List.mem_map, List.mem_filter, List.mem_range, decide_eq_true_iff]
  constructor
  · rintro ⟨j, ⟨small, below⟩, eq⟩
    exact ⟨32 * b + j, ⟨by omega, below⟩, eq⟩
  · rintro ⟨k, ⟨rfl, below⟩, eq⟩
    exact ⟨k % 32, ⟨Nat.mod_lt _ (by decide), by omega⟩, by rw [Nat.div_add_mod]; exact eq⟩

/-- R186: the largest magnitude of an element format. -/
theorem mxMax_real (format : mxFormat dst = true) : magReal (mxMax dst) =
    ((if dst = .e4m3 then 448 else if dst = .e5m2 then 57344 else if dst = .e2m1 then 6 else 127 / 64 : ℚ) : ℝ) := by
  cases dst <;> simp_all [mxFormat, magReal, mxMax] <;> norm_num

/-- R191 of a block: its scale field, from what its present elements are. -/
theorem blockScale_spec (format : mxFormat dst = true) (h : Hart) (b : ℕ) :
    let fmax : ℚ := if dst = .e4m3 then 448 else if dst = .e5m2 then 57344 else if dst = .e2m1 then 6 else 127 / 64
    let X := fun k => decodeExact src (groupElem h a src.bits k)
    let In := fun k => k / 32 = b ∧ k < h.vl.toNat
    ((∃ k, In k ∧ (X k).isFinite = false) → blockScale h src dst a b = 0xFF) ∧
    ((∀ k, In k → (X k).isFinite = true ∧ magnitude (X k) = 0) → blockScale h src dst a b = 0x7F) ∧
    ∀ t : ℤ, (∀ k, In k → (X k).isFinite = true ∧ magnitude (X k) ≤ fmax * 2 ^ t) →
      (∃ k, In k ∧ fmax * 2 ^ (t - 1) < magnitude (X k)) → (blockScale h src dst a b : ℤ) = max (-127) (min 127 t) + 127 := by
  intro fmax X In
  have elems : ∀ {P : Exact → Prop}, (∀ k, In k → P (X k)) → ∀ y ∈ blockElems h src a b, P y := fun all y inside => by
    obtain ⟨k, present, rfl⟩ := mem_blockElems.mp inside
    exact all k present
  have bound : ∀ (t : ℤ), magReal (mxMax dst) * 2 ^ t = ((fmax * 2 ^ t : ℚ) : ℝ) := fun t => by
    rw [mxMax_real format]
    push_cast
    rfl
  refine ⟨fun ⟨k, present, special⟩ => ?_, fun zero => mxScale_of_zero (elems zero), fun t fits ⟨k, present, needs⟩ => ?_⟩
  · exact mxScale_of_special ⟨X k, mem_blockElems.mpr ⟨k, present, rfl⟩, special⟩
  · refine mxScale_smallest (elems fun k present => ⟨(fits k present).1, ?_⟩)
      ⟨X k, mem_blockElems.mpr ⟨k, present, rfl⟩, ?_⟩
    · rw [bound]
      exact Rat.cast_le.mpr (fits k present).2
    · rw [bound]
      exact Rat.cast_lt.mpr needs

/-- Settles O33: the scale of a block is found between two powers of two, and the loops of `vquant` and `vdquant` write a
group. -/
theorem quantisation : Obligations.Quantisation := by
  intro s dst src d a x wide narrow_ h vl fmax bias bad X
  refine ⟨fun isBad => badOperand_of_vquant wide narrow_ (quantBad_iff.mpr isBad),
    fun isBad => badOperand_of_vdquant wide narrow_ (quantBad_iff.mpr isBad), fun good => ?_, fun good => ?_⟩
  · have short : (blockScales h src dst a).length ≤ 8 := by
      rw [blockScales_length]
      have := h.vl.isLt
      omega
    have scale : ∀ b, b < (vl + 31) / 32 →
        ((BitVec.ofNat 64 (packBytes (blockScales h src dst a))).extractLsb' (8 * b) 8).toNat = blockScale h src dst a b :=
      fun b below => by
        rw [extract_packBytes short, blockScales_getD below]
        exact Nat.mod_eq_of_lt (mxScale_le ..)
    refine ⟨BitVec.ofNat 64 (packBytes (blockScales h src dst a)), ?_,
      fun j above => getLsbD_packBytes (by rwa [blockScales_length]), fun b below => ?_⟩
    · refine convertsTo.congr (vquant_converts wide narrow_ (Bool.eq_false_iff.mpr (mt quantBad_iff.mp good))) fun k below => ?_
      have block : k / 32 < (vl + 31) / 32 := by
        have : k < vl := below
        omega
      beta_reduce
      rw [scale _ block, blockScales_getD block]
      rfl
    · beta_reduce
      rw [scale b below]
      exact blockScale_spec narrow_ h b
  · refine convertsTo.congr (vdquant_converts wide narrow_ (Bool.eq_false_iff.mpr (mt quantBad_iff.mp good))) fun k _ => ?_
    have byte : ((s.hart.xreg x).extractLsb' (8 * (k / 32)) 8).toNat % 256 =
        ((xreg s x).extractLsb' (8 * (k / 32)) 8).toNat := Nat.mod_eq_of_lt (BitVec.isLt _)
    rw [mxValue, byte]

end

end Sys2Proof.Machine
end

