-- ==== Sys2Proof/Proofs/TwiceInI3.lean ====
section
/-! SUPPORT. The I3 slice of a line holds two copies of one granule, and the copy that a reader finds is good (R94, R96). A row that
another line holds misses, the slice is put in order around it, and the next row of the same operand meets the second copy. -/

namespace Sys2Proof.Machine

/-- A copy that a turn placed, with the bytes and metadata that memory has. -/
def placedCopy : Copy := ⟨⟨0, resetMeta⟩, false, 2, 0, 0⟩

/-- Core 0 maps the first page. x1 describes rows at 0 and 8320, p1 enables these two and no column, p2 one byte of depth. The slice
of lines 0 and 65 holds granule 130 twice, a placeholder behind a placed copy, and the upper granule of line 0, as I2 does. -/
def twiceInI3 : State := { State.reset with
  hart := { Hart.reset with
    x := Hart.reset.x.set 1 (260 <<< 48), p := (Hart.reset.p.set 1 3).set 2 1, tiles := [Tile.zero], mvl := 32, tvec := 0x40 }
  cores := [(0, { CoreSt.reset with tlb := [page0] })]
  clusters := [(0, { ClusterSt.reset with i2 := [(1, placedCopy)] })]
  i3 := [(1, placedCopy), (130, placedCopy), (130, { placedCopy with ph := true })] }

/-- The product of both rows with no column. -/
def twoRows : Instr := .mmas 0 1 0 1 2 .i8 false

/-- Row 0 brings its line into I3, and row 1 then finds the placeholder: the product traps. -/
theorem exec_twoRows_pc : (answered (exec twoRows twiceInI3)).map (·.hart.pc) = some 0x40 := by decide +kernel

/-! ## What the statement asks -/

theorem maps_twiceInI3 {va : Word} (low : va.toNat < 65536) : Maps twiceInI3 va .read va.toNat false :=
  maps_page0 (show (coreAt twiceInI3 (coreOfSlot 0)).tlb = [page0] from rfl) launch0 low rfl rfl

theorem takes_reset : Takes twiceInI3 (.cluster 0) 0 ⟨0, resetMeta⟩ := ⟨by decide +kernel, by decide +kernel⟩

theorem ways_twiceInI3 (n gran : Nat) : Ways twiceInI3 n gran := fun src => by
  simp [noWay, allUp_of_noLease (s := twiceInI3) rfl _ _]

/-- The granules of both rows are as the statement asks: every copy that a reader finds is good. -/
theorem settled_twiceInI3 {gran : Nat} (row : gran = 0 ∨ gran = 130) : TileSettled twiceInI3 gran 0 := by
  have junction : (junctionGranule twiceInI3 gran).1 = ⟨0, resetMeta⟩ := by
    rcases row with rfl | rfl <;> decide +kernel
  have i2 : tget (clusterAt twiceInI3 0).i2 gran = none := by rcases row with rfl | rfl <;> rfl
  have i3 : ∀ c, tget twiceInI3.i3 gran = some c → c = placedCopy := by
    rcases row with rfl | rfl <;> intro c found
    · cases found
    · exact (Option.some.inj found).symm
  refine ⟨?_, ?_, ways_twiceInI3 _ _, ?_, fun c found => ?_⟩
  · rcases row with rfl | rfl <;> decide +kernel
  · rcases row with rfl | rfl <;> decide +kernel
  · rw [junction]
    exact ⟨takes_reset, rfl⟩
  · rcases found with ⟨e, stashed, -⟩ | found | found
    · cases stashed
    · exact nomatch i2.symm.trans found
    · rw [i3 c found]
      exact ⟨rfl, takes_reset, rfl⟩

/-- The first byte of both enabled rows can be read. -/
theorem rowsReady_twiceInI3 : rowsReady twiceInI3 BitVec.toNat (fun _ => false) (fun _ => 0) (xreg twiceInI3 1) 1
    (fun r => (preg twiceInI3 1).getLsbD r) := by
  have rows : ∀ r, r < 32 → (preg twiceInI3 1).getLsbD r = true → rowAddr (xreg twiceInI3 1) r = 0 ∨
      rowAddr (xreg twiceInI3 1) r = 8320 := by decide +kernel
  intro r b small on first
  obtain rfl : b = 0 := by omega
  refine ⟨fun window => absurd window (by decide +kernel), fun _ => ?_⟩
  rcases rows r small on with at_ | at_ <;> rw [at_]
  · exact ⟨maps_twiceInI3 (by decide), settled_twiceInI3 (.inl rfl)⟩
  · exact ⟨maps_twiceInI3 (by decide), settled_twiceInI3 (.inr rfl)⟩

/-- Refutes O42: the statement asks of an operand's granules only that the copy that a reader finds in I3 is good. In the state
`twiceInI3` the I3 holds a second copy of granule 130, a placeholder. The fetch of row 0 misses I3, which puts the slice in order
copy by copy and leaves the placeholder as granule 130; the fetch of row 1 meets it, and `mmas` enters the handler (R104). -/
theorem not_matrixProducts : ¬ Obligations.MatrixProducts := by
  unfold Obligations.MatrixProducts
  intro h
  obtain ⟨-, -, -, -, -, packed, -⟩ := h twiceInI3 0 0 0 1 0 1 2 .i8 false BitVec.toNat (fun _ => false) (fun _ => 0)
  have one : ((List.range 96).filter fun t => (preg twiceInI3 2).getLsbD t).length = 1 := by decide +kernel
  have noColumn : ∀ r, r < 32 → (preg twiceInI3 1).getLsbD (32 + r) = false := by decide +kernel
  obtain ⟨t, -, ran, -, gone, -⟩ := packed rfl (by decide) rfl (by decide +kernel) (by decide +kernel) (by decide +kernel)
    (by rw [one]; exact rowsReady_twiceInI3) (fun r _ small on => absurd (on.symm.trans (noColumn r small)) (by decide)) Tile.zero rfl
  have handler : t.hart.pc = 0x40 := of_answered exec_twoRows_pc ran
  exact absurd (handler.symm.trans gone.pc) (by decide +kernel)

end Sys2Proof.Machine
end
